-- ==== Sys2Proof/Word.lean ====
section
/-!
DEFINITION. The word types of the PX12 and their plainest arithmetic (R3: bits numbered from 0 at the
least significant end; R210: signed types hold two's complement).
-/

namespace Sys2Proof

/-- One byte. -/
abbrev Byte := BitVec 8
/-- A 32-bit word: one lane of a vector register (R151). -/
abbrev Word := BitVec 32
/-- A 64-bit word: a uniform register, a column address, an instruction word (R151, R181, R254). -/
abbrev DWord := BitVec 64
/-- A 32-bit lane mask, bit l for lane l. -/
abbrev Mask := BitVec 32
/-- A 64-byte record: submission record, kernel header, surface record (R69, R72, R179). -/
abbrev Rec64 := BitVec 512

/-- The lane numbers 0 to 31, ascending (R128). -/
def lanes32 : List Nat :=
  [0, 1, 2, 3, 4, 5, 6, 7, 8, 9, 10, 11, 12, 13, 14, 15,
   16, 17, 18, 19, 20, 21, 22, 23, 24, 25, 26, 27, 28, 29, 30, 31]

/-- The field [hi:lo] of a value, as a number (R3). -/
def fieldNat {w : Nat} (x : BitVec w) (hi lo : Nat) : Nat := (x.toNat >>> lo) % 2 ^ (hi + 1 - lo)

/-- The field of `n` bits from bit `lo`, as bits. -/
def fieldBits {w : Nat} (x : BitVec w) (lo n : Nat) : BitVec n := x.extractLsb' lo n

end Sys2Proof
end

