-- ==== Sys2Proof/Config.lean ====
section
/-!
DEFINITION. What an implementation fixes, and the free values: constants without a body, so that no proof can see what
they are (UNVERIFIED, log entry 4). Time and clock counts are timing (R21, R157): the model fixes only that they never run backwards (DESIGN
CHOICE, log entry 5).
-/

namespace Sys2Proof.Config

/-- The module's own package number (R181); given by the system, not by the manual. -/
opaque package : BitVec 12
/-- The security version fused at manufacture (R57). -/
opaque fusedSvn : Word
/-- The key hash fused at manufacture (R59). -/
opaque fusedKeyHash : List Byte
/-- The SM3 digest of the boot ROM (R61). -/
opaque bootRomDigest : List Byte
/-- The SM3 digest of GB/T 32905, a named standard that the manual does not restate (R59, R61). -/
opaque sm3 : List Byte → List Byte
/-- SM2 verification with the default 16-byte signer identity of GB/T 32918: key, message, signature (R59). -/
opaque sm2Verify : List Byte → List Byte → List Byte → Bool
/-- The SM2 signature of a transcript by the device identity key (R61). -/
opaque sm2Sign : List Byte → List Byte
/-- The slot 0 certificate chain of the device identity key (R61). -/
opaque certChain : List Byte
/-- Microseconds that pass in step n (timing). -/
opaque usStep : Nat → Nat
/-- Arithmetic clock cycles of a cluster that pass in step n (R21, R157). -/
opaque cycStep : Nat → Nat → Nat
/-- The free values: value n of the results that the manual leaves open (R50, R192). Nothing constrains them (DESIGN CHOICE, log entry 3). -/
opaque freeValue : Nat → DWord

/-- What a byte of another module's memory that the machine does not know holds in a step: step, column of the system · 2^34 + offset
(DESIGN CHOICE, log entry 67). -/
opaque foreignByte : Nat → Nat → Byte
/-- Whether a line of another module's memory is poisoned in a step: step, key of the byte ÷ 64 (DESIGN CHOICE, log entry 67). -/
opaque foreignPois : Nat → Nat → Bool

/-- Whether another module's column has joined a collective (step, column of the system, join number or TAG), and whether its word agrees with the
others (R429, R432; DESIGN CHOICE, log entry 67). -/
opaque foreignJoined : Nat → Nat → Nat → Bool
opaque foreignAgrees : Nat → Nat → Nat → Bool
/-- The offset of the source (0) or destination (1) buffer that another module's column names in a group collective: step, column of the system
(R430; DESIGN CHOICE, log entry 67). -/
opaque foreignBuf : Nat → Nat → Nat → Nat
/-- The record address of the n-th REPART of another module's column, none before it has issued: step, column of the system, n (R452; DESIGN CHOICE,
log entry 67). -/
opaque foreignRepart : Nat → Nat → Nat → Option DWord

/-- The sum of `f i` for i below n. -/
def sumBelow (f : Nat → Nat) : Nat → Nat
  | 0 => 0
  | n + 1 => sumBelow f n + f n

/-- Microseconds from step a to step b. -/
def usBetween (a b : Nat) : Nat := sumBelow usStep b - sumBelow usStep a

/-- Arithmetic clock cycles of a cluster from step a to step b. -/
def cycBetween (cluster a b : Nat) : Nat := sumBelow (cycStep cluster) b - sumBelow (cycStep cluster) a

end Sys2Proof.Config
end

