-- ==== Sys2Proof/Machine/Tab.lean ====
section
/-!
DEFINITION. Sparse tables: a list of (key, value) pairs in one canonical form, keys strictly rising and no entry equal to
what an unlisted key reads as (the type's default). Memory, poison, scratchpad and register files are such tables,
so that equal contents are equal data.
-/

namespace Sys2Proof.Machine

/-- A sparse table. The entry type `Host.Cell` of memory is `Nat × BitVec 8`. -/
abbrev Tab (α : Type) := List (Nat × α)

variable {α : Type}

/-- The value at key `k`; an unlisted key reads as the default. -/
def tabGet [Inhabited α] : Tab α → Nat → α
  | [], _ => default
  | (k', v) :: t, k => if k' = k then v else tabGet t k

/-- The table without any entry at key `k`. -/
def tabErase : Tab α → Nat → Tab α
  | [], _ => []
  | (k', v) :: t, k => if k' = k then tabErase t k else (k', v) :: tabErase t k

/-- The table with (k, v) put before the first greater key. -/
def tabInsert : Tab α → Nat → α → Tab α
  | [], k, v => [(k, v)]
  | (k', v') :: t, k, v => if k < k' then (k, v) :: (k', v') :: t else (k', v') :: tabInsert t k v

/-- The table with `v` at key `k`. Writing the default removes the entry, so the form stays canonical. -/
def tabSet [DecidableEq α] [Inhabited α] (t : Tab α) (k : Nat) (v : α) : Tab α :=
  if v = default then tabErase t k else tabInsert (tabErase t k) k v

/-- The table with the value at `k` changed by `f`. -/
def tabMod [DecidableEq α] [Inhabited α] (t : Tab α) (k : Nat) (f : α → α) : Tab α :=
  tabSet t k (f (tabGet t k))

/-- Every key below which the entries of `t` lie is greater than `lo`: the keys rise strictly from above `lo`. -/
def tabRising : Option Nat → Tab α → Bool
  | _, [] => true
  | none, (k, _) :: t => tabRising (some k) t
  | some lo, (k, _) :: t => decide (lo < k) && tabRising (some k) t

/-- The canonical form: keys strictly rising, no entry at the default. -/
def tabWf [DecidableEq α] [Inhabited α] (t : Tab α) : Bool :=
  tabRising none t && t.all (fun e => decide (e.2 ≠ default))

/-- The table with `f k` written at each key of the list, in order. -/
def tabSetAll [DecidableEq α] [Inhabited α] (t : Tab α) : List (Nat × α) → Tab α
  | [] => t
  | (k, v) :: kvs => tabSetAll (tabSet t k v) kvs

end Sys2Proof.Machine
end

