-- ==== Sys2Proof/Syntax.lean ====
section
/-!
DEFINITION. The steps of the PX12: one constructor of `Instr` per row of spec/opcode_table.json.
A full word carries its fields in the shape of R255 (`Full`); a pair word is named by its half X and carries
both halves (R262); a device, host or engine step carries what the outside decides about it.
-/

namespace Sys2Proof

/-- An operand specifier (R256). `rsvd` is 0xF8 + n for n from 2 to 7: the reserved codes 0xFA to 0xFF. -/
inductive Opnd where
  | v (n : BitVec 7)
  | s (n : BitVec 6)
  | p (n : BitVec 3)
  | j (n : BitVec 3)
  | q (n : BitVec 4)
  | t (n : BitVec 4)
  | a (n : BitVec 3)
  | lane
  | col
  | rsvd (n : BitVec 3)
  deriving DecidableEq, Repr, Inhabited

/-- The type codes of TY (R259). `rsvd` is TY 15. -/
inductive Ty where
  | i32 | n32 | i64 | n64 | f32 | f64 | bf16x2 | f16x2 | i16x2 | i8x4 | e4m3x4 | e5m2x4 | hn4x8 | b32 | f16 | rsvd
  deriving DecidableEq, Repr, Inhabited

/-- Bits [32:0] of a full word without TY: the register form (I = 0) or the immediate form (I = 1) (R255). -/
inductive Form where
  | reg (b c : Opnd) (ra : Bool) (x : BitVec 11)
  | imm (imm : BitVec 24) (x4 : BitVec 4)
  deriving DecidableEq, Repr, Inhabited

/-- The fields of a full word other than K and OP (R255): the marker S, the guard G and GN, D, A, TY and the form. -/
structure Full where
  marker : Bool
  g : BitVec 3
  gn : Bool
  d : Opnd
  a : Opnd
  ty : Ty
  form : Form
  deriving DecidableEq, Repr, Inhabited

/-- The fields of a half of a pair word other than HOP (R262). `z` is bit 3, which must be 0. -/
structure HalfArgs where
  hg : BitVec 2
  hn : Bool
  hd : BitVec 8
  ha : BitVec 8
  hi : Bool
  z : Bool
  hs : Bool
  ht : BitVec 2
  deriving DecidableEq, Repr, Inhabited

/-- A half with its half opcode HOP (R262, R265). -/
structure Half where
  hop : BitVec 7
  args : HalfArgs
  deriving DecidableEq, Repr, Inhabited

/-- How the training of a PCI Express link ends (R15): trained at a width in lanes and a rate in GT/s,
`reduced` when a training at full width or rate failed first, or down. -/
inductive TrainOutcome where
  | trained (width rate : Nat) (reduced : Bool)
  | down
  deriving DecidableEq, Repr

/-- An Afzil link inside the package (R9, R46): between two dies of one quadrant, or the long link of two quadrants. -/
inductive AfzilLink where
  | intra (dieA dieB : Nat)
  | long (quadA quadB : Nat)
  deriving DecidableEq, Repr

/-- What the HBM4E controller found (cause 2 of R107). -/
inductive SliceCause where
  | channelDown (cluster : Nat)
  | stackDown (stack : Nat)
  | badLines (column : Nat)
  deriving DecidableEq, Repr

/-- The access of one lane that a packet carries (R358, R381): its lane, full column address, size in bytes, the
data written or the first operand, the second operand (ACAS), and the poison of a reply's data. -/
structure LaneAcc where
  lane : Nat
  addr : DWord
  size : Nat
  data : DWord
  data2 : DWord
  pois : Bool
  deriving DecidableEq, Repr, Inhabited

/-- A fabric packet with the fields of R51 and R359. `req` is the number of the request, whose low 16 bits are TAG; `slot` is SLOT;
`accs` stands for the LANES and BYTES fields and the payload, `words` for the payload of a message or of whole lines, `mask` for the LANES
field where it names no accesses (a message's enabled lanes, the lines of a reply, a teller tag); `hops` is HOPS. `via` is the intermediate
quadrant of its route, none for the minimal one (R47), and `port` the Slogen port by which it leaves, or has entered, the module (R50).
`parked` says that its owner holds it for a fault; `left` that its last flit has left the module, or that its request has been completed as
unreachable although it may still perform (R18). -/
structure Packet where
  kind : BitVec 8
  dest : DWord
  src : DWord
  vc : Nat
  npay : Nat
  slot : Nat
  req : Nat
  hops : Nat
  ord : BitVec 2
  scope : BitVec 3
  stat : BitVec 3
  ty : Ty
  op : BitVec 4
  cas : Bool
  accs : List LaneAcc
  words : List Word
  mask : Mask
  parked : Bool
  left : Bool
  via : Option Nat
  port : Nat
  deriving DecidableEq, Repr, Inhabited

/-- A Deferrable Memory Write to a port: its offset in the port's page and its bytes (R66). -/
structure PortWrite where
  off : Nat
  bytes : List Byte
  deriving DecidableEq, Repr, Inhabited

/-- What wakes a cluster (R22): work of this module's own, or a packet of another module. -/
inductive WakeCause where
  | work (cluster : Nat)
  | packet (p : Packet)
  deriving DecidableEq, Repr, Inhabited

/-- What teller data moves (R359, R370): the next packet of an operation of this module, or a packet that has come. -/
inductive TellerMove where
  | own (op : Nat)
  | packet (p : Packet)
  deriving DecidableEq, Repr, Inhabited

/-- What a replica invalidate is (R367): one of an UNSEAL of this module to a cluster, or the packet of another module's. -/
inductive InvalidateOf where
  | own (cluster : Nat)
  | packet (p : Packet)
  deriving DecidableEq, Repr, Inhabited

/-- A corrupted flit at a port (R18): `again` where it is the flit whose last delivery failed too. -/
structure FlitRetry where
  port : Nat
  again : Bool
  deriving DecidableEq, Repr, Inhabited

/-- The steps of the machine, one constructor per row of the table of operations and events: instruction words first, then the steps
that the machine takes by itself, then those that the outside gives. -/
inductive Instr where
  /-- HNOP (R265). A pair-word half that reads and writes nothing. -/
  | hnop (marker : Bool) (x : HalfArgs) (y : Half)
  /-- HALF_IADD (R265). Half d := d + a, wrapping or saturating. -/
  | halfIadd (marker : Bool) (x : HalfArgs) (y : Half)
  /-- HALF_ISUB (R265). Half d := d - a. -/
  | halfIsub (marker : Bool) (x : HalfArgs) (y : Half)
  /-- HALF_AND (R265). Half d := d AND a. -/
  | halfAnd (marker : Bool) (x : HalfArgs) (y : Half)
  /-- HALF_OR (R265). Half d := d OR a. -/
  | halfOr (marker : Bool) (x : HalfArgs) (y : Half)
  /-- HALF_XOR (R265). Half d := d XOR a. -/
  | halfXor (marker : Bool) (x : HalfArgs) (y : Half)
  /-- HALF_ANDN (R265). Half d := d AND NOT a. -/
  | halfAndn (marker : Bool) (x : HalfArgs) (y : Half)
  /-- HALF_SHL (R265). Half logical shift left of d by a. -/
  | halfShl (marker : Bool) (x : HalfArgs) (y : Half)
  /-- HALF_SHR (R265). Half logical shift right of d by a. -/
  | halfShr (marker : Bool) (x : HalfArgs) (y : Half)
  /-- HALF_SAR (R265). Half arithmetic shift right of d by a. -/
  | halfSar (marker : Bool) (x : HalfArgs) (y : Half)
  /-- HALF_IMIN (R265). Half integer minimum of d and a. -/
  | halfImin (marker : Bool) (x : HalfArgs) (y : Half)
  /-- HALF_IMAX (R265). Half integer maximum of d and a. -/
  | halfImax (marker : Bool) (x : HalfArgs) (y : Half)
  /-- HALF_MOV (R265). Half copies a's bits into d. -/
  | halfMov (marker : Bool) (x : HalfArgs) (y : Half)
  /-- HALF_MOVI (R265). Half writes imm8, extended under R263, into d. -/
  | halfMovi (marker : Bool) (x : HalfArgs) (y : Half)
  /-- HALF_FADD (R265). Half floating-point d + a. -/
  | halfFadd (marker : Bool) (x : HalfArgs) (y : Half)
  /-- HALF_FSUB (R265). Half floating-point d - a. -/
  | halfFsub (marker : Bool) (x : HalfArgs) (y : Half)
  /-- HALF_FMUL (R265). Half floating-point d x a. -/
  | halfFmul (marker : Bool) (x : HalfArgs) (y : Half)
  /-- HALF_FMIN (R265). Half FMIN of d and a. -/
  | halfFmin (marker : Bool) (x : HalfArgs) (y : Half)
  /-- HALF_FMAX (R265). Half FMAX of d and a. -/
  | halfFmax (marker : Bool) (x : HalfArgs) (y : Half)
  /-- HALF_FAMAX (R265). Half FAMAX of d and a. -/
  | halfFamax (marker : Bool) (x : HalfArgs) (y : Half)
  /-- HALF_POPC (R265). Half population count of a. -/
  | halfPopc (marker : Bool) (x : HalfArgs) (y : Half)
  /-- HALF_CLZ (R265). Half leading-zero count of a. -/
  | halfClz (marker : Bool) (x : HalfArgs) (y : Half)
  /-- HALF_IMUL (R265). Half low 32 bits of d x a, or the saturated product. -/
  | halfImul (marker : Bool) (x : HalfArgs) (y : Half)
  /-- NOP (R281). No effect; ends the run when S is set. -/
  | nop (w : Full)
  /-- BRA (R282). Sends enabled lanes to a direct target. -/
  | bra (w : Full)
  /-- BRX (R283). Sends each enabled lane to its own checked register target. -/
  | brx (w : Full)
  /-- CALL (R284). Branches to a direct target, writing the return address to the link register and %ret. -/
  | call (w : Full)
  /-- CALLX (R284). Branches to a register target, writing the return address to the link register and %ret. -/
  | callx (w : Full)
  /-- RET (R285). Returns to %ret or to a register target. -/
  | ret (w : Full)
  /-- LOOP (R286). Decrements a counter and branches while it stays nonzero. -/
  | loop (w : Full)
  /-- JSET_MASK (R287). Writes a rejoin mask from a predicate or rejoin source ANDed with the enabled lanes. -/
  | jsetMask (w : Full)
  /-- JSET_ENABLED (R287). Writes a rejoin mask with the enabled lanes. -/
  | jsetEnabled (w : Full)
  /-- JOIN (R288). Parks the enabled lanes at a rejoin mask, or completes the join when every live lane has arrived. -/
  | join (w : Full)
  /-- JMOV (R289). Copies a whole mask between rejoin, predicate and uniform registers. -/
  | jmov (w : Full)
  /-- YIELD (R290). Ends the run. -/
  | yield (w : Full)
  /-- YIELD_POOL (R290). Ends the run and moves the enabled lanes to the pool when the pool holds lanes. -/
  | yieldPool (w : Full)
  /-- NAP (R291). Ends the run and holds the split for n cycles. -/
  | nap (w : Full)
  /-- EXIT (R292). Removes the enabled lanes from the column, its rejoin masks and barriers, completing joins and barrier phases they held up. -/
  | exit (w : Full)
  /-- SUSP (R296). Suspends enabled lanes' layout registers into free purse rows. -/
  | susp (w : Full)
  /-- RESUME (R297). Hands woken purse rows to enabled lanes and sends them to the resume PC. -/
  | resume (w : Full)
  /-- PINIT (R295). Writes a purse header from a 128-byte image in the column's own memory. -/
  | pinit (w : Full)
  /-- PWAKE_ROWS (R298). Wakes the purse rows named by the enabled lanes. -/
  | pwakeRows (w : Full)
  /-- PWAKE_FIELD (R298). Wakes every allocated purse row whose field meets a condition against a uniform value. -/
  | pwakeField (w : Full)
  /-- PXFORM (R299). Transforms a field of every allocated purse row and optionally wakes rows meeting a condition. -/
  | pxform (w : Full)
  /-- PCOUNT (R300). Returns a purse's ALLOC, WOKEN and NROW. -/
  | pcount (w : Full)
  /-- PFREE_ROWS (R301). Frees the purse rows named by the enabled lanes. -/
  | pfreeRows (w : Full)
  /-- PFREE_ALL (R301). Frees every allocated purse row. -/
  | pfreeAll (w : Full)
  /-- PFREE_WOKEN (R301). Frees every woken purse row. -/
  | pfreeWoken (w : Full)
  /-- SETRST (R303). Registers a restart label in %rst. -/
  | setrst (w : Full)
  /-- SETRST_CLR (R303). Clears the restart label. -/
  | setrstClr (w : Full)
  /-- TRAP (R307). Raises software trap 0x20 + n for the enabled lanes. -/
  | trap (w : Full)
  /-- RTRAP (R309). Leaves the trap handler and resumes the split at %tpc, releasing a stopped column. -/
  | rtrap (w : Full)
  /-- RTRAP_STEP (R309). Leaves a breakpoint or step handler letting one word of the focus split issue. -/
  | rtrapStep (w : Full)
  /-- BKPT (R308). Raises the breakpoint trap and stops the column. -/
  | bkpt (w : Full)
  /-- IADD (R313). Integer add. -/
  | iadd (w : Full)
  /-- ISUB (R313). Integer subtract. -/
  | isub (w : Full)
  /-- IADD3 (R313). Three-operand integer add. -/
  | iadd3 (w : Full)
  /-- IADDC (R314). Add with carry through a predicate. -/
  | iaddc (w : Full)
  /-- ISUBB (R314). Subtract with borrow through a predicate. -/
  | isubb (w : Full)
  /-- IMUL (R313). Low part of an integer product. -/
  | imul (w : Full)
  /-- IMULH (R313). High part of an integer product. -/
  | imulh (w : Full)
  /-- IMAD (R313). Integer multiply-add. -/
  | imad (w : Full)
  /-- IMADW (R315). Widening 32 x 32 + 64 multiply-add. -/
  | imadw (w : Full)
  /-- IDIV (R316). Integer division truncated towards zero. -/
  | idiv (w : Full)
  /-- IREM (R316). Integer remainder. -/
  | irem (w : Full)
  /-- IMIN (R313). Integer minimum. -/
  | imin (w : Full)
  /-- IMAX (R313). Integer maximum. -/
  | imax (w : Full)
  /-- IABS (R313). Integer absolute value. -/
  | iabs (w : Full)
  /-- IDOT4 (R315). Four-element i8 dot product with accumulate. -/
  | idot4 (w : Full)
  /-- AND (R313). Bitwise AND. -/
  | and (w : Full)
  /-- OR (R313). Bitwise OR. -/
  | or (w : Full)
  /-- XOR (R313). Bitwise XOR. -/
  | xor (w : Full)
  /-- ANDN (R313). Bitwise a AND NOT b. -/
  | andn (w : Full)
  /-- ORN (R313). Bitwise a OR NOT b. -/
  | orn (w : Full)
  /-- SHL (R313). Logical shift left. -/
  | shl (w : Full)
  /-- SHR (R313). Logical shift right. -/
  | shr (w : Full)
  /-- SAR (R313). Arithmetic shift right. -/
  | sar (w : Full)
  /-- ROL (R313). Rotate left. -/
  | rol (w : Full)
  /-- FSHL (R317). Funnel shift left across two words. -/
  | fshl (w : Full)
  /-- FSHR (R317). Funnel shift right across two words. -/
  | fshr (w : Full)
  /-- POPC (R313). Population count. -/
  | popc (w : Full)
  /-- CLZ (R313). Count leading zeros. -/
  | clz (w : Full)
  /-- CTZ (R313). Count trailing zeros. -/
  | ctz (w : Full)
  /-- BREV (R313). Bit reverse. -/
  | brev (w : Full)
  /-- BFX (R318). Bit-field extract. -/
  | bfx (w : Full)
  /-- BFI (R318). Bit-field insert. -/
  | bfi (w : Full)
  /-- PRMB (R319). Byte permute of two words. -/
  | prmb (w : Full)
  /-- ICMP (R320). Integer compare into a predicate. -/
  | icmp (w : Full)
  /-- ISEL (R321). Select by predicate. -/
  | isel (w : Full)
  /-- CVTI (R322). Integer width conversion. -/
  | cvti (w : Full)
  /-- MOV (R323). Register copy. -/
  | mov (w : Full)
  /-- MOVI (R323). Move immediate. -/
  | movi (w : Full)
  /-- MOVH (R323). Replace a 16-bit chunk of d with an immediate. -/
  | movh (w : Full)
  /-- MKCOL (R324). Build a column address from a global column and offset. -/
  | mkcol (w : Full)
  /-- COLOF (R324). Extract the global column index of an address. -/
  | colof (w : Full)
  /-- OFFOF (R324). Extract the offset of an address. -/
  | offof (w : Full)
  /-- LEA (R324). Add a scaled index to an address offset. -/
  | lea (w : Full)
  /-- PSET (R325). Set a predicate from a value or immediate. -/
  | pset (w : Full)
  /-- PAND (R325). Predicate AND. -/
  | pand (w : Full)
  /-- POR (R325). Predicate OR. -/
  | por (w : Full)
  /-- PXOR (R325). Predicate XOR. -/
  | pxor (w : Full)
  /-- PNOT (R325). Predicate NOT. -/
  | pnot (w : Full)
  /-- PMOV (R325). Predicate copy. -/
  | pmov (w : Full)
  /-- VOTE (R326). Ballot, any, all or eq vote over enabled lanes. -/
  | vote (w : Full)
  /-- SHFL (R327). Shuffle a value between lanes. -/
  | shfl (w : Full)
  /-- REDC (R329). Tree reduction across the enabled lanes. -/
  | redc (w : Full)
  /-- SCANC (R329). Prefix scan across the enabled lanes. -/
  | scanc (w : Full)
  /-- UMOV (R330). Move one lane's value into a uniform register. -/
  | umov (w : Full)
  /-- MFSR (R331). Read a system register. -/
  | mfsr (w : Full)
  /-- MTSR (R331). Write a system register. -/
  | mtsr (w : Full)
  /-- RDCNT (R332). Read retired-word count or cycle count. -/
  | rdcnt (w : Full)
  /-- FADD (R337). Floating-point add. -/
  | fadd (w : Full)
  /-- FSUB (R337). Floating-point subtract. -/
  | fsub (w : Full)
  /-- FMUL (R337). Floating-point multiply. -/
  | fmul (w : Full)
  /-- FFMA (R337). Fused multiply-add. -/
  | ffma (w : Full)
  /-- FMIN (R338). IEEE minimumNumber. -/
  | fmin (w : Full)
  /-- FMAX (R338). IEEE maximumNumber. -/
  | fmax (w : Full)
  /-- FAMAX (R338). Maximum magnitude. -/
  | famax (w : Full)
  /-- FDIV (R337). Correctly rounded division. -/
  | fdiv (w : Full)
  /-- FSQRT (R337). Correctly rounded square root. -/
  | fsqrt (w : Full)
  /-- FRCP (R339). Correctly rounded reciprocal. -/
  | frcp (w : Full)
  /-- FRSQ (R339). Correctly rounded reciprocal square root. -/
  | frsq (w : Full)
  /-- FEXP2 (R339). Correctly rounded 2 to the a. -/
  | fexp2 (w : Full)
  /-- FLOG2 (R339). Correctly rounded base-2 logarithm. -/
  | flog2 (w : Full)
  /-- FSIN (R339). Correctly rounded sine of pi times a. -/
  | fsin (w : Full)
  /-- FCOS (R339). Correctly rounded cosine of pi times a. -/
  | fcos (w : Full)
  /-- FTANH (R339). Correctly rounded hyperbolic tangent. -/
  | ftanh (w : Full)
  /-- FCMP (R343). Floating-point compare into a predicate. -/
  | fcmp (w : Full)
  /-- FCLASS (R344). Test a value's class against a mask. -/
  | fclass (w : Full)
  /-- FRND (R340). Round to an integral value. -/
  | frnd (w : Full)
  /-- FSCL (R341). Scale by a power of two. -/
  | fscl (w : Full)
  /-- FFRX (R342). Take a value apart into mantissa or exponent. -/
  | ffrx (w : Full)
  /-- F2I (R345). Float to integer conversion. -/
  | f2i (w : Full)
  /-- I2F (R345). Integer to float conversion. -/
  | i2f (w : Full)
  /-- FCVT (R346). Float format conversion, optionally with error feedback. -/
  | fcvt (w : Full)
  /-- FPACK (R347). Narrow two f32 values into packed elements. -/
  | fpack (w : Full)
  /-- FUNPK (R348). Widen one packed element to f32. -/
  | funpk (w : Full)
  /-- FDOT2 (R349). Two-element packed dot product with accumulate. -/
  | fdot2 (w : Full)
  /-- HNDEC (R350). Decode one HN4 element with its scales. -/
  | hndec (w : Full)
  /-- LD (R355). Load from the column's own memory. -/
  | ld (w : Full)
  /-- ST (R356). Store to the column's own memory. -/
  | st (w : Full)
  /-- LDS (R357). Load from the column's scratchpad slice. -/
  | lds (w : Full)
  /-- STS (R357). Store to the column's scratchpad slice. -/
  | sts (w : Full)
  /-- LDW (R357). Load from the core window. -/
  | ldw (w : Full)
  /-- STW (R357). Store to the core window. -/
  | stw (w : Full)
  /-- LDR (R360). Remote load from any column. -/
  | ldr (w : Full)
  /-- STR (R360). Remote store to any column. -/
  | str (w : Full)
  /-- LDRO (R361). Remote read-only load, served from replicas for sealed pages. -/
  | ldro (w : Full)
  /-- PREF (R362). Prefetch lines into the vault and load cache. -/
  | pref (w : Full)
  /-- COPY (R368). Join a teller copy of surface elements. -/
  | copy (w : Full)
  /-- COPYM (R373). Join a multicast copy into chosen cores' windows. -/
  | copym (w : Full)
  /-- XCH (R376). Present to a register exchange among the group's columns. -/
  | xch (w : Full)
  /-- SEAL (R366). Seal the pages of a region as a release at .sys scope. -/
  | seal (w : Full)
  /-- UNSEAL (R367). Clear the sealed bit of a region and invalidate every replica. -/
  | unseal (w : Full)
  /-- FLUSH (R365). Write back and invalidate a region's vault and load cache lines. -/
  | flush (w : Full)
  /-- SURF (R363). Report the translation and compression state of a page and block. -/
  | surf (w : Full)
  /-- ATOM (R380). Atomic read-modify-write returning the old value. -/
  | atom (w : Full)
  /-- ACAS (R382). Atomic compare and swap. -/
  | acas (w : Full)
  /-- RED (R383). Atomic reduction with no result. -/
  | red (w : Full)
  /-- FENCE (R387). Order the enabled lanes' accesses within a scope. -/
  | fence (w : Full)
  /-- BAR (R389). Arrive at a barrier and park until the phase completes. -/
  | bar (w : Full)
  /-- BARA (R389). Arrive at a barrier and continue. -/
  | bara (w : Full)
  /-- BARW (R389). Wait for the phase of the member's last arrival. -/
  | barw (w : Full)
  /-- BARD (R389). Arrive at a barrier and drop from its later phases. -/
  | bard (w : Full)
  /-- ELECT (R391). Choose the lowest enabled lane. -/
  | elect (w : Full)
  /-- RINIT (R393). Initialise a receipt. -/
  | rinit (w : Full)
  /-- RARV (R393). Make one arrival at a receipt. -/
  | rarv (w : Full)
  /-- RXPT (R393). Add an expected sector count to a receipt. -/
  | rxpt (w : Full)
  /-- RWAIT (R394). Wait until a receipt reaches a phase. -/
  | rwait (w : Full)
  /-- QBIND (R395). Bind a queue register. -/
  | qbind (w : Full)
  /-- QPUSH (R396). Push a message, stage item or mint task through a binding. -/
  | qpush (w : Full)
  /-- QPOP (R400). Pop a message, stage item or completion TAG through a binding. -/
  | qpop (w : Full)
  /-- QSTAT (R401). Snapshot a queue binding's count, capacity and kind. -/
  | qstat (w : Full)
  /-- SUBMIT (R402). Submit a 64-byte record to a port from device code and return the code. -/
  | submit (w : Full)
  /-- SEMSG (R386). Signal a 64-bit semaphore. -/
  | semsg (w : Full)
  /-- TDESC (R406). Write a checked tile descriptor. -/
  | tdesc (w : Full)
  /-- TFILL (R408). Fill a tile from a surface, converting into plane form. -/
  | tfill (w : Full)
  /-- TSTORE (R413). Store a tile to a surface. -/
  | tstore (w : Full)
  /-- TZERO (R407). Zero a tile's bytes and clear their poison. -/
  | tzero (w : Full)
  /-- MMA (R415). Enter a mint task built from its operands. -/
  | mma (w : Full)
  /-- ACLR (R415). Enter a task that clears an accumulator. -/
  | aclr (w : Full)
  /-- ADRAIN (R421). Drain an accumulator row into lanes, converting it. -/
  | adrain (w : Full)
  /-- ASPILL (R422). Write an accumulator to scratchpad. -/
  | aspill (w : Full)
  /-- ALOAD (R422). Load an accumulator from scratchpad. -/
  | aload (w : Full)
  /-- MWAIT (R420). Wait for earlier operations on an accumulator or on all of them. -/
  | mwait (w : Full)
  /-- CLCT_P2P (R428). Point-to-point put, get or add, one element per lane. -/
  | clctP2p (w : Full)
  /-- CLCT_GROUP (R429). Join a group collective over lane-named members. -/
  | clctGroup (w : Full)
  /-- CLCT_REC (R432). Join a collective named by a submitted record. -/
  | clctRec (w : Full)
  /-- REPART (R435). Join a repartition named by a record. -/
  | repart (w : Full)
  /-- SFCKEY (R434). Compute a Morton or Hilbert key. -/
  | sfckey (w : Full)
  /-- CSTAT (R427). Read and optionally clear a handle's status. -/
  | cstat (w : Full)
  /-- UNASSIGNED_OPCODE_WORD (R268). A split issues a word whose full opcode, half opcode or bits [61:53] are unassigned or reserved, which raises trap 0x01. -/
  | unassignedOpcodeWord (word : DWord)
  /-- WINDOW_B_READ (R63). A host read through window B is mapped by the segment table and translated through the target column's tables. -/
  | windowBRead (link off len : Nat)
  /-- WINDOW_B_WRITE (R63). A host write through window B is mapped, translated and performed in arrival order on its link, or discarded. -/
  | windowBWrite (link off : Nat) (bytes : List Byte)
  /-- EVQ_HEAD_WRITE (R76). A host write advances EVQ_HEAD, is discarded outside the range from EVQ_HEAD to EVQ_TAIL, and deasserts ALERT_N when the queue empties. -/
  | evqHeadWrite (value : DWord)
  /-- CONTEXT_TABLE_WRITE (R74). A host write to a context table entry is accepted only in STATE 0 or 1 and only with a STATE value of 0 or 1. -/
  | contextTableWrite (entry : Nat) (value : Rec64)
  /-- REGISTER_WRITE (R56). A host write to a window C location with no behaviour of its own, such as the segment or route table, stores the value or is discarded. -/
  | registerWrite (off : Nat) (value : DWord)
  /-- SUBMIT_LAUNCH_RECORD (R70). A 64-byte DMWr to a launch port is checked under R67 and enqueued in the launch queue of its context, or refused with a code. -/
  | submitLaunchRecord (link port : Nat) (w : PortWrite)
  /-- SUBMIT_COLLECTIVE_RECORD (R432). A 64-byte DMWr to the collective port is checked and enqueued, or refused with a code. -/
  | submitCollectiveRecord (link : Nat) (w : PortWrite)
  /-- SUBMIT_MANAGEMENT_RECORD (R73). A 64-byte DMWr to the management port is checked and enqueued, or refused with a code. -/
  | submitManagementRecord (link : Nat) (w : PortWrite)
  /-- POSTED_WRITE_TO_PORT (R66). A posted Memory Write to offset 0x000 of a port is discarded, and Jasper logs a management event. -/
  | postedWriteToPort (link port : Nat)
  /-- OPERATING_POINT_CHANGE_DONE (R21). A cluster's operating point change finishes within 20 us, and the cluster resumes issue and accepts waiting packets. -/
  | operatingPointChangeDone (cluster : Nat)
  /-- CLUSTER_CLOCK_GATE (R22). After 100 us with no resident group, request or packet, Jasper moves the cluster to point 4. -/
  | clusterClockGate (cluster : Nat)
  /-- CLUSTER_WAKE (R22). A packet or dispatch arriving at a cluster at point 4 makes Jasper return it to its previous point. -/
  | clusterWake (cause : WakeCause)
  /-- VAULT_WRITE_BACK (R40). The vault writes back an evicted dirty line or block, compressing a block of a compressed page. -/
  | vaultWriteBack (block : Nat)
  /-- LDR_REQUEST (R360). An LDR request packet arrives at the owner, which translates and performs the read in the owner column's vault partition. -/
  | ldrRequest (p : Packet)
  /-- READ_REPLY (R358). A read reply lands, writes its result lanes and returns the request credit. -/
  | readReply (p : Packet)
  /-- STR_WRITE (R360). An STR write packet arrives at the owner, which translates and performs the write, or refuses it. -/
  | strWrite (p : Packet)
  /-- WRITE_ACKNOWLEDGEMENT (R360). A write acknowledgement lands and returns the request credit. -/
  | writeAcknowledgement (p : Packet)
  /-- LDRO_REQUEST (R361). An LDRO request arrives at the owner, which returns whole lines for a sealed page or reads it as LDR otherwise. -/
  | ldroRequest (p : Packet)
  /-- TELLER_DATA (R370). A teller data packet of a copy lands at its destination and subtracts its sectors from the receipt. -/
  | tellerData (move : TellerMove)
  /-- TELLER_ACKNOWLEDGEMENT (R359). A teller acknowledgement lands and returns its credit. -/
  | tellerAcknowledgement (p : Packet)
  /-- REPLICA_INVALIDATE (R367). A replica invalidate packet of UNSEAL invalidates the cluster's replicas of the region and is acknowledged. -/
  | replicaInvalidate (op : Nat) (what : InvalidateOf)
  /-- INVALIDATE_ACKNOWLEDGEMENT (R367). A cluster's invalidate acknowledgement reaches the UNSEAL, which completes once every cluster has acknowledged. -/
  | invalidateAcknowledgement (op cluster : Nat)
  /-- ATOMIC_REQUEST (R381). An ATOM or ACAS request arrives at the owner, which performs each lane's indivisible read and write and replies. -/
  | atomicRequest (p : Packet)
  /-- ATOMIC_REPLY (R381). An atomic reply lands with the old values, writes d and returns the credit. -/
  | atomicReply (p : Packet)
  /-- RED_REQUEST (R383). A RED request arrives at the owner and is performed with no result, then acknowledged. -/
  | redRequest (p : Packet)
  /-- SEMSG_PACKET (R386). A SEMSG packet arrives at the owner, updates the semaphore as a release atomic and re-checks the trigger table's TRIG 2 entries. -/
  | semsgPacket (p : Packet)
  /-- MESSAGE (R397). A message packet arrives at the receiving vault and enters the 16-message buffer, is bounced when it is full, or is dropped for COMM 0. -/
  | message (p : Packet)
  /-- MESSAGE_ACCEPTED (R397). A message accepted packet lands at the sender and frees its binding for the next message. -/
  | messageAccepted (p : Packet)
  /-- MESSAGE_BOUNCED (R397). A bounced message lands back in the sender's return buffer. -/
  | messageBounced (p : Packet)
  /-- MESSAGE_RESEND (R397). A bounced message is resent 2 us after it bounced. -/
  | messageResend (column queue : Nat)
  /-- LAUNCH_START (R77). The head launch of a queue starts once the previous one has ended and its trigger has fired, and the PX12 reads and checks its descriptor. -/
  | launchStart (ctx queue : Nat)
  /-- GROUP_DISPATCH (R91). Each mesh cycle the cluster dispatcher picks a launch and stage for each core that can take a group and dispatches it with its preloads. -/
  | groupDispatch (core : Nat)
  /-- GROUP_FINISH (R292). A group finishes once every lane has exited, every access has performed and every engine operation it forked has completed. -/
  | groupFinish (group : Nat)
  /-- GROUP_RETIREMENT (R92). A finished group whose lower-indexed groups have retired releases its items, advances the retired count and frees its slots. -/
  | groupRetirement (group : Nat)
  /-- TRANSLATION_FAULT_REWALK (R189). A write to a watched table line makes the walker walk again, and on success the faulting word or operation replays. -/
  | translationFaultRewalk (entry : Nat)
  /-- FOLD_TURN (R117). Every 2 ms a hosting column stops the running logical column, writes its image and restores the other one. -/
  | foldTurn (column : Nat)
  /-- TRAP_ENTRY (R305). After a trapping split's results are written, the PX12 writes the trap record, reads the trap table entry and enters the handler at trap priority. -/
  | trapEntry (column slot : Nat)
  /-- RESULT_WRITEBACK (R137). A variable-latency result is written, and a split parked at its marker becomes ready once all its results are written. -/
  | resultWriteback (column result : Nat)
  /-- NAP_EXPIRY (R291). The n cycles of a NAP pass and the split becomes ready if its results are written. -/
  | napExpiry (column slot : Nat)
  /-- COPY_COMPLETION (R371). A copy completes and writes its token in every participant, or has subtracted all its sectors from the receipts. -/
  | copyCompletion (op : Nat)
  /-- TFILL_COMPLETION (R411). A tile fill completes, writing its token or having landed its sectors. -/
  | tfillCompletion (op : Nat)
  /-- TSTORE_COMPLETION (R411). A tile store completes, writing its token or having subtracted its sectors. -/
  | tstoreCompletion (op : Nat)
  /-- MINT_TASK_START (R417). A waiting task whose accumulator order, tile dependences and receipt phase are satisfied starts on the lower free mint. -/
  | mintTaskStart (core task : Nat)
  /-- MINT_TASK_COMPLETION (R419). A task completes, frees its window entry and posts its TAG unless it carries .nq, waiting if the completion queue is full. -/
  | mintTaskCompletion (core task : Nat)
  /-- SEAL_COMPLETION (R366). SEAL completes once every entry is written and every earlier store of the column to the region has performed. -/
  | sealCompletion (op : Nat)
  /-- FLUSH_COMPLETION (R365). FLUSH completes once every write-back of the region has reached the array. -/
  | flushCompletion (op : Nat)
  /-- COLLECTIVE_COMPLETION (R426). A collective ends and the clearer writes the handle's status word at every member. -/
  | collectiveCompletion (op : Nat)
  /-- REPART_MOVE (R436). When every member has joined, the clearer computes keys, splitters and receivers and moves the elements. -/
  | repartMove (op : Nat)
  /-- REPART_COMPLETION (R436). A repartition ends, counts are stored and every member receives STATE 2 with RECV and KEPT. -/
  | repartCompletion (op : Nat)
  /-- REPLICA_EVICTION (R361). A replica of a sealed line is evicted from a vault's replica region, so later LDRO words of the cluster need a packet again. -/
  | replicaEviction (cluster line : Nat)
  /-- TZERO_COMPLETION (R407). A TZERO finishes writing its tile bytes, releasing stalled scratchpad words and tasks that wait for it under R417. -/
  | tzeroCompletion (op : Nat)
  /-- PERST1_N_RESET (R60). Assertion or deassertion of PERST1_N resets only the link 1 endpoint. -/
  | perst1NReset (asserted : Bool)
  /-- LINK_TRAINING (R15). A PCI Express link trains to the highest common width and rate, falls back to x8 or x4, or goes down. -/
  | linkTraining (link : Nat) (outcome : TrainOutcome)
  /-- STAGING_WRITE (R60). A write to image staging is accepted in states 1 and 3 and discarded otherwise. -/
  | stagingWrite (off : Nat) (bytes : List Byte)
  /-- SPDM_GET_CERTIFICATE (R61). The SPDM responder returns the slot 0 certificate chain of the per-device SM2 identity key. -/
  | spdmGetCertificate (slot : Nat)
  /-- SPDM_CHALLENGE (R61). The SPDM responder answers a CHALLENGE with an SM2 signature. -/
  | spdmChallenge (nonce : List Byte)
  /-- SPDM_GET_MEASUREMENTS (R61). The SPDM responder returns the fixed measurement indices 1 to 4, signed. -/
  | spdmGetMeasurements (index : Nat)
  /-- BOARD_POWER_LIMIT_REQUEST (R23). The board controller requests a power limit over SMBus, which Jasper holds or ignores when out of range. -/
  | boardPowerLimitRequest (watts : Nat)
  /-- POWER_MEASUREMENT (R23). Every 100 us Jasper measures module power, lowers cluster islands one point if over the limit, or raises them after 10 ms below 95 %. -/
  | powerMeasurement (watts : Nat)
  /-- THERMAL_THROTTLE (R25). Each 1 ms while a sensor reads at least 100 C, Jasper lowers its clusters one point until it reads below 95 C. -/
  | thermalThrottle (sensor reading : Nat)
  /-- THERMAL_EVENT (R25). A reading of at least 110 C sends every cluster island to point 3 and logs a thermal event. -/
  | thermalEvent (sensor reading : Nat)
  /-- THERMAL_TRIP (R25). A reading of at least 120 C asserts THERM_TRIP_N and cuts all rails within 1 ms. -/
  | thermalTrip (sensor reading : Nat)
  /-- HEARTBEAT_POLL (R107). Every 10 ms Jasper polls each cluster on VC4, and two consecutive misses fail all 48 columns of the cluster. -/
  | heartbeatPoll (cluster : Nat) (answered : Bool)
  /-- SELF_REFRESH_ENTRY (R32). A pseudo-channel or second-tier channel whose idle timer reaches 2,048 command cycles enters self-refresh. -/
  | selfRefreshEntry (channel : Nat)
  /-- SELF_REFRESH_EXIT (R32). The first request after entry waits for the exit time and then proceeds. -/
  | selfRefreshExit (channel : Nat)
  /-- PATROL_READ (R38). A channel's patroller reads an unpatrolled line at lowest priority so that every line is read every 24 h, logging kind 3 or 4. -/
  | patrolRead (line : Nat)
  /-- PORT_DOWN (R18). A Slogen port that fails to deliver a flit after 16 retries goes down, completes in-flight packets as unreachable and reroutes queued ones. -/
  | portDown (port : Nat)
  /-- LINK_DOWN (R49). An intra-quadrant or long link goes down, and its packets complete or reroute as for a port. -/
  | linkDown (link : AfzilLink)
  /-- FABRIC_HEADER_DISCARD (R52). A header flit with VC or NPAY out of range is discarded at the first router, and Jasper logs a fabric event. -/
  | fabricHeaderDiscard (p : Packet)
  /-- LOGIC_CHECKER_ERROR (R107). A core checker detects a parity error in split, pool, PC, issue or engine control state and fails the column or core. -/
  | logicCheckerError (column : Nat) (coreShared : Bool)
  /-- SLICE_FAILURE (R107). The HBM4E controller finds a channel or stack down, or 16 uncorrectable lines of one slice within 1 h, and fails the affected columns. -/
  | sliceFailure (cause : SliceCause)
  /-- SECOND_TIER_CHANNEL_DOWN (R107). The second-tier controller finds a channel down, which is a module loss. -/
  | secondTierChannelDown (channel : Nat)
  /-- WATCHDOG_EXPIRY (R107). A variable-latency result outstanding for 20 ms, not parked on a fault nor waiting for a credit, fails the column. -/
  | watchdogExpiry (column : Nat)
  /-- CORRUPTED_FLIT_RETRY (R18). A Slogen port that receives a corrupted flit retries it at link level and counts the retry toward the limit of 16. -/
  | corruptedFlitRetry (flit : FlitRetry)
  /-- POWER_UP (R27). P3V3_AUX and P54V come into range with PWR_GOOD asserted, and the Jasper boot ROM starts and ramps the regulators. -/
  | powerUp
  /-- PWR_GOOD_DEASSERT (R27). Deassertion of PWR_GOOD stops every island except infrastructure island 3 of die 0 within 1 ms and loses all memory contents. -/
  | pwrGoodDeassert
  /-- PERST0_N_ASSERT (R60). Fundamental reset of link 0 returns the PX12 to STATE 0; every memory content and both images are lost. -/
  | perst0NAssert
  /-- PERST0_N_DEASSERT (R27). Link 0 leaves reset and starts training, or is held until the boot ROM is running. -/
  | perst0NDeassert
  /-- BOOT_ROM_READY (R57). The boot ROM sets STATE from 0 to 1 once window C and staging are ready, at most 50 ms after PERST0_N deasserts. -/
  | bootRomReady
  /-- VERIFY_AND_START_JASPER (R59). A BOOT_CMD write of 1 checks the staged image as Jasper firmware and starts Jasper on success. -/
  | verifyAndStartJasper
  /-- VERIFY_AND_LOAD_MICROCODE (R59). A BOOT_CMD write of 2 checks the staged image as core microcode and starts distributing it on success. -/
  | verifyAndLoadMicrocode
  /-- MEMORY_TRAINING_DONE (R59). Jasper finishes training the memories and sets STATE to 3. -/
  | memoryTrainingDone
  /-- MICROCODE_LOAD_DONE (R59). Distribution of microcode to every cluster finishes and STATE becomes 5 with no context current. -/
  | microcodeLoadDone
  /-- SWITCH_CONTEXT (R75). Execution of a switch context record marks the cut, stops dispatch and pre-empts every resident group. -/
  | switchContext
  /-- PREEMPTION_SECOND_PASS (R103). Once the drained groups have ended, all remaining groups stop together and are saved or flushed to their save regions. -/
  | preemptionSecondPass
  /-- SWITCH_CONTEXT_COMPLETE (R75). Vaults write back, caches are invalidated, context states change, saved groups are restored, dispatch resumes and the switch event is posted. -/
  | switchContextComplete
  /-- SET_POWER_LIMIT (R23). Execution of a set power limit record sets the host limit, and Jasper enforces the lower of the host and board limits. -/
  | setPowerLimit
  /-- SIGNAL_SEMAPHORE (R73). Execution of a signal semaphore record signals the semaphore as SEMSG does, through the current context's tables. -/
  | signalSemaphore
  /-- ABORT_CONTEXT (R467). Execution of an abort context record ends every unended launch of the context with STATUS 3 and discards its groups, collectives and triggers. -/
  | abortContext
  /-- CONTAIN (R122). Contain stops dispatch, discards resident groups, aborts collectives, ends every launch with STATUS 4, frees triggers and writes back vaults. -/
  | contain
  /-- FOLD_AND_REMAP (R116). Jasper updates the column map, re-homes failed slices, posts one fold event per column and step event 2, and STATE returns to 5. -/
  | foldAndRemap
  /-- INSTRUCTION_FETCH_FAULT (R269). The fetch of a split's next word meets a translation fault, a protection trap or a poisoned line, and the word replays or traps before it is decoded. -/
  | instructionFetchFault
  deriving DecidableEq, Repr

end Sys2Proof
end

