-- ==== Sys2Proof/Machine/State.lean ====
section
/-!
DEFINITION. The state of a PX12 module, as plain data, and its value right after reset (power off, STATE 0: R27, R57,
R60). Tables are sparse (`Tab`): an unlisted key holds the default, which every table takes as its reset value.
-/

namespace Sys2Proof.Machine

/-- Why the machine stops with a fault. -/
inductive Fault where
  /-- Raised by an event step (a packet arrival, a timer, an engine completion, a boot step) whose cause is not there in
  this state: the named step cannot happen. Safe: it allows no behaviour. -/
  | notEnabled (step : String)
  /-- Raised by an instruction word executed while no split is issuing. Safe. -/
  | noSplit
  deriving DecidableEq, Repr

/-- Why an instruction has no meaning. -/
inductive Refusal where
  /-- Raised in `exec` for an instruction not modelled. Safe: nothing can be proved about a run past it. -/
  | notModelled (mnemonic : String)
  deriving DecidableEq, Repr

/-! ## Host attachment, boot, events (chapters 01 and 03) -/

/-- A PCI Express link (R14, R15). -/
structure Link where
  up : Bool := false
  training : Bool := false
  width : Nat := 0
  rate : Nat := 0
  deriving DecidableEq, Repr, Inhabited

/-- What a host access or a DMWr got (R62 to R66): the data of a read and its EP bit, Unsupported Request,
Completer Abort, Successful Completion, Request Retry Status. -/
inductive HostReply where
  | data (bytes : List Byte) (ep : Bool)
  | ur
  | ca
  | sc
  | rrs
  deriving DecidableEq, Repr, Inhabited

/-- An SPDM answer (R61): the bytes and, where it is signed, the signature. -/
structure SpdmReply where
  bytes : List Byte
  sig : List Byte
  deriving DecidableEq, Repr, Inhabited

/-- Power-up, reset and firmware download (R27, R57 to R61). `st` is STATE and `err` is ERR of BOOT_STATUS. `replies`, `spdm`
and `hostMem` are what the host has received: completions, SPDM answers, completion records at host addresses. `uncabled` lists the Slogen ports
without a cable (R18), which is how the module is installed (DESIGN CHOICE, log entry 48: none at reset). `msixOn` is the MSI-X enable of R76: the
manual gives neither its reset value nor what sets it; it is off at reset and no step sets it (DESIGN CHOICE, log entry 69). -/
structure Boot where
  powered : Bool := false
  perst0 : Bool := true
  perst1 : Bool := true
  rom : Bool := false
  st : Nat := 0
  err : Nat := 0
  cmd : Nat := 0
  reached5 : Bool := false
  jasper : Bool := false
  jasperM : List Byte := []
  microM : List Byte := []
  fwTick : Nat := 0
  link0 : Link := {}
  link1 : Link := {}
  staging : Tab Byte := []
  replies : List HostReply := []
  spdm : List SpdmReply := []
  hostMem : List (Nat × BitVec 128) := []
  msixOn : Bool := false
  msix : Nat := 0
  uncabled : List Nat := []
  deriving DecidableEq, Repr, Inhabited

/-- The event queue (R76). `slots` is keyed by the running count mod 4,096. -/
structure Evq where
  head : Nat := 0
  tail : Nat := 0
  lost : Nat := 0
  seq : Nat := 0
  slots : Tab (BitVec 256) := []
  alert : Bool := false
  deriving DecidableEq, Repr, Inhabited

/-- A column map entry that a fold has changed (R113): STATE, CAUSE, FOLD, HOST. -/
structure FoldEnt where
  st : Nat
  cause : Nat
  fold : Nat
  host : Nat
  deriving DecidableEq, Repr, Inhabited

/-- The tables of window C (R56). The context table keeps whole entries; its STATE is bits [391:384] (R74). An
unlisted column map entry is at its reset value, live with its own number. Error logs are keyed 256 × log + entry
(24 stack logs, then 12 die logs). -/
structure HostTabs where
  seg : Tab DWord := []
  route : Tab DWord := []
  ctx : Tab Rec64 := []
  cmap : Tab (Option FoldEnt) := []
  logs : Tab (BitVec 128) := []
  logOvf : Tab Bool := []
  curCtx : Nat := 0
  switching : Bool := false
  noCtx : Bool := true
  lastRef : Tab Byte := []
  deriving DecidableEq, Repr, Inhabited

/-! ## Power, temperature, links, self-refresh (chapters 01 and 02) -/

/-- Islands and power (R19 to R25, R32, R107): points per island, a change in progress with its target, the point
before clock-gating, both limits in W, the last ten samples of 100 µs, samples in a row below 95 % of the limit, the
islands lowered (latest first), the last reading per sensor, the sensors that throttle, missed heartbeat polls, channels
in self-refresh, port state, the Afzil links that are down, each by its two dies, the lower first, the HBM4E lines that logged kind 2 or 4 within the last
hour, each with its last time (R107). -/
structure Power where
  points : Tab Nat := []
  target : Tab (Option Nat) := []
  before : Tab Nat := []
  hostLimit : Nat := 7500
  boardLimit : Nat := 7500
  samples : List Nat := []
  below : Nat := 0
  lowered : List Nat := []
  temps : Tab Nat := []
  hot : Tab Bool := []
  thermTrip : Bool := false
  fatal : Bool := false
  missed : Tab Nat := []
  selfRef : Tab Bool := []
  patrolled : Tab (Option Nat) := []
  portDead : Tab Bool := []
  portRetry : Tab Nat := []
  linksDown : List (Nat × Nat) := []
  badLines : List (Nat × Nat) := []
  deriving DecidableEq, Repr, Inhabited

/-! ## Launches and the scheduler (chapter 04) -/

/-- The fields of a kernel header (R72) that are used after its check. -/
structure KHdr where
  nv : Nat := 0
  ns : Nat := 0
  nt : Nat := 0
  na : Nat := 0
  win : Nat := 0
  level : Nat := 0
  preload : Nat := 0
  colsN : Nat := 0
  coresN : Nat := 0
  clusN : Nat := 0
  modsN : Nat := 0
  det : Bool := false
  recomp : Bool := false
  comm : Bool := false
  rstpol : Nat := 0
  rstoff : Nat := 0
  traptab : DWord := 0
  deriving DecidableEq, Repr, Inhabited

/-- A stage entry of a pipeline descriptor (R80). -/
structure StageDesc where
  qbase : DWord := 0
  argp : DWord := 0
  entry : DWord := 0
  groups : Nat := 0
  qcap : Nat := 0
  items : Nat := 0
  after : Nat := 0
  outmax : Nat := 0
  outmask : Nat := 0
  deriving DecidableEq, Repr, Inhabited

/-- A released run of pool slots (R88): start, length, items taken. -/
structure PoolRun where
  start : Nat
  len : Nat
  taken : Nat
  deriving DecidableEq, Repr, Inhabited

/-- A stage while its launch runs: the checked header, groups dispatched (in all and per slot) and retired, the finished indices in the
reorder window, durations of the last 16 retired groups, the pool's released runs, its slots that are not free. -/
structure StageRun where
  hdr : Option KHdr := none
  disp : Nat := 0
  slotDisp : Tab Nat := []
  ret : Nat := 0
  fin : List Nat := []
  durs : List Nat := []
  runs : List PoolRun := []
  busy : List Nat := []
  deriving DecidableEq, Repr, Inhabited

/-- A started launch. `failing` is the stage whose header failed its check, with which the launch ends once its
resident groups have finished (R72). `ending` holds the record to write and the next step of R71 (1 to 3), `sent` the tag of the packet to
another module that this step waits for. -/
structure LaunchRun where
  record : Rec64
  stages : List StageDesc := []
  sr : List StageRun := []
  failing : Option Nat := none
  ending : Option (BitVec 128 × Nat) := none
  sent : Option Nat := none
  srot : Nat := 0
  deriving DecidableEq, Repr, Inhabited

/-- The trigger of the record at the head of a queue (R97 to R99). -/
inductive TrigSt where
  | idle | waiting | armed | fired
  deriving DecidableEq, Repr, Inhabited

/-- A launch queue of a context (R65, R77): its records not yet started, its running launch, the trigger of the head,
whether the started launch's first read waits on a fault (R100), the records that end without having started, with their
completion records, while an earlier end waits on a fault (R464, R467), the completion index, and the records accepted so far. -/
structure LQueue where
  doomed : List (Rec64 × BitVec 128) := []
  recs : List Rec64 := []
  trig : TrigSt := .idle
  run : Option LaunchRun := none
  parked : Bool := false
  done : Nat := 0
  accepted : Nat := 0
  deriving DecidableEq, Repr, Inhabited

/-- An armed trigger table entry (R97): the cluster of the table, context, port (launch queue, 64 or 65), TRIG,
TRIGADDR, TRIGVAL. -/
structure TrigEnt where
  cluster : Nat
  ctx : Nat
  port : Nat
  trig : Nat
  addr : DWord
  val : DWord
  deriving DecidableEq, Repr, Inhabited

/-- The options of a pre-emption (R101). -/
inductive PreOpt where
  | flush | save | drain
  deriving DecidableEq, Repr, Inhabited

/-- A run of pool slots that a group has reserved in the pool of stage `stage` (R87): the slots filled by pushes that have reached the pool, the items pushed,
and for each push that has reached it its first request tag and its first slot in the run. -/
structure OutRun where
  stage : Nat
  start : Nat
  len : Nat
  filled : Nat
  pushed : Nat := 0
  placed : List (Nat × Nat) := []
  deriving DecidableEq, Repr, Inhabited

inductive GPhase where
  | running | finished | saved (o : PreOpt)
  deriving DecidableEq, Repr, Inhabited

/-- A column's part in a barrier above column level (R163), the lanes that have executed an arrival word in its current
phase (R129), and the kind of the first one's word: 1 BAR, 2 BARA, 3 BARD (R390). -/
structure UBar where
  arrived : Bool := false
  dropped : Bool := false
  phase : Bool := false
  lanes : Mask := 0
  kind : Nat := 0
  deriving DecidableEq, Repr, Inhabited

/-- How a column stopped by trap 0x10 or 0x11 stands (R150): the slot whose handler runs, the lane whose split, the focus split, may issue one
word, and the stopped lanes. -/
structure StopSt where
  slot : Nat
  step : Option Nat
  lanes : Mask
  deriving DecidableEq, Repr, Inhabited

/-- What of a pre-empted column its save area does not hold (R104, R369, R376, R390, R397, R400): its join counts, received messages,
unacknowledged and bounced messages, item cursors, which lanes have executed an arrival word at each barrier, its token registers that a held
copy will write (R141, R372), and its stop (R150, R308). -/
structure Keep where
  joinCnt : Tab Nat := []
  msgs : List (List Word) := []
  unacked : List (Nat × Mask × Nat) := []
  bounced : List Packet := []
  itemCur : Tab Nat := []
  ubar : Tab UBar := []
  tokens : List (Nat × Nat) := []
  stop : Option StopSt := none
  deriving DecidableEq, Repr, Inhabited

/-- A group from its dispatch until it retires: its launch (context and queue), stage, index, slot, its columns in
ascending order, the checked header, the launch's stage entry point and argument pointer, its items, the pool cursor,
its reserved runs, and the steps of its dispatch and of its end. -/
structure Group where
  ctx : Nat := 0
  queue : Nat := 0
  stage : Nat := 0
  index : Nat := 0
  slot : Nat := 0
  cols : List Nat := []
  hdr : KHdr := {}
  entry : DWord := 0
  argp : DWord := 0
  ngroups : Nat := 0
  qbase : DWord := 0
  items : List Nat := []
  popped : Nat := 0
  outRuns : List OutRun := []
  phase : GPhase := .running
  tDisp : Nat := 0
  tEnd : Nat := 0
  keep : Tab Keep := []
  deriving DecidableEq, Repr, Inhabited

/-- A context switch in progress (R75): new context, bound, cut, old context, the option of each group, whether
the second pass is done, MET so far and EST. -/
structure Switch where
  newCtx : Nat
  bound : Nat
  cut : Nat
  old : Nat
  noneCur : Bool
  plan : List (Nat × PreOpt)
  pass2 : Bool
  metB : Bool
  estB : Bool
  deriving DecidableEq, Repr, Inhabited

/-- A collective record in the collective port's queue or started and not yet ended (R432), numbered as accepted. -/
structure SubRec where
  ctx : Nat
  record : Rec64
  num : Nat
  deriving DecidableEq, Repr, Inhabited

/-- The scheduler. Launch queues are keyed 64 × context + queue. `firedOrder` lists (context, port) fired while the
context was not current. `mgmtExec` is the semaphore signal in execution while it waits on a fault, or with `mgmtSent` for the acknowledgement
of its packet; `cuts` are the steps at which the queued switch records were accepted (R75); `aborts` holds, for each queued abort record, its
context, the records that each queue of it had accepted, and the collective records accepted (R467). -/
structure Sched where
  queues : Tab LQueue := []
  collq : List SubRec := []
  collTrig : TrigSt := .idle
  collRun : List SubRec := []
  trigs : List TrigEnt := []
  firedOrder : List (Nat × Nat) := []
  mgmt : List Rec64 := []
  mgmtExec : Option Rec64 := none
  mgmtTrig : TrigSt := .idle
  mgmtSent : Option Nat := none
  cuts : List Nat := []
  aborts : List (Nat × List Nat × Nat) := []
  collNum : Nat := 0
  sw : Option Switch := none
  groups : Tab (Option Group) := []
  nextGroup : Nat := 0
  stopped : Bool := false
  rotQ : Tab Nat := []
  reserved : Tab (Option (Nat × Nat)) := []
  deriving DecidableEq, Repr, Inhabited

/-- The recovery in progress (R119, R121): every failed column with its cause, the first, and whether contain is done. -/
structure Recovery where
  failed : List (Nat × Nat)
  first : Nat
  contained : Bool
  lost : Bool
  deriving DecidableEq, Repr, Inhabited

/-! ## Columns (chapters 06 and 07) -/

/-- A trap record (R158, R274): %tpc, %taddr, %tmask, %tinfo, %tcode. -/
structure TrapRec where
  tpc : DWord := 0
  taddr : DWord := 0
  tmask : Mask := 0
  tinfo : BitVec 16 := 0
  tcode : Byte := 0
  deriving DecidableEq, Repr, Inhabited

/-- A register of the early-read check (R140). -/
inductive PReg where
  | v (n : Nat)
  | s (n : Nat)
  | p (n : Nat)
  | a (n : Nat)
  deriving DecidableEq, Repr, Inhabited

/-- The condition of a split (R131, R146, R149, R189, R291): ready; issuing its run; parked at its marker for results;
waiting for the event its next word needs (the word is tested again whenever the split is selected); parked on a
replayable fault; held by NAP; waiting for its results before it enters its trap handler. -/
inductive SplitCond where
  | ready | issuing | parked | waiting | faulted | napping | trapping
  deriving DecidableEq, Repr, Inhabited

/-- A split slot (R131). It holds a split when `mask` or `held` is not 0. `pend` lists the registers pending in the
current run (R140), `runLen` the words issued since the last run end (R136), `wcnt` the word count (R142), `hnd` whether the
split is in its trap handler, `held` the lanes its trap holds (R149), `trap` the trap record, `exiting` lanes that leave the
column when the split's results are written (R292), `nap` the cycle at which its NAP ends (R291). -/
structure Split where
  pc : DWord := 0
  mask : Mask := 0
  held : Mask := 0
  cond : SplitCond := .ready
  runLen : Nat := 0
  wcnt : Nat := 0
  hnd : Bool := false
  trap : TrapRec := {}
  exiting : Mask := 0
  nap : Nat := 0
  pend : List PReg := []
  deriving DecidableEq, Repr, Inhabited

/-- A pooled lane with its PC and entry count (R133). -/
structure PoolLane where
  lane : Nat
  pc : DWord
  entry : Nat
  deriving DecidableEq, Repr, Inhabited

/-- A lane parked at a JOIN word (`bar` false; `id` is its rejoin mask) or at a barrier word (`id` is 16 × level + number)
(R130). -/
structure ParkedLane where
  lane : Nat
  pc : DWord
  bar : Bool
  id : Nat
  deriving DecidableEq, Repr, Inhabited

/-- One register write of a variable-latency result, with its poison: a lane of a vector register, a uniform register,
a lane of a predicate. -/
inductive RWrite where
  | vec (n lane : Nat) (val : Word) (pois : Bool)
  | uni (n : Nat) (val : DWord) (pois : Bool)
  | prd (n lane : Nat) (val : Bool) (pois : Bool)
  deriving DecidableEq, Repr, Inhabited

/-- What a result still waits for: nothing, the reply to a request tag, the reply to the read of a stage item, an entry of the core's mint queue, an engine
operation, a phase of a receipt (region, offset, phase: R394). -/
inductive Await where
  | none
  | reply (tag : Nat)
  | item (tag : Nat)
  | mint (id : Nat)
  | op (id : Nat)
  | phase (win : Bool) (off ph : Nat)
  deriving DecidableEq, Repr, Inhabited

/-- An outstanding variable-latency result (R137): its number, the lanes whose split waits for it, the writes, the flags
it ORs into %fpflags (R158), and what it still waits for. -/
structure Result where
  id : Nat
  lanes : Mask
  writes : List RWrite
  flags : BitVec 5
  await : Await
  deriving DecidableEq, Repr, Inhabited

/-- A queue binding that is not unbound (R178): KIND, STG, ADDR. -/
structure QBind where
  kind : Nat
  stg : Nat
  addr : DWord
  deriving DecidableEq, Repr, Inhabited

/-- A column barrier (R163): the lanes that have dropped (all others are members), the lanes that have arrived, and
the phase. -/
structure CBar where
  dropped : Mask := 0
  arrived : Mask := 0
  phase : Bool := false
  deriving DecidableEq, Repr, Inhabited

/-- An outstanding request of a column (R53, R198): its tag, lanes, whether it only writes, whether it acquires, whether it releases,
whether it is an atomic, the destination cluster whose credit it holds (none while it has not been sent) and that credit's number. -/
structure Req where
  tag : Nat
  lanes : Mask
  write : Bool
  acq : Bool
  rel : Bool
  atom : Bool
  credit : Option Nat
  slot : Nat
  deriving DecidableEq, Repr, Inhabited

/-- A resident logical column (R151 to R163). Vector registers are keyed 32 n + lane; `vp`, `pp` and `sp` are their
poison. `joinCnt` counts the column's joins of each engine operation kind, which pairs its words with those of the other
participants. `unacked` lists the queue registers whose last message is
unacknowledged, each with the lanes and first later request tag of its fork, `bounced` the messages returned (R397), `itemCur` the item cursor of each binding (R400). `fences` holds the lanes, kind (0 full, 1 acquire, 2 release) and first later tag of the FENCE words not yet met (R387), `barGates` the accesses
that an arrival at a barrier (none: at every barrier) follows: lanes and first later tag (R207), `upsets` the register words
(register, lane, corrected) whose code an issue finds in error (R108; environment data), `frozen` marks a column stopped
by a failure or a pre-emption (R103, R107). -/
structure Column where
  group : Nat := 0
  idx : Nat := 0
  v : Tab Word := []
  vp : Tab Mask := []
  s : Tab DWord := []
  sp : DWord := 0
  p : Tab Mask := []
  pp : Tab Mask := []
  j : Tab Mask := []
  q : Tab (Option QBind) := []
  t : Tab (BitVec 256) := []
  ret : DWord := 0
  fpflags : BitVec 5 := 0
  rst : Word := 0xFFFFFFFF
  live : Mask := 0
  slots : Tab Split := []
  pool : List PoolLane := []
  parked : List ParkedLane := []
  mec : Nat := 0
  demote : Option Nat := none
  retired : Nat := 0
  stop : Option StopSt := none
  cbar : Tab CBar := []
  ubar : Tab UBar := []
  results : List Result := []
  nextRes : Nat := 0
  tokens : List (Nat × Nat) := []
  joinCnt : Tab Nat := []
  msgs : List (List Word) := []
  unacked : List (Nat × Mask × Nat) := []
  bounced : List Packet := []
  itemCur : Tab Nat := []
  reqs : List Req := []
  sendq : List Packet := []
  fences : List (Mask × Nat × Nat) := []
  barGates : List (Option Nat × Mask × Nat) := []
  upsets : List (Nat × Nat × Bool) := []
  frozen : Bool := false
  deriving DecidableEq, Repr, Inhabited

/-- The issue state of a core (R84, R138, R146): the stage it holds (context, queue, stage), its window size code, DET,
the rotation pointer, and for each pipe the position (0 to 15) of the split that ran last, the split that is issuing and
whether the pipe has finished its part of the rotation step. -/
structure CoreSt where
  held : Option (Nat × Nat × Nat) := none
  win : Nat := 0
  det : Bool := false
  rot : Nat := 0
  lastA : Nat := 15
  lastB : Nat := 15
  curA : Option (Nat × Nat) := none
  curB : Option (Nat × Nat) := none
  doneA : Bool := false
  doneB : Bool := false
  deriving DecidableEq, Repr, Inhabited

/-! ## Translation faults (R189 to R191) -/

/-- Who waits on a fault buffer entry. -/
inductive Waiter where
  | split (column slot : Nat)
  | packet (p : Packet)
  | engine (op : Nat)
  | fired (ctx port : Nat)
  | ending (ctx port : Nat)
  deriving DecidableEq, Repr, Inhabited

/-- A fault buffer entry of a cluster: entry number, the waiter, context, owner column, VADDR, ACC, whether its event is
still pending for queue space (R76), and the table lines watched. -/
structure FaultEnt where
  cluster : Nat
  ent : Nat
  waiter : Waiter
  ctx : Nat
  owner : Nat
  vaddr : DWord
  acc : Nat
  pending : Bool
  lines : List Nat
  deriving DecidableEq, Repr, Inhabited

/-- An error in the array copy of a line (R34, R35): correctable or not, and its symbol; `wrong` is what the code makes of an error that it
miscorrects. It is environment data: memory errors arise outside the machine's own steps (DESIGN CHOICE, log entry 26). -/
structure Upset where
  corr : Bool
  sym : Nat
  wrong : Option Rec64 := none
  deriving DecidableEq, Repr, Inhabited

/-! ## Engines (chapters 15 to 18) -/

/-- One column's slice of a COPY or COPYM (R368, R373): its column, first element and element count (for COPYM the slice
offset and bytes), its scratchpad offset for a slice or window endpoint, its token register or receipt offset, and
whether it joined with no enabled lane, and its fork: the lanes, and the first later request tag (R205). -/
structure CopySlice where
  col : Nat
  first : Nat
  count : Nat
  off : Nat
  src : DWord
  d : DWord
  treg : Nat
  empty : Bool
  lanes : Mask
  bound : Nat
  deriving DecidableEq, Repr, Inhabited

/-- A copy of a core's group (R369): copy or COPYM, its join number, form, kinds, .cv, the operands that every
participant must repeat, the slices joined, the surface records as read at the start, whether it has started, elements or bytes done, the
number, cluster and credit of its packets not yet acknowledged, bytes landed per receipt (destination column or core), the copy of a DIST 3
destination that the next packet goes to, and the code of a failure. -/
structure CopyOp where
  core : Nat
  group : Nat
  n : Nat
  multi : Bool
  rcpt : Bool
  srcK : Nat
  dstK : Nat
  cv : Bool
  a : DWord
  b : DWord
  slices : List CopySlice
  recA : Rec64
  recB : Rec64
  started : Bool
  pos : Nat
  unacked : List (Nat × Nat × Nat)
  landed : Tab Nat
  dst : Nat
  code : Nat
  deriving DecidableEq, Repr, Inhabited

/-- A TFILL or TSTORE (R408 to R413): issuing column, the copy of the descriptor, form, .s24, the surface record and
metadata addresses, the origins, the token register or receipt offset. -/
structure TileOp where
  col : Nat
  store : Bool
  desc : BitVec 256
  rcpt : Bool
  s24 : Bool
  surf : DWord
  metaA : DWord
  org : DWord
  d : DWord
  treg : Nat
  lanes : Mask
  bound : Nat
  deriving DecidableEq, Repr, Inhabited

/-- Which page operation (R365 to R367). -/
inductive PageKind where
  | flush | seal | unseal
  deriving DecidableEq, Repr, Inhabited

/-- A FLUSH, SEAL or UNSEAL: its column, offset, length, for UNSEAL the clusters whose invalidate is on its way and those that have it but whose
acknowledgement is (a cluster of another module is 768 × (package + 1) + its number), whether the entries are written, and for SEAL the lanes and the first request tag that its release does not cover. -/
structure PageOp where
  kind : PageKind
  col : Nat
  off : Nat
  len : Nat
  inval : List Nat
  acks : List Nat
  begun : Bool
  lanes : Mask
  bound : Nat
  deriving DecidableEq, Repr, Inhabited

/-- What one participant presents to an exchange (R376): its column, level, perm, .lrot, m, TY, k, its enabled lanes and
the values and poison of vs per lane (two words per lane, low first). -/
structure XchEnt where
  col : Nat
  level : Nat
  perm : Nat
  lrot : Bool
  m : Nat
  wide : Bool
  k : Nat
  en : Mask
  vals : List (Word × Bool)
  taken : Bool
  deriving DecidableEq, Repr, Inhabited

/-- An exchange at a level: the participants' container is given by their columns; `n` is its number (R376). -/
structure XchOp where
  group : Nat
  level : Nat
  n : Nat
  parts : List Nat
  ents : List XchEnt
  deriving DecidableEq, Repr, Inhabited

/-- A point-to-point operation of a column (R428): per lane its own offset, the peer's global column and the peer offset
with its aperture. -/
structure P2pOp where
  col : Nat
  handle : Nat
  kind : Nat
  ty : Ty
  lanes : List (Nat × Nat × Nat × Nat)
  bound : Nat
  deriving DecidableEq, Repr, Inhabited

/-- One member's word of a group collective (R429, R430). -/
structure ClctMem where
  col : Nat
  handle : Nat
  kind : Nat
  rop : Nat
  ty : Ty
  src : Nat
  dst : Nat
  count : Nat
  root : Nat
  lanes : Mask
  bound : Nat
  deriving DecidableEq, Repr, Inhabited

/-- A group collective: by lanes (`tag` none) with its member list and number, or by record (R429, R432). -/
structure ClctOp where
  members : List Nat
  n : Nat
  tag : Option (Nat × Word)
  mems : List ClctMem
  deriving DecidableEq, Repr, Inhabited

/-- A member's word of a repartition (R435): column, handle, its results, its fork. -/
structure RepMem where
  col : Nat
  handle : Nat
  recv : Nat
  kept : Nat
  code : Nat
  lanes : Mask
  bound : Nat
  deriving DecidableEq, Repr, Inhabited

/-- A repartition: the record's address, the join number, the record and its surface records as read by its first checks, its members (none before that),
the members joined, whether its outcome is decided. -/
structure RepOp where
  addr : DWord
  n : Nat
  record : Rec64
  ins : Rec64
  outs : Rec64
  members : List Nat
  mems : List RepMem
  moved : Bool
  deriving DecidableEq, Repr, Inhabited

/-- An engine operation in progress. -/
inductive OpBody where
  | copy (o : CopyOp)
  | tile (o : TileOp)
  | tzero (col : Nat) (desc : BitVec 256)
  | page (o : PageOp)
  | xch (o : XchOp)
  | p2p (o : P2pOp)
  | clct (o : ClctOp)
  | rep (o : RepOp)
  deriving DecidableEq, Repr, Inhabited

/-- An operation with its place in issue order and whether it is suspended on a fault (R190). -/
structure EngOp where
  seq : Nat
  ctx : Nat
  susp : Bool
  body : OpBody
  deriving DecidableEq, Repr, Inhabited

/-- What an entry of a core's mint queue does (R414, R417): a task, with its record and copies of its descriptors; ADRAIN;
ASPILL and ALOAD with their core scratchpad word index; MWAIT. -/
inductive MintAct where
  | task (op povr : Nat) (ks wrec wph : Nat) (aDesc bDesc : BitVec 256) (tag : DWord) (nq started finished : Bool)
  | drain (row : Nat) (ty : Ty) (ef sat : Bool) (vd vr : Nat) (lanes : Mask)
  | spill (base : Nat)
  | load (base : Nat)
  | wait (all : Bool)
  deriving DecidableEq, Repr, Inhabited

/-- An operation granted at a core's mint queue port, in grant order (R417): its number, group, issuing column,
accumulator; for a task its fork, the lanes and the first later request tag (R205), whether its phase has been tested and the test has passed (R417), and the
registers of its tile descriptors (R176). -/
structure MintOp where
  id : Nat
  seq : Nat
  group : Nat
  col : Nat
  acc : Nat
  act : MintAct
  lanes : Mask := 0
  bound : Nat := 0
  tested : Bool := false
  passed : Bool := false
  aReg : Nat := 0
  bReg : Nat := 0
  deriving DecidableEq, Repr, Inhabited

/-- A replica of a sealed line in a cluster's replica region (R361): the owner as a column of the system, virtual line number, bytes, poison. -/
structure Replica where
  cluster : Nat
  owner : Nat
  line : Nat
  data : Rec64
  pois : Bool
  deriving DecidableEq, Repr, Inhabited

/-- A host submission or step order that the outside decides: an event, or one word of a pipe (2 × core + pipe). -/
inductive Turn where
  | event (i : Instr)
  | issue (pipe : Nat)
  deriving DecidableEq, Repr

/-! ## The machine -/

/-- The state of a PX12 module. `tick` counts steps. `agenda` lists what the outside and timing make happen next;
`run` is the split (column, slot) whose next word issues. `cols` holds the resident logical columns, `cores` their cores'
issue state. Memory is keyed by column · 2^28 + tier · 2^27 + slice offset and holds the stored form; `pois` and `dirty` are
per 64-byte line (keyed by address ÷ 64), `upsets` the array errors of lines; `modes` are the compression codes of stored
256-byte blocks (keyed by address ÷ 256) and `vault` the decompressed blocks that the vault holds dirty. `spad` is
keyed core · 2^18 + word of the core scratchpad address, `acc` by accumulator element; `spadP` and `accP` are their
poison; `spadUp` lists scratchpad words (key, corrected) in error (R108; environment data). `foldTurn` marks the host columns whose guest is running. `freeIx` counts the free values used so far and `rota` the
turns that nothing ordered (with `tick` and `agenda` the model's own fields: DESIGN CHOICE, log entries 2 and 3); `ext` holds what the memory of other
modules is known to hold, by column of the system · 2^34 + offset (environment data, log entry 67); `imgPois` is the word poison of saved scratchpad images, keyed by memory key ÷ 4. `clctCnt` counts the group
collectives joined per context · 36,864 + column and member list (R429), `repAddrs` lists, per context · 36,864 + column, the record address
of every REPART since the group's dispatch (R452). -/
structure State where
  tick : Nat := 0
  agenda : List Turn := []
  run : Option (Nat × Nat) := none
  boot : Boot := {}
  evq : Evq := {}
  tabs : HostTabs := {}
  pw : Power := {}
  sch : Sched := {}
  recov : Option Recovery := none
  cols : Tab (Option Column) := []
  cores : Tab CoreSt := []
  mem : Tab Byte := []
  pois : Tab Bool := []
  dirty : Tab Bool := []
  upsets : Tab (Option Upset) := []
  modes : Tab Nat := []
  vault : Tab (Option (List Byte)) := []
  spad : Tab Word := []
  spadP : Tab Bool := []
  spadUp : List (Nat × Bool) := []
  acc : Tab Word := []
  accP : Tab Bool := []
  imgPois : Tab Bool := []
  replicas : List Replica := []
  faults : List FaultEnt := []
  net : List Packet := []
  ops : Tab (Option EngOp) := []
  nextOp : Nat := 0
  nextTag : Nat := 0
  seqNo : Nat := 0
  mintq : Tab (List MintOp) := []
  compq : Tab (List DWord) := []
  handles : Tab DWord := []
  clctCnt : List (Nat × List Nat × Nat) := []
  repAddrs : Tab (List DWord) := []
  foldTurn : Tab Bool := []
  ext : Tab (Option Byte) := []
  freeIx : Nat := 0
  rota : Nat := 0
  deriving DecidableEq, Repr

/-- The module right after reset: power off, STATE 0, nothing resident (R27, R57, R60). -/
def State.reset : State := {}

end Sys2Proof.Machine
end

