-- ==== Sys2Proof/Machine/Checks.lean ====
section
/-!
DEFINITION. The checks of a word that depend only on its own fields and the group's kernel header: checks 4 and 6 of R269
(R152, R153, R256 to R264, R276).
-/

namespace Sys2Proof.Machine

/-! ## Fields of a full word (R255) -/

/-- Whether a word is in the I = 1 form. -/
def isImm (w : Full) : Bool := match w.form with
  | .imm _ _ => true
  | .reg _ _ _ _ => false

/-- B and C; `v0`, the zero specifier, where the form has none. -/
def opB (w : Full) : Opnd := match w.form with
  | .reg b _ _ _ => b
  | .imm _ _ => .v 0
def opC (w : Full) : Opnd := match w.form with
  | .reg _ c _ _ => c
  | .imm _ _ => .v 0

/-- X of the register form, X4 of the immediate form. -/
def xOf (w : Full) : Nat := match w.form with
  | .reg _ _ _ x => x.toNat
  | .imm _ x4 => x4.toNat

/-- The [hi:lo] field of X or X4. -/
def xf (w : Full) (hi lo : Nat) : Nat := xOf w / 2 ^ lo % 2 ^ (hi + 1 - lo)

/-- Bit i of X or X4. -/
def xb (w : Full) (i : Nat) : Bool := xOf w / 2 ^ i % 2 == 1

/-- IMM24 as its 24 bits, and sign-extended. -/
def immN (w : Full) : Nat := match w.form with
  | .imm i _ => i.toNat
  | .reg _ _ _ _ => 0
def immS (w : Full) : Int := match w.form with
  | .imm i _ => i.toInt
  | .reg _ _ _ _ => 0

/-- A field of IMM24. -/
def immF (w : Full) (hi lo : Nat) : Nat := immN w / 2 ^ lo % 2 ^ (hi + 1 - lo)

/-! ## Operand specifiers (R256) -/

/-- The classes of R256. -/
inductive OKind where
  | v | s | p | j | q | t | a | lane | col
  deriving DecidableEq, Repr

/-- The class of a specifier; none for the reserved ones. -/
def opndKind : Opnd → Option OKind
  | .v _ => some .v
  | .s _ => some .s
  | .p _ => some .p
  | .j _ => some .j
  | .q _ => some .q
  | .t _ => some .t
  | .a _ => some .a
  | .lane => some .lane
  | .col => some .col
  | .rsvd _ => none

/-- The specifier's code. -/
def specOf : Opnd → Nat
  | .v n => n.toNat
  | .s n => 0x80 + n.toNat
  | .p n => 0xC0 + n.toNat
  | .j n => 0xC8 + n.toNat
  | .q n => 0xD0 + n.toNat
  | .t n => 0xE0 + n.toNat
  | .a n => 0xF0 + n.toNat
  | .lane => 0xF8
  | .col => 0xF9
  | .rsvd n => 0xF8 + n.toNat

/-- The register number of a specifier. -/
def numOf : Opnd → Nat
  | .v n => n.toNat
  | .s n => n.toNat
  | .p n => n.toNat
  | .j n => n.toNat
  | .q n => n.toNat
  | .t n => n.toNat
  | .a n => n.toNat
  | _ => 0

/-- What a field accepts: its classes (none for an unused field), whether a predicate there is a destination, whether a vector register
there is a 64-bit pair. -/
structure Fld where
  ks : List OKind := []
  dst : Bool := false
  wide : Bool := false
  deriving DecidableEq, Repr

/-- A register at or beyond its class count (R152). -/
def beyond (h : KHdr) (o : Opnd) : Bool :=
  match o with
  | .v n => h.nv ≤ n.toNat
  | .s n => n ≠ 0 && h.ns ≤ n.toNat
  | .t n => h.nt ≤ n.toNat
  | .a n => h.na ≤ n.toNat
  | _ => false

/-- The check of one operand field: the specifier for %tinfo and the reason. -/
def checkOpnd (h : KHdr) (f : Fld) (o : Opnd) : Option (Nat × Nat) :=
  if f.ks = [] then (if o = .v 0 then none else some (0, 9))
  else
    match opndKind o with
    | none => some (specOf o, 5)
    | some kd =>
      if !f.ks.contains kd then some (specOf o, 4)
      else if beyond h o then some (specOf o, 6)
      else if f.dst ∧ o = .p 0 then some (specOf o, 7)
      else if f.wide ∧ kd = .v then
        if numOf o % 2 = 1 then some (specOf o, 8)
        else if h.nv ≤ numOf o + 1 then some (specOf o, 6)
        else none
      else none

/-- What an instruction accepts: its fields, types (with the reason for another type than TY 15), subfields of X or X4 (low bit, width, accepted codes), the reason that its
remaining fields break, its forms, registers it reads beyond its fields, and whether its subfields are checked in a form that it does
not take. -/
structure Fmt where
  d : Fld := {}
  a : Fld := {}
  b : Fld := {}
  c : Fld := {}
  tys : Option (List Ty) := none
  tyReason : Nat := 1
  xs : List (Nat × Nat × (Nat → Bool)) := []
  more : Option (Nat × Nat) := none
  r : Bool := true
  i : Bool := false
  extra : List Opnd := []
  xAlways : Bool := false

/-- The first failure of a list of checks. -/
def firstOf {α : Type} : List (Option α) → Option α
  | [] => none
  | some x :: _ => some x
  | none :: t => firstOf t

/-- The subfields of X or X4: a bit outside all of them, then a code that is not accepted. -/
def checkX (xs : List (Nat × Nat × (Nat → Bool))) (x : Nat) : Option (Nat × Nat) :=
  let used := xs.foldl (fun m f => m ||| (2 ^ f.2.1 - 1) <<< f.1) 0
  if x &&& (2047 ^^^ used) ≠ 0 then some (0, 9)
  else if xs.any fun f => !f.2.2 (x / 2 ^ f.1 % 2 ^ f.2.1) then some (0, 2)
  else none

/-- Whether RA is set where R261 forbids it. -/
def raBad (w : Full) (f : Fmt) : Bool :=
  match w.form with
  | .reg _ _ ra _ => ra && !(opndKind w.a == some .v && f.a.ks.contains .v)
  | .imm _ _ => false

/-- Check 6 of R269: the first failing specifier (0 for a field) and the reason of trap 0x02. -/
def check6 (h : KHdr) (w : Full) (f : Fmt) : Option (Nat × Nat) :=
  let im := isImm w
  let ok := if im then f.i else f.r
  firstOf [
    checkOpnd h f.d w.d,
    checkOpnd h f.a w.a,
    if im then none else checkOpnd h f.b (opB w),
    if im then none else checkOpnd h f.c (opC w),
    (match f.tys with
     | none => if w.ty = .i32 then none else some (0, 9)
     | some l => if l.contains w.ty then none else some (0, if w.ty = .rsvd then 1 else f.tyReason)),
    checkX (if ok || f.xAlways then f.xs else []) (xOf w),
    if ok then f.more else none,
    if raBad w f then some (0, 10) else none,
    if ok then none else some (0, 3)]

/-! ## Field descriptions -/

/-- Unused; sources and destinations of the usual classes. -/
def fNo : Fld := {}
def fV : Fld := { ks := [.v] }
def fS : Fld := { ks := [.s] }
def fVS : Fld := { ks := [.v, .s] }
def fVW : Fld := { ks := [.v], wide := true }
def fVSW : Fld := { ks := [.v, .s], wide := true }
def fP : Fld := { ks := [.p] }
def fPd : Fld := { ks := [.p], dst := true }
def fJ : Fld := { ks := [.j] }
def fQ : Fld := { ks := [.q] }
def fT : Fld := { ks := [.t] }
def fA : Fld := { ks := [.a] }

/-- With a 64-bit type, a pair. -/
def Fld.w (f : Fld) (wide : Bool) : Fld := { f with wide := wide }

/-- A source: vector, uniform, %lane or %col; only uniform or %col where the destination is uniform (R310, R334). -/
def fSrc (w : Full) : Fld := match w.d with
  | .s _ => { ks := [.s, .col] }
  | _ => { ks := [.v, .s, .lane, .col] }

/-- The 64-bit types (R153, R353). -/
def isWide (t : Ty) : Bool := t == .i64 || t == .n64 || t == .f64

/-- A one-bit subfield of X or X4. -/
def xBit (i : Nat) : Nat × Nat × (Nat → Bool) := (i, 1, fun _ => true)

/-- A subfield with its accepted codes. -/
def xFld (lo n : Nat) (ok : Nat → Bool) : Nat × Nat × (Nat → Bool) := (lo, n, ok)

/-- The largest header: every register class full. -/
def maxHdr : KHdr := { nv := 128, ns := 64, nt := 16, na := 8, level := 6, rstpol := 2, comm := true, win := 3 }

/-! ## Pair words (R262 to R266) -/

/-- The half opcodes: accepted HT codes, whether HS is accepted, and HI (0 no, 1 yes, 2 only). -/
def halfRule (hop : Nat) : List Nat × Bool × Nat :=
  match hop with
  | 0x01 => ([0, 1], true, 1)
  | 0x02 => ([0, 1], true, 1)
  | 0x03 => ([0, 1], false, 1)
  | 0x04 => ([0, 1], false, 1)
  | 0x05 => ([0, 1], false, 1)
  | 0x06 => ([0, 1], false, 1)
  | 0x07 => ([0, 1], false, 1)
  | 0x08 => ([0, 1], false, 1)
  | 0x09 => ([0, 1], false, 1)
  | 0x0A => ([0, 1], false, 1)
  | 0x0B => ([0, 1], false, 1)
  | 0x0C => ([0, 1, 2, 3], false, 0)
  | 0x0D => ([0, 1, 2, 3], false, 2)
  | 0x0E => ([2, 3], true, 1)
  | 0x0F => ([2, 3], true, 1)
  | 0x10 => ([2, 3], true, 1)
  | 0x11 => ([2, 3], false, 1)
  | 0x12 => ([2, 3], false, 1)
  | 0x13 => ([2, 3], false, 1)
  | 0x14 => ([0, 1], false, 0)
  | 0x15 => ([0, 1], false, 0)
  | 0x16 => ([0, 1], true, 1)
  | _ => ([], false, 0)

/-- Whether a half is malformed (R263). -/
def halfBad (hop : Nat) (a : HalfArgs) : Bool :=
  if hop = 0 then
    a.hg != 0 || a.hn || a.hd != 0 || a.ha != 0 || a.hi || a.z || a.hs || a.ht != 0
  else
    let (hts, hs, hi) := halfRule hop
    128 ≤ a.hd.toNat || (!a.hi && 128 ≤ a.ha.toNat) || a.z || !hts.contains a.ht.toNat || (a.hs && !hs)
      || (a.hi && hi == 0) || (!a.hi && hi == 2)

/-- The registers a half reads: HD, and HA without HI (R264). -/
def halfReads (hop : Nat) (a : HalfArgs) : List Nat :=
  if hop = 0 then [] else if a.hi then [a.hd.toNat] else [a.hd.toNat, a.ha.toNat]

/-- Checks 3, 4 and 6 of a pair word: the trap code and %tinfo. -/
def checkPair (nv hopX : Nat) (x : HalfArgs) (hopY : Nat) (y : HalfArgs) : Option (Nat × Nat) :=
  let rs := halfReads hopX x ++ halfReads hopY y
  let bank (b : Nat) : Nat := (rs.filter (· % 4 == b)).length
  let both := hopX ≠ 0 && hopY ≠ 0
  firstOf [
    if 0x17 ≤ hopX then some (1, 0x8000 + hopX) else none,
    if 0x17 ≤ hopY then some (1, 0xC000 + hopY) else none,
    if halfBad hopX x then some (3, 1) else none,
    if halfBad hopY y then some (3, 2) else none,
    (([0, 1, 2, 3] : List Nat).find? fun b => 2 < bank b).map fun b => (3, 256 * b + 3),
    if both && x.hd == y.hd then some (3, 5) else none,
    if both && x.hd.toNat % 4 == y.hd.toNat % 4 then some (3, 256 * (x.hd.toNat % 4) + 4) else none,
    (rs.find? (nv ≤ ·)).map fun n => (2, 256 * n + 6)]

end Sys2Proof.Machine
end

