-- ==== Sys2Proof/Decode.lean ====
section
/-!
DEFINITION. The decoder of instruction words (R254 to R268) and the encoder. Decoding is total: a word that the opcode map leaves
unassigned is rejected by name, and the machine takes it as UNASSIGNED_OPCODE_WORD.
-/

namespace Sys2Proof

open Sys2Proof.Machine

/-! ## Fields -/

/-- An operand specifier (R256). -/
def opndOf (n : BitVec 8) : Opnd :=
  if n.getLsbD 7 = false then .v (n.extractLsb' 0 7)
  else if n.getLsbD 6 = false then .s (n.extractLsb' 0 6)
  else
    match (n.extractLsb' 3 3).toNat with
    | 0 => .p (n.extractLsb' 0 3)
    | 1 => .j (n.extractLsb' 0 3)
    | 2 => .q (n.extractLsb' 0 4)
    | 3 => .q (n.extractLsb' 0 4)
    | 4 => .t (n.extractLsb' 0 4)
    | 5 => .t (n.extractLsb' 0 4)
    | 6 => .a (n.extractLsb' 0 3)
    | _ => match (n.extractLsb' 0 3).toNat with
      | 0 => .lane
      | 1 => .col
      | _ => .rsvd (n.extractLsb' 0 3)

def encOpnd : Opnd → BitVec 8
  | .v n => 0#1 ++ n
  | .s n => 0b10#2 ++ n
  | .p n => 0b11000#5 ++ n
  | .j n => 0b11001#5 ++ n
  | .q n => 0b1101#4 ++ n
  | .t n => 0b1110#4 ++ n
  | .a n => 0b11110#5 ++ n
  | .lane => 0xF8
  | .col => 0xF9
  | .rsvd n => 0b11111#5 ++ n

/-- A type code (R259). -/
def tyOf (n : BitVec 4) : Ty :=
  match n.toNat with
  | 0 => .i32 | 1 => .n32 | 2 => .i64 | 3 => .n64 | 4 => .f32 | 5 => .f64 | 6 => .bf16x2 | 7 => .f16x2
  | 8 => .i16x2 | 9 => .i8x4 | 10 => .e4m3x4 | 11 => .e5m2x4 | 12 => .hn4x8 | 13 => .b32 | 14 => .f16 | _ => .rsvd

def encTy : Ty → BitVec 4
  | .i32 => 0 | .n32 => 1 | .i64 => 2 | .n64 => 3 | .f32 => 4 | .f64 => 5 | .bf16x2 => 6 | .f16x2 => 7
  | .i16x2 => 8 | .i8x4 => 9 | .e4m3x4 => 10 | .e5m2x4 => 11 | .hn4x8 => 12 | .b32 => 13 | .f16 => 14 | .rsvd => 15

/-- The fields of a full word (R255). -/
def fullOf (w : DWord) : Full where
  marker := w.getLsbD 63
  g := w.extractLsb' 50 3
  gn := w.getLsbD 49
  d := opndOf (w.extractLsb' 41 8)
  a := opndOf (w.extractLsb' 33 8)
  ty := tyOf (if w.getLsbD 32 then w.extractLsb' 4 4 else w.extractLsb' 11 4)
  form := if w.getLsbD 32 then .imm (w.extractLsb' 8 24) (w.extractLsb' 0 4)
    else .reg (opndOf (w.extractLsb' 24 8)) (opndOf (w.extractLsb' 16 8)) (w.getLsbD 15) (w.extractLsb' 0 11)

/-- Bits [32:0] of a full word. -/
def encForm (ty : Ty) : Form → BitVec 33
  | .reg b c ra x => 0#1 ++ (encOpnd b ++ (encOpnd c ++ (BitVec.ofBool ra ++ (encTy ty ++ x))))
  | .imm imm x4 => 1#1 ++ (imm ++ (encTy ty ++ x4))

def encFull (op : BitVec 9) (f : Full) : DWord :=
  BitVec.ofBool f.marker ++ (0#1 ++ (op ++ (f.g ++ (BitVec.ofBool f.gn ++ (encOpnd f.d ++ (encOpnd f.a ++ encForm f.ty f.form))))))

/-- The fields of a half other than HOP (R262). -/
def halfOf (h : BitVec 31) : HalfArgs where
  hg := h.extractLsb' 22 2
  hn := h.getLsbD 21
  hd := h.extractLsb' 13 8
  ha := h.extractLsb' 5 8
  hi := h.getLsbD 4
  z := h.getLsbD 3
  hs := h.getLsbD 2
  ht := h.extractLsb' 0 2

def encHalf (hop : BitVec 7) (a : HalfArgs) : BitVec 31 :=
  hop ++ (a.hg ++ (BitVec.ofBool a.hn ++ (a.hd ++ (a.ha ++ (BitVec.ofBool a.hi ++ (BitVec.ofBool a.z ++ (BitVec.ofBool a.hs ++ a.ht)))))))

def encPair (s : Bool) (hop : BitVec 7) (x : HalfArgs) (y : Half) : DWord :=
  BitVec.ofBool s ++ (1#1 ++ (encHalf hop x ++ encHalf y.hop y.args))

/-! ## The opcode map (R265, R267) -/

/-- Bit 0 of X or X4. -/
def xBit0 (f : Full) : Bool := xOf f % 2 == 1

/-- The instruction of a full word's opcode, with its sub-form. -/
def fullInstr (op : Nat) (f : Full) : Option Instr :=
  match op with
  | 0x000 => some (.nop f)
  | 0x001 => some (.bra f)
  | 0x002 => some (.brx f)
  | 0x003 => some (.call f)
  | 0x004 => some (.callx f)
  | 0x005 => some (.ret f)
  | 0x006 => some (.loop f)
  | 0x007 => some (if isImm f then .jsetEnabled f else .jsetMask f)
  | 0x008 => some (.join f)
  | 0x009 => some (.jmov f)
  | 0x00A => some (if !isImm f && xBit0 f then .yieldPool f else .yield f)
  | 0x00B => some (.nap f)
  | 0x00C => some (.exit f)
  | 0x00D => some (.susp f)
  | 0x00E => some (.resume f)
  | 0x00F => some (.pinit f)
  | 0x010 => some (if !isImm f && xOf f / 2 ^ 10 == 1 then .pwakeField f else .pwakeRows f)
  | 0x011 => some (.pxform f)
  | 0x012 => some (.pcount f)
  | 0x013 => some (if !isImm f then .pfreeRows f else if xOf f == 1 then .pfreeWoken f else .pfreeAll f)
  | 0x014 => some (if isImm f && xBit0 f then .setrstClr f else .setrst f)
  | 0x015 => some (.trap f)
  | 0x016 => some (if isImm f && xBit0 f then .rtrapStep f else .rtrap f)
  | 0x017 => some (.bkpt f)
  | 0x040 => some (.iadd f)
  | 0x041 => some (.isub f)
  | 0x042 => some (.iadd3 f)
  | 0x043 => some (.iaddc f)
  | 0x044 => some (.isubb f)
  | 0x045 => some (.imul f)
  | 0x046 => some (.imulh f)
  | 0x047 => some (.imad f)
  | 0x048 => some (.imadw f)
  | 0x049 => some (.idiv f)
  | 0x04A => some (.irem f)
  | 0x04B => some (.imin f)
  | 0x04C => some (.imax f)
  | 0x04D => some (.iabs f)
  | 0x04E => some (.idot4 f)
  | 0x04F => some (.and f)
  | 0x050 => some (.or f)
  | 0x051 => some (.xor f)
  | 0x052 => some (.andn f)
  | 0x053 => some (.orn f)
  | 0x054 => some (.shl f)
  | 0x055 => some (.shr f)
  | 0x056 => some (.sar f)
  | 0x057 => some (.rol f)
  | 0x058 => some (.fshl f)
  | 0x059 => some (.fshr f)
  | 0x05A => some (.popc f)
  | 0x05B => some (.clz f)
  | 0x05C => some (.ctz f)
  | 0x05D => some (.brev f)
  | 0x05E => some (.bfx f)
  | 0x05F => some (.bfi f)
  | 0x060 => some (.prmb f)
  | 0x061 => some (.icmp f)
  | 0x062 => some (.isel f)
  | 0x063 => some (.cvti f)
  | 0x064 => some (.mov f)
  | 0x065 => some (.movi f)
  | 0x066 => some (.movh f)
  | 0x067 => some (.mkcol f)
  | 0x068 => some (.colof f)
  | 0x069 => some (.offof f)
  | 0x06A => some (.lea f)
  | 0x080 => some (.pset f)
  | 0x081 => some (.pand f)
  | 0x082 => some (.por f)
  | 0x083 => some (.pxor f)
  | 0x084 => some (.pnot f)
  | 0x085 => some (.pmov f)
  | 0x086 => some (.vote f)
  | 0x087 => some (.shfl f)
  | 0x088 => some (.redc f)
  | 0x089 => some (.scanc f)
  | 0x08A => some (.umov f)
  | 0x08B => some (.mfsr f)
  | 0x08C => some (.mtsr f)
  | 0x08D => some (.rdcnt f)
  | 0x0C0 => some (.fadd f)
  | 0x0C1 => some (.fsub f)
  | 0x0C2 => some (.fmul f)
  | 0x0C3 => some (.ffma f)
  | 0x0C4 => some (.fmin f)
  | 0x0C5 => some (.fmax f)
  | 0x0C6 => some (.famax f)
  | 0x0C7 => some (.fdiv f)
  | 0x0C8 => some (.fsqrt f)
  | 0x0C9 => some (.frcp f)
  | 0x0CA => some (.frsq f)
  | 0x0CB => some (.fexp2 f)
  | 0x0CC => some (.flog2 f)
  | 0x0CD => some (.fsin f)
  | 0x0CE => some (.fcos f)
  | 0x0CF => some (.ftanh f)
  | 0x0D0 => some (.fcmp f)
  | 0x0D1 => some (.fclass f)
  | 0x0D2 => some (.frnd f)
  | 0x0D3 => some (.fscl f)
  | 0x0D4 => some (.ffrx f)
  | 0x0D5 => some (.f2i f)
  | 0x0D6 => some (.i2f f)
  | 0x0D7 => some (.fcvt f)
  | 0x0D8 => some (.fpack f)
  | 0x0D9 => some (.funpk f)
  | 0x0DA => some (.fdot2 f)
  | 0x0DB => some (.hndec f)
  | 0x120 => some (.ld f)
  | 0x121 => some (.st f)
  | 0x122 => some (.lds f)
  | 0x123 => some (.sts f)
  | 0x124 => some (.ldw f)
  | 0x125 => some (.stw f)
  | 0x126 => some (.ldr f)
  | 0x127 => some (.str f)
  | 0x128 => some (.ldro f)
  | 0x129 => some (.pref f)
  | 0x12A => some (.copy f)
  | 0x12B => some (.copym f)
  | 0x12C => some (.xch f)
  | 0x12D => some (.seal f)
  | 0x12E => some (.unseal f)
  | 0x12F => some (.flush f)
  | 0x130 => some (.surf f)
  | 0x180 => some (.atom f)
  | 0x181 => some (.acas f)
  | 0x182 => some (.red f)
  | 0x183 => some (.fence f)
  | 0x184 => some (.bar f)
  | 0x185 => some (.bara f)
  | 0x186 => some (.barw f)
  | 0x187 => some (.bard f)
  | 0x188 => some (.elect f)
  | 0x189 => some (.rinit f)
  | 0x18A => some (.rarv f)
  | 0x18B => some (.rxpt f)
  | 0x18C => some (.rwait f)
  | 0x18D => some (.qbind f)
  | 0x18E => some (.qpush f)
  | 0x18F => some (.qpop f)
  | 0x190 => some (.qstat f)
  | 0x191 => some (.submit f)
  | 0x192 => some (.semsg f)
  | 0x1C0 => some (.tdesc f)
  | 0x1C1 => some (.tfill f)
  | 0x1C2 => some (.tstore f)
  | 0x1C3 => some (.tzero f)
  | 0x1C4 => some (.mma f)
  | 0x1C5 => some (.aclr f)
  | 0x1C6 => some (.adrain f)
  | 0x1C7 => some (.aspill f)
  | 0x1C8 => some (.aload f)
  | 0x1C9 => some (.mwait f)
  | 0x1E0 => some (if isImm f || xOf f % 8 < 3 then .clctP2p f else if xOf f % 8 == 7 then .clctRec f else .clctGroup f)
  | 0x1E1 => some (.repart f)
  | 0x1E2 => some (.sfckey f)
  | 0x1E3 => some (.cstat f)
  | _ => none

/-- The instruction of half X's opcode. -/
def pairInstr (hop : Nat) (s : Bool) (x : HalfArgs) (y : Half) : Option Instr :=
  match hop with
  | 0x00 => some (.hnop s x y)
  | 0x01 => some (.halfIadd s x y)
  | 0x02 => some (.halfIsub s x y)
  | 0x03 => some (.halfAnd s x y)
  | 0x04 => some (.halfOr s x y)
  | 0x05 => some (.halfXor s x y)
  | 0x06 => some (.halfAndn s x y)
  | 0x07 => some (.halfShl s x y)
  | 0x08 => some (.halfShr s x y)
  | 0x09 => some (.halfSar s x y)
  | 0x0A => some (.halfImin s x y)
  | 0x0B => some (.halfImax s x y)
  | 0x0C => some (.halfMov s x y)
  | 0x0D => some (.halfMovi s x y)
  | 0x0E => some (.halfFadd s x y)
  | 0x0F => some (.halfFsub s x y)
  | 0x10 => some (.halfFmul s x y)
  | 0x11 => some (.halfFmin s x y)
  | 0x12 => some (.halfFmax s x y)
  | 0x13 => some (.halfFamax s x y)
  | 0x14 => some (.halfPopc s x y)
  | 0x15 => some (.halfClz s x y)
  | 0x16 => some (.halfImul s x y)
  | _ => none

/-! ## Decoding -/

/-- Why a sequence of bytes is not an instruction word of the opcode map. -/
inductive Reject where
  /-- Fewer than 8 bytes. -/
  | tooShort
  /-- Bits [61:53] hold 0x1FF (R266). -/
  | reservedWord
  /-- An unassigned full opcode (R268). -/
  | unassignedOpcode (op : BitVec 9)
  /-- A half with an unassigned HOP (R266): half X, or half Y. -/
  | unassignedHalf (y : Bool) (hop : BitVec 7)
  deriving DecidableEq, Repr

/-- Decodes a word. -/
def classify (w : DWord) : Except Reject Instr :=
  let op : BitVec 9 := w.extractLsb' 53 9
  let hopX : BitVec 7 := w.extractLsb' 55 7
  let hopY : BitVec 7 := w.extractLsb' 24 7
  if op = 0x1FF#9 then .error .reservedWord
  else if w.getLsbD 62 then
    match pairInstr hopX.toNat (w.getLsbD 63) (halfOf (w.extractLsb' 31 31)) ⟨hopY, halfOf (w.extractLsb' 0 31)⟩ with
    | none => .error (.unassignedHalf false hopX)
    | some i => if 0x17 ≤ hopY.toNat then .error (.unassignedHalf true hopY) else .ok i
  else
    match fullInstr op.toNat (fullOf w) with
    | some i => .ok i
    | none => .error (.unassignedOpcode op)

/-- The step that a fetched word is: UNASSIGNED_OPCODE_WORD where the word is rejected (R268). -/
def decodeWord (w : DWord) : Instr :=
  match classify w with
  | .ok i => i
  | .error _ => .unassignedOpcodeWord w

/-- The value of some bytes, the first lowest (R3). -/
def wordOfBytes : List Byte → Nat
  | [] => 0
  | b :: bs => b.toNat + 256 * wordOfBytes bs

/-- The bytes of a word as memory holds them (R254). -/
def bytesOfWord (w : DWord) : List Byte := ([0, 1, 2, 3, 4, 5, 6, 7] : List Nat).map fun i => w.extractLsb' (8 * i) 8

/-- Decodes the word at the start of some bytes, and leaves the rest. -/
def decode : List Byte → Except Reject (Instr × List Byte)
  | b0 :: b1 :: b2 :: b3 :: b4 :: b5 :: b6 :: b7 :: rest =>
    match classify (BitVec.ofNat 64 (wordOfBytes [b0, b1, b2, b3, b4, b5, b6, b7])) with
    | .ok i => .ok (i, rest)
    | .error r => .error r
  | _ => .error .tooShort

/-- The instruction of a word numbered as spec/opcode_table.json numbers its bits, least significant first. A rejected word is the row
UNASSIGNED_OPCODE_WORD. -/
def decodeTableWord (_nbits w : Nat) : Option Instr :=
  match decode (bytesOfWord (BitVec.ofNat 64 w)) with
  | .ok (i, _) => some i
  | .error _ => some (.unassignedOpcodeWord (BitVec.ofNat 64 w))

/-! ## Encoding -/

/-- What a step of the table is: a full word, a pair word, a word that the opcode map leaves unassigned, or no word. -/
inductive Shape where
  | full (op : BitVec 9) (f : Full)
  | pair (s : Bool) (hop : BitVec 7) (x : HalfArgs) (y : Half)
  | illegal (w : DWord)
  | event
  deriving DecidableEq, Repr

def Instr.shape : Instr → Shape
  | .hnop s x y => .pair s 0x00 x y
  | .halfIadd s x y => .pair s 0x01 x y
  | .halfIsub s x y => .pair s 0x02 x y
  | .halfAnd s x y => .pair s 0x03 x y
  | .halfOr s x y => .pair s 0x04 x y
  | .halfXor s x y => .pair s 0x05 x y
  | .halfAndn s x y => .pair s 0x06 x y
  | .halfShl s x y => .pair s 0x07 x y
  | .halfShr s x y => .pair s 0x08 x y
  | .halfSar s x y => .pair s 0x09 x y
  | .halfImin s x y => .pair s 0x0A x y
  | .halfImax s x y => .pair s 0x0B x y
  | .halfMov s x y => .pair s 0x0C x y
  | .halfMovi s x y => .pair s 0x0D x y
  | .halfFadd s x y => .pair s 0x0E x y
  | .halfFsub s x y => .pair s 0x0F x y
  | .halfFmul s x y => .pair s 0x10 x y
  | .halfFmin s x y => .pair s 0x11 x y
  | .halfFmax s x y => .pair s 0x12 x y
  | .halfFamax s x y => .pair s 0x13 x y
  | .halfPopc s x y => .pair s 0x14 x y
  | .halfClz s x y => .pair s 0x15 x y
  | .halfImul s x y => .pair s 0x16 x y
  | .nop w => .full 0x000 w
  | .bra w => .full 0x001 w
  | .brx w => .full 0x002 w
  | .call w => .full 0x003 w
  | .callx w => .full 0x004 w
  | .ret w => .full 0x005 w
  | .loop w => .full 0x006 w
  | .jsetMask w => .full 0x007 w
  | .jsetEnabled w => .full 0x007 w
  | .join w => .full 0x008 w
  | .jmov w => .full 0x009 w
  | .yield w => .full 0x00A w
  | .yieldPool w => .full 0x00A w
  | .nap w => .full 0x00B w
  | .exit w => .full 0x00C w
  | .susp w => .full 0x00D w
  | .resume w => .full 0x00E w
  | .pinit w => .full 0x00F w
  | .pwakeRows w => .full 0x010 w
  | .pwakeField w => .full 0x010 w
  | .pxform w => .full 0x011 w
  | .pcount w => .full 0x012 w
  | .pfreeRows w => .full 0x013 w
  | .pfreeAll w => .full 0x013 w
  | .pfreeWoken w => .full 0x013 w
  | .setrst w => .full 0x014 w
  | .setrstClr w => .full 0x014 w
  | .trap w => .full 0x015 w
  | .rtrap w => .full 0x016 w
  | .rtrapStep w => .full 0x016 w
  | .bkpt w => .full 0x017 w
  | .iadd w => .full 0x040 w
  | .isub w => .full 0x041 w
  | .iadd3 w => .full 0x042 w
  | .iaddc w => .full 0x043 w
  | .isubb w => .full 0x044 w
  | .imul w => .full 0x045 w
  | .imulh w => .full 0x046 w
  | .imad w => .full 0x047 w
  | .imadw w => .full 0x048 w
  | .idiv w => .full 0x049 w
  | .irem w => .full 0x04A w
  | .imin w => .full 0x04B w
  | .imax w => .full 0x04C w
  | .iabs w => .full 0x04D w
  | .idot4 w => .full 0x04E w
  | .and w => .full 0x04F w
  | .or w => .full 0x050 w
  | .xor w => .full 0x051 w
  | .andn w => .full 0x052 w
  | .orn w => .full 0x053 w
  | .shl w => .full 0x054 w
  | .shr w => .full 0x055 w
  | .sar w => .full 0x056 w
  | .rol w => .full 0x057 w
  | .fshl w => .full 0x058 w
  | .fshr w => .full 0x059 w
  | .popc w => .full 0x05A w
  | .clz w => .full 0x05B w
  | .ctz w => .full 0x05C w
  | .brev w => .full 0x05D w
  | .bfx w => .full 0x05E w
  | .bfi w => .full 0x05F w
  | .prmb w => .full 0x060 w
  | .icmp w => .full 0x061 w
  | .isel w => .full 0x062 w
  | .cvti w => .full 0x063 w
  | .mov w => .full 0x064 w
  | .movi w => .full 0x065 w
  | .movh w => .full 0x066 w
  | .mkcol w => .full 0x067 w
  | .colof w => .full 0x068 w
  | .offof w => .full 0x069 w
  | .lea w => .full 0x06A w
  | .pset w => .full 0x080 w
  | .pand w => .full 0x081 w
  | .por w => .full 0x082 w
  | .pxor w => .full 0x083 w
  | .pnot w => .full 0x084 w
  | .pmov w => .full 0x085 w
  | .vote w => .full 0x086 w
  | .shfl w => .full 0x087 w
  | .redc w => .full 0x088 w
  | .scanc w => .full 0x089 w
  | .umov w => .full 0x08A w
  | .mfsr w => .full 0x08B w
  | .mtsr w => .full 0x08C w
  | .rdcnt w => .full 0x08D w
  | .fadd w => .full 0x0C0 w
  | .fsub w => .full 0x0C1 w
  | .fmul w => .full 0x0C2 w
  | .ffma w => .full 0x0C3 w
  | .fmin w => .full 0x0C4 w
  | .fmax w => .full 0x0C5 w
  | .famax w => .full 0x0C6 w
  | .fdiv w => .full 0x0C7 w
  | .fsqrt w => .full 0x0C8 w
  | .frcp w => .full 0x0C9 w
  | .frsq w => .full 0x0CA w
  | .fexp2 w => .full 0x0CB w
  | .flog2 w => .full 0x0CC w
  | .fsin w => .full 0x0CD w
  | .fcos w => .full 0x0CE w
  | .ftanh w => .full 0x0CF w
  | .fcmp w => .full 0x0D0 w
  | .fclass w => .full 0x0D1 w
  | .frnd w => .full 0x0D2 w
  | .fscl w => .full 0x0D3 w
  | .ffrx w => .full 0x0D4 w
  | .f2i w => .full 0x0D5 w
  | .i2f w => .full 0x0D6 w
  | .fcvt w => .full 0x0D7 w
  | .fpack w => .full 0x0D8 w
  | .funpk w => .full 0x0D9 w
  | .fdot2 w => .full 0x0DA w
  | .hndec w => .full 0x0DB w
  | .ld w => .full 0x120 w
  | .st w => .full 0x121 w
  | .lds w => .full 0x122 w
  | .sts w => .full 0x123 w
  | .ldw w => .full 0x124 w
  | .stw w => .full 0x125 w
  | .ldr w => .full 0x126 w
  | .str w => .full 0x127 w
  | .ldro w => .full 0x128 w
  | .pref w => .full 0x129 w
  | .copy w => .full 0x12A w
  | .copym w => .full 0x12B w
  | .xch w => .full 0x12C w
  | .seal w => .full 0x12D w
  | .unseal w => .full 0x12E w
  | .flush w => .full 0x12F w
  | .surf w => .full 0x130 w
  | .atom w => .full 0x180 w
  | .acas w => .full 0x181 w
  | .red w => .full 0x182 w
  | .fence w => .full 0x183 w
  | .bar w => .full 0x184 w
  | .bara w => .full 0x185 w
  | .barw w => .full 0x186 w
  | .bard w => .full 0x187 w
  | .elect w => .full 0x188 w
  | .rinit w => .full 0x189 w
  | .rarv w => .full 0x18A w
  | .rxpt w => .full 0x18B w
  | .rwait w => .full 0x18C w
  | .qbind w => .full 0x18D w
  | .qpush w => .full 0x18E w
  | .qpop w => .full 0x18F w
  | .qstat w => .full 0x190 w
  | .submit w => .full 0x191 w
  | .semsg w => .full 0x192 w
  | .tdesc w => .full 0x1C0 w
  | .tfill w => .full 0x1C1 w
  | .tstore w => .full 0x1C2 w
  | .tzero w => .full 0x1C3 w
  | .mma w => .full 0x1C4 w
  | .aclr w => .full 0x1C5 w
  | .adrain w => .full 0x1C6 w
  | .aspill w => .full 0x1C7 w
  | .aload w => .full 0x1C8 w
  | .mwait w => .full 0x1C9 w
  | .clctP2p w => .full 0x1E0 w
  | .clctGroup w => .full 0x1E0 w
  | .clctRec w => .full 0x1E0 w
  | .repart w => .full 0x1E1 w
  | .sfckey w => .full 0x1E2 w
  | .cstat w => .full 0x1E3 w
  | .unassignedOpcodeWord w => .illegal w
  | .windowBRead _ _ _ => .event
  | .windowBWrite _ _ _ => .event
  | .evqHeadWrite _ => .event
  | .contextTableWrite _ _ => .event
  | .registerWrite _ _ => .event
  | .submitLaunchRecord _ _ _ => .event
  | .submitCollectiveRecord _ _ => .event
  | .submitManagementRecord _ _ => .event
  | .postedWriteToPort _ _ => .event
  | .operatingPointChangeDone _ => .event
  | .clusterClockGate _ => .event
  | .clusterWake _ => .event
  | .vaultWriteBack _ => .event
  | .ldrRequest _ => .event
  | .readReply _ => .event
  | .strWrite _ => .event
  | .writeAcknowledgement _ => .event
  | .ldroRequest _ => .event
  | .tellerData _ => .event
  | .tellerAcknowledgement _ => .event
  | .replicaInvalidate _ _ => .event
  | .invalidateAcknowledgement _ _ => .event
  | .atomicRequest _ => .event
  | .atomicReply _ => .event
  | .redRequest _ => .event
  | .semsgPacket _ => .event
  | .message _ => .event
  | .messageAccepted _ => .event
  | .messageBounced _ => .event
  | .messageResend _ _ => .event
  | .launchStart _ _ => .event
  | .groupDispatch _ => .event
  | .groupFinish _ => .event
  | .groupRetirement _ => .event
  | .translationFaultRewalk _ => .event
  | .foldTurn _ => .event
  | .trapEntry _ _ => .event
  | .resultWriteback _ _ => .event
  | .napExpiry _ _ => .event
  | .copyCompletion _ => .event
  | .tfillCompletion _ => .event
  | .tstoreCompletion _ => .event
  | .mintTaskStart _ _ => .event
  | .mintTaskCompletion _ _ => .event
  | .sealCompletion _ => .event
  | .flushCompletion _ => .event
  | .collectiveCompletion _ => .event
  | .repartMove _ => .event
  | .repartCompletion _ => .event
  | .replicaEviction _ _ => .event
  | .tzeroCompletion _ => .event
  | .perst1NReset _ => .event
  | .linkTraining _ _ => .event
  | .stagingWrite _ _ => .event
  | .spdmGetCertificate _ => .event
  | .spdmChallenge _ => .event
  | .spdmGetMeasurements _ => .event
  | .boardPowerLimitRequest _ => .event
  | .powerMeasurement _ => .event
  | .thermalThrottle _ _ => .event
  | .thermalEvent _ _ => .event
  | .thermalTrip _ _ => .event
  | .heartbeatPoll _ _ => .event
  | .selfRefreshEntry _ => .event
  | .selfRefreshExit _ => .event
  | .patrolRead _ => .event
  | .portDown _ => .event
  | .linkDown _ => .event
  | .fabricHeaderDiscard _ => .event
  | .logicCheckerError _ _ => .event
  | .sliceFailure _ => .event
  | .secondTierChannelDown _ => .event
  | .watchdogExpiry _ => .event
  | .corruptedFlitRetry _ => .event
  | .powerUp => .event
  | .pwrGoodDeassert => .event
  | .perst0NAssert => .event
  | .perst0NDeassert => .event
  | .bootRomReady => .event
  | .verifyAndStartJasper => .event
  | .verifyAndLoadMicrocode => .event
  | .memoryTrainingDone => .event
  | .microcodeLoadDone => .event
  | .switchContext => .event
  | .preemptionSecondPass => .event
  | .switchContextComplete => .event
  | .setPowerLimit => .event
  | .signalSemaphore => .event
  | .abortContext => .event
  | .contain => .event
  | .foldAndRemap => .event
  | .instructionFetchFault => .event

/-- The word of an instruction; none for a step that is no word. -/
def encode (i : Instr) : Option DWord :=
  match i.shape with
  | .full op f => some (encFull op f)
  | .pair s hop x y => some (encPair s hop x y)
  | .illegal w => some w
  | .event => none

end Sys2Proof
end

