-- ==== Sys2Proof/Machine/Fp.lean ====
section
/-!
DEFINITION. Floating-point formats, exact values and rounding (R212 to R219, R216's round_to). A value is exact: a sign
and a quotient of natural numbers, an infinity or a NaN. Every rounding of the model is `roundTo`.
-/

namespace Sys2Proof.Machine

/-- The floating-point formats of R212. -/
inductive FFmt where
  | f64 | f32 | f16 | bf16 | e4m3 | e5m2
  deriving DecidableEq, Repr, Inhabited

/-- The rounding modes of R216. -/
inductive RMode where
  | rne | rna | rz | ru | rd
  deriving DecidableEq, Repr, Inhabited

/-- Width in bits (R212). -/
def FFmt.width : FFmt → Nat
  | .f64 => 64 | .f32 => 32 | .f16 => 16 | .bf16 => 16 | .e4m3 => 8 | .e5m2 => 8

/-- Fraction bits (R212). -/
def FFmt.frac : FFmt → Nat
  | .f64 => 52 | .f32 => 23 | .f16 => 10 | .bf16 => 7 | .e4m3 => 3 | .e5m2 => 2

/-- Exponent bits (R212). -/
def FFmt.ebits : FFmt → Nat
  | .f64 => 11 | .f32 => 8 | .f16 => 5 | .bf16 => 8 | .e4m3 => 4 | .e5m2 => 5

/-- Exponent bias (R212). -/
def FFmt.bias : FFmt → Int
  | .f64 => 1023 | .f32 => 127 | .f16 => 15 | .bf16 => 127 | .e4m3 => 7 | .e5m2 => 15

/-- Whether the format has infinities (R212, R232). -/
def FFmt.hasInf : FFmt → Bool
  | .e4m3 => false
  | _ => true

/-- Exponent of the smallest normal (R212). -/
def FFmt.emin (f : FFmt) : Int := 1 - f.bias

/-- The code of the canonical NaN (R212, R213). -/
def FFmt.nan : FFmt → Nat
  | .f64 => 0x7FF8000000000000 | .f32 => 0x7FC00000 | .f16 => 0x7E00 | .bf16 => 0x7FC0 | .e4m3 => 0x7F | .e5m2 => 0x7E

/-- The code of the largest finite value (R212). -/
def FFmt.maxCode : FFmt → Nat
  | .f64 => 0x7FEFFFFFFFFFFFFF | .f32 => 0x7F7FFFFF | .f16 => 0x7BFF | .bf16 => 0x7F7F | .e4m3 => 0x7E | .e5m2 => 0x7B

/-- The code of +infinity; used only for a format that has it. -/
def FFmt.infCode (f : FFmt) : Nat := (2 ^ f.ebits - 1) * 2 ^ f.frac

/-- The sign bit as a number. -/
def FFmt.signBit (f : FFmt) (neg : Bool) : Nat := if neg then 2 ^ (f.width - 1) else 0

/-- An exact extended real: NaN, a signed infinity, or the sign and the quotient n ÷ d (d > 0); n = 0 is a signed zero. -/
inductive XR where
  | nan
  | inf (neg : Bool)
  | num (neg : Bool) (n d : Nat)
  deriving DecidableEq, Repr, Inhabited

/-- The sticky flags of %fpflags (R157, R215): [0] invalid, [1] divide by zero, [2] overflow, [3] underflow, [4] inexact. -/
abbrev FpFlags := BitVec 5

def fNone : FpFlags := 0
def fInvalid : FpFlags := 1
def fDivZero : FpFlags := 2
def fOverflow : FpFlags := 4
def fUnderflow : FpFlags := 8
def fInexact : FpFlags := 16

/-- m × 2^e as a quotient. -/
def scale2 (m : Nat) (e : Int) : Nat × Nat :=
  match e with
  | .ofNat k => (m * 2 ^ k, 1)
  | .negSucc k => (m, 2 ^ (k + 1))

/-- The exact value of a code (R212, widen of R232). -/
def FFmt.widen (f : FFmt) (code : Nat) : XR :=
  let neg := (code >>> (f.width - 1)) % 2 == 1
  let e := (code >>> f.frac) % 2 ^ f.ebits
  let m := code % 2 ^ f.frac
  let top := 2 ^ f.ebits - 1
  if e = top ∧ f.hasInf = true then
    if m = 0 then .inf neg else .nan
  else if e = top ∧ m = 2 ^ f.frac - 1 then .nan
  else if e = 0 then
    let (n, d) := scale2 m (f.emin - f.frac)
    .num neg n d
  else
    let (n, d) := scale2 (2 ^ f.frac + m) ((e : Int) - f.bias - f.frac)
    .num neg n d

/-- Whether a code is a signalling NaN (R213): a NaN of a format with infinities whose top fraction bit is 0. -/
def FFmt.isSNan (f : FFmt) (code : Nat) : Bool :=
  f.hasInf && f.widen code == .nan && (code >>> (f.frac - 1)) % 2 == 0

/-- Whether a code is subnormal: exponent field 0, fraction not 0. -/
def FFmt.isSub (f : FFmt) (code : Nat) : Bool :=
  (code >>> f.frac) % 2 ^ f.ebits == 0 && code % 2 ^ f.frac != 0

/-- floor(log2(n ÷ d)) for n, d > 0. -/
def ilog2 (n d : Nat) : Int :=
  let k : Int := (Nat.log2 n : Int) - (Nat.log2 d : Int)
  let (kn, kd) := scale2 1 k
  -- n/d ≥ 2^k ?
  if n * kd ≥ kn * d then k else k - 1

/-- The quotient n ÷ d rounded to an integer in mode `m` for a value of sign `neg`, and whether it is exact. -/
def roundInt (m : RMode) (neg : Bool) (n d : Nat) : Nat × Bool :=
  let q := n / d
  let r := n % d
  if r = 0 then (q, true)
  else
    let up := match m with
      | .rne => 2 * r > d || (2 * r == d && q % 2 == 1)
      | .rna => 2 * r ≥ d
      | .rz => false
      | .ru => !neg
      | .rd => neg
    (if up then q + 1 else q, false)

/-- n ÷ d scaled by 2^(-e), as a quotient. -/
def unscale (n d : Nat) (e : Int) : Nat × Nat :=
  match e with
  | .ofNat k => (n, d * 2 ^ k)
  | .negSucc k => (n * 2 ^ (k + 1), d)

/-- The code of m × 2^q, for m ≤ 2^(frac + 1) and q ≥ emin − frac (R212). -/
def FFmt.encodeMag (f : FFmt) (m : Nat) (q : Int) : Nat :=
  if m < 2 ^ f.frac then m
  else if m = 2 ^ (f.frac + 1) then
    ((q + 1 + f.frac + f.bias).toNat) * 2 ^ f.frac
  else
    ((q + f.frac + f.bias).toNat) * 2 ^ f.frac + (m - 2 ^ f.frac)

/-- Whether n ÷ d, rounded to the format's precision with an unbounded exponent, lies below the smallest normal (R215). -/
def FFmt.tiny (f : FFmt) (m : RMode) (neg : Bool) (n d : Nat) : Bool :=
  let e := ilog2 n d
  if e ≥ f.emin then false
  else
    let (a, b) := unscale n d (e - f.frac)
    let (y, _) := roundInt m neg a b
    !(e = f.emin - 1 && y == 2 ^ (f.frac + 1))

/-- round_to (R216) with the flags of R215. With `ftz`, a result that would be subnormal becomes a zero of its sign (R214). -/
def roundTo (f : FFmt) (m : RMode) (sat ftz : Bool) (x : XR) : Nat × FpFlags :=
  match x with
  | .nan => (f.nan, fNone)
  | .inf neg =>
    if sat then (f.signBit neg + f.maxCode, fOverflow ||| fInexact)
    else if f.hasInf then (f.signBit neg + f.infCode, fNone)
    else (f.nan, fOverflow ||| fInexact)
  | .num neg n d =>
    if n = 0 then (f.signBit neg, fNone)
    else
      let e := max (ilog2 n d) f.emin
      let q := e - f.frac
      let (a, b) := unscale n d q
      let (y, exact) := roundInt m neg a b
      let code := f.encodeMag y q
      if code > f.maxCode then
        let fl := fOverflow ||| fInexact
        if sat then (f.signBit neg + f.maxCode, fl)
        else if m = .rz || (m = .ru && neg) || (m = .rd && !neg) then (f.signBit neg + f.maxCode, fl)
        else if f.hasInf then (f.signBit neg + f.infCode, fl)
        else (f.nan, fl)
      else if ftz && f.isSub code then (f.signBit neg, fUnderflow ||| fInexact)
      else
        let fl : FpFlags := if exact then fNone
          else if f.tiny m neg n d then fUnderflow ||| fInexact else fInexact
        (f.signBit neg + code, fl)

/-- An operand: its exact value and whether it is a signalling NaN. -/
structure FVal where
  x : XR
  snan : Bool
  deriving DecidableEq, Repr, Inhabited

/-- Reads a code as an operand; with `ftz` a subnormal reads as a zero of its sign (R214). -/
def FFmt.read (f : FFmt) (ftz : Bool) (code : Nat) : FVal :=
  if ftz && f.isSub code then ⟨.num ((code >>> (f.width - 1)) % 2 == 1) 0 1, false⟩
  else ⟨f.widen code, f.isSNan code⟩

/-- Invalid for a signalling NaN among the operands (R215). -/
def snanFlag (vs : List FVal) : FpFlags := if vs.any (·.snan) then fInvalid else fNone

def XR.neg : XR → XR
  | .nan => .nan
  | .inf s => .inf (!s)
  | .num s n d => .num (!s) n d

def XR.isNan : XR → Bool
  | .nan => true
  | _ => false

/-- Exact sum of a list of addends, with the sign rule of R337 for an exact zero sum, and invalid for opposite
infinities, whatever the other addends are (R349). A NaN addend gives a NaN. -/
def xsum (m : RMode) (xs : List XR) : XR × FpFlags :=
  let infP := xs.any (· == .inf false)
  let infN := xs.any (· == .inf true)
  if infP && infN then (.nan, fInvalid)
  else if xs.any XR.isNan then (.nan, fNone)
  else
    if infP then (.inf false, fNone)
    else if infN then (.inf true, fNone)
    else
      let (num, den) := xs.foldl (fun (acc : Int × Nat) x =>
        match x with
        | .num s n d => (acc.1 * d + (if s then -(n : Int) else n) * acc.2, acc.2 * d)
        | _ => acc) ((0 : Int), 1)
      if num = 0 then
        let allZero := xs.all (fun x => match x with | .num _ n _ => n == 0 | _ => false)
        let allPos := xs.all (fun x => match x with | .num s _ _ => !s | _ => false)
        let allNeg := xs.all (fun x => match x with | .num s _ _ => s | _ => false)
        if allZero && allPos then (.num false 0 1, fNone)
        else if allZero && allNeg then (.num true 0 1, fNone)
        else (.num (m == .rd) 0 1, fNone)
      else (.num (num < 0) num.natAbs den, fNone)

/-- Exact product, with invalid for infinity times zero. -/
def xmul (a b : XR) : XR × FpFlags :=
  match a, b with
  | .nan, _ => (.nan, fNone)
  | _, .nan => (.nan, fNone)
  | .inf s, .inf t => (.inf (s != t), fNone)
  | .inf s, .num t n _ => if n = 0 then (.nan, fInvalid) else (.inf (s != t), fNone)
  | .num s n _, .inf t => if n = 0 then (.nan, fInvalid) else (.inf (s != t), fNone)
  | .num s n d, .num t n' d' => (.num (s != t) (n * n') (d * d'), fNone)

/-- Exact quotient (R337): divide by zero for a finite nonzero dividend, invalid for 0 ÷ 0 and ∞ ÷ ∞. -/
def xdiv (a b : XR) : XR × FpFlags :=
  match a, b with
  | .nan, _ => (.nan, fNone)
  | _, .nan => (.nan, fNone)
  | .inf _, .inf _ => (.nan, fInvalid)
  | .inf s, .num t _ _ => (.inf (s != t), fNone)
  | .num s _ _, .inf t => (.num (s != t) 0 1, fNone)
  | .num s n d, .num t n' d' =>
    if n' = 0 then
      if n = 0 then (.nan, fInvalid) else (.inf (s != t), fDivZero)
    else (.num (s != t) (n * d') (d * n'), fNone)

/-- floor of the square root, digit by digit from bit `k` down. -/
def isqrtFrom : Nat → Nat → Nat → Nat
  | 0, n, r => if (r + 1) * (r + 1) ≤ n then r + 1 else r
  | k + 1, n, r =>
    let r' := r + 2 ^ (k + 1)
    if r' * r' ≤ n then isqrtFrom k n r' else isqrtFrom k n r

def isqrt (n : Nat) : Nat := isqrtFrom (Nat.log2 n / 2 + 1) n 0

/-- √(n ÷ d) for n, d > 0: exactly when it is rational with a short denominator, and otherwise a value with at least
128 significant bits and a half bit below them, which every format rounds as it rounds the root itself: no rounding
boundary of a format of at most 53 bits lies between the two. -/
def rootQ (n d : Nat) : Nat × Nat :=
  let k := ((256 - ilog2 n d) / 2 + 1).toNat
  let s := isqrt (n * 2 ^ (2 * k) / d)
  if s * s * d = n * 2 ^ (2 * k) then (s, 2 ^ k) else (2 * s + 1, 2 ^ (k + 1))

/-- √a (R337): FSQRT(−0) is −0, below −0 is invalid. -/
def xsqrt (a : XR) : XR × FpFlags :=
  match a with
  | .nan => (.nan, fNone)
  | .inf false => (.inf false, fNone)
  | .inf true => (.nan, fInvalid)
  | .num s n d =>
    if n = 0 then (.num s 0 1, fNone)
    else if s then (.nan, fInvalid)
    else
      let (p, q) := rootQ n d
      (.num false p q, fNone)

/-- 1/√a (the FRSQ column of R339's table). -/
def xrsqrt (a : XR) : XR × FpFlags :=
  match a with
  | .nan => (.nan, fNone)
  | .inf false => (.num false 0 1, fNone)
  | .inf true => (.nan, fInvalid)
  | .num s n d =>
    if n = 0 then (.inf s, fDivZero)
    else if s then (.nan, fInvalid)
    else
      let (p, q) := rootQ d n
      (.num false p q, fNone)

/-- 1/a (the FRCP column of R339's table). -/
def xrcp (a : XR) : XR × FpFlags :=
  match a with
  | .nan => (.nan, fNone)
  | .inf s => (.num s 0 1, fNone)
  | .num s n d => if n = 0 then (.inf s, fDivZero) else (.num s d n, fNone)

/-- Comparison of two exact values that are not NaN: less, equal, greater. −0 equals +0. -/
def xcmp (a b : XR) : Ordering :=
  match a, b with
  | .inf s, .inf t => if s == t then .eq else if s then .lt else .gt
  | .inf s, _ => if s then .lt else .gt
  | _, .inf t => if t then .gt else .lt
  | .num s n d, .num t n' d' =>
    let l : Int := (if s then -(n : Int) else n) * d'
    let r : Int := (if t then -(n' : Int) else n') * d
    compare l r
  | _, _ => .eq

/-- Whether a is the smaller operand for minimumNumber, −0 ordered below +0 (R338). -/
def xless (a b : XR) : Bool :=
  match xcmp a b with
  | .lt => true
  | .gt => false
  | .eq => match a, b with
    | .num true _ _, .num false _ _ => true
    | _, _ => false

/-- FMIN and FMAX of two codes (R338): when one operand is a NaN the other is the result. -/
def fminmax (f : FFmt) (isMax ftz : Bool) (ca cb : Nat) : Nat × FpFlags :=
  let a := f.read ftz ca
  let b := f.read ftz cb
  let fl := snanFlag [a, b]
  let keep (x : XR) := (roundTo f .rne false ftz x).1
  match a.x.isNan, b.x.isNan with
  | true, true => (f.nan, fl)
  | true, false => (keep b.x, fl)
  | false, true => (keep a.x, fl)
  | false, false =>
    let aFirst := xless a.x b.x
    (keep (if aFirst != isMax then a.x else b.x), fl)

def XR.abs : XR → XR
  | .nan => .nan
  | .inf _ => .inf false
  | .num _ n d => .num false n d

/-- FAMAX of two codes (R338). -/
def famax (f : FFmt) (ftz : Bool) (ca cb : Nat) : Nat × FpFlags :=
  let a := f.read ftz ca
  let b := f.read ftz cb
  let fl := snanFlag [a, b]
  if a.x.isNan || b.x.isNan then (f.nan, fl)
  else
    let x := if xless a.x.abs b.x.abs then b.x.abs else a.x.abs
    ((roundTo f .rne false ftz x).1, fl)

/-- Finishes an operation: the flags of the exact result first; a result that raises invalid raises no other flag (R215). -/
def deliver (f : FFmt) (m : RMode) (sat ftz : Bool) (r : XR × FpFlags) (extra : FpFlags) : Nat × FpFlags :=
  let fl := r.2 ||| extra
  let (c, g) := roundTo f m sat ftz r.1
  if fl &&& fInvalid = 0 then
    -- an infinite result of a division by zero is delivered as such unless .sat makes it finite
    (c, fl ||| g)
  else if r.1.isNan then (c, fl) else (c, fl ||| g)

def fadd (f : FFmt) (m : RMode) (ftz sat : Bool) (ca cb : Nat) : Nat × FpFlags :=
  let a := f.read ftz ca
  let b := f.read ftz cb
  deliver f m sat ftz (xsum m [a.x, b.x]) (snanFlag [a, b])

def fsub (f : FFmt) (m : RMode) (ftz sat : Bool) (ca cb : Nat) : Nat × FpFlags :=
  let a := f.read ftz ca
  let b := f.read ftz cb
  deliver f m sat ftz (xsum m [a.x, b.x.neg]) (snanFlag [a, b])

def fmul (f : FFmt) (m : RMode) (ftz sat : Bool) (ca cb : Nat) : Nat × FpFlags :=
  let a := f.read ftz ca
  let b := f.read ftz cb
  deliver f m sat ftz (xmul a.x b.x) (snanFlag [a, b])

def fdiv (f : FFmt) (m : RMode) (ftz sat : Bool) (ca cb : Nat) : Nat × FpFlags :=
  let a := f.read ftz ca
  let b := f.read ftz cb
  deliver f m sat ftz (xdiv a.x b.x) (snanFlag [a, b])

/-- a × b + c with one rounding (R337): ∞ × 0 is invalid even when c is a quiet NaN. -/
def ffma (f : FFmt) (m : RMode) (ftz sat : Bool) (ca cb cc : Nat) : Nat × FpFlags :=
  let a := f.read ftz ca
  let b := f.read ftz cb
  let c := f.read ftz cc
  let (p, pf) := xmul a.x b.x
  let (r, rf) := xsum m [p, c.x]
  deliver f m sat ftz (r, pf ||| rf) (snanFlag [a, b, c])

def fsqrt (f : FFmt) (m : RMode) (ftz : Bool) (ca : Nat) : Nat × FpFlags :=
  let a := f.read ftz ca
  deliver f m false ftz (xsqrt a.x) (snanFlag [a])

def frcp (f : FFmt) (m : RMode) (ftz : Bool) (ca : Nat) : Nat × FpFlags :=
  let a := f.read ftz ca
  deliver f m false ftz (xrcp a.x) (snanFlag [a])

def frsq (f : FFmt) (m : RMode) (ftz : Bool) (ca : Nat) : Nat × FpFlags :=
  let a := f.read ftz ca
  deliver f m false ftz (xrsqrt a.x) (snanFlag [a])

/-- c + a0 × b0 + a1 × b1, rounded once to f32 (R349). -/
def fdot2 (e : FFmt) (m : RMode) (ftz sat : Bool) (a0 a1 b0 b1 cc : Nat) : Nat × FpFlags :=
  let va0 := e.read ftz a0
  let va1 := e.read ftz a1
  let vb0 := e.read ftz b0
  let vb1 := e.read ftz b1
  let vc := FFmt.f32.read ftz cc
  let (p0, f0) := xmul va0.x vb0.x
  let (p1, f1) := xmul va1.x vb1.x
  let (r, rf) := xsum m [vc.x, p0, p1]
  deliver .f32 m sat ftz (r, f0 ||| f1 ||| rf) (snanFlag [va0, va1, vb0, vb1, vc])

/-- The fixed narrowing rule (R217): ties away for formats narrower than 16 bits, ties to even otherwise. -/
def FFmt.fixedMode (f : FFmt) : RMode := if f.width < 16 then .rna else .rne

def narrowFixed (f : FFmt) (sat : Bool) (x : XR) : Nat × FpFlags := roundTo f f.fixedMode sat false x

/-- narrow_ef (R220) of the f32 codes `cx` and `cres`: the narrowed code, the new residue (f32 code) and the flags. -/
def narrowEf (f : FFmt) (cx cres : Nat) : Nat × Nat × FpFlags :=
  let a := FFmt.f32.read false cx
  let b := FFmt.f32.read false cres
  let (e, fl) := xsum .rne [a.x, b.x]
  let s := (roundTo .f32 .rne false false e).1
  match FFmt.f32.widen s with
  | .nan => (f.nan, 0, snanFlag [a, b] ||| fl)
  | .inf neg => (f.signBit neg + f.maxCode, 0, fOverflow ||| fInexact)
  | .num neg n d =>
    let (q, qf) := narrowFixed f true (.num neg n d)
    let (r, _) := xsum .rne [.num neg n d, (f.widen q).neg]
    (q, (roundTo .f32 .rne false false r).1, qf)

/-- to_int (R219): the integer, as a number in two's complement of `w` bits, and the flags. -/
def toInt (w : Nat) (signed : Bool) (m : RMode) (x : XR) : Nat × FpFlags :=
  let lo : Int := if signed then -(2 ^ (w - 1) : Nat) else 0
  let hi : Int := if signed then (2 ^ (w - 1) : Nat) - 1 else (2 ^ w : Nat) - 1
  let enc (i : Int) : Nat := (i % (2 ^ w : Nat)).toNat
  match x with
  | .nan => (0, fInvalid)
  | .inf neg => (enc (if neg then lo else hi), fInvalid)
  | .num neg n d =>
    let (q, exact) := roundInt m neg n d
    let i : Int := if neg then -(q : Int) else q
    if i < lo then (enc lo, fInvalid)
    else if i > hi then (enc hi, fInvalid)
    else (enc i, if exact then fNone else fInexact)

/-- The exact value of an integer. -/
def XR.ofInt (i : Int) : XR := .num (i < 0) i.natAbs 1

/-- FRND (R340): a rounded to an integral value of its own format; no inexact. -/
def frnd (f : FFmt) (m : RMode) (ftz : Bool) (ca : Nat) : Nat × FpFlags :=
  let a := f.read ftz ca
  match a.x with
  | .nan => (f.nan, snanFlag [a])
  | .inf neg => (f.signBit neg + f.infCode, fNone)
  | .num neg n d => ((roundTo f .rne false false (.num neg (roundInt m neg n d).1 1)).1, fNone)

/-- The bound past which scaling further cannot change a result: beyond it every format overflows or underflows alike. -/
def clampScale (n : Int) : Int := if n > 10000 then 10000 else if n < -10000 then -10000 else n

/-- FSCL (R341): a × 2^n. -/
def fscl (f : FFmt) (m : RMode) (ftz sat : Bool) (ca : Nat) (n : Int) : Nat × FpFlags :=
  let a := f.read ftz ca
  let x := match a.x with
    | .num neg p q =>
      if p = 0 then .num neg 0 1
      else match clampScale n with
        | .ofNat k => .num neg (p * 2 ^ k) q
        | .negSucc k => .num neg p (q * 2 ^ (k + 1))
    | y => y
  deliver f m sat ftz (x, fNone) (snanFlag [a])

/-- FFRX .man and .exp (R342): m with 0.5 ≤ |m| < 1 and e, exactly. -/
def ffrxMan (f : FFmt) (ftz : Bool) (ca : Nat) : Nat × FpFlags :=
  let a := f.read ftz ca
  match a.x with
  | .nan => (f.nan, snanFlag [a])
  | .inf neg => (f.signBit neg + f.infCode, fNone)
  | .num neg n d =>
    if n = 0 then (f.signBit neg, fNone)
    else
      let (p, q) := unscale n d (ilog2 n d + 1)
      ((roundTo f .rne false false (.num neg p q)).1, fNone)

def ffrxExp (f : FFmt) (ftz : Bool) (ca : Nat) : Int × FpFlags :=
  let a := f.read ftz ca
  match a.x with
  | .nan => (0, snanFlag [a])
  | .inf _ => (0, fNone)
  | .num _ n d => if n = 0 then (0, fNone) else (ilog2 n d + 1, fNone)

/-- The condition codes of R299, R320 and R343: 1 .eq, 2 .ne, 3 .lt, 4 .le, 5 .gt, 6 .ge. -/
def condHolds (cc : Nat) (o : Ordering) : Bool :=
  match cc with
  | 1 => o == .eq
  | 2 => o != .eq
  | 3 => o == .lt
  | 4 => o != .gt
  | 5 => o == .gt
  | 6 => o != .lt
  | _ => false

/-- FCMP (R343): the outcome and the flags; `u` is .u. -/
def fcmp (f : FFmt) (ftz u : Bool) (cc : Nat) (ca cb : Nat) : Bool × FpFlags :=
  let a := f.read ftz ca
  let b := f.read ftz cb
  if a.x.isNan || b.x.isNan then
    let fl := if cc = 1 || cc = 2 then snanFlag [a, b] else fInvalid
    (cc == 2 || u, fl)
  else (condHolds cc (xcmp a.x b.x), fNone)

/-- The class bit of a code (R344). -/
def fclassBit (f : FFmt) (code : Nat) : Nat :=
  let neg := (code >>> (f.width - 1)) % 2 == 1
  match f.widen code with
  | .nan => if f.isSNan code then 0 else 1
  | .inf _ => if neg then 2 else 9
  | .num _ n _ =>
    if n = 0 then (if neg then 5 else 6)
    else if f.isSub code then (if neg then 4 else 7)
    else (if neg then 3 else 8)

/-- HN4 numerators C[c] (R221). -/
def hn4C (c : Nat) : Int :=
  match c with
  | 0 => -4096 | 1 => -2899 | 2 => -2221 | 3 => -1708 | 4 => -1274 | 5 => -885 | 6 => -522 | 7 => -172
  | 8 => 172 | 9 => 522 | 10 => 885 | 11 => 1274 | 12 => 1708 | 13 => 2221 | 14 => 2899 | _ => 4096

/-- hn4_value (R222): the f32 code and the flags of its rounding. -/
def hn4Value (c b : Nat) (scale : Nat) : Nat × FpFlags :=
  let s := FFmt.f32.read false scale
  let k := hn4C c
  match s.x with
  | .nan => (FFmt.f32.nan, snanFlag [s])
  | .inf neg => if b = 0 then (FFmt.f32.nan, fInvalid) else (FFmt.f32.signBit ((k < 0) != neg) + FFmt.f32.infCode, fNone)
  | .num neg n d => roundTo .f32 .rne false false (.num ((k < 0) != neg) (k.natAbs * b * n) (4096 * 255 * d))

end Sys2Proof.Machine
end

