-- ==== Sys2Proof/Machine/Flags.lean ====
section
/-!
DEFINITION. Integer ranges, elements of packed types, conditions, and the modifiers of the float mould with the flags its words
raise (R210, R211, R215, R299, R320, R335).
-/

namespace Sys2Proof.Machine

/-! ## Integers (R210, R232) -/

/-- x read as a two's complement number of w bits. -/
def toSigned (w x : Nat) : Int :=
  let y := x % 2 ^ w
  if y < 2 ^ (w - 1) then (y : Int) else (y : Int) - (2 ^ w : Nat)

/-- x read under a signed or natural type of w bits. -/
def readInt (w : Nat) (sg : Bool) (x : Nat) : Int := if sg then toSigned w x else ((x % 2 ^ w : Nat) : Int)

/-- wrap_w. -/
def wrapW (w : Nat) (i : Int) : Nat := (i % (2 ^ w : Nat)).toNat

/-- sat_s and sat_n, as w bits. -/
def satW (w : Nat) (sg : Bool) (i : Int) : Nat :=
  let lo : Int := if sg then -((2 ^ (w - 1) : Nat) : Int) else 0
  let hi : Int := if sg then ((2 ^ (w - 1) : Nat) : Int) - 1 else ((2 ^ w : Nat) : Int) - 1
  wrapW w (if i < lo then lo else if i > hi then hi else i)

/-- Saturated or wrapped. -/
def fitW (sat : Bool) (w : Nat) (sg : Bool) (i : Int) : Nat := if sat then satW w sg i else wrapW w i

/-- Signed integer types; b32 reads as n32 (R312). -/
def isSigned (t : Ty) : Bool := t == .i32 || t == .i64 || t == .i16x2 || t == .i8x4

/-- Element width and count of a type (R210, R211). -/
def elemBits : Ty → Nat
  | .i64 => 64 | .n64 => 64 | .f64 => 64
  | .bf16x2 => 16 | .f16x2 => 16 | .i16x2 => 16 | .f16 => 16
  | .i8x4 => 8 | .e4m3x4 => 8 | .e5m2x4 => 8
  | .hn4x8 => 4
  | _ => 32
def elemCount : Ty → Nat
  | .bf16x2 => 2 | .f16x2 => 2 | .i16x2 => 2
  | .i8x4 => 4 | .e4m3x4 => 4 | .e5m2x4 => 4
  | .hn4x8 => 8
  | _ => 1

/-- Element j of w bits. -/
def elemAt (w x j : Nat) : Nat := x / 2 ^ (w * j) % 2 ^ w

/-- n elements of w bits put together, element 0 lowest. -/
def packElems (w : Nat) (f : Nat → Nat) : Nat → Nat
  | 0 => 0
  | n + 1 => packElems w f n + f n % 2 ^ w * 2 ^ (w * n)

/-- The comparison of two values (R299, R320). -/
def cmpInt (a b : Int) : Ordering := if a < b then .lt else if a = b then .eq else .gt

/-- Population count, leading and trailing zeros, reversal of the low w bits. -/
def popcount : Nat → Nat → Nat
  | 0, _ => 0
  | n + 1, x => x % 2 + popcount n (x / 2)
def clzW : Nat → Nat → Nat
  | 0, _ => 0
  | n + 1, x => if x / 2 ^ n % 2 = 1 then 0 else 1 + clzW n x
def ctzW : Nat → Nat → Nat
  | 0, _ => 0
  | n + 1, x => if x % 2 = 1 then 0 else 1 + ctzW n (x / 2)
def revW : Nat → Nat → Nat
  | 0, _ => 0
  | n + 1, x => x % 2 * 2 ^ n + revW n (x / 2)

/-- a shifted right arithmetically by n within w bits (R313). -/
def sarW (w a n : Nat) : Nat :=
  let i := toSigned w a
  wrapW w (if w ≤ n then (if i < 0 then -1 else 0) else i / (2 ^ n : Nat))

/-- a rotated left by n within w bits. -/
def rolW (w a n : Nat) : Nat :=
  let k := n % w
  (a * 2 ^ k + a / 2 ^ (w - k)) % 2 ^ w

/-! ## Floats (R214, R335) -/

/-- The format of a float type's element; f32 for any other. -/
def fmtOf : Ty → FFmt
  | .f64 => .f64
  | .bf16x2 => .bf16
  | .f16x2 => .f16
  | .f16 => .f16
  | .e4m3x4 => .e4m3
  | .e5m2x4 => .e5m2
  | _ => .f32

/-- The rounding codes of R260. -/
def rmode : Nat → RMode
  | 1 => .rz | 2 => .ru | 3 => .rd
  | _ => .rne

/-- A function of elements applied to n elements of w bits: the packed results and the OR of their flags. -/
def packFlags (w : Nat) (f : Nat → Nat × FpFlags) : Nat → Nat × FpFlags
  | 0 => (0, 0)
  | n + 1 =>
    let (x, fl) := packFlags w f n
    let (y, gl) := f n
    (x + y % 2 ^ w * 2 ^ (w * n), fl ||| gl)

/-- The code of an integer as f32 or f64, exact for 24-bit integers (R335). -/
def intCode (f : FFmt) (i : Int) : Nat := (roundTo f .rne false false (XR.ofInt i)).1

/-- The combinations of REDC, SCANC and collectives (R229, R329): op 0 add, 1 min, 2 max, 3 and, 4 or, 5 xor, on Z and floats. -/
def combine (op : Nat) (t : Ty) (a b : Nat) : Nat × FpFlags :=
  if t = .f32 ∨ t = .f64 then
    let f := fmtOf t
    match op with
    | 0 => fadd f .rne false false a b
    | 1 => fminmax f false false a b
    | _ => fminmax f true false a b
  else
    let w := elemBits t
    let sg := isSigned t
    let x := readInt w sg a
    let y := readInt w sg b
    (match op with
     | 0 => wrapW w (x + y)
     | 1 => wrapW w (min x y)
     | 2 => wrapW w (max x y)
     | 3 => a &&& b
     | 4 => a ||| b
     | _ => a ^^^ b, 0)

/-- The identity of an operation (R229). -/
def identity (op : Nat) (t : Ty) : Nat :=
  if t = .f32 ∨ t = .f64 then
    let f := fmtOf t
    match op with
    | 0 => f.signBit true
    | 1 => f.infCode
    | _ => f.signBit true + f.infCode
  else
    let w := elemBits t
    match op with
    | 1 => if isSigned t then 2 ^ (w - 1) - 1 else 2 ^ w - 1
    | 2 => if isSigned t then 2 ^ (w - 1) else 0
    | 3 => 2 ^ w - 1
    | _ => 0

/-- One round of red_tree: neighbours at distance 2^i are combined, left operand first (R229). -/
def redRound (op : Nat) (t : Ty) : List Nat → List Nat × FpFlags
  | a :: b :: rest =>
    let (x, fl) := combine op t a b
    let (xs, gl) := redRound op t rest
    (x :: xs, fl ||| gl)
  | l => (l, 0)

/-- red_tree over 32 values. -/
def redTree (op : Nat) (t : Ty) (xs : List Nat) : Nat × FpFlags :=
  let (a, f0) := redRound op t xs
  let (a, f1) := redRound op t a
  let (a, f2) := redRound op t a
  let (a, f3) := redRound op t a
  let (a, f4) := redRound op t a
  (a.headD 0, f0 ||| f1 ||| f2 ||| f3 ||| f4)

end Sys2Proof.Machine
end

