-- ==== Sys2Proof/Machine/Events.lean ====
section
/-!
DEFINITION. Numbering of the package's parts (R9 to R12, R19), record fields, the event queue (R76, R465) and the error
logs (R37).
-/

namespace Sys2Proof.Machine

/-! ## Numbers -/

/-- Local columns of a module (R2). -/
def nCols : Nat := 36864

def coreOf (col : Nat) : Nat := col / 8
def clusterOf (col : Nat) : Nat := col / 48
def dieOfCluster (cluster : Nat) : Nat := cluster / 64
def meshX (cluster : Nat) : Nat := cluster % 8
def meshY (cluster : Nat) : Nat := cluster / 8 % 8

/-- The stack a cluster sits under and its channel in the stack (R11). -/
def stackOf (cluster : Nat) : Nat := 2 * dieOfCluster cluster + (if meshY cluster < 4 then 0 else 1)
def chanOf (cluster : Nat) : Nat := 8 * (meshY cluster % 4) + meshX cluster

def setBit {w : Nat} (x : BitVec w) (i : Nat) (b : Bool) : BitVec w :=
  if b then x ||| BitVec.ofNat w (2 ^ i) else x &&& ~~~(BitVec.ofNat w (2 ^ i))

/-- A value placed at a bit position of a record under construction. -/
def at_ (v lo : Nat) : Nat := v <<< lo

/-- The [hi:lo] field of a number. -/
def fld (x hi lo : Nat) : Nat := (x >>> lo) % 2 ^ (hi + 1 - lo)

/-- The n bytes of a number, lowest first (R3). -/
def bytesOf : Nat → Nat → List Byte
  | 0, _ => []
  | n + 1, x => BitVec.ofNat 8 x :: bytesOf n (x / 256)

/-- The number that little-endian bytes hold (R3). -/
def natOf : List Byte → Nat
  | [] => 0
  | b :: bs => b.toNat + 256 * natOf bs

/-! ## Time -/

/-- Microseconds since firmware start; 0 before it. -/
def State.nowUs (s : State) : Nat := if s.boot.jasper then Config.usBetween s.boot.fwTick s.tick else 0

/-! ## The event queue -/

/-- Records not yet read by the host (R76). -/
def Evq.unread (q : Evq) : Nat := q.tail - q.head

/-- Whether the queue has room for a record (R76). -/
def Evq.room (q : Evq) : Bool := q.unread < 4096

/-- The layout of an event record (R76). `detail` is given by its record bit positions less 128. -/
def eventRecord (detail time kind src seq : Nat) : BitVec 256 :=
  BitVec.ofNat 256 (at_ (detail % 2 ^ 128) 128 + at_ (time % 2 ^ 40) 88 + at_ (kind % 256) 80 + at_ (src % 65536) 64
    + seq % 2 ^ 64)

/-- Places or drops an event: the arbiter takes the next SEQ either way; a queue that becomes non-empty asserts ALERT_N
and sends the MSI-X vector if it is enabled (R76). -/
def State.postEvent (s : State) (kind src detail : Nat) : State :=
  let q := s.evq
  if q.room then
    let r := eventRecord detail s.nowUs kind src q.seq
    { s with
      evq := { q with tail := q.tail + 1, seq := q.seq + 1, slots := tabSet q.slots (q.tail % 4096) r, alert := true }
      boot.msix := if q.unread = 0 && s.boot.msixOn then s.boot.msix + 1 else s.boot.msix }
  else { s with evq := { q with seq := q.seq + 1, lost := min (q.lost + 1) (2 ^ 64 - 1) } }

/-- A management event (kind 14 of R465): SRC, cause, the detail of causes 4 and 5, and the location concerned. -/
def State.mgmtEvent (s : State) (src cause why loc : Nat) : State :=
  s.postEvent 14 src (cause + at_ why 4 + at_ loc 64)

/-! ## Error logs (R37) -/

/-- The physical place of a line: the column whose slice holds it, the tier, the slice offset. -/
structure Place where
  col : Nat
  tier : Bool
  off : Nat
  deriving DecidableEq, Repr, Inhabited

/-- The key of a byte of memory. -/
def Place.addr (p : Place) : Nat := p.col * 2 ^ 28 + (if p.tier then 2 ^ 27 else 0) + p.off

/-- The key of the 64-byte line that holds a byte. -/
def Place.line (p : Place) : Nat := p.addr / 64

/-- LINE, CHAN, PC and the log of a line (R28, R29, R37). -/
def Place.channelAddr (p : Place) : Nat :=
  if p.tier then 2 ^ 27 * (48 * meshX (clusterOf p.col) + p.col % 48) + p.off else 2 ^ 25 * (p.col % 48) + p.off

def Place.chan (p : Place) : Nat := if p.tier then meshY (clusterOf p.col) else chanOf (clusterOf p.col)

def Place.log (p : Place) : Nat :=
  if p.tier then 24 + dieOfCluster (clusterOf p.col) else stackOf (clusterOf p.col)

def Place.pc (p : Place) : Nat := if p.tier then 0 else p.channelAddr / 256 % 2

/-- The bank within the pseudo-channel (R28): a[12:9] XOR a[16:13]; for a place in HBM4E. -/
def Place.bank (p : Place) : Nat := Nat.xor (fld p.channelAddr 12 9) (fld p.channelAddr 16 13)

/-- The place of a memory key. -/
def placeOf (addr : Nat) : Place := ⟨addr / 2 ^ 28, addr / 2 ^ 27 % 2 == 1, addr % 2 ^ 27⟩

def logKind (e : BitVec 128) : Nat := fieldNat e 79 76

/-- The index in a log of the entry that matches line, channel and kind; the first empty entry; the entry of kind 1 or 3
with the earliest TIME (the lowest index at equal times). -/
def findLog (f : BitVec 128 → Bool) (logs : Tab (BitVec 128)) (base : Nat) : Nat → Option Nat
  | 0 => none
  | n + 1 =>
    let i := 256 - (n + 1)
    if f (tabGet logs (base + i)) then some i else findLog f logs base n

def oldestLog (logs : Tab (BitVec 128)) (base : Nat) : Nat → Option Nat
  | 0 => none
  | n + 1 =>
    let e := tabGet logs (base + n)
    match oldestLog logs base n with
    | none => if logKind e = 1 ∨ logKind e = 3 then some n else none
    | some j =>
      if (logKind e = 1 ∨ logKind e = 3) ∧ fieldNat e 127 88 < fieldNat (tabGet logs (base + j)) 127 88 then some n
      else some j

/-- Updates a log for one occurrence (R37). -/
def HostTabs.logError (t : HostTabs) (now : Nat) (p : Place) (owner kind sym : Nat) : HostTabs :=
  let base := 256 * p.log
  let ln := p.channelAddr / 64
  let fresh : BitVec 128 := BitVec.ofNat 128 (at_ (now % 2 ^ 40) 88 + at_ kind 76 + at_ p.chan 71 + at_ p.pc 70
    + at_ sym 64 + at_ ln 16 + owner)
  match findLog (fun e => logKind e == kind && fieldNat e 45 16 == ln && fieldNat e 75 71 == p.chan) t.logs base 256 with
  | some i =>
    let e := (tabGet t.logs (base + i)).toNat
    let rep := min (fld e 87 80 + 1) 255
    { t with logs := tabSet t.logs (base + i) (BitVec.ofNat 128 (e % 2 ^ 80 + at_ rep 80 + at_ (now % 2 ^ 40) 88)) }
  | none =>
    match findLog (fun e => logKind e == 0) t.logs base 256 with
    | some i => { t with logs := tabSet t.logs (base + i) fresh }
    | none =>
      match oldestLog t.logs base 256 with
      | some i => { t with logs := tabSet t.logs (base + i) fresh }
      | none => { t with logOvf := tabSet t.logOvf p.log true }

/-- A line has logged kind 2 or 4 now: the lines that have within the last hour, each once (R107). -/
def lineLogged (ls : List (Nat × Nat)) (line now : Nat) : List (Nat × Nat) :=
  (line, now) :: ls.filter fun e => e.1 != line && decide (now ≤ e.2 + 3600000000)

/-- Logs an error of a line, and posts its memory error event for kinds 2 and 4 (R37, R465). -/
def State.logLine (s : State) (p : Place) (owner kind sym : Nat) : State :=
  let s := { s with tabs := s.tabs.logError s.nowUs p owner kind sym }
  if kind = 2 ∨ kind = 4 then
    let s := if p.tier then s else { s with pw.badLines := lineLogged s.pw.badLines p.line s.nowUs }
    let unit := if p.tier then dieOfCluster (clusterOf p.col) else stackOf (clusterOf p.col)
    s.postEvent 3 owner (kind + at_ (if p.tier then 1 else 0) 4 + at_ unit 8 + at_ (p.channelAddr / 64) 16
      + at_ p.chan 46 + at_ p.pc 51)
  else s

/-- The memory error event for an update discarded on a poisoned line (R383, R428, R465). -/
def State.discardedUpdate (s : State) (owner addr : Nat) : State := s.postEvent 3 owner (2 + at_ 4 4 + at_ (addr / 64 * 64) 64)

end Sys2Proof.Machine
end

