-- ==== Sys2Proof/Machine/Mem.lean ====
section
/-!
DEFINITION. Column memory: where a slice lies (R28, R29, R113, R116), poison and array errors per line (R34 to R36), compressed
and tolerant pages (R39 to R42), translation (R185 to R187), and reads and writes of virtual ranges.
-/

namespace Sys2Proof.Machine

/-- Memory: stored bytes by key (`Place.addr`). What nothing has written reads as 0 (DESIGN CHOICE, log entry 1). -/
abbrev Memory := Tab Byte

/-- The canonical form of memory. -/
def Memory.wf (m : Memory) : Bool := tabWf m

/-- Reads one byte. -/
def Memory.read (m : Memory) (a : Nat) : Byte := tabGet m a

/-- Writes one byte, keeping the canonical form. -/
def Memory.write (m : Memory) (a : Nat) (b : Byte) : Memory := tabSet m a b

/-! ## Contexts and the column map -/

def ctxState (e : Rec64) : Nat := fieldNat e 391 384
def ctxTransoff (e : Rec64) : Nat := fieldNat e 31 0
def ctxSaveoff (e : Rec64) : Nat := fieldNat e 63 32
def ctxPrio (e : Rec64) (queue : Nat) : Nat := fieldNat e (192 + 3 * queue + 2) (192 + 3 * queue)

def State.ctxEnt (s : State) (ctx : Nat) : Rec64 := tabGet s.tabs.ctx ctx

/-- The column map entry of a column (R113). -/
def State.fold (s : State) (col : Nat) : FoldEnt :=
  match tabGet s.tabs.cmap col with
  | some e => e
  | none => ⟨0, 0, 0, col⟩

/-- The column that runs a logical column: itself, or its host (R113). -/
def State.hostOf (s : State) (col : Nat) : Nat :=
  let e := s.fold col
  if e.st = 2 then e.host else col

/-- Start of the fold reserve in a second-tier slice (R115). -/
def foldReserve : Nat := 96 * 2 ^ 20

/-- Where offset `off` of a column's HBM4E slice lies: in the slice, or in its host's fold reserve (R116). -/
def State.hbmPlace (s : State) (col off : Nat) : Place :=
  let e := s.fold col
  if e.st = 2 then ⟨e.host, true, foldReserve + off⟩ else ⟨col, false, off⟩

/-- Where a slice offset lies. The second-tier slice of a folded column stays its own (R116). -/
def State.place (s : State) (col : Nat) (tier : Bool) (off : Nat) : Place :=
  if tier then ⟨col, true, off⟩ else s.hbmPlace col off

/-- Whether a write at an HBM4E slice offset lies in a translation range of a context in STATE 1 to 3 (R115). -/
def State.inTransRange (s : State) (off : Nat) : Bool :=
  (List.range 16).any fun c =>
    let e := s.ctxEnt c
    1 ≤ ctxState e && ctxState e ≤ 3 && ctxTransoff e ≤ off && off < ctxTransoff e + 2 ^ 21

/-- The second place of a mirrored write (R115, R116): the column's own fold reserve, or its guest's while it hosts one;
none for a column folded onto a host. -/
def State.mirror (s : State) (col : Nat) (tier : Bool) (off : Nat) : Option Place :=
  if tier || !s.inTransRange off then none
  else
    let e := s.fold col
    if e.st = 2 then none
    else if e.st = 1 then some ⟨e.host, true, foldReserve + off⟩
    else some ⟨col, true, foldReserve + off⟩

/-! ## Lines, poison and array errors -/

/-- Reads a line's array copy for the first time since an error arose (R34, R35, R36): while the vault holds the line dirty
its copy serves; a corrected read clears the error and is logged; an uncorrectable one leaves the poison marker and is logged; a
miscorrected one reports nothing, and the error stays. -/
def State.touchLine (s : State) (p : Place) (owner : Nat) : State :=
  let ln := p.line
  match tabGet s.upsets ln with
  | none => s
  | some u =>
    if tabGet s.dirty ln || u.wrong.isSome then s
    else
      let s := { s with upsets := tabSet s.upsets ln none }
      if u.corr then s.logLine p owner 1 u.sym
      else ({ s with pois := tabSet s.pois ln true }).logLine p owner 2 u.sym

/-- A block whose first line carries a reserved mode code is an uncorrectable read (R39). -/
def State.touchMode (s : State) (p : Place) (owner : Nat) : State :=
  let blk := p.addr / 256
  if 5 ≤ tabGet s.modes blk ∧ tabGet s.vault blk = none then
    let q : Place := { p with off := p.off / 256 * 256 }
    ({ s with pois := tabSet s.pois q.line true, modes := tabSet s.modes blk 0 }).logLine q owner 2 63
  else s

/-- Writes a stored byte and marks its line dirty in the vault (R30). -/
def State.putByte (s : State) (p : Place) (b : Byte) : State :=
  { s with mem := Memory.write s.mem p.addr b, dirty := tabSet s.dirty p.line true }

/-- Reads a stored byte. -/
def State.getByte (s : State) (p : Place) : Byte := Memory.read s.mem p.addr

/-- What a miscorrected array read of a line returns, where the vault does not hold the line dirty (R34). -/
def State.wrongLine (s : State) (line : Nat) : Option Rec64 :=
  match tabGet s.upsets line with
  | some u => if tabGet s.dirty line then none else u.wrong
  | none => none

/-- The byte that a read of a place gets from the line's code. -/
def State.lineByte (s : State) (p : Place) : Byte :=
  match s.wrongLine p.line with
  | some d => d.extractLsb' (8 * (p.addr % 64)) 8
  | none => s.getByte p

/-- The vault takes a line from the array before a write of a part of it: what a miscorrection made of it is then the line's data. -/
def State.takeWrong (s : State) (p : Place) : State :=
  match s.wrongLine p.line with
  | some d =>
    { s with
      mem := (List.range 64).foldl (fun m i => Memory.write m (64 * p.line + i) (d.extractLsb' (8 * i) 8)) s.mem
      upsets := tabSet s.upsets p.line none }
  | none => s

/-- The vault allocates a line on a write of a part of it (R30): the line is read first. -/
def State.fillLine (s : State) (p : Place) (owner : Nat) : State := (s.touchLine p owner).takeWrong p

/-- The lines of a slice offset and of its mirror, before a write of a part of them. -/
def State.fillBoth (s : State) (p : Place) (owner : Nat) : State :=
  let s := s.fillLine p owner
  match s.mirror p.col p.tier p.off with
  | some m => s.fillLine m m.col
  | none => s

/-! ## Translation (R185 to R187) -/

/-- A page that an access meets: where it lies, its size and attributes, and the slice offsets of its entry and of the root entry. -/
structure Page where
  base : Nat
  tier : Bool
  size : Nat
  tol : Nat
  comp : Bool
  sl : Bool
  w : Bool
  x : Bool
  ent : Nat
  root : Nat
  deriving DecidableEq, Repr, Inhabited

/-- The outcome of a walk: a translation fault, a malformed entry with its reason (1, or 6 for a poisoned line), a page. -/
inductive Walk where
  | miss
  | bad (reason : Nat)
  | page (p : Page)
  deriving DecidableEq, Repr, Inhabited

/-- A table entry at an HBM4E slice offset. -/
def State.entryAt (s : State) (col off : Nat) : Nat :=
  natOf ((List.range 8).map fun i => s.lineByte (s.hbmPlace col (off + i)))

/-- Whether the line of a table entry holds the poison marker, or an uncorrectable error that its next read will mark. -/
def State.entryPois (s : State) (col off : Nat) : Bool :=
  let ln := (s.hbmPlace col off).line
  tabGet s.pois ln || (match tabGet s.upsets ln with
    | some u => !u.corr && u.wrong.isNone && !tabGet s.dirty ln
    | none => false)

/-- Reads the lines of the entries that a walk has taken (R35). -/
def State.touchTables (s : State) (col : Nat) (lines : List Nat) : State :=
  lines.foldl (fun s ln => s.touchLine (placeOf (64 * ln)) col) s

/-- The backed size of a page of `size` bytes (R41). -/
def backedSize (size tol : Nat) : Nat := if tol = 1 then size / 2 else if tol = 2 then size / 4 else size

/-- A page entry (R186), checked under order 2 of R187. -/
def pageOf (e size ent root : Nat) : Walk :=
  let tol := fld e 7 6
  let comp := fld e 5 5 == 1
  let tier := fld e 4 4 == 1
  let base := fld e 28 16 * 2 ^ 14
  let bk := backedSize size tol
  if fld e 63 29 ≠ 0 ∨ fld e 15 9 ≠ 0 ∨ tol = 3 ∨ (comp ∧ tol ≠ 0) ∨ base % bk ≠ 0
      ∨ base + bk > (if tier then foldReserve else 2 ^ 25) then .bad 1
  else .page ⟨base, tier, size, tol, comp, fld e 8 8 == 1, fld e 2 2 == 1, fld e 3 3 == 1, ent, root⟩

/-- The walk of a column's tables in a context for a virtual offset, with the table lines walked (R185, R187, R189). -/
def State.walk (s : State) (ctx col off : Nat) : Walk × List Nat :=
  let t := ctxTransoff (s.ctxEnt ctx)
  let r := t + 8 * (off / 2 ^ 21)
  let rl := (s.hbmPlace col r).line
  if s.entryPois col r then (.bad 6, [rl])
  else
    let e := s.entryAt col r
    if e % 2 = 0 then (.miss, [rl])
    else if fld e 1 1 = 1 then (pageOf e (2 ^ 21) r r, [rl])
    else
      let tbl := fld e 28 12 * 256
      if fld e 63 29 ≠ 0 ∨ fld e 11 2 ≠ 0 ∨ tbl < t + 2 ^ 16 ∨ tbl + 256 > t + 2 ^ 21 then (.bad 1, [rl])
      else
        let l := tbl + 8 * (off / 2 ^ 16 % 32)
        let ll := (s.hbmPlace col l).line
        if s.entryPois col l then (.bad 6, [rl, ll])
        else
          let e := s.entryAt col l
          if e % 2 = 0 then (.miss, [rl, ll])
          else if fld e 1 1 = 0 then (.bad 1, [rl, ll])
          else (pageOf e (2 ^ 16) l r, [rl, ll])

/-- What an access does. -/
inductive Acc where
  | read | write | atomic | fetch
  deriving DecidableEq, Repr, Inhabited

def Acc.stores : Acc → Bool
  | .write => true
  | .atomic => true
  | _ => false

/-- The ACC code of a fault event (R191). -/
def Acc.code : Acc → Nat
  | .read => 0 | .write => 1 | .atomic => 2 | .fetch => 3

/-- The outcome of R187: a translation fault, trap 0x08 with its reason, the sealed-store trap, or the page. -/
inductive XOut where
  | miss
  | prot (reason : Nat)
  | isSealed
  | page (p : Page)
  deriving DecidableEq, Repr, Inhabited

/-- Whether an UNSEAL that has cleared the entries of an offset's page is still to complete: stores then meet a sealed page (R367). -/
def State.unsealing (s : State) (ctx col off : Nat) : Bool :=
  s.ops.any fun e => match e.2 with
    | some o => match o.body with
      | .page q => q.kind == .unseal && q.begun && o.ctx == ctx && q.col == col && decide (q.off ≤ off) && decide (off < q.off + q.len)
      | _ => false
    | none => false

/-- An access translated and checked in the order of R187. `raw` is aperture 1; the offset range is within one page. -/
def State.check (s : State) (ctx col off size : Nat) (raw : Bool) (acc : Acc) : XOut :=
  match (s.walk ctx col off).1 with
  | .miss => .miss
  | .bad r => .prot r
  | .page p =>
    if acc.stores && !p.w then .prot 2
    else if acc = .fetch && !p.x then .prot 3
    else if acc.stores && (p.sl || s.unsealing ctx col off) then .isSealed
    else if raw && p.tol ≠ 0 && off % p.size + size > backedSize p.size p.tol then .prot 4
    else .page p

/-! ## Compressed blocks (R39, R40) -/

def wordAt (bs : List Byte) (i : Nat) : Nat := natOf ((bs.drop (4 * i)).take 4)

/-- The signed difference of two words, read as an integer. -/
def wordDelta (w w0 : Nat) : Int := (BitVec.ofNat 32 (w + 2 ^ 32 - w0)).toInt

def compressMode (bs : List Byte) : Nat :=
  let w0 := wordAt bs 0
  let ds := (List.range 64).map fun i => wordDelta (wordAt bs i) w0
  if (List.range 64).all (fun i => wordAt bs i == 0) then 1
  else if ds.all (· == 0) then 2
  else if ds.all (fun d => decide (-128 ≤ d ∧ d ≤ 127)) then 3
  else if ds.all (fun d => decide (-32768 ≤ d ∧ d ≤ 32767)) then 4
  else 0

/-- Sectors stored for a mode. -/
def modeSectors (mode : Nat) : Nat :=
  match mode with
  | 1 => 1 | 2 => 1 | 3 => 3 | 4 => 5 | _ => 8

/-- The stored sectors of a block in a mode, padded with zeros to the whole footprint (the raw aperture returns zero there). -/
def compressBlock (bs : List Byte) : Nat × List Byte :=
  let w0 := wordAt bs 0
  let d (n i : Nat) : List Byte := bytesOf n (wordAt bs i + 2 ^ 32 - w0)
  let pad (l : List Byte) : List Byte := l ++ List.replicate (256 - l.length) 0
  match compressMode bs with
  | 1 => (1, pad [])
  | 2 => (2, pad (bytesOf 4 w0))
  | 3 => (3, pad (bytesOf 4 w0 ++ (List.range 64).flatMap (d 1)))
  | 4 => (4, pad (bytesOf 4 w0 ++ (List.range 64).flatMap (d 2)))
  | _ => (0, bs)

/-- The block that stored bytes in a mode stand for. -/
def decompressBlock (mode : Nat) (st : List Byte) : List Byte :=
  let w0 := wordAt st 0
  let sx (n i : Nat) : Nat :=
    let v := natOf ((st.drop (4 + n * i)).take n)
    if v ≥ 2 ^ (8 * n - 1) then v + 2 ^ 32 - 2 ^ (8 * n) else v
  match mode with
  | 1 => List.replicate 256 0
  | 2 => (List.range 64).flatMap fun _ => bytesOf 4 w0
  | 3 => (List.range 64).flatMap fun i => bytesOf 4 (w0 + sx 1 i)
  | 4 => (List.range 64).flatMap fun i => bytesOf 4 (w0 + sx 2 i)
  | _ => st

/-- The stored bytes of the block that holds a place. -/
def State.storedBlock (s : State) (p : Place) : List Byte :=
  let b := p.off / 256 * 256
  (List.range 256).map fun i => s.lineByte { p with off := b + i }

/-- The decompressed view of the block that holds a place: the vault's copy if it holds the block dirty. -/
def State.plainBlock (s : State) (p : Place) : List Byte :=
  let blk := p.addr / 256
  match tabGet s.vault blk with
  | some bs => bs
  | none => decompressBlock (tabGet s.modes blk) (s.storedBlock p)

/-- Stored bytes replaced from an offset on. -/
def State.putBytes (s : State) (p : Place) : List Byte → State
  | [] => s
  | b :: bs => (s.putByte p b).putBytes { p with off := p.off + 1 } bs

/-- A block's stored bytes, mode and poison are written to its mirror too (R115). -/
def State.mirrorBlock (s : State) (p : Place) (mode : Nat) (st : List Byte) : State :=
  match s.mirror p.col p.tier p.off with
  | none => s
  | some m =>
    let s := s.putBytes m st
    { s with
      modes := tabSet s.modes (m.addr / 256) mode
      pois := (List.range 4).foldl (fun t i => tabSet t (m.line + i) (tabGet t (p.line + i))) s.pois }

/-- The blocks of which a vault holds a line dirty. -/
def State.heldBlocks (s : State) : List Nat :=
  ((s.dirty.map fun (e : Nat × Bool) => e.1 / 4) ++ s.vault.map fun (e : Nat × Option (List Byte)) => e.1).eraseDups

/-- The vault writes a dirty compressed block back in the first mode that holds (R39, R40). -/
def State.writeBackBlock (s : State) (p : Place) : State :=
  let blk := p.addr / 256
  match tabGet s.vault blk with
  | none => s
  | some bs =>
    let (mode, st) := compressBlock bs
    let q : Place := { p with off := p.off / 256 * 256 }
    let s := s.putBytes q st
    let s := { s with vault := tabSet s.vault blk none, modes := tabSet s.modes blk mode }
    s.mirrorBlock q mode st

/-- Writes back the block and its lines: nothing of it stays dirty, and array errors under dirty lines are overwritten (R36). -/
def State.cleanBlock (s : State) (p : Place) : State :=
  let s := s.writeBackBlock p
  let b := p.addr / 256 * 4
  let clr (s : State) (i : Nat) : State :=
    if tabGet s.dirty (b + i) then
      { s with dirty := tabSet s.dirty (b + i) false, upsets := tabSet s.upsets (b + i) none }
    else s
  (List.range 4).foldl clr s

/-! ## Bytes of a page -/

/-- The FP32 code of a tolerant page's stored bytes (R42); every NaN is the canonical one (R213). -/
def widenTol (tol : Nat) (st : List Byte) : Nat :=
  if tol = 1 then
    match FFmt.bf16.widen (natOf st) with
    | .nan => 0x7FC00000
    | _ => natOf st * 65536
  else
    let c := natOf st
    match FFmt.e4m3.widen c with
    | .nan => 0x7FC00000
    | x => (roundTo .f32 .rne false false x).1

/-- The stored bytes of a tolerant page's FP32 word (R41). -/
def narrowTol (tol : Nat) (w : Nat) : List Byte :=
  let x := FFmt.f32.widen w
  if tol = 1 then bytesOf 2 (roundTo .bf16 .rne false false x).1
  else bytesOf 1 (match x with
    | .nan => 0x7F
    | _ => (roundTo .e4m3 .rna true false x).1)

/-- The slice offset of the stored byte (the first, for a tolerant word) behind page offset `po`. -/
def Page.stored (p : Page) (raw : Bool) (po : Nat) : Nat :=
  if raw || p.tol = 0 then p.base + po
  else if p.tol = 1 then p.base + po / 4 * 2 else p.base + po / 4

/-- How many lines of a compressed block's place its stored sectors take. -/
def sectorLines (mode : Nat) : Nat := (modeSectors mode + 1) / 2

/-- Fills a compressed block that the vault does not hold, as one unit (R31): the lines of its stored sectors are read. -/
def State.touchBlock (s : State) (p : Place) (owner : Nat) : State :=
  let blk := p.addr / 256
  match tabGet s.vault blk with
  | some _ => s
  | none =>
    (List.range (sectorLines (tabGet s.modes blk))).foldl (fun s i => s.touchLine { p with off := p.off / 256 * 256 + 64 * i } owner) s

/-- Whether the stored sectors from which the block of a place would be decompressed lie in a poisoned line: none of its words can be
told (DEDUCED, log entry 25). -/
def State.blockLost (s : State) (p : Place) : Bool :=
  let blk := p.addr / 256
  let mode := tabGet s.modes blk
  tabGet s.vault blk == none && mode != 0 && (List.range (sectorLines mode)).any fun i => tabGet s.pois (4 * blk + i)

/-- The places of the lines that a byte read of a page touches. -/
def State.pagePlace (s : State) (col : Nat) (p : Page) (raw : Bool) (po : Nat) : Place :=
  s.place col p.tier (p.stored raw po)

/-- The byte at page offset `po` through an aperture (R40, R42). -/
def State.pageByte (s : State) (col : Nat) (p : Page) (raw : Bool) (po : Nat) : Byte :=
  let pl := s.pagePlace col p raw po
  if !raw && p.tol ≠ 0 then
    let n := if p.tol = 1 then 2 else 1
    let st := (List.range n).map fun i => s.lineByte { pl with off := pl.off + i }
    BitVec.ofNat 8 (widenTol p.tol st / 256 ^ (po % 4))
  else if p.comp then
    if raw then
      if pl.off % 256 < 32 * modeSectors (tabGet s.modes (pl.addr / 256)) then s.lineByte pl else 0
    else (s.plainBlock pl).getD (pl.off % 256) 0
  else s.lineByte pl

/-- Whether the byte at page offset `po` is poisoned: it lies in a poisoned line, or in a compressed block that is lost. -/
def State.pagePois (s : State) (col : Nat) (p : Page) (raw : Bool) (po : Nat) : Bool :=
  let pl := s.pagePlace col p raw po
  tabGet s.pois pl.line || (p.comp && !raw && s.blockLost pl)

/-- The lines of a page's entries. -/
def State.tableLines (s : State) (col : Nat) (p : Page) : List Nat :=
  [(s.hbmPlace col p.root).line, (s.hbmPlace col p.ent).line].eraseDups

/-- Reads `size` bytes of a page from page offset `po`, and whether any is poisoned (R110). The lines of its entries and its own are read first (R35). -/
def State.pageRead (s : State) (col : Nat) (p : Page) (raw : Bool) (po size : Nat) : State × List Byte × Bool :=
  let touch (s : State) (i : Nat) : State :=
    let pl := s.pagePlace col p raw (po + i)
    if p.comp then
      let s := s.touchMode pl col
      if raw then s.touchLine pl col else s.touchBlock pl col
    else s.touchLine pl col
  let s := (List.range size).foldl touch (s.touchTables col (s.tableLines col p))
  let bs := (List.range size).map fun i => s.pageByte col p raw (po + i)
  let poi := (List.range size).any fun i => s.pagePois col p raw (po + i)
  -- a poisoned line reads as 0 (R456)
  let bs := (List.range size).map fun i =>
    if s.pagePois col p raw (po + i) then 0 else bs.getD i 0
  (s, bs, poi)

/-- Writes one stored byte and its mirror (R115). -/
def State.storeByte (s : State) (col : Nat) (tier : Bool) (off : Nat) (b : Byte) : State :=
  let s := s.putByte (s.place col tier off) b
  match s.mirror col tier off with
  | some m => s.putByte m b
  | none => s

/-- Writes bytes to a page from page offset `po`, without poison: into the block the vault holds of a compressed page, narrowed
on a tolerant page (whose words the caller has checked to be whole), as they are otherwise. -/
def State.pageWrite (s : State) (col : Nat) (p : Page) (raw : Bool) (po : Nat) (bs : List Byte) : State :=
  if !raw && p.tol ≠ 0 then
    let word (s : State) (i : Nat) : State :=
      let st := narrowTol p.tol (natOf ((bs.drop (4 * i)).take 4))
      (List.range st.length).foldl (fun s j => s.storeByte col p.tier (p.stored false (po + 4 * i) + j) (st.getD j 0)) s
    (List.range (bs.length / 4)).foldl word s
  else if p.comp && !raw then
    let pl := s.pagePlace col p raw po
    let blk := pl.addr / 256
    let o := pl.off % 256
    let s := s.touchMode pl col
    let lost := s.blockLost pl
    let old := if lost then List.replicate 256 0 else s.plainBlock pl
    let new := old.take o ++ bs ++ old.drop (o + bs.length)
    let lines := (List.range bs.length).map fun i => (pl.addr + i) / 64
    { s with
      vault := tabSet s.vault blk (some new)
      pois := if lost then (List.range 4).foldl (fun t i => tabSet t (4 * blk + i) true) s.pois else s.pois
      dirty := lines.foldl (fun d l => tabSet d l true) s.dirty }
  else
    let s := if p.comp then s.writeBackBlock (s.pagePlace col p raw po) else s
    (List.range bs.length).foldl (fun s i => s.storeByte col p.tier (p.base + po + i) (bs.getD i 0)) s

/-- Sets the poison of the lines that one store reached (R36, R110): `cells` lists the lines' keys and the number of the
byte in the line, with the data's poison. A poisoned byte poisons its line; an unpoisoned store of all 64 bytes clears it. -/
def poisonLines (pois : Tab Bool) (cells : List (Nat × Nat × Bool)) : Tab Bool :=
  let lines := (cells.map (·.1)).eraseDups
  lines.foldl (fun t ln =>
    let cs := cells.filter (fun c => c.1 == ln)
    if cs.any (fun c => c.2.2) then tabSet t ln true
    else if (List.range 64).all (fun i => cs.any (fun c => c.2.1 == i)) then tabSet t ln false
    else t) pois

/-- The (line, byte, poison) cells of a store of `size` bytes at page offset `po`. -/
def State.storeCells (s : State) (col : Nat) (p : Page) (raw : Bool) (po size : Nat) (poi : Bool) :
    List (Nat × Nat × Bool) :=
  let n := if raw || p.tol = 0 then size else if p.tol = 1 then size / 2 else size / 4
  let pl := s.pagePlace col p raw po
  (List.range n).map fun i => ((pl.addr + i) / 64, (pl.addr + i) % 64, poi)

/-! ## Virtual ranges -/

/-- A resolved access of some bytes: column, page, aperture, page offset. -/
structure Span where
  col : Nat
  page : Page
  raw : Bool
  po : Nat
  deriving DecidableEq, Repr, Inhabited

/-- Reads a span. -/
def State.readSpan (s : State) (sp : Span) (size : Nat) : State × List Byte × Bool :=
  s.pageRead sp.col sp.page sp.raw sp.po size

/-- The vault allocates on write (R30): a line that the store does not write whole is read first, and the lines of the page entries are. -/
def State.fillSpans (s : State) (cells : List (Nat × Nat × Bool)) (ws : List (Span × List Byte × Bool)) : State :=
  if s.upsets.isEmpty then s
  else
    let s := ws.foldl (fun s w => s.touchTables w.1.col (s.tableLines w.1.col w.1.page)) s
    let whole (ln : Nat) : Bool := (List.range 64).all fun i => cells.any fun c => c.1 == ln && c.2.1 == i
    let byte (w : Span) (s : State) (i : Nat) : State :=
      let pl := s.pagePlace w.col w.page w.raw (w.po + i)
      if w.page.comp && !w.raw then s.touchBlock pl w.col
      else if whole pl.line then s
      else s.fillBoth pl w.col
    ws.foldl (fun s w => (List.range w.2.1.length).foldl (byte w.1) s) s

/-- The cells of a store's mirrors (R115): those of a compressed page are written as its block is written back. -/
def State.mirrorCells (s : State) (w : Span × List Byte × Bool) : List (Nat × Nat × Bool) :=
  if w.1.page.comp && !w.1.raw then []
  else
    (s.storeCells w.1.col w.1.page w.1.raw w.1.po w.2.1.length w.2.2).filterMap fun c =>
      let p := placeOf (64 * c.1 + c.2.1)
      (s.mirror p.col p.tier p.off).map fun m => (m.line, m.addr % 64, c.2.2)

/-- Writes the accesses of one store in order, then sets the poison of the lines it reached. -/
def State.writeSpans (s : State) (ws : List (Span × List Byte × Bool)) : State :=
  let cells := ws.flatMap fun w => s.storeCells w.1.col w.1.page w.1.raw w.1.po w.2.1.length w.2.2
  let s := s.fillSpans cells ws
  let s' := ws.foldl (fun s w => s.pageWrite w.1.col w.1.page w.1.raw w.1.po w.2.1) s
  { s' with pois := poisonLines s'.pois (cells ++ ws.flatMap s.mirrorCells) }

/-- A store of any length, cut where it would leave a 256-byte block: `n` pieces at most. -/
def Span.pieces (sp : Span) (poi : Bool) : Nat → List Byte → List (Span × List Byte × Bool)
  | 0, _ => []
  | n + 1, bs =>
    let k := 256 - sp.po % 256
    if bs.length ≤ k then [(sp, bs, poi)]
    else (sp, bs.take k, poi) :: ({ sp with po := sp.po + k } : Span).pieces poi n (bs.drop k)

/-- Fields of a column address (R181). -/
def addrOff (a : Nat) : Nat := a % 2 ^ 34
def addrAp (a : Nat) : Nat := a / 2 ^ 34 % 4
def addrCol (a : Nat) : Nat := a / 2 ^ 36 % 2 ^ 16
def addrPkg (a : Nat) : Nat := a / 2 ^ 52
def isSelfAlias (a : Nat) : Bool := a / 2 ^ 36 == 2 ^ 28 - 1

/-- The self-alias address of an offset. -/
def selfAddr (off : Nat) : DWord := BitVec.ofNat 64 (0xFFFFFFF000000000 + off % 2 ^ 34)

/-- A column address of this module. -/
def mkAddr (col off : Nat) : DWord := BitVec.ofNat 64 (Config.package.toNat * 2 ^ 52 + col * 2 ^ 36 + off % 2 ^ 34)

/-- What a range read or write of an engine or of the scheduler meets: a fault, with its column and its offset and aperture, or a failure: trap
reason class of R187 (1 protection, 2 sealed), or an unreachable package. -/
inductive Acq (α : Type) where
  | ok (v : α)
  | fault (col off : Nat)
  | fail (why : Nat)
  deriving DecidableEq, Repr, Inhabited

/-- Failure classes of R465's causes 4 and 5: protection, sealed, poisoned target, unreachable. -/
def whyProt : Nat := 1
def whySealed : Nat := 2
def whyPois : Nat := 3
def whyUnreach : Nat := 4

/-- Resolves an access of a column's memory by an engine or the scheduler. -/
def State.resolve (s : State) (ctx col off size : Nat) (raw : Bool) (acc : Acc) : Acq Span :=
  match s.check ctx col off size raw acc with
  | .miss => .fault col (off + if raw then 2 ^ 34 else 0)
  | .prot _ => .fail whyProt
  | .isSealed => .fail whySealed
  | .page p => .ok ⟨col, p, raw, off % p.size⟩

/-- The column of an address: `self` for the self alias (none where no column uses it); none for another package or out
of range. -/
def targetCol (self : Option Nat) (a : Nat) : Option Nat :=
  if isSelfAlias a then self
  else if addrPkg a = Config.package.toNat ∧ addrCol a < nCols then some (addrCol a)
  else none

/-- Why an address without a target column fails: an unreachable package, or a protection failure for an alias that no
column uses or a column out of range. -/
def whyNoCol (a : Nat) : Nat := if isSelfAlias a ∨ addrPkg a = Config.package.toNat then whyProt else whyUnreach

/-! ## The scratchpad (R164 to R167) -/

/-- Bytes of the window for a WIN code. -/
def winBytes (win : Nat) : Nat :=
  match win with
  | 1 => 2 ^ 17 | 2 => 2 ^ 18 | 3 => 2 ^ 19 | _ => 0

/-- Bytes of a slice. -/
def sliceBytes (win : Nat) : Nat := (2 ^ 20 - winBytes win) / 8

/-- The region of a column (its slice, or the window): core address of its first byte, and its size. -/
def State.region (s : State) (col : Nat) (window : Bool) : Nat × Nat :=
  let win := (tabGet s.cores (coreOf col)).win
  if window then (0, winBytes win) else (winBytes win + col % 8 * sliceBytes win, sliceBytes win)

/-- The key of a core scratchpad word. -/
def spadKey (core byteAddr : Nat) : Nat := core * 2 ^ 18 + byteAddr / 4

def State.spadGet (s : State) (core byteAddr : Nat) : Word × Bool :=
  (tabGet s.spad (spadKey core byteAddr), tabGet s.spadP (spadKey core byteAddr))

def State.spadSet (s : State) (core byteAddr : Nat) (w : Word) (poi : Bool) : State :=
  { s with
    spad := tabSet s.spad (spadKey core byteAddr) w
    spadP := tabSet s.spadP (spadKey core byteAddr) poi }

/-- Sets the words of a core from a core scratchpad byte address on. -/
def State.spadSetAll (s : State) (core byteAddr : Nat) : List (Word × Bool) → State
  | [] => s
  | (w, p) :: ws => (s.spadSet core byteAddr w p).spadSetAll core (byteAddr + 4) ws

/-- The words of a core from a byte address on. -/
def State.spadGetAll (s : State) (core byteAddr n : Nat) : List (Word × Bool) :=
  (List.range n).map fun i => s.spadGet core (byteAddr + 4 * i)

/-- Drops the table entries whose key lies in a range. -/
def tabClear {α : Type} (t : Tab α) (lo n : Nat) : Tab α := t.filter fun e => e.1 < lo || lo + n ≤ e.1

/-- Zero without poison in a range of a core's scratchpad (R164). -/
def State.spadZero (s : State) (core byteAddr bytes : Nat) : State :=
  { s with
    spad := tabClear s.spad (spadKey core byteAddr) (bytes / 4)
    spadP := tabClear s.spadP (spadKey core byteAddr) (bytes / 4) }

end Sys2Proof.Machine
end

