-- ==== Sys2Proof/Machine/Net.lean ====
section
/-!
DEFINITION. Packets, their headers (R51, R359, R403), ports (R17, R18, R50), routes (R46 to R49), and sending (R48, R50).
-/

namespace Sys2Proof.Machine

/-! ## Kinds and headers (R51, R359, R403) -/

def kLdr : Nat := 0x01
def kReadReply : Nat := 0x02
def kStr : Nat := 0x03
def kWriteAck : Nat := 0x04
def kLdro : Nat := 0x05
def kTeller : Nat := 0x06
def kTellerAck : Nat := 0x07
def kInval : Nat := 0x08
def kInvalAck : Nat := 0x09
def kAtomic : Nat := 0x0A
def kAtomicReply : Nat := 0x0B
def kRed : Nat := 0x0C
def kSemsg : Nat := 0x0D
def kMessage : Nat := 0x0E
def kAccepted : Nat := 0x0F
def kBounced : Nat := 0x10

/-- Whether a packet is addressed to this module. -/
def pktHere (p : Packet) : Bool := addrPkg p.dest.toNat == Config.package.toNat

/-- Whether a packet comes from this module. -/
def pktOurs (p : Packet) : Bool := addrPkg p.src.toNat == Config.package.toNat

/-- The source column of a packet. -/
def pktSrc (p : Packet) : Nat := addrCol p.src.toNat

def pktDest (p : Packet) : Nat := addrCol p.dest.toNat

/-- The cluster of a packet's destination in this module. -/
def pktCluster (p : Packet) : Nat := clusterOf (addrCol p.dest.toNat)

/-- The virtual channel of a packet kind. -/
def kindVc (kind : Nat) : Nat :=
  if [kReadReply, kWriteAck, kTellerAck, kAtomicReply, kAccepted, kBounced].contains kind then 1
  else if kind = kInval ∨ kind = kInvalAck then 4
  else if kind = kMessage then 3
  else 0

/-- Distinct bytes that some accesses of a block name, by their numbers in the block. -/
def blockBytes (accs : List LaneAcc) : List Nat :=
  (accs.flatMap fun a => (List.range a.size).map fun i => (a.addr.toNat + i) % 256).eraseDups

/-- Payload flits of some bytes of a block. -/
def flitsOf (accs : List LaneAcc) : Nat := ((blockBytes accs).length + 63) / 64

/-- Payload flits of one value after another. -/
def valueFlits (per : Nat) (accs : List LaneAcc) : Nat := (per * accs.length + 63) / 64

/-- LANES: the lanes carried, or what `mask` names. -/
def pktLanes (p : Packet) : Nat :=
  if p.accs.isEmpty || p.kind.toNat == kTeller then p.mask.toNat
  else ((p.accs.map (·.lane)).eraseDups.map fun l => 2 ^ l).foldl (· + ·) 0

/-- BYTES: bit i for byte i of the block. -/
def pktBytes (p : Packet) : Nat := ((blockBytes p.accs).map fun i => 2 ^ i).foldl (· + ·) 0

/-- ARGS (R359, R403). -/
def pktArgs (p : Packet) : Nat :=
  pktBytes p + at_ (pktLanes p) 256 + at_ p.stat.toNat 292 + at_ p.scope.toNat 295 + at_ p.ord.toNat 298 + at_ p.op.toNat 300
    + at_ (if p.cas then 1 else 0) 304

/-- TAG: 16 bits. -/
def pktTag (p : Packet) : BitVec 16 := BitVec.ofNat 16 p.req

/-- The header flit of a packet (R51). -/
def pktHeader (p : Packet) : BitVec 512 :=
  BitVec.ofNat 512 (at_ p.dest.toNat 448 + at_ p.src.toNat 384 + at_ p.kind.toNat 376 + at_ p.vc 373 + at_ p.npay 370 + at_ p.slot 367
    + at_ (pktTag p).toNat 351 + at_ p.hops 347 + pktArgs p)

/-- A header that the first router discards (R52). -/
def badHeader (p : Packet) : Bool :=
  decide (5 ≤ p.vc) || decide (5 ≤ p.npay) || (p.kind.toNat == kMessage && decide (3 ≤ p.npay))

/-- The reply that completes a request (R359, R403). -/
def replyKind (kind : Nat) : Nat :=
  if kind = kLdr ∨ kind = kLdro then kReadReply
  else if kind = kTeller then kTellerAck
  else if kind = kInval then kInvalAck
  else if kind = kAtomic then kAtomicReply
  else if kind = kMessage then kAccepted
  else kWriteAck

/-- The payload flits of a reply kind: the requested bytes, or whole lines; the old values; the message. -/
def replyPay (kind : Nat) (accs : List LaneAcc) (words : List Word) : Nat :=
  if kind = kReadReply then (if words.isEmpty then flitsOf accs else words.length / 16)
  else if kind = kAtomicReply then (accs.foldl (fun n a => n + a.size) 0 + 63) / 64
  else if kind = kBounced then 2
  else 0

/-- A reply or acknowledgement to a request, with its STAT, accesses and words. -/
def replyWith (p : Packet) (kind stat : Nat) (accs : List LaneAcc) (words : List Word) : Packet :=
  { p with
    kind := BitVec.ofNat 8 kind, dest := p.src, src := p.dest, vc := kindVc kind
    npay := replyPay kind accs words, stat := BitVec.ofNat 3 stat, accs := accs, words := words, parked := false, left := false
    hops := 0, via := none }

def replyTo (p : Packet) (stat : Nat) (accs : List LaneAcc) : Packet := replyWith p (replyKind p.kind.toNat) stat accs []

/-! ## Ports and links (R9, R17, R18, R46) -/

/-- Whether a Slogen port is up (R18). -/
def State.portUp (s : State) (port : Nat) : Bool := port < 36 && !s.boot.uncabled.contains port && !tabGet s.pw.portDead port

/-- The ports of a package's route table entry that are up (R50). -/
def State.routePorts (s : State) (pkg : Nat) : List Nat :=
  (List.range 36).filter fun n => (tabGet s.tabs.route pkg).getLsbD n && s.portUp n

/-- The die that a port leaves (R17). -/
def portDie (port : Nat) : Nat := port / 3

/-- The long link's end die in quadrant q for the pair (q, q') (R46). -/
def longDie (q q' : Nat) : Nat := 3 * q + ((q' + 4 - q) % 4 - 1)

/-- The two dies of an Afzil link, the lower first; none for a link that the package does not have (R9, R46). -/
def linkEnds (l : AfzilLink) : Option (Nat × Nat) :=
  match l with
  | .intra i j => if i ≠ j ∧ i < 12 ∧ j < 12 ∧ i / 3 = j / 3 then some (min i j, max i j) else none
  | .long q r =>
    if q ≠ r ∧ q < 4 ∧ r < 4 then some (min (longDie q r) (longDie r q), max (longDie q r) (longDie r q)) else none

/-- Whether the link between two dies is down. -/
def State.linkIsDown (s : State) (a b : Nat) : Bool := s.pw.linksDown.contains (min a b, max a b)

/-! ## Routes (R47 to R49) -/

/-- The way from die a to die b of one quadrant: the direct link, or the third die while that link is down (R49). -/
def State.within (s : State) (a b : Nat) : List (Nat × Nat) :=
  if a = b then []
  else if s.linkIsDown a b then
    let t := 3 * (a / 3) + (3 - a % 3 - b % 3)
    [(a, t), (t, b)]
  else [(a, b)]

/-- The links of a route between two dies, each in its direction: minimal, or through an intermediate quadrant (R47). -/
def State.hopsOf (s : State) (a b : Nat) (via : Option Nat) : List (Nat × Nat) :=
  let q := a / 3
  let r := b / 3
  let cross (x y : Nat) : List (Nat × Nat) := [(longDie x y, longDie y x)]
  if q = r then s.within a b
  else match via with
    | none => s.within a (longDie q r) ++ cross q r ++ s.within (longDie r q) b
    | some m => s.within a (longDie q m) ++ cross q m ++ s.within (longDie m q) (longDie m r) ++ cross m r ++ s.within (longDie r m) b

/-- The candidate routes between two dies, the minimal one first, then by ascending quadrant (R48); none over a link that is down (R49). -/
def State.candidateRoutes (s : State) (a b : Nat) : List (Option Nat) :=
  let all : List (Option Nat) :=
    if a / 3 = b / 3 then [none] else none :: (((List.range 4).filter fun m => m ≠ a / 3 && m ≠ b / 3).map some)
  all.filter fun v => (s.hopsOf a b v).all fun h => !s.linkIsDown h.1 h.2

/-- The die at which a packet starts in this module: its source's, or that of the port by which it has entered. -/
def startDie (p : Packet) : Nat := if pktOurs p then dieOfCluster (clusterOf (pktSrc p)) else portDie p.port

/-- The die at which it ends here: its destination's, or that of the port by which it leaves. -/
def endDie (p : Packet) : Nat := if pktHere p then dieOfCluster (pktCluster p) else portDie p.port

/-- The Afzil links of a packet's route. -/
def State.pktHops (s : State) (p : Packet) : List (Nat × Nat) := s.hopsOf (startDie p) (endDie p) p.via

/-- Flits of a packet that is still on its way in this module. -/
def waitFlits (p : Packet) : Nat := if p.parked || p.left then 0 else 1 + p.npay

/-- Flits of a virtual channel that wait for a link in one direction (DESIGN CHOICE, log entry 30: every packet that is to cross it). -/
def State.linkWait (s : State) (vc : Nat) (h : Nat × Nat) : Nat :=
  s.net.foldl (fun n q => if q.vc = vc ∧ (s.pktHops q).contains h then n + waitFlits q else n) 0

/-- Flits of a virtual channel that wait to leave through a port. -/
def State.portWait (s : State) (vc port : Nat) : Nat :=
  s.net.foldl (fun n q => if q.vc = vc ∧ q.port = port ∧ pktHere q = false then n + waitFlits q else n) 0

/-- The first element with the lowest count. -/
def fewest {α : Type} (f : α → Nat) : List α → Option α
  | [] => none
  | x :: xs => match fewest f xs with
    | none => some x
    | some y => if f x ≤ f y then some x else some y

/-- The first long link of a route to another quadrant. -/
def firstLong (a b : Nat) (via : Option Nat) : Nat × Nat :=
  let r := via.getD (b / 3)
  (longDie (a / 3) r, longDie r (a / 3))

/-- The route that the source switch takes between two dies (R48); none where no candidate is left. -/
def State.chooseRoute (s : State) (vc a b : Nat) : Option (Option Nat) :=
  if a / 3 = b / 3 then (s.candidateRoutes a b).head?
  else fewest (fun v => s.linkWait vc (firstLong a b v)) (s.candidateRoutes a b)

/-- The port that a packet of a virtual channel takes to a package (R50). -/
def State.choosePort (s : State) (vc pkg : Nat) : Option Nat := fewest (s.portWait vc) (s.routePorts pkg)

/-- Whether two packets belong to one flow: source core, destination column (R48). -/
def sameFlow (p q : Packet) : Bool :=
  coreOf (pktSrc p) == coreOf (pktSrc q) && addrPkg p.src.toNat == addrPkg q.src.toNat && p.dest.toNat / 2 ^ 36 == q.dest.toNat / 2 ^ 36

/-- Whether a packet's route holds: its links and its port are up. -/
def State.routeHolds (s : State) (p : Packet) : Bool :=
  (s.pktHops p).all (fun h => !s.linkIsDown h.1 h.2) && (pktHere p || (s.routePorts (addrPkg p.dest.toNat)).contains p.port)

/-- A packet with its route from a die: that of a packet of its flow that is on its way, or one chosen afresh; none where there is none. -/
def State.routed (s : State) (start : Nat) (p : Packet) : Option Packet :=
  match s.net.find? fun q => q != p && sameFlow p q && !q.left && !q.parked && s.routeHolds q with
  | some q => some { p with via := q.via, port := if pktHere p then p.port else q.port }
  | none =>
    match if pktHere p then some p else (s.choosePort p.vc (addrPkg p.dest.toNat)).map fun n => { p with port := n } with
    | none => none
    | some p => (s.chooseRoute p.vc start (endDie p)).map fun v => { p with via := v }

/-! ## Sending (R48, R50) -/

/-- Why a packet for another package cannot leave (R50): no port of its entry up, or HOPS = 15. -/
def State.cannotLeave (s : State) (p : Packet) : Option Nat :=
  if pktHere p then none
  else if s.routePorts (addrPkg p.dest.toNat) = [] then some 1
  else if 15 ≤ p.hops then some 2
  else none

/-- A packet as it goes its way: counted by the port through which it leaves (R51). One between two other modules passes through (DESIGN CHOICE,
log entry 30: in the step in which it arrives). -/
def State.departs (s : State) (p : Packet) : Option Packet :=
  let q := if pktHere p then p else { p with hops := p.hops + 1 }
  (s.routed (startDie p) q).map fun q => { q with left := !pktHere p && !pktOurs p }

/-- Puts a packet on its way; with no route left it is lost. -/
def State.launchPkt (s : State) (p : Packet) : State :=
  match s.cannotLeave p, s.departs p with
  | none, some q => { s with net := s.net ++ [q] }
  | _, _ => s

/-- The accesses of a refused or unreachable request: every result lane is poisoned, its value free (R50, R192). -/
def State.freeAccs (s : State) (accs : List LaneAcc) : State × List LaneAcc :=
  let f (acc : Nat × List LaneAcc) (a : LaneAcc) : Nat × List LaneAcc :=
    (acc.1 + 1, acc.2 ++ [{ a with data := Config.freeValue acc.1, pois := true }])
  let r := accs.foldl f (s.freeIx, [])
  ({ s with freeIx := r.1 }, r.2)

/-- What a dropped packet was to write to another module is not known any more to lie there. -/
def State.forget (s : State) (p : Packet) : State :=
  if pktHere p then s
  else
    let g := nCols * addrPkg p.dest.toNat + addrCol p.dest.toNat
    p.accs.foldl (fun s a => { s with ext := (List.range a.size).foldl (fun t i =>
      tabSet t (g * 2 ^ 34 + (a.addr.toNat + i) % 2 ^ 34) none) s.ext }) s

/-- A packet that cannot be delivered is completed where this is found (R50): a load or atomic gets an all-poisoned reply, a store, copy or
message is dropped, and the request completes; an unreachable event names the source column. -/
def State.unreachable (s : State) (p : Packet) (cause : Nat) : State :=
  let s := (s.forget p).postEvent 5 (pktSrc p) (cause + at_ p.dest.toNat 64)
  if p.vc = 1 ∨ p.kind.toNat = kInvalAck then s
  else
    let (s, accs) := s.freeAccs p.accs
    s.launchPkt (replyTo p 2 accs)

/-- Sends a packet: it joins the packets on their way, or completes as unreachable; where no link of its route is left, for cause 3. -/
def State.send (s : State) (p : Packet) : State :=
  match s.cannotLeave p with
  | some c => s.unreachable p c
  | none =>
    match s.departs p with
    | some q => { s with net := s.net ++ [q] }
    | none => s.unreachable p 3

/-- A packet of a flow arrives only after every earlier one of the flow (R48); one that its owner holds for a fault has arrived, and holds
only those to its page. -/
def firstOfFlow (net : List Packet) (p : Packet) : Bool :=
  net.find? (fun q => sameFlow q p && (!q.parked || (p.vc == 0 && q.dest.toNat / 65536 == p.dest.toNat / 65536))) == some p

/-- Takes a packet off its way. -/
def State.take (s : State) (p : Packet) : State := { s with net := s.net.erase p }

/-- Puts a packet in another's place. -/
def State.swap (s : State) (p q : Packet) : State := { s with net := s.net.map fun r => if r == p then q else r }

/-! ## A lost port or link (R18, R49, R50) -/

/-- How far some packets had come, in order, when the port or link they were to cross went down: 0 past it, 1 on it, 2 queued before it; flits
of one channel keep their order. Which had come how far is a free value (DESIGN CHOICE, log entry 30). -/
def State.howFar (s : State) (ps : List Packet) : State × List (Packet × Nat) :=
  let f (acc : Nat × List (Packet × Nat)) (p : Packet) : Nat × List (Packet × Nat) :=
    let least := (acc.2.filter (·.1.vc == p.vc)).foldl (fun n e => max n e.2) 0
    (acc.1 + 1, acc.2 ++ [(p, max least ((Config.freeValue acc.1).toNat % 3))])
  let r := ps.foldl f (s.freeIx, [])
  ({ s with freeIx := r.1 }, r.2)

/-- A packet on a lost port or link completes as unreachable; whether it has performed is a free value: one that has stays on its way, and its
reply is discarded (R18). A packet that has left the module stays only while an answer to it may come. -/
def State.cutOff (s : State) (p : Packet) : State :=
  let performed := (Config.freeValue s.freeIx).getLsbD 0
  let s := { s with freeIx := s.freeIx + 1 }
  let s := if performed && pktHere p then s.swap p { p with left := true } else s.take p
  s.unreachable p 3

/-- A queued packet takes another route, in its place; none is left: it completes as unreachable. -/
def State.reroute (s : State) (cause : Nat) (p : Packet) : State :=
  if s.routeHolds p then s
  else match s.routed (startDie p) p with
    | some q => s.swap p q
    | none => (s.take p).unreachable p cause

/-- The packets that a lost port or link held, each as far as it had come; the queued ones are rerouted in their order (R18, R49). -/
def State.lostWay (s : State) (cause : Nat) (ps : List Packet) (past : State → Packet → State) : State :=
  let (s, ps) := s.howFar ps
  let s := ps.foldl (fun s e => if e.2 = 0 then past s e.1 else if e.2 = 1 then s.cutOff e.1 else s) s
  ps.foldl (fun s e => if e.2 = 2 then s.reroute cause e.1 else s) s

/-- A packet that has left the module: it stays known only while this module waits for its answer. -/
def State.gone (s : State) (p : Packet) : State :=
  if pktOurs p && p.vc != 1 then s.swap p { p with left := true } else s.take p

/-- A port that goes down is cleared from every route table entry (R50). -/
def clearPort (route : Tab DWord) (port : Nat) : Tab DWord :=
  route.filterMap fun e =>
    let v := setBit e.2 port false
    if v = 0 then none else some (e.1, v)

/-- Packets for other packages that have not left, whose entry the host has changed under them, take the ports that it names now. -/
def State.rerouteAll (s : State) : State :=
  (s.net.filter fun p => !pktHere p && !p.left && !s.routeHolds p).foldl (State.reroute · 1 ·) s

/-! ## Memory of other modules (R50, R370, R464) -/

/-- A byte that a column of the system holds in another module's memory: what this module is known to have written there, else a value that
the module does not know (DESIGN CHOICE, log entry 67). -/
def State.extByte (s : State) (g off : Nat) : Byte :=
  (tabGet s.ext (g * 2 ^ 34 + off % 2 ^ 34)).getD (Config.foreignByte s.tick (g * 2 ^ 34 + off % 2 ^ 34))

def State.extPois (s : State) (g off : Nat) : Bool :=
  (tabGet s.ext (g * 2 ^ 34 + off % 2 ^ 34)).isNone && Config.foreignPois s.tick ((g * 2 ^ 34 + off % 2 ^ 34) / 64)

def State.extRead (s : State) (g off n : Nat) : List Byte × Bool :=
  ((List.range n).map fun i => if s.extPois g (off + i) then 0 else s.extByte g (off + i),
    (List.range n).any fun i => s.extPois g (off + i))

/-- What this module writes to another module's memory is known to lie there; of poisoned data it knows nothing. -/
def State.extWrite (s : State) (g off : Nat) (bs : List Byte) (poi : Bool) : State :=
  { s with ext := (List.range bs.length).foldl (fun t i =>
      tabSet t (g * 2 ^ 34 + (off + i) % 2 ^ 34) (if poi then none else some (bs.getD i 0))) s.ext }

/-- The column of the system that an address of another module names. -/
def awayCol (a : Nat) : Nat := nCols * addrPkg a + addrCol a

/-- Whether an address names another module that a port leads to (R50). -/
def State.away (s : State) (a : Nat) : Bool :=
  !isSelfAlias a && addrPkg a != Config.package.toNat && s.routePorts (addrPkg a) != []

def State.awayRead (s : State) (a n : Nat) : List Byte × Bool := s.extRead (awayCol a) (addrOff a) n

/-- A request of the scheduler or of the management port to another module's memory, from local column 0, with its tag (DESIGN CHOICE, log
entry 67). -/
def State.sendAway (s : State) (kind : Nat) (ty : Ty) (op a : Nat) (accs : List LaneAcc) : State × Nat :=
  let tag := s.nextTag
  let p : Packet := { kind := BitVec.ofNat 8 kind, dest := BitVec.ofNat 64 (a / 256 * 256), src := mkAddr 0 tag, vc := 0, npay := flitsOf accs
                      slot := 0, req := tag, hops := 0, ord := 0, scope := 0, stat := 0, ty := ty, op := BitVec.ofNat 4 op, cas := false
                      accs := accs, words := [], mask := 0, parked := false, left := false, via := none, port := 0 }
  (({ s with nextTag := tag + 1 }).send p, tag)

/-- The accesses that store some bytes at an 8-byte aligned address, 8 bytes each. -/
def storeAccs (a : Nat) (bs : List Byte) : List LaneAcc :=
  (List.range (bs.length / 8)).map fun i =>
    ⟨i, BitVec.ofNat 64 (a + 8 * i), 8, BitVec.ofNat 64 (natOf ((bs.drop (8 * i)).take 8)), 0, false⟩

/-! ## Ranges that the scheduler and the engines read and write -/

/-- The table lines of a refused or failing access are read (R35). -/
def State.touchWalk (s : State) (ctx col off : Nat) : State :=
  if s.upsets.isEmpty then s else s.touchTables col (s.walk ctx col off).2

/-- Reads aligned 64-byte lines or shorter aligned ranges at a full address for the scheduler or an engine: the bytes and poison. -/
def State.readRange (s : State) (ctx : Nat) (self : Option Nat) (a size : Nat) :
    State × Acq (List Byte × Bool) :=
  match targetCol self a with
  | none => if s.away a then (s, .ok (s.awayRead a size)) else (s, .fail (whyNoCol a))
  | some col =>
    if addrAp a ≥ 2 then (s, .fail whyProt)
    else
      match s.resolve ctx col (addrOff a) size (addrAp a == 1) .read with
      | .fault c o => (s, .fault c o)
      | .fail w => (s.touchWalk ctx col (addrOff a), .fail w)
      | .ok sp =>
        let (s, bs, poi) := s.readSpan sp size
        (s, .ok (bs, poi))

/-- Reads a range that may cross into the next page. -/
def State.readAcross (s : State) (ctx : Nat) (self : Option Nat) (a size : Nat) : State × Acq (List Byte × Bool) :=
  let n := 65536 - a % 65536
  if size ≤ n then s.readRange ctx self a size
  else
    match s.readRange ctx self a n with
    | (s, .ok (bs, p)) => match s.readRange ctx self (a + n) (size - n) with
      | (s, .ok (cs, q)) => (s, .ok (bs ++ cs, p || q))
      | r => r
    | r => r

/-- Writes an aligned range at a full address of this module for the scheduler or an engine. -/
def State.writeRange (s : State) (ctx : Nat) (self : Option Nat) (a : Nat) (bs : List Byte) (poi : Bool) :
    State × Acq Unit :=
  match targetCol self a with
  | none => (s, .fail (whyNoCol a))
  | some col =>
    if addrAp a ≥ 2 then (s, .fail whyProt)
    else
      match s.resolve ctx col (addrOff a) bs.length (addrAp a == 1) .write with
      | .fault c o => (s, .fault c o)
      | .fail w => (s.touchWalk ctx col (addrOff a), .fail w)
      | .ok sp =>
        if sp.page.tol ≠ 0 ∧ sp.raw = false ∧ (bs.length % 4 ≠ 0 ∨ sp.po % 4 ≠ 0) then (s, .fail whyProt)
        else (s.writeSpans [(sp, bs, poi)], .ok ())

end Sys2Proof.Machine
end

