-- ==== Sys2Proof/Machine/Launch.lean ====
section
/-!
DEFINITION. Kernel headers and pipeline descriptors (R72, R79 to R81), the fault buffers (R189 to R191), semaphores, triggers
(R97 to R99), and the end of a launch (R71, R464).
-/

namespace Sys2Proof.Machine

/-! ## Kernel headers (R72) -/

/-- The fields of a kernel header. -/
def khdrOf (r : Rec64) : KHdr where
  nv := fieldNat r 23 16
  ns := fieldNat r 31 24
  nt := fieldNat r 36 32
  na := fieldNat r 43 40
  win := fieldNat r 49 48
  level := fieldNat r 52 50
  preload := fieldNat r 63 56
  colsN := fieldNat r 67 64
  coresN := fieldNat r 71 68
  clusN := fieldNat r 77 72
  modsN := fieldNat r 95 80
  det := fieldNat r 96 96 == 1
  recomp := fieldNat r 97 97 == 1
  comm := fieldNat r 98 98 == 1
  rstpol := fieldNat r 100 99
  rstoff := fieldNat r 159 128
  traptab := fieldBits r 192 64

/-- Whether the shape is in range for the level (R72). -/
def khdrShapeOk (h : KHdr) : Bool :=
  1 ≤ h.colsN && h.colsN ≤ 8 && 1 ≤ h.coresN && h.coresN ≤ 6 && 1 ≤ h.clusN && h.clusN ≤ 32 && 1 ≤ h.modsN
    && h.modsN ≤ 4096
    && (h.level ≠ 1 || h.colsN == 1) && (3 ≤ h.level || h.coresN == 1) && (4 ≤ h.level || h.clusN == 1)
    && (h.level == 6 || h.modsN == 1)
    && (h.level < 5 || (h.colsN == 8 && h.coresN == 6 && h.clusN == 32))

/-- The checks of a kernel header (R72). -/
def khdrOk (r : Rec64) : Bool :=
  let h := khdrOf r
  let t := h.traptab.toNat
  fieldNat r 15 0 == 0x5A4B
    && fieldNat r 39 37 == 0 && fieldNat r 47 44 == 0 && fieldNat r 55 53 == 0 && fieldNat r 79 78 == 0
    && fieldNat r 127 101 == 0 && fieldNat r 191 160 == 0 && fieldNat r 511 256 == 0
    && h.nv % 8 == 0 && h.nv ≤ 128 && h.ns % 8 == 0 && h.ns ≤ 64 && h.nt % 4 == 0 && h.nt ≤ 16
    && h.na % 2 == 0 && h.na ≤ 8
    && h.level ≠ 0 && h.level ≠ 7 && khdrShapeOk h
    && h.rstpol ≠ 3 && (h.rstpol ≠ 1 || h.rstoff % 8 == 0)
    && (h.preload % 2 == 0 || 1 ≤ h.nv)
    && (List.range 8).all (fun n => n == 0 || h.preload / 2 ^ n % 2 == 0 || n < h.ns)
    && (t == 0 || (isSelfAlias t && addrAp t == 0 && t % 64 == 0))

/-! ## Pipeline descriptors (R79 to R81) -/

def stageOf (r : Rec64) : StageDesc where
  qbase := fieldBits r 448 64
  argp := fieldBits r 384 64
  entry := fieldBits r 320 64
  groups := fieldNat r 319 288
  qcap := fieldNat r 287 272
  items := fieldNat r 271 264
  after := fieldNat r 263 256
  outmax := fieldNat r 255 240
  outmask := fieldNat r 239 232

def bitOf (n i : Nat) : Bool := n / 2 ^ i % 2 == 1

/-- Whether stage k of a descriptor of stages passes the checks of R81 that its entry and the other entries decide. -/
def stageOk (rs : List Rec64) (sts : List StageDesc) (k : Nat) : Bool :=
  let r := rs.getD k 0
  let d := sts.getD k {}
  let fed := d.qcap ≠ 0
  let q := d.qbase.toNat
  let e := d.entry.toNat
  fieldNat r 231 0 == 0
    && (decide (d.groups ≠ 0) != decide fed)
    && !(k == 0 && fed)
    && (if fed then d.items ≠ 0 && d.items ≤ d.qcap else d.items == 0 && q == 0)
    && d.after < 2 ^ k
    && d.outmask % 2 ^ (k + 1) == 0 && d.outmask < 2 ^ sts.length
    && (decide (d.outmax = 0) == decide (d.outmask = 0))
    && (List.range 8).all (fun j => !bitOf d.outmask j || ((sts.getD j {}).qcap ≠ 0 && d.outmax ≤ (sts.getD j {}).qcap))
    && (!fed || sts.any (fun p => bitOf p.outmask k))
    && q % 64 == 0 && addrAp q < 2 && e % 8 == 0 && addrAp e < 2
    && !(fed && (isSelfAlias q || addrCol q ≥ nCols))
    && (isSelfAlias e || addrCol e < nCols)

/-! ## Fault buffers (R189 to R191) -/

/-- Entries in use in a cluster's fault buffer. -/
def State.faultsOf (s : State) (cluster : Nat) : List FaultEnt := s.faults.filter (·.cluster == cluster)

/-- The lowest free entry number of a cluster's fault buffer. -/
def State.freeEnt (s : State) (cluster : Nat) : Option Nat :=
  (List.range 256).find? fun i => !(s.faultsOf cluster).any (·.ent == i)

/-- The ORIG field of a fault event. -/
def Waiter.orig : Waiter → Nat
  | .split _ _ => 0
  | .packet _ => 1
  | .engine _ => 2
  | .fired _ _ => 3
  | .ending _ _ => 3

/-- The PORT field of a fault event. -/
def Waiter.port : Waiter → Nat
  | .fired _ p => p
  | .ending _ p => if p < 64 then p else 0
  | _ => 0

/-- DETAIL of a translation-fault event (R191), by its position in DETAIL. -/
def faultDetail (vaddr ent ctx orig acc ref port : Nat) : Nat :=
  at_ vaddr 64 + at_ ent 16 + at_ ctx 12 + at_ orig 9 + at_ acc 7 + at_ ref 6 + port

/-- Posts the event of a fault buffer entry, or leaves it pending for queue space (R76). -/
def State.postFault (s : State) (e : FaultEnt) : State :=
  if s.evq.room then
    let s := s.postEvent 7 e.owner (faultDetail e.vaddr.toNat e.ent e.ctx e.waiter.orig e.acc 0 e.waiter.port)
    { s with faults := s.faults.map fun f => if f.cluster == e.cluster && f.ent == e.ent then { f with pending := false } else f }
  else s

/-- VADDR of a fault (R191): the address with OFF[15:0] cleared. `off` carries the aperture above its offset. -/
def faultAddr (col off : Nat) : DWord :=
  mkAddr col (off / 65536 * 65536) ||| BitVec.ofNat 64 (at_ (addrAp off) 34)

/-- Whether two addresses lie in one 64 KiB page, through whichever aperture. -/
def samePage (a b : DWord) : Bool :=
  a.toNat / 2 ^ 36 == b.toNat / 2 ^ 36 && addrOff a.toNat / 65536 == addrOff b.toNat / 65536

/-- Whether a waiter has an entry for a page. -/
def State.parkedOn (s : State) (w : Waiter) (ctx col off : Nat) : Bool :=
  (s.faultsOf (clusterOf col)).any fun f => f.waiter == w && samePage f.vaddr (faultAddr col off) && f.ctx == ctx

/-- Parks a waiter on the page of an access (R189, R190), whose offset `off` carries its aperture above it. A waiter keeps the entry it has for
a page; a free entry is taken otherwise, and its event posted. With no free entry nothing is recorded. -/
def State.parkFault (s : State) (w : Waiter) (ctx col off : Nat) (acc : Acc) : State :=
  if s.parkedOn w ctx col off then s
  else
    match s.freeEnt (clusterOf col) with
    | none => s
    | some n =>
      let s := s.touchWalk ctx col (addrOff off)
      let e : FaultEnt := ⟨clusterOf col, n, w, ctx, col, faultAddr col off, acc.code, true, (s.walk ctx col (addrOff off)).2⟩
      ({ s with faults := s.faults ++ [e] }).postFault e

/-- Whether a waiter has an entry. -/
def State.waits (s : State) (w : Waiter) : Bool := s.faults.any fun f => f.waiter == w

/-- Posts the event of a refused access: of a remote request (`orig` 1), or of a lane's access to its own column (`orig` 0) (R192). -/
def State.refuseEvent (s : State) (ctx owner addr : Nat) (acc : Acc) (orig : Nat) : State :=
  (s.touchWalk ctx owner (addrOff addr)).postEvent 7 owner (faultDetail (addr / 65536 * 65536) 0 ctx orig acc.code 1 0)

/-- Drops the entries of some waiters. -/
def State.dropFaults (s : State) (f : Waiter → Bool) : State :=
  { s with faults := s.faults.filter fun e => !f e.waiter }

/-! ## Launch queues and triggers -/

def qKey (ctx queue : Nat) : Nat := 64 * ctx + queue

def State.lq (s : State) (ctx queue : Nat) : LQueue := tabGet s.sch.queues (qKey ctx queue)

def State.setLq (s : State) (ctx queue : Nat) (q : LQueue) : State :=
  { s with sch.queues := tabSet s.sch.queues (qKey ctx queue) q }

def State.modLq (s : State) (ctx queue : Nat) (f : LQueue → LQueue) : State := s.setLq ctx queue (f (s.lq ctx queue))

def recTag (r : Rec64) : Nat := fieldNat r 31 0
def recFlags (r : Rec64) : Nat := fieldNat r 39 32
def recTrig (r : Rec64) : Nat := fieldNat r 47 44
def recCtx (r : Rec64) : Nat := fieldNat r 51 48
def recKind (r : Rec64) : Nat := fieldNat r 63 56
def recTrigAddr (r : Rec64) : Nat := fieldNat r 127 64
def recTrigVal (r : Rec64) : Nat := fieldNat r 191 128

/-- The context that is current, if any. -/
def State.current (s : State) : Option Nat := if s.tabs.noCtx then none else some s.tabs.curCtx

/-- The word index of the receipt that a TRIG 1 record names (R97): its core and core scratchpad address. -/
def State.trigReceipt (s : State) (addr : Nat) : Nat × Nat :=
  let col := addrCol addr
  let (base, _) := s.region col (fld addr 33 32 == 1)
  (coreOf col, base + addr % 2 ^ 20)

/-- The page of a semaphore that a TRIG 2 record names: none where its page does not translate or refuses the read, whose condition then does
not hold (DESIGN CHOICE, log entry 50). -/
def State.semSpan (s : State) (ctx addr : Nat) : Option Span :=
  match targetCol none addr with
  | none => none
  | some col =>
    match s.check ctx col (addrOff addr) 8 false .read with
    | .page p => some ⟨col, p, false, addrOff addr % p.size⟩
    | _ => none

/-- The value of a semaphore; a poisoned line reads as 0 (R456). -/
def State.peekSem (s : State) (ctx addr : Nat) : Option Nat := (s.semSpan ctx addr).map fun sp => natOf (s.readSpan sp 8).2.1

/-- Reading a semaphore meets the errors of its line (R35). -/
def State.touchSem (s : State) (ctx addr : Nat) : State :=
  match s.semSpan ctx addr with
  | some sp => (s.readSpan sp 8).1
  | none => s

/-- Whether a trigger condition holds (R97). -/
def State.trigHolds (s : State) (e : TrigEnt) : Bool :=
  match e.trig with
  | 1 =>
    let (core, a) := s.trigReceipt e.addr.toNat
    (s.spadGet core a).1.toNat % 16 == e.val.toNat % 16
  | 2 => match s.peekSem e.ctx e.addr.toNat with
    | some v => decide (e.val.toNat ≤ v)
    | none => false
  | 3 => decide (e.val.toNat ≤ (s.lq e.ctx (e.addr.toNat % 64)).done)
  | _ => true

/-- The cluster whose table holds a trigger (R97). -/
def trigCluster (trig addr : Nat) : Nat := if trig = 3 then 0 else clusterOf (addrCol addr)

def State.setTrig (s : State) (ctx port : Nat) (t : TrigSt) : State :=
  if port = 64 then { s with sch.collTrig := t }
  else if port = 65 then { s with sch.mgmtTrig := t }
  else s.modLq ctx port fun q => { q with trig := t }

/-- A fired record may start; while its context is not current the firing is recorded in order (R97, R99). -/
def State.fire (s : State) (ctx port : Nat) : State :=
  let s := s.setTrig ctx port .fired
  if s.current = some ctx ∨ port = 65 then s else { s with sch.firedOrder := s.sch.firedOrder ++ [(ctx, port)] }

/-- Whether an abort's ends still wait (R73, R464): completion records of STATUS 3 are to be written, or their signals made. -/
def State.abortWaits (s : State) : Bool :=
  s.sch.queues.any fun e => e.2.doomed.any (fun d => fieldNat d.2 67 64 == 3) || (match e.2.run with
    | some l => match l.ending with
      | some (c, _) => fieldNat c 67 64 == 3
      | none => false
    | none => false)

/-- Whether the management port executes nothing, so that its head is the next to start (R73). -/
def State.mgmtFree (s : State) : Bool := s.sch.sw.isNone && s.sch.mgmtExec.isNone && !s.abortWaits

/-- The head of a queue and its trigger state: (context, record, state). -/
def State.headOf (s : State) (ctx port : Nat) : Option (Nat × Rec64 × TrigSt) :=
  if port = 65 then
    match s.sch.mgmt with
    | r :: _ => if s.mgmtFree then some (recCtx r, r, s.sch.mgmtTrig) else none
    | [] => none
  else if port = 64 then
    match s.sch.collq with
    | c :: _ => some (c.ctx, c.record, s.sch.collTrig)
    | [] => none
  else
    let q := s.lq ctx port
    match q.recs with
    | r :: _ => if q.run.isNone then some (ctx, r, q.trig) else none
    | [] => none

/-- Arms the record that is next to start in a queue, if it has a trigger and is not armed yet (R97, R98): a full table
leaves it waiting; a condition that already holds fires it at once. -/
def State.arm (s : State) (ctx port : Nat) : State :=
  match s.headOf ctx port with
  | none => s
  | some (c, r, t) =>
    if recTrig r = 0 ∨ t = .armed ∨ t = .fired then s
    else
      let cl := trigCluster (recTrig r) (recTrigAddr r)
      let e : TrigEnt := ⟨cl, c, port, recTrig r, BitVec.ofNat 64 (recTrigAddr r), BitVec.ofNat 64 (recTrigVal r)⟩
      let s := if recTrig r = 2 then s.touchSem c (recTrigAddr r) else s
      if 64 ≤ (s.sch.trigs.filter (·.cluster == cl)).length then s.setTrig c port .waiting
      else if s.trigHolds e then s.fire c port
      else ({ s with sch.trigs := s.sch.trigs ++ [e] }).setTrig c port .armed

/-- The waiting records of every queue, in ascending (context, port) order (R98). -/
def State.waitingHeads (s : State) : List (Nat × Nat) :=
  let qs := (s.sch.queues.filter fun e => e.2.trig == .waiting).map fun e => (e.1 / 64, e.1 % 64)
  let put (qs : List (Nat × Nat)) (x : Nat × Nat) : List (Nat × Nat) :=
    (qs.filter fun y => y.1 ≤ x.1) ++ [x] ++ qs.filter fun y => x.1 < y.1
  let qs := match s.sch.collTrig, s.sch.collq with
    | .waiting, c :: _ => put qs (c.ctx, 64)
    | _, _ => qs
  match s.sch.mgmtTrig, s.sch.mgmt with
  | .waiting, r :: _ => put qs (recCtx r, 65)
  | _, _ => qs

/-- Tries the waiting records again after entries have become free. -/
def State.armWaiting (s : State) : State := s.waitingHeads.foldl (fun s h => s.arm h.1 h.2) s

/-- Re-checks the armed entries that `f` selects and fires those whose condition holds (R97). -/
def State.recheck (s : State) (f : TrigEnt → Bool) : State :=
  let hit := s.sch.trigs.filter fun e => f e && s.trigHolds e
  if hit.isEmpty then s
  else
    let s := { s with sch.trigs := s.sch.trigs.filter fun e => !hit.contains e }
    (hit.foldl (fun s e => s.fire e.ctx e.port) s).armWaiting

/-- Frees the trigger table entries of a context's records (R98), but for the ports whose head `keep` names. -/
def State.freeTrigs (s : State) (ctx : Nat) (keep : Nat → Bool) : State :=
  { s with
    sch.trigs := s.sch.trigs.filter fun e => e.ctx != ctx || keep e.port
    sch.firedOrder := s.sch.firedOrder.filter fun e => e.1 != ctx || keep e.2 }

/-- Signals a semaphore of this module as SEMSG does (R386): through the tables of the column that the address names, in a context. The signal
re-checks the TRIG 2 records of that context that name the semaphore by the same column and offset (DESIGN CHOICE, log entry 50). -/
def State.signalSem (s : State) (ctx : Nat) (self : Option Nat) (addr : Nat) (v : DWord) (set : Bool) : State × Acq Unit :=
  match targetCol self addr with
  | none => (s, .fail (whyNoCol addr))
  | some col =>
    match s.resolve ctx col (addrOff addr) 8 (addrAp addr == 1) .atomic with
    | .fault c o => (s, .fault c o)
    | .fail w => (s.touchWalk ctx col (addrOff addr), .fail w)
    | .ok sp =>
      if addrAp addr ≠ 0 ∨ sp.page.tol ≠ 0 then (s, .fail whyProt)
      else
        let (s, bs, poi) := s.readSpan sp 8
        if poi then (s, .fail whyPois)
        else
          let new := if set then v.toNat else (natOf bs + v.toNat) % 2 ^ 64
          let s := s.writeSpans [(sp, bytesOf 8 new, false)]
          (s.recheck fun e => e.trig == 2 && e.ctx == ctx && targetCol none e.addr.toNat == some col
            && addrOff e.addr.toNat == addrOff addr, .ok ())

/-! ## Groups of a launch -/

/-- The listed groups, with their numbers. -/
def State.groupList (s : State) : List (Nat × Group) :=
  s.sch.groups.filterMap fun e => e.2.map fun g => (e.1, g)

def State.group (s : State) (g : Nat) : Option Group := tabGet s.sch.groups g

def State.setGroup (s : State) (g : Nat) (v : Option Group) : State :=
  { s with sch.groups := tabSet s.sch.groups g v }

def State.col (s : State) (c : Nat) : Column := (tabGet s.cols c).getD {}

def State.setCol (s : State) (c : Nat) (v : Column) : State := { s with cols := tabSet s.cols c (some v) }

def State.modCol (s : State) (c : Nat) (f : Column → Column) : State := s.setCol c (f (s.col c))

def State.core (s : State) (k : Nat) : CoreSt := tabGet s.cores k

/-- Cores that hold columns of a group. -/
def Group.cores (g : Group) : List Nat := (g.cols.map coreOf).eraseDups

/-- Frees the cores that no running group holds any more (R84). -/
def State.freeCores (s : State) (cores : List Nat) : State :=
  cores.foldl (fun s k =>
    if s.groupList.any (fun g => g.2.phase == .running && g.2.cores.contains k) then s
    else { s with cores := tabSet s.cores k {} }) s

/-- Whether an engine operation belongs to a group: by its column, or by the group of its copy or exchange. -/
def OpBody.ofGroup (b : OpBody) (g : Nat) (cols : List Nat) : Bool :=
  match b with
  | .copy o => o.group == g
  | .tile o => cols.contains o.col
  | .tzero c _ => cols.contains c
  | .page o => cols.contains o.col
  | .xch o => o.group == g
  | _ => false

/-- Whether every live column of a copy's group on its core has joined it (R369). -/
def State.copyJoined (s : State) (o : CopyOp) : Bool :=
  match s.group o.group with
  | some g => g.phase == .running && g.cols.all fun c => coreOf c != o.core || (s.col c).live == 0 || o.slices.any (·.col == c)
  | none => false

/-- Removes a group's columns, its packets' replies, its engine operations, its accumulators, mint tasks and completion
queues, and its fault buffer entries. Collectives stay (R104, R433). -/
def State.evict (s : State) (g : Nat) (gr : Group) : State :=
  let gone := s.ops.filterMap fun e => e.2.bind fun o => if o.body.ofGroup g gr.cols then some e.1 else none
  let s := { s with
    cols := s.cols.filter fun e => !gr.cols.contains e.1
    ops := s.ops.filter fun e => !gone.contains e.1
    mintq := s.mintq.filterMap fun (e : Nat × List MintOp) =>
      let l := e.2.filter fun (m : MintOp) => m.group != g
      if l.isEmpty then none else some (e.1, l)
    compq := s.compq.filter fun e => e.1 / 4608 != g
    acc := s.acc.filter fun e => e.1 / 2 ^ 13 / 4608 != g
    accP := s.accP.filter fun e => e.1 / 2 ^ 13 / 4608 != g
    run := match s.run with
      | some (c, k) => if gr.cols.contains c then none else some (c, k)
      | none => none }
  let s := s.dropFaults fun w => match w with
    | .split c _ => gr.cols.contains c
    | .engine o => gone.contains o
    | _ => false
  s

/-- The counts of REPART words end with the group that issued them (R452). -/
def State.dropReps (s : State) (g : Group) : State :=
  { s with repAddrs := s.repAddrs.filter fun e => !(g.cols.map fun c => g.ctx * nCols + c).contains e.1 }

/-- The tags of the scheduler's own packets to other modules. -/
def State.schedTags (s : State) : List Nat :=
  s.sch.mgmtSent.toList ++ s.sch.queues.filterMap fun e => e.2.run.bind (·.sent)

/-- Requests of a discarded group that are still on their way, or held for a fault, are not performed any more: the completion record is a
release for every store of the launch that is (R64). -/
def State.dropPackets (s : State) (cols : List Nat) : State :=
  let mine (p : Packet) : Bool :=
    pktOurs p && cols.contains (pktSrc p) && p.vc != 1 && p.kind.toNat != kInvalAck && !s.schedTags.contains p.req
  ({ s with net := s.net.filter fun p => !mine p }).dropFaults fun w => match w with
    | .packet p => mine p
    | _ => false

/-- Discards a group with no save (R122, R467). A saved group holds no column: its save area stays as it stands. -/
def State.discardGroup (s : State) (g : Nat) (gr : Group) : State :=
  match gr.phase with
  | .saved _ =>
    let gone := s.ops.filterMap fun e => e.2.bind fun o => match o.body with
      | .copy c => if c.group = g then some e.1 else none
      | _ => none
    (({ s with ops := s.ops.filter fun e => !gone.contains e.1 }).dropReps gr).setGroup g none
  | _ => ((((s.evict g gr).dropReps gr).dropPackets gr.cols).setGroup g none).freeCores gr.cores

/-! ## Collective handles (R426) -/

def handleKey (col h : Nat) : Nat := 16 * col + h

/-- A handle's status word: STATE, CODE, KEPT, RECV. -/
def statusWord (st code kept recv : Nat) : DWord := BitVec.ofNat 64 (st + at_ code 8 + at_ kept 16 + at_ recv 40)

def State.setHandle (s : State) (col h : Nat) (w : DWord) : State :=
  { s with handles := tabSet s.handles (handleKey col h) w }

/-- The members that have joined a collective or repartition, with their handles. -/
def OpBody.joined : OpBody → List (Nat × Nat)
  | .p2p o => [(o.col, o.handle)]
  | .clct o => o.mems.map fun m => (m.col, m.handle)
  | .rep o => o.mems.map fun m => (m.col, m.handle)
  | _ => []

/-- Whether an operation is a collective or a repartition (R426). -/
def OpBody.isColl : OpBody → Bool
  | .p2p _ => true
  | .clct _ => true
  | .rep _ => true
  | _ => false

/-- The columns an operation names as members. -/
def OpBody.members : OpBody → List Nat
  | .p2p o => [o.col]
  | .clct o => o.members
  | .rep o => o.members
  | _ => []

/-- The record of a collective that has ended leaves the clearer (R432), unless the operation waits for a later record of its TAG. -/
def State.endRec (s : State) (o : ClctOp) : State :=
  match o.tag with
  | none => s
  | some (ctx, tag) =>
    let older := s.ops.any fun e => match e.2 with
      | some ⟨_, _, _, .clct p⟩ => p.tag == some (ctx, tag) && decide (p.n < o.n)
      | _ => false
    if older then s
    else { s with sch.collRun := s.sch.collRun.filter fun r => !(r.ctx == ctx && recTag r.record == tag.toNat) }

/-- Ends the selected collectives and repartitions with STATE 3 at every member that has joined (R426, R433). -/
def State.abortOps (s : State) (f : EngOp → Bool) : State :=
  let hit := s.ops.filterMap fun e => e.2.bind fun o => if f o && o.body.isColl then some (e.1, o) else none
  let s := hit.foldl (fun s e => e.2.body.joined.foldl (fun s m => s.setHandle m.1 m.2 (statusWord 3 0 0 0)) s) s
  let ids := hit.map (·.1)
  let s := ({ s with ops := s.ops.filter fun e => !ids.contains e.1 }).dropFaults fun w => match w with
    | .engine o => ids.contains o
    | _ => false
  -- the record of a collective that has ended
  hit.foldl (fun s e => match e.2.body with
    | .clct o => s.endRec o
    | _ => s) s

/-! ## The end of a launch (R71, R77, R464) -/

/-- The completion record (R71). -/
def completion (tag status stage fail : Nat) : BitVec 128 :=
  BitVec.ofNat 128 (tag + at_ status 64 + at_ stage 68 + at_ fail 72)

/-- The launch of a queue waits in step `k` of its end on a fault (R464). -/
def State.endWait (s : State) (ctx queue k : Nat) (c : BitVec 128) (col off : Nat) (acc : Acc) : State :=
  (s.modLq ctx queue fun q => { q with run := q.run.map fun l => { l with ending := some (c, k) } }).parkFault
    (.ending ctx queue) ctx col off acc

/-- Step 3 of R71, after which the launch has ended, its reservations of cores are gone, and the queue's next record is armed. -/
def State.endEvent (s : State) (ctx queue : Nat) (r : Rec64) (c : BitVec 128) : State :=
  let s := if bitOf (recFlags r) 1 then s.postEvent 12 (qKey ctx queue) c.toNat else s
  let s := { s with sch.reserved := s.sch.reserved.filter fun (e : Nat × Option (Nat × Nat)) => e.2.map Prod.fst != some (qKey ctx queue) }
  (s.modLq ctx queue fun q => { q with run := none, trig := .idle, parked := false }).arm ctx queue

/-- Step `k` of the end of a launch is a packet to another module: it goes on with the acknowledgement. -/
def State.endSend (s : State) (ctx queue k : Nat) (c : BitVec 128) (kind op a : Nat) (accs : List LaneAcc) : State :=
  let (s, tag) := s.sendAway kind .n64 op a accs
  s.modLq ctx queue fun q => { q with run := q.run.map fun l => { l with ending := some (c, k), sent := some tag } }

/-- Step 2 of R71: the semaphore signal; a fault waits, another failure logs a management event (R464). -/
def State.endSem (s : State) (ctx queue : Nat) (r : Rec64) (c : BitVec 128) : State :=
  let sem := fieldNat r 447 384
  if sem = 0 then s.endEvent ctx queue r c
  else if s.away sem then
    s.endSend ctx queue 2 c kSemsg 0 sem [⟨0, BitVec.ofNat 64 sem, 8, fieldBits r 448 64, 0, false⟩]
  else
    match s.signalSem ctx none sem (fieldBits r 448 64) false with
    | (s, .ok _) => s.endEvent ctx queue r c
    | (s, .fail w) => (s.mgmtEvent (qKey ctx queue) 4 w sem).endEvent ctx queue r c
    | (s, .fault col off) => s.endWait ctx queue 2 c col off .atomic

/-- A launch counts in the completion index when step 1 of R71 is done (R77), which re-checks TRIG 3 (R97). -/
def State.countEnd (s : State) (ctx queue : Nat) : State :=
  (s.modLq ctx queue fun q => { q with done := q.done + 1 }).recheck fun e =>
    e.trig == 3 && e.ctx == ctx && e.addr.toNat % 64 == queue

/-- Step 1 of R71: the completion record. A host address is written by a posted write that never fails (R464). -/
def State.endRecord (s : State) (ctx queue : Nat) (r : Rec64) (c : BitVec 128) : State :=
  let cpl := fieldNat r 383 320
  if cpl = 0 ∨ bitOf (recFlags r) 0 then
    let s := if cpl = 0 then s else { s with boot.hostMem := s.boot.hostMem ++ [(cpl, c)] }
    (s.countEnd ctx queue).endSem ctx queue r c
  else if s.away cpl then s.endSend ctx queue 1 c kStr 0 cpl (storeAccs cpl (bytesOf 16 c.toNat))
  else
    match s.writeRange ctx none cpl (bytesOf 16 c.toNat) false with
    | (s, .ok _) => (s.countEnd ctx queue).endSem ctx queue r c
    | (s, .fail w) => ((s.mgmtEvent (qKey ctx queue) 5 w cpl).countEnd ctx queue).endSem ctx queue r c
    | (s, .fault col off) => s.endWait ctx queue 1 c col off .write

/-- Ends the started launch of a queue (R71) with STATUS, STAGE and FAIL. One that is ending already and waits on a fault goes on with that step;
if its completion record is not written yet, it is written with these (R467). -/
def State.endLaunch (s : State) (ctx queue status stage fail : Nat) : State :=
  match (s.lq ctx queue).run with
  | none => s
  | some l =>
    let c := completion (recTag l.record) status stage fail
    match l.ending, l.sent with
    | none, _ => s.endRecord ctx queue l.record c
    | some (_, 1), none => s.modLq ctx queue fun q => { q with run := some { l with ending := some (c, 1) } }
    | _, _ => s

/-- Discards every group of a launch, resident or saved (R109, R467). -/
def State.discardLaunch (s : State) (ctx queue : Nat) : State :=
  (s.groupList.filter fun g => g.2.ctx == ctx && g.2.queue == queue).foldl (fun s g => s.discardGroup g.1 g.2) s

/-- A double trap ends the launch that holds the column (R109): its groups are discarded, the operations in STATE 1 that name
its columns end in ABORT (R433), and it ends with STATUS 4, FAIL 2 and the column's stage. -/
def State.doubleTrap (s : State) (col : Nat) : State :=
  match s.group (s.col col).group with
  | none => s
  | some g =>
    let cols := (s.groupList.filter fun x => x.2.ctx == g.ctx && x.2.queue == g.queue).flatMap fun x => x.2.cols
    let s := s.discardLaunch g.ctx g.queue
    let s := s.abortOps fun o => o.ctx == g.ctx && o.body.joined.any fun m => cols.contains m.1
    s.endLaunch g.ctx g.queue 4 g.stage 2

/-- Ends records that never started, in order, each as a started launch ends. While one waits on a fault, the rest wait. -/
def State.endDoomed (s : State) (ctx queue : Nat) : List (Rec64 × BitVec 128) → State
  | [] => s.modLq ctx queue fun q => { q with doomed := [] }
  | (r, c) :: rs =>
    if (s.lq ctx queue).run.isSome then s.modLq ctx queue fun q => { q with doomed := (r, c) :: rs }
    else
      let s := s.modLq ctx queue fun q => { q with run := some { record := r } }
      (s.endRecord ctx queue r c).endDoomed ctx queue rs

/-- The records that wait behind an end end too, once it has. -/
def State.endNext (s : State) (ctx queue : Nat) : State :=
  if (s.lq ctx queue).run.isNone then s.endDoomed ctx queue (s.lq ctx queue).doomed else s

/-- Step k of the end of a launch is performed again. -/
def State.endAgain (s : State) (ctx queue : Nat) : State :=
  match (s.lq ctx queue).run with
  | none => s
  | some l =>
    match l.ending with
    | none => s
    | some (c, k) =>
      let s := s.modLq ctx queue fun q => { q with run := some { l with ending := none } }
      (if k = 1 then s.endRecord ctx queue l.record c else s.endSem ctx queue l.record c).endNext ctx queue

/-- Why another module's acknowledgement says that a write failed (R464): unreachable, or refused (DESIGN CHOICE, log entry 67: as protection). -/
def ackWhy (stat : Nat) : Option Nat := if stat = 0 then none else if stat = 2 then some whyUnreach else some whyProt

/-- The packet to another module that step k of the end of a launch waited for is acknowledged (R71, R464). -/
def State.endAcked (s : State) (ctx queue stat : Nat) : State :=
  match (s.lq ctx queue).run with
  | none => s
  | some l =>
    match l.ending with
    | none => s
    | some (c, k) =>
      let s := s.modLq ctx queue fun q => { q with run := some { l with ending := none, sent := none } }
      let loc := if k = 1 then fieldNat l.record 383 320 else fieldNat l.record 447 384
      let s := match ackWhy stat with
        | some w => s.mgmtEvent (qKey ctx queue) (if k = 1 then 5 else 4) w loc
        | none => s
      (if k = 1 then (s.countEnd ctx queue).endSem ctx queue l.record c else s.endEvent ctx queue l.record c).endNext ctx queue

/-- Ends the launches of a context that have not ended, in queue order (R122, R467): the started one, then the queued ones, of queue q those
among its first `upto q` accepted records. -/
def State.endAll (s : State) (ctx status fail : Nat) (upto : Nat → Nat) : State :=
  (List.range 64).foldl (fun s q =>
    let lq := s.lq ctx q
    let n := upto q - (lq.accepted - lq.recs.length)
    let old := (lq.recs.take n).map fun r => (r, completion (recTag r) status 0 fail)
    let s := s.modLq ctx q fun x => { x with recs := x.recs.drop n, trig := if n = 0 then x.trig else .idle, doomed := x.doomed ++ old }
    (if lq.accepted - lq.recs.length ≤ upto q then s.endLaunch ctx q status 0 fail else s).endNext ctx q) s

end Sys2Proof.Machine
end

