-- ==== Sys2Proof/Machine/Ops.lean ====
section
/-!
DEFINITION. The operations of a column: registers (R151, R152), splits, pool and merging (R130 to R134), runs and marker
events (R136, R137, R142), taking a trap (R149, R274, R305) and returning from one (R309), barriers and EXIT (R129, R292).
-/

namespace Sys2Proof.Machine

/-! ## Masks -/

/-- The lanes of a mask, ascending. -/
def lanesOf (m : Mask) : List Nat := lanes32.filter fun l => m.getLsbD l

/-- The mask of one lane. -/
def laneBit (l : Nat) : Mask := BitVec.ofNat 32 (2 ^ l)

/-- The mask of some lanes. -/
def maskOf (ls : List Nat) : Mask := ls.foldl (fun m l => m ||| laneBit l) 0

/-- The lanes for which `f` holds. -/
def maskWhere (f : Nat → Bool) : Mask := maskOf (lanes32.filter f)

/-- The lowest lane of a mask (32 for none). -/
def lowLane (m : Mask) : Nat := (lanesOf m).headD 32

/-! ## Registers (R151, R152) -/

def Column.rdV (c : Column) (n l : Nat) : Word := tabGet c.v (32 * n + l)
def Column.rdVp (c : Column) (n l : Nat) : Bool := (tabGet c.vp n).getLsbD l

def Column.wrV (c : Column) (n l : Nat) (x : Word) (poi : Bool) : Column :=
  { c with v := tabSet c.v (32 * n + l) x, vp := tabMod c.vp n fun m => setBit m l poi }

/-- s0 reads as zero and is never poisoned. -/
def Column.rdS (c : Column) (n : Nat) : DWord := if n = 0 then 0 else tabGet c.s n
def Column.rdSp (c : Column) (n : Nat) : Bool := if n = 0 then false else c.sp.getLsbD n

/-- A write to s0 is discarded. -/
def Column.wrS (c : Column) (n : Nat) (x : DWord) (poi : Bool) : Column :=
  if n = 0 then c else { c with s := tabSet c.s n x, sp := setBit c.sp n poi }

/-- p0 reads as all ones and is never poisoned. -/
def Column.rdP (c : Column) (n : Nat) : Mask := if n = 0 then 0xFFFFFFFF else tabGet c.p n
def Column.rdPp (c : Column) (n : Nat) : Mask := if n = 0 then 0 else tabGet c.pp n

def Column.wrP (c : Column) (n l : Nat) (b poi : Bool) : Column :=
  if n = 0 then c else { c with p := tabMod c.p n fun m => setBit m l b, pp := tabMod c.pp n fun m => setBit m l poi }

def Column.wrPm (c : Column) (n : Nat) (m poi : Mask) : Column :=
  if n = 0 then c else { c with p := tabSet c.p n m, pp := tabSet c.pp n poi }

def Column.rdJ (c : Column) (n : Nat) : Mask := tabGet c.j n
def Column.wrJ (c : Column) (n : Nat) (m : Mask) : Column := { c with j := tabSet c.j n m }

/-- Applies one register write of a result. -/
def Column.applyWrite (c : Column) : RWrite → Column
  | .vec n l x q => c.wrV n l x q
  | .uni n x q => c.wrS n x q
  | .prd n l b q => c.wrP n l b q

def Column.applyWrites (c : Column) (ws : List RWrite) : Column := ws.foldl Column.applyWrite c

/-! ## Splits and the pool -/

def Column.slot (c : Column) (k : Nat) : Split := tabGet c.slots k
def Column.setSlot (c : Column) (k : Nat) (sp : Split) : Column := { c with slots := tabSet c.slots k sp }
def Column.modSlot (c : Column) (k : Nat) (f : Split → Split) : Column := c.setSlot k (f (c.slot k))

/-- Every lane a split holds: active, and held by its trap. -/
def Split.lanes (sp : Split) : Mask := sp.mask ||| sp.held

def Column.used (c : Column) (k : Nat) : Bool := (c.slot k).lanes != 0

def slots4 : List Nat := [0, 1, 2, 3]

def Column.freeSlots (c : Column) : List Nat := slots4.filter fun k => !c.used k

/-- Whether a variable-latency result of some of the lanes is outstanding (R137). -/
def Column.outstanding (c : Column) (m : Mask) : Bool := c.results.any fun r => r.lanes &&& m != 0

/-- The condition of a split that has ended a run (R137). -/
def Column.restCond (c : Column) (m : Mask) : SplitCond := if c.outstanding m then .parked else .ready

/-- The key by which a pool PC is older: the entry count of its oldest lane, then its lowest lane (R133). -/
def poolKey (pool : List PoolLane) (pc : DWord) : Nat × Nat :=
  (pool.filter (·.pc == pc)).foldl (fun k e => (min k.1 e.entry, min k.2 e.lane)) (2 ^ 64, 32)

def keyLt (a b : Nat × Nat) : Bool := a.1 < b.1 || (a.1 == b.1 && a.2 < b.2)

/-- The oldest pool PC. -/
def Column.oldestPool (c : Column) : Option DWord :=
  c.pool.foldl (fun best e => match best with
    | none => some e.pc
    | some pc => if keyLt (poolKey c.pool e.pc) (poolKey c.pool pc) then some e.pc else best) none

def poolLanesAt (pool : List PoolLane) (pc : DWord) : Mask := maskOf ((pool.filter (·.pc == pc)).map (·.lane))

/-- The lowest free slot takes the oldest pool PC with every lane at it (R133). -/
def Column.fillOne (c : Column) : Column :=
  match c.freeSlots, c.oldestPool with
  | k :: _, some pc =>
    let m := poolLanesAt c.pool pc
    { c.setSlot k { pc := pc, mask := m, cond := c.restCond m } with pool := c.pool.filter (·.pc != pc) }
  | _, _ => c

/-- No slot stays free while the pool holds lanes (R133). -/
def Column.fill (c : Column) : Column := c.fillOne.fillOne.fillOne.fillOne

/-- Lanes enter the pool at a PC, at the current marker event count (R133). -/
def Column.toPool (c : Column) (m : Mask) (pc : DWord) : Column :=
  { c with pool := c.pool ++ (lanesOf m).map fun l => ⟨l, pc, c.mec⟩ }

/-- Whether a split is ready in the sense of R131: it may wait for the event that its next word needs. -/
def Split.rests (sp : Split) : Bool := sp.cond == .ready || sp.cond == .waiting

/-- Whether a split can merge: ready, holding lanes, not in a handler (R134). -/
def Split.mergeable (sp : Split) : Bool := sp.rests && sp.mask != 0 && sp.held == 0 && !sp.hnd

/-- Merges slot j into slot i when both are ready at one PC. -/
def Column.mergePair (c : Column) (i j : Nat) : Column :=
  let a := c.slot i
  let b := c.slot j
  if a.mergeable && b.mergeable && a.pc == b.pc then
    let c := (c.setSlot i { a with mask := a.mask ||| b.mask, wcnt := 0, cond := .ready }).setSlot j {}
    if c.demote = some j then { c with demote := none } else c
  else c

/-- Pool lanes at a ready split's PC join it. -/
def Column.mergePool (c : Column) (i : Nat) : Column :=
  let a := c.slot i
  let m := poolLanesAt c.pool a.pc
  if a.mergeable && m != 0 then
    { c.setSlot i { a with mask := a.mask ||| m, cond := c.restCond m, wcnt := 0 } with
      pool := c.pool.filter (·.pc != a.pc) }
  else c

/-- The merging of a marker event (R134). -/
def Column.merge (c : Column) : Column :=
  let c := ([(0, 1), (0, 2), (0, 3), (1, 2), (1, 3), (2, 3)] : List (Nat × Nat)).foldl (fun c p => c.mergePair p.1 p.2) c
  slots4.foldl Column.mergePool c

/-- Chooses a split for demotion once the oldest pool PC has waited 64 marker events and no slot is free (R142). -/
def Column.chooseDemote (c : Column) : Column :=
  match c.demote, c.oldestPool with
  | none, some pc =>
    if 64 ≤ c.mec - (poolKey c.pool pc).1 ∧ c.freeSlots = [] then
      let best := slots4.foldl (fun (b : Option Nat) k =>
        if (c.slot k).hnd || (c.slot k).cond == .trapping then b
        else match b with
          | none => some k
          | some j => if (c.slot j).wcnt < (c.slot k).wcnt then some k else b) none
      { c with demote := best }
    else c
  | _, _ => c

/-- The pending demotion of slot k happens once the split, at a run end, is ready (R142). -/
def Column.demoteNow (c : Column) (k : Nat) : Column :=
  let sp := c.slot k
  if c.demote = some k ∧ sp.rests ∧ sp.mask ≠ 0 ∧ sp.hnd = false then
    { (c.toPool sp.mask sp.pc).setSlot k {} with demote := none }
  else c

/-- A marker event: counted, then merging, the pending demotion of slot k, freed slots, the choice of a demotion. -/
def Column.marker (c : Column) (k : Nat) : Column :=
  let c := { c with mec := c.mec + 1 }
  ((c.demoteNow k).merge.fill).chooseDemote

/-- The run of slot k ends with the split resting in a condition. -/
def Column.endRun (c : Column) (k : Nat) (cond : SplitCond) : Column :=
  (c.modSlot k fun sp => { sp with cond := cond, runLen := 0, pend := [] }).marker k

/-- A lane list with next PCs grouped by PC, in ascending order of lowest lane (R132). -/
def groupPcs : List (Nat × DWord) → List (DWord × Mask)
  | [] => []
  | (l, pc) :: t =>
    let rest := groupPcs t
    let m := (rest.filter (·.1 == pc)).foldl (fun m g => m ||| g.2) (laneBit l)
    (pc, m) :: rest.filter (·.1 != pc)

/-- Places the groups of a divergent word (R132): the first keeps slot k, the others take the lowest free slots, the rest enter
the pool. -/
def Column.placeGroups (c : Column) (gs : List (DWord × Mask)) : Column :=
  gs.foldl (fun c g =>
    match c.freeSlots with
    | k :: _ => c.setSlot k { pc := g.1, mask := g.2, cond := c.restCond g.2 }
    | [] => c.toPool g.2 g.1) c

/-! ## Pipes -/

/-- The position (0 to 15) of a split on its pipe (R138). -/
def pipePos (col k : Nat) : Nat := 4 * (col % 4) + k

/-- Whether a column issues on pipe B (R138). -/
def onPipeB (col : Nat) : Bool := 4 ≤ col % 8

/-- The core's two pipes have both finished their part of a rotation step: the next step begins (R146). -/
def CoreSt.advance (k : CoreSt) : CoreSt :=
  if k.det && k.doneA && k.doneB then { k with rot := (k.rot + 1) % 16, doneA := false, doneB := false } else k

/-- The core stands between two rotation steps (R146, R148): neither pipe has begun its part. -/
def CoreSt.between (k : CoreSt) : Bool := !k.doneA && !k.doneB && k.curA.isNone && k.curB.isNone

/-- The run of a split leaves its pipe; a run that has left it already has nothing to leave. -/
def CoreSt.release (k : CoreSt) (col slot : Nat) : CoreSt :=
  if onPipeB col then
    if k.curB = none then k else CoreSt.advance { k with curB := none, lastB := pipePos col slot, doneB := true }
  else
    if k.curA = none then k else CoreSt.advance { k with curA := none, lastA := pipePos col slot, doneA := true }

/-- The pipe is free and no split is issuing. -/
def State.endPipe (s : State) (col slot : Nat) : State :=
  { s with run := none, cores := tabMod s.cores (coreOf col) fun k => k.release col slot }

/-- A run of (col, k) ends with the split resting in `cond`. -/
def State.endRun (s : State) (col k : Nat) (cond : SplitCond) : State :=
  (s.modCol col fun c => c.endRun k cond).endPipe col k

/-! ## PCs -/

/-- Whether a value can be a PC (R278): a self alias, aperture 0, 8-byte aligned. -/
def pcOk (a : DWord) : Bool := isSelfAlias a.toNat && addrAp a.toNat == 0 && a.toNat % 8 == 0

/-- Whether a value passes R278 as a target of a column, and the PC it is stored as. -/
def targetOk (col : Nat) (a : DWord) : Bool :=
  a != 0 && (isSelfAlias a.toNat || (addrPkg a.toNat == Config.package.toNat && addrCol a.toNat == col))
    && addrAp a.toNat == 0 && a.toNat % 8 == 0
def pcOf (a : DWord) : DWord := selfAddr (addrOff a.toNat)

/-- The PC of the next word; a self alias wraps within its offset (R277). -/
def pcAdd (pc : DWord) (d : Int) : DWord :=
  let off := ((addrOff pc.toNat : Int) + d) % (2 ^ 34 : Nat)
  BitVec.ofNat 64 (pc.toNat / 2 ^ 34 * 2 ^ 34 + off.toNat)

def pcNext (pc : DWord) : DWord := pcAdd pc 8

/-! ## Traps (R149, R274, R305) -/

/-- The header of a column's group. -/
def State.hdr (s : State) (col : Nat) : KHdr :=
  match s.group (s.col col).group with
  | some g => g.hdr
  | none => {}

/-- The context of a column's group. -/
def State.ctxOf (s : State) (col : Nat) : Nat :=
  match s.group (s.col col).group with
  | some g => g.ctx
  | none => s.tabs.curCtx

/-- A split enters its handler: the trap table entry is read as an LD of the column (R305). -/
def State.enterTrap (s : State) (col k : Nat) : State :=
  let sp := (s.col col).slot k
  let off := addrOff (s.hdr col).traptab.toNat + 8 * sp.trap.tcode.toNat
  match s.check (s.ctxOf col) col off 8 false .read with
  | .miss => s.parkFault (.split col k) (s.ctxOf col) col off .read
  | .page p =>
    let (s, bs, poi) := s.pageRead col p false (off % p.size) 8
    let pc := BitVec.ofNat 64 (natOf bs)
    if poi || !targetOk col pc then s.doubleTrap col
    else s.modCol col fun c => c.modSlot k fun sp => { sp with pc := pcOf pc, hnd := true, cond := .ready }
  | _ => s.doubleTrap col

/-- TAKING A TRAP. Within a handler, or without a trap table, it is a double trap (R72, R149, R306). Otherwise the record is
written (R274), the run ends, the trapping lanes stay active and the others are held (R149); the handler is entered once the
split's results are written. -/
def State.raiseTrap (s : State) (col k code : Nat) (tmask : Mask) (taddr : DWord) (tinfo : Nat) (tpc : DWord) : State :=
  let c := s.col col
  let sp := c.slot k
  if sp.hnd || (s.hdr col).traptab == 0 then s.doubleTrap col
  else
    let rec_ : TrapRec := ⟨tpc, taddr, tmask, BitVec.ofNat 16 tinfo, BitVec.ofNat 8 code⟩
    let s := s.modCol col fun c => c.setSlot k
      { sp with trap := rec_, mask := tmask, held := sp.lanes &&& ~~~tmask, exiting := 0 }
    let s := s.endRun col k .trapping
    if (s.col col).outstanding sp.lanes then s else s.enterTrap col k

/-- Every other split of a stopped column ends its run at its current word boundary (R150). -/
def Column.stopOthers (c : Column) (k : Nat) : Column :=
  slots4.foldl (fun c i =>
    if i ≠ k ∧ (c.slot i).cond = .issuing then
      { c with mec := c.mec + 1 }.modSlot i fun sp => { sp with cond := c.restCond sp.lanes, runLen := 0, pend := [] }
    else c) c

/-- The lanes held in split slots. -/
def Column.slotLanes (c : Column) : Mask := slots4.foldl (fun m i => m ||| (c.slot i).lanes) 0

/-- Trap 0x10 or 0x11 stops the column (R150); the stopped lanes are those held in split slots. -/
def State.stopTrap (s : State) (col k code : Nat) (lanes : Mask) (tpc : DWord) : State :=
  let sp := (s.col col).slot k
  if sp.hnd || (s.hdr col).traptab == 0 then s.doubleTrap col
  else
    let s := s.modCol col fun c => { c.stopOthers k with stop := some ⟨k, none, c.slotLanes⟩ }
    let s := { s with cores := tabMod s.cores (coreOf col) fun r =>
      let clr (x : Option (Nat × Nat)) := match x with
        | some (c', j) => if c' = col ∧ j ≠ k then none else some (c', j)
        | none => none
      { r with curA := clr r.curA, curB := clr r.curB } }
    s.raiseTrap col k code lanes 0 0 tpc

/-- RETURNING FROM A TRAP (R309): the split holds its handler lanes and the lanes held at entry, all at %tpc. -/
def Column.leaveTrap (c : Column) (k : Nat) : Column :=
  c.modSlot k fun sp => { sp with mask := sp.lanes, held := 0, pc := pcOf sp.trap.tpc, hnd := false }

/-! ## Barriers and EXIT (R129, R292) -/

def barKey (level n : Nat) : Nat := 16 * level + n

/-- Lanes parked at a barrier enter the pool at the word after it (R129); the free slots are still to be taken. -/
def Column.releaseBar (c : Column) (key : Nat) : Column :=
  let out := c.parked.filter fun p => p.bar && p.id == key
  { c with
    parked := c.parked.filter fun p => !(p.bar && p.id == key)
    pool := c.pool ++ out.map fun p => (⟨p.lane, pcNext p.pc, c.mec⟩ : PoolLane) : Column }

/-- Whether an access that precedes an arrival at a barrier is still to be performed (R207). -/
def Column.gated (c : Column) (key : Nat) : Bool :=
  c.barGates.any fun g => (g.1.isNone || g.1 == some key) && c.reqs.any fun r => decide (r.tag < g.2.2) && r.lanes &&& g.2.1 != 0

/-- The outstanding accesses of some arriving lanes come before what the barrier releases. -/
def Column.gate (c : Column) (key : Option Nat) (m : Mask) (bound : Nat) : Column :=
  if c.reqs.any fun r => r.lanes &&& m != 0 then { c with barGates := c.barGates ++ [(key, m, bound)] } else c

/-- Completes a column barrier's phase if every current member has arrived (R389) and the accesses before have performed (R207). -/
def Column.testCbar (c : Column) (n : Nat) : Column :=
  let b := tabGet c.cbar n
  if b.arrived ≠ 0 ∧ b.arrived ||| b.dropped = 0xFFFFFFFF ∧ c.gated (barKey 1 n) = false then
    { c with cbar := tabSet c.cbar n { b with arrived := 0, phase := !b.phase } }.releaseBar (barKey 1 n)
  else c

/-- The group's columns in the container of a column at a level (R127). -/
def containerCols (cols : List Nat) (level col : Nat) : List Nat :=
  match level with
  | 1 => cols.filter (· == col)
  | 2 => cols.filter fun c => coreOf c == coreOf col
  | 3 => cols.filter fun c => clusterOf c == clusterOf col
  | 4 => cols.filter fun c => stackOf (clusterOf c) == stackOf (clusterOf col)
  | _ => cols

def State.groupCols (s : State) (col : Nat) : List Nat :=
  match s.group (s.col col).group with
  | some g => g.cols
  | none => []

/-- Completes a phase of a barrier above column level if every current member column has arrived (R129, R389); the free slots are still to be
taken. -/
def State.testUbar (s : State) (col level n : Nat) : State :=
  let key := barKey level n
  let ms := containerCols (s.groupCols col) level col
  let at_ (c : Nat) : UBar := tabGet (s.col c).ubar key
  if ms.all (fun c => ((at_ c).arrived || (at_ c).dropped) && !(s.col c).gated key) && ms.any (fun c => (at_ c).arrived) then
    ms.foldl (fun s c => s.modCol c fun k =>
      let b := tabGet k.ubar key
      ({ k with ubar := tabSet k.ubar key { b with arrived := false, phase := !b.phase, lanes := 0, kind := 0 } }).releaseBar
        key) s
  else s

/-- A column arrives once every live lane has executed an arrival word (R390). -/
def State.arriveUbar (s : State) (col level n : Nat) : State :=
  let key := barKey level n
  let c := s.col col
  let b := tabGet c.ubar key
  if b.lanes ≠ 0 ∧ c.live &&& ~~~b.lanes = 0 ∧ b.arrived = false then
    (s.setCol col { c with ubar := tabSet c.ubar key { b with arrived := true, dropped := b.dropped || b.kind == 3 } }).testUbar
      col level n
  else s

/-- The barriers above column level: (level, number) (R127). -/
def upperBars : List (Nat × Nat) :=
  (List.range 16).map (fun n => (2, n)) ++ (List.range 8).map (fun n => (3, n)) ++ (List.range 8).map (fun n => (4, n))
    ++ (List.range 4).map (fun n => (5, n)) ++ (List.range 2).map (fun n => (6, n))

/-- The columns of a group take their free slots (R133). -/
def State.fillGroup (s : State) (col : Nat) : State :=
  (s.groupCols col).foldl (fun s c => if (s.col c).pool = [] then s else s.modCol c Column.fill) s

/-- The columns of a group whose pools have changed since a state take their free slots (R133). -/
def State.fillNew (s before : State) (col : Nat) : State :=
  (s.groupCols col).foldl (fun s c => if (s.col c).pool = (before.col c).pool then s else s.modCol c Column.fill) s

/-- JOIN words whose parked lanes now include every live lane of their mask complete (R292); the free slots are still to be taken. -/
def Column.testJoins (c : Column) : Column :=
  let pcs := ((c.parked.filter fun p => !p.bar).map fun p => (p.pc, p.id)).eraseDups
  pcs.foldl (fun c x =>
    let here := c.parked.filter fun p => !p.bar && p.pc == x.1
    if c.rdJ x.2 &&& c.live &&& ~~~(maskOf (here.map (·.lane))) = 0 then
      { c with
        parked := c.parked.filter fun p => !(!p.bar && p.pc == x.1)
        pool := c.pool ++ here.map fun p => (⟨p.lane, pcNext x.1, c.mec⟩ : PoolLane) : Column }
    else c) c

/-- Lanes leave a column: its live lanes, its rejoin masks and its column barriers, at each of which an exit counts as a BARD (R129, R135,
R292, R389). -/
def Column.removeLanes (c : Column) (m : Mask) : Column :=
  let c := { c with
    live := c.live &&& ~~~m
    j := (List.range 8).foldl (fun t n => tabMod t n fun x => x &&& ~~~m) c.j
    cbar := (List.range 16).foldl (fun t n => tabMod t n fun b =>
      { b with arrived := b.arrived ||| (m &&& ~~~b.dropped), dropped := b.dropped ||| m }) c.cbar }
  (List.range 16).foldl Column.testCbar c.testJoins

/-- The last lane of a column drops it from every barrier above column level, as BARD does (R129, R389). -/
def Column.dropUbars (c : Column) : Column :=
  { c with ubar := upperBars.foldl (fun t x => tabMod t (barKey x.1 x.2) fun b =>
      { b with arrived := b.arrived || !b.dropped, dropped := true }) c.ubar }

/-- Tests every barrier of a column (R389). -/
def State.testBars (s : State) (col : Nat) : State :=
  let s := s.modCol col fun c => (List.range 16).foldl Column.testCbar c
  let lv := (s.hdr col).level
  (upperBars.foldl (fun s x => if x.1 ≤ lv then s.testUbar col x.1 x.2 else s) s).fillGroup col

/-- Lanes exit (R292): they leave slot k's split, and what waited for them is tested. -/
def State.exitLanes (s : State) (col k : Nat) (m : Mask) : State :=
  let s := s.modCol col fun c =>
    let c := c.modSlot k fun sp => { sp with mask := sp.mask &&& ~~~m, exiting := 0 }
    let c := if c.used k then c else { c.setSlot k {} with demote := if c.demote = some k then none else c.demote }
    let c := (c.gate none m s.nextTag).removeLanes m
    if c.live = 0 then c.dropUbars else c
  let lv := (s.hdr col).level
  (upperBars.foldl (fun s x => if x.1 ≤ lv then (s.arriveUbar col x.1 x.2).testUbar col x.1 x.2 else s) s).fillGroup col

/-- A parked split whose results are written: its exiting lanes leave, and it is ready (R137, R292). -/
def State.settle (s : State) (col k : Nat) : State :=
  let sp := (s.col col).slot k
  if sp.cond = .parked ∧ (s.col col).outstanding sp.lanes = false then
    let s := if sp.exiting ≠ 0 then s.exitLanes col k sp.exiting else s
    if sp.lanes &&& ~~~sp.exiting = 0 then s
    else s.modCol col fun c => ((c.modSlot k fun sp => { sp with cond := .ready }).demoteNow k).fill
  else s

/-! ## Words -/

/-- What the meaning of a word asks of the issue logic. -/
inductive Eff where
  /-- Trap `code` with %tmask, %taddr, %tinfo and %tpc. -/
  | trap (code : Nat) (tmask : Mask) (taddr : DWord) (tinfo : Nat) (tpc : DWord)
  /-- The word is performed; its lanes go on at the listed PCs, or all at the next word; `stop` ends the run. -/
  | go (s : State) (pcs : Option (List (Nat × DWord))) (stop : Bool)
  /-- The word is performed and has placed its lanes itself; the run has not been ended. -/
  | placed (s : State)
  /-- The run ends before the word, which is tested again. -/
  | block
  /-- The word waits at issue, its pipe with it; in deterministic mode the run ends before it (R147). -/
  | stall
  /-- Own pages without translation, each by an offset and aperture: the run ends before the word (R189). -/
  | replay (pages : List Nat) (acc : Acc)
  /-- A double trap (R306). -/
  | double
  deriving DecidableEq, Repr

/-- A word is counted: retired, in its run and in its split's word count (R136, R142, R147). -/
def Column.countWord (c : Column) (k : Nat) : Column :=
  { c with retired := (c.retired + 1) % 2 ^ 48 }.modSlot k fun sp =>
    { sp with runLen := sp.runLen + 1, wcnt := min (sp.wcnt + 1) (2 ^ 32 - 1) }

/-- Whether a run ends after the word just counted: its marker, or the 256th word (R136). -/
def Column.runFull (c : Column) (k : Nat) (marker : Bool) : Bool := marker || 256 ≤ (c.slot k).runLen

/-- The slot of the focus split (R150): that of the lane named, else of the lowest stopped lane, else of the lowest lane in any slot. -/
def Column.focus (c : Column) (n : Nat) : Option Nat :=
  let slotOf (l : Nat) : Option Nat := slots4.find? fun i => l < 32 && (c.slot i).lanes.getLsbD l
  let stopped : Mask := match c.stop with
    | some st => st.lanes
    | none => 0
  (slotOf n).orElse fun _ => (slotOf (lowLane (c.slotLanes &&& stopped))).orElse fun _ => slotOf (lowLane c.slotLanes)

/-! ## Errors in registers and scratchpad (R108) -/

/-- The memory error event of a register file (2) or scratchpad (3) word. -/
def State.wordError (s : State) (col wh : Nat) : State := s.postEvent 3 col (2 + at_ wh 4)

/-- The column whose slice holds a word of a core's scratchpad; for a word of the window the column that reads it (DESIGN CHOICE, log entry 28). -/
def State.spadOwner (s : State) (core a reader : Nat) : Nat :=
  let win := (s.core core).win
  if a < winBytes win then reader else 8 * core + (a - winBytes win) / sliceBytes win

/-- A read of a core's scratchpad finds its words in error: the corrected ones are rewritten, the others are poisoned, each with an event. -/
def State.scrubSpad (s : State) (core reader : Nat) : State :=
  let ps := s.spadUp.filter fun e => e.1 / 2 ^ 18 == core
  if ps = [] then s
  else
    let s := ps.foldl (fun (s : State) (e : Nat × Bool) =>
      if e.2 then s
      else ({ s with spadP := tabSet s.spadP e.1 true }).wordError (s.spadOwner core (4 * (e.1 % 2 ^ 18)) reader) 3) s
    { s with spadUp := s.spadUp.filter fun e => e.1 / 2 ^ 18 != core }

/-- The lanes of a counted word go on: together, or diverging (R132). -/
def State.advance (s : State) (col k : Nat) (marker : Bool) (pcs : Option (List (Nat × DWord))) (stop : Bool) : State :=
  let c := s.col col
  let sp := c.slot k
  match pcs with
  | none =>
    let s := s.setCol col (c.setSlot k { sp with pc := pcNext sp.pc })
    if stop || c.runFull k marker then s.endRun col k (c.restCond sp.mask) else s
  | some l =>
    match groupPcs l with
    | [] => s
    | [(pc, _)] =>
      let s := s.setCol col (c.setSlot k { sp with pc := pc })
      if stop || c.runFull k marker then s.endRun col k (c.restCond sp.mask) else s
    | (pc, m) :: gs =>
      if sp.hnd then s.doubleTrap col
      else
        let c := { c with mec := c.mec + 1 }
        let c := c.setSlot k { sp with pc := pc, mask := m, wcnt := 0, runLen := 0, pend := [], cond := c.restCond m }
        let c := c.placeGroups gs
        let c := ((c.demoteNow k).merge.fill).chooseDemote
        (s.setCol col c).endPipe col k

/-- The single-step trap after the focus split's word (R150): it is taken by the split that holds the lowest lane of the former
focus split, else the lowest lane in any slot; if no split remains, stepping ends. A split that has not returned from an earlier
trap takes the double trap (R149). -/
def State.afterStep (s : State) (col : Nat) (old : Mask) : State :=
  let c := s.col col
  match c.stop.bind (·.step) with
  | none => s
  | some _ =>
    let cand (m : Mask) : Option Nat :=
      let best := lowLane (c.slotLanes &&& m)
      slots4.find? fun i => best < 32 && (c.slot i).lanes.getLsbD best
    match (cand old).orElse fun _ => cand 0xFFFFFFFF with
    | none => s.modCol col fun c => { c with stop := none }
    | some i =>
      let sp := c.slot i
      if sp.cond == .trapping then s.doubleTrap col else s.stopTrap col i 0x11 sp.mask sp.pc

/-- Whether the column is letting one word issue under RTRAP.step. -/
def Column.stepping (c : Column) : Bool :=
  match c.stop with
  | some st => st.step.isSome
  | none => false

/-- Carries out what a word's meaning asked. -/
def State.perform (s : State) (col k : Nat) (marker : Bool) (e : Eff) : State :=
  let old := ((s.col col).slot k).lanes
  let stepping := (s.col col).stepping
  let after (t : State) : State := if stepping && (tabGet t.cols col).isSome then t.afterStep col old else t
  let mine (t : State) : State := t.dropFaults fun f => f == .split col k
  match e with
  | .trap code m a i pc =>
    let s := s.modCol col fun c => c.countWord k
    let s := if code = 0x08 ∧ targetCol (some col) a.toNat = some col then s.touchWalk (s.ctxOf col) col (addrOff a.toNat) else s
    let s := if stepping then s.modCol col fun c => { c with stop := c.stop.map fun st => { st with slot := k, step := none } } else s
    if code = 0x10 then (mine s).stopTrap col k 0x10 m pc else (mine s).raiseTrap col k code m a i pc
  | .go t pcs stop => after (((mine t).modCol col fun c => c.countWord k).advance col k marker pcs stop)
  | .placed t => after (mine t)
  | .double => s.doubleTrap col
  | .block => s.endRun col k (if (s.col col).outstanding old then .parked else .waiting)
  | .stall => if (s.core (coreOf col)).det then s.endRun col k ((s.col col).restCond old) else { s with run := none }
  | .replay pages acc =>
    let ctx := s.ctxOf col
    let need := (pages.filter fun o => !s.parkedOn (.split col k) ctx col o).length
    if 256 < (s.faultsOf (clusterOf col)).length + need then
      (if (s.core (coreOf col)).det then s.endRun col k ((s.col col).restCond old) else { s with run := none })
    else
      let s := pages.foldl (fun s o => s.parkFault (.split col k) ctx col o acc) s
      s.endRun col k .faulted

end Sys2Proof.Machine
end

