-- ==== Sys2Proof/Machine/Boot.lean ====
section
/-!
DEFINITION. Power-up, reset, firmware download and measurement (R27, R57 to R61), link training (R15).
-/

namespace Sys2Proof.Machine

/-- What a step answers. -/
abbrev Res := Host.Outcome State Fault Refusal

/-- A device step whose cause is not there. -/
def notNow (step : String) : Res := .fault (.notEnabled step)

/-- Power or reset loses every memory content, both images and every table (R27, R60): what is left is the pins, what the
host has already received, and the order of coming steps. -/
def State.lose (s : State) (powered : Bool) : State :=
  { State.reset with
    tick := s.tick
    agenda := s.agenda
    freeIx := s.freeIx
    boot := { powered := powered, rom := powered && s.boot.rom, perst0 := s.boot.perst0, perst1 := s.boot.perst1,
              replies := s.boot.replies, spdm := s.boot.spdm, hostMem := s.boot.hostMem, uncabled := s.boot.uncabled } }

/-- POWER_UP (R27): regulators ramped, boot ROM running; a link whose reset had already ended starts training. -/
def execPowerUp (s : State) : Res :=
  if s.boot.powered then notNow "POWER_UP"
  else .next { s with boot := { s.boot with
    powered := true, rom := true
    link0 := { s.boot.link0 with training := !s.boot.perst0 }
    link1 := { s.boot.link1 with training := !s.boot.perst1 } } }

/-- PWR_GOOD_DEASSERT (R27). -/
def execPwrGoodDeassert (s : State) : Res :=
  if s.boot.powered then .next (s.lose false) else notNow "PWR_GOOD_DEASSERT"

/-- PERST0_N_ASSERT (R60). -/
def execPerst0NAssert (s : State) : Res :=
  if s.boot.perst0 then notNow "PERST0_N_ASSERT"
  else
    let t := s.lose s.boot.powered
    .next { t with boot := { t.boot with perst0 := true, link1 := s.boot.link1 } }

/-- PERST0_N_DEASSERT (R27): training starts at once, or when the boot ROM runs. -/
def execPerst0NDeassert (s : State) : Res :=
  if s.boot.perst0 then
    .next { s with boot := { s.boot with perst0 := false, link0 := { s.boot.link0 with training := s.boot.rom } } }
  else notNow "PERST0_N_DEASSERT"

/-- PERST1_N_RESET (R60): only the link 1 endpoint. -/
def execPerst1NReset (asserted : Bool) (s : State) : Res :=
  .next { s with boot := { s.boot with perst1 := asserted, link1 := { training := !asserted && s.boot.rom } } }

/-- BOOT_ROM_READY (R57). -/
def execBootRomReady (s : State) : Res :=
  if s.boot.rom && !s.boot.perst0 && s.boot.st == 0 then .next { s with boot.st := 1 } else notNow "BOOT_ROM_READY"

/-- The rates of a PCI Express 7.0 link, rounded down to GT/s (R14). -/
def linkRates : List Nat := [2, 5, 8, 16, 32, 64, 128]

def trainedLink (o : TrainOutcome) : Option Link :=
  match o with
  | .trained w r _ => if (w == 16 || w == 8 || w == 4) && linkRates.contains r then some ⟨true, false, w, r⟩ else none
  | .down => some {}

/-- DETAIL of a link event (R465). -/
def linkDetail (o : TrainOutcome) : Nat :=
  match o with
  | .trained w r red => (if red then 2 else 1) + at_ w 4 + at_ r 12
  | .down => 3

/-- LINK_TRAINING (R15): the width and rate reached are the outcome of the physical link; ×16, ×8, ×4 or down. -/
def execLinkTraining (link : Nat) (outcome : TrainOutcome) (s : State) : Res :=
  match trainedLink outcome with
  | none => notNow "LINK_TRAINING"
  | some l =>
    if link = 0 ∧ s.boot.link0.training then
      .next (({ s with boot.link0 := l }).postEvent 1 0 (linkDetail outcome))
    else if link = 1 ∧ s.boot.link1.training then
      .next (({ s with boot.link1 := l }).postEvent 1 1 (linkDetail outcome))
    else notNow "LINK_TRAINING"

/-! ## Images (R58, R59) -/

def State.staged (s : State) (off n : Nat) : List Byte := (List.range n).map fun i => tabGet s.boot.staging (off + i)

/-- LENGTH is in range for an image type (R58). -/
def imageLengthOk (type len : Nat) : Bool :=
  len % 64 == 0 && len ≤ (if type = 1 then 2 ^ 22 - 256 else 12 * 2 ^ 20 - 256)

/-- M: header bytes 0 to 31 followed by the body (R59). -/
def State.imageM (s : State) : List Byte := s.staged 0 32 ++ s.staged 256 (natOf (s.staged 12 4))

/-- The checks of R59 in their order: ERR, 0 when all pass. -/
def State.imageErr (s : State) (cmd : Nat) : Nat :=
  if natOf (s.staged 0 4) ≠ 0x4D495A48 ∨ natOf (s.staged 4 2) ≠ cmd then 1
  else if !imageLengthOk cmd (natOf (s.staged 12 4)) then 2
  else if Config.sm3 (s.staged 32 64) ≠ Config.fusedKeyHash then 4
  else if natOf (s.staged 8 4) < Config.fusedSvn.toNat then 5
  else if Config.sm2Verify (s.staged 32 64) s.imageM (s.staged 96 64) then 0
  else 3

/-- The boot event after a failed check (R465). -/
def State.bootEvent (s : State) (err cmd : Nat) : State := s.postEvent 13 0 (err + at_ cmd 8)

/-- Firmware start: event counts and times start at 0 and the column map is at its reset value (R76, R113). -/
def State.startJasper (s : State) : State :=
  { s with
    evq := {}
    tabs.cmap := []
    boot := { s.boot with st := 2, err := 0, cmd := 1, jasper := true, jasperM := s.imageM, fwTick := s.tick } }

/-- VERIFY_AND_START_JASPER (R57, R59): a BOOT_CMD write of 1 through window C, so with link 0 up (R16), accepted in STATE 1. Verification,
which takes a time the part bounds, is one step; on success STATE stays 2 while Jasper trains the memories, and ERR is cleared (DESIGN CHOICE,
log entry 68: the manual says only what sets it). -/
def execVerifyAndStartJasper (s : State) : Res :=
  if !s.boot.link0.up then notNow "VERIFY_AND_START_JASPER"
  else if s.boot.st ≠ 1 then .next { s with boot.err := 6 }
  else
    match s.imageErr 1 with
    | 0 => .next s.startJasper
    | e => .next (({ s with boot.err := e }).bootEvent e 1)

/-- VERIFY_AND_LOAD_MICROCODE (R57, R59): a BOOT_CMD write of 2 through window C, accepted in STATE 3; success clears ERR (DESIGN CHOICE, log
entry 68). -/
def execVerifyAndLoadMicrocode (s : State) : Res :=
  if !s.boot.link0.up then notNow "VERIFY_AND_LOAD_MICROCODE"
  else if s.boot.st ≠ 3 then .next { s with boot.err := 6 }
  else
    match s.imageErr 2 with
    | 0 => .next { s with boot := { s.boot with st := 4, err := 0, cmd := 2, microM := s.imageM } }
    | e => .next (({ s with boot.err := e }).bootEvent e 2)

/-- MEMORY_TRAINING_DONE (R59). -/
def execMemoryTrainingDone (s : State) : Res :=
  if s.boot.st = 2 ∧ s.boot.jasper then .next { s with boot.st := 3 } else notNow "MEMORY_TRAINING_DONE"

/-- MICROCODE_LOAD_DONE (R59, R75): STATE 5, no context current. -/
def execMicrocodeLoadDone (s : State) : Res :=
  if s.boot.st = 4 then
    .next { s with
      boot := { s.boot with st := 5, reached5 := true }
      tabs := { s.tabs with curCtx := 0, noCtx := true, switching := false } }
  else notNow "MICROCODE_LOAD_DONE"

/-- Bytes of image staging (R56). -/
def stagingBytes : Nat := 12 * 2 ^ 20

/-- Whether a request crosses a 4 KiB boundary: a Malformed TLP, without effect (R55). -/
def crosses4K (off len : Nat) : Bool := len == 0 || off % 4096 + len > 4096

/-- STAGING_WRITE (R16, R55, R60): through window C; accepted in STATE 1 and 3, discarded otherwise. -/
def execStagingWrite (off : Nat) (bytes : List Byte) (s : State) : Res :=
  if !s.boot.link0.up then notNow "STAGING_WRITE"
  else if crosses4K off bytes.length then .next s
  else if (s.boot.st = 1 ∨ s.boot.st = 3) ∧ off + bytes.length ≤ stagingBytes then
    .next { s with boot.staging :=
      (List.range bytes.length).foldl (fun t i => tabSet t (off + i) (bytes.getD i 0)) s.boot.staging }
  else .next s

/-! ## SPDM (R61) -/

/-- An algorithm that a requester offers. -/
inductive SpdmAlg where
  | sm2P256 | sm3_256 | other (n : Nat)
  deriving DecidableEq, Repr

/-- The versions that the PX12 answers, as major and minor digits. -/
def spdmVersions : List Nat := [0x12, 0x13]

/-- The version and the two algorithms that a negotiation agrees on: the highest version in common, SM2 over P-256, SM3-256. -/
def spdmNegotiate (versions : List Nat) (asym hash : List SpdmAlg) : Option Nat :=
  if asym.contains .sm2P256 && hash.contains .sm3_256 then
    (spdmVersions.filter versions.contains).foldl (fun m v => some (max v (m.getD 0))) none
  else none

/-- Whether the capability of link 0's function 0 answers: powered, with the link up. -/
def State.spdmOn (s : State) : Bool := s.boot.powered && s.boot.link0.up

def State.answer (s : State) (r : SpdmReply) : State := { s with boot.spdm := s.boot.spdm ++ [r] }

/-- SPDM_GET_CERTIFICATE (R61): slot 0; the manual names no other slot, and its answer is empty. -/
def execSpdmGetCertificate (slot : Nat) (s : State) : Res :=
  if s.spdmOn then .next (s.answer ⟨if slot = 0 then Config.certChain else [], []⟩) else notNow "SPDM_GET_CERTIFICATE"

/-- SPDM_CHALLENGE (R61): an SM2 signature by the slot 0 key over the chain's digest and the nonce (DEDUCED, log entry 6). -/
def execSpdmChallenge (nonce : List Byte) (s : State) : Res :=
  let body := Config.sm3 Config.certChain ++ nonce
  if s.spdmOn then .next (s.answer ⟨body, Config.sm2Sign body⟩) else notNow "SPDM_CHALLENGE"

/-- The measurements of R61. -/
def State.measurement (s : State) (index : Nat) : List Byte :=
  match index with
  | 1 => Config.bootRomDigest
  | 2 => if s.boot.jasper && 3 ≤ s.boot.st then Config.sm3 s.boot.jasperM else List.replicate 32 0
  | 3 => if s.boot.reached5 then Config.sm3 s.boot.microM else List.replicate 32 0
  | 4 => bytesOf 4 Config.fusedSvn.toNat ++ Config.fusedKeyHash
  | _ => []

/-- SPDM_GET_MEASUREMENTS (R61). -/
def execSpdmGetMeasurements (index : Nat) (s : State) : Res :=
  let m := s.measurement index
  if s.spdmOn then .next (s.answer ⟨m, Config.sm2Sign m⟩) else notNow "SPDM_GET_MEASUREMENTS"

end Sys2Proof.Machine
end

