-- ==== Sys2Proof/Machine/HostIf.lean ====
section
/-!
DEFINITION. The host's windows (R55, R56, R62 to R66): window B accesses, window C writes, the event queue head, the context
table, port status words.
-/

namespace Sys2Proof.Machine

def State.reply (s : State) (r : HostReply) : State := { s with boot.replies := s.boot.replies ++ [r] }

/-- A link is up (R14, R16). -/
def State.linkUp (s : State) (link : Nat) : Bool :=
  if link = 0 then s.boot.link0.up else if link = 1 then s.boot.link1.up else false

/-- Whether window B is served (R60). -/
def State.windowBOpen (s : State) : Bool := s.boot.reached5 && (s.boot.st == 5 || s.boot.st == 6)

/-- The cause for which a segment entry names no column (R62, R465); 0 for none. Where several hold, the manual gives no order: the first of V, self
alias, package, column, aperture is logged (DESIGN CHOICE, log entry 70). -/
def segCause (e : Nat) : Nat :=
  if e % 2 = 0 ∨ fld e 21 1 ≠ 0 then 1
  else if isSelfAlias e then 3
  else if addrPkg e ≠ Config.package.toNat ∧ addrPkg e ≠ 4095 then 2
  else if addrCol e ≥ nCols then 3
  else if addrAp e ≥ 2 then 4
  else 0

/-- The host access event (R62, R63, R465). -/
def State.hostEvent (s : State) (seg cause : Nat) (write : Bool) (addr : Nat) : State :=
  s.postEvent 8 seg (cause + (if write then 16 else 0) + at_ addr 64)

/-- A window B access resolved: its segment's cause, its address, and its outcome in the current context. -/
def State.windowB (s : State) (off len : Nat) (acc : Acc) : Nat × Nat × XOut × Nat :=
  let e := (tabGet s.tabs.seg (off / 2 ^ 22)).toNat
  let a := e / 2 ^ 22 * 2 ^ 22 + off % 2 ^ 22
  let out := if s.tabs.noCtx then XOut.miss
    else s.check s.tabs.curCtx (addrCol a) (addrOff a) len (addrAp a == 1) acc
  (segCause e, a, out, off / 2 ^ 22)

/-- Whether a request crosses a 4 KiB boundary or leaves the window: a Malformed TLP, without effect (R55). -/
def malformedTlp (off len : Nat) : Bool := crosses4K off len || 2 ^ 36 < off + len

/-- WINDOW_B_READ (R60, R62, R63). -/
def execWindowBRead (link off len : Nat) (s : State) : Res :=
  if !s.linkUp link then notNow "WINDOW_B_READ"
  else if malformedTlp off len then .next s
  else if !s.windowBOpen then .next (s.reply .ur)
  else
    match s.windowB off len .read with
    | (0, a, .page p, _) =>
      let (s, bs, poi) := s.pageRead (addrCol a) p (addrAp a == 1) (addrOff a % p.size) len
      .next (s.reply (.data bs poi))
    | (0, a, .miss, sg) => .next ((s.hostEvent sg 5 false a).reply .ca)
    | (0, a, .prot _, sg) => .next ((s.hostEvent sg 6 false a).reply .ca)
    | (0, a, .isSealed, sg) => .next ((s.hostEvent sg 7 false a).reply .ca)
    | (c, a, _, sg) => .next ((s.hostEvent sg c false a).reply .ur)

/-- WINDOW_B_WRITE (R60, R62 to R64): performed in arrival order, or discarded. -/
def execWindowBWrite (link off : Nat) (bytes : List Byte) (s : State) : Res :=
  if !s.linkUp link then notNow "WINDOW_B_WRITE"
  else if malformedTlp off bytes.length then .next s
  else if !s.windowBOpen then .next (s.reply .ur)
  else
    match s.windowB off bytes.length .write with
    | (0, a, .page p, sg) =>
      let raw := addrAp a == 1
      if !raw && p.tol ≠ 0 && (addrOff a % 4 ≠ 0 || bytes.length % 4 ≠ 0) then .next (s.hostEvent sg 6 true a)
      else
        let sp : Span := ⟨addrCol a, p, raw, addrOff a % p.size⟩
        .next (s.writeSpans (sp.pieces false 17 bytes))
    | (0, a, .miss, sg) => .next (s.hostEvent sg 5 true a)
    | (0, a, .prot _, sg) => .next (s.hostEvent sg 6 true a)
    | (0, a, .isSealed, sg) => .next (s.hostEvent sg 7 true a)
    | (c, a, _, sg) => .next (s.hostEvent sg c true a)

/-- Posts the fault events that wait for queue space, while there is room (R76). -/
def State.postPending (s : State) : State :=
  (s.faults.filter (·.pending)).foldl (fun s e => s.postFault e) s

/-- EVQ_HEAD_WRITE (R76), through window C. -/
def execEvqHeadWrite (value : DWord) (s : State) : Res :=
  let v := value.toNat
  if !s.linkUp 0 then notNow "EVQ_HEAD_WRITE"
  else if v < s.evq.head ∨ s.evq.tail < v then .next s
  else
    let q := { s.evq with head := v, alert := s.evq.alert && v != s.evq.tail }
    .next ({ s with evq := q }).postPending

/-- The zero fields of a context table entry are kept zero (R5, R74). -/
def ctxClean (value : Rec64) : Rec64 :=
  BitVec.ofNat 512 (fieldNat value 63 0 + at_ (fieldNat value 391 192) 192)

/-- A write of a context table entry at a window C offset (R74): the completion indices of a context start at 0 when its STATE goes
from 0 to 1 (R77). -/
def State.writeCtx (s : State) (entry : Nat) (value : Rec64) (off : Nat) : Res :=
  let old := ctxState (s.ctxEnt entry)
  if 16 ≤ entry then .next s
  else if 2 ≤ old ∨ 2 ≤ ctxState value then .next (s.mgmtEvent entry 2 0 off)
  else
    let s := { s with tabs.ctx := tabSet s.tabs.ctx entry (ctxClean value) }
    if old = 0 ∧ ctxState value = 1 then
      .next ((List.range 64).foldl (fun s q => s.modLq entry q fun x => { x with done := 0 }) s)
    else .next s

/-- CONTEXT_TABLE_WRITE (R74), through window C: a whole entry. -/
def execContextTableWrite (entry : Nat) (value : Rec64) (s : State) : Res :=
  if s.linkUp 0 then s.writeCtx entry value (0x300000 + 64 * entry) else notNow "CONTEXT_TABLE_WRITE"

/-- A context table entry with one 8-byte part replaced. -/
def ctxPart (e : Rec64) (i : Nat) (value : DWord) : Rec64 :=
  let x := e.toNat
  BitVec.ofNat 512 (x % 2 ^ (64 * i) + at_ value.toNat (64 * i) + x / 2 ^ (64 * i + 64) * 2 ^ (64 * i + 64))

/-- REGISTER_WRITE (R56): an aligned 8-byte write to window C; POWER_LIMIT, EVQ_TAIL, EVQ_LOST, CURRENT, the event queue, the
logs, the column map and every offset not listed discard it. -/
def execRegisterWrite (off : Nat) (value : DWord) (s : State) : Res :=
  if !s.linkUp 0 then notNow "REGISTER_WRITE"
  else if off = 0x8 then
    if value = 1 then execVerifyAndStartJasper s
    else if value = 2 then execVerifyAndLoadMicrocode s
    else .next s
  else if off = 0x18 then execEvqHeadWrite value s
  else if off % 8 ≠ 0 then .next s
  else if 0x100000 ≤ off ∧ off < 0x120000 then
    .next { s with tabs.seg := tabSet s.tabs.seg ((off - 0x100000) / 8) value }
  else if 0x200000 ≤ off ∧ off < 0x208000 then
    .next ({ s with
      tabs.route := tabSet s.tabs.route ((off - 0x200000) / 8) (BitVec.ofNat 64 (value.toNat % 2 ^ 36)) }).rerouteAll
  else if 0x300000 ≤ off ∧ off < 0x300400 then
    let i := (off - 0x300000) / 64
    s.writeCtx i (ctxPart (s.ctxEnt i) (off % 64 / 8) value) off
  else if 0x1000000 ≤ off ∧ off < 0x1000000 + stagingBytes then execStagingWrite (off - 0x1000000) (bytesOf 8 value.toNat) s
  else .next s

/-- POSTED_WRITE_TO_PORT (R65, R66): a posted write to offset 0 of a port is discarded and logged; a page that is no port completes every request
with Unsupported Request. -/
def execPostedWriteToPort (link port : Nat) (s : State) : Res :=
  if s.linkUp link && port ≤ 65 then .next (s.mgmtEvent port 1 0 0)
  else if s.linkUp link && port < 128 then .next (s.reply .ur)
  else notNow "POSTED_WRITE_TO_PORT"

/-! ## What the host reads -/

/-- BOOT_STATUS (R57). -/
def State.bootStatus (s : State) : Nat := s.boot.st + at_ s.boot.err 8 + at_ Config.fusedSvn.toNat 32

/-- CURRENT (R56). -/
def State.currentReg (s : State) : Nat :=
  s.tabs.curCtx + (if s.tabs.switching then 16 else 0) + (if s.tabs.noCtx then 32 else 0)

/-- A column map entry as window C shows it (R113). -/
def State.mapEntry (s : State) (col : Nat) : Nat :=
  let e := s.fold col
  e.host + at_ e.fold 16 + at_ e.cause 20 + at_ e.st 30

/-- The limit that Jasper enforces (R20, R23). -/
def Power.limit (p : Power) : Nat := min p.hostLimit p.boardLimit

/-- A window C register or table word as the host reads it (R56); 0 at an offset not listed. -/
def State.windowC (s : State) (off : Nat) : Nat :=
  if off = 0 then s.bootStatus
  else if off = 0x10 then s.pw.limit
  else if off = 0x18 then s.evq.head
  else if off = 0x20 then s.evq.tail
  else if off = 0x28 then s.evq.lost
  else if off = 0x30 then s.currentReg
  else if 0x10000 ≤ off ∧ off < 0x30000 then
    fieldNat (tabGet s.evq.slots ((off - 0x10000) / 32)) (64 * (off % 32 / 8) + 63) (64 * (off % 32 / 8))
  else if 0x40000 ≤ off ∧ off < 0x64000 then
    fieldNat (tabGet s.tabs.logs ((off - 0x40000) / 16)) (64 * (off % 16 / 8) + 63) (64 * (off % 16 / 8))
  else if 0x100000 ≤ off ∧ off < 0x120000 then
    -- bits [21:1] are reported as zero (R5)
    let e := (tabGet s.tabs.seg ((off - 0x100000) / 8)).toNat
    e / 2 ^ 22 * 2 ^ 22 + e % 2
  else if 0x200000 ≤ off ∧ off < 0x208000 then (tabGet s.tabs.route ((off - 0x200000) / 8)).toNat
  else if 0x300000 ≤ off ∧ off < 0x300400 then
    fieldNat (s.ctxEnt ((off - 0x300000) / 64)) (64 * (off % 64 / 8) + 63) (64 * (off % 64 / 8))
  else if 0x400000 ≤ off ∧ off < 0x424000 then
    s.mapEntry ((off - 0x400000) / 4) + at_ (s.mapEntry ((off - 0x400000) / 4 + 1)) 32
  else if 0x1000000 ≤ off ∧ off < 0x1000000 + stagingBytes then natOf (s.staged (off - 0x1000000) 8)
  else 0

end Sys2Proof.Machine
end

