-- ==== Sys2Proof/Machine/Submit.lean ====
section
/-!
DEFINITION. Submission ports (R65 to R70, R73, R97, R432): the check of a record and its acceptance.
-/

namespace Sys2Proof.Machine

/-- Whether TRIGADDR and TRIGVAL fit TRIG (R69, R97): a trigger names a column of the module. -/
def trigOk (r : Rec64) : Bool :=
  let a := recTrigAddr r
  let v := recTrigVal r
  let here := !isSelfAlias a && addrPkg a == Config.package.toNat && addrCol a < nCols && addrAp a == 0
  match recTrig r with
  | 0 => a == 0 && v == 0
  | 1 => here && fld a 33 32 < 2 && fld a 31 20 == 0 && a % 16 == 0 && v < 16
  | 2 => here && a % 8 == 0
  | 3 => a < 64
  | _ => false

/-- The launch record's own checks (R70). -/
def launchOk (r : Rec64) : Bool :=
  let pipe := fieldNat r 255 192
  let cpl := fieldNat r 383 320
  let sem := fieldNat r 447 384
  recFlags r < 4 && pipe ≠ 0 && !isSelfAlias pipe && cpl % 16 == 0 && sem % 8 == 0 && addrAp sem == 0

/-- The element size of a type (R194). -/
def elemSize (ty : Ty) : Nat :=
  match ty with
  | .i64 => 8 | .n64 => 8 | .f64 => 8 | .f16 => 2 | _ => 4

/-- The type codes (R259). -/
def tyOfCode (n : Nat) : Ty :=
  match n with
  | 0 => .i32 | 1 => .n32 | 2 => .i64 | 3 => .n64 | 4 => .f32 | 5 => .f64 | 6 => .bf16x2 | 7 => .f16x2
  | 8 => .i16x2 | 9 => .i8x4 | 10 => .e4m3x4 | 11 => .e5m2x4 | 12 => .hn4x8 | 13 => .b32 | 14 => .f16 | _ => .rsvd

/-- The reduction ops a group collective accepts (R430). -/
def ropOk (kind rop : Nat) (ty : Ty) : Bool :=
  rop < 6 && (rop < 3 || !(ty == .f32 || ty == .f64)) && (rop == 0 || kind == 3 || kind == 5)

/-- The fields of a collective record (R432). -/
structure ClctRec where
  src : Nat
  dst : Nat
  bcol : Nat
  nmem : Nat
  cstr : Nat
  count : Nat
  root : Nat
  kind : Nat
  ty : Ty
  rop : Nat
  deriving DecidableEq, Repr, Inhabited

def clctRecOf (r : Rec64) : ClctRec where
  src := fieldNat r 511 478
  dst := fieldNat r 477 444
  bcol := fieldNat r 443 416
  nmem := fieldNat r 415 400
  cstr := fieldNat r 399 384
  count := fieldNat r 383 352
  root := fieldNat r 351 336
  kind := fieldNat r 330 328
  ty := tyOfCode (fieldNat r 327 324)
  rop := fieldNat r 323 321

/-- Global columns of the system (R428). -/
def nGlobal : Nat := 150994944

/-- Whether a member's buffers overlap in a way R430 refuses: only where the member uses both, and equal buffers only for an
all-reduce. -/
def buffersClash (kind n : Nat) (isRoot : Bool) (src dst bytes : Nat) : Bool :=
  let dlen := if kind = 6 then n * bytes else bytes
  let both := kind = 3 || (kind == 5 && isRoot) || (kind == 6 && isRoot) || (kind == 4 && isRoot)
  let a := addrOff src
  let b := addrOff dst
  both && (if src = dst then kind ≠ 3 && kind ≠ 4 else bytes ≠ 0 && a < b + dlen && b < a + bytes)

/-- The collective record's own checks (R432). -/
def State.clctOk (s : State) (ctx : Nat) (r : Rec64) : Bool :=
  let c := clctRecOf r
  let size := elemSize c.ty
  recFlags r == 0 && 1 ≤ c.nmem && c.nmem ≤ 4096 && 1 ≤ c.cstr && c.root < c.nmem && (c.kind ≠ 3 || c.root == 0)
    && fieldNat r 335 331 == 0 && 3 ≤ c.kind && c.kind ≤ 6 && fieldNat r 327 324 ≤ 5 && ropOk c.kind c.rop c.ty
    && fieldNat r 320 192 == 0 && c.src % size == 0 && c.dst % size == 0
    && c.bcol + (c.nmem - 1) * c.cstr < nGlobal
    && !((s.sch.collq ++ s.sch.collRun).any fun x => x.ctx == ctx && recTag x.record == recTag r)

/-- The management record's own checks (R73). -/
def mgmtOk (r : Rec64) : Bool :=
  recFlags r == 0 &&
  match recKind r with
  | 0x10 => fieldNat r 223 196 == 0 && fieldNat r 511 256 == 0
  | 0x11 =>
    let w := fieldNat r 223 192
    fieldNat r 511 224 == 0 && 3000 ≤ w && w ≤ 7500
  | 0x12 => fieldNat r 255 192 % 8 == 0 && addrAp (fieldNat r 255 192) == 0 && fieldNat r 511 320 == 0
  | 0x13 => fieldNat r 511 196 == 0
  | _ => false

/-- Whether a record is well formed for a port (code 2 of R67). -/
def State.recordOk (s : State) (ctx port : Nat) (r : Rec64) : Bool :=
  fieldNat r 55 52 == 0 && fieldNat r 43 40 == 0 && trigOk r &&
  (if port < 64 then recKind r == 1 && launchOk r
   else if port = 64 then recKind r == 2 && s.clctOk ctx r
   else mgmtOk r)

/-- The context of a record: the current one for device code, whatever CTX holds (R68). -/
def State.recContext (s : State) (device : Bool) (r : Rec64) : Nat := if device then s.tabs.curCtx else recCtx r

/-- The code of a record at a port (R67): 0 accepts it. -/
def State.submitCode (s : State) (device : Bool) (link port : Nat) (r : Rec64) : Nat :=
  let ctx := s.recContext device r
  if s.boot.st ≠ 5 ∨ s.recov.isSome then 4
  else if !s.recordOk ctx port r then 2
  else if ctxState (s.ctxEnt ctx) = 0 ∨ (port = 65 ∧ (device ∨ link = 1))
      ∨ (port = 65 ∧ recKind r = 0x10 ∧ ctxState (s.ctxEnt (fieldNat r 195 192)) = 0) then 3
  else if (if port < 64 then 32 ≤ (s.lq ctx port).recs.length
      else if port = 64 then 256 ≤ s.sch.collq.length else 8 ≤ s.sch.mgmt.length) then 1
  else 0

def setCtxState (e : Rec64) (st : Nat) : Rec64 :=
  BitVec.ofNat 512 (fieldNat e 383 0 + at_ st 384 + at_ (fieldNat e 511 392) 392)

def State.putCtxState (s : State) (ctx st : Nat) : State :=
  { s with tabs.ctx := tabSet s.tabs.ctx ctx (setCtxState (s.ctxEnt ctx) st) }

/-- The context that is current once the management records accepted so far have been executed. -/
def State.currentAfter (s : State) : Option Nat :=
  let now := match s.sch.sw with
    | some w => some w.newCtx
    | none => s.current
  s.sch.mgmt.foldl (fun c r =>
    if recKind r = 0x10 then some (fieldNat r 195 192)
    else if recKind r = 0x13 ∧ c = some (fieldNat r 195 192) then none
    else c) now

/-- The cut of a context switch (R75): the new context is switching, CURRENT[4] is set, dispatch stops. -/
def State.cut (s : State) (new : Nat) : State :=
  let s := if ctxState (s.ctxEnt new) = 2 then s else s.putCtxState new 3
  { s with tabs.switching := true, sch.stopped := true }

/-- Whether the cut of a queued switch has been made: dispatch stays stopped until it has completed (R75). -/
def State.cutDue (s : State) : Bool :=
  (s.sch.mgmt.foldl (fun (x : Option Nat × Bool) r =>
    let c := fieldNat r 195 192
    if recKind r = 0x10 then (some c, x.2 || (recTrig r == 0 && x.1 != some c))
    else if recKind r = 0x13 ∧ x.1 = some c then (none, x.2)
    else x) (s.current, false)).2

/-- What the acceptance of a management record does by itself: that of a switch is its cut, unless it names the context that will be current; one with
a trigger is cut as its execution begins (DESIGN CHOICE, log entry 45). That of an abort fixes which records it ends (R467). -/
def State.acceptMgmt (s : State) (r : Rec64) : State :=
  let c := fieldNat r 195 192
  if recKind r = 0x10 ∧ recTrig r = 0 then
    let t := { s with sch.cuts := s.sch.cuts ++ [s.tick] }
    if s.currentAfter = some c then t else t.cut c
  else if recKind r = 0x13 then
    { s with sch.aborts := s.sch.aborts ++ [(c, (List.range 64).map fun q => (s.lq c q).accepted, s.sch.collNum)] }
  else s

/-- Puts an accepted record into its queue (R68, R97). -/
def State.enqueue (s : State) (ctx port : Nat) (r : Rec64) : State :=
  if port < 64 then (s.modLq ctx port fun q => { q with recs := q.recs ++ [r], accepted := q.accepted + 1 }).arm ctx port
  else if port = 64 then
    ({ s with sch.collq := s.sch.collq ++ [SubRec.mk ctx r s.sch.collNum], sch.collNum := s.sch.collNum + 1 }).arm ctx 64
  else
    let t := s.acceptMgmt r
    ({ t with sch.mgmt := t.sch.mgmt ++ [r] }).arm (recCtx r) 65

/-- The record at the head of the management queue begins its execution (R73): none is in execution, and its trigger, if any, has fired (R97). -/
def State.mgmtHead (s : State) (kind : Nat) : Option (Rec64 × List Rec64) :=
  match s.sch.mgmt with
  | r :: rest =>
    if s.mgmtFree ∧ recKind r = kind ∧ (recTrig r = 0 ∨ s.sch.mgmtTrig = .fired) then some (r, rest) else none
  | [] => none

/-- It leaves the queue. -/
def State.popMgmt (s : State) (rest : List Rec64) : State := { s with sch.mgmt := rest, sch.mgmtTrig := .idle }

/-- The management record that has become the next to start is armed (R97). -/
def State.armMgmt (s : State) : State :=
  match s.sch.mgmt with
  | r :: _ => if recTrig r = 0 then s else s.arm (recCtx r) 65
  | [] => s

/-- A host submission: accepted, or refused with its code in LASTREF (R65, R66). -/
def State.hostSubmit (s : State) (link port : Nat) (r : Rec64) : State :=
  match s.submitCode false link port r with
  | 0 => (s.enqueue (recCtx r) port r).reply .sc
  | c =>
    let key := 16 * port + (if port < 64 then recCtx r else 0)
    ({ s with tabs.lastRef := tabSet s.tabs.lastRef key (BitVec.ofNat 8 c) }).reply .rrs

/-- The record that 64 bytes hold. -/
def recOf (bs : List Byte) : Rec64 := BitVec.ofNat 512 (natOf bs)

/-- A Deferrable Memory Write to a page of window A (R55, R65, R66): one that crosses 4 KiB has no effect; a page that is no port, another length or
another offset is an Unsupported Request. -/
def State.dmwr (s : State) (link port : Nat) (w : PortWrite) : State :=
  if crosses4K w.off w.bytes.length then s
  else if 66 ≤ port ∨ w.off ≠ 0 ∨ w.bytes.length ≠ 64 then s.reply .ur
  else s.hostSubmit link port (recOf w.bytes)

/-- SUBMIT_LAUNCH_RECORD (R65 to R70). -/
def execSubmitLaunchRecord (link port : Nat) (w : PortWrite) (s : State) : Res :=
  if s.linkUp link && port < 128 then .next (s.dmwr link port w) else notNow "SUBMIT_LAUNCH_RECORD"

/-- SUBMIT_COLLECTIVE_RECORD (R432). -/
def execSubmitCollectiveRecord (link : Nat) (w : PortWrite) (s : State) : Res :=
  if s.linkUp link then .next (s.dmwr link 64 w) else notNow "SUBMIT_COLLECTIVE_RECORD"

/-- SUBMIT_MANAGEMENT_RECORD (R73). -/
def execSubmitManagementRecord (link : Nat) (w : PortWrite) (s : State) : Res :=
  if s.linkUp link then .next (s.dmwr link 65 w) else notNow "SUBMIT_MANAGEMENT_RECORD"

/-- A port status word (R65). -/
def State.portStatus (s : State) (port c : Nat) : Nat :=
  let refc := (tabGet s.tabs.lastRef (16 * port + c)).toNat
  if port < 64 then (s.lq c port).recs.length + at_ 32 16 + at_ refc 32
  else if c ≠ 0 then 0
  else if port = 64 then s.sch.collq.length + at_ 256 16 + at_ refc 32
  else s.sch.mgmt.length + at_ 8 16 + at_ refc 32

/-- What a host read of 8 bytes of a page of window A gets (R65). -/
def State.portRead (s : State) (port off : Nat) : HostReply :=
  if 66 ≤ port then .ur
  else .data (bytesOf 8 (if 0x40 ≤ off ∧ off < 0xC0 ∧ off % 8 = 0 then s.portStatus port ((off - 0x40) / 8) else 0)) false

end Sys2Proof.Machine
end

