-- ==== Sys2Proof/Machine/Power.lean ====
section
/-!
DEFINITION. Power limits, operating points, temperatures, self-refresh, patrol and write-back (R20 to R25, R32, R33, R38, R40).
-/

namespace Sys2Proof.Machine

/-- The operating point of an island (R20). -/
def Power.point (p : Power) (island : Nat) : Nat := tabGet p.points island

/-- Whether a cluster is changing its operating point: it issues no words and accepts no packets (R21). -/
def Power.changing (p : Power) (cluster : Nat) : Bool := (tabGet p.target cluster).isSome

/-- Whether a cluster can run: not changing its point, not clock-gated (R20, R21). -/
def Power.runs (p : Power) (cluster : Nat) : Bool := !p.changing cluster && p.point cluster != 4

/-- The point that a cluster island is at, changes to, or returns to at its next wake. -/
def Power.goal (p : Power) (cluster : Nat) : Nat :=
  match tabGet p.target cluster with
  | some t => t
  | none => if p.point cluster = 4 then tabGet p.before cluster else p.point cluster

/-- Sends a cluster island to a point: a change in progress goes there instead, and a clock-gated island goes there at its next wake. -/
def Power.setPoint (p : Power) (cluster point : Nat) : Power :=
  if p.goal cluster = point then p
  else if !p.changing cluster && p.point cluster == 4 then { p with before := tabSet p.before cluster point }
  else { p with target := tabSet p.target cluster (some point) }

/-- Lowers a cluster island by one point, to 3 at most. -/
def Power.lower (p : Power) (cluster : Nat) : Power :=
  if p.goal cluster < 3 then p.setPoint cluster (p.goal cluster + 1) else p

def clusters : List Nat := List.range 768

/-- The hottest cluster island that can be lowered; the lowest number at equal readings (R23). -/
def Power.hottest (p : Power) : Option Nat :=
  clusters.foldl (fun best c =>
    if p.goal c < 3 then
      match best with
      | none => some c
      | some b => if tabGet p.temps b < tabGet p.temps c then some c else best
    else best) none

/-- The current limit in W that a measurement is held against. -/
def Power.average (p : Power) : Nat := p.samples.foldl (· + ·) 0 / max 1 p.samples.length

/-- One 100 µs measurement (R23): over the limit, the hottest island goes down one point; after 10 ms below 95 % of it, the islands go up in the
reverse order, one point at this and every further measurement below (DESIGN CHOICE, log entry 71: the manual gives no rate). -/
def Power.measure (p : Power) (watts : Nat) : Power :=
  let p := { p with samples := (watts :: p.samples).take 10 }
  let avg := p.average
  if p.limit < avg then
    let p := { p with below := 0 }
    match p.hottest with
    | some c => { p.lower c with lowered := c :: p.lowered }
    | none => p
  else if 100 * avg < 95 * p.limit then
    if p.below + 1 < 100 then { p with below := p.below + 1 }
    else
      match p.lowered with
      | c :: rest => { p.setPoint c (p.goal c - 1) with below := 100, lowered := rest }
      | [] => { p with below := 100 }
  else { p with below := 0 }

/-- SET_POWER_LIMIT (R23): the record at the head of the management queue. -/
def execSetPowerLimit (s : State) : Res :=
  match s.mgmtHead 0x11 with
  | some (r, rest) => .next { s.popMgmt rest with pw.hostLimit := fieldNat r 223 192 }
  | none => notNow "SET_POWER_LIMIT"

/-- BOARD_POWER_LIMIT_REQUEST (R23): out of range it is ignored and logged. -/
def execBoardPowerLimitRequest (watts : Nat) (s : State) : Res :=
  if 3000 ≤ watts ∧ watts ≤ 7500 then .next { s with pw.boardLimit := watts } else .next (s.mgmtEvent 0 3 0 0)

/-- POWER_MEASUREMENT (R23). -/
def execPowerMeasurement (watts : Nat) (s : State) : Res := .next { s with pw := s.pw.measure watts }

/-- OPERATING_POINT_CHANGE_DONE (R21). -/
def execOperatingPointChangeDone (cluster : Nat) (s : State) : Res :=
  match tabGet s.pw.target cluster with
  | some t =>
    .next { s with pw := { s.pw with target := tabSet s.pw.target cluster none, points := tabSet s.pw.points cluster t } }
  | none => notNow "OPERATING_POINT_CHANGE_DONE"

/-- Whether a replica invalidate is on its way to a cluster of this module (R367). -/
def State.invalDue (s : State) (cluster : Nat) : Bool :=
  s.ops.any fun e => match e.2 with
    | some ⟨_, _, _, .page o⟩ => o.begun && o.inval.contains cluster
    | _ => false

/-- Whether a packet is addressed to a cluster of this module and on its way, or held for a fault there. -/
def State.packetFor (s : State) (cluster : Nat) : Bool :=
  s.net.any (fun p => pktHere p && pktCluster p == cluster) || s.invalDue cluster

/-- Whether a cluster has a resident group, with its requests, or a packet (R22). -/
def State.clusterBusy (s : State) (cluster : Nat) : Bool :=
  s.cols.any (fun e => clusterOf e.1 == cluster) || s.packetFor cluster

/-- CLUSTER_CLOCK_GATE (R22): an arrival in the same cycle wins, so a busy cluster keeps its point. -/
def execClusterClockGate (cluster : Nat) (s : State) : Res :=
  if cluster < 768 ∧ s.pw.runs cluster ∧ s.clusterBusy cluster = false then
    .next { s with pw := { s.pw with
      before := tabSet s.pw.before cluster (s.pw.point cluster), points := tabSet s.pw.points cluster 4 } }
  else notNow "CLUSTER_CLOCK_GATE"

/-- The clusters of a sensor (R19, R25): a cluster island's own, an infrastructure island's die, a stack's channels. -/
def sensorClusters (sensor : Nat) : List Nat :=
  if sensor < 768 then [sensor]
  else if sensor < 816 then clusters.filter fun c => dieOfCluster c == (sensor - 768) / 4
  else clusters.filter fun c => stackOf c == sensor - 816

/-- THERMAL_THROTTLE (R25): each 1 ms a sensor that has read at least 100 °C lowers its clusters until it reads below 95 °C. The manual does not say
that they are raised again: only what R23 has lowered is (DESIGN CHOICE, log entry 71). -/
def execThermalThrottle (sensor reading : Nat) (s : State) : Res :=
  let p := { s.pw with temps := tabSet s.pw.temps sensor reading }
  let hot := 100 ≤ reading || (tabGet p.hot sensor && 95 ≤ reading)
  let p := { p with hot := tabSet p.hot sensor hot }
  .next { s with pw := if hot then (sensorClusters sensor).foldl Power.lower p else p }

/-- THERMAL_EVENT (R25): at least 110 °C: every cluster island goes to point 3, a clock-gated one at its next wake. -/
def execThermalEvent (sensor reading : Nat) (s : State) : Res :=
  if reading < 110 then notNow "THERMAL_EVENT"
  else
    let p := { s.pw with temps := tabSet s.pw.temps sensor reading, hot := tabSet s.pw.hot sensor true }
    let p := clusters.foldl (fun p c => p.setPoint c 3) p
    .next (({ s with pw := p }).postEvent 4 sensor (2 + at_ (reading % 256) 8))

/-- THERMAL_TRIP (R25): at least 120 °C asserts THERM_TRIP_N, cuts all rails and loses every memory. The manual does not say when the pin is
released: it stays asserted until the next loss of state (DESIGN CHOICE, log entry 71). -/
def execThermalTrip (sensor reading : Nat) (s : State) : Res :=
  if reading < 120 then notNow "THERMAL_TRIP"
  else
    let t := s.lose false
    .next { t with pw := { t.pw with thermTrip := true, temps := tabSet [] sensor reading } }

/-- Channels with an idle timer: 1,536 pseudo-channels, then 96 second-tier channels (R32). -/
def nSelfRef : Nat := 1632

/-- SELF_REFRESH_ENTRY (R32, R33): data is retained. -/
def execSelfRefreshEntry (channel : Nat) (s : State) : Res :=
  if channel < nSelfRef ∧ tabGet s.pw.selfRef channel = false then
    .next { s with pw.selfRef := tabSet s.pw.selfRef channel true }
  else notNow "SELF_REFRESH_ENTRY"

/-- SELF_REFRESH_EXIT (R32). -/
def execSelfRefreshExit (channel : Nat) (s : State) : Res :=
  if tabGet s.pw.selfRef channel then .next { s with pw.selfRef := tabSet s.pw.selfRef channel false }
  else notNow "SELF_REFRESH_EXIT"

/-- The column that owns a line of a slice: the guest whose slice lies in a host's fold reserve, else the column whose slice it is (R37, R116). -/
def State.ownerOf (s : State) (p : Place) : Nat :=
  let guest := s.tabs.cmap.find? fun (e : Nat × Option FoldEnt) => match e.2 with
    | some f => f.st == 2 && f.host == p.col
    | none => false
  if p.tier && foldReserve ≤ p.off then (guest.map Prod.fst).getD p.col else p.col

/-- A patrol or checkpoint read of a line's array copy (R36, R38), whose corrected errors are logged with a kind: a line that the vault holds dirty
keeps its data; a miscorrection shows nothing. -/
def State.patrolLine (s : State) (p : Place) (corrected : Nat) : State :=
  match tabGet s.upsets p.line with
  | none => s
  | some u =>
    if u.wrong.isSome then s
    else if u.corr then ({ s with upsets := tabSet s.upsets p.line none }).logLine p (s.ownerOf p) corrected u.sym
    else if tabGet s.dirty p.line then s.logLine p (s.ownerOf p) 4 u.sym
    else ({ s with upsets := tabSet s.upsets p.line none, pois := tabSet s.pois p.line true }).logLine p (s.ownerOf p) 4 u.sym

/-- A line has been read from the array, for the patroller's 24 h (R38). -/
def State.patrolledNow (s : State) (line : Nat) : State := { s with pw.patrolled := tabSet s.pw.patrolled line (some s.tick) }

/-- PATROL_READ (R38): `line` is a memory key ÷ 64. -/
def execPatrolRead (line : Nat) (s : State) : Res :=
  if line / 2 ^ 22 < nCols then .next ((s.patrolLine (placeOf (64 * line)) 3).patrolledNow line) else notNow "PATROL_READ"

/-- VAULT_WRITE_BACK (R36, R40): `block` is a memory key ÷ 256 of a block that holds a dirty line. -/
def execVaultWriteBack (block : Nat) (s : State) : Res :=
  if (List.range 4).any (fun i => tabGet s.dirty (4 * block + i)) || (tabGet s.vault block).isSome then
    .next (s.cleanBlock (placeOf (256 * block)))
  else notNow "VAULT_WRITE_BACK"

end Sys2Proof.Machine
end

