-- ==== Sys2Proof/Machine/Fabric.lean ====
section
/-!
DEFINITION. Arrivals from the fabric (R18, R21, R48, R50, R52, R126), and ports and links that fail (R18, R49).
-/

namespace Sys2Proof.Machine

/-- The shape of a packet that another module sends: a header that no router discards, its kind's virtual channel, aligned accesses within the block
that DEST names. -/
def pktShape (p : Packet) : Bool :=
  !badHeader p && p.vc == kindVc p.kind.toNat && p.accs.length ≤ 256 && !p.parked && !p.left && p.accs.all fun a =>
    [1, 2, 4, 8].contains a.size && a.lane < 32 && a.addr.toNat % a.size == 0 && a.addr.toNat / 256 == p.dest.toNat / 256

/-- Whether another module's packet comes in through a port: the module forwards and serves once its firmware runs. -/
def State.foreign (s : State) (p : Packet) : Bool := !pktOurs p && pktShape p && s.portUp p.port && s.boot.jasper

/-- Whether a packet can arrive now: on its way and the first of its flow, or sent by another module, and its cluster accepts packets
(R21, R48). -/
def State.arrives (s : State) (p : Packet) (kind : Nat) : Bool :=
  p.kind.toNat == kind && pktHere p && decide (pktDest p < nCols) && s.pw.runs (pktCluster p)
    && ((s.net.contains p && firstOfFlow s.net p && !p.parked) || s.foreign p)

/-- The arrival of a packet of a kind. One between two other modules goes on by this module's table (R50); one that another module addresses to this
module after its loss is unreachable (R126). -/
def State.deliver (s : State) (name : String) (kind : Nat) (p : Packet) (f : State → Res) : Res :=
  if p.kind.toNat = kind ∧ pktHere p = false ∧ s.foreign p then .next (s.send p)
  else if p.kind.toNat = kind ∧ pktHere p ∧ s.boot.st = 7 ∧ (s.foreign p ∨ (!pktOurs p && s.net.contains p)) then
    .next ((s.take p).unreachable p 4)
  else if s.arrives p kind then f s
  else notNow name

/-- CORRUPTED_FLIT_RETRY (R18): of the flit whose last delivery failed (`again`), or of another one, whose count starts anew. -/
def execCorruptedFlitRetry (flit : FlitRetry) (s : State) : Res :=
  if s.portUp flit.port && (!flit.again || tabGet s.pw.portRetry flit.port < 16) then
    .next { s with pw.portRetry := tabMod s.pw.portRetry flit.port fun n => if flit.again then n + 1 else 1 }
  else notNow "CORRUPTED_FLIT_RETRY"

/-- PORT_DOWN (R18, R50): a flit was not delivered after 16 retries. -/
def execPortDown (port : Nat) (s : State) : Res :=
  if s.portUp port && tabGet s.pw.portRetry port == 16 then
    let held := s.net.filter fun (p : Packet) => !pktHere p && !p.left && p.port == port
    let s := { s with pw := { s.pw with portDead := tabSet s.pw.portDead port true, portRetry := tabSet s.pw.portRetry port 0 }
                      tabs.route := clearPort s.tabs.route port }
    .next ((s.postEvent 2 port 1).lostWay 1 held State.gone)
  else notNow "PORT_DOWN"

/-- LINK_DOWN (R49): a link that the package has and that is up. -/
def execLinkDown (link : AfzilLink) (s : State) : Res :=
  match linkEnds link with
  | none => notNow "LINK_DOWN"
  | some (a, b) =>
    if s.linkIsDown a b then notNow "LINK_DOWN"
    else
      let held := s.net.filter fun (p : Packet) => !p.parked && !p.left && ((s.pktHops p).contains (a, b) || (s.pktHops p).contains (b, a))
      .next (({ s with pw.linksDown := (a, b) :: s.pw.linksDown }).lostWay 3 held fun s _ => s)

/-- FABRIC_HEADER_DISCARD (R52): VC or NPAY out of range. -/
def execFabricHeaderDiscard (p : Packet) (s : State) : Res :=
  if badHeader p then .next ((s.take p).postEvent 6 (pktSrc p) (at_ 1 4)) else notNow "FABRIC_HEADER_DISCARD"

end Sys2Proof.Machine
end

