-- ==== Sys2Proof/Machine/Save.lean ====
section
/-!
DEFINITION. The save area (R159 to R163) written and read back, and the resumption at a restart label (R101, R304).
-/

namespace Sys2Proof.Machine

/-! ## Writing -/

/-- The byte form of a queue binding (R178). -/
def bindBits (b : Option QBind) : Nat :=
  match b with
  | none => 7
  | some q => q.kind + at_ q.stg 8 + at_ q.addr.toNat 64

/-- LST and SLOT of a lane (R162). -/
def Column.laneState (c : Column) (l : Nat) : Nat × Nat × Nat × Nat :=
  -- (LST, SLOT, AGE, PC)
  match slots4.find? fun k => (c.slot k).lanes.getLsbD l with
  | some k =>
    let sp := c.slot k
    if sp.mask.getLsbD l then (1, k, 0, sp.pc.toNat) else (5, k, 0, sp.pc.toNat)
  | none =>
    match c.pool.find? (·.lane == l) with
    | some e => (2, 0, min (c.mec - e.entry) 0xFFFF, e.pc.toNat)
    | none =>
      match c.parked.find? (·.lane == l) with
      | some p => (if p.bar then 4 else 3, 0, 0, p.pc.toNat)
      | none => (0, 0, 0, 0)

/-- A lane entry (R162). -/
def Column.laneEntry (c : Column) (l : Nat) : Nat :=
  let (lst, slot, age, pc) := c.laneState l
  let pp := (List.range 7).foldl (fun a n => a + (if (c.rdPp (n + 1)).getLsbD l then 2 ^ n else 0)) 0
  at_ lst 61 + at_ slot 59 + at_ pp 52 + at_ age 36 + pc % 2 ^ 34

/-- The save area header (R161). `how` is 1 save, 2 flush, 3 fold turn. -/
def Column.saveHeader (c : Column) (rot how : Nat) : Nat :=
  let w (k : Nat) : Nat := if c.used k then (c.slot k).wcnt else 0
  let hnd := slots4.foldl (fun a k => a + (if (c.slot k).hnd then 2 ^ k else 0)) 0
  at_ c.sp.toNat 448 + at_ (c.retired % 2 ^ 48) 400 + at_ (c.mec % 2 ^ 32) 368 + at_ c.rst.toNat 336 + at_ (w 3) 304
    + at_ (w 2) 272 + at_ (w 1) 240 + at_ (w 0) 208 + at_ hnd 204 + (if c.demote.isSome then 2 ^ 203 else 0)
    + at_ (c.demote.getD 0) 201 + at_ rot 197 + at_ how 195

/-- The byte of the control block of an upper barrier: its index (R163). -/
def ubarByte (level n : Nat) : Nat :=
  336 + n + (match level with
    | 2 => 0 | 3 => 16 | 4 => 24 | 5 => 32 | _ => 36)

def trapBytes (r : TrapRec) : List Byte :=
  bytesOf 8 r.tpc.toNat ++ bytesOf 8 r.taddr.toNat ++ bytesOf 4 r.tmask.toNat ++ bytesOf 2 r.tinfo.toNat
    ++ bytesOf 1 r.tcode.toNat ++ bytesOf 9 0

def cbarBytes (b : CBar) : List Byte :=
  bytesOf 4 (~~~b.dropped).toNat ++ bytesOf 4 b.arrived.toNat ++ bytesOf 1 (if b.phase then 1 else 0) ++ bytesOf 3 0

def ubarBits (b : UBar) : Nat :=
  (if b.arrived then 1 else 0) + (if b.dropped then 2 else 0) + (if b.phase then 4 else 0)

/-- The receipt phase that a split awaits (R163, R394): the first of its pending RWAIT words. -/
def Column.pendingRwait (c : Column) (k : Nat) : Option (Bool × Nat × Nat) :=
  c.results.findSome? fun r =>
    if r.lanes &&& (c.slot k).lanes != 0 then
      match r.await with
      | .phase w o p => some (w, o, p)
      | _ => none
    else none

def rwaitBytes (r : Option (Bool × Nat × Nat)) : List Byte :=
  match r with
  | none => bytesOf 16 0
  | some (w, o, p) => bytesOf 4 (1 + (if w then 2 else 0) + 16 * p) ++ bytesOf 4 o ++ bytesOf 8 0

/-- The control block (R163). -/
def Column.controlBlock (c : Column) : List Byte :=
  bytesOf 8 c.ret.toNat ++ bytesOf 1 c.fpflags.toNat ++ bytesOf 7 0
    ++ slots4.flatMap (fun k => trapBytes (c.slot k).trap)
    ++ (List.range 16).flatMap (fun n => cbarBytes (tabGet c.cbar n))
    ++ upperBars.flatMap (fun x => bytesOf 1 (ubarBits (tabGet c.ubar (barKey x.1 x.2))))
    ++ bytesOf 10 0
    ++ slots4.flatMap (fun k => rwaitBytes (c.pendingRwait k))
    ++ bytesOf 64 0

/-- The parts of the save area with their offsets (R160); a flush keeps only some. -/
def Column.saveParts (c : Column) (h : KHdr) (rot how : Nat) : List (Nat × List Byte) :=
  let b := 8 * h.ns
  let d := 640 + b + 32 * h.nt
  let kept := [(0, bytesOf 64 (c.saveHeader rot how)),
    (320, (List.range h.ns).flatMap fun n => bytesOf 8 (c.rdS n).toNat),
    (320 + b, (List.range 8).flatMap fun n => bytesOf 4 (c.rdP n).toNat),
    (352 + b, (List.range 8).flatMap fun n => bytesOf 4 (c.rdJ n).toNat),
    (384 + b, (List.range 16).flatMap fun n => bytesOf 16 (bindBits (tabGet c.q n))),
    (640 + b, (List.range h.nt).flatMap fun n => bytesOf 32 (tabGet c.t n).toNat)]
  if how = 2 then kept
  else kept ++ [(64, lanes32.flatMap fun l => bytesOf 8 (c.laneEntry l)),
    (d, (List.range h.nv).flatMap fun n => bytesOf 4 (tabGet c.vp n).toNat),
    (d + 4 * h.nv, (List.range h.nv).flatMap fun n => lanes32.flatMap fun l => bytesOf 4 (c.rdV n l).toNat),
    (d + 132 * h.nv, c.controlBlock)]

/-- Bytes to a column's own second-tier slice, unpoisoned over whole lines. -/
def State.tierBytes (s : State) (col off : Nat) (bs : List Byte) : State :=
  let s' := (List.range bs.length).foldl (fun s i => s.storeByte col true (off + i) (bs.getD i 0)) s
  let cells := (List.range bs.length).map fun i =>
    let p := s.place col true (off + i)
    (p.line, p.addr % 64, false)
  { s' with pois := poisonLines s'.pois cells }

/-- Scratchpad words as an image in a second-tier slice, with their word poison beside it. -/
def State.imageOut (s : State) (col off core byteAddr n : Nat) : State :=
  let ws := s.spadGetAll core byteAddr n
  let s := s.tierBytes col off (ws.flatMap fun w => bytesOf 4 w.1.toNat)
  (List.range n).foldl (fun s i =>
    { s with imgPois := tabSet s.imgPois ((s.place col true (off + 4 * i)).addr / 4) (ws.getD i (0, false)).2 }) s

/-- Reads the lines of a range of a column's own second-tier slice (R35). -/
def State.touchTier (s : State) (col off n : Nat) : State :=
  if s.upsets.isEmpty then s else (List.range (n / 64)).foldl (fun s i => s.touchLine (s.place col true (off + 64 * i)) col) s

/-- A byte of a second-tier slice as a reader of data gets it: 0 in a poisoned line (R456). -/
def State.dataByte (s : State) (p : Place) : Byte := if tabGet s.pois p.line then 0 else s.lineByte p

/-- A scratchpad image read back; a word in a poisoned line is poisoned. -/
def State.imageIn (s : State) (col off core byteAddr n : Nat) : State :=
  let s := s.touchTier col off (4 * n)
  let word (i : Nat) : Word × Bool :=
    let p := s.place col true (off + 4 * i)
    (BitVec.ofNat 32 (natOf ((List.range 4).map fun j => s.dataByte { p with off := p.off + j })),
      tabGet s.imgPois (p.addr / 4) || tabGet s.pois p.line)
  s.spadSetAll core byteAddr ((List.range n).map word)

/-- SAVEOFF of a context. -/
def State.saveoff (s : State) (ctx : Nat) : Nat := ctxSaveoff (s.ctxEnt ctx)

/-- Writes a column's save area and, but for a flush, its scratchpad slice (R159). -/
def State.saveColumn (s : State) (ctx col : Nat) (h : KHdr) (how : Nat) : State :=
  let o := s.saveoff ctx
  let rot := if how = 2 then 0 else (s.core (coreOf col)).rot
  let s := ((s.col col).saveParts h rot how).foldl (fun s p => s.tierBytes col (o + p.1) p.2) s
  if how = 2 then s
  else
    let (base, size) := s.region col false
    s.imageOut col (o + 2 ^ 16) (coreOf col) base (size / 4)

/-- Writes a core's window to the region of its column 0 (R159). -/
def State.saveWindow (s : State) (ctx core : Nat) : State :=
  s.imageOut (8 * core) (s.saveoff ctx + 192 * 1024) core 0 (winBytes (s.core core).win / 4)

/-! ## Reading back -/

/-- n bytes of a second-tier slice, as a number. -/
def State.tierNat (s : State) (col off n : Nat) : Nat :=
  natOf ((List.range n).map fun i => s.dataByte (s.place col true (off + i)))

/-- Whether the line of an offset of a second-tier slice is poisoned. -/
def State.tierPois (s : State) (col off : Nat) : Bool := tabGet s.pois (s.place col true off).line

/-- Every lane, where the line of an offset is poisoned. -/
def State.tierMask (s : State) (col off : Nat) : Mask := if s.tierPois col off then 0xFFFFFFFF else 0

def bindOf (x : Nat) : Option QBind :=
  if x % 8 = 7 then none else some ⟨x % 8, fld x 10 8, BitVec.ofNat 64 (x / 2 ^ 64)⟩

/-- What a lane parked at a word waits for, read from that word: a JOIN's rejoin mask, or a barrier's level and number. -/
def parkIdOf (bar : Bool) (w : Nat) : Nat :=
  if bar then barKey (fld w 2 0) (fld w 11 8) else fld w 35 33

/-- The registers that flush and save both keep. The count of marker events is told mod 2^32 (R161): it goes on above 2^32, so that no lane's age
exceeds it. -/
def State.restoreKept (s : State) (ctx col : Nat) (h : KHdr) (c : Column) : Column :=
  let o := s.saveoff ctx
  let b := 8 * h.ns
  let hd := s.tierNat col o 64
  let tab (n w off : Nat) : Tab Nat := (List.range n).map fun i => (i, s.tierNat col (o + off + w * i) w)
  { c with
    sp := BitVec.ofNat 64 (hd / 2 ^ 448) ||| (List.range h.ns).foldl (fun (m : DWord) n => setBit m n (n != 0 && s.tierPois col (o + 320 + 8 * n))) 0
    rst := BitVec.ofNat 32 (fld hd 367 336)
    retired := fld hd 447 400
    mec := 2 ^ 32 + fld hd 399 368
    s := (tab h.ns 8 320).foldl (fun t e => if e.1 = 0 then t else tabSet t e.1 (BitVec.ofNat 64 e.2)) []
    p := (tab 8 4 (320 + b)).foldl (fun t e => if e.1 = 0 then t else tabSet t e.1 (BitVec.ofNat 32 e.2)) []
    j := (tab 8 4 (352 + b)).foldl (fun t e => tabSet t e.1 (BitVec.ofNat 32 e.2)) []
    q := (tab 16 16 (384 + b)).foldl (fun t e => tabSet t e.1 (bindOf e.2)) []
    t := (tab h.nt 32 (640 + b)).foldl (fun t e => tabSet t e.1 (BitVec.ofNat 256 e.2)) [] }

/-- All 32 lanes as one split at the restart label (R304). -/
def Column.atLabel (c : Column) (entry : DWord) : Column :=
  { c with
    live := 0xFFFFFFFF, slots := tabSet [] 0 { pc := pcAdd entry c.rst.toNat, mask := 0xFFFFFFFF }
    pool := [], parked := [], demote := none, stop := none, results := [], tokens := [], reqs := [], sendq := [] }

/-- The rest of a saved column: lanes, poison, vector registers, control block. -/
def State.restoreRest (s : State) (ctx col : Nat) (h : KHdr) (c : Column) : Column :=
  let o := s.saveoff ctx
  let d := o + 640 + 8 * h.ns + 32 * h.nt
  let cb := d + 132 * h.nv
  let hd := s.tierNat col o 64
  let ent (l : Nat) : Nat := s.tierNat col (o + 64 + 8 * l) 8
  let lst (l : Nat) : Nat := ent l / 2 ^ 61
  let pcOf (l : Nat) : DWord := selfAddr (ent l % 2 ^ 34 / 8 * 8)
  let maskFor (k st : Nat) : Mask := maskWhere fun l => lst l == st && fld (ent l) 60 59 == k
  let trapOf (k : Nat) : TrapRec :=
    let b := cb + 16 + 32 * k
    ⟨BitVec.ofNat 64 (s.tierNat col b 8), BitVec.ofNat 64 (s.tierNat col (b + 8) 8),
      BitVec.ofNat 32 (s.tierNat col (b + 16) 4), BitVec.ofNat 16 (s.tierNat col (b + 20) 2),
      BitVec.ofNat 8 (s.tierNat col (b + 22) 1)⟩
  let splitOf (k : Nat) : Split :=
    let m := maskFor k 1
    let hm := maskFor k 5
    if m ||| hm = 0 then {}
    else { pc := pcOf (lowLane (if m = 0 then hm else m)), mask := m, held := hm, wcnt := fld hd (239 + 32 * k) (208 + 32 * k),
           hnd := bitOf (fld hd 207 204) k, trap := trapOf k }
  let word (l : Nat) : Nat :=
    match s.check ctx col (addrOff (pcOf l).toNat) 8 false .read with
    | .page p => natOf ((List.range 8).map fun i => s.pageByte col p false (addrOff (pcOf l).toNat % p.size + i))
    | _ => 0
  let waitOf (k : Nat) : List Result :=
    let b := cb + 384 + 16 * k
    let x := s.tierNat col b 4
    if x % 2 = 1 then
      -- the check of R394 runs again
      let o := s.tierNat col (b + 4) 4
      let now := (s.spadGet (coreOf col) ((s.region col (bitOf x 1)).1 + o)).1.toNat % 16
      [⟨k, (splitOf k).lanes, [], 0, if now = fld x 7 4 then .none else .phase (bitOf x 1) o (fld x 7 4)⟩]
    else []
  let cbarOf (n : Nat) : CBar :=
    let b := cb + 144 + 12 * n
    ⟨~~~(BitVec.ofNat 32 (s.tierNat col b 4)), BitVec.ofNat 32 (s.tierNat col (b + 4) 4), s.tierNat col (b + 8) 1 % 2 == 1⟩
  let ubarOf (lv n : Nat) : UBar :=
    let x := s.tierNat col (cb + ubarByte lv n) 1
    let b := tabGet c.ubar (barKey lv n)
    { arrived := bitOf x 0, dropped := bitOf x 1, phase := bitOf x 2, lanes := b.lanes, kind := b.kind }
  let results := slots4.flatMap waitOf
  let parkCond (k : Nat) : SplitCond := if results.any (·.id == k) then .parked else .ready
  { c with
    live := maskWhere fun l => lst l != 0
    slots := slots4.foldl (fun t k => tabSet t k (if (splitOf k).lanes = 0 then {} else { splitOf k with cond := parkCond k })) []
    pool := (lanes32.filter fun l => lst l == 2).map fun l => ⟨l, pcOf l, c.mec - fld (ent l) 51 36⟩
    parked := (lanes32.filter fun l => lst l == 3 || lst l == 4).map fun l =>
      ⟨l, pcOf l, lst l == 4, parkIdOf (lst l == 4) (word l)⟩
    demote := if bitOf hd 203 then some (fld hd 202 201) else none
    pp := (List.range 7).foldl (fun t n => tabSet t (n + 1)
      ((maskWhere fun l => bitOf (ent l) (52 + n)) ||| s.tierMask col (o + 320 + 8 * h.ns + 4 * (n + 1)))) []
    vp := (List.range h.nv).foldl (fun t n => tabSet t n
      (BitVec.ofNat 32 (s.tierNat col (d + 4 * n) 4) ||| maskWhere fun l => s.tierPois col (d + 4 * h.nv + 128 * n + 4 * l))) []
    v := (List.range h.nv).foldl (fun t n => lanes32.foldl (fun t l =>
      tabSet t (32 * n + l) (BitVec.ofNat 32 (s.tierNat col (d + 4 * h.nv + 128 * n + 4 * l) 4))) t) []
    ret := BitVec.ofNat 64 (s.tierNat col cb 8)
    fpflags := BitVec.ofNat 5 (s.tierNat col (cb + 8) 1)
    cbar := (List.range 16).foldl (fun t n => tabSet t n (cbarOf n)) []
    ubar := upperBars.foldl (fun t x => tabSet t (barKey x.1 x.2) (ubarOf x.1 x.2)) []
    results := results, nextRes := 4 }

/-- The first word of a kernel as a self alias in the column that runs it (R82, R130). -/
def entryPc (col : Nat) (entry : DWord) : DWord :=
  if isSelfAlias entry.toNat ∨ (addrPkg entry.toNat = Config.package.toNat ∧ addrCol entry.toNat = col) then
    selfAddr (addrOff entry.toNat)
  else entry

/-- A column of a saved or flushed group resumes (R101, R104, R304). -/
def State.restoreColumn (s : State) (gid : Nat) (g : Group) (how : PreOpt) (idx col : Nat) : State :=
  let k := tabGet g.keep col
  let c0 : Column := { group := gid, idx := idx, joinCnt := k.joinCnt, msgs := k.msgs, unacked := k.unacked,
                       bounced := k.bounced, itemCur := k.itemCur }
  let s := s.touchTier col (s.saveoff g.ctx) (2 ^ 16)
  let c := s.restoreKept g.ctx col g.hdr c0
  let entry := entryPc col g.entry
  match how with
  | .save =>
    let (base, size) := s.region col false
    let s := s.imageIn col (s.saveoff g.ctx + 2 ^ 16) (coreOf col) base (size / 4)
    let c := s.restoreRest g.ctx col g.hdr { c with ubar := k.ubar }
    s.setCol col { (if g.hdr.na = 0 then { c with stop := k.stop } else c.atLabel entry) with tokens := k.tokens }
  | _ => s.setCol col (c.atLabel entry)

end Sys2Proof.Machine
end

