-- ==== Sys2Proof/Machine/Scheduler.lean ====
section
/-!
DEFINITION. Launch pipelines: start, dispatch, finish and retirement of groups (R77 to R100, R131, R151, R155).
-/

namespace Sys2Proof.Machine

/-! ## Starting a launch (R77, R79 to R82, R100) -/

/-- Where a stage's kernel header is read: the entry's column, or local column 0 for a self alias (R82). -/
def headerAddr (entry : DWord) : Nat :=
  let a := entry.toNat
  if isSelfAlias a ∧ 64 ≤ addrOff a then (mkAddr 0 (addrOff a - 64)).toNat + addrAp a * 2 ^ 34 else a - 64

/-- The launch of a queue waits on a fault before it can go on (R100); without a free entry it tries again (R190). -/
def State.parkLaunch (s : State) (ctx queue col off : Nat) : State :=
  let s := s.parkFault (.fired ctx queue) ctx col off .read
  s.modLq ctx queue fun q => { q with parked := s.waits (.fired ctx queue) }

/-- Reads the stage entries from stage k on: the records, or the stage whose entry cannot be read, or a fault. -/
def State.readStages (s : State) (ctx pipe : Nat) : Nat → Nat → List Rec64 → State × Acq (List Rec64)
  | 0, _, acc => (s, .ok acc)
  | n + 1, k, acc =>
    match s.readRange ctx none (pipe + 64 * (k + 1)) 64 with
    | (s, .fault c o) => (s, .fault c o)
    | (s, .fail _) => (s, .fail k)
    | (s, .ok (bs, poi)) => if poi then (s, .fail k) else s.readStages ctx pipe n (k + 1) (acc ++ [recOf bs])

/-- The first stage that fails R81, in stage order; the LEVEL of a queue-fed stage's kernel header included. R82 has the scheduler read a header
once, before the stage's first group, and R81 needs this LEVEL as the launch starts: the header of a queue-fed stage is read here too, and
`checkHeader`, which takes every field that the groups run with, does not test LEVEL against 3 again (DESIGN CHOICE, log entry 50). -/
def State.firstBadStage (s : State) (ctx : Nat) (rs : List Rec64) (sts : List StageDesc) : Nat → Nat → State × Acq (Option Nat)
  | 0, _ => (s, .ok none)
  | n + 1, k =>
    if !stageOk rs sts k then (s, .ok (some k))
    else
      let d := sts.getD k {}
      if d.qcap = 0 then s.firstBadStage ctx rs sts n (k + 1)
      else
        match s.readAcross ctx none (headerAddr d.entry) 64 with
        | (s, .fault c o) => (s, .fault c o)
        | (s, .fail _) => s.firstBadStage ctx rs sts n (k + 1)
        | (s, .ok (bs, poi)) =>
          if !poi && 3 < (khdrOf (recOf bs)).level then (s, .ok (some k)) else s.firstBadStage ctx rs sts n (k + 1)

/-- The first page without a translation, of the argument records that the launch passes to its stages, in the order ARGS, ARGP (R81, R100). The
scheduler does not read them (R82): nothing else of them is checked (DESIGN CHOICE, log entry 50). -/
def State.argMiss (s : State) (ctx : Nat) (args : List Nat) : Option (Nat × Nat) :=
  args.findSome? fun a =>
    match targetCol none a with
    | none => none
    | some col => if a = 0 ∨ 2 ≤ addrAp a then none else match (s.walk ctx col (addrOff a)).1 with
      | .miss => some (col, addrOff a + addrAp a * 2 ^ 34)
      | _ => none

/-- Reads and checks the descriptor of the started launch (R81), then the pages of its argument records. -/
def State.readDescriptor (s : State) (ctx queue : Nat) (r : Rec64) : State :=
  let pipe := fieldNat r 255 192
  let bad (s : State) (k : Nat) : State := s.endLaunch ctx queue 2 k 0
  if pipe % 64 ≠ 0 then bad s 0
  else
    match s.readRange ctx none pipe 64 with
    | (s, .fault c o) => s.parkLaunch ctx queue c o
    | (s, .fail _) => bad s 0
    | (s, .ok (bs, poi)) =>
      let hd := natOf bs
      let n := fld hd 19 16
      if poi || hd % 65536 ≠ 0x5A50 || n = 0 || 8 < n || hd / 2 ^ 20 ≠ 0 then bad s 0
      else
        match s.readStages ctx pipe n 0 [] with
        | (s, .fault c o) => s.parkLaunch ctx queue c o
        | (s, .fail k) => bad s k
        | (s, .ok rs) =>
          let sts := rs.map stageOf
          match s.firstBadStage ctx rs sts n 0 with
          | (s, .fault c o) => s.parkLaunch ctx queue c o
          | (s, .ok (some k)) => bad s k
          | (s, _) =>
            match s.argMiss ctx (fieldNat r 319 256 :: sts.map (·.argp.toNat)) with
            | some (c, o) => s.parkLaunch ctx queue c o
            | none => s.modLq ctx queue fun q =>
              { q with run := some { record := r, stages := sts, sr := List.replicate n {} } }

/-- Whether the scheduler starts and dispatches: not between a cut and its switch (R75), nor once a recovery has contained the failure (R122), nor
in a lost module (R126). -/
def State.schedules (s : State) : Bool :=
  !s.sch.stopped && s.boot.st != 7 && (match s.recov with
    | some r => !r.contained
    | none => true)

/-- Whether the head of a queue was accepted before every queued abort of its context: one accepted later waits for the abort, which does not end
it (R467; DESIGN CHOICE, log entry 45). -/
def State.beforeAborts (s : State) (ctx queue : Nat) : Bool :=
  let q := s.lq ctx queue
  s.sch.aborts.all fun a => a.1 != ctx || decide (q.accepted - q.recs.length < a.2.1.getD queue 0)

/-- Whether the head of a queue may start (R77, R99): the queue runs nothing and its trigger, if any, has fired; records that fired
while their context was not current start first, in the order in which they fired. -/
def State.canStart (s : State) (ctx queue : Nat) : Bool :=
  let q := s.lq ctx queue
  s.current == some ctx && s.schedules && q.run.isNone && q.doomed.isEmpty && s.beforeAborts ctx queue &&
  match q.recs with
  | [] => false
  | r :: _ => (recTrig r == 0 || q.trig == .fired) &&
    match s.sch.firedOrder.find? (·.1 == ctx) with
    | none => true
    | some x => x.2 == queue

/-- LAUNCH_START (R77, R100): the head record starts, or a launch that waited on a fault continues from its first read, or the end of a
launch that met a full fault buffer goes on (R190). -/
def execLaunchStart (ctx queue : Nat) (s : State) : Res :=
  let q := s.lq ctx queue
  if s.canStart ctx queue then
    match q.recs with
    | r :: rest =>
      let s := s.setLq ctx queue { q with recs := rest, trig := .idle, run := some { record := r } }
      let s := { s with sch.firedOrder := s.sch.firedOrder.erase (ctx, queue) }
      .next (s.readDescriptor ctx queue r)
    | [] => notNow "LAUNCH_START"
  else
    match q.run with
    | some l =>
      if l.stages.isEmpty && l.ending.isNone && !q.parked && s.current == some ctx then .next (s.readDescriptor ctx queue l.record)
      else if l.ending.isSome && !s.waits (.ending ctx queue) then .next (s.endAgain ctx queue)
      else notNow "LAUNCH_START"
    | none => notNow "LAUNCH_START"

/-! ## Slots (R83) -/

/-- The slots of a level and shape (R83). -/
def slotCount (h : KHdr) : Nat :=
  match h.level with
  | 1 => nCols
  | 2 => 4608 * (8 / h.colsN)
  | 3 => 768 * (6 / h.coresN)
  | 4 => 24 * (32 / h.clusN)
  | _ => 1

/-- The clusters under a stack, ascending (R11). -/
def stackClusters (stack : Nat) : List Nat := (List.range 32).map fun i => 32 * stack + i

/-- The columns of a slot, ascending (R83). -/
def slotCols (h : KHdr) (slot : Nat) : List Nat :=
  match h.level with
  | 1 => [slot]
  | 2 =>
    let per := 8 / h.colsN
    (List.range h.colsN).map fun i => 8 * (slot / per) + slot % per * h.colsN + i
  | 3 =>
    let per := 6 / h.coresN
    (List.range h.coresN).flatMap fun k => (List.range h.colsN).map fun i =>
      8 * (6 * (slot / per) + slot % per * h.coresN + k) + i
  | 4 =>
    let per := 32 / h.clusN
    ((stackClusters (slot / per)).drop (slot % per * h.clusN)).take h.clusN |>.flatMap fun c =>
      (List.range 48).map fun i => 48 * c + i
  | _ => List.range nCols

/-- The slots that lie on a core, ascending. -/
def slotsOn (h : KHdr) (core : Nat) : List Nat :=
  match h.level with
  | 1 => (List.range 8).map fun i => 8 * core + i
  | 2 =>
    let per := 8 / h.colsN
    (List.range per).map fun i => core * per + i
  | 3 =>
    let per := 6 / h.coresN
    if core % 6 / h.coresN < per then [core / 6 * per + core % 6 / h.coresN] else []
  | 4 =>
    let per := 32 / h.clusN
    let cl := core / 6
    if cl % 32 / h.clusN < per then [cl / 32 * per + cl % 32 / h.clusN] else []
  | _ => [0]

/-! ## Eligibility (R84, R85, R87, R91, R92, R154) -/

/-- Whether a stage of a running launch has completed (R90). A producer has a lower index, so `fuel` 8 reaches every one. -/
def LaunchRun.complete (l : LaunchRun) : Nat → Nat → Bool
  | 0, _ => false
  | fuel + 1, k =>
    let d := l.stages.getD k {}
    let r := l.sr.getD k {}
    r.disp == r.ret &&
    (if d.qcap = 0 then r.disp == d.groups
     else r.runs.all (fun x => x.taken == x.len)
      && (List.range k).all fun j => !bitOf (l.stages.getD j {}).outmask k || l.complete fuel j)

def LaunchRun.stageDone (l : LaunchRun) (k : Nat) : Bool := l.complete 9 k

/-- The lowest run of `n` consecutive free slots of a pool (R87). -/
def freeRun (busy : List Nat) (cap n : Nat) : Option Nat :=
  (List.range (cap + 1 - n)).find? fun i => (List.range n).all fun j => !busy.contains (i + j)

/-- Whether the output room of stage k holds (R87). -/
def LaunchRun.room (l : LaunchRun) (k : Nat) : Bool :=
  let d := l.stages.getD k {}
  (List.range 8).all fun j => !bitOf d.outmask j ||
    (freeRun (l.sr.getD j {}).busy (l.stages.getD j {}).qcap d.outmax).isSome

/-- Items released and not yet taken (R89). -/
def StageRun.occupancy (r : StageRun) : Nat := r.runs.foldl (fun n x => n + (x.len - x.taken)) 0

/-- The group index that a slot takes next. -/
def StageRun.nextIn (r : StageRun) (h : KHdr) (slot : Nat) : Nat := slot + slotCount h * tabGet r.slotDisp slot

/-- The (queue key, stage) that a core is reserved for (R85), as long as that stage runs in the current context and has a group to place
there. -/
def State.reservedFor (s : State) (core : Nat) : Option (Nat × Nat) :=
  match tabGet s.sch.reserved core with
  | none => none
  | some (key, k) =>
    match (s.lq (key / 64) (key % 64)).run with
    | none => none
    | some l =>
      let r := l.sr.getD k {}
      match r.hdr with
      | none => none
      | some h =>
        if s.current == some (key / 64) && l.failing.isNone && l.ending.isNone
            && (slotsOn h core).any fun sl => decide (r.nextIn h sl < (l.stages.getD k {}).groups) then some (key, k)
        else none

/-- Whether a core may take a group of a stage of a launch: it is free and not reserved for another, or holds that stage (R84, R85);
with accumulators it holds at most 8 ÷ NA groups (R154). -/
def State.coreTakes (s : State) (key : Nat × Nat × Nat) (na core : Nat) : Bool :=
  let n := (s.groupList.filter fun g => g.2.phase == .running && g.2.cores.contains core).length
  (match (s.core core).held with
   | some h => h == key
   | none => match s.reservedFor core with
     | some r => r == (key.1 * 64 + key.2.1, key.2.2)
     | none => true)
  && (na == 0 || n < 8 / na)

/-- Whether a slot's columns hold no group. -/
def State.slotFree (s : State) (cols : List Nat) : Bool := cols.all fun c => (tabGet s.cols c).isNone

/-- The module's place in a system group (R83): how many packages of the route table lie below its own. -/
def State.moduleRank (s : State) : Nat :=
  (s.tabs.route.filter fun e => e.2 != 0 && decide (e.1 < Config.package.toNat)).length

/-- Whether this module is one of those of a slot (R83): a module outside a system group runs none of it (DESIGN CHOICE, log entry 72). -/
def State.inSlot (s : State) (h : KHdr) : Bool := h.level != 6 || decide (s.moduleRank < h.modsN)

/-- The group that a core can take of a stage whose header is known: its slot and index. -/
def State.placeFor (s : State) (key : Nat × Nat × Nat) (d : StageDesc) (r : StageRun) (h : KHdr) (core : Nat) : Option (Nat × Nat) :=
  if !s.coreTakes key h.na core || !s.inSlot h then none
  else
    let idx (slot : Nat) : Nat := r.nextIn h slot
    let todo (slot : Nat) : Bool := d.qcap ≠ 0 || idx slot < d.groups
    let ready (slot : Nat) : Bool :=
      let cs := slotCols h slot
      s.slotFree cs && (cs.map coreOf).eraseDups.all fun k => s.coreTakes key h.na k
    ((slotsOn h core).find? fun sl => todo sl && ready sl).map fun sl => (sl, if d.qcap = 0 then idx sl else r.disp)

/-- Whether a stage may dispatch, leaving its slots aside (R91 step 1). -/
def LaunchRun.eligible (l : LaunchRun) (k : Nat) : Bool :=
  let d := l.stages.getD k {}
  let r := l.sr.getD k {}
  l.failing.isNone && l.ending.isNone
    && (List.range 8).all (fun j => !bitOf d.after j || l.stageDone j)
    && r.fin.length < 256 && l.room k
    && (if d.qcap = 0 then r.disp < d.groups else 0 < r.occupancy)

/-- Whether a core hosts a folded column. -/
def State.hosting (s : State) (core : Nat) : Bool :=
  (List.range 8).any fun i => (s.fold (8 * core + i)).st == 1

/-! ## Priorities (R78, R95, R96) -/

def State.basePrio (s : State) (ctx q : Nat) : Nat := ctxPrio (s.ctxEnt ctx) q

/-- The semaphore a queue is blocked on: its head launch is armed with TRIG 2 (R95). -/
def State.blockedOn (s : State) (ctx q : Nat) : Option Nat :=
  match s.headOf ctx q with
  | some (_, r, .armed) => if recTrig r = 2 then some (recTrigAddr r) else none
  | _ => none

/-- The earliest unended launch of a queue. -/
def State.earliest (s : State) (ctx q : Nat) : Option Rec64 :=
  match (s.lq ctx q).run with
  | some l => some l.record
  | none => (s.lq ctx q).recs.head?

/-- The lending edge of a queue (R95). -/
def State.lends (s : State) (ctx q : Nat) : Option Nat :=
  match s.blockedOn ctx q with
  | none => none
  | some sem => (List.range 64).find? fun i =>
    match s.earliest ctx i with
    | some r => fieldNat r 447 384 == sem
    | none => false

/-- The queues on the chain of lending edges from a queue, at most n long. -/
def State.chain (s : State) (ctx : Nat) : Nat → Nat → List Nat
  | 0, _ => []
  | n + 1, q => match s.lends ctx q with
    | none => []
    | some i => i :: s.chain ctx n i

/-- A queue's effective priority (R96). -/
def State.effPrio (s : State) (ctx q : Nat) : Nat :=
  let own := s.chain ctx 64 q
  if own.contains q then ((own.takeWhile (· != q)) ++ [q]).foldl (fun m i => max m (s.basePrio ctx i)) 0
  else (List.range 64).foldl (fun m b =>
    if (s.chain ctx 8 b).contains q then max m (s.basePrio ctx b) else m) (s.basePrio ctx q)

/-! ## Dispatch (R86, R91, R131, R151, R155) -/

/-- A candidate of a core: queue, stage. A stage whose header has not been checked yet is a candidate that first checks it. -/
def State.candidates (s : State) (ctx core : Nat) : List (Nat × Nat) :=
  (List.range 64).flatMap fun q =>
    match (s.lq ctx q).run with
    | none => []
    | some l =>
      if (s.lq ctx q).parked then []
      else ((List.range l.stages.length).filter fun k =>
        l.eligible k &&
        match (l.sr.getD k {}).hdr with
        | none => s.coreTakes (ctx, q, k) 0 core
        | some h => (s.placeFor (ctx, q, k) (l.stages.getD k {}) (l.sr.getD k {}) h core).isSome
          && !((l.stages.getD k {}).qcap ≠ 0 && s.hosting core
            && (List.range 6).any fun i =>
              let o := core / 6 * 6 + i
              o ≠ core && !s.hosting o
                && (s.placeFor (ctx, q, k) (l.stages.getD k {}) (l.sr.getD k {}) h o).isSome)).map fun k => (q, k)

/-- The first element at or after a rotation pointer of 64 (queues) or 8 (stages). -/
def afterPtr (l : List Nat) (ptr : Nat) : Option Nat :=
  match l.find? (ptr ≤ ·) with
  | some x => some x
  | none => l.head?

/-- The (queue, stage) that a core takes of some candidates (R91 steps 2 and 3), by effective priority, then the rotation pointers; the ratio of
occupancy to QCAP decides between stages. -/
def State.pickOf (s : State) (ctx core : Nat) (cs : List (Nat × Nat)) : Option (Nat × Nat) :=
  let qs := (cs.map (·.1)).eraseDups
  let best := qs.foldl (fun m q => max m (s.effPrio ctx q)) 0
  match afterPtr (qs.filter fun q => s.effPrio ctx q == best) (tabGet s.sch.rotQ (core / 6)) with
  | none => none
  | some q =>
    match (s.lq ctx q).run with
    | none => none
    | some l =>
      let ks := (cs.filter (·.1 == q)).map (·.2)
      let num (k : Nat) : Nat := if (l.stages.getD k {}).qcap = 0 then 1 else (l.sr.getD k {}).occupancy
      let den (k : Nat) : Nat := max 1 (l.stages.getD k {}).qcap
      let top := ks.filter fun k => ks.all fun j => num j * den k ≤ num k * den j
      (afterPtr top l.srot).map fun k => (q, k)

def State.pick (s : State) (ctx core : Nat) : Option (Nat × Nat) := s.pickOf ctx core (s.candidates ctx core)

/-- The eligible stages of level 4 to 6 whose header is known, with it (R85). -/
def State.wideStages (s : State) (ctx : Nat) : List ((Nat × Nat) × KHdr) :=
  s.sch.queues.flatMap fun (e : Nat × LQueue) =>
    match e.2.run with
    | none => []
    | some l =>
      if e.1 / 64 ≠ ctx ∨ e.2.parked then []
      else (List.range l.stages.length).filterMap fun k =>
        match (l.sr.getD k {}).hdr with
        | none => none
        | some h => if 4 ≤ h.level ∧ l.eligible k ∧ s.inSlot h then some ((e.1 % 64, k), h) else none

/-- A free core is reserved for a group of level 4 to 6 that is the next of a slot on it (R85); of several stages for the one that R91 would
take (DESIGN CHOICE, log entry 72). -/
def State.reserveCore (s : State) (ctx : Nat) (ws : List ((Nat × Nat) × KHdr)) (core : Nat) : State :=
  if (s.core core).held.isSome || (s.reservedFor core).isSome then s
  else
    let due (w : (Nat × Nat) × KHdr) : Bool :=
      match (s.lq ctx w.1.1).run with
      | none => false
      | some l => (slotsOn w.2 core).any fun sl => decide ((l.sr.getD w.1.2 {}).nextIn w.2 sl < (l.stages.getD w.1.2 {}).groups)
    match s.pickOf ctx core ((ws.filter due).map (·.1)) with
    | none => s
    | some (q, k) => { s with sch.reserved := tabSet s.sch.reserved core (some (ctx * 64 + q, k)) }

/-- Every core that is free is reserved at once for the groups that wait for it (R85). -/
def State.reserveCores (s : State) : State :=
  match s.current with
  | none => s
  | some ctx =>
    let ws := s.wideStages ctx
    if ws.isEmpty || !s.schedules then s else (List.range 4608).foldl (State.reserveCore · ctx ws ·) s

/-- The address of a pool slot (R87). -/
def itemAddr (qbase : DWord) (slot : Nat) : DWord := qbase + BitVec.ofNat 64 (64 * slot)

/-- A group's columns in this module with their indices in the group (R128). -/
def State.groupIdx (s : State) (g : Group) : List (Nat × Nat) :=
  let base := if g.hdr.level = 6 then nCols * s.moduleRank else 0
  ((List.range g.cols.length).map (base + ·)).zip g.cols

/-- Columns per group for the v0 preload (R155). -/
def colsPerGroup (h : KHdr) : Nat := h.colsN * h.coresN * h.clusN * h.modsN

/-- The packed coordinates of a column (R156). -/
def packedCoords (col : Nat) : DWord :=
  BitVec.ofNat 64 (clusterOf col + at_ (stackOf (clusterOf col)) 20 + at_ Config.package.toNat 30)

/-- A column at dispatch (R131, R151, R155). -/
def freshColumn (gid : Nat) (g : Group) (idx col : Nat) : Column :=
  let h := g.hdr
  let on (n : Nat) : Bool := bitOf h.preload n
  let s5 : DWord := match g.items with
    | [] => 0
    | i :: _ => itemAddr g.qbase i
  let vals : List (Nat × DWord) := [(1, mkAddr col 0), (2, BitVec.ofNat 64 g.index), (3, BitVec.ofNat 64 idx), (4, g.argp),
    (5, s5), (6, BitVec.ofNat 64 g.ngroups), (7, packedCoords col)]
  let sregs := vals.foldl (fun t e => if on e.1 then tabSet t e.1 e.2 else t) []
  let v0 (l : Nat) : Word := BitVec.ofNat 32 (32 * (g.index * colsPerGroup h + idx) + l)
  { group := gid, idx := idx, s := sregs
    v := if on 0 then lanes32.foldl (fun t l => tabSet t l (v0 l)) [] else []
    j := (List.range 8).foldl (fun t n => tabSet t n 0xFFFFFFFF) []
    live := 0xFFFFFFFF
    rst := if h.rstpol = 1 then BitVec.ofNat 32 h.rstoff else 0xFFFFFFFF
    slots := tabSet [] 0 { pc := entryPc col g.entry, mask := 0xFFFFFFFF } }

/-- Takes a free core for a stage: its window is zero (R164), its pipes and rotation start anew. -/
def State.takeCore (s : State) (core : Nat) (key : Nat × Nat × Nat) (h : KHdr) : State :=
  if (s.core core).held.isSome then s
  else
    let s := s.spadZero core 0 (winBytes h.win)
    { s with cores := tabSet s.cores core { held := some key, win := h.win, det := h.det }
             sch.reserved := tabSet s.sch.reserved core none }

/-- Places a group in its columns (R131, R151, R155, R164). -/
def State.placeGroup (s : State) (gid : Nat) (g : Group) : State :=
  let s := g.cores.foldl (fun s k => s.takeCore k (g.ctx, g.queue, g.stage) g.hdr) s
  let s := s.setGroup gid (some g)
  (s.groupIdx g).foldl (fun s x =>
    let s := s.setCol x.2 (freshColumn gid g x.1 x.2)
    let (base, size) := s.region x.2 false
    s.spadZero (coreOf x.2) base size) s

/-- The items that the next group of a queue-fed stage takes (R89): slots, and the runs after. -/
def takeItems (items : Nat) : List PoolRun → List Nat × List PoolRun
  | [] => ([], [])
  | r :: rs =>
    if r.taken = r.len then
      let (xs, rs') := takeItems items rs
      (xs, r :: rs')
    else
      let n := min items (r.len - r.taken)
      ((List.range n).map fun i => r.start + r.taken + i, { r with taken := r.taken + n } :: rs)

def LaunchRun.modStage (l : LaunchRun) (k : Nat) (f : StageRun → StageRun) : LaunchRun :=
  { l with sr := l.sr.set k (f (l.sr.getD k {})) }

/-- Dispatches group `index` of a stage into a slot. -/
def State.dispatch (s : State) (ctx q k : Nat) (l : LaunchRun) (h : KHdr) (slot index : Nat) : State :=
  let d := l.stages.getD k {}
  let r := l.sr.getD k {}
  let (items, runs) := if d.qcap = 0 then ([], r.runs) else takeItems d.items r.runs
  let outs : List OutRun := (List.range 8).filterMap fun j =>
    if bitOf d.outmask j then
      (freeRun (l.sr.getD j {}).busy (l.stages.getD j {}).qcap d.outmax).map fun st => { stage := j, start := st, len := d.outmax, filled := 0 }
    else none
  let l := l.modStage k fun r =>
    { r with disp := r.disp + 1, runs := runs, slotDisp := tabMod r.slotDisp slot (· + 1) }
  let l := outs.foldl (fun l o => l.modStage o.stage fun r =>
    { r with busy := r.busy ++ (List.range o.len).map fun i => o.start + i }) l
  let args := if d.argp = 0 then fieldBits l.record 256 64 else d.argp
  let g : Group := { ctx := ctx, queue := q, stage := k, index := index, slot := slot, cols := slotCols h slot, hdr := h,
                     entry := d.entry, argp := args, ngroups := d.groups, qbase := d.qbase, items := items, outRuns := outs,
                     tDisp := s.tick }
  let gid := s.sch.nextGroup
  let s := s.modLq ctx q fun x => { x with run := some l }
  let key (c : Nat) : Nat := ctx * nCols + c
  let s := { s with
    clctCnt := s.clctCnt.filter fun e => !(g.cols.map key).contains e.1
    repAddrs := s.repAddrs.filter fun e => !(g.cols.map key).contains e.1 }
  ({ s with sch.nextGroup := gid + 1 }).placeGroup gid g

/-- Whether a launch has a resident group. -/
def State.hasResident (s : State) (ctx q : Nat) : Bool :=
  s.groupList.any fun g => g.2.ctx == ctx && g.2.queue == q && (match g.2.phase with
    | .finished => false
    | _ => true)

/-- A launch whose stage header failed its check ends once its resident groups have finished (R72). -/
def State.endFailing (s : State) (ctx q : Nat) : State :=
  match (s.lq ctx q).run with
  | some l =>
    match l.failing with
    | some k =>
      if s.hasResident ctx q || l.ending.isSome then s
      else
        let s := (s.groupList.filter fun g => g.2.ctx == ctx && g.2.queue == q).foldl (fun s g => s.setGroup g.1 none) s
        s.endLaunch ctx q 1 k 0
    | none => s
  | none => s

/-- The header check of a stage at its first dispatch (R72, R82): a fault waits, a failed check ends the launch. -/
def State.checkHeader (s : State) (ctx q k : Nat) (l : LaunchRun) : State :=
  let failed (s : State) : State :=
    (s.modLq ctx q fun x => { x with run := some { l with failing := some k } }).endFailing ctx q
  match s.readAcross ctx none (headerAddr (l.stages.getD k {}).entry) 64 with
  | (s, .fault c o) => s.parkLaunch ctx q c o
  | (s, .fail _) => failed s
  | (s, .ok (bs, poi)) =>
    let r := recOf bs
    if poi || !khdrOk r then failed s
    else s.modLq ctx q fun x => { x with run := some (l.modStage k fun r' => { r' with hdr := some (khdrOf r) }) }

/-- Whether a launch whose record fired while its context was not current is still to start, before any untriggered dispatch (R99). -/
def State.firedFirst (s : State) (ctx : Nat) : Bool :=
  match s.sch.firedOrder.find? (·.1 == ctx) with
  | some x => x.2 < 64
  | none => false

/-- Whether a core can take a group now, or check the header of a stage for one (R91). -/
def State.canTake (s : State) (ctx core : Nat) : Bool := s.schedules && !s.firedFirst ctx && (s.pick ctx core).isSome

/-- Whether a core of the same cluster that is considered before it could take a group (R91). -/
def State.lowerTakes (s : State) (ctx core : Nat) : Bool :=
  (List.range (core % 6)).any fun i => (s.pick ctx (core / 6 * 6 + i)).isSome

/-- GROUP_DISPATCH (R91): the core takes a group, or its stage's header is checked first; the cores of a cluster in ascending number. The rotation
pointers move when a group is dispatched. -/
def execGroupDispatch (core : Nat) (s : State) : Res :=
  match s.current with
  | none => notNow "GROUP_DISPATCH"
  | some ctx =>
    if !s.schedules || !s.pw.runs (core / 6) || s.firedFirst ctx || s.lowerTakes ctx core then notNow "GROUP_DISPATCH"
    else
      match s.pick ctx core with
      | none => notNow "GROUP_DISPATCH"
      | some (q, k) =>
        match (s.lq ctx q).run with
        | none => notNow "GROUP_DISPATCH"
        | some l =>
          match (l.sr.getD k {}).hdr with
          | none => .next (s.checkHeader ctx q k l)
          | some h =>
            match s.placeFor (ctx, q, k) (l.stages.getD k {}) (l.sr.getD k {}) h core with
            | some (sl, ix) =>
              .next (({ s with sch.rotQ := tabSet s.sch.rotQ (core / 6) ((q + 1) % 64) }).dispatch ctx q k { l with srot := (k + 1) % 8 }
                h sl ix)
            | none => notNow "GROUP_DISPATCH"

/-! ## Finish and retirement (R88 to R93, R292) -/

/-- Whether an engine operation still runs for a column: every operation it forked must have completed (R292). -/
def State.columnBusy (s : State) (col : Nat) : Bool :=
  let c := s.col col
  c.live != 0 || !c.results.isEmpty || !c.reqs.isEmpty || !c.sendq.isEmpty || !c.unacked.isEmpty || !c.tokens.isEmpty

/-- Whether a group can finish. -/
def State.canFinish (s : State) (gid : Nat) (g : Group) : Bool :=
  g.phase == .running && g.cols.all (fun c => !s.columnBusy c)
    && !s.ops.any (fun e => match e.2 with
      | some o => o.body.ofGroup gid g.cols || (o.ctx == g.ctx && o.body.joined.any fun m => g.cols.contains m.1)
      | none => false)
    && !s.mintq.any (fun e => e.2.any fun m => m.group == gid)

/-- GROUP_FINISH (R92, R93, R292): the group leaves its columns; its stores are already visible, so its release needs no step. -/
def execGroupFinish (group : Nat) (s : State) : Res :=
  match s.group group with
  | none => notNow "GROUP_FINISH"
  | some g =>
    if !s.canFinish group g then notNow "GROUP_FINISH"
    else
      let s := ((s.evict group g).dropReps g).setGroup group (some { g with phase := .finished, tEnd := s.tick })
      let s := s.freeCores g.cores
      let s := s.modLq g.ctx g.queue fun q => { q with run := q.run.map fun l => l.modStage g.stage fun r =>
        { r with fin := r.fin ++ [g.index] } }
      let s := match s.sch.sw with
        | some w => { s with sch.sw := some { w with metB := w.metB && Config.usBetween w.cut s.tick ≤ w.bound } }
        | none => s
      .next (s.endFailing g.ctx g.queue)

/-- Ends a launch whose stages have all completed (R90). -/
def State.endIfDone (s : State) (ctx q : Nat) : State :=
  match (s.lq ctx q).run with
  | some l =>
    if l.failing.isNone && l.ending.isNone && !l.stages.isEmpty && (List.range l.stages.length).all l.stageDone then
      s.endLaunch ctx q 0 0 0
    else s
  | none => s

/-- GROUP_RETIREMENT (R88, R89, R92): in index order. -/
def execGroupRetirement (group : Nat) (s : State) : Res :=
  match s.group group with
  | none => notNow "GROUP_RETIREMENT"
  | some g =>
    match (s.lq g.ctx g.queue).run with
    | none => notNow "GROUP_RETIREMENT"
    | some l =>
      if g.phase ≠ .finished ∨ (l.sr.getD g.stage {}).ret ≠ g.index then notNow "GROUP_RETIREMENT"
      else
        let l := g.outRuns.foldl (fun l o => l.modStage o.stage fun r =>
          { r with
            runs := if o.filled = 0 then r.runs else r.runs ++ [⟨o.start, o.filled, 0⟩]
            busy := r.busy.filter fun i => !(o.start + o.filled ≤ i && i < o.start + o.len) }) l
        let l := l.modStage g.stage fun r =>
          { r with ret := r.ret + 1, fin := r.fin.erase g.index, busy := r.busy.filter fun i => !g.items.contains i
                   runs := r.runs.filter fun x => x.taken < x.len
                   durs := (Config.usBetween g.tDisp g.tEnd :: r.durs).take 16 }
        let s := (s.modLq g.ctx g.queue fun q => { q with run := some l }).setGroup group none
        .next (s.endIfDone g.ctx g.queue)

end Sys2Proof.Machine
end

