-- ==== Sys2Proof/Machine/Manage.lean ====
section
/-!
DEFINITION. Management records and pre-emption (R73, R75, R101 to R104, R423, R424, R433, R464, R466, R467).
-/

namespace Sys2Proof.Machine

/-! ## The options of a pre-emption (R101, R102) -/

/-- Whether a group holds a registered restart label (R303). -/
def State.hasLabel (s : State) (g : Group) : Bool := g.cols.all fun c => (s.col c).rst != 0xFFFFFFFF

/-- Whether a group's columns hold a handle in STATE 1 (R433). -/
def State.holdsRunning (s : State) (g : Group) : Bool :=
  g.cols.any fun c => (List.range 16).any fun h => (tabGet s.handles (handleKey c h)).toNat % 8 == 1

def State.mayFlush (s : State) (g : Group) : Bool := s.hasLabel g && g.hdr.recomp && !s.holdsRunning g
def State.maySave (s : State) (g : Group) : Bool := g.hdr.na == 0 || s.hasLabel g

/-- Bytes of a column's save area for the cost of a save, and for a flush (R102). -/
def saveBytes (h : KHdr) : Nat := 1152 + 132 * h.nv + 8 * h.ns + 32 * h.nt
def flushBytes (h : KHdr) : Nat := 384 + 8 * h.ns + 32 * h.nt

/-- The common multiple of 1 to 16, so that a mean over up to 16 groups is exact. -/
def lcm16 : Nat := 720720

/-- `lcm16` times the mean duration of the stage's last 16 retired groups, if any (R102). -/
def State.meanDur (s : State) (g : Group) : Option Nat :=
  match (s.lq g.ctx g.queue).run with
  | none => none
  | some l =>
    let d := (l.sr.getD g.stage {}).durs
    if d.isEmpty then none else some (lcm16 * d.foldl (· + ·) 0 / d.length)

/-- The groups that share an option: those resident on one core at levels 1 and 2 (R101), else one group. -/
def State.units (s : State) : List (List (Nat × Group)) :=
  let gs := s.groupList.filter fun g => g.2.phase == .running
  let low := gs.filter fun g => g.2.hdr.level ≤ 2
  let cores := (low.flatMap fun g => g.2.cores).eraseDups
  cores.map (fun k => low.filter fun g => g.2.cores.contains k)
    ++ (gs.filter fun g => 2 < g.2.hdr.level).map fun g => [g]

/-- Costs in 1 ÷ (900 × `lcm16`) µs: bytes ÷ 0.9 GB/s, summed over the eight columns of a core, the largest over the unit's cores (R102); none is
unknown. -/
def State.costOf (s : State) (u : List (Nat × Group)) (o : PreOpt) : Option Nat :=
  let perCore (k : Nat) : Nat :=
    let h := ((u.find? fun g => g.2.cores.contains k).map (·.2.hdr)).getD {}
    match o with
    | .flush => 8 * flushBytes h
    | _ => 8 * saveBytes h + 2 ^ 20
  match o with
  | .drain =>
    u.foldl (fun m g => match m, s.meanDur g.2 with
      | some a, some b => some (max a (900 * (b - lcm16 * Config.usBetween g.2.tDisp s.tick)))
      | _, _ => none) (some 0)
  | _ => some (lcm16 * ((u.flatMap fun g => g.2.cores).eraseDups.map perCore).foldl max 0)

def costLe (a b : Option Nat) : Bool :=
  match a, b with
  | _, none => true
  | none, some _ => false
  | some x, some y => x ≤ y

/-- The option of a unit and whether it meets the bound (R102): the cheapest allowed option that meets it, else the cheapest
allowed one; at equal cost flush, then save, then drain. -/
def State.chooseOpt (s : State) (bound : Nat) (u : List (Nat × Group)) : PreOpt × Bool :=
  let opts : List PreOpt := (if u.all (fun g => s.mayFlush g.2) then [.flush] else [])
    ++ (if u.all (fun g => s.maySave g.2) then [.save] else []) ++ [.drain]
  let meets (o : PreOpt) : Bool := match s.costOf u o with
    | some c => c ≤ 900 * lcm16 * bound
    | none => false
  let cheapest (l : List PreOpt) : PreOpt :=
    (l.find? fun o => l.all fun p => costLe (s.costOf u o) (s.costOf u p)).getD .drain
  let ok := opts.filter meets
  if ok.isEmpty then (cheapest opts, false) else (cheapest ok, true)

/-! ## Switching (R75) -/

/-- The switch event (R465). -/
def State.switchEvent (s : State) (w : Switch) (same : Bool) : State :=
  s.postEvent 11 w.newCtx (Config.usBetween w.cut s.tick % 2 ^ 32 + at_ (if w.metB then 1 else 0) 32
    + at_ (if w.estB then 1 else 0) 33 + at_ w.old 34 + at_ (if w.noneCur then 1 else 0) 38 + at_ (if same then 1 else 0) 39)

/-- SWITCH_CONTEXT (R73, R75): the switch whose cut its acceptance was goes on: every resident group gets its option. The cut of a record with a
trigger is here (log entry 45), and not while a recovery is in progress. -/
def execSwitchContext (s : State) : Res :=
  match s.mgmtHead 0x10 with
  | none => notNow "SWITCH_CONTEXT"
  | some (r, rest) =>
    if recTrig r ≠ 0 ∧ s.recov.isSome then notNow "SWITCH_CONTEXT" else
    let new := fieldNat r 195 192
    let cut := if recTrig r = 0 then s.sch.cuts.headD s.tick else s.tick
    let s := s.popMgmt rest
    let s := if recTrig r = 0 then { s with sch.cuts := s.sch.cuts.tail } else s
    let us := s.units.map fun u => (u, s.chooseOpt (fieldNat r 255 224) u)
    let plan := us.flatMap fun x => x.1.map fun g => (g.1, x.2.1)
    let w : Switch := ⟨new, fieldNat r 255 224, cut, s.tabs.curCtx, s.tabs.noCtx, plan, false, true, us.all (·.2.2)⟩
    if s.current = some new then
      .next ({ s with tabs.switching := s.cutDue, sch.stopped := s.cutDue }.switchEvent { w with plan := [], estB := true } true)
    else .next { s.cut new with sch.sw := some w }

/-- The groups still resident that will be saved or flushed. -/
def State.preGroups (s : State) (w : Switch) : List (Nat × Group × PreOpt) :=
  w.plan.filterMap fun p => (s.group p.1).bind fun g =>
    if g.phase == .running && p.2 != .drain then some (p.1, g, p.2) else none

/-- Whether a drained group is still resident. -/
def State.draining (s : State) (w : Switch) : Bool :=
  w.plan.any fun p => p.2 == .drain && (match s.group p.1 with
    | some g => g.phase == .running
    | none => false)

/-- Whether the second pass of a pre-emption is due (R103): a core in deterministic mode ends the rotation step in progress
and begins no other (R148). -/
def State.secondPass (s : State) : Bool :=
  match s.sch.sw with
  | some w => !w.pass2 && !s.draining w
  | none => false

/-- Whether a group can stop now: a deterministic one only at the end of a rotation step (R148). -/
def State.mayStop (s : State) (g : Group) : Bool := !g.hdr.det || g.cores.all fun k => (s.core k).between

/-- A result that a pre-emption awaits (R103): not a receipt phase, not the mint's. -/
def Await.awaited : Await → Bool
  | .phase _ _ _ => false
  | .mint _ => false
  | _ => true

/-- Whether a column's outstanding results and accesses that a pre-emption awaits are done (R103). -/
def Column.quiet (c : Column) : Bool :=
  c.results.all (fun r => !r.await.awaited) && c.reqs.isEmpty && c.sendq.isEmpty
    && slots4.all (fun k => (c.slot k).exiting == 0)

/-- Whether an engine operation must complete before its group stops under a save (R372, R424): fills, stores, zeros, and copies with
all their slices. -/
def State.mustEnd (s : State) (b : OpBody) (save : Bool) : Bool :=
  match b with
  | .copy o => save && s.copyJoined o
  | .tile _ => save
  | .tzero _ _ => true
  | .page _ => true
  | _ => false

/-- Whether a group can be saved or flushed: what is awaited has come, and no split is still to enter its trap handler. -/
def State.groupQuiet (s : State) (gid : Nat) (g : Group) (o : PreOpt) : Bool :=
  g.cols.all (fun c => (s.col c).quiet && slots4.all fun k => ((s.col c).slot k).cond != .trapping)
    && !s.ops.any (fun e => match e.2 with
      | some x => x.body.ofGroup gid g.cols && s.mustEnd x.body (o == .save)
      | none => false)

/-- Stops a column for pre-emption (R103): no further word issues. A word that has met a fault of its own will issue again (R189). A split that is to
enter its trap handler enters it first; where that waits for a receipt phase or the mint, which no pre-emption awaits, or for the translation of its
table (`parked`), the trapping word will issue again (DESIGN CHOICE, log entry 45). -/
def Column.halt (c : Column) (parked : Nat → Bool) : Column :=
  let c := { c with frozen := true }
  slots4.foldl (fun c k =>
    let sp := c.slot k
    if sp.lanes = 0 then c
    else if sp.cond = .trapping then
      if parked k || c.results.any fun r => r.lanes &&& sp.lanes != 0 && !r.await.awaited then
        c.setSlot k { sp with mask := sp.lanes, held := 0, cond := c.restCond sp.lanes, trap := {} }
      else c
    else c.setSlot k { sp with cond := c.restCond sp.lanes, runLen := 0, pend := [] }) c

/-- Every vault writes back its dirty lines (R75 step 4, R122 step 6). -/
def State.writeBackAll (s : State) : State :=
  let blks := s.heldBlocks
  blks.foldl (fun s b => s.cleanBlock (placeOf (256 * b))) s

/-- Restores the saved groups of a context to their slots (R104). -/
def State.restoreGroups (s : State) (ctx : Nat) : State :=
  let gs := s.groupList.filter fun g => g.2.ctx == ctx && (match g.2.phase with
    | .saved _ => true
    | _ => false)
  gs.foldl (fun s x =>
    let g := x.2
    let o : PreOpt := match g.phase with
      | .saved o => o
      | _ => .save
    let colOn (k : Nat) : Nat := (g.cols.find? fun c => coreOf c == k).getD (8 * k)
    let rot (k : Nat) : Nat := if o = .save then s.tierNat (colOn k) (s.saveoff ctx + 24) 4 / 32 % 16 else 0
    let s := g.cores.foldl (fun s k =>
      if (s.core k).held.isSome then s
      else
        let k0 : CoreSt := { held := some (g.ctx, g.queue, g.stage), win := g.hdr.win, det := g.hdr.det, rot := rot k }
        let s := { s with cores := tabSet s.cores k k0 }
        let s := s.spadZero k 0 (2 ^ 20)
        if o = .save then s.imageIn (8 * k) (s.saveoff ctx + 192 * 1024) k 0 (winBytes g.hdr.win / 4) else s) s
    let s := s.setGroup x.1 (some { g with phase := .running, keep := [] })
    (s.groupIdx g).foldl (fun s y => s.restoreColumn x.1 g o y.1 y.2) s) s

/-- SWITCH_CONTEXT_COMPLETE (R75 steps 4 to 7, R99, R104). -/
def execSwitchContextComplete (s : State) : Res :=
  match s.sch.sw with
  | none => notNow "SWITCH_CONTEXT_COMPLETE"
  | some w =>
    if !w.pass2 then notNow "SWITCH_CONTEXT_COMPLETE"
    else
      let s := { s.writeBackAll with replicas := [] }
      let s := if w.noneCur then s else s.putCtxState w.old 1
      let s := s.putCtxState w.newCtx 2
      let s := { s with tabs.curCtx := w.newCtx, tabs.noCtx := false, sch.sw := none }
      let s := { s with tabs.switching := s.cutDue, sch.stopped := s.cutDue }
      let s := s.restoreGroups w.newCtx
      .next (s.switchEvent w false)

/-! ## Other management records (R73, R464, R467) -/

/-- The signal of a management record in execution, through the current context's tables (R464): with no context current there are no
tables, and the signal is not performed. One to another module is a packet, and the record is in execution until its acknowledgement. -/
def State.runSignal (s : State) (r : Rec64) : State :=
  let a := fieldNat r 255 192
  if s.away a then
    let (s, tag) := s.sendAway kSemsg .n64 0 a [⟨0, BitVec.ofNat 64 a, 8, fieldBits r 256 64, 0, false⟩]
    { s with sch.mgmtExec := some r, sch.mgmtSent := some tag }
  else if s.tabs.noCtx then ({ s with sch.mgmtExec := none }).mgmtEvent 65 4 whyProt a
  else
    match s.signalSem s.tabs.curCtx none a (fieldBits r 256 64) false with
    | (s, .ok _) => { s with sch.mgmtExec := none }
    | (s, .fail w) => ({ s with sch.mgmtExec := none }).mgmtEvent 65 4 w a
    | (s, .fault c o) => ({ s with sch.mgmtExec := some r }).parkFault (.ending s.tabs.curCtx 65) s.tabs.curCtx c o .atomic

/-- SIGNAL_SEMAPHORE (R73); a signal that met a full fault buffer tries again (R190). -/
def execSignalSemaphore (s : State) : Res :=
  match s.mgmtHead 0x12, s.sch.mgmtExec with
  | none, some r =>
    if s.sch.mgmtSent.isSome || s.waits (.ending s.tabs.curCtx 65) then notNow "SIGNAL_SEMAPHORE" else .next (s.runSignal r)
  | none, none => notNow "SIGNAL_SEMAPHORE"
  | some (r, rest), _ => .next ((s.popMgmt rest).runSignal r)

/-- Another module has acknowledged the signal of the management record in execution (R464). -/
def State.signalAcked (s : State) (stat : Nat) : State :=
  match s.sch.mgmtExec with
  | none => s
  | some r =>
    let s := { s with sch.mgmtExec := none, sch.mgmtSent := none }
    match ackWhy stat with
    | some w => s.mgmtEvent 65 4 w (fieldNat r 255 192)
    | none => s

/-- Ends the launches, collectives and triggers of a context and discards its groups (R467, R122 steps 2 to 5): of queue q the first `upto q` accepted
records, of the collective port those numbered below `coll`. -/
def State.discardContext (s : State) (ctx status fail : Nat) (upto : Nat → Nat) (coll : Nat) : State :=
  let later (port : Nat) : Bool :=
    if port = 64 then match s.sch.collq with
      | c :: _ => decide (coll ≤ c.num)
      | [] => false
    else (s.lq ctx port).run.isNone && decide (upto port ≤ (s.lq ctx port).accepted - (s.lq ctx port).recs.length)
  let old (c : SubRec) : Bool := c.ctx == ctx && decide (c.num < coll)
  let s := (s.groupList.filter fun g => g.2.ctx == ctx).foldl (fun s g => s.discardGroup g.1 g.2) s
  let s := s.abortOps fun o => o.ctx == ctx
  let s := { s with
    sch.collq := s.sch.collq.filter fun c => !old c
    sch.collRun := s.sch.collRun.filter fun c => !old c
    sch.collTrig := match s.sch.collq with
      | c :: _ => if old c then .idle else s.sch.collTrig
      | [] => .idle }
  let s := s.freeTrigs ctx later
  let s := s.dropFaults fun w => match w with
    | .fired c _ => c == ctx
    | _ => false
  let s := s.endAll ctx status fail upto
  (s.arm ctx 64).armWaiting

/-- ABORT_CONTEXT (R73, R467): it ends what was accepted before it. A context that is current becomes not current, and no context is. -/
def execAbortContext (s : State) : Res :=
  match s.mgmtHead 0x13 with
  | none => notNow "ABORT_CONTEXT"
  | some (r, rest) =>
    let ctx := fieldNat r 195 192
    let (ups, coll) := ((s.sch.aborts.head?).map (·.2)).getD ((List.range 64).map fun q => (s.lq ctx q).accepted, s.sch.collNum)
    let s := { s.popMgmt rest with sch.aborts := s.sch.aborts.tail }
    let cur : Bool := s.current == some ctx
    let s := s.discardContext ctx 3 0 (fun q => ups.getD q 0) coll
    if cur then
      .next { s.putCtxState ctx 1 with tabs := { (s.putCtxState ctx 1).tabs with noCtx := true } }
    else .next s

end Sys2Proof.Machine
end

