-- ==== Sys2Proof/Machine/Recovery.lean ====
section
/-!
DEFINITION. Failures, the column map and recovery (R107, R113 to R126), and the turns of a hosting column (R117).
-/

namespace Sys2Proof.Machine

/-! ## Which logical column runs (R113, R117) -/

/-- Whether a logical column has the turn of the column that runs it: a column without a guest always has. -/
def State.hasTurn (s : State) (col : Nat) : Bool :=
  let e := s.fold col
  match e.st with
  | 0 => true
  | 1 => !tabGet s.foldTurn col
  | 2 => e.host == col || tabGet s.foldTurn e.host
  | _ => false

/-! ## Detection (R107, R121) -/

/-- A failed column stops issuing. -/
def State.freeze (s : State) (col : Nat) : State :=
  let s := if (tabGet s.cols col).isSome then s.modCol col (Column.halt · fun _ => true) else s
  match s.run with
  | some (c, _) => if c = col then { s with run := none } else s
  | none => s

/-- The logical columns that a physical column runs. -/
def State.runsOn (s : State) (col : Nat) : List Nat :=
  let e := s.fold col
  if e.st = 0 ∨ (e.st = 2 ∧ e.host = col) then [col] else if e.st = 1 then [col, e.host] else []

/-- A source of R107 fires for some columns that run something: STATE becomes 6; during a recovery it restarts at contain (R119). -/
def State.detect (s : State) (cols : List Nat) (cause : Nat) (lost : Bool) : State :=
  let fs := (cols.filter fun c => s.runsOn c != []).map fun c => (c, cause)
  if fs.isEmpty && !lost then s
  else
    let r : Recovery := match s.recov with
      | some r => { r with failed := r.failed ++ fs.filter (fun f => !r.failed.contains f), contained := false, lost := r.lost || lost }
      | none => ⟨fs, (fs.headD (cols.headD 0, cause)).1, false, lost⟩
    let s := { s with recov := some r, boot.st := 6 }
    (fs.flatMap fun f => s.runsOn f.1).foldl State.freeze s

/-- Whether the column that runs a logical column has failed, and its recovery is not done (R107): it stops issuing, whatever is placed on it. -/
def State.failedCol (s : State) (col : Nat) : Bool :=
  match s.recov with
  | none => false
  | some r => r.failed.any fun f => f.1 == s.hostOf col

/-- Whether the module runs contexts or recovers. -/
def State.inService (s : State) : Bool := s.boot.st == 5 || s.boot.st == 6

/-- LOGIC_CHECKER_ERROR (R107 cause 1): the column, or all eight columns if the state is core-shared. -/
def execLogicCheckerError (column : Nat) (coreShared : Bool) (s : State) : Res :=
  if s.inService && decide (column < nCols) then
    .next (s.detect (if coreShared then (List.range 8).map fun i => column / 8 * 8 + i else [column]) 1 false)
  else notNow "LOGIC_CHECKER_ERROR"

/-- The columns of some clusters. -/
def clusterCols (cls : List Nat) : List Nat := cls.flatMap fun k => (List.range 48).map fun i => 48 * k + i

/-- Distinct lines of a column's HBM4E slice that have logged kind 2 or 4 within the last hour (R107 cause 2). -/
def State.badLineCount (s : State) (col : Nat) : Nat :=
  (s.pw.badLines.filter fun e => (placeOf (64 * e.1)).col == col && decide (s.nowUs ≤ e.2 + 3600000000)).length

/-- SLICE_FAILURE (R107 cause 2, R13): a channel serves one cluster's slices. -/
def execSliceFailure (cause : SliceCause) (s : State) : Res :=
  if !s.inService then notNow "SLICE_FAILURE"
  else
    match cause with
    | .channelDown k => if k < 768 then .next (s.detect (clusterCols [k]) 2 false) else notNow "SLICE_FAILURE"
    | .stackDown t => if t < 24 then .next (s.detect (clusterCols (stackClusters t)) 2 false) else notNow "SLICE_FAILURE"
    | .badLines c => if c < nCols ∧ 16 ≤ s.badLineCount c then .next (s.detect [c] 2 false) else notNow "SLICE_FAILURE"

/-- MODULE LOSS (R126): step event 3, STATE 7, FATAL_N, every column map entry in STATE 3. -/
def State.moduleLoss (s : State) (first cause : Nat) : State :=
  let s := s.postEvent 10 first (3 + at_ cause 4)
  { s with
    boot.st := 7
    pw.fatal := true
    tabs.cmap := (List.range nCols).map fun c => (c, some { s.fold c with st := 3 }) }

/-- Zero, unpoisoned bytes from a memory key on. -/
def State.clearMem (s : State) (key n : Nat) : State :=
  { s with
    mem := tabClear s.mem key n
    pois := tabClear s.pois (key / 64) (n / 64)
    dirty := tabClear s.dirty (key / 64) (n / 64)
    upsets := tabClear s.upsets (key / 64) (n / 64)
    modes := tabClear s.modes (key / 256) (n / 256)
    vault := tabClear s.vault (key / 256) (n / 256)
    imgPois := tabClear s.imgPois (key / 4) (n / 4) }

/-- SECOND_TIER_CHANNEL_DOWN (R107 cause 5): a second-tier channel of a die serves the eight clusters of one row (R12). What their slices of it hold is
lost: it reads as what nothing has written (log entry 1); and its loss is a module loss (R13), whose event names the recovery's first failed column
(R125). -/
def execSecondTierChannelDown (channel : Nat) (s : State) : Res :=
  if s.inService && decide (channel < 96) then
    let cs := clusterCols ((List.range 8).map fun x => 64 * (channel / 8) + 8 * (channel % 8) + x)
    let s := cs.foldl (fun s c => s.clearMem (Place.addr ⟨c, true, 0⟩) (2 ^ 27)) (s.detect cs 5 true)
    .next (s.moduleLoss (((s.recov.map (·.first))).getD (cs.headD 0)) 5)
  else notNow "SECOND_TIER_CHANNEL_DOWN"

/-- HEARTBEAT_POLL (R22, R107 cause 4): two missed polls in a row fail the cluster's columns, which is a module loss (R114). Jasper answers
for a clock-gated cluster. -/
def execHeartbeatPoll (cluster : Nat) (answered : Bool) (s : State) : Res :=
  if s.inService && decide (cluster < 768) then
    if answered || s.pw.point cluster == 4 then .next { s with pw.missed := tabSet s.pw.missed cluster 0 }
    else
      let n := tabGet s.pw.missed cluster + 1
      let s := { s with pw.missed := tabSet s.pw.missed cluster n }
      .next (if n = 2 then s.detect (clusterCols [cluster]) 4 true else s)
  else notNow "HEARTBEAT_POLL"

/-- Whether a column has a variable-latency result outstanding that is neither parked on a fault nor waiting for a credit (R107). -/
def State.watched (s : State) (col : Nat) : Bool :=
  let sent (t : Nat) : Bool := !(s.col col).sendq.any (·.req == t) && !s.faults.any (fun f => match f.waiter with
    | .packet p => p.req == t && pktSrc p == col
    | _ => false)
  (s.col col).results.any fun r => match r.await with
    | .reply t => sent t
    | .item t => sent t
    | .op o => !s.faults.any (fun f => f.waiter == .engine o)
    | _ => true

/-- WATCHDOG_EXPIRY (R107 cause 3): the column's own and its guest's results; 20 ms is timing. -/
def execWatchdogExpiry (column : Nat) (s : State) : Res :=
  if s.inService && decide (column < nCols) && (s.runsOn column).any s.watched then .next (s.detect [column] 3 false)
  else notNow "WATCHDOG_EXPIRY"

/-! ## The fold plan (R114) -/

/-- A column that may take a guest: live, not failed, hosting none. -/
def canHost (failed : List Nat) (m : Nat → FoldEnt) (c : Nat) : Bool := (m c).st == 0 && !failed.contains c

/-- The new entry of one logical column: self fold, column fold, core fold onto the core chosen for its own core. -/
def foldOne (failed : List (Nat × Nat)) (m : Nat → FoldEnt) (coreHost : Option Nat) (g cause : Nat) : Option FoldEnt :=
  let fs := failed.map (·.1)
  if fs.contains g ∧ (failed.filter (·.1 == g)).all (·.2 == 2) then some ⟨2, 2, 2, g⟩
  else
    match ((List.range 8).map fun i => g / 8 * 8 + i).find? fun c => c ≠ g && canHost fs m c with
    | some h => some ⟨2, cause, 1, h⟩
    | none => coreHost.map fun k => ⟨2, cause, 3, 8 * k + g % 8⟩

/-- The core that hosts a core of which every column has failed: the lowest of its cluster with eight live columns and no guest. -/
def coreHostOf (failed : List Nat) (m : Nat → FoldEnt) (core : Nat) : Option Nat :=
  let cols (k : Nat) : List Nat := (List.range 8).map fun i => 8 * k + i
  if (cols core).all fun c => failed.contains c || (m c).st == 2 then
    ((List.range 6).map fun i => core / 6 * 6 + i).find? fun k => (cols k).all (canHost failed m)
  else none

/-- Folds a list of (logical column, cause, host core for its core), each on the map that the earlier ones have left. -/
def foldAll (failed : List (Nat × Nat)) (base : Nat → FoldEnt) :
    List (Nat × Nat × Option Nat) → List (Nat × FoldEnt) → Option (List (Nat × FoldEnt))
  | [], acc => some acc
  | (g, cause, k) :: rest, acc =>
    let m (c : Nat) : FoldEnt := match acc.find? (·.1 == c) with
      | some e => e.2
      | none => match acc.find? (fun e => e.2.host == c && e.1 != c) with
        | some e => ⟨1, 0, 0, e.1⟩
        | none => base c
    match foldOne failed m k g cause with
    | some e => foldAll failed base rest (acc ++ [(g, e)])
    | none => none

/-- The fold of every logical column that a failed column ran, in ascending order; none is a module loss. A core that an earlier core fold
has taken is no host any more. -/
def State.foldPlan (s : State) (failed : List (Nat × Nat)) : Option (List (Nat × FoldEnt)) :=
  let fs := failed.map (·.1)
  let gs := (failed.flatMap fun f => (s.runsOn f.1).map fun g => (g, f.2))
  let want := (List.range nCols).filterMap fun g => (gs.find? (·.1 == g)).map fun x => (g, x.2)
  let cores := (want.map fun x => x.1 / 8).eraseDups
  let hosts := cores.foldl (fun (acc : List (Nat × Option Nat)) k =>
    acc ++ [(k, coreHostOf fs (fun c => if acc.any fun x => x.2 == some (c / 8) then ⟨1, 0, 0, c⟩ else s.fold c) k)]) []
  foldAll failed s.fold (want.map fun x => (x.1, x.2, ((hosts.find? (·.1 == x.1 / 8)).bind (·.2)))) []

/-! ## Contain (R122) -/

/-- Packets on their way to the columns of discarded groups are dropped. -/
def State.dropArriving (s : State) (cols : List Nat) : State :=
  { s with net := s.net.filter fun p => !((pktHere p) && cols.contains (pktDest p)) }

/-- CONTAIN (R114, R122, R126): on the context current once the switches whose cut has been made have completed. -/
def execContain (s : State) : Res :=
  match s.recov with
  | none => notNow "CONTAIN"
  | some r =>
    if r.contained || s.sch.sw.isSome || s.sch.cuts != [] then notNow "CONTAIN"
    else
      let s := match s.current with
        | none => s
        | some ctx =>
          let cols := s.groupList.flatMap fun (g : Nat × Group) => if g.2.ctx == ctx && g.2.phase == GPhase.running then g.2.cols else []
          (s.dropArriving cols).discardContext ctx 4 1 (fun q => (s.lq ctx q).accepted) s.sch.collNum
      let s := s.writeBackAll
      let s := { s with recov := some { r with contained := true } }
      let cause := ((r.failed.find? (·.1 == r.first)).getD (0, 4)).2
      if s.boot.st = 7 then .next { s with recov := none }
      else if r.lost || (s.foldPlan r.failed).isNone then .next { s.moduleLoss r.first cause with recov := none }
      else .next (s.postEvent 10 r.first (1 + at_ cause 4))

/-! ## Fold and remap (R116) -/

/-- A table without its entries in a key range, and with those of another table's range put there. -/
def tabCopy {α : Type} [DecidableEq α] [Inhabited α] (t src : Tab α) (lo n from_ : Nat) : Tab α :=
  tabSetAll (tabClear t lo n) ((src.filter fun e => from_ ≤ e.1 && e.1 < from_ + n).map fun e => (e.1 - from_ + lo, e.2))

/-- Bytes and poison of an earlier state copied from one memory key to another. -/
def State.copyMem (s s0 : State) (key n from_ : Nat) : State :=
  { s with
    mem := tabCopy s.mem s0.mem key n from_
    pois := tabCopy s.pois s0.pois (key / 64) (n / 64) (from_ / 64) }

/-- The memory key of a column's fold reserve. -/
def reserveKey (col : Nat) : Nat := (⟨col, true, foldReserve⟩ : Place).addr

/-- The translation ranges of the contexts in STATE 1 to 3, as slice offsets (R115). -/
def State.transRanges (s : State) : List Nat :=
  ((List.range 16).filter fun c => 1 ≤ ctxState (s.ctxEnt c) && ctxState (s.ctxEnt c) ≤ 3).map fun c =>
    ctxTransoff (s.ctxEnt c)

/-- The reserve in which a logical column's translation range lies or is mirrored (R115, R116). -/
def State.tablesKey (s : State) (g : Nat) : Nat :=
  let e := s.fold g
  reserveKey (if e.st = 0 then g else e.host)

/-- Re-homes the slices of a fold plan: the reserves of guest and host are emptied, then take the guest's tables and the host's mirror. A slice that
lies in its own column's reserve already stays there. -/
def State.rehome (s : State) (plan : List (Nat × FoldEnt)) : State :=
  let s0 := s
  let plan := plan.filter fun x => !(x.2.host == x.1 && (s0.fold x.1).st == 2 && (s0.fold x.1).host == x.1)
  let s := plan.foldl (fun s x => (s.clearMem (reserveKey x.1) (2 ^ 25)).clearMem (reserveKey x.2.host) (2 ^ 25)) s
  let put (s : State) (into src : Nat) : State :=
    s0.transRanges.foldl (fun s t => s.copyMem s0 (into + t) (2 ^ 21) (src + t)) s
  plan.foldl (fun s x =>
    let s := put s (reserveKey x.2.host) (s0.tablesKey x.1)
    if x.2.host = x.1 then s else put s (reserveKey x.1) (s0.tablesKey x.2.host)) s

/-- FOLD_AND_REMAP (R114, R116, R121, R125). -/
def execFoldAndRemap (s : State) : Res :=
  match s.recov with
  | none => notNow "FOLD_AND_REMAP"
  | some r =>
    if !r.contained then notNow "FOLD_AND_REMAP"
    else
      match s.foldPlan r.failed with
      | none => notNow "FOLD_AND_REMAP"
      | some plan =>
        let s := s.rehome plan
        let s := plan.foldl (fun s x =>
          let m := tabSet s.tabs.cmap x.1 (some x.2)
          let m := if x.2.host = x.1 then m else tabSet m x.2.host (some ⟨1, 0, 0, x.1⟩)
          { s with tabs.cmap := m, foldTurn := tabSet s.foldTurn x.2.host false }) s
        let s := plan.foldl (fun s x => s.postEvent 9 x.1 (x.2.fold + at_ x.2.cause 4 + at_ x.2.host 8)) s
        let cause := ((r.failed.find? (·.1 == r.first)).getD (0, 0)).2
        let s := s.postEvent 10 r.first (2 + at_ cause 4)
        .next { s with boot.st := 5, recov := none }

end Sys2Proof.Machine
end

