-- ==== Sys2Proof/Machine/Operands.lean ====
section
/-!
DEFINITION. How a word reads its operands and writes its results (R272, R273), and what it meets before its own effect: checks 6 to 8
of R269 (R140, R141, R112).
-/

namespace Sys2Proof.Machine

/-! ## Reading (R272) -/

/-- rd: the value of an operand in a lane. -/
def Column.rd (c : Column) (o : Opnd) (wide : Bool) (l : Nat) : Nat :=
  match o with
  | .v n => (c.rdV n.toNat l).toNat + (if wide then 2 ^ 32 * (c.rdV (n.toNat + 1) l).toNat else 0)
  | .s n => if wide then (c.rdS n.toNat).toNat else (c.rdS n.toNat).toNat % 2 ^ 32
  | .p n => if (c.rdP n.toNat).getLsbD l then 1 else 0
  | .j n => (c.rdJ n.toNat).toNat
  | .lane => l
  | .col => c.idx % 2 ^ 32
  | _ => 0

/-- The poison of an operand in a lane. -/
def Column.rdPois (c : Column) (o : Opnd) (wide : Bool) (l : Nat) : Bool :=
  match o with
  | .v n => c.rdVp n.toNat l || (wide && c.rdVp (n.toNat + 1) l)
  | .s n => c.rdSp n.toNat
  | .p n => (c.rdPp n.toNat).getLsbD l
  | _ => false

/-- What a word is executed with: the machine, the issuing column and slot, the column's record, the split, the header, the word
and the enabled lanes. -/
structure Ctx where
  s : State
  col : Nat
  k : Nat
  c : Column
  sp : Split
  h : KHdr
  w : Full
  en : Mask
  deriving DecidableEq, Repr

/-- A value or poison of A, B or C in a lane. -/
def Ctx.ra (x : Ctx) (wide : Bool) (l : Nat) : Nat := x.c.rd x.w.a wide l
def Ctx.rb (x : Ctx) (wide : Bool) (l : Nat) : Nat := x.c.rd (opB x.w) wide l
def Ctx.rc (x : Ctx) (wide : Bool) (l : Nat) : Nat := x.c.rd (opC x.w) wide l
def Ctx.rdd (x : Ctx) (wide : Bool) (l : Nat) : Nat := x.c.rd x.w.d wide l
def Ctx.qa (x : Ctx) (wide : Bool) (l : Nat) : Bool := x.c.rdPois x.w.a wide l
def Ctx.qb (x : Ctx) (wide : Bool) (l : Nat) : Bool := if isImm x.w then false else x.c.rdPois (opB x.w) wide l
def Ctx.qc (x : Ctx) (wide : Bool) (l : Nat) : Bool := x.c.rdPois (opC x.w) wide l
def Ctx.qd (x : Ctx) (wide : Bool) (l : Nat) : Bool := x.c.rdPois x.w.d wide l

/-- Whether a lane is enabled. -/
def Ctx.on (x : Ctx) (l : Nat) : Bool := x.en.getLsbD l

/-- Whether an operand is a uniform register. -/
def isUni : Opnd → Bool
  | .s _ => true
  | _ => false

/-- The guard of a word over all lanes (R258). -/
def Column.guard (c : Column) (g : Nat) (gn : Bool) : Mask := if gn then ~~~(c.rdP g) else c.rdP g

def State.ctxFor (s : State) (col k : Nat) (w : Full) : Ctx :=
  let c := s.col col
  let sp := c.slot k
  ⟨s, col, k, c, sp, s.hdr col, w, sp.mask &&& c.guard w.g.toNat w.gn⟩

/-! ## Writing (R210, R273) -/

/-- The 64 bits of a 32-bit result in a uniform register. -/
def ext64 (sgn : Bool) (v : Nat) : DWord :=
  if sgn then (BitVec.ofNat 32 v).signExtend 64 else BitVec.ofNat 64 (v % 2 ^ 32)

/-- wr: the register writes of one lane's result; `sgn` extends a 32-bit result written to a uniform register. -/
def wrOne (d : Opnd) (wide sgn : Bool) (l v : Nat) (q : Bool) : List RWrite :=
  match d with
  | .v n =>
    let lo := RWrite.vec n.toNat l (BitVec.ofNat 32 v) q
    if wide then [lo, .vec (n.toNat + 1) l (BitVec.ofNat 32 (v / 2 ^ 32)) q] else [lo]
  | .s n => [.uni n.toNat (if wide then BitVec.ofNat 64 v else ext64 sgn v) q]
  | .p n => [.prd n.toNat l (v % 2 == 1) q]
  | _ => []

/-- The lanes in which a word computes: each enabled one, or once for a uniform destination (R273). -/
def Ctx.lanesFor (x : Ctx) (d : Opnd) : List Nat :=
  if isUni d then (if x.en = 0 then [] else [lowLane x.en]) else lanesOf x.en

/-- The template of R272: the writes and flags of a computation in every lane that computes. -/
def Ctx.map (x : Ctx) (d : Opnd) (wide sgn : Bool) (f : Nat → Nat × Bool × FpFlags) : List RWrite × FpFlags :=
  (x.lanesFor d).foldl (fun (acc : List RWrite × FpFlags) l =>
    let r := f l
    (acc.1 ++ wrOne d wide sgn l r.1 r.2.1, acc.2 ||| r.2.2)) ([], 0)

/-- A fixed-latency result: written at once, as no later word can see it earlier (R139). -/
def Ctx.fixed (x : Ctx) (r : List RWrite × FpFlags) : Eff :=
  let c := x.c.applyWrites r.1
  .go (x.s.setCol x.col { c with fpflags := c.fpflags ||| r.2 }) none false

/-- The registers that some writes name. -/
def regsOf (ws : List RWrite) : List PReg :=
  (ws.filterMap fun w => match w with
    | .vec n _ _ _ => some (PReg.v n)
    | .uni n _ _ => if n = 0 then none else some (PReg.s n)
    | .prd n _ _ _ => if n = 0 then none else some (PReg.p n)).eraseDups

/-- A variable-latency result of slot k: its registers are pending for the rest of the run (R140). -/
def Column.addResult (c : Column) (k : Nat) (writes : List RWrite) (flags : FpFlags) (await : Await) (regs : List PReg) : Column :=
  { c with
    results := c.results ++ [Result.mk c.nextRes (c.slot k).lanes writes flags await]
    nextRes := c.nextRes + 1 : Column }.modSlot k fun sp => { sp with pend := sp.pend ++ regs }

/-- A variable-latency result whose value is ready to be written, with the registers that are pending (R140). With nothing to write it is complete at
once (R354). -/
def Ctx.varOf (x : Ctx) (r : List RWrite × FpFlags) (regs : List PReg) : Eff :=
  if r.1 = [] ∧ r.2 = 0 ∧ regs = [] then .go x.s none false
  else .go (x.s.setCol x.col (x.c.addResult x.k r.1 r.2 .none regs)) none false

/-- One whose pending registers are those that it writes. -/
def Ctx.var (x : Ctx) (r : List RWrite × FpFlags) : Eff := x.varOf r (regsOf r.1)

/-! ## Traps of a word -/

/-- A trap of the word at the split's PC. -/
def Ctx.trap (x : Ctx) (code : Nat) (lanes : Mask) (taddr : DWord) (info : Nat) : Eff :=
  .trap code lanes taddr info x.sp.pc

/-- Trap 0x02 with a reason, over the active lanes. -/
def Ctx.trap2 (x : Ctx) (spec reason : Nat) : Eff := x.trap 2 x.sp.mask 0 (256 * spec + reason)

/-- A trap over failing lanes, with the lowest one's address. -/
def Ctx.trapAt (x : Ctx) (code : Nat) (lanes : Mask) (addr : Nat → DWord) (info : Nat) : Eff :=
  x.trap code lanes (addr (lowLane lanes)) info

/-! ## Pending registers (R140, R141) -/

/-- The registers an operand names, with their specifiers. -/
def regsNamed (o : Opnd) (wide : Bool) : List (Nat × PReg) :=
  match o with
  | .v n => (n.toNat, PReg.v n.toNat) :: (if wide then [(n.toNat + 1, PReg.v (n.toNat + 1))] else [])
  | .s n => [(specOf o, .s n.toNat)]
  | .p n => [(specOf o, .p n.toNat)]
  | .a n => [(specOf o, .a n.toNat)]
  | _ => []

/-- The registers of a word in the order guard, D, A, B, C, then those it reads beyond its fields. -/
def wordRegs (w : Full) (f : Fmt) : List (Nat × PReg) :=
  let fld (g : Fld) (o : Opnd) : List (Nat × PReg) := if g.ks = [] then [] else regsNamed o g.wide
  [(0xC0 + w.g.toNat, .p w.g.toNat)] ++ fld f.d w.d ++ fld f.a w.a
    ++ (if isImm w then [] else fld f.b (opB w) ++ fld f.c (opC w)) ++ f.extra.flatMap fun o => regsNamed o false

/-- The first pending register. -/
def firstPending (pend : List PReg) (regs : List (Nat × PReg)) : Option Nat :=
  (regs.find? fun r => pend.contains r.2).map (·.1)

/-- Whether a register is a pending token register. -/
def Column.tokenPending (c : Column) (regs : List (Nat × PReg)) : Bool :=
  regs.any fun r => match r.2 with
    | .s n => c.tokens.any fun t => t.1 == n
    | _ => false

/-! ## Containment (R112) -/

/-- An operand at a containment point: its specifier, the lanes whose operand is poisoned, the point, and for point 1 the address. -/
structure Pt where
  spec : Nat
  lanes : Mask
  pt : Nat
  addr : Nat → DWord

/-- The enabled lanes in which an operand is poisoned. -/
def Ctx.poisoned (x : Ctx) (o : Opnd) (wide : Bool) : Mask := maskWhere fun l => x.on l && x.c.rdPois o wide l

/-- An operand at a point, and one that is an address. -/
def Ctx.pt (x : Ctx) (o : Opnd) (wide : Bool) (n : Nat) : Pt := ⟨specOf o, x.poisoned o wide, n, fun _ => 0⟩
def Ctx.ptAddr (x : Ctx) (o : Opnd) (wide : Bool) (addr : Nat → DWord) : Pt := ⟨specOf o, x.poisoned o wide, 1, addr⟩

/-- The guard of a word is at point 2 in every active lane. -/
def Ctx.ptGuard (x : Ctx) : Pt :=
  ⟨0xC0 + x.w.g.toNat, x.sp.mask &&& x.c.rdPp x.w.g.toNat, 2, fun _ => 0⟩

/-- Check 8: the containment trap. %tmask holds every lane with a poisoned operand; the first poisoned operand gives %tinfo and %taddr. With several
operands poisoned in different lanes, %taddr is the address of the lowest lane in which that first one is (DESIGN CHOICE, log entry 73). -/
def Ctx.contain (x : Ctx) (pts : List Pt) : Option Eff :=
  match pts.find? fun p => p.lanes != 0 with
  | none => none
  | some p =>
    let m := pts.foldl (fun m q => m ||| q.lanes) (0 : Mask)
    some (x.trap 9 m (if p.pt = 1 then p.addr (lowLane p.lanes) else 0) (256 * p.spec + p.pt))

/-! ## A full word -/

/-- Checks 6 to 8: what stops the word, if anything. -/
def Ctx.early (x : Ctx) (f : Fmt) (pts : List Pt) : Option Eff :=
  match check6 x.h x.w f with
  | some (spec, reason) => some (x.trap2 spec reason)
  | none =>
    let regs := wordRegs x.w f
    match firstPending x.sp.pend regs with
    | some spec => some (x.trap 4 x.sp.mask 0 (256 * spec))
    | none => if x.c.tokenPending regs then some .stall else x.contain (x.ptGuard :: pts)

/-- Checks 6 to 8, then the word's own checks and effect. -/
def Ctx.eff (x : Ctx) (f : Fmt) (pts : List Pt) (body : Ctx → Eff) : Eff :=
  match x.early f pts with
  | some e => e
  | none => body x

/-- Executes a full word in the split that is issuing. -/
def State.word (s : State) (w : Full) (f : KHdr → Full → Fmt) (pts : Ctx → List Pt) (body : Ctx → Eff) : Res :=
  match s.run with
  | none => .fault .noSplit
  | some (col, k) =>
    let x := s.ctxFor col k w
    .next (s.perform col k w.marker (x.eff (f x.h w) (pts x) body))

/-- A word that changes the machine also when it waits or traps: its body answers the state in which its effect is carried out. -/
def State.wordSt (s : State) (w : Full) (f : KHdr → Full → Fmt) (pts : Ctx → List Pt) (body : Ctx → State × Eff) : Res :=
  match s.run with
  | none => .fault .noSplit
  | some (col, k) =>
    let x := s.ctxFor col k w
    match x.early (f x.h w) (pts x) with
    | some e => .next (s.perform col k w.marker e)
    | none =>
      let r := body x
      .next (r.1.perform col k w.marker r.2)

/-- No operand of the word but its guard is at a containment point. -/
def noPts (_ : Ctx) : List Pt := []

end Sys2Proof.Machine
end

