-- ==== Sys2Proof/Machine/Integer.lean ====
section
/-!
DEFINITION. Integer words: the arithmetic mould, carries, wide products, division, shifts, fields, bytes, compare, select, convert (R310 to
R322).
-/

namespace Sys2Proof.Machine

/-- The type sets of R312. -/
def tyZ : List Ty := [.i32, .n32, .i64, .n64]
def tyZp : List Ty := [.i32, .n32, .i64, .n64, .i16x2, .i8x4]
def tyL : List Ty := [.b32, .i32, .n32, .i64, .n64]

/-- The immediate that takes the place of B (R311). -/
def immFor (w : Full) : Nat :=
  match w.ty with
  | .n32 => immN w
  | .n64 => immN w
  | t => packElems (elemBits t) (fun _ => wrapW (elemBits t) (immS w)) (elemCount t)

/-- B or the immediate in a lane. -/
def Ctx.rbi (x : Ctx) (wide : Bool) (l : Nat) : Nat := if isImm x.w then immFor x.w else x.rb wide l

/-- Words of the mould with two sources, one source, three sources. -/
def fmt2 (tys : List Ty) (i : Bool) (xs : List (Nat × Nat × (Nat → Bool))) (_ : KHdr) (w : Full) : Fmt :=
  let wd := isWide w.ty
  { d := fVS.w wd, a := (fSrc w).w wd, b := (fSrc w).w wd, tys := some tys, xs := xs, i := i }
def fmt1 (tys : List Ty) (xs : List (Nat × Nat × (Nat → Bool))) (_ : KHdr) (w : Full) : Fmt :=
  let wd := isWide w.ty
  { d := fVS.w wd, a := (fSrc w).w wd, tys := some tys, xs := xs }
def fmt3 (tys : List Ty) (xs : List (Nat × Nat × (Nat → Bool))) (_ : KHdr) (w : Full) : Fmt :=
  let wd := isWide w.ty
  { d := fVS.w wd, a := (fSrc w).w wd, b := (fSrc w).w wd, c := (fSrc w).w wd, tys := some tys, xs := xs }

/-- The mould (R313): the exact value of each element from a, b and c, then .sat or a wrap. -/
def Ctx.mould (x : Ctx) (sat : Bool) (f : Nat → Bool → Int → Int → Int → Int) : Eff :=
  let t := x.w.ty
  let wd := isWide t
  let ew := elemBits t
  let sg := isSigned t
  let rd (v j : Nat) : Int := readInt ew sg (elemAt ew v j)
  x.fixed (x.map x.w.d wd (t == .i32) fun l =>
    let a := x.ra wd l
    let b := x.rbi wd l
    let c := x.rc wd l
    (packElems ew (fun j => fitW sat ew sg (f ew sg (rd a j) (rd b j) (rd c j))) (elemCount t),
      x.qa wd l || x.qb wd l || x.qc wd l, 0))

/-- A mould word of one or two sources: C is no operand. -/
def Ctx.mould2 (x : Ctx) (sat : Bool) (f : Nat → Bool → Int → Int → Int) : Eff :=
  let t := x.w.ty
  let wd := isWide t
  let ew := elemBits t
  let sg := isSigned t
  let rd (v j : Nat) : Int := readInt ew sg (elemAt ew v j)
  x.fixed (x.map x.w.d wd (t == .i32) fun l =>
    let a := x.ra wd l
    let b := x.rbi wd l
    (packElems ew (fun j => fitW sat ew sg (f ew sg (rd a j) (rd b j))) (elemCount t), x.qa wd l || x.qb wd l, 0))

/-- A mould word of one source: B is no operand. -/
def Ctx.mould1 (x : Ctx) (sat : Bool) (f : Nat → Bool → Int → Int) : Eff :=
  let t := x.w.ty
  let wd := isWide t
  let ew := elemBits t
  let sg := isSigned t
  x.fixed (x.map x.w.d wd (t == .i32) fun l =>
    let a := x.ra wd l
    (packElems ew (fun j => fitW sat ew sg (f ew sg (readInt ew sg (elemAt ew a j)))) (elemCount t), x.qa wd l, 0))

/-- A bitwise word of two sources (R313). -/
def Ctx.bits2 (x : Ctx) (f : Nat → Nat → Nat → Nat) : Eff :=
  let t := x.w.ty
  let wd := isWide t
  let ew := elemBits t
  x.fixed (x.map x.w.d wd (t == .i32) fun l =>
    (f ew (x.ra wd l) (x.rbi wd l) % 2 ^ ew, x.qa wd l || x.qb wd l, 0))

/-- A bitwise word of one source. -/
def Ctx.bits1 (x : Ctx) (f : Nat → Nat → Nat) : Eff :=
  let t := x.w.ty
  let wd := isWide t
  let ew := elemBits t
  x.fixed (x.map x.w.d wd (t == .i32) fun l => (f ew (x.ra wd l) % 2 ^ ew, x.qa wd l, 0))

def execIadd (w : Full) (s : State) : Res :=
  s.word w (fmt2 tyZp true [xBit 0]) noPts fun x => x.mould2 (xb x.w 0) fun _ _ a b => a + b

def execIsub (w : Full) (s : State) : Res :=
  s.word w (fmt2 tyZp true [xBit 0]) noPts fun x => x.mould2 (xb x.w 0) fun _ _ a b => a - b

def execIadd3 (w : Full) (s : State) : Res :=
  s.word w (fmt3 tyZ []) noPts fun x => x.mould false fun _ _ a b c => a + b + c

def execImul (w : Full) (s : State) : Res :=
  s.word w (fmt2 tyZ true []) noPts fun x => x.mould2 false fun _ _ a b => a * b

def execImulh (w : Full) (s : State) : Res :=
  s.word w (fmt2 tyZ true []) noPts fun x => x.mould2 false fun ew _ a b => (a * b) / (2 ^ ew : Nat)

def execImad (w : Full) (s : State) : Res :=
  s.word w (fmt3 tyZ []) noPts fun x => x.mould false fun _ _ a b c => a * b + c

def execImin (w : Full) (s : State) : Res :=
  s.word w (fmt2 tyZp true []) noPts fun x => x.mould2 false fun _ _ a b => min a b

def execImax (w : Full) (s : State) : Res :=
  s.word w (fmt2 tyZp true []) noPts fun x => x.mould2 false fun _ _ a b => max a b

def execIabs (w : Full) (s : State) : Res :=
  s.word w (fmt1 [.i32, .i64, .i16x2, .i8x4] [xBit 0]) noPts fun x => x.mould1 (xb x.w 0) fun _ _ a => if a < 0 then -a else a

def execAnd (w : Full) (s : State) : Res :=
  s.word w (fmt2 tyL true []) noPts fun x => x.bits2 fun _ a b => a &&& b

def execOr (w : Full) (s : State) : Res :=
  s.word w (fmt2 tyL true []) noPts fun x => x.bits2 fun _ a b => a ||| b

def execXor (w : Full) (s : State) : Res :=
  s.word w (fmt2 tyL true []) noPts fun x => x.bits2 fun _ a b => a ^^^ b

/-- NOT b within w bits. -/
def notW (w b : Nat) : Nat := 2 ^ w - 1 - b % 2 ^ w

def execAndn (w : Full) (s : State) : Res :=
  s.word w (fmt2 tyL true []) noPts fun x => x.bits2 fun ew a b => a &&& notW ew b

def execOrn (w : Full) (s : State) : Res :=
  s.word w (fmt2 tyL true []) noPts fun x => x.bits2 fun ew a b => a ||| notW ew b

def execPopc (w : Full) (s : State) : Res :=
  s.word w (fmt1 tyL []) noPts fun x => x.bits1 fun ew a => popcount ew a

def execClz (w : Full) (s : State) : Res :=
  s.word w (fmt1 tyL []) noPts fun x => x.bits1 fun ew a => clzW ew a

def execCtz (w : Full) (s : State) : Res :=
  s.word w (fmt1 tyL []) noPts fun x => x.bits1 fun ew a => ctzW ew a

def execBrev (w : Full) (s : State) : Res :=
  s.word w (fmt1 tyL []) noPts fun x => x.bits1 fun ew a => revW ew a

/-- The shifts: b is 32 bits, one register also for a 64-bit type (R313). -/
def fmtShift (_ : KHdr) (w : Full) : Fmt :=
  let wd := isWide w.ty
  { d := fVS.w wd, a := (fSrc w).w wd, b := fSrc w, tys := some tyL, i := true }

def Ctx.shift (x : Ctx) (f : Nat → Nat → Nat → Nat) : Eff :=
  let t := x.w.ty
  let wd := isWide t
  let ew := elemBits t
  x.fixed (x.map x.w.d wd (t == .i32) fun l =>
    let n := (if isImm x.w then immFor x.w else x.rb false l) % 2 ^ 32
    (f ew (x.ra wd l) n % 2 ^ ew, x.qa wd l || x.qb false l, 0))

def execShl (w : Full) (s : State) : Res :=
  s.word w fmtShift noPts fun x => x.shift fun ew a n => if ew ≤ n then 0 else a * 2 ^ n

def execShr (w : Full) (s : State) : Res :=
  s.word w fmtShift noPts fun x => x.shift fun ew a n => if ew ≤ n then 0 else a / 2 ^ n

def execSar (w : Full) (s : State) : Res :=
  s.word w fmtShift noPts fun x => x.shift fun ew a n => sarW ew a n

def execRol (w : Full) (s : State) : Res :=
  s.word w fmtShift noPts fun x => x.shift fun ew a n => rolW ew a n

/-! ## Carries (R314) -/

def fmtCarry (_ : KHdr) (w : Full) : Fmt :=
  let wd := isWide w.ty
  { d := fV.w wd, a := (fSrc w).w wd, b := (fSrc w).w wd, tys := some [.n32, .n64], xs := [xFld 0 3 fun _ => true],
    more := if xf w 2 0 = 0 then some (0, 16) else none, i := true, extra := [.p (BitVec.ofNat 3 (xf w 2 0))] }

/-- The sum or difference of each lane, and its carry into pk; both take the OR of the poison. -/
def Ctx.carry (x : Ctx) (f : Int → Int → Int → Int) : Eff :=
  let wd := isWide x.w.ty
  let ew := elemBits x.w.ty
  let k := xf x.w 2 0
  let ws := (lanesOf x.en).flatMap fun l =>
    let cin : Int := if (x.c.rdP k).getLsbD l then 1 else 0
    let r := f ((x.ra wd l : Nat) : Int) ((x.rbi wd l : Nat) : Int) cin
    let q := x.qa wd l || x.qb wd l || (x.c.rdPp k).getLsbD l
    wrOne x.w.d wd false l (wrapW ew r) q ++ [RWrite.prd k l (decide (r < 0 ∨ ((2 ^ ew : Nat) : Int) ≤ r)) q]
  x.fixed (ws, 0)

def execIaddc (w : Full) (s : State) : Res := s.word w fmtCarry noPts fun x => x.carry fun a b c => a + b + c

def execIsubb (w : Full) (s : State) : Res := s.word w fmtCarry noPts fun x => x.carry fun a b c => a - b - c

/-! ## Wide products (R315), division (R316) -/

def fmtImadw (_ : KHdr) (w : Full) : Fmt :=
  { d := fVSW, a := fSrc w, b := fSrc w, c := (fSrc w).w true, tys := some [.i32, .n32] }

def execImadw (w : Full) (s : State) : Res :=
  s.word w fmtImadw noPts fun x =>
    let sg := x.w.ty == .i32
    x.fixed (x.map x.w.d true false fun l =>
      (wrapW 64 (readInt 32 sg (x.ra false l) * readInt 32 sg (x.rb false l) + (x.rc true l : Nat)),
        x.qa false l || x.qb false l || x.qc true l, 0))

def execIdot4 (w : Full) (s : State) : Res :=
  s.word w (fmt3 [.i8x4] [xBit 0]) noPts fun x =>
    x.fixed (x.map x.w.d false true fun l =>
      let e (v j : Nat) : Int := toSigned 8 (elemAt 8 v j)
      let a := x.ra false l
      let b := x.rb false l
      let sum := toSigned 32 (x.rc false l) + e a 0 * e b 0 + e a 1 * e b 1 + e a 2 * e b 2 + e a 3 * e b 3
      (fitW (xb x.w 0) 32 true sum, x.qa false l || x.qb false l || x.qc false l, 0))

/-- Division: variable latency; b = 0 gives all ones and a. -/
def Ctx.divide (x : Ctx) (f : Nat → Int → Int → Int) : Eff :=
  let t := x.w.ty
  let wd := isWide t
  let ew := elemBits t
  let sg := isSigned t
  x.var (x.map x.w.d wd (t == .i32) fun l =>
    (wrapW ew (f ew (readInt ew sg (x.ra wd l)) (readInt ew sg (x.rbi wd l))), x.qa wd l || x.qb wd l, 0))

def execIdiv (w : Full) (s : State) : Res :=
  s.word w (fmt2 tyZ true []) noPts fun x => x.divide fun _ a b => if b = 0 then -1 else Int.tdiv a b

def execIrem (w : Full) (s : State) : Res :=
  s.word w (fmt2 tyZ true []) noPts fun x => x.divide fun _ a b => if b = 0 then a else Int.tmod a b

/-! ## Shifts across words, fields, bytes (R317 to R319) -/

def fmtFsh (_ : KHdr) (w : Full) : Fmt :=
  { d := fVS, a := fSrc w, b := fSrc w, c := if xb w 5 then fNo else fSrc w, tys := some [.b32],
    xs := if xb w 5 then [xFld 0 5 (fun _ => true), xBit 5] else [xBit 5] }

def Ctx.funnel (x : Ctx) (f : Nat → Nat → Nat) : Eff :=
  x.fixed (x.map x.w.d false false fun l =>
    let h := x.ra false l * 2 ^ 32 + x.rb false l
    let n := if xb x.w 5 then xf x.w 4 0 else x.rc false l % 32
    (f h n, x.qa false l || x.qb false l || (!xb x.w 5 && x.qc false l), 0))

def execFshl (w : Full) (s : State) : Res :=
  s.word w fmtFsh noPts fun x => x.funnel fun h n => h * 2 ^ n / 2 ^ 32 % 2 ^ 32

def execFshr (w : Full) (s : State) : Res :=
  s.word w fmtFsh noPts fun x => x.funnel fun h n => h / 2 ^ n % 2 ^ 32

def fmtField (_ : KHdr) (w : Full) : Fmt :=
  let wd := isWide w.ty
  { d := fVS.w wd, a := (fSrc w).w wd, b := fSrc w, tys := some tyZ, i := true }

/-- The position and width that a control value names (R318). -/
def fieldCtl (k : Nat) : Nat × Nat := (k % 64, min (k / 256 % 128) 64)

def Ctx.ctl (x : Ctx) (l : Nat) : Nat := if isImm x.w then immN x.w else x.rb false l

def execBfx (w : Full) (s : State) : Res :=
  s.word w fmtField noPts fun x =>
    let t := x.w.ty
    let wd := isWide t
    let ew := elemBits t
    x.fixed (x.map x.w.d wd (t == .i32) fun l =>
      let (pos, wid) := fieldCtl (x.ctl l)
      let v := x.ra wd l / 2 ^ pos % 2 ^ wid
      (if wid = 0 then 0 else wrapW ew (readInt wid (isSigned t) v), x.qa wd l || x.qb false l, 0))

/-- BFI: the control value's poison does not count (R318). -/
def execBfi (w : Full) (s : State) : Res :=
  s.word w fmtField noPts fun x =>
    let t := x.w.ty
    let wd := isWide t
    let ew := elemBits t
    x.fixed (x.map x.w.d wd (t == .i32) fun l =>
      let (pos, wid) := fieldCtl (x.ctl l)
      let d := x.rdd wd l
      let hi := min (pos + wid) ew
      let n := hi - pos
      let old := d / 2 ^ pos % 2 ^ n
      (if ew ≤ pos then d else d - old * 2 ^ pos + x.ra wd l % 2 ^ n * 2 ^ pos,
        x.qd wd l || x.qa wd l, 0))

def execPrmb (w : Full) (s : State) : Res :=
  s.word w (fmt3 [.b32] []) noPts fun x =>
    x.fixed (x.map x.w.d false false fun l =>
      let src := x.rb false l * 2 ^ 32 + x.ra false l
      let c := x.rc false l
      let pick (j : Nat) : Nat :=
        let nb := elemAt 4 c j
        let b := elemAt 8 src (nb % 8)
        if 8 ≤ nb then (if 128 ≤ b then 255 else 0) else b
      (packElems 8 pick 4, x.qa false l || x.qb false l || x.qc false l, 0))

/-! ## Compare, select, convert (R320 to R322) -/

/-- A source of a word whose destination is a predicate. -/
def fAny : Fld := { ks := [.v, .s, .lane, .col] }

def fmtIcmp (_ : KHdr) (w : Full) : Fmt :=
  let wd := isWide w.ty
  { d := fPd, a := fAny.w wd, b := fAny.w wd, tys := some tyZ, xs := [xFld 0 3 fun c => 1 ≤ c && c ≤ 6], i := true }

def execIcmp (w : Full) (s : State) : Res :=
  s.word w fmtIcmp noPts fun x =>
    let t := x.w.ty
    let wd := isWide t
    let ew := elemBits t
    let sg := isSigned t
    x.fixed (x.map x.w.d false false fun l =>
      (if condHolds (xf x.w 2 0) (cmpInt (readInt ew sg (x.ra wd l)) (readInt ew sg (x.rbi wd l))) then 1 else 0,
        x.qa wd l || x.qb wd l, 0))

def fmtIsel (_ : KHdr) (w : Full) : Fmt :=
  let wd := isWide w.ty
  { d := fVS.w wd, a := (fSrc w).w wd, b := (fSrc w).w wd, tys := some tyL, xs := [xFld 0 3 fun _ => true], i := true,
    extra := [.p (BitVec.ofNat 3 (xf w 2 0))] }

def execIsel (w : Full) (s : State) : Res :=
  s.word w fmtIsel noPts fun x =>
    let t := x.w.ty
    let wd := isWide t
    let k := xf x.w 2 0
    x.fixed (x.map x.w.d wd (t == .i32) fun l =>
      let sel := (x.c.rdP k).getLsbD l
      let q := (x.c.rdPp k).getLsbD l
      if sel then (x.ra wd l, q || x.qa wd l, 0) else (x.rbi wd l, q || x.qb wd l, 0))

/-- Width and signedness of the codes of R322. -/
def intCodeOf (c : Nat) : Nat × Bool :=
  match c with
  | 0 => (32, true) | 1 => (32, false) | 2 => (64, true) | 3 => (64, false)
  | 4 => (8, true) | 5 => (8, false) | 6 => (16, true) | _ => (16, false)

/-- A result of a code held in at least 32 bits (R210). -/
def holdInt (c v : Nat) : Nat :=
  let (w, sg) := intCodeOf c
  if w = 64 then v else wrapW 32 (readInt w sg v)

def wideCode (c : Nat) : Bool := c == 2 || c == 3

def fmtCvti (_ : KHdr) (w : Full) : Fmt :=
  { d := fVS.w (wideCode (xf w 7 4)), a := (fSrc w).w (wideCode (xf w 3 0)),
    xs := [xFld 0 4 (· < 8), xFld 4 4 (· < 8), xBit 8] }

def execCvti (w : Full) (s : State) : Res :=
  s.word w fmtCvti noPts fun x =>
    let st := xf x.w 3 0
    let dt := xf x.w 7 4
    let (sw, ss) := intCodeOf st
    let (dw, ds) := intCodeOf dt
    x.fixed (x.map x.w.d (wideCode dt) ds fun l =>
      (holdInt dt (fitW (xb x.w 8) dw ds (readInt sw ss (x.ra (wideCode st) l))), x.qa (wideCode st) l, 0))

/-! ## Moves (R323) -/

def tyMov : List Ty := [.b32, .n32, .i32, .n64, .i64]

def execMov (w : Full) (s : State) : Res :=
  s.word w (fmt1 tyMov []) noPts fun x => x.bits1 fun _ a => a

def fmtMovi (_ : KHdr) (w : Full) : Fmt :=
  { d := fVS.w (isWide w.ty), tys := some tyMov, r := false, i := true }

def execMovi (w : Full) (s : State) : Res :=
  s.word w fmtMovi noPts fun x =>
    x.fixed (x.map x.w.d (isWide x.w.ty) (x.w.ty == .i32) fun _ => (immFor x.w, false, 0))

def fmtMovh (_ : KHdr) (w : Full) : Fmt :=
  { d := fVS.w (isWide w.ty), tys := some [.b32, .n64], xs := [xFld 0 2 fun _ => true], r := false, i := true,
    more := if immF w 23 16 ≠ 0 ∨ (w.ty = .b32 ∧ 2 ≤ xf w 1 0) then some (0, 2) else none }

def execMovh (w : Full) (s : State) : Res :=
  s.word w fmtMovh noPts fun x =>
    let wd := isWide x.w.ty
    let h := 16 * xf x.w 1 0
    x.fixed (x.map x.w.d wd false fun l =>
      let d := x.rdd wd l
      (d - d / 2 ^ h % 2 ^ 16 * 2 ^ h + immF x.w 15 0 * 2 ^ h, x.qd wd l, 0))

/-! ## Column addresses (R324) -/

/-- %gcol of a local column (R157). -/
def gcolOf (col : Nat) : Nat := nCols * Config.package.toNat + col

def fmtMkcol (_ : KHdr) (w : Full) : Fmt := { d := fVSW, a := fSrc w, b := (fSrc w).w true, xs := [xBit 0] }

def execMkcol (w : Full) (s : State) : Res :=
  s.word w fmtMkcol noPts fun x =>
    let ls := x.lanesFor x.w.d
    if ls.any fun l => 150994944 ≤ x.ra false l then x.trap2 0 17
    else if ls.any fun l => 2 ^ 34 ≤ x.rb true l then x.trap2 0 18
    else x.fixed (x.map x.w.d true false fun l =>
      let a := x.ra false l
      (a / nCols * 2 ^ 52 + a % nCols * 2 ^ 36 + (if xb x.w 0 then 2 ^ 34 else 0) + x.rb true l,
        x.qa false l || x.qb true l, 0))

def fmtColof (_ : KHdr) (w : Full) : Fmt := { d := fVS, a := (fSrc w).w true }

def execColof (w : Full) (s : State) : Res :=
  s.word w fmtColof noPts fun x =>
    x.fixed (x.map x.w.d false false fun l =>
      let a := x.ra true l
      (if isSelfAlias a then gcolOf x.col else nCols * addrPkg a + addrCol a, x.qa true l, 0))

def fmtOffof (_ : KHdr) (w : Full) : Fmt := { d := fVSW, a := (fSrc w).w true }

def execOffof (w : Full) (s : State) : Res :=
  s.word w fmtOffof noPts fun x => x.fixed (x.map x.w.d true false fun l => (addrOff (x.ra true l), x.qa true l, 0))

def fmtLea (_ : KHdr) (w : Full) : Fmt :=
  { d := fVSW, a := (fSrc w).w true, b := (fSrc w).w (w.ty == .i64), tys := some [.i32, .i64],
    xs := [xFld 0 3 fun _ => true], i := true }

def execLea (w : Full) (s : State) : Res :=
  s.word w fmtLea noPts fun x =>
    let wd := x.w.ty == .i64
    x.fixed (x.map x.w.d true false fun l =>
      let a := x.ra true l
      let b : Int := if isImm x.w then immS x.w else readInt (elemBits x.w.ty) true (x.rb wd l)
      (a / 2 ^ 34 * 2 ^ 34 + wrapW 34 ((addrOff a : Int) + b * (2 ^ xf x.w 2 0 : Nat)), x.qa true l || x.qb wd l, 0))

end Sys2Proof.Machine
end

