-- ==== Sys2Proof/Machine/Lanes.lean ====
section
/-!
DEFINITION. Predicate words, votes, lane movement, reductions, system registers and counts (R325 to R332, R157, R158).
-/

namespace Sys2Proof.Machine

/-! ## Predicates (R325) -/

def fmtPset (_ : KHdr) (w : Full) : Fmt :=
  { d := fPd, a := if isImm w then fNo else fVS, i := true, more := if isImm w && 1 < immN w then some (0, 19) else none }

def execPset (w : Full) (s : State) : Res :=
  s.word w fmtPset noPts fun x =>
    x.fixed (x.map x.w.d false false fun l =>
      if isImm x.w then (immN x.w, false, 0)
      else
        let a := x.ra false l
        (if isUni x.w.a then a / 2 ^ l else if a = 0 then 0 else 1, x.qa false l, 0))

def fmtP2 (_ : KHdr) (_ : Full) : Fmt := { d := fPd, a := fP, b := fP, xs := [xBit 0] }

/-- Two predicate sources; .nb negates the second. -/
def Ctx.pred2 (x : Ctx) (f : Bool → Bool → Bool) : Eff :=
  x.fixed (x.map x.w.d false false fun l =>
    (if f (x.ra false l == 1) ((x.rb false l == 1) != xb x.w 0) then 1 else 0, x.qa false l || x.qb false l, 0))

def execPand (w : Full) (s : State) : Res := s.word w fmtP2 noPts fun x => x.pred2 (· && ·)
def execPor (w : Full) (s : State) : Res := s.word w fmtP2 noPts fun x => x.pred2 (· || ·)
def execPxor (w : Full) (s : State) : Res := s.word w fmtP2 noPts fun x => x.pred2 (· != ·)

def fmtP1 (_ : KHdr) (_ : Full) : Fmt := { d := fPd, a := fP }

def execPnot (w : Full) (s : State) : Res :=
  s.word w fmtP1 noPts fun x => x.fixed (x.map x.w.d false false fun l => (1 - x.ra false l, x.qa false l, 0))

def execPmov (w : Full) (s : State) : Res :=
  s.word w fmtP1 noPts fun x => x.fixed (x.map x.w.d false false fun l => (x.ra false l, x.qa false l, 0))

/-! ## Votes (R326) -/

def fmtVote (_ : KHdr) (w : Full) : Fmt :=
  { d := if xf w 1 0 = 0 then fVS else { ks := [.v, .s, .p], dst := true }, a := fP, xs := [xFld 0 2 fun _ => true] }

def execVote (w : Full) (s : State) : Res :=
  s.word w fmtVote noPts fun x =>
    let m := maskWhere fun l => x.on l && x.ra false l == 1
    let q := (lanesOf x.en).any fun l => x.qa false l
    let v : Nat := match xf x.w 1 0 with
      | 0 => m.toNat
      | 1 => if m ≠ 0 then 1 else 0
      | 2 => if m = x.en then 1 else 0
      | _ => if m = 0 ∨ m = x.en then 1 else 0
    x.fixed (x.map x.w.d false false fun _ => (v, q, 0))

/-! ## Moving values between lanes (R327 to R330) -/

def fmtShfl (_ : KHdr) (w : Full) : Fmt :=
  let wd := isWide w.ty
  { d := fV.w wd, a := fV.w wd, b := fSrc w, tys := some [.b32, .n64], i := true,
    xs := if isImm w then [xFld 0 2 fun _ => true] else [xFld 0 2 (fun _ => true), xFld 2 3 (· ≤ 5)],
    more := if isImm w && 5 < immF w 10 8 then some (0, 2) else none }

/-- The source lane of a mode (R327). -/
def shflSrc (mode n size l : Nat) : Nat :=
  let base := l - l % size
  match mode with
  | 0 => base + n % size
  | 1 => if base + n ≤ l then l - n else l
  | 2 => if l + n < base + size then l + n else l
  | _ => base + (l ^^^ n) % size

def execShfl (w : Full) (s : State) : Res :=
  s.word w fmtShfl noPts fun x =>
    let wd := isWide x.w.ty
    let size := 2 ^ (if isImm x.w then immF x.w 10 8 else xf x.w 4 2)
    x.fixed (x.map x.w.d wd false fun l =>
      let n := (if isImm x.w then immN x.w else x.rb false l) % 32
      let src := shflSrc (xf x.w 1 0) n size l
      (x.ra wd src, x.qa wd src || x.qb false l, 0))

/-- Types of REDC and SCANC. -/
def tyRed : List Ty := tyZ ++ [.f32]

def redMore (w : Full) : Option (Nat × Nat) := if w.ty = .f32 ∧ 3 ≤ xf w 2 0 then some (0, 21) else none

def fmtRedc (_ : KHdr) (w : Full) : Fmt :=
  let wd := isWide w.ty
  { d := fVS.w wd, a := fAny.w wd, tys := some tyRed, xs := [xFld 0 3 (· ≤ 5)], more := redMore w }

def execRedc (w : Full) (s : State) : Res :=
  s.word w fmtRedc noPts fun x =>
    let t := x.w.ty
    let wd := isWide t
    let op := xf x.w 2 0
    let vs := lanes32.map fun l => if x.on l then x.ra wd l else identity op t
    let q := (lanesOf x.en).any fun l => x.qa wd l
    let (v, fl) := redTree op t vs
    if isUni x.w.d then x.fixed (wrOne x.w.d wd (t == .i32) 0 v q, fl)
    else x.fixed ((lanesOf x.en).flatMap fun l => wrOne x.w.d wd false l v q, fl)

def fmtScanc (_ : KHdr) (w : Full) : Fmt :=
  let wd := isWide w.ty
  { d := fV.w wd, a := fAny.w wd, tys := some tyRed, xs := [xFld 0 3 (· ≤ 5), xBit 3], more := redMore w }

/-- SCANC in ascending lane order: the writes, the accumulated value, its poison and the flags. -/
def Ctx.scan (x : Ctx) (op : Nat) (excl wd : Bool) : List Nat → Nat → Bool → FpFlags → List RWrite × FpFlags
  | [], _, _, fl => ([], fl)
  | l :: ls, acc, p, fl =>
    let (v, f) := combine op x.w.ty acc (x.ra wd l)
    let q := p || x.qa wd l
    let r := x.scan op excl wd ls v q (fl ||| f)
    (wrOne x.w.d wd false l (if excl then acc else v) (if excl then p else q) ++ r.1, r.2)

def execScanc (w : Full) (s : State) : Res :=
  s.word w fmtScanc noPts fun x =>
    let op := xf x.w 2 0
    x.fixed (x.scan op (xb x.w 3) (isWide x.w.ty) (lanesOf x.en) (identity op x.w.ty) false 0)

def fmtUmov (_ : KHdr) (w : Full) : Fmt :=
  { d := fS, a := fV.w (isWide w.ty), b := fS, tys := some [.b32, .n64], i := true,
    more := if isImm w && 32 < immN w then some (0, 20) else none }

def execUmov (w : Full) (s : State) : Res :=
  s.word w fmtUmov noPts fun x =>
    let wd := isWide x.w.ty
    if x.en = 0 then .go x.s none false
    else
      let n := if isImm x.w then immN x.w else x.rb true 0
      if 32 < n then x.trap2 0 20
      else
        let l := if n = 32 then lowLane x.en else n
        x.var (wrOne x.w.d wd false 0 (x.ra wd l) (x.qa wd l || x.qb true 0), 0)

/-! ## System registers (R157, R158, R331, R332) -/

/-- %cyc of a column: cycles of its cluster's clock since firmware start. -/
def State.cycles (s : State) (col : Nat) : Nat := Config.cycBetween (clusterOf col) s.boot.fwTick s.tick % 2 ^ 64

/-- The value of a system register. -/
def Ctx.sysReg (x : Ctx) (n : Nat) : DWord :=
  let t := if x.sp.hnd then x.sp.trap else {}
  match n with
  | 0x00 => x.sp.pc
  | 0x01 => BitVec.ofNat 64 (gcolOf x.col)
  | 0x02 => x.c.ret
  | 0x03 => BitVec.ofNat 64 (x.s.cycles x.col)
  | 0x04 => x.c.fpflags.setWidth 64
  | 0x05 => t.tpc
  | 0x06 => t.tcode.setWidth 64
  | 0x07 => t.tmask.setWidth 64
  | 0x08 => t.taddr
  | 0x09 => t.tinfo.setWidth 64
  | 0x0A => x.c.rst.setWidth 64
  | 0x0B => if x.h.det then 1 else 0
  | 0x0C => match x.s.group x.c.group with
    | some g => BitVec.ofNat 64 g.stage
    | none => 0
  | _ => match x.s.group x.c.group with
    | some g => BitVec.ofNat 64 g.items.length
    | none => 0

def fmtMfsr (_ : KHdr) (w : Full) : Fmt :=
  { d := fS, r := false, i := true,
    more := if immF w 23 8 ≠ 0 then some (0, 9) else if 0x0D < immF w 7 0 then some (0, 12) else none }

def execMfsr (w : Full) (s : State) : Res :=
  s.word w fmtMfsr noPts fun x =>
    x.fixed (x.map x.w.d true false fun _ => ((x.sysReg (immF x.w 7 0)).toNat, false, 0))

def fmtMtsr (_ : KHdr) (w : Full) : Fmt :=
  let n := immF w 7 0
  { a := fS, r := false, i := true,
    more := if immF w 23 8 ≠ 0 then some (0, 9) else if n = 2 ∨ n = 4 ∨ n = 5 then none else some (0, 12) }

def execMtsr (w : Full) (s : State) : Res :=
  s.word w fmtMtsr (fun x => [x.pt x.w.a true 10]) fun x =>
    if x.en = 0 then .go x.s none false
    else
      let v := BitVec.ofNat 64 (x.ra true 0)
      match immF x.w 7 0 with
      | 2 => .go (x.s.setCol x.col { x.c with ret := v }) none false
      | 4 => .go (x.s.setCol x.col { x.c with fpflags := v.setWidth 5 }) none false
      | _ =>
        if x.sp.hnd then .go (x.s.setCol x.col (x.c.setSlot x.k { x.sp with trap := { x.sp.trap with tpc := v } })) none false
        else x.trap2 0 12

def fmtRdcnt (_ : KHdr) (_ : Full) : Fmt := { d := fS, xs := [xBit 0] }

def execRdcnt (w : Full) (s : State) : Res :=
  s.word w fmtRdcnt noPts fun x =>
    let v := if x.h.det || xb x.w 0 then x.c.retired else x.s.cycles x.col
    x.fixed (x.map x.w.d true false fun _ => (v, false, 0))

end Sys2Proof.Machine
end

