-- ==== Sys2Proof/Machine/Control.lean ====
section
/-!
DEFINITION. Control words: branches, calls, loops, rejoin masks, yield, nap, exit, restart labels, traps and the return from one (R277 to
R292, R303 to R309).
-/

namespace Sys2Proof.Machine

/-! ## Targets (R277 to R279) -/

/-- The target of a displacement. -/
def Ctx.disp (x : Ctx) : DWord := pcAdd (pcNext x.sp.pc) (8 * immS x.w)

/-- The next PC of every active lane: `f` in the enabled ones, the fall-through PC in the others. -/
def Ctx.nexts (x : Ctx) (f : Nat → DWord) : List (Nat × DWord) :=
  (lanesOf x.sp.mask).map fun l => (l, if x.on l then f l else pcNext x.sp.pc)

/-- The enabled lanes go where `f` says. -/
def Ctx.jump (x : Ctx) (s : State) (f : Nat → DWord) : Eff := .go s (some (x.nexts f)) false

/-- The first failing condition of the targets of the enabled lanes (R278, orders 2 to 4). -/
def Ctx.badTarget (x : Ctx) (f : Nat → DWord) : Option Eff :=
  let bad (p : DWord → Bool) : Mask := maskWhere fun l => x.on l && p (f l)
  let esc := bad fun a =>
    a == 0 || !(isSelfAlias a.toNat || (addrPkg a.toNat == Config.package.toNat && addrCol a.toNat == x.col))
  let ap := bad fun a => addrAp a.toNat != 0
  let al := bad fun a => a.toNat % 8 != 0
  if esc ≠ 0 then some (x.trapAt 5 esc f 0)
  else if ap ≠ 0 then some (x.trapAt 8 ap f 17)
  else if al ≠ 0 then some (x.trapAt 7 al f 3)
  else none

/-- The target in A. -/
def Ctx.targetA (x : Ctx) (l : Nat) : DWord := BitVec.ofNat 64 (x.ra true l)

/-- Some register writes carried out. -/
def Ctx.written (x : Ctx) (ws : List RWrite) : Column := x.c.applyWrites ws

/-! ## Branches, calls and loops (R281 to R286) -/

def fmtBare (_ : KHdr) (_ : Full) : Fmt := {}
def fmtDisp (_ : KHdr) (_ : Full) : Fmt := { r := false, i := true }

def execNop (w : Full) (s : State) : Res := s.word w fmtBare noPts fun x => .go x.s none false

def execBra (w : Full) (s : State) : Res := s.word w fmtDisp noPts fun x => x.jump x.s fun _ => x.disp

def fmtBrx (_ : KHdr) (_ : Full) : Fmt := { a := fVSW }

def execBrx (w : Full) (s : State) : Res :=
  s.word w fmtBrx (fun x => [x.pt x.w.a true 2]) fun x =>
    match x.badTarget x.targetA with
    | some e => e
    | none => x.jump x.s fun l => pcOf (x.targetA l)

/-- The state after the link register and %ret are written. -/
def Ctx.linked (x : Ctx) : State :=
  if x.en = 0 then x.s
  else
    let r := x.map x.w.d true false fun _ => ((pcNext x.sp.pc).toNat, false, 0)
    x.s.setCol x.col { x.written r.1 with ret := pcNext x.sp.pc }

def fmtCall (_ : KHdr) (_ : Full) : Fmt := { d := fVSW, r := false, i := true }

def execCall (w : Full) (s : State) : Res := s.word w fmtCall noPts fun x => x.jump x.linked fun _ => x.disp

def fmtCallx (_ : KHdr) (_ : Full) : Fmt := { d := fVSW, a := fVSW }

def execCallx (w : Full) (s : State) : Res :=
  s.word w fmtCallx (fun x => [x.pt x.w.a true 2]) fun x =>
    match x.badTarget x.targetA with
    | some e => e
    | none => x.jump x.linked fun l => pcOf (x.targetA l)

def execRet (w : Full) (s : State) : Res :=
  s.word w fmtBrx (fun x => [x.pt x.w.a true 2]) fun x =>
    let f (l : Nat) : DWord := if x.w.a = .s 0 then x.c.ret else x.targetA l
    match x.badTarget f with
    | some e => e
    | none => x.jump x.s fun l => pcOf (f l)

/-- Every type but the reserved code. -/
def tyAny : List Ty :=
  [.i32, .n32, .i64, .n64, .f32, .f64, .bf16x2, .f16x2, .i16x2, .i8x4, .e4m3x4, .e5m2x4, .hn4x8, .b32, .f16]

def fmtLoop (_ : KHdr) (w : Full) : Fmt :=
  { d := fVS.w (isWide w.ty), tys := some [.n32, .n64], tyReason := 23, r := false, i := true }

def execLoop (w : Full) (s : State) : Res :=
  s.word w fmtLoop (fun x => [x.pt x.w.d (isWide x.w.ty) 2]) fun x =>
    let wd := isWide x.w.ty
    let n (l : Nat) : Nat := x.rdd wd l
    let ws := (x.lanesFor x.w.d).flatMap fun l => if n l = 0 then [] else wrOne x.w.d wd false l (n l - 1) false
    x.jump (x.s.setCol x.col (x.written ws)) fun l => if n l ≤ 1 then pcNext x.sp.pc else x.disp

/-! ## Rejoin masks (R287 to R289) -/

/-- A whole mask operand: jn, pn, or sn[31:0]. -/
def Column.rdMask (c : Column) (o : Opnd) : Mask :=
  match o with
  | .j n => c.rdJ n.toNat
  | .p n => c.rdP n.toNat
  | .s n => (c.rdS n.toNat).setWidth 32
  | _ => 0

def fmtJsetMask (_ : KHdr) (_ : Full) : Fmt := { d := fJ, a := { ks := [.p, .j] } }

/-- Writes a rejoin mask, without lanes that are not live. -/
def Ctx.setJ (x : Ctx) (m : Mask) : Eff :=
  if x.en = 0 then .go x.s none false
  else .go (x.s.setCol x.col (x.c.wrJ (numOf x.w.d) (m &&& x.c.live))) none false

def execJsetMask (w : Full) (s : State) : Res :=
  s.word w fmtJsetMask (fun x => [x.pt x.w.a false 2]) fun x => x.setJ (x.c.rdMask x.w.a &&& x.en)

def fmtJsetEnabled (_ : KHdr) (w : Full) : Fmt :=
  { d := fJ, r := false, i := true, more := if immN w ≠ 0 then some (0, 23) else none }

def execJsetEnabled (w : Full) (s : State) : Res := s.word w fmtJsetEnabled noPts fun x => x.setJ x.en

def isJ : Opnd → Bool
  | .j _ => true
  | _ => false

def fmtJmov (_ : KHdr) (w : Full) : Fmt :=
  { d := { ks := [.j, .p, .s], dst := true }, a := { ks := [.j, .p, .s] },
    more := if isJ w.d || isJ w.a then none else some (0, 23) }

/-- The source of JMOV at point 2: any lane bit of a predicate, or a uniform register. The mask is one value: with one lane's bit poisoned, %tmask is
every enabled lane (DESIGN CHOICE, log entry 73). -/
def Ctx.ptMask (x : Ctx) : Pt :=
  let m : Mask := match x.w.a with
    | .p n => if x.c.rdPp n.toNat = 0 then 0 else x.en
    | .s n => if x.c.rdSp n.toNat then x.en else 0
    | _ => 0
  ⟨specOf x.w.a, m, 2, fun _ => 0⟩

def execJmov (w : Full) (s : State) : Res :=
  s.word w fmtJmov (fun x => [x.ptMask]) fun x =>
    if x.en = 0 then .go x.s none false
    else
      let m := x.c.rdMask x.w.a
      let c := match x.w.d with
        | .j n => x.c.wrJ n.toNat (m &&& x.c.live)
        | .p n => x.c.wrPm n.toNat m 0
        | .s n => x.c.wrS n.toNat (m.setWidth 64) false
        | _ => x.c
      .go (x.s.setCol x.col c) none false

def fmtJoin (_ : KHdr) (_ : Full) : Fmt := { a := fJ }

/-- The lanes parked at the JOIN word at a PC. -/
def Column.joined (c : Column) (pc : DWord) : Mask := maskOf ((c.parked.filter fun p => !p.bar && p.pc == pc).map (·.lane))

/-- The split's groups after a JOIN or a parking, at the next word: the group of the split's lowest lane keeps the slot (R132, R288). -/
def Column.regroup (c : Column) (k : Nat) (old : Mask) (gs : List Mask) : Column :=
  let sp := c.slot k
  let pc := pcNext sp.pc
  let c := { c with mec := c.mec + 1 }
  let gs := gs.filter (· != 0)
  let first := match gs.filter fun m => m.getLsbD (lowLane old) with
    | m :: _ => m
    | [] => gs.headD 0
  let c :=
    if first = 0 ∧ sp.held = 0 then { c.setSlot k {} with demote := if c.demote = some k then none else c.demote }
    else c.setSlot k { sp with pc := pc, mask := first, wcnt := 0, runLen := 0, pend := [], cond := c.restCond first }
  ((((c.placeGroups ((gs.filter (· != first)).map fun m => (pc, m))).demoteNow k).merge).fill).chooseDemote

/-- Lanes leave slot k; the others go on at the next word. -/
def Column.unslot (c : Column) (k : Nat) (m : Mask) : Column :=
  let sp := c.slot k
  let left := sp.mask &&& ~~~m
  let c := { c with mec := c.mec + 1 }
  if left = 0 ∧ sp.held = 0 then { c.setSlot k {} with demote := if c.demote = some k then none else c.demote }
  else c.setSlot k { sp with pc := pcNext sp.pc, mask := left, runLen := 0, pend := [], cond := c.restCond left }

/-- What a marker event does after it is counted. -/
def Column.marked (c : Column) (k : Nat) : Column := (((c.demoteNow k).merge).fill).chooseDemote

/-- Lanes of a split park at its word (R129, R135); the marker event is still to take its effect. -/
def Column.parkAt (c : Column) (k : Nat) (m : Mask) (bar : Bool) (id : Nat) : Column :=
  let pc := (c.slot k).pc
  ({ c with parked := c.parked ++ (lanesOf m).map fun l => (⟨l, pc, bar, id⟩ : ParkedLane) : Column }).unslot k m

def execJoin (w : Full) (s : State) : Res :=
  s.word w fmtJoin noPts fun x =>
    if x.sp.hnd then .double
    else if x.en = 0 then .go x.s none false
    else
      let j := numOf x.w.a
      let here := x.c.joined x.sp.pc
      if x.c.rdJ j &&& x.c.live &&& ~~~(x.en ||| here) = 0 then
        if here = 0 then
          let c := (x.c.countWord x.k).modSlot x.k fun sp => { sp with wcnt := 0 }
          .placed ((x.s.setCol x.col c).advance x.col x.k x.w.marker none false)
        else
          let c := { x.c with parked := x.c.parked.filter fun p => !(!p.bar && p.pc == x.sp.pc) : Column }
          .placed (((x.s.setCol x.col (c.countWord x.k)).modCol x.col fun c =>
            c.regroup x.k x.sp.mask [x.en ||| here, x.sp.mask &&& ~~~x.en]).endPipe x.col x.k)
      else .placed (((x.s.setCol x.col (x.c.countWord x.k)).modCol x.col fun c => (c.parkAt x.k x.en false j).marked x.k).endPipe x.col x.k)

/-! ## Yield, nap, exit (R290 to R292) -/

def fmtYield (_ : KHdr) (_ : Full) : Fmt := { xs := [xFld 0 1 (· == 0)] }
def fmtYieldPool (_ : KHdr) (_ : Full) : Fmt := { xs := [xBit 0] }

def execYield (w : Full) (s : State) : Res := s.word w fmtYield noPts fun x => .go x.s none true

/-- The enabled lanes enter the pool at the next word; the others go on. -/
def Column.yieldPool (c : Column) (k : Nat) (m : Mask) : Column :=
  (((c.unslot k m).toPool m (pcNext (c.slot k).pc)).fill).marked k

def execYieldPool (w : Full) (s : State) : Res :=
  s.word w fmtYieldPool noPts fun x =>
    if x.c.pool = [] ∨ x.en = 0 then .go x.s none true
    else .placed (((x.s.setCol x.col (x.c.countWord x.k)).modCol x.col fun c => c.yieldPool x.k x.en).endPipe x.col x.k)

def execNap (w : Full) (s : State) : Res :=
  s.word w fmtDisp noPts fun x =>
    if immN x.w = 0 ∨ x.h.det then .go x.s none true
    else
      let c := (x.c.countWord x.k).modSlot x.k fun sp => { sp with pc := pcNext sp.pc, nap := x.s.cycles x.col + immN x.w }
      .placed ((x.s.setCol x.col c).endRun x.col x.k .napping)

def execExit (w : Full) (s : State) : Res :=
  s.word w fmtBare noPts fun x =>
    if x.sp.hnd then .double
    else if x.en = 0 then .go x.s none true
    else
      let c := (x.c.countWord x.k).modSlot x.k fun sp => { sp with pc := pcNext sp.pc, exiting := x.en }
      .placed ((((x.s.setCol x.col c).endRun x.col x.k .parked).settle x.col x.k).modCol x.col fun c => c.merge.fill)

/-! ## Restart labels (R303) -/

def fmtSetrst (h : KHdr) (w : Full) : Fmt :=
  { xs := [xBit 0], r := false, i := true,
    more := if h.rstpol < 2 then some (0, 19) else if xb w 0 ∧ immN w ≠ 0 then some (0, 9) else none }

/-- ENTRY of the column's launch, as an offset. -/
def Ctx.entryOff (x : Ctx) : Nat :=
  match x.s.group x.c.group with
  | some g => addrOff g.entry.toNat
  | none => 0

/-- Writes %rst. -/
def Ctx.setRst (x : Ctx) (v : Word) : Eff :=
  if x.en = 0 then .go x.s none false else .go (x.s.setCol x.col { x.c with rst := v }) none false

def execSetrst (w : Full) (s : State) : Res :=
  s.word w fmtSetrst noPts fun x =>
    let d : Int := (addrOff x.disp.toNat : Int) - (x.entryOff : Int)
    if d < 0 ∨ 0xFFFFFFF8 < d then x.trap2 0 20 else x.setRst (BitVec.ofInt 32 d)

def execSetrstClr (w : Full) (s : State) : Res := s.word w fmtSetrst noPts fun x => x.setRst 0xFFFFFFFF

/-! ## Traps and the return from one (R306 to R309) -/

def fmtTrap (_ : KHdr) (w : Full) : Fmt := { r := false, i := true, more := if 31 < immN w then some (0, 21) else none }

def execTrap (w : Full) (s : State) : Res :=
  s.word w fmtTrap noPts fun x =>
    if x.en = 0 then .go x.s none false else .trap (0x20 + immN x.w) x.en 0 0 (pcNext x.sp.pc)

def execBkpt (w : Full) (s : State) : Res :=
  s.word w fmtBare noPts fun x => if x.en = 0 then .go x.s none false else .trap 0x10 x.sp.mask 0 0 (pcNext x.sp.pc)

def fmtRtrap (_ : KHdr) (w : Full) : Fmt :=
  { xs := [xFld 0 1 (· == 0)], r := false, i := true, more := if immN w ≠ 0 then some (0, 18) else none }

def fmtRtrapStep (_ : KHdr) (w : Full) : Fmt :=
  { xs := [xBit 0], r := false, i := true,
    more := if immF w 23 6 ≠ 0 then some (0, 9) else if 32 ≤ immF w 5 0 ∧ immF w 5 0 ≤ 62 then some (0, 18) else none }

/-- The split leaves its handler; `stop` is how the column stands from then on. -/
def Ctx.leave (x : Ctx) (stop : Option StopSt) : Eff :=
  if targetOk x.col x.sp.trap.tpc then
    let c := ({ x.c.countWord x.k with stop := stop } : Column).leaveTrap x.k
    .placed ((x.s.setCol x.col c).endRun x.col x.k (c.restCond (c.slot x.k).mask))
  else .double

/-- Whether a trap code stops the column. -/
def stopCode (c : Byte) : Bool := c == 0x10 || c == 0x11

/-- In a stopped column, the handler of a trap that the stepped word raised returns to that word, which then issues alone (R150). -/
def execRtrap (w : Full) (s : State) : Res :=
  s.word w fmtRtrap noPts fun x =>
    if x.sp.hnd = false then x.trap2 0 16
    else if x.en = 0 then .go x.s none false
    else x.leave (if stopCode x.sp.trap.tcode then none else x.c.stop.map fun st => { st with step := some (lowLane x.sp.lanes) })

def execRtrapStep (w : Full) (s : State) : Res :=
  s.word w fmtRtrapStep noPts fun x =>
    if x.sp.hnd = false then x.trap2 0 16
    else if !stopCode x.sp.trap.tcode then x.trap2 0 17
    else if x.en = 0 then .go x.s none false
    else
      let st : StopSt := x.c.stop.getD ⟨x.k, none, x.c.slotLanes⟩
      x.leave (some { st with step := some (immF x.w 5 0) })

end Sys2Proof.Machine
end

