-- ==== Sys2Proof/Machine/Remote.lean ====
section
/-!
DEFINITION. Requests of a column to other columns: counts and credits (R2, R53, R358), the order of a lane's accesses (R198, R360, R387),
sending, and what a reply writes.
-/

namespace Sys2Proof.Machine

/-! ## Counts and credits (R53, R358) -/

/-- The cluster of the system that an address names. -/
def creditKey (a : Nat) : Nat := 768 * addrPkg a + clusterOf (addrCol a)

/-- The requests of a column's core, sent or not. -/
def State.coreReqs (s : State) (col : Nat) : List Req :=
  (List.range 8).flatMap fun i => (s.col (col / 8 * 8 + i)).reqs

/-- Credits of a core held for a cluster. -/
def creditsHeld (rs : List Req) (key : Nat) : Nat := (rs.filter (·.credit == some key)).length

/-- The credits that the tellers of a core's copies hold: cluster and number of each (R53, R370, R374). A further receiver in the cluster of another
one takes none. -/
def State.tellerCredits (s : State) (core : Nat) : List (Nat × Nat) :=
  s.ops.flatMap fun e => match e.2 with
    | some o => match o.body with
      | .copy c => if c.core = core then (c.unacked.map (·.2)).filter fun u => u.1 != nGlobal else []
      | _ => []
    | none => []

/-- The clusters for which they hold one, one entry per credit. -/
def State.tellerKeys (s : State) (core : Nat) : List Nat := (s.tellerCredits core).map (·.1)

/-- Credits of a column's core held for a cluster, by its requests and its copies. -/
def State.creditsUsed (s : State) (col key : Nat) : Nat :=
  creditsHeld (s.coreReqs col) key + ((s.tellerKeys (coreOf col)).filter (· == key)).length

/-- The lowest free credit of a column's core for a cluster: the number of the request slot that the packet uses there (R51, R53). -/
def State.freeCredit (s : State) (col key : Nat) : Nat :=
  let busy := ((s.coreReqs col).filterMap fun r => if r.credit = some key then some r.slot else none)
    ++ ((s.tellerCredits (coreOf col)).filter (·.1 == key)).map (·.2)
  ((List.range 8).find? fun i => !busy.contains i).getD 0

/-- The clusters a core tracks. -/
def State.tracked (s : State) (col : Nat) : List Nat :=
  ((s.coreReqs col).filterMap (·.credit) ++ s.tellerKeys (coreOf col)).eraseDups

/-- Whether a word whose packets go to the clusters `keys` can issue. -/
def State.canRequest (s : State) (col : Nat) (keys : List Nat) : Bool :=
  match keys with
  | [] => true
  | k :: _ =>
    let rs := s.coreReqs col
    decide ((s.col col).reqs.length + keys.length ≤ 256) && decide (rs.length + keys.length ≤ 2048)
      && decide ((s.tracked col ++ keys).eraseDups.length ≤ 256) && decide (s.creditsUsed col k < 8)

/-- Whether a core could take a credit for each of some clusters now (R53). -/
def State.creditsFree (s : State) (core : Nat) (keys : List Nat) : Bool :=
  let col := 8 * core
  let ks := keys.eraseDups
  ks.all (fun k => decide (s.creditsUsed col k < 8)) && decide ((s.tracked col ++ ks).eraseDups.length ≤ 256)

/-- Whether a core could take a credit for each of some clusters in turn: what it takes for one returns before the next (R53, R411). -/
def State.creditsInTurn (s : State) (core : Nat) (keys : List Nat) : Bool :=
  let col := 8 * core
  let tr := s.tracked col
  keys.all fun k => decide (s.creditsUsed col k < 8) && (tr.contains k || decide (tr.length < 256))

/-! ## Sending (R53, R358) -/

/-- ATOM, ACAS, RED and SEMSG requests. -/
def isAtomicKind (kind : Nat) : Bool := kind == kAtomic || kind == kRed || kind == kSemsg

/-- The lanes of a request. -/
def Column.lanesOfReq (c : Column) (tag : Nat) : Mask :=
  match c.reqs.find? (·.tag == tag) with
  | some r => r.lanes
  | none => 0

/-- Whether the packet at the head of a column's send queue can leave: a credit of its cluster is free, the cluster can be tracked, and
a releasing packet, whatever its scope (R360), has no earlier access of its lanes left to perform, and in deterministic mode an atomic none of the core's earlier
atomics (R147). -/
def State.canLeave (s : State) (col : Nat) (p : Packet) : Bool :=
  let rs := s.coreReqs col
  let key := creditKey p.dest.toNat
  decide (s.creditsUsed col key < 8) && ((s.tracked col).contains key || decide ((s.tracked col).length < 256))
    && (!(s.core (coreOf col)).det || !isAtomicKind p.kind.toNat || !rs.any fun r => r.atom && decide (r.tag < p.req))
    && (decide (p.ord.toNat < 2) || !((s.col col).reqs.any fun r => decide (r.tag < p.req) && r.lanes &&& (s.col col).lanesOfReq p.req != 0))

/-- Sends the packets that can leave, in order; one that cannot holds those behind it. -/
def State.pumpList (s : State) (col : Nat) : List Packet → State
  | [] => s
  | p :: ps =>
    if s.canLeave col p then
      let key := creditKey p.dest.toNat
      let n := s.freeCredit col key
      let s := s.modCol col fun c =>
        { c with sendq := ps, reqs := c.reqs.map fun r => if r.tag = p.req then { r with credit := some key, slot := n } else r }
      (s.send { p with slot := n }).pumpList col ps
    else s

def State.pump (s : State) (col : Nat) : State :=
  if (s.col col).sendq = [] then s else s.pumpList col (s.col col).sendq

/-- Every resident column of a core sends what it can. -/
def State.pumpCore (s : State) (col : Nat) : State :=
  (List.range 8).foldl (fun s i =>
    let k := col / 8 * 8 + i
    if (tabGet s.cols k).isSome then s.pump k else s) s

/-- Hands a request to the column's send queue and answers its tag. -/
def State.request (s : State) (col : Nat) (p : Packet) (lanes : Mask) (wr acq rel : Bool) : State :=
  let tag := s.nextTag
  let s := { s with nextTag := tag + 1 }
  s.modCol col fun c =>
    { c with reqs := c.reqs ++ [⟨tag, lanes, wr, acq, rel, isAtomicKind p.kind.toNat, none, 0⟩]
             sendq := c.sendq ++ [{ p with req := tag, src := mkAddr col tag }] }

/-- A request is complete: its count and credit return, FENCE words that waited for it alone are met, barriers that did are tested, and
the core sends on. -/
def State.complete (s : State) (col tag : Nat) : State :=
  let s0 := s
  let s := s.modCol col fun c =>
    let rs := c.reqs.filter (·.tag != tag)
    { c with reqs := rs
             fences := c.fences.filter fun f => rs.any fun r => decide (r.tag < f.2.2) && r.lanes &&& f.1 != 0 && (f.2.1 != 1 || !r.write)
             barGates := c.barGates.filter fun g => rs.any fun r => decide (r.tag < g.2.2) && r.lanes &&& g.2.1 != 0 }
  let before := (s0.col col).barGates
  let s := if (s.col col).barGates.length = before.length then s else s.testBars col
  s.pumpCore col

/-! ## The order of a lane's accesses (R198, R360, R384, R387) -/

/-- Whether an access of some lanes must wait: behind an acquiring access, behind a FENCE; an acquiring one behind a releasing one. -/
def Column.held (c : Column) (m : Mask) (wr acq : Bool) : Bool :=
  c.reqs.any (fun r => r.lanes &&& m != 0 && (r.acq || (acq && r.rel)))
    || c.fences.any fun f => f.1 &&& m != 0 && (f.2.1 != 2 || wr)
        && c.reqs.any fun r => decide (r.tag < f.2.2) && r.lanes &&& f.1 != 0 && (f.2.1 != 1 || !r.write)

/-- Whether accesses of some lanes are still to be performed. -/
def Column.pendingReqs (c : Column) (m : Mask) : Bool := c.reqs.any fun r => r.lanes &&& m != 0

/-! ## Blocks (R358) -/

/-- Lanes grouped by a key, in ascending order of their lowest lane. -/
def groupLanes (key : Nat → Nat) : List Nat → List (Nat × List Nat)
  | [] => []
  | l :: ls =>
    let rest := groupLanes key ls
    let mine := (rest.filter (·.1 == key l)).flatMap (·.2)
    (key l, l :: mine) :: rest.filter (·.1 != key l)

/-- A request packet to a block. -/
def requestPacket (kind ord scope : Nat) (ty : Ty) (block : Nat) (accs : List LaneAcc) (payload : Bool) : Packet :=
  { kind := BitVec.ofNat 8 kind, dest := BitVec.ofNat 64 (256 * block), src := 0, vc := kindVc kind, slot := 0
    npay := if payload then flitsOf accs else 0
    req := 0, hops := 0, ord := BitVec.ofNat 2 ord, scope := BitVec.ofNat 3 scope, stat := 0, ty := ty, op := 0, cas := false
    accs := accs, words := [], mask := 0, parked := false, left := false, via := none, port := 0 }

/-! ## Results of accesses (R353, R210) -/

/-- A loaded value of `size` bytes as its register holds it. -/
def extLoad (ty : Ty) (size v : Nat) : Nat := if ty = .i32 ∧ size < 4 then wrapW 32 (toSigned (8 * size) v) else v

/-- The writes of a result with the values of a reply: the high word of a pair is the odd register. Uniform writes take the accesses in
their order: one, or the words of a stage item. -/
def fillWrites (ty : Ty) (accs : List LaneAcc) (ws : List RWrite) : List RWrite :=
  let acc (l : Nat) : Option LaneAcc := accs.find? (·.lane == l)
  let val (a : LaneAcc) : Nat := extLoad ty a.size (a.data.toNat % 2 ^ (8 * a.size))
  ws.zipIdx.map fun (x : RWrite × Nat) => match x.1 with
    | .vec n l q b => match acc l with
      | some a => .vec n l (BitVec.ofNat 32 (if a.size = 8 ∧ n % 2 = 1 then val a / 2 ^ 32 else val a)) a.pois
      | none => .vec n l q b
    | .uni n q b => match accs[x.2]? with
      | some a => .uni n (if a.size = 8 then BitVec.ofNat 64 (val a) else ext64 (ty == .i32) (val a)) a.pois
      | none => .uni n q b
    | .prd n l _ _ => .prd n l false false

/-- A write without poison. -/
def RWrite.clean : RWrite → RWrite
  | .vec n l x _ => .vec n l x false
  | .uni n x _ => .uni n x false
  | .prd n l b _ => .prd n l b false

/-- A reply fills the result that awaits its tag. A stage item is never poisoned (R400). -/
def Column.fillReply (c : Column) (tag : Nat) (ty : Ty) (accs : List LaneAcc) : Column :=
  let f (r : Result) : Result :=
    if r.await = .reply tag then { r with writes := fillWrites ty accs r.writes, await := .none }
    else if r.await = .item tag then { r with writes := (fillWrites ty accs r.writes).map RWrite.clean, await := .none }
    else r
  { c with results := c.results.map f }

end Sys2Proof.Machine
end

