-- ==== Sys2Proof/Machine/TileDesc.lean ====
section
/-!
DEFINITION. Tile descriptors (R171, R172, R406): their fields, their check, and the bytes of a tile.
-/

namespace Sys2Proof.Machine

abbrev TileDesc := BitVec 256

def descKind (d : TileDesc) : Nat := fieldNat d 2 0
/-- REGION names the window (otherwise the own slice). -/
def descWin (d : TileDesc) : Bool := fieldNat d 65 64 == 1
def descTy (d : TileDesc) : Nat := fieldNat d 75 72
def descP (d : TileDesc) : Nat := fieldNat d 84 80
def descKs (d : TileDesc) : Nat := fieldNat d 106 96
def descRows (d : TileDesc) : Nat := fieldNat d 136 128
def descBase (d : TileDesc) : Nat := fieldNat d 191 160
def descExp (d : TileDesc) : Nat := fieldNat d 223 192
def descStride (d : TileDesc) : Nat := fieldNat d 255 224

/-- i8x4 and i16x2. -/
def intTile (ty : Nat) : Bool := ty == 8 || ty == 9

/-- Whether a descriptor keeps the field ranges, zero fields, alignments and strides of R171 and R172. -/
def tdescOk (d : TileDesc) : Bool :=
  let ty := descTy d
  let ks := descKs d
  let st := descStride d
  let zero := fieldNat d 63 3 == 0 && fieldNat d 71 66 == 0 && fieldNat d 79 76 == 0 && fieldNat d 95 85 == 0 && fieldNat d 127 107 == 0
    && fieldNat d 159 137 == 0 && decide (fieldNat d 65 64 < 2)
  match descKind d with
  | 0 => d == 0
  | 1 => zero && descRows d == 32 && decide (2 ≤ descP d) && decide (descP d ≤ 16) && [4, 6, 7, 8, 9, 10, 11, 14].contains ty && ks != 0
      && descBase d % 32 == 0 && descExp d % 32 == 0 && st % 32 == 0 && decide (32 ≤ st)
  | 2 => zero && descRows d == 0 && descP d == 0 && (decide (4 ≤ ty) && decide (ty ≤ 12) || ty == 14) && ks != 0
      && descBase d % 32 == 0 && descExp d % 32 == 0 && st % 32 == 0
      && (if intTile ty then descExp d == 0 && st == 0 else decide ((if ty = 12 then 128 else 32) ≤ st))
  | 3 => zero && decide (1 ≤ descRows d) && decide (descRows d ≤ 256) && descP d == 0 && ty != 15 && ks != 0 && descExp d == 0
      && descBase d % 4 == 0 && st % 4 == 0 && decide (4 * ks ≤ st)
  | 4 => zero && descRows d == 0 && descP d == 0 && ty == 0 && ks == 0 && descExp d == 0 && st == 0 && descBase d % 128 == 0
  | _ => false

/-- Bytes of exponents per slab. -/
def expBytes (d : TileDesc) : Nat :=
  match descKind d with
  | 1 => 32
  | 2 => if intTile (descTy d) then 0 else if descTy d = 12 then 128 else 32
  | _ => 0

/-- The byte ranges of a tile in its region (R406): start and length. -/
def tileRanges (d : TileDesc) : List (Nat × Nat) :=
  let exps := (List.range (descKs d)).map fun i => (descExp d + descStride d * i, expBytes d)
  match descKind d with
  | 1 => (descBase d, 32 * descP d * descKs d) :: exps
  | 2 => (descBase d, 512 * descKs d) :: exps.filter (·.2 != 0)
  | 3 => (List.range (descRows d)).map fun i => (descBase d + descStride d * i, 4 * descKs d)
  | 4 => [(descBase d, 128)]
  | _ => []

/-- Bytes of a tile and its exponents. -/
def tileBytes (d : TileDesc) : Nat := ((tileRanges d).map (·.2)).foldl (· + ·) 0

/-- Whether every byte of a tile lies inside its region (R406). -/
def tileInside (d : TileDesc) (size : Nat) : Bool := (tileRanges d).all fun r => decide (r.1 + r.2 ≤ size)

/-- The core scratchpad ranges of a tile of a column. -/
def State.tileSpans (s : State) (col : Nat) (d : TileDesc) : List (Nat × Nat) :=
  (tileRanges d).map fun r => ((s.region col (descWin d)).1 + r.1, r.2)

/-- Whether two lists of ranges share a byte. -/
def rangesMeet (a b : List (Nat × Nat)) : Bool :=
  a.any fun x => b.any fun y => decide (x.1 < y.1 + y.2) && decide (y.1 < x.1 + x.2)

/-- Whether a column's TZERO that touches some bytes of its core's scratchpad is still to be written: its later scratchpad words to
them stall (R407). -/
def State.zeroing (s : State) (col : Nat) (rs : List (Nat × Nat)) : Bool :=
  s.ops.any fun e => match e.2 with
    | some o => match o.body with
      | .tzero c d => c == col && rangesMeet (s.tileSpans c d) rs
      | _ => false
    | none => false

end Sys2Proof.Machine
end

