-- ==== Sys2Proof/Machine/Memory.lean ====
section
/-!
DEFINITION. Loads and stores of own memory and scratchpad, remote loads and stores, prefetch, surface reports, and the page words (R352 to
R367).
-/

namespace Sys2Proof.Machine

/-! ## The memory word (R352 to R354) -/

def memM (w : Full) : Bool := xb w 3
def memLn (w : Full) : Bool := xb w 2
def memOrd (w : Full) : Nat := if memM w then immF w 20 19 else 0
def memScope (w : Full) : Nat := if memM w then immF w 23 21 else 0
def memDisp (w : Full) : Int := if memM w then toSigned 19 (immF w 18 0) else immS w

/-- The bytes of an access of a type. -/
def tySize (t : Ty) : Nat := if isWide t then 8 else if t = .f16 then 2 else 4
def memSize (w : Full) : Nat := if xf w 1 0 = 1 then 1 else if xf w 1 0 = 2 then 2 else tySize w.ty

/-- The reasons of a memory word: 16 and 2 for a marked form, 17 for SZ, 18 for a uniform D. `ords` are the orders it takes. -/
def memMore (w : Full) (ords : List Nat) : Option (Nat × Nat) :=
  if memM w ∧ (ords.contains (immF w 20 19)) = false then some (0, 16)
  else if memM w ∧ 6 ≤ immF w 23 21 then some (0, 2)
  else if xf w 1 0 = 3 ∨ (xf w 1 0 ≠ 0 ∧ w.ty ≠ .i32 ∧ w.ty ≠ .n32) then some (0, 17)
  else if isUni w.d ∧ (!isUni w.a ∨ memLn w) then some (0, 18)
  else none

def fmtMem (ords : List Nat) (_ : KHdr) (w : Full) : Fmt :=
  { d := fVS.w (isWide w.ty), a := fVSW, tys := some tyAny, xs := [xFld 0 4 fun _ => true], r := false, i := true, more := memMore w ords }

/-- Lane l's address. -/
def Ctx.addr (x : Ctx) (l : Nat) : DWord :=
  BitVec.ofInt 64 ((x.ra true l : Nat) + memDisp x.w + (if memLn x.w then (l * memSize x.w : Nat) else (0 : Nat)))

/-- The enabled lanes for which a condition holds. -/
def Ctx.bad (x : Ctx) (p : Nat → Bool) : Mask := maskWhere fun l => x.on l && p l

/-- The lanes whose address names the issuing column. -/
def ownAddr (col : Nat) (a : DWord) : Bool :=
  isSelfAlias a.toNat || (addrPkg a.toNat == Config.package.toNat && addrCol a.toNat == col)

/-- The address checks of R183: column escape, then a reserved aperture. -/
def Ctx.check183 (x : Ctx) (f : Nat → DWord) : Option Eff :=
  let esc := x.bad fun l => !ownAddr x.col (f l)
  let ap := x.bad fun l => decide (2 ≤ addrAp (f l).toNat)
  if esc ≠ 0 then some (x.trapAt 5 esc f 0) else if ap ≠ 0 then some (x.trapAt 8 ap f 5) else none

/-- The address checks of R184. -/
def Ctx.check184 (x : Ctx) (f : Nat → DWord) : Option Eff :=
  let m := x.bad fun l => decide (2 ≤ addrAp (f l).toNat) || (!isSelfAlias (f l).toNat && decide (nCols ≤ addrCol (f l).toNat))
  if m ≠ 0 then some (x.trapAt 8 m f 5) else none

/-- The alignment check. -/
def Ctx.checkAlign (x : Ctx) (f : Nat → DWord) (size : Nat) : Option Eff :=
  let m := x.bad fun l => (f l).toNat % size != 0
  if m ≠ 0 then some (x.trapAt 7 m f (Nat.log2 size)) else none

/-! ## Translation at issue (R183, R187 to R189) -/

/-- The outcome of one access of own memory. -/
def Ctx.own (x : Ctx) (a : DWord) (size : Nat) (acc : Acc) : XOut :=
  x.s.check (x.s.ctxOf x.col) x.col (addrOff a.toNat) size (addrAp a.toNat == 1) acc

/-- The trap of an outcome: its code and %tinfo. A plain store of part of a word to a tolerant page is misaligned (R41). -/
def outTrap (o : XOut) (a : DWord) (size : Nat) (acc : Acc) : Option (Nat × Nat) :=
  match o with
  | .miss => none
  | .prot r => some (8, r)
  | .isSealed => some (6, 0)
  | .page p => if acc.stores && addrAp a.toNat == 0 && p.tol != 0 && size % 4 != 0 then some (7, 2) else none

/-- The pages of some addresses of the column, each by its offset and the aperture of its first address. -/
def pagesOf (as : List DWord) : List Nat :=
  as.foldl (fun ps a =>
    if ps.any fun p => addrOff p / 65536 == addrOff a.toNat / 65536 then ps else ps ++ [a.toNat % 2 ^ 36 / 65536 * 65536]) []

/-- The faults, then the traps, of the lanes `ls`. -/
def Ctx.checkOwn (x : Ctx) (ls : Mask) (f : Nat → DWord) (size : Nat) (acc : Acc) : Option Eff :=
  let out (l : Nat) : XOut := x.own (f l) size acc
  let miss := (lanesOf ls).filter fun l => out l == .miss
  if miss ≠ [] then some (.replay (pagesOf (miss.map f)) acc)
  else
    match (lanesOf ls).findSome? fun l => outTrap (out l) (f l) size acc with
    | none => none
    | some (code, info) =>
      let m := maskWhere fun l => ls.getLsbD l && outTrap (out l) (f l) size acc == some (code, info)
      some (x.trapAt code m f info)

/-- The span of an access that is performed. -/
def State.spanAt (s : State) (col : Nat) (a : DWord) (size : Nat) (acc : Acc) : Option Span :=
  match s.check (s.ctxOf col) col (addrOff a.toNat) size (addrAp a.toNat == 1) acc with
  | .page p => some ⟨col, p, addrAp a.toNat == 1, addrOff a.toNat % p.size⟩
  | _ => none

/-- Reads own memory in some lanes: the values and poison. -/
def State.readLanes (s : State) (col : Nat) (f : Nat → DWord) (size : Nat) : List Nat → State × List LaneAcc
  | [] => (s, [])
  | l :: ls =>
    match s.spanAt col (f l) size .read with
    | none => s.readLanes col f size ls
    | some sp =>
      let (s, bs, poi) := s.readSpan sp size
      let r := s.readLanes col f size ls
      (r.1, ⟨l, f l, size, BitVec.ofNat 64 (natOf bs), 0, poi⟩ :: r.2)

/-- Writes own memory in some lanes, in ascending order, as one store. -/
def State.writeLanes (s : State) (col : Nat) (accs : List LaneAcc) : State :=
  s.writeSpans (accs.filterMap fun a => (s.spanAt col a.addr a.size .write).map fun sp => (sp, bytesOf a.size a.data.toNat, a.pois))

/-- The writes of a load in some lanes, with values to be filled in. -/
def Ctx.slots (x : Ctx) (ls : List Nat) : List RWrite :=
  ls.flatMap fun l => wrOne x.w.d (decide (memSize x.w = 8)) false l 0 false

/-! ## LD and ST (R355, R356) -/

/-- Own memory has performed every earlier access when it takes the word, so only requests hold it. -/
def Ctx.held (x : Ctx) (wr : Bool) (ord : Nat) (performsHere : Mask) : Bool :=
  x.c.held x.en wr (ord == 1 || ord == 3) || (decide (2 ≤ ord) && x.c.pendingReqs performsHere)

def execLd (w : Full) (s : State) : Res :=
  s.word w (fmtMem [1, 3]) (fun x => [x.ptAddr x.w.a true x.addr]) fun x =>
    if x.en = 0 then .go x.s none false
    else
      let size := memSize w
      match firstOf [x.check183 x.addr, x.checkAlign x.addr size, x.checkOwn x.en x.addr size .read] with
      | some e => e
      | none =>
        if x.held false (memOrd w) x.en then .stall
        else
          let ls := x.lanesFor x.w.d
          let (s', accs) := x.s.readLanes x.col x.addr size ls
          let ws := fillWrites w.ty accs (x.slots ls)
          .go (s'.setCol x.col (x.c.addResult x.k ws 0 .none (regsOf ws))) none false

/-- The accesses of a store in some lanes. -/
def Ctx.stores (x : Ctx) (ls : List Nat) : List LaneAcc :=
  let wide := decide (memSize x.w = 8)
  ls.map fun l => ⟨l, x.addr l, memSize x.w, BitVec.ofNat 64 (x.rdd wide l), 0, x.qd wide l⟩

def execSt (w : Full) (s : State) : Res :=
  s.word w (fmtMem [2, 3]) (fun x => [x.ptAddr x.w.a true x.addr]) fun x =>
    if x.en = 0 then .go x.s none false
    else
      let size := memSize w
      match firstOf [x.check183 x.addr, x.checkAlign x.addr size, x.checkOwn x.en x.addr size .write] with
      | some e => e
      | none =>
        if x.held true (memOrd w) x.en then .stall
        else .go (x.s.writeLanes x.col (x.stores (x.lanesFor x.w.d))) none false

/-! ## Scratchpad (R357) -/

/-- Reads `size` bytes at a core scratchpad address: whole words, poisoned if any is. -/
def State.spadRead (s : State) (core a size : Nat) : Nat × Bool :=
  let lo := s.spadGet core a
  let hi := if size = 8 then s.spadGet core (a + 4) else (0, false)
  ((lo.1.toNat + 2 ^ 32 * hi.1.toNat) / 2 ^ (8 * (a % 4)) % 2 ^ (8 * size), lo.2 || hi.2)

/-- Writes `size` bytes: the bytes are merged and whole words are written. -/
def State.spadWrite (s : State) (core a size v : Nat) (poi : Bool) : State :=
  if size = 8 then (s.spadSet core a (BitVec.ofNat 32 v) poi).spadSet core (a + 4) (BitVec.ofNat 32 (v / 2 ^ 32)) poi
  else
    let sh := 8 * (a % 4)
    let old := (s.spadGet core a).1.toNat
    let m := (2 ^ (8 * size) - 1) * 2 ^ sh
    s.spadSet core a (BitVec.ofNat 32 ((old &&& (2 ^ 32 - 1 - m)) ||| (v % 2 ^ (8 * size)) * 2 ^ sh)) poi

/-- The region check, then alignment, then the wait for a TZERO of the column (R407). -/
def Ctx.checkSpad (x : Ctx) (win : Bool) : Option Eff :=
  let size := memSize x.w
  let (base, lim) := x.s.region x.col win
  let out := x.bad fun l => decide (lim < (x.addr l).toNat + size)
  if out ≠ 0 then some (x.trapAt 8 out x.addr 16)
  else
    match x.checkAlign x.addr size with
    | some e => some e
    | none => if x.s.zeroing x.col ((lanesOf x.en).map fun l => (base + (x.addr l).toNat, size)) then some .stall else none

def Ctx.spadLoad (x : Ctx) (win : Bool) : Eff :=
  if x.en = 0 then .go x.s none false
  else
    match x.checkSpad win with
    | some e => e
    | none =>
      let size := memSize x.w
      let base := (x.s.region x.col win).1
      let ls := x.lanesFor x.w.d
      let accs := ls.map fun l =>
        let r := x.s.spadRead (coreOf x.col) (base + (x.addr l).toNat) size
        (⟨l, x.addr l, size, BitVec.ofNat 64 r.1, 0, r.2⟩ : LaneAcc)
      let ws := fillWrites x.w.ty accs (x.slots ls)
      .go (x.s.setCol x.col (x.c.addResult x.k ws 0 .none (regsOf ws))) none false

/-- One store's writes, in ascending lane order: a word that a poisoned lane has written any byte of is poisoned (R110). -/
def State.spadWrites (s : State) (core base : Nat) (accs : List LaneAcc) : State :=
  let s := accs.foldl (fun s a => s.spadWrite core (base + a.addr.toNat) a.size a.data.toNat a.pois) s
  let bad (a : LaneAcc) : List Nat := if a.pois then (List.range ((a.size + 3) / 4)).map fun i => base + a.addr.toNat + 4 * i else []
  { s with spadP := (accs.flatMap bad).foldl (fun t i => tabSet t (spadKey core i) true) s.spadP }

def Ctx.spadStore (x : Ctx) (win : Bool) : Eff :=
  if x.en = 0 then .go x.s none false
  else
    match x.checkSpad win with
    | some e => e
    | none =>
      let base := (x.s.region x.col win).1
      .go (x.s.spadWrites (coreOf x.col) base (x.stores (x.lanesFor x.w.d))) none false

def execLds (w : Full) (s : State) : Res :=
  s.word w (fmtMem []) (fun x => [x.ptAddr x.w.a true x.addr]) fun x => x.spadLoad false
def execSts (w : Full) (s : State) : Res :=
  s.word w (fmtMem []) (fun x => [x.ptAddr x.w.a true x.addr]) fun x => x.spadStore false
def execLdw (w : Full) (s : State) : Res :=
  s.word w (fmtMem []) (fun x => [x.ptAddr x.w.a true x.addr]) fun x => x.spadLoad true
def execStw (w : Full) (s : State) : Res :=
  s.word w (fmtMem []) (fun x => [x.ptAddr x.w.a true x.addr]) fun x => x.spadStore true

/-! ## LDR, STR and LDRO (R358, R360, R361) -/

/-- The lanes that name the issuing column, and the others. -/
def Ctx.ownLanes (x : Ctx) (f : Nat → DWord) (ls : List Nat) : List Nat := ls.filter fun l => ownAddr x.col (f l)
def Ctx.farLanes (x : Ctx) (f : Nat → DWord) (ls : List Nat) : List Nat := ls.filter fun l => !ownAddr x.col (f l)

/-- The pages of own lanes without a translation. -/
def Ctx.ownMisses (x : Ctx) (f : Nat → DWord) (size : Nat) (acc : Acc) (ls : List Nat) : List Nat :=
  pagesOf ((ls.filter fun l => x.own (f l) size acc == .miss).map f)

/-- Whether an own lane's access is refused as a remote one is (R184, R192). -/
def Ctx.refused (x : Ctx) (f : Nat → DWord) (size : Nat) (acc : Acc) (l : Nat) : Bool :=
  (outTrap (x.own (f l) size acc) (f l) size acc).isSome

/-- The events of refused accesses of own lanes: one for each block, as a packet would have had. -/
def Ctx.refuse (x : Ctx) (s : State) (f : Nat → DWord) (acc : Acc) (ls : List Nat) : State :=
  (groupLanes (fun l => (f l).toNat / 256) ls).foldl (fun s g =>
    s.refuseEvent (x.s.ctxOf x.col) x.col (faultAddr x.col ((f (g.2.headD 0)).toNat % 2 ^ 36)).toNat acc 0) s

/-- The packets of some lanes: one for each block. -/
def Ctx.packets (x : Ctx) (kind ord scope : Nat) (accs : List LaneAcc) (payload : Bool) : List Packet :=
  (groupLanes (fun l => match accs.find? (·.lane == l) with
      | some a => a.addr.toNat / 256
      | none => 0) (accs.map (·.lane))).map fun g =>
    requestPacket kind ord scope x.w.ty g.1 (accs.filter fun a => g.2.contains a.lane) payload

/-- The lanes of a packet: all enabled lanes where the word makes one access for its split (R353). -/
def Ctx.lanesOfPkt (x : Ctx) (p : Packet) : Mask := if isUni x.w.d then x.en else maskOf (p.accs.map (·.lane))

/-- Hands over the packets of a word, each with a result where it loads. -/
def Ctx.sendAll (x : Ctx) (s : State) (ps : List Packet) (wr : Bool) (ord : Nat) (slots : Option (List Nat → List RWrite)) : State :=
  let s := ps.foldl (fun s p =>
    let tag := s.nextTag
    let s := s.request x.col p (x.lanesOfPkt p) wr (ord == 1 || ord == 3) (decide (2 ≤ ord))
    match slots with
    | none => s
    | some f =>
      let ws := f (p.accs.map (·.lane))
      s.modCol x.col fun c => c.addResult x.k ws 0 (.reply tag) (regsOf ws)) s
  s.pump x.col

/-- A remote load; `ro` when replicas may serve it. -/
def Ctx.remoteLoad (x : Ctx) (ro : Bool) : Eff :=
  if x.en = 0 then .go x.s none false
  else
    let size := memSize x.w
    let ord := memOrd x.w
    match firstOf [x.check184 x.addr, x.checkAlign x.addr size] with
    | some e => e
    | none =>
      let ls := x.lanesFor x.w.d
      let mine := x.ownLanes x.addr ls
      let miss := x.ownMisses x.addr size .read mine
      if miss ≠ [] then .replay miss .read
      else
        let far := (x.farLanes x.addr ls).map fun l => (⟨l, x.addr l, size, 0, 0, false⟩ : LaneAcc)
        let ps := x.packets (if ro then kLdro else kLdr) ord (memScope x.w) far false
        -- a packet whose every line is in the cluster's replica region is served from it (R361)
        let lineOf (a : LaneAcc) : Option Replica := x.s.replicas.find? fun r =>
          r.cluster == clusterOf x.col && r.owner == awayCol a.addr.toNat && r.line == a.addr.toNat % 2 ^ 36 / 64
        let hit (p : Packet) : Bool := ro && p.accs.all fun a => (lineOf a).isSome
        let out := ps.filter fun p => !hit p
        if x.held false ord (maskOf mine) || !x.s.canRequest x.col (out.map fun p => creditKey p.dest.toNat) then .stall
        else
          let no := mine.filter (x.refused x.addr size .read)
          let s := x.refuse x.s x.addr .read no
          let (s, accs) := s.readLanes x.col x.addr size (mine.filter fun l => !no.contains l)
          let (s, lost) := s.freeAccs (no.map fun l => ⟨l, x.addr l, size, 0, 0, false⟩)
          let cached := (ps.filter hit).flatMap fun p => p.accs.map fun a => match lineOf a with
            | some r => { a with data := BitVec.ofNat 64 (r.data.toNat / 2 ^ (8 * (a.addr.toNat % 64)) % 2 ^ (8 * size)), pois := r.pois }
            | none => a
          let here := accs ++ lost ++ cached
          let ws := fillWrites x.w.ty here (x.slots (here.map (·.lane)))
          let s := if here = [] then s else s.modCol x.col fun c => c.addResult x.k ws 0 .none (regsOf ws)
          .go (x.sendAll s out false ord (some x.slots)) none false

def execLdr (w : Full) (s : State) : Res :=
  s.word w (fmtMem [1, 3]) (fun x => [x.ptAddr x.w.a true x.addr]) fun x => x.remoteLoad false

def execLdro (w : Full) (s : State) : Res :=
  s.word w (fmtMem []) (fun x => [x.ptAddr x.w.a true x.addr]) fun x => x.remoteLoad true

def execStr (w : Full) (s : State) : Res :=
  s.word w (fmtMem [2, 3]) (fun x => [x.pt x.w.d (decide (memSize w = 8)) 3, x.ptAddr x.w.a true x.addr]) fun x =>
    if x.en = 0 then .go x.s none false
    else
      let size := memSize w
      let ord := memOrd w
      match firstOf [x.check184 x.addr, x.checkAlign x.addr size] with
      | some e => e
      | none =>
        let ls := x.lanesFor x.w.d
        let mine := x.ownLanes x.addr ls
        let miss := x.ownMisses x.addr size .write mine
        if miss ≠ [] then .replay miss .write
        else
          let ps := x.packets kStr ord (memScope w) (x.stores (x.farLanes x.addr ls)) true
          if x.held true ord (maskOf mine) || !x.s.canRequest x.col (ps.map fun p => creditKey p.dest.toNat) then .stall
          else
            let no := mine.filter (x.refused x.addr size .write)
            let s := x.refuse x.s x.addr .write no
            let s := s.writeLanes x.col (x.stores (mine.filter fun l => !no.contains l))
            .go (x.sendAll s ps true ord none) none false

/-! ## PREF and SURF (R362, R363) -/

def fmtPref (_ : KHdr) (w : Full) : Fmt :=
  { a := fVSW, xs := [xBit 0, xBit 2, xBit 3], r := false, i := true, more := if memM w then some (0, 16) else none }

/-- The address of a prefetch: .ln adds 64 bytes a lane. -/
def Ctx.prefAddr (x : Ctx) (l : Nat) : DWord :=
  BitVec.ofInt 64 ((x.ra true l : Nat) + immS x.w + (if memLn x.w then (64 * l : Nat) else (0 : Nat)))

/-- The line of a lane's prefetch is read (R35); one that meets a fault or is refused is dropped. -/
def State.prefetch (s : State) (col : Nat) (a : DWord) : State :=
  match s.spanAt col a 1 .read with
  | some sp => (s.readSpan sp 1).1
  | none => s.touchWalk (s.ctxOf col) col (addrOff a.toNat)

/-- A prefetch changes no value that a read returns: its address checks show, and the errors that its lines hold. -/
def execPref (w : Full) (s : State) : Res :=
  s.word w fmtPref (fun x => [x.ptAddr x.w.a true x.prefAddr]) fun x =>
    match x.check183 x.prefAddr with
    | some e => e
    | none => .go ((lanesOf x.en).foldl (fun s l => s.prefetch x.col (x.prefAddr l)) x.s) none false

def fmtSurf (_ : KHdr) (w : Full) : Fmt :=
  { d := fS, a := fS, xs := [xBit 3], r := false, i := true, more := if memM w then some (0, 16) else none }

/-- The report on the page and block of an offset. -/
def State.surf (s : State) (ctx col off : Nat) (raw : Bool) : Nat :=
  match (s.walk ctx col off).1 with
  | .miss => 0
  | .bad _ => 2 ^ 17
  | .page p =>
    let b (x : Bool) (i : Nat) : Nat := if x then 2 ^ i else 0
    let po := off % p.size / 256 * 256
    let psn := (List.range 256).any fun i => tabGet s.pois (s.pagePlace col p raw (po + i)).line
    let mode := if p.comp then tabGet s.modes ((s.pagePlace col p raw po).addr / 256) else 0
    b psn 16 + 2 ^ 15 + b p.x 14 + b p.w 13 + b p.tier 12 + b p.sl 11 + p.tol * 2 ^ 9 + b p.comp 8
      + (if p.comp then modeSectors mode else 8) * 2 ^ 4 + mode

def execSurf (w : Full) (s : State) : Res :=
  s.word w fmtSurf (fun x => [x.ptAddr x.w.a true x.prefAddr]) fun x =>
    match x.check183 x.prefAddr with
    | some e => e
    | none =>
      if x.en = 0 then .go x.s none false
      else
        let a := (x.prefAddr (lowLane x.en)).toNat
        let s := x.s.touchWalk (x.s.ctxOf x.col) x.col (addrOff a)
        { x with s := s }.var (wrOne x.w.d true false 0 (s.surf (s.ctxOf x.col) x.col (addrOff a) (addrAp a == 1)) false, 0)

/-! ## FLUSH, SEAL, UNSEAL (R364 to R367) -/

def fmtPage (_ : KHdr) (_ : Full) : Fmt := { a := fS, b := fS }

/-- The 64 KiB steps of a region. -/
def steps64 (off len : Nat) : List Nat :=
  (List.range ((off + len + 65535) / 65536 - off / 65536)).map fun i => off / 65536 * 65536 + 65536 * i

/-- The 256-byte blocks of memory that hold a page's part of a region: the first and the last. -/
def State.stepBlocks (s : State) (ctx : Nat) (q : PageOp) (o : Nat) : Option (Nat × Nat) :=
  match (s.walk ctx q.col o).1 with
  | .page p =>
    let lo := (max o q.off) % p.size
    let n := min (o + 65536) (q.off + q.len) - max o q.off
    some ((s.pagePlace q.col p false lo).addr / 256, (s.pagePlace q.col p false (lo + n - 1)).addr / 256)
  | _ => none

/-- Every dirty line of a region is written back (R365). -/
def State.flushRegion (s : State) (ctx : Nat) (q : PageOp) : State :=
  let rs := (steps64 q.off q.len).filterMap (s.stepBlocks ctx q)
  let held := s.heldBlocks
  (held.filter fun b => rs.any fun r => decide (r.1 ≤ b) && decide (b ≤ r.2)).foldl
    (fun (s : State) (b : Nat) => s.cleanBlock (placeOf (256 * b))) s

/-- The checks of a page word's region, and the operation it starts. `kind` is FLUSH, SEAL or UNSEAL. What FLUSH finds dirty is written
back before a later access of its lanes (R209, R365); the word completes by FLUSH_COMPLETION. -/
def Ctx.pageWord (x : Ctx) (kind : PageKind) : Eff :=
  if x.en = 0 then .go x.s none false
  else
    let f (l : Nat) : DWord := BitVec.ofNat 64 (x.ra true l)
    let len := x.rb true (lowLane x.en)
    let al := if kind = .flush then 256 else 65536
    let off := addrOff (f (lowLane x.en)).toNat
    match x.check183 f with
    | some e => e
    | none =>
      if off % al ≠ 0 ∨ len % al ≠ 0 then x.trapAt 7 x.en f (Nat.log2 al)
      else if 2 ^ 34 < off + len then x.trapAt 8 x.en f 20
      else if len = 0 then .go x.s none false
      else
        let ctx := x.s.ctxOf x.col
        let out := (steps64 off len).map fun o => (o, (x.s.walk ctx x.col o).1)
        let miss := (out.filter fun o => o.2 == .miss).map (·.1)
        let acc : Acc := if kind = .flush then .read else .write
        if miss ≠ [] then .replay (miss.map (· + addrAp (f (lowLane x.en)).toNat * 2 ^ 34)) acc
        else
          let bad := out.findSome? fun o => match o.2 with
            | .bad r => some r
            | .page p =>
              if kind ≠ .flush ∧ p.size = 2 ^ 21 ∧ (o.1 / 2 ^ 21 * 2 ^ 21 < off ∨ off + len < o.1 / 2 ^ 21 * 2 ^ 21 + 2 ^ 21) then some 18
              else none
            | .miss => none
          match bad with
          | some r => x.trapAt 8 x.en f r
          | none =>
            let id := x.s.nextOp
            let o : PageOp := { kind := kind, col := x.col, off := off, len := len, inval := [], acks := [], begun := false, lanes := x.en, bound := x.s.nextTag }
            let s := { x.s with
              nextOp := id + 1, seqNo := x.s.seqNo + 1
              ops := tabSet x.s.ops id (some ⟨x.s.seqNo, ctx, false, .page o⟩) }
            let s := if kind = .flush then s.flushRegion ctx o else s
            .go (s.setCol x.col (x.c.addResult x.k [] 0 (.op id) [])) none false

/-- Both operands at point 1; the address is A's. -/
def Ctx.ptsPage (x : Ctx) : List Pt :=
  let f (l : Nat) : DWord := BitVec.ofNat 64 (x.ra true l)
  [x.ptAddr x.w.a true f, x.ptAddr (opB x.w) true f]

def execFlush (w : Full) (s : State) : Res :=
  s.word w fmtPage Ctx.ptsPage fun x => x.pageWord .flush
def execSeal (w : Full) (s : State) : Res :=
  s.word w fmtPage Ctx.ptsPage fun x => x.pageWord .seal
def execUnseal (w : Full) (s : State) : Res :=
  s.word w fmtPage Ctx.ptsPage fun x => x.pageWord .unseal

end Sys2Proof.Machine
end

