-- ==== Sys2Proof/Machine/Arrivals.lean ====
section
/-!
DEFINITION. Arrivals of loads, stores and their replies at their owners and requesters (R184, R190, R192, R360, R361).
-/

namespace Sys2Proof.Machine

/-- Puts a packet back as one that its owner holds for a fault. -/
def State.hold (s : State) (p : Packet) : State :=
  let q := { p with parked := true }
  { s with net := if s.net.contains p then s.net.map fun r => if r == p then q else r else s.net ++ [q] }

/-- Serves a request at its owner: a translation fault holds the packet (R190); an outcome 2, 3 or 5 of R187 refuses it with an event
(R192); otherwise `f` performs it in its page. -/
def State.serve (s : State) (name : String) (p : Packet) (acc : Acc) (f : State → Option Page → State) : Res :=
  let col := pktDest p
  let off := addrOff p.dest.toNat
  let ctx := s.tabs.curCtx
  match s.check ctx col off 256 (addrAp p.dest.toNat == 1) acc with
  | .miss =>
    if (s.freeEnt (clusterOf col)).isNone then notNow name
    else .next ((s.hold p).parkFault (.packet { p with parked := true }) ctx col (p.dest.toNat % 2 ^ 36) acc)
  | .page pg => .next (f (s.take p) (some pg))
  | _ => .next (f ((s.take p).refuseEvent ctx col p.dest.toNat acc 1) none)

/-- The span of a packet's access in its page. -/
def pktSpan (p : Packet) (pg : Page) (a : LaneAcc) : Span :=
  ⟨pktDest p, pg, addrAp p.dest.toNat == 1, addrOff a.addr.toNat % pg.size⟩

/-- Reads the accesses of a packet. -/
def State.readAccs (s : State) (p : Packet) (pg : Page) : List LaneAcc → State × List LaneAcc
  | [] => (s, [])
  | a :: as =>
    let (s, bs, poi) := s.readSpan (pktSpan p pg a) a.size
    let r := s.readAccs p pg as
    (r.1, { a with data := BitVec.ofNat 64 (natOf bs), pois := poi } :: r.2)

/-- Answers a refused load. -/
def State.answerRefused (s : State) (p : Packet) : State :=
  let (s, accs) := s.freeAccs p.accs
  s.send (replyTo p 1 accs)

/-- LDR_REQUEST (R360). -/
def execLdrRequest (p : Packet) (s : State) : Res :=
  s.deliver "LDR_REQUEST" kLdr p fun s => s.serve "LDR_REQUEST" p .read fun s pg =>
    match pg with
    | none => s.answerRefused p
    | some pg =>
      let (s, accs) := s.readAccs p pg p.accs
      s.send (replyTo p 0 accs)

/-- The whole lines of a block that some accesses touch: their numbers in the block. -/
def linesTouched (accs : List LaneAcc) : List Nat := ([0, 1, 2, 3] : List Nat).filter fun i => accs.any fun a => a.addr.toNat % 256 / 64 == i

/-- The lines of a sealed block: their words, and a mask with bit i for line i and bit 4 + i for its poison. -/
def State.readLines (s : State) (p : Packet) (pg : Page) : List Nat → State × List Word × Nat
  | [] => (s, [], 0)
  | i :: is =>
    let sp : Span := ⟨pktDest p, pg, addrAp p.dest.toNat == 1, (addrOff p.dest.toNat + 64 * i) % pg.size⟩
    let (s, bs, poi) := s.readSpan sp 64
    let r := s.readLines p pg is
    (r.1, (List.range 16).map (fun j => BitVec.ofNat 32 (wordAt bs j)) ++ r.2.1, r.2.2 + 2 ^ i + (if poi then 2 ^ (4 + i) else 0))

/-- LDRO_REQUEST (R361): a sealed page's lines travel whole. -/
def execLdroRequest (p : Packet) (s : State) : Res :=
  s.deliver "LDRO_REQUEST" kLdro p fun s => s.serve "LDRO_REQUEST" p .read fun s pg =>
    match pg with
    | none => s.answerRefused p
    | some pg =>
      let (s, accs) := s.readAccs p pg p.accs
      if pg.sl then
        let (s, ws, m) := s.readLines p pg (linesTouched p.accs)
        s.send { replyWith p kReadReply 0 accs ws with mask := BitVec.ofNat 32 m }
      else s.send (replyTo p 0 accs)

/-- Replicas that a cluster's region holds: 1 MiB of 64-byte lines (R2, R30). -/
def nReplicas : Nat := 16384

/-- Replicas join a cluster's region, in which the oldest make room (DESIGN CHOICE, log entry 62: R361 lets any be evicted). -/
def addReplicas (cl : Nat) (old new : List Replica) : List Replica :=
  let kept := old.filter fun r => !new.any fun n => n.cluster == r.cluster && n.owner == r.owner && n.line == r.line
  let excess := (kept.filter (·.cluster == cl)).length + new.length - nReplicas
  let first := (kept.filter (·.cluster == cl)).take excess
  kept.filter (fun r => !first.contains r) ++ new

/-- The reader's cluster keeps the lines of a reply as replicas, of owners in other clusters (R30, R361). An UNSEAL has taken them out of a reply
that was on its way when its invalidate came (R367). -/
def State.keepLines (s : State) (p : Packet) : State :=
  let owner := awayCol p.src.toNat
  let cl := clusterOf (pktDest p)
  let base := p.src.toNat % 2 ^ 36 / 64
  let ns := ([0, 1, 2, 3] : List Nat).filter fun i => p.mask.getLsbD i
  let reps := (List.range ns.length).map fun j =>
    let i := ns.getD j 0
    (⟨cl, owner, base + i, BitVec.ofNat 512 (natOf (((p.words.drop (16 * j)).take 16).flatMap fun w => bytesOf 4 w.toNat)),
      p.mask.getLsbD (4 + i)⟩ : Replica)
  if pktOurs p && pktCluster p == clusterOf (pktSrc p) then s else { s with replicas := addReplicas cl s.replicas reps }

/-- The outstanding request that a reply completes: one that went to the cluster that answers. A reply to a request that has completed finds none, and
is discarded (R18). -/
def State.reqOf (s : State) (p : Packet) : Option Req :=
  (s.col (pktDest p)).reqs.find? fun r => r.tag == p.req && r.credit == some (creditKey p.src.toNat)

/-- Whether a packet answers a request that has left the module. -/
def answers (p q : Packet) : Bool :=
  pktSrc q == pktDest p && q.req == p.req && !pktHere q
    && (replyKind q.kind.toNat == p.kind.toNat || (q.kind.toNat == kMessage && p.kind.toNat == kBounced))

/-- A reply leaves the fabric, with the request that another module has answered. -/
def State.landed (s : State) (p : Packet) : State :=
  let s := s.take p
  if pktOurs p then s else { s with net := s.net.filter fun q => !answers p q }

/-- A reply with values fills the result that awaits it; its request completes. -/
def State.landReply (s : State) (p : Packet) : State :=
  let s := s.landed p
  match s.reqOf p with
  | none => s
  | some _ => (s.modCol (pktDest p) fun c => c.fillReply p.req p.ty p.accs).complete (pktDest p) p.req

/-- READ_REPLY (R360, R361). -/
def execReadReply (p : Packet) (s : State) : Res :=
  s.deliver "READ_REPLY" kReadReply p fun s =>
    let t := s.landReply p
    .next (if p.words = [] ∨ (s.reqOf p).isNone then t else t.keepLines p)

/-- The pool slot of a stage item that reaches its pool (R87): the pushes to a run fill it in the order in which they reach the pool. WORDS of an item's packet
names its group, stage, push, the push's items and its number among them (DEDUCED, log entry 47: a packet for each item). -/
def State.placeItem (s : State) (p : Packet) : State × Packet :=
  match p.words.map (·.toNat) with
  | [gid, stage, push, n, i] =>
    match s.group gid with
    | none => (s, p)
    | some g =>
      match g.outRuns.find? (·.stage == stage) with
      | none => (s, p)
      | some r =>
        let first := ((r.placed.find? (·.1 == push)).map (·.2)).getD r.filled
        let r' : OutRun := if r.placed.any (·.1 == push) then r else { r with filled := r.filled + n, placed := r.placed ++ [(push, first)] }
        let a := itemAddr (((s.lq g.ctx g.queue).run.bind fun l => (l.stages[stage]?).map (·.qbase)).getD 0) (r.start + first + i)
        let q : Packet := { p with
          dest := BitVec.ofNat 64 (a.toNat / 256 * 256), words := []
          accs := p.accs.map fun x => { x with addr := a + BitVec.ofNat 64 (8 * x.lane) } }
        ((s.setGroup gid (some { g with outRuns := g.outRuns.map fun o => if o.stage = stage then r' else o })).swap p q, q)
  | _ => (s, p)

/-- STR_WRITE (R360): part of a word of a tolerant page is refused (R41). -/
def execStrWrite (p : Packet) (s : State) : Res :=
  s.deliver "STR_WRITE" kStr p fun s =>
    let (s, p) := s.placeItem p
    s.serve "STR_WRITE" p .write fun s pg =>
    match pg with
    | none => s.send (replyTo p 1 [])
    | some pg =>
      if pg.tol ≠ 0 ∧ addrAp p.dest.toNat = 0 ∧ p.accs.any (fun a => a.size % 4 != 0) then
        (s.refuseEvent s.tabs.curCtx (pktDest p) p.dest.toNat .write 1).send (replyTo p 1 [])
      else
        (s.writeSpans (p.accs.map fun a => (pktSpan p pg a, bytesOf a.size a.data.toNat, a.pois))).send (replyTo p 0 [])

/-- The launch whose end waits for the acknowledgement with a tag. -/
def State.sentEnd (s : State) (tag : Nat) : Option (Nat × Nat) :=
  s.sch.queues.findSome? fun (e : Nat × LQueue) => e.2.run.bind fun l => if l.sent = some tag then some (e.1 / 64, e.1 % 64) else none

/-- WRITE_ACKNOWLEDGEMENT (R359, R360, R403): of STR, RED, SEMSG and item writes, and of the scheduler's own packets (R71, R73, R464). -/
def execWriteAcknowledgement (p : Packet) (s : State) : Res :=
  s.deliver "WRITE_ACKNOWLEDGEMENT" kWriteAck p fun s =>
    let s := s.landed p
    .next (
      if s.sch.mgmtSent = some p.req then s.signalAcked p.stat.toNat
      else match s.sentEnd p.req with
        | some (ctx, q) => s.endAcked ctx q p.stat.toNat
        | none => if (s.reqOf p).isSome then s.complete (pktDest p) p.req else s)

/-- REPLICA_EVICTION (R361): at any time. -/
def execReplicaEviction (cluster line : Nat) (s : State) : Res :=
  if s.replicas.any fun r => r.cluster == cluster && r.line == line then
    .next { s with replicas := s.replicas.filter fun r => !(r.cluster == cluster && r.line == line) }
  else notNow "REPLICA_EVICTION"

end Sys2Proof.Machine
end

