-- ==== Sys2Proof/Machine/Pages.lean ====
section
/-!
DEFINITION. The completion of FLUSH, SEAL and UNSEAL (R365 to R367).
-/

namespace Sys2Proof.Machine

/-- An engine operation. -/
def State.op (s : State) (id : Nat) : Option EngOp := tabGet s.ops id
def State.setOp (s : State) (id : Nat) (o : Option EngOp) : State := { s with ops := tabSet s.ops id o }

/-- The result that awaits an operation is ready to be written. -/
def Column.opDone (c : Column) (id : Nat) : Column :=
  { c with results := c.results.map fun r => if r.await = .op id then { r with await := .none } else r }

/-- An operation ends: it leaves the machine, and the column's result may be written. -/
def State.endOp (s : State) (id col : Nat) : State :=
  let s := s.setOp id none
  if (tabGet s.cols col).isSome then s.modCol col fun c => c.opDone id else s

/-- Writes SL of the page entries of a region; the entries lie in the translation range, whose writes are mirrored (R115). -/
def State.writeSl (s : State) (ctx : Nat) (q : PageOp) (sl : Bool) : State :=
  (steps64 q.off q.len).foldl (fun s o =>
    match (s.walk ctx q.col o).1 with
    | .page p =>
      let s := s.fillBoth (s.hbmPlace q.col (p.ent + 1)) q.col
      s.storeByte q.col false (p.ent + 1) (setBit (s.getByte (s.hbmPlace q.col (p.ent + 1))) 0 sl)
    | _ => s) s

/-- SEAL_COMPLETION (R366): a release of its lanes; every store of the machine performs when it is translated. -/
def execSealCompletion (op : Nat) (s : State) : Res :=
  match s.op op with
  | some ⟨_, ctx, _, .page q⟩ =>
    if q.kind ≠ .seal ∨ (s.col q.col).reqs.any (fun r => decide (r.tag < q.bound) && r.lanes &&& q.lanes != 0) then notNow "SEAL_COMPLETION"
    else .next ((s.writeSl ctx q true).endOp op q.col)
  | _ => notNow "SEAL_COMPLETION"

/-- FLUSH_COMPLETION (R365). -/
def execFlushCompletion (op : Nat) (s : State) : Res :=
  match s.op op with
  | some ⟨_, ctx, _, .page q⟩ =>
    if q.kind ≠ .flush then notNow "FLUSH_COMPLETION"
    else .next ((s.flushRegion ctx q).endOp op q.col)
  | _ => notNow "FLUSH_COMPLETION"

/-- The clusters of the system (R367): this module's, by their numbers, and those of every package that the route table names. -/
def State.systemClusters (s : State) : List Nat :=
  let away := (s.tabs.route.map (·.1)).filter fun n => n != Config.package.toNat && s.routePorts n != []
  List.range 768 ++ away.flatMap fun n => (List.range 768).map fun c => 768 * (n + 1) + c

/-- The invalidate of an UNSEAL to a cluster (R359). Those on their way, and their acknowledgements, are the numbers in `inval` and `acks`. -/
def invalPacket (q : PageOp) (op cluster : Nat) : Packet :=
  let pkg := if cluster < 768 then Config.package.toNat else cluster / 768 - 1
  { kind := BitVec.ofNat 8 kInval, dest := BitVec.ofNat 64 (pkg * 2 ^ 52 + 48 * (cluster % 768) * 2 ^ 36), src := mkAddr q.col op
    vc := kindVc kInval, npay := 0, slot := 0, req := op, hops := 0, ord := 0, scope := 0, stat := 0, ty := .i32, op := 0, cas := false
    accs := [], words := [], mask := 0, parked := false, left := false, via := none, port := 0 }

/-- The replicas of an owner column that `hit` selects by their offset leave a cluster, and the replies that would bring it such. -/
def State.dropReplicas (s : State) (cluster owner : Nat) (hit : Nat → Bool) : State :=
  { s with
    replicas := s.replicas.filter fun r => !(r.cluster == cluster && r.owner == owner && hit (r.line * 64 % 2 ^ 34))
    net := s.net.map fun (p : Packet) =>
      if p.kind.toNat = kReadReply && pktHere p && pktCluster p == cluster && awayCol p.src.toNat == owner && hit (addrOff p.src.toNat) then
        { p with words := [], mask := 0 }
      else p }

/-- REPLICA_INVALIDATE (R367): UNSEAL clears the entries, then an invalidate reaches every cluster of the system; where no port leads to one any more
it completes as unreachable (R50). A packet is the invalidate of another module's UNSEAL: every replica of its column goes, as any may at any time
(DESIGN CHOICE, log entry 67: the packet's header does not name the region). -/
def execReplicaInvalidate (op : Nat) (what : InvalidateOf) (s : State) : Res :=
  match what with
  | .packet p => s.deliver "REPLICA_INVALIDATE" kInval p fun s =>
      .next (((s.take p).dropReplicas (pktCluster p) (awayCol p.src.toNat) fun _ => true).send (replyTo p 0 []))
  | .own cluster =>
    match s.op op with
    | some ⟨n, ctx, susp, .page q⟩ =>
      let left := if q.begun then q.inval else s.systemClusters
      if q.kind ≠ .unseal ∨ left.contains cluster = false ∨ (cluster < 768 ∧ s.pw.runs cluster = false) then notNow "REPLICA_INVALIDATE"
      else
        let s := if q.begun then s else s.writeSl ctx q false
        let lost := 768 ≤ cluster && s.routePorts (cluster / 768 - 1) == []
        let q := { q with begun := true, inval := left.erase cluster, acks := if lost then q.acks else q.acks ++ [cluster] }
        let s := if lost then s.postEvent 5 q.col (1 + at_ (invalPacket q op cluster).dest.toNat 64) else s
        let s := s.dropReplicas cluster (awayCol (mkAddr q.col 0).toNat) fun o => decide (q.off ≤ o) && decide (o < q.off + q.len)
        .next (if q.inval = [] ∧ q.acks = [] then s.endOp op q.col else s.setOp op (some ⟨n, ctx, susp, .page q⟩))
    | _ => notNow "REPLICA_INVALIDATE"

/-- INVALIDATE_ACKNOWLEDGEMENT (R367): the last one completes the UNSEAL. -/
def execInvalidateAcknowledgement (op cluster : Nat) (s : State) : Res :=
  match s.op op with
  | some ⟨n, ctx, susp, .page q⟩ =>
    if q.kind ≠ .unseal ∨ q.acks.contains cluster = false then notNow "INVALIDATE_ACKNOWLEDGEMENT"
    else
      let q := { q with acks := q.acks.erase cluster }
      .next (if q.inval = [] ∧ q.acks = [] then s.endOp op q.col else s.setOp op (some ⟨n, ctx, susp, .page q⟩))
  | _ => notNow "INVALIDATE_ACKNOWLEDGEMENT"

end Sys2Proof.Machine
end

