-- ==== Sys2Proof/Machine/Pipeline.lean ====
section
/-!
DEFINITION. What a pipe meets around its words: the fetch (R187, R189, R456), unassigned words (R266, R268), results written back
(R137), the entry into a trap handler (R305), the end of a NAP (R291), and faults that are walked again (R189, R190).
-/

namespace Sys2Proof.Machine

/-! ## Fetch (check 1 of R269) -/

/-- What the fetch of a split's word meets: a translation fault, a trap with its code and %tinfo, or the word. -/
inductive Fetch where
  | miss
  | trap (code info : Nat)
  | word (w : DWord)
  deriving DecidableEq, Repr, Inhabited

/-- Fetches the word at the PC of slot k, with the state after its lines are read. A PC that does not lie in the column escapes it. -/
def State.fetch (s : State) (col k : Nat) : State × Fetch :=
  let pc := ((s.col col).slot k).pc
  let off := addrOff pc.toNat
  if !isSelfAlias pc.toNat then (s, .trap 5 0)
  else
    match s.check (s.ctxOf col) col off 8 (addrAp pc.toNat == 1) .fetch with
    | .miss => (s, .miss)
    | .prot r => (s, .trap 8 r)
    | .isSealed => (s, .trap 6 0)
    | .page p =>
      let (s, bs, poi) := s.pageRead col p (addrAp pc.toNat == 1) (off % p.size) 8
      (s, if poi then .trap 9 11 else .word (BitVec.ofNat 64 (natOf bs)))

/-- INSTRUCTION_FETCH_FAULT: the word replays (R189), or traps with its PC in %tpc and %taddr. -/
def execInstructionFetchFault (s : State) : Res :=
  match s.run with
  | none => .fault .noSplit
  | some (col, k) =>
    let sp := (s.col col).slot k
    match s.fetch col k with
    | (s, .miss) => .next (s.perform col k false (.replay [sp.pc.toNat % 2 ^ 36 / 65536 * 65536] .fetch))
    | (s, .trap code info) => .next (s.perform col k false (.trap code sp.mask sp.pc info sp.pc))
    | (_, .word _) => notNow "INSTRUCTION_FETCH_FAULT"

/-! ## Unassigned words (R266, R268, R275) -/

/-- The assigned full opcodes (R267). -/
def opAssigned (op : Nat) : Bool :=
  decide (op ≤ 0x017) || (decide (0x040 ≤ op) && decide (op ≤ 0x06A)) || (decide (0x080 ≤ op) && decide (op ≤ 0x08D))
    || (decide (0x0C0 ≤ op) && decide (op ≤ 0x0DB)) || (decide (0x120 ≤ op) && decide (op ≤ 0x130))
    || (decide (0x180 ≤ op) && decide (op ≤ 0x192)) || (decide (0x1C0 ≤ op) && decide (op ≤ 0x1C9))
    || (decide (0x1E0 ≤ op) && decide (op ≤ 0x1E3))

/-- %tinfo of the illegal opcode trap of a word: [15] K, [14] the half, then OP or HOP. None for an assigned word. -/
def illegalInfo (w : DWord) : Option Nat :=
  let op := fieldNat w 61 53
  let x := fieldNat w 61 55
  let y := fieldNat w 30 24
  if op = 0x1FF then some (if w.getLsbD 62 then 0x807F else 0x1FF)
  else if w.getLsbD 62 then
    if 0x17 ≤ x then some (0x8000 + x) else if 0x17 ≤ y then some (0xC000 + y) else none
  else if opAssigned op then none
  else some op

/-- UNASSIGNED_OPCODE_WORD: trap 0x01 over the active lanes. -/
def execUnassignedOpcodeWord (word : DWord) (s : State) : Res :=
  match s.run, illegalInfo word with
  | none, _ => .fault .noSplit
  | some (col, k), some info =>
    let sp := (s.col col).slot k
    .next (s.perform col k false (.trap 1 sp.mask 0 info sp.pc))
  | _, none => notNow "UNASSIGNED_OPCODE_WORD"

/-! ## Results, handlers, naps -/

/-- Every parked split of a column whose results are all written goes on (R137). -/
def State.settleAll (s : State) (col : Nat) : State :=
  slots4.foldl (fun s k => if (tabGet s.cols col).isSome then s.settle col k else s) s

/-- RESULT_WRITEBACK (R137): a result whose value is there is written, and the splits that waited for it are ready. -/
def execResultWriteback (column result : Nat) (s : State) : Res :=
  match tabGet s.cols column with
  | none => notNow "RESULT_WRITEBACK"
  | some c =>
    match c.results.find? fun r => r.id == result && r.await == .none with
    | none => notNow "RESULT_WRITEBACK"
    | some r =>
      let c := { c.applyWrites r.writes with
        fpflags := c.fpflags ||| r.flags
        results := c.results.filter fun q => q.id != result }
      .next ((s.setCol column c).settleAll column)

/-- TRAP_ENTRY (R305): the trapping split's results are written, and the read of its table entry does not wait on a fault. -/
def execTrapEntry (column slot : Nat) (s : State) : Res :=
  match tabGet s.cols column with
  | none => notNow "TRAP_ENTRY"
  | some c =>
    let sp := c.slot slot
    if sp.cond = .trapping ∧ c.outstanding sp.lanes = false ∧ s.faults.any (fun f => f.waiter == .split column slot) = false then
      .next (s.enterTrap column slot)
    else notNow "TRAP_ENTRY"

/-- NAP_EXPIRY (R291): the split is ready, or parks until its results are written. -/
def execNapExpiry (column slot : Nat) (s : State) : Res :=
  match tabGet s.cols column with
  | none => notNow "NAP_EXPIRY"
  | some c =>
    let sp := c.slot slot
    if sp.cond = .napping ∧ sp.nap ≤ s.cycles column then
      .next ((s.modCol column fun c => c.modSlot slot fun sp => { sp with cond := .parked, nap := 0 }).settle column slot)
    else notNow "NAP_EXPIRY"

/-! ## Faults walked again (R189, R190, R100, R464) -/

/-- A waiter goes on after its page has been translated. -/
def State.resumeWaiter (s : State) (w : Waiter) : State :=
  match w with
  | .split col k =>
    if (tabGet s.cols col).isNone then s
    else s.modCol col fun c =>
      if (c.slot k).cond = .faulted then
        ((c.modSlot k fun sp => { sp with cond := c.restCond sp.lanes }).demoteNow k).fill
      else c
  | .packet p => { s with net := s.net.map fun q => if q == p then { q with parked := false } else q }
  | .engine id => match s.op id with
    | some o => s.setOp id (some { o with susp := false })
    | none => s
  | .fired ctx q => s.modLq ctx q fun l => { l with parked := false }
  | .ending ctx q =>
    if q = 65 then match s.sch.mgmtExec with
      | some r => s.runSignal r
      | none => s
    else s.endAgain ctx q

/-- TRANSLATION_FAULT_REWALK: entry 256 × cluster + number is walked again. A walk that fails again leaves the entry, which then
watches the lines of that walk. -/
def execTranslationFaultRewalk (entry : Nat) (s : State) : Res :=
  match s.faults.find? fun f => f.cluster == entry / 256 && f.ent == entry % 256 with
  | none => notNow "TRANSLATION_FAULT_REWALK"
  | some f =>
    match s.walk f.ctx f.owner (addrOff f.vaddr.toNat) with
    | (.miss, ls) => .next { s with faults := s.faults.map fun g => if g == f then { g with lines := ls } else g }
    | _ => .next ({ s with faults := s.faults.filter fun g => g != f }.resumeWaiter f.waiter)

end Sys2Proof.Machine
end

