-- ==== Sys2Proof/Machine/Purse.lean ====
section
/-!
DEFINITION. Purses (R173 to R175) and the words that use them (R293 to R302).
-/

namespace Sys2Proof.Machine

/-! ## Headers (R173, R174) -/

/-- A purse header. -/
structure PurseHdr where
  abits : Nat
  wake : Nat
  resume : DWord
  nrow : Nat
  width : Nat
  alloc : Nat
  woken : Nat
  layout : List Nat
  deriving DecidableEq, Repr, Inhabited

/-- The header in 1,024 bits. -/
def purseOf (n : Nat) : PurseHdr where
  abits := fld n 255 0
  wake := fld n 511 256
  resume := BitVec.ofNat 64 (n / 2 ^ 512)
  nrow := fld n 591 576
  width := fld n 607 592
  alloc := fld n 623 608
  woken := fld n 639 624
  layout := (List.range 48).map fun f => n / 2 ^ (640 + 8 * f) % 256

def PurseHdr.bits (p : PurseHdr) : Nat :=
  p.abits + at_ p.wake 256 + at_ p.resume.toNat 512 + at_ p.nrow 576 + at_ p.width 592 + at_ (p.alloc % 65536) 608
    + at_ (p.woken % 65536) 624 + at_ (natOf (p.layout.map fun b => BitVec.ofNat 8 b)) 640

/-- Fields of a row. -/
def PurseHdr.fields (p : PurseHdr) : List Nat := p.layout.take (p.width / 4)

/-- Bytes of the purse. -/
def PurseHdr.size (p : PurseHdr) : Nat := 128 + p.nrow * p.width

/-- A valid purse (R174) whose RESUME is a PC (order 4 of R293). -/
def PurseHdr.ok (p : PurseHdr) : Bool :=
  1 ≤ p.nrow && p.nrow ≤ 256 && 4 ≤ p.width && p.width ≤ 192 && p.width % 4 == 0
    && p.abits < 2 ^ p.nrow && p.wake < 2 ^ p.nrow && p.wake &&& p.abits == p.wake
    && p.alloc == popcount 256 p.abits && p.woken == popcount 256 p.wake
    && (p.layout.drop (p.width / 4)).all (· == 0) && pcOk p.resume

/-- The rows, ascending. -/
def PurseHdr.rows (p : PurseHdr) : List Nat := List.range p.nrow

def PurseHdr.isAlloc (p : PurseHdr) (i : Nat) : Bool := bitOf p.abits i
def PurseHdr.isWoken (p : PurseHdr) (i : Nat) : Bool := bitOf p.wake i

/-- Allocates a free row. -/
def PurseHdr.take (p : PurseHdr) (i : Nat) (ready : Bool) : PurseHdr :=
  { p with abits := p.abits + 2 ^ i, alloc := p.alloc + 1
           wake := if ready then p.wake + 2 ^ i else p.wake
           woken := if ready then p.woken + 1 else p.woken }

/-- Sets the wake bit of an allocated row; anything else is ignored (R298). -/
def PurseHdr.rouse (p : PurseHdr) (i : Nat) : PurseHdr :=
  if p.nrow ≤ i ∨ p.isAlloc i = false ∨ p.isWoken i then p else { p with wake := p.wake + 2 ^ i, woken := p.woken + 1 }

/-- Frees a row; a row that is not allocated is left (R301). -/
def PurseHdr.drop (p : PurseHdr) (i : Nat) : PurseHdr :=
  if p.nrow ≤ i ∨ p.isAlloc i = false then p
  else
    { p with abits := p.abits - 2 ^ i, alloc := p.alloc - 1
             wake := if p.isWoken i then p.wake - 2 ^ i else p.wake
             woken := if p.isWoken i then p.woken - 1 else p.woken }

/-! ## A purse step (R293) -/

/-- The purse that a word names: its core, the core scratchpad address of its header, the end of its region, and its header. -/
structure PurseAt where
  core : Nat
  base : Nat
  last : Nat
  h : PurseHdr
  deriving DecidableEq, Repr, Inhabited

/-- The core address of field f of row i. -/
def PurseAt.field (p : PurseAt) (i f : Nat) : Nat := p.base + 128 + p.h.width * i + 4 * f

/-- Writes the header, unpoisoned. -/
def State.putPurse (s : State) (p : PurseAt) : State :=
  s.spadSetAll p.core p.base ((List.range 32).map fun i => (BitVec.ofNat 32 (p.h.bits / 2 ^ (32 * i)), false))

/-- A purse trap: 0x0B with the tile register and the reason, or 0x08 with reason 16. Both leave the header's address (0 where the register
names no header). -/
def Ctx.trapPurse (x : Ctx) (t : Opnd) (reason base : Nat) : Eff :=
  x.trap 0x0B x.sp.mask (BitVec.ofNat 64 base) (256 * specOf t + reason)
def Ctx.trapRegion (x : Ctx) (base : Nat) : Eff := x.trap 8 x.en (BitVec.ofNat 64 base) 16

/-- Orders 1 and 2, and the wait for a TZERO of the column (R407): the core, the header's core address and the region's end. -/
def Ctx.purseSpot (x : Ctx) (t : Opnd) : Except Eff (Nat × Nat × Nat) :=
  let d := tabGet x.c.t (numOf t)
  let (lo, size) := x.s.region x.col (descWin d)
  let base := lo + descBase d
  if descKind d ≠ 4 then .error (x.trapPurse t 1 0)
  else if size < descBase d + 128 then .error (x.trapRegion base)
  else if x.s.zeroing x.col [(base, 49280)] then .error .stall
  else .ok (coreOf x.col, base, lo + size)

/-- Orders 1 to 5: the purse as its header stands. -/
def Ctx.purse (x : Ctx) (t : Opnd) : Except Eff PurseAt :=
  match x.purseSpot t with
  | .error e => .error e
  | .ok (core, base, last) =>
    let ws := x.s.spadGetAll core base 32
    let h := purseOf (natOf (ws.flatMap fun w => bytesOf 4 w.1.toNat))
    if ws.any (·.2) then .error (x.trapPurse t 2 base)
    else if !h.ok then .error (x.trapPurse t 3 base)
    else if last < base + h.size then .error (x.trapRegion base)
    else .ok ⟨core, base, last, h⟩

/-- A purse step: no effect without an enabled lane; else its checks and then `f`. -/
def Ctx.purseStep (x : Ctx) (t : Opnd) (f : PurseAt → Eff) : Eff :=
  if x.en = 0 then .go x.s none false
  else
    match x.purse t with
    | .error e => e
    | .ok p => f p

/-- A completion with no register. -/
def Ctx.stepped (x : Ctx) (s : State) : Eff := .go (s.setCol x.col (x.c.addResult x.k [] 0 .none [])) none false

/-- Orders 6 and 8: the layout registers of SUSP and RESUME. -/
def Ctx.layoutBad (x : Ctx) (t : Opnd) (p : PurseAt) : Option Eff :=
  if p.h.fields.any (x.h.nv ≤ ·) then some (x.trapPurse t 4 p.base)
  else (p.h.fields.find? fun n => x.sp.pend.contains (.v n)).map fun n => x.trap 4 x.sp.mask 0 (256 * n)

/-! ## PINIT (R295) -/

def fmtPinit (_ : KHdr) (_ : Full) : Fmt := { d := fT, a := fS, r := false, i := true }

/-- The image's address. -/
def Ctx.imageAddr (x : Ctx) (_ : Nat) : DWord := BitVec.ofInt 64 ((x.ra true 0 : Nat) + immS x.w)

def execPinit (w : Full) (s : State) : Res :=
  s.word w fmtPinit (fun x => [x.ptAddr x.w.a true x.imageAddr]) fun x =>
    let t := x.w.d
    if x.en = 0 then .go x.s none false
    else
      match x.purseSpot t with
      | .error e => e
      | .ok (core, base, last) =>
        -- the image may cross a page: each of its 8-byte words is read as an LD reads it
        let f (i : Nat) : DWord := x.imageAddr 0 + BitVec.ofNat 64 (8 * i)
        let ws := List.range 16
        let f0 (_ : Nat) : DWord := f 0
        match firstOf ([x.check183 f0, x.checkAlign f0 8] ++
            ws.map fun i => x.check183 fun _ => f i) with
        | some e => e
        | none =>
          match firstOf (ws.map fun i => x.checkOwn x.en (fun _ => f i) 8 .read) with
          | some e => e
          | none =>
            if x.held false 0 0 then .stall
            else
              let (s, accs) := x.s.readLanes x.col f 8 ws
              let h := purseOf (natOf (accs.flatMap fun a => bytesOf 8 a.data.toNat))
              if accs.any (·.pois) then x.trapPurse t 2 base
              else if !h.ok then x.trapPurse t 3 base
              else if last < base + h.size then x.trapRegion base
              else x.stepped (s.putPurse ⟨core, base, last, h⟩)

/-! ## SUSP and RESUME (R296, R297) -/

def fmtSusp (_ : KHdr) (_ : Full) : Fmt := { d := fPd, a := fT, xs := [xBit 0], r := false, i := true }
def fmtResume (_ : KHdr) (_ : Full) : Fmt := { d := fPd, a := fT, r := false, i := true }

/-- What a step over the enabled lanes has done: scratchpad, header, register writes, and the lanes that take their other PC. -/
structure LaneStep where
  s : State
  h : PurseHdr
  ws : List RWrite
  moved : List Nat
  deriving DecidableEq, Repr

/-- A lane is suspended into the lowest free row, if there is one. -/
def Ctx.suspLane (x : Ctx) (p : PurseAt) (ready : Bool) (a : LaneStep) (l : Nat) : LaneStep :=
  match a.h.rows.find? fun i => !a.h.isAlloc i with
  | none => { a with ws := a.ws ++ wrOne x.w.d false false l 0 false }
  | some i =>
    let fs := a.h.fields
    let s := (List.range fs.length).foldl (fun (s : State) f =>
      let n := fs.getD f 0
      s.spadSet p.core (p.field i f) (x.c.rdV n l) (x.c.rdVp n l)) a.s
    { s := s, h := a.h.take i ready, ws := a.ws ++ wrOne x.w.d false false l 1 false, moved := a.moved ++ [l] }

/-- A lane takes the lowest woken row, if there is one. -/
def Ctx.resumeLane (x : Ctx) (p : PurseAt) (a : LaneStep) (l : Nat) : LaneStep :=
  match a.h.rows.find? fun i => a.h.isWoken i with
  | none => { a with ws := a.ws ++ wrOne x.w.d false false l 0 false }
  | some i =>
    let fs := a.h.fields
    let rs := (List.range fs.length).map fun f =>
      let v := a.s.spadGet p.core (p.field i f)
      RWrite.vec (fs.getD f 0) l v.1 v.2
    { a with h := a.h.drop i, ws := a.ws ++ rs ++ wrOne x.w.d false false l 1 false, moved := a.moved ++ [l] }

def execSusp (w : Full) (s : State) : Res :=
  s.word w fmtSusp noPts fun x =>
    if x.sp.hnd && x.en != 0 then .double
    else x.purseStep x.w.a fun p =>
      match x.layoutBad x.w.a p with
      | some e => e
      | none =>
        let r := (lanesOf x.en).foldl (x.suspLane p (xb x.w 0)) ⟨x.s, p.h, [], []⟩
        let s := (r.s.putPurse { p with h := r.h }).setCol x.col (x.c.addResult x.k r.ws 0 .none (regsOf r.ws))
        x.jump s fun l => if r.moved.contains l then x.disp else pcNext x.sp.pc

/-- The layout registers are pending with pd, whether or not a lane takes a row. -/
def execResume (w : Full) (s : State) : Res :=
  s.word w fmtResume noPts fun x =>
    if x.sp.hnd && x.en != 0 then .double
    else x.purseStep x.w.a fun p =>
      match x.layoutBad x.w.a p with
      | some e => e
      | none =>
        let r := (lanesOf x.en).foldl (x.resumeLane p) ⟨x.s, p.h, [], []⟩
        let regs := PReg.p (numOf x.w.d) :: p.h.fields.map PReg.v
        let s := (r.s.putPurse { p with h := r.h }).setCol x.col (x.c.addResult x.k r.ws 0 .none regs)
        x.jump s fun l => if r.moved.contains l then p.h.resume else x.disp

/-! ## PWAKE, PXFORM, PCOUNT, PFREE (R298 to R301) -/

/-- The row that lane l names in A. -/
def Ctx.rowOf (x : Ctx) (l : Nat) : Nat := x.ra false l
def Ctx.ptRow (x : Ctx) : Pt := x.ptAddr x.w.a false fun l => BitVec.ofNat 64 (x.rowOf l)

def fmtPwakeRows (_ : KHdr) (_ : Full) : Fmt := { d := fT, a := fV, xs := [xBit 10] }

def execPwakeRows (w : Full) (s : State) : Res :=
  s.word w fmtPwakeRows (fun x => [x.ptRow]) fun x => x.purseStep x.w.d fun p =>
    let h := (lanesOf x.en).foldl (fun (h : PurseHdr) l => h.rouse (x.rowOf l)) p.h
    x.stepped (x.s.putPurse { p with h := h })

def tyPurse : List Ty := [.i32, .n32, .f32]

def fmtPwakeField (_ : KHdr) (_ : Full) : Fmt :=
  { d := fT, a := fS, tys := some tyPurse, xs := [xFld 0 3 (fun c => 1 ≤ c && c ≤ 6), xFld 3 6 (fun _ => true), xBit 10] }

/-- A comparison of a purse word: raises the flags of FCMP without .u for f32. -/
def purseCmp (t : Ty) (cc a b : Nat) : Bool × FpFlags :=
  if t = .f32 then fcmp .f32 false false cc a b
  else (condHolds cc (cmpInt (readInt 32 (t == .i32) a) (readInt 32 (t == .i32) b)), 0)

/-- A purse step's completion, with the flags it raises. -/
def Ctx.steppedFl (x : Ctx) (s : State) (fl : FpFlags) : Eff := .go (s.setCol x.col (x.c.addResult x.k [] fl .none [])) none false

def execPwakeField (w : Full) (s : State) : Res :=
  s.word w fmtPwakeField noPts fun x => x.purseStep x.w.d fun p =>
    let f := xf x.w 8 3
    if p.h.width / 4 ≤ f then x.trapPurse x.w.d 5 p.base
    else
      let v := x.ra false 0
      let q := x.qa false 0
      let r := (p.h.rows.filter p.h.isAlloc).foldl (fun (a : PurseHdr × FpFlags) i =>
        let y := x.s.spadGet p.core (p.field i f)
        let c := purseCmp x.w.ty (xf x.w 2 0) y.1.toNat v
        (if q || y.2 || c.1 then a.1.rouse i else a.1, a.2 ||| c.2)) (p.h, 0)
      x.steppedFl (x.s.putPurse { p with h := r.1 }) r.2

def fmtPxform (_ : KHdr) (w : Full) : Fmt :=
  { d := fT, a := fS, tys := some tyPurse, r := false, i := true,
    more := if immF w 23 12 ≠ 0 then some (0, 9)
      else if immF w 11 9 = 7 then some (0, 2)
      else if 6 ≤ immF w 8 6 ∧ w.ty = .f32 then some (0, 22) else none }

/-- The ops of R299. -/
def xformOp (t : Ty) (op x a : Nat) : Nat × FpFlags :=
  if t = .f32 then
    match op with
    | 0 => fadd .f32 .rne false false x a
    | 1 => fsub .f32 .rne false false x a
    | 2 => fmul .f32 .rne false false x a
    | 3 => fminmax .f32 false false x a
    | 4 => fminmax .f32 true false x a
    | _ => (a, 0)
  else
    let i := readInt 32 (t == .i32) x
    let j := readInt 32 (t == .i32) a
    (match op with
     | 0 => wrapW 32 (i + j)
     | 1 => wrapW 32 (i - j)
     | 2 => wrapW 32 (i * j)
     | 3 => wrapW 32 (min i j)
     | 4 => wrapW 32 (max i j)
     | 6 => x &&& a
     | 7 => x ||| a
     | _ => a, 0)

def execPxform (w : Full) (s : State) : Res :=
  s.word w fmtPxform noPts fun x => x.purseStep x.w.d fun p =>
    let f := immF x.w 5 0
    let op := immF x.w 8 6
    let cc := immF x.w 11 9
    if p.h.width / 4 ≤ f then x.trapPurse x.w.d 5 p.base
    else
      let v := x.ra false 0
      let q := x.qa false 0
      let r := (p.h.rows.filter p.h.isAlloc).foldl (fun (a : State × PurseHdr × FpFlags) i =>
        let y := a.1.spadGet p.core (p.field i f)
        let n := xformOp x.w.ty op y.1.toNat v
        let poi := q || (decide (op ≠ 5) && y.2)
        let c := if cc = 0 then (false, (0 : FpFlags)) else purseCmp x.w.ty cc n.1 0
        (a.1.spadSet p.core (p.field i f) (BitVec.ofNat 32 n.1) poi,
          if cc ≠ 0 ∧ (poi ∨ c.1) then a.2.1.rouse i else a.2.1, a.2.2 ||| n.2 ||| c.2)) (x.s, p.h, 0)
      x.steppedFl (r.1.putPurse { p with h := r.2.1 }) r.2.2

def fmtPcount (_ : KHdr) (_ : Full) : Fmt := { d := fS, a := fT }

def execPcount (w : Full) (s : State) : Res :=
  s.word w fmtPcount noPts fun x => x.purseStep x.w.a fun p =>
    x.var (wrOne x.w.d true false 0 (p.h.alloc + at_ p.h.woken 16 + at_ p.h.nrow 32) false, 0)

def fmtPfreeRows (_ : KHdr) (_ : Full) : Fmt := { d := fT, a := fV }

def execPfreeRows (w : Full) (s : State) : Res :=
  s.word w fmtPfreeRows (fun x => [x.ptRow]) fun x => x.purseStep x.w.d fun p =>
    let h := (lanesOf x.en).foldl (fun (h : PurseHdr) l => h.drop (x.rowOf l)) p.h
    x.stepped (x.s.putPurse { p with h := h })

def fmtPfreeAll (_ : KHdr) (w : Full) : Fmt :=
  { d := fT, xs := [xFld 0 4 (· ≤ 1)], r := false, i := true, more := if immN w ≠ 0 then some (0, 9) else none }

/-- Frees the rows for which `f` holds. -/
def Ctx.freeRows (x : Ctx) (f : PurseHdr → Nat → Bool) : Eff :=
  x.purseStep x.w.d fun p =>
    let h := (p.h.rows.filter (f p.h)).foldl PurseHdr.drop p.h
    x.stepped (x.s.putPurse { p with h := h })

def execPfreeAll (w : Full) (s : State) : Res := s.word w fmtPfreeAll noPts fun x => x.freeRows PurseHdr.isAlloc
def execPfreeWoken (w : Full) (s : State) : Res := s.word w fmtPfreeAll noPts fun x => x.freeRows PurseHdr.isWoken

end Sys2Proof.Machine
end

