-- ==== Sys2Proof/Machine/Atomic.lean ====
section
/-!
DEFINITION. Atomics, semaphore messages and their arrivals, FENCE and ELECT (R379 to R387, R391).
-/

namespace Sys2Proof.Machine

/-! ## One atomic (R380, R382) -/

/-- The types of an op. -/
def atomTys (op : Nat) : List Ty :=
  match op with
  | 0 => [.i32, .n32, .i64, .n64]
  | 1 => [.i32, .n32, .i64, .n64]
  | 2 => [.i32, .n32, .i64, .n64]
  | 3 => [.n32, .n64, .b32]
  | 4 => [.n32, .n64, .b32]
  | 5 => [.n32, .n64, .b32]
  | 6 => [.n32, .n64, .b32, .f32]
  | 7 => [.n32]
  | 8 => [.n32]
  | 9 => [.f32, .f64]
  | 10 => [.f32]
  | 11 => [.f32]
  | 12 => [.f32]
  | _ => [.i32, .n32, .i64, .n64, .f32, .f64, .b32]

/-- new := f(old, b). -/
def atomNew (op : Nat) (t : Ty) (old b : Nat) : Nat :=
  let w := elemBits t
  let x := readInt w (isSigned t) old
  let y := readInt w (isSigned t) b
  match op with
  | 0 => wrapW w (x + y)
  | 1 => wrapW w (min x y)
  | 2 => wrapW w (max x y)
  | 3 => old &&& b
  | 4 => old ||| b
  | 5 => old ^^^ b
  | 7 => if b ≤ old then 0 else old + 1
  | 8 => if old = 0 ∨ b < old then b else old - 1
  | 9 => (fadd (fmtOf t) .rne false false old b).1
  | 10 => (fminmax .f32 false false old b).1
  | 11 => (fminmax .f32 true false old b).1
  | 12 => (famax .f32 false old b).1
  | _ => b

/-- Performs one lane's atomic in its page: the access with the old value and its poison. A poisoned line is not changed, and gives
a poisoned 0 (R381, R456). -/
def State.atomicOne (s : State) (sp : Span) (op : Nat) (cas : Bool) (t : Ty) (a : LaneAcc) : State × LaneAcc :=
  let (s, bs, poi) := s.readSpan sp a.size
  let old := natOf bs
  let b := a.data.toNat % 2 ^ (8 * a.size)
  let new := if cas then (if old = b then a.data2.toNat % 2 ^ (8 * a.size) else old) else atomNew op t old b
  let s := if poi || (cas && old != b) then s else s.writeSpans [(sp, bytesOf a.size new, false)]
  (s, { a with data := BitVec.ofNat 64 old, pois := poi })

/-- Performs lanes in their order (R196). -/
def State.atomicAll (s : State) (span : LaneAcc → Option Span) (op : Nat) (cas : Bool) (t : Ty) : List LaneAcc → State × List LaneAcc
  | [] => (s, [])
  | a :: as =>
    match span a with
    | none => s.atomicAll span op cas t as
    | some sp =>
      let (s, b) := s.atomicOne sp op cas t a
      let r := s.atomicAll span op cas t as
      (r.1, b :: r.2)

/-! ## Issue -/

def atomOrd (w : Full) : Nat := xf w 8 7
def atomScope (w : Full) : Nat := xf w 6 4
def atomSize (w : Full) : Nat := tySize w.ty

/-- Result, base and data. A vector base takes a vector result. -/
def fmtAtom (_ : KHdr) (w : Full) : Fmt :=
  let wd := isWide w.ty
  { d := (if opndKind w.a = some .v then fV else fVS).w wd, a := fVSW, b := fVS.w wd, tys := some (atomTys (xf w 3 0)),
    xs := [xFld 0 4 (· ≤ 12), xFld 4 3 (· ≤ 5), xFld 7 2 fun _ => true] }

def fmtAcas (_ : KHdr) (w : Full) : Fmt :=
  let wd := isWide w.ty
  { d := (if opndKind w.a = some .v then fV else fVS).w wd, a := fVSW, b := fVS.w wd, c := fVS.w wd, tys := some [.i32, .n32, .i64, .n64],
    xs := [xFld 4 3 (· ≤ 5), xFld 7 2 fun _ => true] }

def fmtRed (_ : KHdr) (w : Full) : Fmt :=
  { a := fVSW, b := fVS.w (isWide w.ty), tys := some (atomTys (xf w 3 0)),
    xs := [xFld 0 4 (· ≤ 12), xFld 4 3 (· ≤ 5), xFld 7 2 fun o => o == 0 || o == 2] }

/-- Whether the word executes once (R273, R380). -/
def Ctx.once (x : Ctx) (red : Bool) : Bool := if red then isUni x.w.a && isUni (opB x.w) else isUni x.w.d

/-- The trap of an own atomic's outcome: a tolerant page is not served (R381). -/
def atomTrap (o : XOut) : Option (Nat × Nat) :=
  match o with
  | .miss => none
  | .prot r => some (8, r)
  | .isSealed => some (6, 0)
  | .page p => if p.tol = 0 then none else some (8, 19)

/-- The checks of an atomic at issue (R184, R380, R381): addresses, alignment, own lanes through aperture 1, own translations. -/
def Ctx.checkAtomic (x : Ctx) (f : Nat → DWord) (size : Nat) : Option Eff :=
  let raw := x.bad fun l => ownAddr x.col (f l) && addrAp (f l).toNat == 1
  match firstOf [x.check184 f, x.checkAlign f size, if raw ≠ 0 then some (x.trapAt 8 raw f 19) else none] with
  | some e => some e
  | none =>
    let mine := x.ownLanes f (lanesOf x.en)
    let out (l : Nat) : XOut := x.own (f l) size .atomic
    let miss := x.ownMisses f size .atomic mine
    if miss ≠ [] then some (.replay miss .atomic)
    else
      match mine.findSome? fun l => atomTrap (out l) with
      | none => none
      | some (code, info) =>
        some (x.trapAt code (maskOf (mine.filter fun l => atomTrap (out l) == some (code, info))) f info)

/-- Lists cut into pieces of at most n. -/
def chunks {α : Type} (n : Nat) : Nat → List α → List (List α)
  | 0, _ => []
  | k + 1, l => if l = [] then [] else l.take n :: chunks n k (l.drop n)

/-- The packets of some lanes: one block each, at most 256 payload bytes (R381). -/
def Ctx.atomPackets (x : Ctx) (kind : Nat) (cas : Bool) (accs : List LaneAcc) : List Packet :=
  let per := if cas then 2 * atomSize x.w else atomSize x.w
  (groupLanes (fun l => match accs.find? (·.lane == l) with
      | some a => a.addr.toNat / 256
      | none => 0) (accs.map (·.lane))).flatMap fun g =>
    (chunks (256 / per) 32 (accs.filter fun a => g.2.contains a.lane)).map fun as =>
      { requestPacket kind (atomOrd x.w) (atomScope x.w) x.w.ty g.1 as false with
        npay := (per * as.length + 63) / 64, op := BitVec.ofNat 4 (xf x.w 3 0), cas := cas }

/-- Hands over atomic packets, each with a result where there is one. -/
def Ctx.sendAtomics (x : Ctx) (s : State) (ps : List Packet) (red : Bool) : State :=
  let ord := atomOrd x.w
  let s := ps.foldl (fun s p =>
    let tag := s.nextTag
    let ls := p.accs.map (·.lane)
    let s := s.request x.col p (if x.once red then x.en else maskOf ls) false (ord == 1 || ord == 3) (decide (2 ≤ ord))
    if red then s
    else
      let ws := ls.flatMap fun l => wrOne x.w.d (isWide x.w.ty) false l 0 false
      s.modCol x.col fun c => c.addResult x.k ws 0 (.reply tag) (regsOf ws)) s
  s.pump x.col

/-- Whether an own atomic of some lanes performs only after earlier accesses, in deterministic mode: after the core's earlier atomics (R147), and
a releasing one after those of its lanes (R384). It issues, and takes its place in the column's send queue. -/
def Ctx.performsLater (x : Ctx) (ord : Nat) (m : Mask) : Bool :=
  (x.s.core (coreOf x.col)).det && m != 0 && ((x.s.coreReqs x.col).any (·.atom) || (decide (2 ≤ ord) && x.c.pendingReqs m))

/-- The address of an own access by column (R182). -/
def Ctx.global (x : Ctx) (a : DWord) : DWord := if ownAddr x.col a then mkAddr x.col a.toNat else a

/-- ATOM, ACAS and RED. -/
def Ctx.atomic (x : Ctx) (kind : Nat) (cas : Bool) : Eff :=
  let red := kind == kRed
  let size := atomSize x.w
  let wide := isWide x.w.ty
  if x.en = 0 then .go x.s none false
  else
    match x.checkAtomic x.targetA size with
    | some e => e
    | none =>
      let ls := if x.once red then [lowLane x.en] else lanesOf x.en
      let acc (l : Nat) : LaneAcc := ⟨l, x.global (x.targetA l), size, BitVec.ofNat 64 (x.rb wide l), BitVec.ofNat 64 (x.rc wide l), false⟩
      let own := x.ownLanes x.targetA ls
      let mine := if x.performsLater (atomOrd x.w) (maskOf own) then [] else own
      let ps := x.atomPackets kind cas ((ls.filter fun l => !mine.contains l).map acc)
      let far := ps.filter fun p => !ownAddr x.col p.dest
      if x.held true (atomOrd x.w) (maskOf mine) || !x.s.canRequest x.col (far.map fun p => creditKey p.dest.toNat) then .stall
      else
        let (s, old) := x.s.atomicAll (fun a => x.s.spanAt x.col a.addr a.size .atomic) (xf x.w 3 0) cas x.w.ty (mine.map acc)
        let s :=
          if red then (old.filter (·.pois)).foldl (fun (s : State) a => s.discardedUpdate x.col (mkAddr x.col a.addr.toNat).toNat) s
          else if old = [] then s
          else
            let ws := fillWrites x.w.ty old (old.flatMap fun a => wrOne x.w.d wide false a.lane 0 false)
            s.modCol x.col fun c => c.addResult x.k ws 0 .none (regsOf ws)
        .go (x.sendAtomics s ps red) none false

/-- The address at point 1, the data at point 4. -/
def Ctx.ptsAtom (x : Ctx) (cas : Bool) : List Pt :=
  let wd := isWide x.w.ty
  [x.ptAddr x.w.a true x.targetA, x.pt (opB x.w) wd 4] ++ if cas then [x.pt (opC x.w) wd 4] else []

def execAtom (w : Full) (s : State) : Res := s.word w fmtAtom (fun x => x.ptsAtom false) fun x => x.atomic kAtomic false
def execAcas (w : Full) (s : State) : Res := s.word w fmtAcas (fun x => x.ptsAtom true) fun x => x.atomic kAtomic true
def execRed (w : Full) (s : State) : Res := s.word w fmtRed (fun x => x.ptsAtom false) fun x => x.atomic kRed false

/-! ## SEMSG (R386) -/

def fmtSemsg (_ : KHdr) (_ : Full) : Fmt := { a := fS, b := fS, xs := [xBit 0] }

/-- SEMSG is a .rel atomic at .sys scope. -/
def execSemsg (w : Full) (s : State) : Res :=
  s.word w fmtSemsg (fun x => [x.ptAddr x.w.a true x.targetA, x.pt (opB x.w) true 7]) fun x =>
    if x.en = 0 then .go x.s none false
    else
      match x.checkAtomic x.targetA 8 with
      | some e => e
      | none =>
        let l := lowLane x.en
        let a := x.targetA l
        let v := BitVec.ofNat 64 (x.rb true l)
        let own := ownAddr x.col a
        let mine := own && !x.performsLater 2 x.en
        let keys := if own then [] else [creditKey a.toNat]
        if x.held true 2 (if mine then x.en else 0) || !x.s.canRequest x.col keys then .stall
        else if mine then .go (x.s.signalSem (x.s.ctxOf x.col) (some x.col) a.toNat v (xb x.w 0)).1 none false
        else
          let a := x.global a
          let p := { requestPacket kSemsg 2 5 .n64 (a.toNat / 256) [⟨l, a, 8, v, 0, false⟩] false with
            npay := 1, op := if xb x.w 0 then 1 else 0 }
          .go ((x.s.request x.col p x.en false false true).pump x.col) none false

/-! ## Arrivals (R381, R383, R386) -/

/-- Whether an owner may serve an atomic in a page (R381). -/
def atomServed (p : Packet) (pg : Page) : Bool := pg.tol == 0 && addrAp p.dest.toNat == 0

/-- ATOMIC_REQUEST (R381). -/
def execAtomicRequest (p : Packet) (s : State) : Res :=
  s.deliver "ATOMIC_REQUEST" kAtomic p fun s => s.serve "ATOMIC_REQUEST" p .atomic fun s pg =>
    match pg with
    | none => s.answerRefused p
    | some pg =>
      if !atomServed p pg then (s.refuseEvent s.tabs.curCtx (pktDest p) p.dest.toNat .atomic 1).answerRefused p
      else
        let (s, accs) := s.atomicAll (fun a => some (pktSpan p pg a)) p.op.toNat p.cas p.ty p.accs
        s.send (replyTo p 0 accs)

/-- ATOMIC_REPLY (R381): the old values are there to be written, and the credit returns. -/
def execAtomicReply (p : Packet) (s : State) : Res :=
  s.deliver "ATOMIC_REPLY" kAtomicReply p fun s => .next (s.landReply p)

/-- RED_REQUEST (R383): on a poisoned line the update is discarded with an event. -/
def execRedRequest (p : Packet) (s : State) : Res :=
  s.deliver "RED_REQUEST" kRed p fun s => s.serve "RED_REQUEST" p .atomic fun s pg =>
    match pg with
    | none => s.send (replyTo p 1 [])
    | some pg =>
      if !atomServed p pg then (s.refuseEvent s.tabs.curCtx (pktDest p) p.dest.toNat .atomic 1).send (replyTo p 1 [])
      else
        let (s, accs) := s.atomicAll (fun a => some (pktSpan p pg a)) p.op.toNat false p.ty p.accs
        let s := (accs.filter (·.pois)).foldl (fun (s : State) a => s.discardedUpdate (pktDest p) a.addr.toNat) s
        s.send (replyTo p 0 [])

/-- SEMSG_PACKET (R386): the semaphore changes, and the TRIG 2 entries on it are checked again. -/
def execSemsgPacket (p : Packet) (s : State) : Res :=
  s.deliver "SEMSG_PACKET" kSemsg p fun s => s.serve "SEMSG_PACKET" p .atomic fun s pg =>
    match pg, p.accs with
    | some pg, a :: _ =>
      if !atomServed p pg then (s.refuseEvent s.tabs.curCtx (pktDest p) p.dest.toNat .atomic 1).send (replyTo p 1 [])
      else (s.signalSem s.tabs.curCtx none a.addr.toNat a.data (p.op == 1)).1.send (replyTo p 0 [])
    | _, _ => s.send (replyTo p 1 [])

/-! ## FENCE and ELECT (R387, R391) -/

def fmtFence (_ : KHdr) (_ : Full) : Fmt := { xs := [xFld 0 3 (· ≤ 5), xFld 3 2 (· ≤ 2)] }

/-- FENCE: later accesses of the enabled lanes that it orders wait for the requests now outstanding. -/
def execFence (w : Full) (s : State) : Res :=
  s.word w fmtFence noPts fun x =>
    let kind := xf x.w 4 3
    if x.c.reqs.any fun r => r.lanes &&& x.en != 0 && (kind != 1 || !r.write) then
      .go (x.s.setCol x.col { x.c with fences := x.c.fences ++ [(x.en, kind, x.s.nextTag)] }) none false
    else .go x.s none false

def fmtElect (_ : KHdr) (_ : Full) : Fmt := { d := { ks := [.p, .s], dst := true } }

def execElect (w : Full) (s : State) : Res :=
  s.word w fmtElect noPts fun x =>
    let e := lowLane x.en
    x.fixed (x.map x.w.d true false fun l => (if isUni x.w.d then e else if l = e then 1 else 0, false, 0))

end Sys2Proof.Machine
end

