-- ==== Sys2Proof/Machine/Barrier.lean ====
section
/-!
DEFINITION. The barrier words (R127 to R129, R388 to R390).
-/

namespace Sys2Proof.Machine

def barLevel (w : Full) : Nat := xf w 2 0
def barNum (w : Full) : Nat := immF w 3 0

/-- Barriers of a level (R127). -/
def barCount (level : Nat) : Nat :=
  match level with
  | 1 => 16 | 2 => 16 | 3 => 8 | 4 => 8 | 5 => 4 | 6 => 2
  | _ => 0

def fmtBar (h : KHdr) (w : Full) : Fmt :=
  { xs := [xFld 0 3 fun l => 1 ≤ l && l ≤ 6], r := false, i := true,
    more := if immF w 23 4 ≠ 0 then some (0, 9)
      else if h.level < barLevel w then some (0, 11)
      else if barCount (barLevel w) ≤ barNum w then some (0, 16) else none }

/-- The four words, with the codes of `UBar.kind`. -/
inductive BarWord where
  | bar | bara | bard | barw
  deriving DecidableEq, Repr

def BarWord.kind : BarWord → Nat
  | .bar => 1 | .bara => 2 | .bard => 3 | .barw => 0

/-- What a barrier word does when its checks pass: traps, goes on with the state, or parks lanes at the barrier. -/
inductive BarOut where
  | trap (reason : Nat)
  | on (s : State)
  | park (s : State)
  deriving DecidableEq, Repr

/-- A word at a column barrier, where each enabled lane is a member (R389). A lane that has dropped in the current phase has arrived in it. -/
def Ctx.cbarOut (x : Ctx) (bw : BarWord) : BarOut :=
  let n := barNum x.w
  let b := tabGet x.c.cbar n
  if x.en &&& b.dropped &&& ~~~b.arrived ≠ 0 then .trap 18
  else
    match bw with
    | .barw => if x.en &&& b.arrived = 0 then .on x.s else .park x.s
    | _ =>
      if x.en &&& b.arrived ≠ 0 then .trap 17
      else
        let b := { b with arrived := b.arrived ||| x.en, dropped := if bw = .bard then b.dropped ||| x.en else b.dropped }
        let c := ({ x.c with cbar := tabSet x.c.cbar n b } : Column).gate (some (barKey 1 n)) x.en x.s.nextTag
        let s := x.s.setCol x.col c
        if bw = .bar then .park s else .on s

/-- A word at a barrier above column level, where the column is the member (R390). -/
def Ctx.ubarOut (x : Ctx) (bw : BarWord) : BarOut :=
  let key := barKey (barLevel x.w) (barNum x.w)
  let b := tabGet x.c.ubar key
  if b.dropped && !b.arrived then .trap 18
  else
    match bw with
    | .barw => if b.arrived then .park x.s else .on x.s
    | _ =>
      if b.arrived ∨ x.en &&& b.lanes ≠ 0 then .trap 17
      else if b.lanes ≠ 0 ∧ b.kind ≠ bw.kind then .trap 19
      else
        let b := { b with lanes := b.lanes ||| x.en, kind := bw.kind }
        let c := ({ x.c with ubar := tabSet x.c.ubar key b } : Column).gate (some key) x.en x.s.nextTag
        let s := x.s.setCol x.col c
        if bw = .bar then .park s else .on s

/-- The completion test after an arrival; lanes released take free slots. -/
def Ctx.barTest (x : Ctx) (s : State) : State :=
  (if barLevel x.w = 1 then s.modCol x.col fun c => c.testCbar (barNum x.w)
    else s.arriveUbar x.col (barLevel x.w) (barNum x.w)).fillNew s x.col

/-- The lanes that park: those that arrive, or for BARW at column level those that have arrived. -/
def Ctx.barParks (x : Ctx) (bw : BarWord) : Mask :=
  if bw = .barw ∧ barLevel x.w = 1 then x.en &&& (tabGet x.c.cbar (barNum x.w)).arrived else x.en

/-- A barrier word. Within a handler BAR, BARW and BARD raise the double trap (R306). -/
def Ctx.barrier (x : Ctx) (bw : BarWord) : Eff :=
  if x.sp.hnd && bw != .bara then .double
  else if x.en = 0 then .go x.s none false
  else
    match if barLevel x.w = 1 then x.cbarOut bw else x.ubarOut bw with
    | .trap r => x.trap2 0 r
    | .on s => .go (x.barTest s) none false
    | .park s =>
      let key := barKey (barLevel x.w) (barNum x.w)
      let s := s.modCol x.col fun c => (c.countWord x.k).parkAt x.k (x.barParks bw) true key
      .placed (((x.barTest s).modCol x.col fun c => c.marked x.k).endPipe x.col x.k)

def execBar (w : Full) (s : State) : Res := s.word w fmtBar noPts fun x => x.barrier .bar
def execBara (w : Full) (s : State) : Res := s.word w fmtBar noPts fun x => x.barrier .bara
def execBarw (w : Full) (s : State) : Res := s.word w fmtBar noPts fun x => x.barrier .barw
def execBard (w : Full) (s : State) : Res := s.word w fmtBar noPts fun x => x.barrier .bard

end Sys2Proof.Machine
end

