-- ==== Sys2Proof/Machine/Receipt.lean ====
section
/-!
DEFINITION. Receipts (R168 to R170) and the words that use them (R392 to R394).
-/

namespace Sys2Proof.Machine

/-! ## The object (R168, R169) -/

/-- The fields of a receipt. -/
structure Rcpt where
  phase : Nat
  arrv : Nat
  sect : Nat
  reload : Nat
  deriving DecidableEq, Repr, Inhabited

/-- The receipt at a core scratchpad address, and whether a word of it is poisoned. -/
def State.rcptGet (s : State) (core a : Nat) : Rcpt × Bool :=
  let ws := s.spadGetAll core a 4
  let n := natOf (ws.flatMap fun w => bytesOf 4 w.1.toNat)
  (⟨fld n 3 0, fld n 31 8, fld n 63 32, fld n 87 64⟩, ws.any (·.2))

/-- Writes the whole receipt, its zero fields zero. An update leaves word poison as it is; RINIT clears it. -/
def State.rcptPut (s : State) (core a : Nat) (r : Rcpt) (clear : Bool) : State :=
  let v := r.phase % 16 + at_ (r.arrv % 2 ^ 24) 8 + at_ (r.sect % 2 ^ 32) 32 + at_ (r.reload % 2 ^ 24) 64
  s.spadSetAll core a ((List.range 4).map fun i => (BitVec.ofNat 32 (v / 2 ^ (32 * i)), !clear && (s.spadGet core (a + 4 * i)).2))

/-- Whether a receipt of a column, by its region and offset, lies at a core scratchpad address. -/
def State.rcptIs (s : State) (col : Nat) (win : Bool) (off core a : Nat) : Bool :=
  coreOf col == core && (s.region col win).1 + off == a

/-- The RWAIT words that await a phase of the receipt are complete when it is the current one (R394). -/
def State.wakeWaits (s : State) (core a phase : Nat) : State :=
  (List.range 8).foldl (fun s i =>
    let col := 8 * core + i
    if (tabGet s.cols col).isNone then s
    else s.modCol col fun c =>
      { c with results := c.results.map fun r => match r.await with
          | .phase w o p => if s.rcptIs col w o core a && p == phase then { r with await := .none } else r
          | _ => r }) s

/-- The tasks that await a phase of a receipt and whose first test is behind them pass when it completes (R417). -/
def State.passTasks (s : State) (core a phase : Nat) : State :=
  let f (m : MintOp) : MintOp := match m.act with
    | .task _ _ _ wrec wph _ _ _ _ false _ => if m.tested && 16 * wrec == a && wph == phase then { m with passed := true } else m
    | _ => m
  if tabGet s.mintq core = [] then s else { s with mintq := tabMod s.mintq core fun q => q.map f }

/-- An update of a receipt other than RINIT, with the completion test (R169): a completed phase wakes what waits for it, and the
TRIG 1 entries on the receipt are checked again (R97). -/
def State.rcptUpdate (s : State) (core a : Nat) (f : Rcpt → Rcpt) : State :=
  let r := f (s.rcptGet core a).1
  if r.arrv % 2 ^ 24 = 0 ∧ r.sect % 2 ^ 32 = 0 then
    let ph := (r.phase + 1) % 16
    let s := ((s.rcptPut core a ⟨ph, r.reload, 0, r.reload⟩ false).wakeWaits core a ph).passTasks core a ph
    s.recheck fun e => e.trig == 1 && s.trigReceipt e.addr.toNat == (core, a)
  else s.rcptPut core a r false

/-- An arrival, sectors expected, sectors landed. -/
def Rcpt.arrive (r : Rcpt) : Rcpt := { r with arrv := r.arrv - 1 }
def Rcpt.expect (n : Nat) (r : Rcpt) : Rcpt := { r with sect := (r.sect + n) % 2 ^ 32 }
def Rcpt.land (n : Nat) (r : Rcpt) : Rcpt := { r with sect := (r.sect + 2 ^ 32 - n % 2 ^ 32) % 2 ^ 32 }

/-- Sectors landed at a receipt by an engine; none change nothing. -/
def State.landSectors (s : State) (core a n : Nat) : State := if n = 0 then s else s.rcptUpdate core a (Rcpt.land n)

/-! ## The words (R392 to R394) -/

def fmtRcpt (d : Bool) (_ : KHdr) (_ : Full) : Fmt :=
  { d := if d then fS else fNo, a := fS, xs := [xBit 0], r := false, i := true }

/-- The receipt's offset in its region. -/
def Ctx.rcptOff (x : Ctx) : DWord := BitVec.ofInt 64 ((x.ra true 0 : Nat) + immS x.w)

/-- The operands at point 1, in the order D, A. -/
def Ctx.ptsRcpt (x : Ctx) (d : Bool) : List Pt :=
  let f (_ : Nat) : DWord := x.rcptOff
  (if d then [x.ptAddr x.w.d true f] else []) ++ [x.ptAddr x.w.a true f]

/-- Receipt misuse: trap 0x0D with its reason and an address. -/
def Ctx.trapRcpt (x : Ctx) (reason addr : Nat) : Eff := x.trap 0x0D x.sp.mask (BitVec.ofNat 64 addr) reason

/-- A receipt word: nothing without an enabled lane; the checks of R392; then `f` with the core address and the receipt. -/
def Ctx.rcptWord (x : Ctx) (reads : Bool) (f : Nat → Rcpt → Eff) : Eff :=
  if x.en = 0 then .go x.s none false
  else
    let off := x.rcptOff.toNat
    let reg := x.s.region x.col (xb x.w 0)
    let a := reg.1 + off
    if off % 16 ≠ 0 then x.trapRcpt 1 off
    else if reg.2 < off + 16 then x.trapAt 8 x.en (fun _ => x.rcptOff) 16
    else if x.s.zeroing x.col [(a, 16)] then .stall
    else
      let r := x.s.rcptGet (coreOf x.col) a
      if reads && r.2 then x.trapRcpt 4 a else f a r.1

def execRinit (w : Full) (s : State) : Res :=
  s.word w (fmtRcpt true) (fun x => x.ptsRcpt true) fun x => x.rcptWord false fun a _ =>
    let d := x.rdd true 0
    if d / 2 ^ 28 ≠ 0 then x.trapRcpt 2 a
    else .go (x.s.rcptPut (coreOf x.col) a ⟨fld d 27 24, fld d 23 0, 0, fld d 23 0⟩ true) none false

def execRarv (w : Full) (s : State) : Res :=
  s.word w (fmtRcpt false) (fun x => x.ptsRcpt false) fun x => x.rcptWord true fun a r =>
    if r.arrv = 0 then x.trapRcpt 3 a else .go (x.s.rcptUpdate (coreOf x.col) a Rcpt.arrive) none false

def execRxpt (w : Full) (s : State) : Res :=
  s.word w (fmtRcpt true) (fun x => x.ptsRcpt true) fun x => x.rcptWord true fun a _ =>
    let d := x.rdd true 0
    if d / 2 ^ 32 ≠ 0 then x.trapRcpt 2 a else .go (x.s.rcptUpdate (coreOf x.col) a (Rcpt.expect d)) none false

def execRwait (w : Full) (s : State) : Res :=
  s.word w (fmtRcpt true) (fun x => x.ptsRcpt true) fun x => x.rcptWord true fun a r =>
    let d := x.rdd true 0
    if d / 16 ≠ 0 then x.trapRcpt 2 a
    else if r.phase = d then .go x.s none false
    else .go (x.s.setCol x.col (x.c.addResult x.k [] 0 (.phase (xb x.w 0) x.rcptOff.toNat d) [])) none false

end Sys2Proof.Machine
end

