-- ==== Sys2Proof/Machine/Surface.lean ====
section
/-!
DEFINITION. Surfaces (R179, R180, R193, R194) and the accesses of an engine: to the memory of a column, or to a core's scratchpad.
-/

namespace Sys2Proof.Machine

/-! ## The record -/

/-- A surface record (R179); `nd` counts its dimensions. -/
structure Surf where
  ty : Nat
  nd : Nat
  ddim : Nat
  dist : Nat
  ext : List Nat
  str : List Nat
  blk : Nat
  ncol : Nat
  bcol : Nat
  cstr : Nat
  base : Nat
  bscale : Nat
  sscale : Nat
  deriving DecidableEq, Repr, Inhabited

def surfOf (r : Rec64) : Surf where
  ty := fieldNat r 131 128
  nd := fieldNat r 133 132 + 1
  ddim := fieldNat r 135 134
  dist := fieldNat r 137 136
  ext := [fieldNat r 183 160, fieldNat r 207 184, fieldNat r 231 208, fieldNat r 255 232]
  str := [fieldNat r 287 256, fieldNat r 319 288, fieldNat r 351 320, fieldNat r 383 352]
  blk := fieldNat r 159 144
  ncol := fieldNat r 65 38
  bcol := fieldNat r 93 66
  cstr := fieldNat r 37 22
  base := fieldNat r 127 94
  bscale := fieldNat r 447 384
  sscale := fieldNat r 511 448

def Surf.size (f : Surf) : Nat := elemSize (tyOfCode f.ty)

/-- Elements of the whole surface (R368). -/
def Surf.total (f : Surf) : Nat := (f.ext.take f.nd).foldl (· * ·) 1

/-- B of DIST 0 (R193). -/
def Surf.blockLen (f : Surf) : Nat := (f.ext.getD f.ddim 0 + f.ncol - 1) / f.ncol

/-- Column index and local coordinate of a coordinate of the distributed dimension (R193). -/
def Surf.split (f : Surf) (x : Nat) : Nat × Nat :=
  match f.dist with
  | 0 => (x / f.blockLen, x - x / f.blockLen * f.blockLen)
  | 1 => (x % f.ncol, x / f.ncol)
  | 2 => (x / f.blk % f.ncol, x / (f.blk * f.ncol) * f.blk + x % f.blk)
  | _ => (0, x)

/-- The largest local coordinate of a dimension. -/
def Surf.maxLocal (f : Surf) (k : Nat) : Nat :=
  let e := f.ext.getD k 0
  if f.dist = 3 ∨ k ≠ f.ddim then e - 1
  else
    match f.dist with
    | 0 => min e f.blockLen - 1
    | 1 => (e - 1) / f.ncol
    | _ => (e - 1) / (f.blk * f.ncol) * f.blk + min (f.blk - 1) ((e - 1) % (f.blk * f.ncol))

/-- The largest offset of an element. -/
def Surf.maxOff (f : Surf) : Nat :=
  (List.range f.nd).foldl (fun n k => n + f.maxLocal k * f.str.getD k 0) f.base

/-- Whether a record obeys R179, R180 and R194. -/
def surfOk (r : Rec64) : Bool :=
  let f := surfOf r
  let dims := ([0, 1, 2, 3] : List Nat)
  let scale (a : Nat) : Bool := if f.ty = 12 then true else a == 0
  fieldNat r 143 141 == 0 && fieldNat r 21 0 == 0 && f.ty != 15 && fieldNat r 139 138 != 3
    && (!r.getLsbD 140 || fieldNat r 139 138 == 0)
    && dims.all (fun k => if k < f.nd then f.ext.getD k 0 != 0 else f.ext.getD k 0 == 0 && f.str.getD k 0 == 0)
    && (f.dist == 3 || decide (f.ddim < f.nd)) && (if f.dist = 2 then f.blk != 0 else f.blk == 0)
    && f.ncol != 0 && f.cstr != 0 && decide (f.bcol + (f.ncol - 1) * f.cstr < nGlobal)
    && dims.all (fun k => f.str.getD k 0 % f.size == 0)
    && (f.ty != 12 || (f.str.getD 0 0 == 4 && ([1, 2, 3] : List Nat).all fun k => f.str.getD k 0 % 32 == 0))
    && scale f.bscale && scale f.sscale && f.base % f.size == 0 && decide (f.maxOff < 2 ^ 34)

/-- Column index and offset of the element at some coordinates (R193). -/
def Surf.at_ (f : Surf) (xs : List Nat) : Nat × Nat :=
  (List.range f.nd).foldl (fun p k =>
    let x := xs.getD k 0
    if f.dist ≠ 3 ∧ k = f.ddim then ((f.split x).1, p.2 + (f.split x).2 * f.str.getD k 0)
    else (p.1, p.2 + x * f.str.getD k 0)) (0, f.base)

/-- The coordinates of linear element e, dimension 0 fastest (R368). -/
def Surf.coords (f : Surf) (e : Nat) : List Nat :=
  let e0 := f.ext.getD 0 1
  let e1 := f.ext.getD 1 1
  let e2 := f.ext.getD 2 1
  ([e % e0] ++ (if 1 < f.nd then [e / e0 % e1] else []) ++ (if 2 < f.nd then [e / (e0 * e1) % e2] else [])
    ++ (if 3 < f.nd then [e / (e0 * e1 * e2)] else []))

/-- The global column of a column index, and the index of a global column of the surface. -/
def Surf.gcol (f : Surf) (i : Nat) : Nat := f.bcol + i * f.cstr
def Surf.indexOf (f : Surf) (g : Nat) : Option Nat :=
  if f.bcol ≤ g ∧ (g - f.bcol) % f.cstr = 0 ∧ (g - f.bcol) / f.cstr < f.ncol then some ((g - f.bcol) / f.cstr) else none

/-- The global column of a column of this module. -/
def globalOf (col : Nat) : Nat := Config.package.toNat * nCols + col

/-- Where an engine in column `self` reads an element: of DIST 3, its own copy or else the one in BCOL (R193). -/
def Surf.readAt (f : Surf) (self : Nat) (xs : List Nat) : Nat × Nat :=
  let (i, off) := f.at_ xs
  if f.dist = 3 then (f.gcol ((f.indexOf (globalOf self)).getD 0), off) else (f.gcol i, off)

/-- Where an engine writes an element: of DIST 3, every copy (R193). -/
def Surf.writeAt (f : Surf) (xs : List Nat) : List (Nat × Nat) :=
  let (i, off) := f.at_ xs
  if f.dist = 3 then (List.range f.ncol).map fun j => (f.gcol j, off) else [(f.gcol i, off)]

/-! ## Scratchpad bytes of an engine (R167) -/

def State.eSpadByte (s : State) (core a : Nat) : Byte := BitVec.ofNat 8 ((s.spadGet core (a / 4 * 4)).1.toNat / 256 ^ (a % 4))

/-- Reads bytes of a core's scratchpad, with the poison of their words. -/
def State.eSpadRead (s : State) (core a n : Nat) : List Byte × Bool :=
  ((List.range n).map fun i => s.eSpadByte core (a + i), (List.range n).any fun i => (s.spadGet core ((a + i) / 4 * 4)).2)

/-- Writes bytes of a core's scratchpad, word by word. A write that covers a word's first byte sets its poison; another can only add
to it. -/
def State.eSpadWrite (s : State) (core a : Nat) (bs : List Byte) (q : Bool) : State :=
  let n := bs.length
  (List.range ((a + n + 3) / 4 - a / 4)).foldl (fun s i =>
    let w := (a / 4 + i) * 4
    let old := s.spadGet core w
    let v := natOf ((List.range 4).map fun j => if a ≤ w + j ∧ w + j < a + n then bs.getD (w + j - a) 0
      else BitVec.ofNat 8 (old.1.toNat / 256 ^ j))
    s.spadSet core w (BitVec.ofNat 32 v) (if a ≤ w then q else q || old.2)) s

/-! ## Accesses of an engine -/

/-- Where an engine's access lies: at an offset of a global column, with its aperture above bit 33, or at a core scratchpad address. -/
inductive ELoc where
  | mem (g off : Nat)
  | spad (core a : Nat)
  deriving DecidableEq, Repr, Inhabited

/-- The module of a global column. -/
def pkgOf (g : Nat) : Nat := g / nCols

/-- What an access of n bytes meets, without performing it. A store of part of a tolerant page's word fails (R41). -/
def State.eCheck (s : State) (ctx : Nat) (l : ELoc) (n : Nat) (acc : Acc) : Acq Unit :=
  match l with
  | .spad _ _ => .ok ()
  | .mem g off =>
    if pkgOf g ≠ Config.package.toNat then (if s.routePorts (pkgOf g) = [] then .fail whyUnreach else .ok ())
    else
      match s.resolve ctx (g % nCols) (addrOff off) n (addrAp off == 1) acc with
      | .fault c o => .fault c o
      | .fail w => .fail w
      | .ok sp => if acc.stores ∧ sp.raw = false ∧ sp.page.tol ≠ 0 ∧ (n % 4 ≠ 0 ∨ sp.po % 4 ≠ 0) then .fail whyProt else .ok ()

/-- Reads n bytes. Of another module's memory it gets what this module knows of it (log entry 67). -/
def State.eRead (s : State) (ctx : Nat) (l : ELoc) (n : Nat) : State × Acq (List Byte × Bool) :=
  match l with
  | .spad k a =>
    let s := s.scrubSpad k (8 * k)
    (s, .ok (s.eSpadRead k a n))
  | .mem g off =>
    if pkgOf g ≠ Config.package.toNat then
      if s.routePorts (pkgOf g) = [] then (s, .fail whyUnreach) else (s, .ok (s.extRead g off n))
    else
      match s.resolve ctx (g % nCols) (addrOff off) n (addrAp off == 1) .read with
      | .fault c o => (s, .fault c o)
      | .fail w => (s, .fail w)
      | .ok sp =>
        let (s, bs, q) := s.readSpan sp n
        (s, .ok (bs, q))

/-- The span of a write to memory of this module. -/
def State.eSpan (s : State) (ctx : Nat) (l : ELoc) (n : Nat) : Option Span :=
  match l with
  | .spad _ _ => none
  | .mem g off =>
    if pkgOf g ≠ Config.package.toNat then none
    else match s.resolve ctx (g % nCols) (addrOff off) n (addrAp off == 1) .write with
      | .ok sp => some sp
      | _ => none

/-- Carries out writes whose accesses have been checked, as one store: a line that they cover whole, unpoisoned, is no longer poisoned
(R36, R110). What is written to another module is known to lie there. -/
def State.eWriteAll (s : State) (ctx : Nat) (ws : List (ELoc × List Byte × Bool)) : State :=
  let spans := ws.filterMap fun w => (s.eSpan ctx w.1 w.2.1.length).map fun sp => (sp, w.2)
  ws.foldl (fun s w => match w.1 with
    | .spad k a => s.eSpadWrite k a w.2.1 w.2.2
    | .mem g off => if pkgOf g = Config.package.toNat then s else s.extWrite g off w.2.1 w.2.2) (s.writeSpans spans)

/-- Suspends an operation on a translation fault (R190). Without a free entry it tries again. -/
def State.suspend (s : State) (id col off : Nat) (acc : Acc) : State :=
  match s.op id with
  | none => s
  | some o =>
    let t := s.parkFault (.engine id) o.ctx col off acc
    if t.faults.any fun f => f.waiter == .engine id then t.setOp id (some { o with susp := true }) else t

/-- The code of R372 and R412 for a failed access. -/
def failCode (why : Nat) : Nat := if why = whyUnreach then 6 else 5

/-- A column address as an engine's location, for global column `self`; none for a column out of range or a reserved aperture. -/
def locOf (self a : Nat) : Option ELoc :=
  if 2 ≤ addrAp a then none
  else if isSelfAlias a then some (.mem self (a % 2 ^ 36))
  else if addrCol a < nCols then some (.mem (addrPkg a * nCols + addrCol a) (a % 2 ^ 36))
  else none

/-- Reads a record of 64 bytes at a column address. -/
def State.eRecord (s : State) (ctx self a : Nat) : State × Acq (Rec64 × Bool) :=
  match locOf self a with
  | none => (s, .fail whyProt)
  | some l =>
    match s.eRead ctx l 64 with
    | (s, .fault c o) => (s, .fault c o)
    | (s, .fail w) => (s, .fail w)
    | (s, .ok (bs, q)) => (s, .ok (BitVec.ofNat 512 (natOf bs), q))

/-- The surface record at an address: in order; a failure with the record where it has been read (R372 code 1 for one that is misaligned, poisoned or
breaks the rules); a fault. -/
inductive SurfGot where
  | ok (r : Rec64)
  | bad (code : Nat) (r : Option Rec64)
  | fault (col off : Nat)
  deriving DecidableEq, Repr, Inhabited

/-- The record, where it has been read. -/
def SurfGot.read : SurfGot → Option Rec64
  | .ok r => some r
  | .bad _ r => r
  | .fault _ _ => none

/-- Reads a surface record for column `self`. -/
def State.readSurf (s : State) (ctx self a : Nat) : State × SurfGot :=
  if a % 64 ≠ 0 then (s, .bad 1 none)
  else
    match s.eRecord ctx (globalOf self) a with
    | (s, .fault c o) => (s, .fault c o)
    | (s, .fail w) => (s, .bad (failCode w) none)
    | (s, .ok (r, q)) => (s, if q then .bad 1 none else if surfOk r then .ok r else .bad 1 (some r))

/-- Whether the accesses of some lanes before a fork have performed (R205). -/
def State.forkDone (s : State) (col : Nat) (lanes : Mask) (bound : Nat) : Bool :=
  !(s.col col).reqs.any fun r => decide (r.tag < bound) && r.lanes &&& lanes != 0

end Sys2Proof.Machine
end

