-- ==== Sys2Proof/Machine/Copy.lean ====
section
/-!
DEFINITION. COPY and COPYM (R368 to R374): joining, the teller's checks and packets, tokens and receipts.
-/

namespace Sys2Proof.Machine

/-! ## Joining (R369) -/

/-- The operation of the n-th COPY or COPYM of a core's group. -/
def State.findCopy (s : State) (core group : Nat) (multi : Bool) (n : Nat) : Option (Nat × CopyOp) :=
  s.ops.findSome? fun e => match e.2 with
    | some o => match o.body with
      | .copy c => if c.core = core ∧ c.group = group ∧ c.multi = multi ∧ c.n = n then some (e.1, c) else none
      | _ => none
    | none => none

/-- The operands that every participant repeats, as the first non-empty slice gives them. -/
def CopyOp.sameAs (o p : CopyOp) : Bool :=
  o.rcpt == p.rcpt && o.srcK == p.srcK && o.dstK == p.dstK && o.cv == p.cv && (o.srcK != 0 || o.a == p.a)
    && (o.dstK != 0 || o.b == p.b)

def CopyOp.allEmpty (o : CopyOp) : Bool := o.slices.all (·.empty)

/-- A word joins: `o` holds its operands and its slice alone. A token register is pending from now (R141). -/
def Ctx.joinCopy (x : Ctx) (o : CopyOp) : Eff :=
  let kind := if o.multi then 1 else 0
  let n := tabGet x.c.joinCnt kind
  let core := coreOf x.col
  let o := { o with core := core, group := x.c.group, n := n }
  let sl := o.slices.headD default
  let old := x.s.findCopy core x.c.group o.multi n
  let bad := match old with
    | some (_, p) => !sl.empty && !p.allEmpty && !p.sameAs o
    | none => false
  if bad then x.trap 0x0A x.sp.mask 0 3
  else
    let id := match old with
      | some (i, _) => i
      | none => x.s.nextOp
    let e : EngOp := match old with
      | some (i, p) =>
        let q := if p.allEmpty && !sl.empty then { o with slices := p.slices ++ [sl] } else { p with slices := p.slices ++ [sl] }
        match x.s.op i with
        | some g => { g with body := .copy q }
        | none => default
      | none => ⟨x.s.seqNo, x.s.ctxOf x.col, false, .copy o⟩
    let s := match old with
      | some _ => x.s
      | none => { x.s with nextOp := id + 1, seqNo := x.s.seqNo + 1 }
    let c := { x.c with
      joinCnt := tabSet x.c.joinCnt kind (n + 1)
      tokens := if sl.treg = 0 then x.c.tokens else x.c.tokens ++ [(sl.treg, id)] }
    .go ((s.setOp id (some e)).setCol x.col c) none false

/-- The slice of a word with its fork. -/
def Ctx.slice (x : Ctx) (first count : Nat) (off src d : DWord) (treg : Nat) : CopySlice :=
  ⟨x.col, first, count, off.toNat, src, d, treg, x.en == 0, x.sp.mask, x.s.nextTag⟩

/-! ## COPY (R368) -/

def copySrc (w : Full) : Nat := xf w 2 1
def copyDst (w : Full) : Nat := xf w 4 3

def fmtCopy (_ : KHdr) (w : Full) : Fmt :=
  { d := fS, a := fS, b := fS, c := fS
    xs := [xBit 0, xFld 1 2 fun _ => true, xFld 3 2 fun _ => true, xBit 5]
    more := if copySrc w = 3 ∨ copyDst w = 3 ∨ (copySrc w ≠ 0 ∧ copyDst w ≠ 0) then some (0, 20)
      else if xb w 0 = false ∧ w.d = .s 0 then some (0x80, 4) else none }

/-- A, B and C, and D of a receipt form, at point 1. -/
def Ctx.ptsCopy (x : Ctx) (d : Bool) : List Pt :=
  (if d then [x.ptAddr x.w.d true fun l => BitVec.ofNat 64 (x.rdd true l)] else [])
    ++ [x.ptAddr x.w.a true fun l => BitVec.ofNat 64 (x.ra true l), x.ptAddr (opB x.w) true fun l => BitVec.ofNat 64 (x.rb true l),
        x.ptAddr (opC x.w) true fun l => BitVec.ofNat 64 (x.rc true l)]

def execCopy (w : Full) (s : State) : Res :=
  s.word w fmtCopy (fun x => x.ptsCopy (xb w 0)) fun x =>
    let rc := xb w 0
    let d := BitVec.ofNat 64 (x.rdd true 0)
    let a := BitVec.ofNat 64 (x.ra true 0)
    let b := BitVec.ofNat 64 (x.rb true 0)
    let c := x.rc true 0
    let sl := x.slice (c % 2 ^ 32) (if x.en = 0 then 0 else c / 2 ^ 32) b a d (if rc then 0 else numOf w.d)
    if rc && x.en != 0 && d.toNat % 16 != 0 then x.trapRcpt 1 d.toNat
    else x.joinCopy
      { (default : CopyOp) with rcpt := rc, srcK := copySrc w, dstK := copyDst w, cv := xb w 5, a := a, b := b, slices := [sl] }

/-! ## COPYM (R373) -/

def fmtCopym (_ : KHdr) (_ : Full) : Fmt := { d := fS, a := fS, b := fS, c := fS }

def execCopym (w : Full) (s : State) : Res :=
  s.word w fmtCopym (fun x => x.ptsCopy true) fun x =>
    let d := x.rdd true 0
    let a := x.ra true 0
    let b := x.rb true 0
    let c := BitVec.ofNat 64 (x.rc true 0)
    let sl := x.slice (fld b 23 0) (if x.en = 0 then 0 else fld b 47 24) 0 (BitVec.ofNat 64 a) (BitVec.ofNat 64 d) 0
    let o : CopyOp := { (default : CopyOp) with multi := true, rcpt := true, a := BitVec.ofNat 64 d, b := c, slices := [sl] }
    if x.en = 0 then x.joinCopy o
    else if targetCol (some x.col) a ≠ some x.col then x.trapAt 5 x.en (fun _ => BitVec.ofNat 64 a) 0
    else if 2 ≤ addrAp a then x.trapAt 8 x.en (fun _ => BitVec.ofNat 64 a) 5
    else if a % 32 ≠ 0 then x.trapAt 7 x.en (fun _ => BitVec.ofNat 64 a) 5
    else if fld d 63 32 % 16 ≠ 0 then x.trapRcpt 1 (fld d 63 32)
    else x.joinCopy o

/-! ## What a copy moves (R370) -/

def CopyOp.total (o : CopyOp) : Nat := o.slices.foldl (fun n sl => n + sl.count) 0

/-- The slice and number of the element (for COPYM, the byte) at a position. -/
def copyAt : List CopySlice → Nat → Option (CopySlice × Nat)
  | [], _ => none
  | sl :: r, p => if p < sl.count then some (sl, sl.first + p) else copyAt r (p - sl.count)

def CopyOp.srcSurf (o : CopyOp) : Surf := surfOf o.recA
def CopyOp.dstSurf (o : CopyOp) : Surf := surfOf o.recB

/-- Element sizes: a scratchpad endpoint takes that of the surface endpoint. -/
def CopyOp.srcSize (o : CopyOp) : Nat := if o.srcK = 0 then o.srcSurf.size else o.dstSurf.size
def CopyOp.dstSize (o : CopyOp) : Nat := if o.dstK = 0 then o.dstSurf.size else o.srcSurf.size

/-- Where element e lies in a scratchpad endpoint of some offset. -/
def State.copySpad (s : State) (kind size off : Nat) (sl : CopySlice) (e : Nat) : ELoc :=
  if kind = 1 then .spad (coreOf sl.col) ((s.region sl.col false).1 + off + size * (e - sl.first))
  else .spad (coreOf sl.col) (off + size * e)

def State.copySrcLoc (s : State) (o : CopyOp) (sl : CopySlice) (e : Nat) : ELoc :=
  if o.srcK = 0 then
    let p := o.srcSurf.readAt sl.col (o.srcSurf.coords e)
    .mem p.1 p.2
  else s.copySpad o.srcK o.srcSize sl.src.toNat sl e

def State.copyDstLocs (s : State) (o : CopyOp) (sl : CopySlice) (e : Nat) : List ELoc :=
  if o.dstK = 0 then (o.dstSurf.writeAt (o.dstSurf.coords e)).map fun p => .mem p.1 p.2
  else [s.copySpad o.dstK o.dstSize sl.off sl e]

/-- The formats that .cv converts between. -/
def cvFmt (ty : Nat) : Option FFmt :=
  match ty with
  | 4 => some .f32 | 5 => some .f64 | 14 => some .f16 | _ => none

/-- The destination bytes of an element. -/
def CopyOp.convert (o : CopyOp) (bs : List Byte) : List Byte :=
  if o.cv && o.srcK == 0 && o.dstK == 0 && o.srcSurf.ty != o.dstSurf.ty then
    match cvFmt o.srcSurf.ty, cvFmt o.dstSurf.ty with
    | some f, some g => bytesOf o.dstSize (narrowFixed g false (f.widen (natOf bs))).1
    | _, _ => bs
  else bs

/-- The receipt of an element at a destination (R371): in the destination column's slice, or in the window; its core and core
scratchpad address. None outside this module. -/
def State.copyRcpt (s : State) (o : CopyOp) (sl : CopySlice) (l : ELoc) : Option (Nat × Nat) :=
  match l with
  | .mem g _ => if pkgOf g = Config.package.toNat then some (coreOf (g % nCols), (s.region (g % nCols) false).1 + sl.d.toNat) else none
  | .spad k _ => some (k, (if o.dstK = 1 then (s.region sl.col false).1 else 0) + sl.d.toNat)

/-- Whether that receipt lies in its region. -/
def State.copyRcptIn (s : State) (o : CopyOp) (sl : CopySlice) (l : ELoc) : Bool :=
  match l with
  | .mem g _ => pkgOf g != Config.package.toNat || decide (sl.d.toNat + 16 ≤ (s.region (g % nCols) false).2)
  | .spad _ _ => decide (sl.d.toNat + 16 ≤ (s.region sl.col (o.dstK == 2)).2)

/-! ## Receipts -/

def rcptKey (core a : Nat) : Nat := core * 2 ^ 20 + a

/-- Subtracts the sectors that bytes landed since `old` complete; `last` rounds the remainders up (R169, R371). -/
def State.landCopy (s : State) (old new : Tab Nat) (last : Bool) : State :=
  new.foldl (fun s e =>
    let n := e.2 / 32 - tabGet old e.1 / 32 + (if last && e.2 % 32 != 0 then 1 else 0)
    s.landSectors (e.1 / 2 ^ 20) (e.1 % 2 ^ 20) n) s

/-- Counts bytes landed for a destination. -/
def State.countLanded (s : State) (o : CopyOp) (sl : CopySlice) (l : ELoc) (n : Nat) (t : Tab Nat) : Tab Nat :=
  match s.copyRcpt o sl l with
  | some (k, a) => if o.rcpt && s.copyRcptIn o sl l then tabMod t (rcptKey k a) (· + n) else t
  | none => t

/-! ## COPYM's receivers (R374) -/

/-- The chosen cores that hold a column of the issuing group. -/
def State.receivers (s : State) (o : CopyOp) : List Nat :=
  match s.group o.group with
  | none => []
  | some g => g.cores.filter fun k =>
      let cl := k / 6
      o.b.getLsbD (meshX cl) && o.b.getLsbD (8 + meshY cl) && o.b.getLsbD (16 + dieOfCluster cl) && o.b.getLsbD (28 + k % 6)

def CopyOp.rcptOff (o : CopyOp) : Nat := fld o.a.toNat 63 32

/-- One arrival at a receiver's receipt; an arrival at ARRV = 0 is discarded with an event. -/
def State.arriveAt (s : State) (o : CopyOp) (k : Nat) : State :=
  if winBytes (s.core k).win < o.rcptOff + 16 then s
  else if (s.rcptGet k o.rcptOff).1.arrv = 0 then s.postEvent 6 ((o.slices.map (·.col)).foldl min nCols) (at_ 5 4)
  else s.rcptUpdate k o.rcptOff Rcpt.arrive

/-- One arrival at every selected receiver. -/
def State.arriveCopym (s : State) (o : CopyOp) (f : Nat → Bool) : State := ((s.receivers o).filter f).foldl (·.arriveAt o ·) s

/-- Whether a column, row, die or core mask is empty: the copy names no receiver. -/
def CopyOp.namesNone (o : CopyOp) : Bool :=
  let c := o.b.toNat
  fld c 7 0 == 0 || fld c 15 8 == 0 || fld c 27 16 == 0 || fld c 33 28 == 0

/-- The bytes that a copy with the surface records read so far is to land per receipt (R371, R372). Where the element size of a scratchpad destination is
not known, as its source record could not be read, it is a free one of the sizes; without a destination record no destination is known (DESIGN CHOICE,
log entry 38). -/
def State.plannedLanding (s : State) (o : CopyOp) (ra rb : Option Rec64) : State × Tab Nat :=
  if o.multi then
    (s, (s.receivers o).foldl (fun t k => if o.rcptOff + 16 ≤ winBytes (s.core k).win then tabSet t (rcptKey k o.rcptOff) o.total else t) [])
  else if !o.rcpt then (s, [])
  else if o.dstK = 0 then
    match rb with
    | none => (s, [])
    | some r =>
      let q := { o with recB := r }
      (s, (List.range q.total).foldl (fun t p => match copyAt q.slices p with
        | some (sl, e) =>
          if q.dstSurf.total ≤ e then t else (s.copyDstLocs q sl e).foldl (fun t l => s.countLanded q sl l q.dstSize t) t
        | none => t) [])
  else
    let (s, size) : State × Nat := match ra with
      | some r => (s, (surfOf r).size)
      | none => ({ s with freeIx := s.freeIx + 1 }, 2 ^ ((Config.freeValue s.freeIx).toNat % 4))
    (s, o.slices.foldl (fun t sl => s.countLanded o sl (.spad (coreOf sl.col) 0) (size * sl.count) t) [])

/-- Packets of a copy that are still on their way are dropped. -/
def State.dropTeller (s : State) (id : Nat) : State :=
  { s with net := s.net.filter fun (p : Packet) => !(pktOurs p && p.kind.toNat == kTeller && p.mask.toNat == id) }

/-- A copy fails (R372): the receipt form subtracts every sector that it was still to land, and posts the event; a COPYM makes its
arrivals where the copy has not landed whole. The completion follows. -/
def State.failCopy (s : State) (id : Nat) (o : CopyOp) (code : Nat) (ra rb : Option Rec64) : State × CopyOp :=
  let src := (o.slices.map (·.col)).foldl min nCols
  let s := s.dropTeller id
  let s := if o.rcpt then
      let (s, plan) := s.plannedLanding o ra rb
      let s := (s.landCopy o.landed plan true).postEvent 6 src (code + at_ 2 4)
      if o.multi && o.total != 0 then s.arriveCopym o fun k => tabGet o.landed (rcptKey k o.rcptOff) != o.total else s
    else s
  (s, { o with started := true, pos := o.total, unacked := [], code := code })

/-! ## The teller's checks (R372) -/

/-- Code 2: whether two surfaces can be copied. -/
def CopyOp.compatible (o : CopyOp) : Bool :=
  if o.srcK = 0 ∧ o.dstK = 0 then
    let f := o.srcSurf
    let g := o.dstSurf
    f.nd == g.nd && f.ext == g.ext
      && (if o.cv then f.ty == g.ty || ((cvFmt f.ty).isSome && (cvFmt g.ty).isSome) else f.size == g.size)
  else true

/-- Code 3: whether a slice reaches beyond its surface. -/
def CopyOp.beyond (o : CopyOp) : Bool :=
  let n := if o.srcK = 0 then o.srcSurf.total else o.dstSurf.total
  o.slices.any fun sl => sl.count != 0 && decide (n < sl.first + sl.count)

/-- Code 4: whether a scratchpad endpoint reaches beyond its region. -/
def State.copyEscapes (s : State) (o : CopyOp) : Bool :=
  let out (kind size off : Nat) (sl : CopySlice) : Bool :=
    kind != 0 && sl.count != 0
      && decide ((s.region sl.col (kind == 2)).2 < off + size * (sl.count + if kind = 2 then sl.first else 0))
  o.slices.any fun sl => out o.srcK o.srcSize sl.src.toNat sl || out o.dstK o.dstSize sl.off sl

/-- What a pass over the copy's accesses finds: a fault first, then the failure of the lowest code. -/
inductive Scan where
  | ok
  | fault (col off : Nat) (acc : Acc)
  | code (n : Nat)
  deriving DecidableEq, Repr, Inhabited

def Scan.and (a : Scan) (b : Acq Unit) (acc : Acc) : Scan :=
  match a, b with
  | .fault c o k, _ => .fault c o k
  | _, .fault c o => .fault c o acc
  | .code n, .fail w => .code (min n (failCode w))
  | .ok, .fail w => .code (failCode w)
  | a, .ok _ => a

/-- Codes 5 and 6, and code 4 for the receipts, over every element. -/
def State.scanCopy (s : State) (ctx : Nat) (o : CopyOp) : Scan × Bool :=
  (List.range o.total).foldl (fun (r : Scan × Bool) p =>
    match copyAt o.slices p with
    | none => r
    | some (sl, e) =>
      let ds := s.copyDstLocs o sl e
      let a := r.1.and (s.eCheck ctx (s.copySrcLoc o sl e) o.srcSize .read) .read
      let a := ds.foldl (fun a l => a.and (s.eCheck ctx l o.dstSize .write) .write) a
      (a, r.2 || (o.rcpt && ds.any fun l => !s.copyRcptIn o sl l))) (.ok, false)

/-- The scan of a COPYM: its source bytes in pieces of 32. -/
def State.scanCopym (s : State) (ctx : Nat) (o : CopyOp) : Scan :=
  o.slices.foldl (fun a sl =>
    (List.range ((sl.count + 31) / 32)).foldl (fun a i =>
      let n := min 32 (sl.count - 32 * i)
      let p := sl.src.toNat + 32 * i
      match s.resolve ctx sl.col (addrOff p) n (addrAp p == 1) .read with
      | .ok _ => a.and (.ok ()) .read
      | .fault c f => a.and (.fault c f) .read
      | .fail w => a.and (.fail w) .read) a) .ok

/-- The column for which the teller reads a copy's records: the first that joined with an enabled lane. -/
def CopyOp.self (o : CopyOp) : Nat :=
  match o.slices.find? fun sl => !sl.empty with
  | some sl => sl.col
  | none => 0

/-- Reads the surface records of a copy: those of its source and its destination. -/
def State.copyRecords (s : State) (ctx : Nat) (o : CopyOp) : State × SurfGot × SurfGot :=
  let get (s : State) (kind : Nat) (a : DWord) : State × SurfGot :=
    if kind = 0 then s.readSurf ctx o.self a.toNat else (s, .ok default)
  let (s, ga) := get s o.srcK o.a
  let (s, gb) := get s o.dstK o.b
  (s, ga, gb)

/-- The start of a copy whose slices have all joined. -/
def State.startCopy (s : State) (id : Nat) (e : EngOp) (o : CopyOp) : State :=
  let put (r : State × CopyOp) : State := r.1.setOp id (some { e with body := .copy r.2 })
  let done : CopyOp := { o with started := true, pos := o.total }
  if o.total = 0 then put (s, done)
  else if o.multi then
    if o.namesNone then put (s, done)
    else if (s.receivers o).any fun k => decide (winBytes (s.core k).win < o.rcptOff + 16) then put (s.failCopy id o 4 none none)
    else
      match s.scanCopym e.ctx o with
      | .fault c f k => s.suspend id c f k
      | .code n => put (s.failCopy id o n none none)
      | .ok => put (s, if s.receivers o = [] then done else { o with started := true })
  else
    let (s, ga, gb) := s.copyRecords e.ctx o
    let fail (o : CopyOp) (n : Nat) : State := put (s.failCopy id o n ga.read gb.read)
    match ga, gb with
    | .fault c f, _ => s.suspend id c f .read
    | _, .fault c f => s.suspend id c f .read
    | .bad n _, .bad m _ => fail o (min n m)
    | .bad n _, _ => fail o n
    | _, .bad n _ => fail o n
    | .ok ra, .ok rb =>
      let o := { o with recA := ra, recB := rb }
      if !o.compatible then fail o 2
      else if o.beyond then fail o 3
      else if s.copyEscapes o then fail o 4
      else
        match s.scanCopy e.ctx o with
        | (.fault c f k, _) => s.suspend id c f k
        | (_, true) => fail o 4
        | (.code n, _) => fail o n
        | (.ok, _) => put (s, { o with started := true })

/-! ## Packets (R370, R374) -/

/-- The 256-byte block of a location. -/
def ELoc.block : ELoc → Nat × Nat
  | .mem g off => (g, off / 256)
  | .spad k a => (nGlobal + k, a / 256)

/-- The cluster whose credit a packet to a location takes (R53): none for the supplying column and its core's scratchpad. -/
def ELoc.credit (col : Nat) : ELoc → Option Nat
  | .mem g _ => if g = globalOf col then none else some (g / 48)
  | .spad _ _ => none

/-- The places that a copy writes each element to, counted. -/
def CopyOp.copies (o : CopyOp) : Nat := if o.dstK = 0 ∧ o.dstSurf.dist = 3 then o.dstSurf.ncol else 1

/-- The place of element e in the copy of the destination that the next packet goes to. -/
def State.copyDst (s : State) (o : CopyOp) (sl : CopySlice) (e : Nat) : ELoc :=
  (s.copyDstLocs o sl e).getD o.dst (.spad (coreOf sl.col) 0)

/-- Whether a read is that of a checkpoint (R38, R120): it is copied to the second tier of a column of another cluster, or to another module
(DEDUCED, log entry 27). -/
def State.checkpoints (s : State) (ctx : Nat) (src dst : ELoc) : Bool :=
  match src, dst with
  | .mem g _, .mem h off =>
    pkgOf g == Config.package.toNat && (pkgOf h != pkgOf g || (h / 48 != g / 48 && match (s.walk ctx (h % nCols) (addrOff off)).1 with
      | .page p => p.tier
      | _ => false))
  | _, _ => false

/-- The lines that a read of n bytes of this module's memory meets. -/
def State.linesAt (s : State) (ctx : Nat) (l : ELoc) (n : Nat) : List Nat :=
  match l with
  | .spad _ _ => []
  | .mem g off =>
    match s.resolve ctx (g % nCols) (addrOff off) n (addrAp off == 1) .read with
    | .ok sp => ((List.range n).map fun i => (s.pagePlace sp.col sp.page sp.raw (sp.po + i)).line).eraseDups
    | _ => []

/-- A checkpoint read reads its lines from the array, as the patroller does (R38). -/
def State.patrolCopy (s : State) (lines : List Nat) : State :=
  lines.eraseDups.foldl (fun s ln => (s.patrolLine (placeOf (64 * ln)) 1).patrolledNow ln) s

/-- The elements of the next packet of a copy, by slice and number: those from its position on that lie in one 256-byte block of the destination, at most
`fuel` of them. -/
def State.packetElems (s : State) (o : CopyOp) (blk : Nat × Nat) (pos : Nat) : Nat → List (CopySlice × Nat)
  | 0 => []
  | fuel + 1 =>
    match copyAt o.slices pos with
    | none => []
    | some (sl, e) => if (s.copyDst o sl e).block = blk then (sl, e) :: s.packetElems o blk (pos + 1) fuel else []

/-- What the elements of a packet read and write: the state, a fault or failure of any of them, their writes, and the bytes landed. -/
structure Moved where
  s : State
  stop : Scan
  ws : List (ELoc × List Byte × Bool)
  landed : Tab Nat
  deriving DecidableEq, Repr

/-- Reads some elements of a copy. -/
def State.moveElems (s : State) (ctx : Nat) (o : CopyOp) (ws : List (ELoc × List Byte × Bool)) (landed : Tab Nat) : List (CopySlice × Nat) → Moved
  | [] => ⟨s, .ok, ws, landed⟩
  | (sl, e) :: es =>
    let l := s.copyDst o sl e
    match Scan.ok.and (s.eCheck ctx l o.dstSize .write) .write, s.eRead ctx (s.copySrcLoc o sl e) o.srcSize with
    | .fault c f k, _ => ⟨s, .fault c f k, ws, landed⟩
    | .code n, _ => ⟨s, .code n, ws, landed⟩
    | .ok, (_, .fault c f) => ⟨s, .fault c f .read, ws, landed⟩
    | .ok, (_, .fail w) => ⟨s, .code (failCode w), ws, landed⟩
    | .ok, (s, .ok (bs, q)) =>
      let out := o.convert bs
      s.moveElems ctx o (ws ++ [(l, out, q)]) (s.countLanded o sl l out.length landed) es

/-- A packet of teller data (R359): its bytes are accesses of up to 8 bytes; LANES holds the copy's teller tag. -/
def tellerPacket (id col tag slot : Nat) (dest : DWord) (accs : List LaneAcc) : Packet :=
  { requestPacket kTeller 0 0 .n64 (dest.toNat / 256) accs true with
    src := mkAddr col tag, req := tag, slot := slot, mask := BitVec.ofNat 32 id }

/-- The address of a location in the memory of a column of the system. -/
def sysAddr (g off : Nat) : DWord := BitVec.ofNat 64 (pkgOf g * 2 ^ 52 + g % nCols * 2 ^ 36 + off % 2 ^ 36)

/-- Sends teller data under a credit of its cluster: its place in `unacked`. One to a column of this module has landed, and is acknowledged. -/
def State.sendTeller (s : State) (id : Nat) (o : CopyOp) (col key : Nat) (dest : DWord) (accs : List LaneAcc) (landed : Bool) :
    State × (Nat × Nat × Nat) :=
  let tag := s.nextTag
  let slot := s.freeCredit (8 * o.core) key
  let p := tellerPacket id col tag slot dest accs
  (({ s with nextTag := tag + 1 }).send (if landed then replyTo p 0 [] else p), (tag, key, slot))

/-- The next packet of a copy to memory or to its core's scratchpad. It forms only when each of its elements can be read and written. -/
def State.copyPacket (s : State) (id : Nat) (e : EngOp) (o : CopyOp) : Option State :=
  match copyAt o.slices o.pos with
  | none => none
  | some (sl, el) =>
    let dst := s.copyDst o sl el
    let key := dst.credit sl.col
    let here := match dst with
      | .mem g _ => pkgOf g == Config.package.toNat
      | .spad _ _ => true
    if !s.creditsFree o.core key.toList || (here && key.any fun k => !s.pw.runs (k % 768)) then none
    else
      let es := s.packetElems o dst.block o.pos 256
      let s := s.patrolCopy (es.flatMap fun x =>
        let src := s.copySrcLoc o x.1 x.2
        if s.checkpoints e.ctx src dst then s.linesAt e.ctx src o.srcSize else [])
      let m := s.moveElems e.ctx o [] o.landed es
      let put (r : State × CopyOp) : State := r.1.setOp id (some { e with body := .copy r.2 })
      some (match m.stop with
        | .fault c f k => (put (s, o)).suspend id c f k
        | .code n => put (s.failCopy id o n (some o.recA) (some o.recB))
        | .ok =>
          let q := if o.dst + 1 < o.copies then { o with dst := o.dst + 1, landed := m.landed }
            else { o with dst := 0, pos := o.pos + es.length, landed := m.landed }
          let t := (m.s.eWriteAll e.ctx m.ws).landCopy o.landed q.landed (q.pos == q.total)
          match key, dst with
          | some k, .mem g off =>
            let accs := m.ws.map fun w => match w.1 with
              | .mem g off => (⟨0, sysAddr g off, w.2.1.length, BitVec.ofNat 64 (natOf w.2.1), 0, w.2.2⟩ : LaneAcc)
              | .spad _ _ => default
            let (t, u) := t.sendTeller id o sl.col k (sysAddr g off) accs here
            put (t, { q with unacked := q.unacked ++ [u] })
          | _, _ => put (t, q))

/-- The cluster of a core, as a credit names it. -/
def coreKey (core : Nat) : Nat := 768 * Config.package.toNat + core / 6

/-- The next packet of a COPYM: at most 256 bytes of one slice to every receiver, at its window offset. -/
def State.multicast (s : State) (id : Nat) (e : EngOp) (o : CopyOp) : Option State :=
  match copyAt o.slices o.pos with
  | none => none
  | some (sl, b) =>
    let p := b - sl.first
    let n := min 256 (sl.count - p)
    let rs := s.receivers o
    if !s.creditsFree o.core (rs.map coreKey) then none
    else
      let put (r : State × CopyOp) : State := r.1.setOp id (some { e with body := .copy r.2 })
      some (match s.readAcross e.ctx (some sl.col) (sl.src.toNat + p) n with
        | (s, .fault c f) => (put (s, o)).suspend id c f .read
        | (s, .fail w) => put (s.failCopy id o (failCode w) none none)
        | (s, .ok (bs, q)) =>
          let off := fld o.a.toNat 31 0 + sl.first
          let accs := (List.range (n / 8)).map fun i =>
            (⟨0, BitVec.ofNat 64 (off + p + 8 * i), 8, BitVec.ofNat 64 (natOf ((bs.drop (8 * i)).take 8)), BitVec.ofNat 64 (off + sl.count), q⟩ : LaneAcc)
          let r := rs.foldl (fun (r : State × List (Nat × Nat × Nat)) k =>
            let (t, u) := r.1.sendTeller id o sl.col (coreKey k) (mkAddr (8 * k) 0) accs false
            (t, if r.2.any fun v => v.2.1 == u.2.1 then r.2 ++ [(u.1, nGlobal, u.2.2)] else r.2 ++ [u])) (s, [])
          put (r.1, { o with pos := o.pos + n, unacked := o.unacked ++ r.2 }))

/-- A packet of a COPYM lands at a receiver: a slice that reaches beyond its window is discarded there, and its sectors are subtracted; the last
makes the arrival (R374). -/
def State.landCopym (s : State) (p : Packet) : State :=
  let k := coreOf (pktDest p)
  let id := p.mask.toNat
  match s.op id with
  | some ⟨sq, ctx, su, .copy o⟩ =>
    let key := rcptKey k o.rcptOff
    let s := p.accs.foldl (fun (s : State) a =>
      if winBytes (s.core k).win < a.data2.toNat then s else s.eSpadWrite k a.addr.toNat (bytesOf a.size a.data.toNat) a.pois) s
    let landed := tabMod o.landed key (· + 8 * p.accs.length)
    let s := s.landCopy o.landed landed false
    let s := if tabGet landed key = o.total then s.arriveAt o k else s
    s.setOp id (some ⟨sq, ctx, su, .copy { o with landed := landed }⟩)
  | _ => s

/-- TELLER_DATA (R359, R369, R370, R374): the teller starts a copy whose slices have all joined and whose forks are met, or sends its next packet; or
teller data arrives: a COPYM's at a receiver, or another module's copy at its destination. -/
def execTellerData (move : TellerMove) (s : State) : Res :=
  match move with
  | .packet p => s.deliver "TELLER_DATA" kTeller p fun s =>
      if pktOurs p then .next (((s.take p).landCopym p).send (replyTo p 0 []))
      else s.serve "TELLER_DATA" p .write fun s pg =>
        match pg with
        | none => s.send (replyTo p 1 [])
        | some pg => (s.writeSpans (p.accs.map fun a => (pktSpan p pg a, bytesOf a.size a.data.toNat, a.pois))).send (replyTo p 0 [])
  | .own op =>
    match s.op op with
    | some ⟨sq, ctx, false, .copy o⟩ =>
      let e : EngOp := ⟨sq, ctx, false, .copy o⟩
      if !s.copyJoined o then notNow "TELLER_DATA"
      else if !o.started then
        if o.slices.all fun sl => s.forkDone sl.col sl.lanes sl.bound then .next (s.startCopy op e o) else notNow "TELLER_DATA"
      else match if o.multi then s.multicast op e o else s.copyPacket op e o with
        | some t => .next t
        | none => notNow "TELLER_DATA"
    | _ => notNow "TELLER_DATA"

/-- The copy that has a packet unacknowledged. -/
def State.unackedBy (s : State) (tag : Nat) : Option (Nat × EngOp × CopyOp) :=
  s.ops.findSome? fun e => match e.2 with
    | some o => match o.body with
      | .copy c => if c.unacked.any (·.1 == tag) then some (e.1, o, c) else none
      | _ => none
    | none => none

/-- TELLER_ACKNOWLEDGEMENT (R53, R359): the packet's credit returns; one that no copy waits for is discarded (R18). -/
def execTellerAcknowledgement (p : Packet) (s : State) : Res :=
  s.deliver "TELLER_ACKNOWLEDGEMENT" kTellerAck p fun s =>
    let s := s.landed p
    .next (match s.unackedBy p.req with
      | some (id, e, o) =>
        (s.setOp id (some { e with body := .copy { o with unacked := o.unacked.filter (·.1 != p.req) } })).pumpCore (8 * o.core)
      | none => s)

/-- Destination bytes of a copy. -/
def CopyOp.bytes (o : CopyOp) : Nat :=
  if o.total = 0 then 0 else o.total * o.dstSize * o.copies

/-- Writes a token in a column (R141). -/
def State.writeToken (s : State) (col treg id : Nat) (v : Nat) : State :=
  if (tabGet s.cols col).isNone then s
  else s.modCol col fun c =>
    { c.wrS treg (BitVec.ofNat 64 v) false with tokens := c.tokens.filter fun t => !(t.1 == treg && t.2 == id) }

/-- COPY_COMPLETION (R371, R372, R374): every packet is acknowledged; the token is written in every participant. -/
def execCopyCompletion (op : Nat) (s : State) : Res :=
  match s.op op with
  | some ⟨_, _, false, .copy o⟩ =>
    if o.started = false ∨ o.pos ≠ o.total ∨ o.unacked ≠ [] then notNow "COPY_COMPLETION"
    else
      let s := if o.multi && o.total == 0 then s.arriveCopym o fun _ => true else s
      let v := if o.code = 0 then o.bytes else 2 ^ 63 + o.code
      .next ((o.slices.foldl (fun s sl => if sl.treg = 0 then s else s.writeToken sl.col sl.treg op v) s).setOp op none)
  | _ => notNow "COPY_COMPLETION"

end Sys2Proof.Machine
end

