-- ==== Sys2Proof/Machine/Exchange.lean ====
section
/-!
DEFINITION. XCH (R375 to R377).
-/

namespace Sys2Proof.Machine

def xchLevel (w : Full) : Nat := xf w 2 0
def xchPerm (w : Full) : Nat := xf w 4 3
def xchM (w : Full) : Nat := xf w 10 6

def fmtXch (h : KHdr) (w : Full) : Fmt :=
  { d := fV.w (isWide w.ty), a := fV.w (isWide w.ty), b := fS, c := fP, tys := some [.b32, .n64]
    xs := [xFld 0 3 fun l => 1 ≤ l && l ≤ 6, xFld 3 2 fun _ => true, xBit 5, xFld 6 5 fun _ => true]
    more := if xchLevel w = 6 then some (0, 19) else if h.level < xchLevel w then some (0, 11) else none }

/-- The live columns that take part at a level, ascending (R376). -/
def State.xchCols (s : State) (col level : Nat) : List Nat :=
  (containerCols (s.groupCols col) level col).filter fun c => (s.col c).live != 0

/-- The exchange that a column's next XCH at a level belongs to. -/
def State.findXch (s : State) (group level n : Nat) (cols : List Nat) : Option (Nat × XchOp) :=
  s.ops.findSome? fun e => match e.2 with
    | some o => match o.body with
      | .xch q => if q.group = group ∧ q.level = level ∧ q.n = n ∧ q.ents.any (fun t => cols.contains t.col) then some (e.1, q) else none
      | _ => none
    | none => none

/-- What the word presents. -/
def Ctx.xchEnt (x : Ctx) : XchEnt :=
  let wide := isWide x.w.ty
  let n := numOf x.w.a
  ⟨x.col, xchLevel x.w, xchPerm x.w, xb x.w 5, xchM x.w, wide, x.rb false 0, x.en,
   lanes32.flatMap fun l => [(x.c.rdV n l, x.c.rdVp n l), if wide then (x.c.rdV (n + 1) l, x.c.rdVp (n + 1) l) else (0, false)], false⟩

/-- Whether two participants present the same word. -/
def XchEnt.sameAs (a b : XchEnt) : Bool :=
  a.level == b.level && a.perm == b.perm && a.lrot == b.lrot && a.m == b.m && a.wide == b.wide && a.k == b.k

/-- The partner of rank c among N (R377). -/
def xchPartner (perm k n c : Nat) : Nat :=
  match perm with
  | 0 => (c + k) % n
  | 1 => c ^^^ k
  | 2 => n - 1 - c
  | _ => k

/-- The writes of the exchange in a column of rank c: value and poison of the source lane, and the result predicate. -/
def xchWrites (vd pd : Nat) (e : XchEnt) (en : Mask) (parts : List (Option XchEnt)) (c : Nat) : List RWrite :=
  let n := parts.length
  let p := xchPartner e.perm e.k n c
  (lanesOf en).flatMap fun l =>
    let j := if e.lrot then (l + e.m) % 32 else l ^^^ e.m
    let src : Option XchEnt := match parts.getD p none with
      | some q => if p < n ∧ q.en.getLsbD j then some q else none
      | none => none
    let pr (b : Bool) : List RWrite := if pd = 0 then [] else [.prd pd l b false]
    match src with
    | some q =>
      let lo := q.vals.getD (2 * j) (0, false)
      let hi := q.vals.getD (2 * j + 1) (0, false)
      (if e.wide then [RWrite.vec vd l lo.1 lo.2, .vec (vd + 1) l hi.1 hi.2] else [RWrite.vec vd l lo.1 lo.2]) ++ pr true
    | none => pr false

/-- A participant has taken its result or its trap: the exchange counts as consumed in it, and is gone once all have. -/
def State.takeXch (s : State) (id : Nat) (o : XchOp) (col : Nat) : State :=
  let ents := o.ents.map fun e => if e.col = col then { e with taken := true } else e
  let s := s.modCol col fun c => { c with joinCnt := tabSet c.joinCnt (2 + o.level) (o.n + 1) }
  if o.parts.all fun c => ents.any fun e => e.col == c && e.taken then s.setOp id none
  else match s.op id with
    | some e => s.setOp id (some { e with body := .xch { o with ents := ents } })
    | none => s

/-- The exchanges of a group, with what is presented to each. -/
def State.exchanges (s : State) (group : Nat) : List (Nat × XchOp) :=
  s.ops.filterMap fun e => e.2.bind fun o => match o.body with
    | .xch q => if q.group = group then some (e.1, q) else none
    | _ => none

/-- Whether every one of some columns presents a word, at one level or another. -/
def State.allPresent (s : State) (group : Nat) (cols : List Nat) : Bool :=
  cols.all fun c => (s.exchanges group).any fun e => e.2.ents.any fun t => t.col == c && !t.taken

/-- What one of the exchanges that some columns present to becomes where the words differ in level (R377): the columns that present to it are to
trap (level 0), and it is consumed in those of its participants that present at another level. -/
def XchOp.mixed (o : XchOp) (parts cols : List Nat) : XchOp :=
  let ents := o.ents.map fun t => if cols.contains t.col && !t.taken then { t with level := 0 } else t
  let away := (parts.filter cols.contains).filter fun c => !o.ents.any fun t => t.col == c
  { o with ents := ents ++ away.map fun c => { (default : XchEnt) with col := c, taken := true } }

/-- The words that some columns present differ in level: every one of the columns raises its trap. -/
def State.mixXch (s : State) (group : Nat) (cols : List Nat) : State :=
  ((s.exchanges group).filter fun e => e.2.ents.any fun t => cols.contains t.col && !t.taken).foldl (fun s e =>
    let o := e.2
    let parts := s.xchCols ((o.ents.map (·.col)).headD 0) o.level
    let away := (parts.filter cols.contains).filter fun c => !o.ents.any fun t => t.col == c
    let s := away.foldl (fun (s : State) c =>
      s.modCol c fun k => { k with joinCnt := tabSet k.joinCnt (2 + o.level) (o.n + 1) }) s
    match s.op e.1 with
    | some g => s.setOp e.1 (some { g with body := .xch (o.mixed parts cols) })
    | none => s) s

/-- Whether some participants have consumed an exchange, or are to trap at it: a pre-emption does not discard it. -/
def XchOp.consumed (o : XchOp) : Bool := o.parts != [] || o.ents.any fun t => t.taken || t.level == 0

/-- An exchange without the presentations that a pre-emption discards (R376). -/
def XchOp.withdrawn (o : XchOp) : XchOp :=
  if o.parts != [] then o else { o with ents := o.ents.filter fun t => t.taken || t.level == 0 }

/-- A column takes the trap of the exchange that it presents to. -/
def State.consume (s : State) (group level n col : Nat) : State :=
  match (s.exchanges group).find? fun e => e.2.level == level && e.2.n == n && e.2.ents.any fun t => t.col == col && !t.taken with
  | some (id, o) => s.takeXch id { o with parts := if o.parts = [] then s.xchCols col level else o.parts } col
  | none => s

/-- The registers of an XCH's result (R140). -/
def Ctx.xchRegs (x : Ctx) : List PReg :=
  let v := numOf x.w.d
  if x.en = 0 then []
  else (if isWide x.w.ty then [PReg.v v, .v (v + 1)] else [PReg.v v]) ++ if numOf (opC x.w) = 0 then [] else [PReg.p (numOf (opC x.w))]

/-- An XCH: it presents and ends its run; once every live participant has presented, it is performed, or traps on a mismatch. -/
def Ctx.xch (x : Ctx) : State × Eff :=
  let level := xchLevel x.w
  if x.c.live &&& ~~~x.sp.mask ≠ 0 then (x.s, x.trap 0x0A x.sp.mask 0 2)
  else
    let cols := x.s.xchCols x.col level
    let n := tabGet x.c.joinCnt (2 + level)
    let e := x.xchEnt
    match x.s.findXch x.c.group level n cols with
    | none =>
      let o : XchOp := ⟨x.c.group, level, n, [], [e]⟩
      (({ x.s with nextOp := x.s.nextOp + 1, seqNo := x.s.seqNo + 1 }).setOp x.s.nextOp
        (some ⟨x.s.seqNo, x.s.ctxOf x.col, false, .xch o⟩), .block)
    | some (id, o) =>
      match o.ents.find? fun t => t.col == x.col with
      | none =>
        match x.s.op id with
        | some g => (x.s.setOp id (some { g with body := .xch { o with ents := o.ents ++ [e] } }), .block)
        | none => (x.s, .block)
      | some mine =>
        let parts := if o.parts = [] then cols else o.parts
        let got := parts.map fun c => o.ents.find? fun t => t.col == c
        if mine.level = 0 then (x.s.takeXch id { o with parts := parts } x.col, x.trap 0x0A x.sp.mask 0 1)
        else if got.any (·.isNone) then
          if x.s.allPresent x.c.group cols then ((x.s.mixXch x.c.group cols).consume x.c.group level n x.col, x.trap 0x0A x.sp.mask 0 1)
          else (x.s, .block)
        else
          let s := x.s.takeXch id { o with parts := parts } x.col
          if !o.ents.all fun t => t.sameAs mine then (s, x.trap 0x0A x.sp.mask 0 1)
          else
            let ws := xchWrites (numOf x.w.d) (numOf (opC x.w)) mine x.en got (parts.findIdx (· == x.col))
            (s, Ctx.varOf { x with s := s, c := s.col x.col } (ws, 0) x.xchRegs)

def execXch (w : Full) (s : State) : Res :=
  s.wordSt w fmtXch (fun x => [x.pt x.w.a (isWide x.w.ty) 5, x.pt (opB x.w) false 5]) Ctx.xch

end Sys2Proof.Machine
end

