-- ==== Sys2Proof/Machine/Tile.lean ====
section
/-!
DEFINITION. TDESC, TZERO, TFILL and TSTORE (R406 to R413), with the planes of R224 to R226.
-/

namespace Sys2Proof.Machine

/-! ## TDESC (R406) -/

/-- The uniform registers of a group of `n` from operand `o` on. -/
def sRegs (o : Opnd) (n : Nat) : List Nat := (List.range n).map (numOf o + ·)

/-- The first of the registers at or beyond NS, as reason 6. -/
def sBeyond (h : KHdr) (o : Opnd) (n : Nat) : Option (Nat × Nat) :=
  ((sRegs o n).find? fun r => decide (h.ns ≤ r)).map fun r => (if r < 64 then 0x80 + r else specOf o, 6)

/-- The registers after the first, as operands. -/
def sExtra (o : Opnd) (n : Nat) : List Opnd := (sRegs o n).tail.map fun r => .s (BitVec.ofNat 6 r)

def fmtTdesc (h : KHdr) (w : Full) : Fmt :=
  { d := fT, a := fS, more := sBeyond h w.a 4, extra := sExtra w.a 4 }

/-- The value of n registers, 64 bits each, the first lowest. -/
def Column.sGroup (c : Column) (o : Opnd) (n : Nat) : Nat :=
  (List.range n).foldl (fun v i => v + (c.rdS (numOf o + i)).toNat * 2 ^ (64 * i)) 0

def execTdesc (w : Full) (s : State) : Res :=
  s.word w fmtTdesc (fun x => (x.w.a :: sExtra x.w.a 4).map fun o => x.pt o true 10) fun x =>
    let d : TileDesc := BitVec.ofNat 256 (x.c.sGroup x.w.a 4)
    if x.en = 0 then .go x.s none false
    else if !tdescOk d then x.trap2 0 16
    else if !tileInside d (x.s.region x.col (descWin d)).2 then x.trap 8 x.en 0 16
    else .go (x.s.setCol x.col { x.c with t := tabSet x.c.t (numOf x.w.d) d }) none false

/-! ## Waits of tiles and tasks (R417) -/

/-- Whether a task granted before `seq` that has not completed reads some bytes of a core's scratchpad. -/
def State.tasksRead (s : State) (core seq : Nat) (rs : List (Nat × Nat)) : Bool :=
  (tabGet s.mintq core).any fun m => match m.act with
    | .task op _ _ _ _ a b _ _ _ fin =>
      decide (op < 2) && !fin && decide (m.seq < seq) && rangesMeet (s.tileSpans m.col a ++ s.tileSpans m.col b) rs
    | _ => false

/-! ## TZERO (R407) -/

/-- Whether a tile register holds a KIND that fills, stores and zeros accept. -/
def fillKind (d : TileDesc) : Bool := decide (1 ≤ descKind d) && decide (descKind d ≤ 3)

/-- Puts a new operation into the machine. -/
def State.newOp (s : State) (ctx : Nat) (b : OpBody) : State :=
  { s with ops := tabSet s.ops s.nextOp (some ⟨s.seqNo, ctx, false, b⟩), nextOp := s.nextOp + 1, seqNo := s.seqNo + 1 }

def execTzero (w : Full) (s : State) : Res :=
  s.word w (fun _ _ => { d := fT }) noPts fun x =>
    let d := tabGet x.c.t (numOf x.w.d)
    if x.en = 0 then .go x.s none false
    else if !fillKind d then x.trap2 0 19
    else .go (x.s.newOp (x.s.ctxOf x.col) (.tzero x.col d)) none false

/-- TZERO_COMPLETION. -/
def execTzeroCompletion (op : Nat) (s : State) : Res :=
  match s.op op with
  | some ⟨sq, _, _, .tzero col d⟩ =>
    let rs := s.tileSpans col d
    if s.tasksRead (coreOf col) sq rs then notNow "TZERO_COMPLETION"
    else .next ((rs.foldl (fun s r => s.spadZero (coreOf col) r.1 r.2) s).setOp op none)
  | _ => notNow "TZERO_COMPLETION"

/-! ## Planes (R224, R225) -/

/-- A group of 8 values: special, or its exponent and integers. -/
structure Group8 where
  special : Bool
  e : Int
  m : List Int
  pois : Bool
  deriving DecidableEq, Repr, Inhabited

/-- The largest exponent of some values; none if all are zero. -/
def maxExp (xs : List XR) : Option Int :=
  xs.foldl (fun b x => match x with
    | .num _ n d => if n = 0 then b else some (match b with
      | some e => max e (ilog2 n d)
      | none => ilog2 n d)
    | _ => b) none

def clampInt (lo hi i : Int) : Int := max lo (min hi i)

/-- align_a (R224). -/
def alignA (p : Nat) (xs : List XR) (pois : Bool) : Group8 :=
  if xs.any fun x => match x with
    | .num _ _ _ => false
    | _ => true then ⟨true, -128, xs.map fun _ => 0, pois⟩
  else
    match maxExp xs with
    | none => ⟨false, -127, xs.map fun _ => 0, pois⟩
    | some t =>
      let e := clampInt (-127) 127 (t + 1)
      let lim : Int := (2 ^ (p - 1) : Nat) - 1
      let one (x : XR) : Int := match x with
        | .num neg n d =>
          let (a, b) := unscale n d (e - ((p : Int) - 1))
          let r := (roundInt (if p < 16 then .rna else .rne) neg a b).1
          clampInt (-lim) lim (if neg then -(r : Int) else r)
        | _ => 0
      ⟨false, e, xs.map one, pois⟩

/-! ## The surface's words (R408, R410) -/

/-- Read words: coordinates (x0, x1), value, poison. -/
abbrev Words := List ((Nat × Nat) × Nat × Bool)

def Words.get (t : Words) (x0 x1 : Nat) : Nat × Bool :=
  match t.find? fun e => e.1 == (x0, x1) with
  | some e => e.2
  | none => (0, false)

/-- Whether coordinates lie within the extents, with dimensions 2 and 3 at 0. -/
def Surf.within (f : Surf) (x0 x1 : Nat) : Bool :=
  decide (x0 < f.ext.getD 0 0) && (if 1 < f.nd then decide (x1 < f.ext.getD 1 0) else x1 == 0)

/-- Reads some bytes for each coordinate pair at a place that `loc` gives; pairs without a place read as 0. The first fault ends the
reading, and failures are collected. -/
def State.gather (s : State) (ctx n : Nat) (loc : Nat × Nat → Option ELoc) : List (Nat × Nat) → State × Scan × Words
  | [] => (s, .ok, [])
  | x :: xs =>
    match loc x with
    | none => s.gather ctx n loc xs
    | some l =>
      match s.eRead ctx l n with
      | (_, .fault c o) => (s, .fault c o .read, [])
      | (_, .fail w) =>
        let r := s.gather ctx n loc xs
        (r.1, r.2.1.and (.fail w) .read, r.2.2)
      | (s, .ok (bs, q)) =>
        let r := s.gather ctx n loc xs
        (r.1, r.2.1, (x, natOf bs, q) :: r.2.2)

/-- Where the word at (x0, x1) lies for an engine of a column. -/
def Surf.wordLoc (f : Surf) (self : Nat) (x : Nat × Nat) : Option ELoc :=
  if f.within x.1 x.2 then
    let p := f.readAt self [x.1, x.2, 0, 0]
    some (.mem p.1 p.2)
  else none

/-- Where the scale byte, or the superblock's scale, of the block of the word at (x0, x1) lies (R194). -/
def Surf.scaleLoc (f : Surf) (self : Nat) (sup : Bool) (x : Nat × Nat) : Option ELoc :=
  if f.within x.1 x.2 then
    let p := f.readAt self [x.1, x.2, 0, 0]
    let q := (p.2 - f.base) / 32
    some (.mem p.1 (if sup then addrOff f.sscale + 4 * (q / 256) else addrOff f.bscale + q))
  else none

/-- Every (x0, x1) with x0 from a to b and x1 of n rows from r on. -/
def grid (a b r n : Nat) : List (Nat × Nat) :=
  (List.range n).flatMap fun i => (List.range (b + 1 - a)).map fun j => (a + j, r + i)

/-- What a fill reads: the element at k′ of a row, and for hn4x8 its block's scale. -/
structure FillSrc where
  ty : Ty
  vals : Words
  metas : Option Words
  scaleB : Words
  scaleS : Words
  deriving DecidableEq, Repr

/-- The scalar k′ of a row of the surface, by words of n elements (R408). -/
def FillSrc.scalar (f : FillSrc) (k r : Nat) : Nat × Bool :=
  let n := elemCount f.ty
  let w := f.vals.get (k / n) r
  (elemAt (elemBits f.ty) w.1 (k % n), w.2)

/-- The indices of a dense group, and the poison of their word (R410). -/
def metaPair (t : Words) (g r : Nat) : Nat × Nat × Bool :=
  let w := t.get (g / 16) r
  let h := g % 16
  (w.1 / 4 ^ h / 4 ^ h % 4, w.1 / 4 ^ h / 4 ^ h / 4 % 4, w.2)

/-- The dense scalar k′ of a row. -/
def FillSrc.dense (f : FillSrc) (k r : Nat) : Nat × Bool :=
  match f.metas with
  | none => f.scalar k r
  | some t =>
    let g := k / 4
    let (i0, i1, q) := metaPair t g r
    let x := if k % 4 = i0 then f.scalar (2 * g) r else if k % 4 = i1 then f.scalar (2 * g + 1) r else (0, false)
    (x.1, x.2 || q)

/-- The group of slab s of a row: 8 scalars from k′ on, as planes of p bits. For B tiles p is 16 (R409, R225). -/
def FillSrc.group8 (f : FillSrc) (p k r : Nat) : Group8 :=
  let xs := (List.range 8).map fun j => f.dense (k + j) r
  let q := xs.any (·.2)
  let w := elemBits f.ty
  if f.ty = .hn4x8 then ⟨false, 0, xs.map fun x => hn4C x.1, q⟩
  else if f.ty = .i8x4 ∨ f.ty = .i16x2 then
    ⟨false, 0, xs.map fun x => clampInt (-(2 ^ (p - 1) : Nat)) ((2 ^ (p - 1) : Nat) - 1) (toSigned w x.1), q⟩
  else alignA p (xs.map fun x => (fmtOf f.ty).widen x.1) q

/-- The FP32 scale of an HN4 block (R225): rne_f32(S × b ÷ 1,044,480). -/
def hn4Scale (b sc : Nat) : Nat :=
  let x := (xmul (FFmt.f32.widen sc) (XR.ofInt b)).1
  (roundTo .f32 .rne false false (xdiv x (XR.ofInt 1044480)).1).1

/-! ## The tile's words (R172) -/

/-- The scratchpad words that a fill of KIND 1 writes for slab s: offset in the region, word, poison. -/
def aWords (d : TileDesc) (s : Nat) (g : Nat → Group8) : List (Nat × Nat × Bool) :=
  let p := descP d
  let quad (i : Nat) (f : Group8 → Nat) : Nat × Bool :=
    (((List.range 4).foldl (fun v r => v + f (g (4 * i + r)) * 2 ^ (8 * r)) 0), (List.range 4).any fun r => (g (4 * i + r)).pois)
  let plane (j : Nat) (x : Group8) : Nat :=
    (List.range 8).foldl (fun v b => v + wrapW 16 (x.m.getD b 0) / 2 ^ j % 2 * 2 ^ b) 0
  ((List.range p).flatMap fun j => (List.range 8).map fun i => (descBase d + 32 * (p * s + j) + 4 * i, quad i (plane j)))
    ++ (List.range 8).map fun i => (descExp d + descStride d * s + 4 * i, quad i fun x => wrapW 8 x.e)

/-- The words of a KIND 2 tile for slab s; `sc` gives the scale of a column of an hn4x8 tile. -/
def bWords (d : TileDesc) (s : Nat) (g : Nat → Group8) (sc : Nat → Nat × Bool) : List (Nat × Nat × Bool) :=
  let ints := (List.range 8).flatMap fun b => (List.range 16).map fun i =>
    (descBase d + 64 * (8 * s + b) + 4 * i,
      wrapW 16 ((g (2 * i)).m.getD b 0) + 2 ^ 16 * wrapW 16 ((g (2 * i + 1)).m.getD b 0), (g (2 * i)).pois || (g (2 * i + 1)).pois)
  let exps := match expBytes d with
    | 32 => (List.range 8).map fun i => (descExp d + descStride d * s + 4 * i,
        (List.range 4).foldl (fun v r => v + wrapW 8 (g (4 * i + r)).e * 2 ^ (8 * r)) 0, (List.range 4).any fun r => (g (4 * i + r)).pois)
    | 128 => (List.range 32).map fun n => (descExp d + descStride d * s + 4 * n, (sc n).1, (sc n).2 || (g n).pois)
    | _ => []
  ints ++ exps

/-- The words of a KIND 3 tile: the row's consecutive words. -/
def plainWords (d : TileDesc) (size : Nat) (el : Nat → Nat → Nat × Bool) : List (Nat × Nat × Bool) :=
  (List.range (descRows d)).flatMap fun i => (List.range (descKs d)).map fun j =>
    let at0 := descBase d + descStride d * i + 4 * j
    if size = 8 then (at0, (el i (j / 2)).1 / 2 ^ (32 * (j % 2)) % 2 ^ 32, (el i (j / 2)).2)
    else if size = 2 then
      (at0, (el i (2 * j)).1 % 2 ^ 16 + 2 ^ 16 * (el i (2 * j + 1)).1, (el i (2 * j)).2 || (el i (2 * j + 1)).2)
    else (at0, (el i j).1, (el i j).2)

/-! ## The end of a fill or store (R411, R412) -/

/-- The receipt of an operation: core and core address, and whether it lies in its region. -/
def State.tileRcpt (s : State) (o : TileOp) : Nat × Nat × Bool :=
  let r := s.region o.col (!o.store && descWin o.desc)
  (coreOf o.col, r.1 + o.d.toNat, decide (o.d.toNat + 16 ≤ r.2))

/-- Ends an operation with the bytes it wrote, or was to write, and the code of its failure. -/
def State.endTile (s : State) (id : Nat) (o : TileOp) (bytes code : Nat) : State :=
  let s := s.setOp id none
  if o.rcpt then
    let (k, a, inside) := s.tileRcpt o
    let s := if inside then s.landSectors k a ((bytes + 31) / 32) else s
    if code = 0 then s else s.postEvent 6 o.col (code + at_ 3 4)
  else if o.treg = 0 then s
  else s.writeToken o.col o.treg id (if code = 0 then bytes else 2 ^ 63 + code)

/-- Origins (R408). -/
def TileOp.row0 (o : TileOp) : Nat := fld o.org.toNat 31 0
def TileOp.k0 (o : TileOp) : Nat := fld o.org.toNat 63 32

/-- Rows of surface dimension 1 that a tile covers. -/
def tileRowsOf (d : TileDesc) : Nat := if descKind d = 3 then descRows d else 32

/-- The first and last x0 of the words that the k′ of a tile lie in. -/
def wordSpan (d : TileDesc) (f : Surf) (k0 : Nat) : Nat × Nat :=
  let n := elemCount (tyOfCode f.ty)
  if descKind d = 3 then (k0 / n, k0 / n + 4 * descKs d / f.size - 1) else (k0 / n, (k0 + 8 * descKs d - 1) / n)

/-- Codes 2, 4, 8, 9 and 10 of R412. -/
def State.tileCode (s : State) (o : TileOp) (f : Surf) : Nat :=
  let d := o.desc
  if descTy d ≠ f.ty ∨ (descKind d = 3 ∧ 4 * descKs d % f.size ≠ 0) then 2
  else if o.rcpt && !(s.tileRcpt o).2.2 then 4
  else if o.s24 && descTy d == 12 then 8
  else if !o.store && ((descKind d == 2 && descTy d == 12 && o.k0 % 8 != 0) || (o.s24 && o.k0 % 64 != 0)) then 9
  else if o.store && descKind d == 2 && descTy d == 12 then 10
  else 0

/-! ## TFILL (R408 to R410) -/

/-- What a fill has read. -/
structure FillRead where
  s : State
  stop : Scan
  src : FillSrc

/-- Reads what a fill needs. -/
def State.fillRead (s : State) (ctx : Nat) (o : TileOp) (f : Surf) (mf : Option Surf) : FillRead :=
  let d := o.desc
  let ty := tyOfCode f.ty
  let n := elemCount ty
  let rows := tileRowsOf d
  let span := wordSpan d f o.k0
  let g0 := o.k0 / 4
  let g1 := (o.k0 + 8 * descKs d - 1) / 4
  let vs := if o.s24 then grid (2 * g0 / n) ((2 * g1 + 1) / n) o.row0 rows else grid span.1 span.2 o.row0 rows
  let (s, c1, vals) := s.gather ctx f.size (f.wordLoc o.col) vs
  let (s, c2, ms) := match mf with
    | some m => s.gather ctx 4 (m.wordLoc o.col) (grid (g0 / 16) (g1 / 16) o.row0 rows)
    | none => (s, .ok, [])
  let hn := descKind d == 2 && f.ty == 12
  let (s, c3, sb) := if hn then s.gather ctx 1 (f.scaleLoc o.col false) vs else (s, .ok, [])
  let (s, c4, ss) := if hn then s.gather ctx 4 (f.scaleLoc o.col true) vs else (s, .ok, [])
  let both (a b : Scan) : Scan := match a, b with
    | .fault c o k, _ => .fault c o k
    | _, .fault c o k => .fault c o k
    | .code m, .code n => .code (min m n)
    | .code m, .ok => .code m
    | .ok, b => b
  ⟨s, both c1 (both c2 (both c3 c4)), ⟨ty, vals, mf.map fun _ => ms, sb, ss⟩⟩

/-- Whether every metadata pair of a fill is in order. -/
def metasOk (o : TileOp) (t : Words) : Bool :=
  let g0 := o.k0 / 4
  let g1 := (o.k0 + 8 * descKs o.desc - 1) / 4
  (List.range (tileRowsOf o.desc)).all fun i => (List.range (g1 + 1 - g0)).all fun j =>
    let p := metaPair t (g0 + j) (o.row0 + i)
    decide (p.1 < p.2.1)

/-- The words a fill writes. -/
def fillWords (o : TileOp) (f : Surf) (src : FillSrc) : List (Nat × Nat × Bool) :=
  let d := o.desc
  match descKind d with
  | 1 => (List.range (descKs d)).flatMap fun s => aWords d s fun i => src.group8 (descP d) (o.k0 + 8 * s) (o.row0 + i)
  | 2 => (List.range (descKs d)).flatMap fun s => bWords d s (fun n =>
      -- an hn4x8 group is one word; outside the extents its elements are 0, which no code stands for
      if f.ty = 12 ∧ f.within ((o.k0 + 8 * s) / 8) (o.row0 + n) = false then ⟨false, 0, List.replicate 8 0, false⟩
      else src.group8 16 (o.k0 + 8 * s) (o.row0 + n)) fun n =>
      let x := ((o.k0 + 8 * s) / 8, o.row0 + n)
      if f.within x.1 x.2 then
        let b := src.scaleB.get x.1 x.2
        let sc := src.scaleS.get x.1 x.2
        (hn4Scale b.1 sc.1, b.2 || sc.2)
      else (0, false)
  | _ => plainWords d f.size fun i j => src.vals.get (o.k0 / elemCount src.ty + j) (o.row0 + i)

/-- The outcome of reading an operation's records: a fault, the surface, or a failure. -/
def State.fillSurf (s : State) (ctx : Nat) (o : TileOp) : State × SurfGot × Option SurfGot :=
  let (s, g) := s.readSurf ctx o.col o.surf.toNat
  if o.s24 then
    let (s, m) := s.readSurf ctx o.col o.metaA.toNat
    (s, g, some m)
  else (s, g, none)

/-- The clusters to which packets of an engine of a column go for some places (R53). -/
def creditKeys (col : Nat) (ls : List ELoc) : List Nat := (ls.filterMap (ELoc.credit col)).eraseDups

/-- Whether an engine's packets can go to some clusters: each has a credit for the core, and those of this module accept packets (R21, R53, R411). -/
def State.canReach (s : State) (core : Nat) (keys : List Nat) : Bool :=
  s.creditsInTurn core keys && keys.all fun k => k / 768 != Config.package.toNat || s.pw.runs (k % 768)

/-- The places that a fill reads: the words of its surface, which the scales lie beside, and its metadata words. -/
def fillLocs (o : TileOp) (f : Surf) (mf : Option Surf) : List ELoc :=
  let d := o.desc
  let n := elemCount (tyOfCode f.ty)
  let rows := tileRowsOf d
  let span := wordSpan d f o.k0
  let g0 := o.k0 / 4
  let g1 := (o.k0 + 8 * descKs d - 1) / 4
  (if o.s24 then grid (2 * g0 / n) ((2 * g1 + 1) / n) o.row0 rows else grid span.1 span.2 o.row0 rows).filterMap (f.wordLoc o.col)
    ++ match mf with
      | some m => (grid (g0 / 16) (g1 / 16) o.row0 rows).filterMap (m.wordLoc o.col)
      | none => []

/-- The surfaces of an operation, where their records have been read. -/
def SurfGot.surf (g : SurfGot) : Option Surf :=
  match g with
  | .ok r => some (surfOf r)
  | _ => none

/-- The places that a store writes: the words of its surface within the extents, in every copy. -/
def storeLocs (o : TileOp) (f : Surf) : List ELoc :=
  let span := wordSpan o.desc f o.k0
  ((grid span.1 span.2 o.row0 (tileRowsOf o.desc)).filter fun x => f.within x.1 x.2).flatMap fun x =>
    (f.writeAt [x.1, x.2, 0, 0]).map fun p => ELoc.mem p.1 p.2

/-- The clusters to which a fill's or store's packets go. -/
def State.tileKeys (s : State) (ctx : Nat) (o : TileOp) : List Nat :=
  let (_, g, m) := s.fillSurf ctx o
  match g.surf with
  | some f => creditKeys o.col (if o.store then storeLocs o f else fillLocs o f (m.bind SurfGot.surf))
  | none => []

/-- Performs a fill whose records are read. -/
def State.runFill (s : State) (id ctx : Nat) (o : TileOp) (f : Surf) (mf : Option Surf) : State :=
  let n := tileBytes o.desc
  match s.tileCode o f with
  | 0 =>
    if mf.any fun m => m.ty != 1 then s.endTile id o n 8
    else
      let r := s.fillRead ctx o f mf
      match r.stop with
      | .fault c a k => r.s.suspend id c a k
      | .code c => r.s.endTile id o n c
      | .ok =>
        if (r.src.metas.any fun t => !metasOk o t) then r.s.endTile id o n 8
        else
          let base := (s.region o.col (descWin o.desc)).1
          let t := (fillWords o f r.src).foldl (fun (s : State) w =>
            s.spadSet (coreOf o.col) (base + w.1) (BitVec.ofNat 32 w.2.1) w.2.2) r.s
          t.endTile id o n 0
  | c => s.endTile id o n c

/-- TFILL_COMPLETION. -/
def execTfillCompletion (op : Nat) (s : State) : Res :=
  match s.op op with
  | some ⟨sq, ctx, false, .tile o⟩ =>
    if o.store ∨ s.forkDone o.col o.lanes o.bound = false ∨ s.tasksRead (coreOf o.col) sq (s.tileSpans o.col o.desc)
        ∨ s.canReach (coreOf o.col) (s.tileKeys ctx o) = false then
      notNow "TFILL_COMPLETION"
    else
      let n := tileBytes o.desc
      match s.fillSurf ctx o with
      | (s, .fault c a, _) => .next (s.suspend op c a .read)
      | (s, _, some (.fault c a)) => .next (s.suspend op c a .read)
      | (s, .bad c _, _) => .next (s.endTile op o n c)
      | (s, .ok _, some (.bad c _)) => .next (s.endTile op o n (if c = 1 then 8 else c))
      | (s, .ok r, some (.ok m)) => .next (s.runFill op ctx o (surfOf r) (some (surfOf m)))
      | (s, .ok r, none) => .next (s.runFill op ctx o (surfOf r) none)
  | _ => notNow "TFILL_COMPLETION"

/-! ## TSTORE (R413) -/

/-- The integer at row i and k of an A or B tile, its group's exponent byte, and the poison of the words they lie in. -/
def State.tileInt (s : State) (col : Nat) (d : TileDesc) (i k : Nat) : Int × Nat × Bool :=
  let base := (s.region col (descWin d)).1
  let core := coreOf col
  let sl := k / 8
  let ex := if expBytes d = 32 then s.eSpadRead core (base + descExp d + descStride d * sl + i) 1 else ([], false)
  if descKind d = 1 then
    let p := descP d
    let bit (j : Nat) : Nat × Bool :=
      let r := s.eSpadRead core (base + descBase d + 32 * (p * sl + j) + i) 1
      (natOf r.1 / 2 ^ (k % 8) % 2, r.2)
    let v := (List.range p).foldl (fun v j => v + (bit j).1 * 2 ^ j) 0
    (toSigned p v, natOf ex.1, ex.2 || (List.range p).any fun j => (bit j).2)
  else
    let r := s.eSpadRead core (base + descBase d + 64 * k + 2 * i) 2
    (toSigned 16 (natOf r.1), natOf ex.1, ex.2 || r.2)

/-- The code of an element of an A or B tile in the tile's type (R413). -/
def State.tileElem (s : State) (col : Nat) (d : TileDesc) (i k : Nat) : Nat × Bool :=
  let ty := tyOfCode (descTy d)
  let (m, e, q) := s.tileInt col d i k
  if intTile (descTy d) then (wrapW (elemBits ty) m, q)
  else
    let f := fmtOf ty
    if e = 128 then (f.nan, q)
    else
      let p : Int := if descKind d = 1 then descP d else 16
      let sh := toSigned 8 e - (p - 1)
      let (a, b) := scale2 m.natAbs sh
      ((narrowFixed f false (.num (m < 0) a b)).1, q)

/-- The words a store writes: coordinates, and for each element of the word its code and poison, none where the tile does not hold it. -/
def State.storeWords (s : State) (o : TileOp) (f : Surf) : List ((Nat × Nat) × List (Option (Nat × Bool))) :=
  let d := o.desc
  let n := elemCount (tyOfCode f.ty)
  let span := wordSpan d f o.k0
  let base := (s.region o.col (descWin d)).1
  ((grid span.1 span.2 o.row0 (tileRowsOf d)).filter fun x => f.within x.1 x.2).map fun x =>
    let i := x.2 - o.row0
    if descKind d = 3 then
      let r := s.eSpadRead (coreOf o.col) (base + descBase d + descStride d * i + f.size * (x.1 - span.1)) f.size
      (x, [some (natOf r.1, r.2)])
    else
      (x, (List.range n).map fun j =>
        let k := x.1 * n + j
        if o.k0 ≤ k ∧ k < o.k0 + 8 * descKs d then some (s.tileElem o.col d i (k - o.k0)) else none)

/-- One word of a store at one place; a word that keeps elements is read first. -/
def State.storeWord (s : State) (ctx : Nat) (f : Surf) (l : ELoc) (els : List (Option (Nat × Bool))) :
    State × ELoc × List Byte × Bool :=
  let w := if els.length = 1 then 8 * f.size else elemBits (tyOfCode f.ty)
  let whole := els.all (·.isSome)
  let (s, old, oq) := if whole then (s, 0, false) else match s.eRead ctx l f.size with
    | (s, .ok (bs, q)) => (s, natOf bs, q)
    | (s, _) => (s, 0, false)
  let v := packElems w (fun j => match els.getD j none with
    | some x => x.1
    | none => elemAt w old j) els.length
  (s, l, bytesOf f.size v, oq || els.any fun e => e.any (·.2))

/-- The words of a store at their places. -/
def State.storeAll (s : State) (ctx : Nat) (f : Surf) (ws : List (ELoc × List (Option (Nat × Bool)))) : State :=
  let r := ws.foldl (fun (r : State × List (ELoc × List Byte × Bool)) w =>
    let (s, x) := r.1.storeWord ctx f w.1 w.2
    (s, r.2 ++ [x])) (s, [])
  r.1.eWriteAll ctx r.2

/-- The bytes that a store was to write (R412), with its surface record as read; where it could not be read the manual does not give their number: a free
value (DESIGN CHOICE, log entry 38). -/
def State.storeBytes (s : State) (o : TileOp) (r : Option Rec64) : State × Nat :=
  match r with
  | some r => (s, (surfOf r).size * (storeLocs o (surfOf r)).length)
  | none => ({ s with freeIx := s.freeIx + 1 }, 32 * ((Config.freeValue s.freeIx).toNat % 2 ^ 32))

/-- TSTORE_COMPLETION. -/
def execTstoreCompletion (op : Nat) (s : State) : Res :=
  match s.op op with
  | some ⟨_, ctx, false, .tile o⟩ =>
    if o.store = false ∨ s.forkDone o.col o.lanes o.bound = false ∨ s.canReach (coreOf o.col) (s.tileKeys ctx o) = false then
      notNow "TSTORE_COMPLETION"
    else
      let s := s.scrubSpad (coreOf o.col) o.col
      match s.readSurf ctx o.col o.surf.toNat with
      | (s, .fault c a) => .next (s.suspend op c a .read)
      | (s, .bad c r) =>
        let (s, n) := s.storeBytes o r
        .next (s.endTile op o n c)
      | (s, .ok r) =>
        let f := surfOf r
        let ws := (s.storeWords o f).map fun w => ((f.writeAt [w.1.1, w.1.2, 0, 0]).map fun p => ELoc.mem p.1 p.2, w.2)
        let bytes := f.size * (storeLocs o f).length
        match s.tileCode o f with
        | 0 =>
          let scan := ws.foldl (fun a w => w.1.foldl (fun a l =>
            let a := if w.2.all (·.isSome) then a else a.and (s.eCheck ctx l f.size .read) .read
            a.and (s.eCheck ctx l f.size .write) .write) a) Scan.ok
          match scan with
          | .fault c a k => .next (s.suspend op c a k)
          | .code c => .next (s.endTile op o bytes c)
          | .ok => .next ((s.storeAll ctx f (ws.flatMap fun w => w.1.map fun l => (l, w.2))).endTile op o bytes 0)
        | c => .next (s.endTile op o bytes c)
  | _ => notNow "TSTORE_COMPLETION"

/-! ## The words (R405, R411) -/

def fmtTile (store : Bool) (h : KHdr) (w : Full) : Fmt :=
  let s24 := !store && xb w 1
  { d := fS, a := fT, b := fS, c := fS, xs := if store then [xBit 0] else [xBit 0, xBit 1]
    more := if s24 then sBeyond h (opB w) 2 else none, extra := if s24 then sExtra (opB w) 2 else [] }

def Ctx.ptsTile (x : Ctx) (store : Bool) : List Pt :=
  let v (o : Opnd) (l : Nat) : DWord := BitVec.ofNat 64 (x.c.rd o true l)
  (if xb x.w 0 then [x.ptAddr x.w.d true (v x.w.d)] else []) ++ [x.ptAddr (opB x.w) true (v (opB x.w))]
    ++ (if !store && xb x.w 1 then (sExtra (opB x.w) 2).map fun o => x.ptAddr o true (v o) else [])
    ++ [x.ptAddr (opC x.w) true (v (opC x.w))]

/-- TFILL and TSTORE at issue: they execute once, and take a copy of the descriptor. -/
def Ctx.tileWord (x : Ctx) (store : Bool) : Eff :=
  let d := tabGet x.c.t (numOf x.w.a)
  let s24 := !store && xb x.w 1
  let rc := xb x.w 0
  let dv := x.c.rd x.w.d true 0
  if x.en = 0 then .go x.s none false
  else if !fillKind d || (s24 && descKind d == 3) then x.trap2 0 19
  else if rc && dv % 16 != 0 then x.trapRcpt 1 dv
  else
    let o : TileOp := ⟨x.col, store, d, rc, s24, BitVec.ofNat 64 (x.rb true 0),
      if s24 then x.c.rdS (numOf (opB x.w) + 1) else 0, BitVec.ofNat 64 (x.rc true 0), BitVec.ofNat 64 dv,
      if rc then 0 else numOf x.w.d, x.en, x.s.nextTag⟩
    let c := if o.treg = 0 then x.c else { x.c with tokens := x.c.tokens ++ [(o.treg, x.s.nextOp)] }
    .go ((x.s.newOp (x.s.ctxOf x.col) (.tile o)).setCol x.col c) none false

def execTfill (w : Full) (s : State) : Res := s.word w (fmtTile false) (fun x => x.ptsTile false) fun x => x.tileWord false
def execTstore (w : Full) (s : State) : Res := s.word w (fmtTile true) (fun x => x.ptsTile true) fun x => x.tileWord true

/-! ## Waking a cluster (R22) -/

/-- Whether the next packet of a copy, fill or store goes to a cluster. -/
def State.tellerFor (s : State) (cluster : Nat) : Bool :=
  s.ops.any fun e => match e.2 with
    | some ⟨_, _, false, .copy o⟩ => o.started && !o.multi && s.copyJoined o && (match copyAt o.slices o.pos with
      | some (sl, el) => (s.copyDst o sl el).credit sl.col == some (768 * Config.package.toNat + cluster)
      | none => false)
    | some ⟨_, ctx, false, .tile o⟩ =>
      s.forkDone o.col o.lanes o.bound && (s.tileKeys ctx o).contains (768 * Config.package.toNat + cluster)
    | _ => false

/-- A cluster at point 4 whose point is not changing (R22). -/
def Power.gated (w : Power) (cluster : Nat) : Bool := cluster < 768 && w.point cluster == 4 && !w.changing cluster

/-- A clock-gated cluster returns to the point it had (R22). -/
def State.wake (s : State) (cluster : Nat) : State :=
  { s with pw := { s.pw with target := tabSet s.pw.target cluster (some (tabGet s.pw.before cluster)) } }

/-- CLUSTER_WAKE (R22): a clock-gated cluster wakes for a packet addressed to it, or for a group that a core of it could take; the packet of
another module enters here and waits for the cluster. -/
def execClusterWake (cause : WakeCause) (s : State) : Res :=
  match cause with
  | .work cluster =>
    let due := s.packetFor cluster || s.tellerFor cluster || (match s.current with
      | some ctx => (List.range 6).any fun i => s.canTake ctx (6 * cluster + i)
      | none => false)
    if s.pw.gated cluster && due then .next (s.wake cluster) else notNow "CLUSTER_WAKE"
  | .packet p =>
    if s.pw.gated (pktCluster p) && s.foreign p && pktHere p && decide (pktDest p < nCols) then
      .next { s.wake (pktCluster p) with net := s.net ++ [p] }
    else notNow "CLUSTER_WAKE"

end Sys2Proof.Machine
end

