-- ==== Sys2Proof/Machine/Collective.lean ====
section
/-!
DEFINITION. CLCT and CSTAT (R425 to R433, R437): point-to-point transfers, group collectives by lanes and by record, and their completion.
-/

namespace Sys2Proof.Machine

/-! ## Handles (R426, R427) -/

def State.handle (s : State) (col h : Nat) : DWord := tabGet s.handles (handleKey col h)

/-- STATE of a handle. -/
def State.handleState (s : State) (col h : Nat) : Nat := fieldNat (s.handle col h) 2 0

def fmtCstat (_ : KHdr) (w : Full) : Fmt :=
  { d := fS, xs := [xBit 0], more := if immF w 23 4 ≠ 0 then some (0, 9) else none, r := false, i := true }

def execCstat (w : Full) (s : State) : Res :=
  s.word w fmtCstat noPts fun x =>
    if x.en = 0 then .go x.s none false
    else
      let h := immF w 3 0
      let v := x.s.handle x.col h
      let st := x.s.handleState x.col h
      let s := if xb w 0 && decide (2 ≤ st) && decide (st ≤ 4) then x.s.setHandle x.col h 0 else x.s
      Ctx.var { x with s := s } (wrOne w.d true false 0 v.toNat false, 0)

/-! ## Point to point (R428) -/

def clctKind (w : Full) : Nat := xf w 2 0
def clctHandle (w : Full) : Nat := xf w 6 3
def clctRop (w : Full) : Nat := xf w 9 7

/-- The types of sums and reductions. -/
def clctTys : List Ty := [.i32, .n32, .i64, .n64, .f32, .f64]

def fmtClctP2p (_ : KHdr) (w : Full) : Fmt :=
  { d := fVW, a := fV, b := fVW, tys := some (if clctKind w = 2 then clctTys else tyAny)
    xs := [xFld 0 3 (· ≤ 2), xFld 3 4 fun _ => true, xFld 7 3 fun _ => true]
    more := if clctRop w = 0 then none
      else if clctKind w ≠ 2 ∨ 6 ≤ clctRop w ∨ (3 ≤ clctRop w ∧ (w.ty = .f32 ∨ w.ty = .f64)) then some (0, 19) else some (0, 9) }

/-- D is a memory address; the peer's column and offset are operands at point 8. -/
def Ctx.ptsP2p (x : Ctx) : List Pt :=
  [x.ptAddr x.w.d true fun l => BitVec.ofNat 64 (x.rdd true l), x.pt x.w.a false 8, x.pt (opB x.w) true 8]

/-- A CLCT or REPART takes its handle. -/
def Ctx.takeHandle (x : Ctx) (h : Nat) : State := x.s.setHandle x.col h (statusWord 1 0 0 0)

def execClctP2p (w : Full) (s : State) : Res :=
  s.word w fmtClctP2p Ctx.ptsP2p fun x =>
    let h := clctHandle w
    let own (l : Nat) : DWord := BitVec.ofNat 64 (x.rdd true l)
    let off (l : Nat) : DWord := BitVec.ofNat 64 (x.rb true l)
    let size := elemSize w.ty
    let ap := x.bad fun l => decide (2 ≤ addrAp (off l).toNat)
    let al := x.bad fun l => (off l).toNat % size != 0
    if x.s.handleState x.col h ≠ 0 then x.trap2 0 16
    else if x.en = 0 then .go (x.s.setHandle x.col h (statusWord 2 0 0 0)) none false
    else
      match x.check183 own with
      | some e => e
      | none =>
        if x.bad (fun l => decide (nGlobal ≤ x.ra false l) || decide (2 ^ 36 ≤ x.rb true l)) ≠ 0 then x.trap2 0 18
        else if ap ≠ 0 then x.trapAt 8 ap off 5
        else
          match x.checkAlign own size with
          | some e => e
          | none =>
            if al ≠ 0 then x.trapAt 7 al off (Nat.log2 size)
            else
              let o : P2pOp := ⟨x.col, h, clctKind w, w.ty,
                (lanesOf x.en).map fun l => (l, x.rdd true l % 2 ^ 36, x.ra false l, x.rb true l), x.s.nextTag⟩
              .go ((x.takeHandle h).newOp (x.s.ctxOf x.col) (.p2p o)) none false

/-- What an atomic of n bytes meets: only aperture 0 of a page that is not tolerant serves it (R381). -/
def State.eCheckAtomic (s : State) (ctx : Nat) (l : ELoc) (n : Nat) : Acq Unit :=
  match l with
  | .spad _ _ => .ok ()
  | .mem g off =>
    if pkgOf g ≠ Config.package.toNat then s.eCheck ctx l n .atomic
    else
      match s.resolve ctx (g % nCols) (addrOff off) n (addrAp off == 1) .atomic with
      | .fault c o => .fault c o
      | .fail w => .fail w
      | .ok sp => if sp.raw || sp.page.tol != 0 then .fail whyProt else .ok ()

/-- What the two accesses of a lane meet. -/
def State.scanP2p (s : State) (ctx kind size : Nat) (own peer : ELoc) : Scan :=
  match kind with
  | 0 => (Scan.ok.and (s.eCheck ctx own size .read) .read).and (s.eCheck ctx peer size .write) .write
  | 1 => (Scan.ok.and (s.eCheck ctx peer size .read) .read).and (s.eCheck ctx own size .write) .write
  | _ => (Scan.ok.and (s.eCheck ctx own size .read) .read).and (s.eCheckAtomic ctx peer size) .atomic

/-- The value at a location whose access has been checked. -/
def State.eGet (s : State) (ctx : Nat) (l : ELoc) (n : Nat) : State × Nat × Bool :=
  match s.eRead ctx l n with
  | (s, .ok (bs, q)) => (s, natOf bs, q)
  | (s, _) => (s, 0, false)

def State.ePut (s : State) (ctx : Nat) (l : ELoc) (n v : Nat) (q : Bool) : State := s.eWriteAll ctx [(l, bytesOf n v, q)]

/-- Moves one lane's element. A sum into a poisoned line is discarded, with a memory error event. -/
def State.moveP2p (s : State) (ctx kind : Nat) (ty : Ty) (own peer : ELoc) : State :=
  let n := elemSize ty
  let (src, dst) := if kind = 1 then (peer, own) else (own, peer)
  let (s, v, q) := s.eGet ctx src n
  if kind = 2 then
    let (s, old, bad) := s.eGet ctx dst n
    if bad then match dst with
      | .mem g off => s.discardedUpdate (g % nCols) (mkAddr (g % nCols) off).toNat
      | .spad _ _ => s
    else s.ePut ctx dst n (atomNew (if ty = .f32 ∨ ty = .f64 then 9 else 0) ty old v) q
  else s.ePut ctx dst n v q

/-- The code of a failed access (R426). -/
def clctCode (why : Nat) : Nat := if why = failCode whyUnreach then 4 else 3

/-- The lower of two failures; 0 is none. -/
def worse (a b : Nat) : Nat := if a = 0 then b else if b = 0 then a else min a b

/-- Performs a transfer whose accesses meet no fault: packet by packet; a packet with a failing lane performs none of its lanes. -/
def State.runP2p (s : State) (ctx : Nat) (o : P2pOp) : State × Nat :=
  let n := elemSize o.ty
  let lane (l : Nat) : Nat × Nat × Nat × Nat := (o.lanes.find? (·.1 == l)).getD (l, 0, 0, 0)
  let own (l : Nat) : ELoc := .mem (globalOf o.col) (lane l).2.1
  let peer (l : Nat) : ELoc := .mem (lane l).2.2.1 (lane l).2.2.2
  let gs := groupLanes (fun l => (lane l).2.2.1 * 2 ^ 28 + (lane l).2.2.2 / 256) (o.lanes.map (·.1))
  gs.foldl (fun (r : State × Nat) g =>
    let scan := g.2.foldl (fun a l => match a, r.1.scanP2p ctx o.kind n (own l) (peer l) with
      | .ok, x => x
      | .code m, .code k => .code (min m k)
      | a, _ => a) Scan.ok
    match scan with
    | .ok => (g.2.foldl (fun s l => s.moveP2p ctx o.kind o.ty (own l) (peer l)) r.1, r.2)
    | .code m => (r.1, worse r.2 (clctCode m))
    | .fault _ _ _ => r) (s, 0)

/-- The first fault of a transfer. -/
def State.faultP2p (s : State) (ctx : Nat) (o : P2pOp) : Scan :=
  (o.lanes.findSome? fun (x : Nat × Nat × Nat × Nat) =>
    match s.scanP2p ctx o.kind (elemSize o.ty) (.mem (globalOf o.col) x.2.1) (.mem x.2.2.1 x.2.2.2) with
    | .fault c a k => some (Scan.fault c a k)
    | _ => none).getD .ok

/-- Ends an operation with STATE 2, or STATE 4 and a code, at some members. -/
def State.endHandles (s : State) (ms : List (Nat × Nat)) (code : Nat) : State :=
  ms.foldl (fun s m => s.setHandle m.1 m.2 (if code = 0 then statusWord 2 0 0 0 else statusWord 4 code 0 0)) s

/-! ## Group collectives: the words (R429, R430, R432) -/

def fmtClctGroup (_ : KHdr) (w : Full) : Fmt :=
  { d := fS, a := fV, b := fS, c := fS, tys := some clctTys
    xs := [xFld 0 3 fun k => 3 ≤ k && k ≤ 6, xFld 3 4 fun _ => true, xFld 7 3 fun _ => true]
    more := if ropOk (clctKind w) (clctRop w) w.ty then none else some (0, 19) }

/-- D and B are memory addresses; the members and C are operands at point 8. -/
def Ctx.ptsGroup (x : Ctx) : List Pt :=
  [x.ptAddr x.w.d true fun l => BitVec.ofNat 64 (x.rdd true l), x.pt x.w.a false 8,
   x.ptAddr (opB x.w) true fun l => BitVec.ofNat 64 (x.rb true l), x.pt (opC x.w) true 8]

/-- The operation that a column's next word of a kind joins: the one `f` selects that it has not joined. -/
def State.findClct (s : State) (ctx : Nat) (f : ClctOp → Bool) : Option (Nat × ClctOp) :=
  s.ops.findSome? fun e => match e.2 with
    | some ⟨_, c, _, .clct o⟩ => if c = ctx ∧ f o then some (e.1, o) else none
    | _ => none

/-- A member's word joins `o`, or the operation it makes. -/
def State.joinClct (s : State) (ctx : Nat) (old : Option (Nat × ClctOp)) (new : ClctOp) (m : ClctMem) : State :=
  match old with
  | some (id, o) => match s.op id with
    | some e => s.setOp id (some { e with body := .clct { o with mems := o.mems ++ [m] } })
    | none => s
  | none => s.newOp ctx (.clct { new with mems := [m] })

/-- The count of a column's group collectives over a list. -/
def State.clctCount (s : State) (key : Nat) (ms : List Nat) : Nat :=
  match s.clctCnt.find? fun e => e.1 == key && e.2.1 == ms with
  | some e => e.2.2
  | none => 0

def State.countClct (s : State) (key : Nat) (ms : List Nat) : State :=
  { s with clctCnt := (s.clctCnt.filter fun e => !(e.1 == key && e.2.1 == ms)) ++ [(key, ms, s.clctCount key ms + 1)] }

/-- Which buffers a member uses (R430). -/
def usesSrc (kind : Nat) (root : Bool) : Bool := kind != 4 || root
def usesDst (kind : Nat) (root same : Bool) : Bool := kind == 3 || (if kind = 4 then !root || !same else root)

/-- The checks of the members and of C, B and D in the order of R429 and R430. -/
def Ctx.groupCheck (x : Ctx) (ms : List Nat) : Option Eff :=
  let w := x.w
  let size := elemSize w.ty
  let kind := clctKind w
  let d (_ : Nat) : DWord := BitVec.ofNat 64 (x.rdd true 0)
  let b (_ : Nat) : DWord := BitVec.ofNat 64 (x.rb true 0)
  let c := x.rc true 0
  let rank := ms.findIdx (· == globalOf x.col)
  let root := decide (fld c 47 32 = rank)
  let same := x.rdd true 0 % 2 ^ 36 == x.rb true 0 % 2 ^ 36
  let src := usesSrc kind root
  let dst := usesDst kind root same
  firstOf [
    if ms.contains (globalOf x.col) && ms.eraseDups.length == ms.length then none else some (x.trap2 0 17),
    if ms.any fun g => decide (nGlobal ≤ g) then some (x.trap2 0 18) else none,
    if src then x.check183 d else none,
    if dst then x.check183 b else none,
    if src then x.checkAlign d size else none,
    if dst then x.checkAlign b size else none,
    if c / 2 ^ 48 ≠ 0 ∨ ms.length ≤ fld c 47 32 ∨ (kind = 3 ∧ fld c 47 32 ≠ 0) then some (x.trap2 0 21) else none,
    if buffersClash kind ms.length root (x.rdd true 0 % 2 ^ 36) (x.rb true 0 % 2 ^ 36) (fld c 31 0 * size) then some (x.trap2 0 20) else none]

def execClctGroup (w : Full) (s : State) : Res :=
  s.word w fmtClctGroup Ctx.ptsGroup fun x =>
    let h := clctHandle w
    if x.en = 0 then .go x.s none false
    else if x.s.handleState x.col h ≠ 0 then x.trap2 0 16
    else
      let ms := (lanesOf x.en).map fun l => x.ra false l
      match x.groupCheck ms with
      | some e => e
      | none =>
        let ctx := x.s.ctxOf x.col
        let key := ctx * nCols + x.col
        let n := x.s.clctCount key ms
        let m : ClctMem := ⟨x.col, h, clctKind w, clctRop w, w.ty, x.rdd true 0 % 2 ^ 36, x.rb true 0 % 2 ^ 36,
          fld (x.rc true 0) 31 0, fld (x.rc true 0) 47 32, x.en, x.s.nextTag⟩
        let old := x.s.findClct ctx fun o => o.tag.isNone && o.members == ms && o.n == n
        .go (((x.takeHandle h).countClct key ms).joinClct ctx old ⟨ms, n, none, []⟩ m) none false

def fmtClctRec (_ : KHdr) (w : Full) : Fmt :=
  { c := fS, xs := [xFld 0 3 (· == 7), xFld 3 4 fun _ => true, xFld 7 3 fun _ => true]
    more := if clctRop w = 0 then none else if 6 ≤ clctRop w then some (0, 19) else some (0, 9) }

/-- The word of a member of a submitted record. A second word of a column with one TAG waits for the next record of that TAG. -/
def execClctRec (w : Full) (s : State) : Res :=
  s.word w fmtClctRec (fun x => [x.pt (opC x.w) true 8]) fun x =>
    let h := clctHandle w
    if x.en = 0 then .go x.s none false
    else if x.s.handleState x.col h ≠ 0 then x.trap2 0 16
    else if 2 ^ 32 ≤ x.rc true 0 then x.trap2 0 21
    else
      let ctx := x.s.ctxOf x.col
      let tag := some (ctx, BitVec.ofNat 32 (x.rc true 0))
      let m : ClctMem := { (default : ClctMem) with col := x.col, handle := h, lanes := x.en, bound := x.s.nextTag }
      let n := (x.s.ops.filter fun e => match e.2 with
        | some ⟨_, _, _, .clct o⟩ => o.tag == tag && o.mems.any (·.col == x.col)
        | _ => false).length
      let old := x.s.findClct ctx fun o => o.tag == tag && o.n == n
      .go ((x.takeHandle h).joinClct ctx old ⟨[], n, tag, []⟩ m) none false

/-! ## Records (R97, R99, R432) -/

/-- Whether the record at the head of the collective port starts: its trigger, if any, has fired, its context is current, it was accepted before any
queued abort of that context (R467), and the clearers hold fewer than 64 of its context. -/
def State.collReady (s : State) : Bool :=
  match s.sch.collq with
  | [] => false
  | c :: _ =>
    s.current == some c.ctx && s.schedules && s.sch.aborts.all (fun a => a.1 != c.ctx || decide (c.num < a.2.2)) && (recTrig c.record == 0 || s.sch.collTrig == .fired)
      && decide ((s.sch.collRun.filter (·.ctx == c.ctx)).length < 64)
      && match s.sch.firedOrder.find? (·.1 == c.ctx) with
        | none => true
        | some x => x.2 == 64

/-- Starts the records at the head of the collective port, at most `fuel`. -/
def State.startColls (s : State) : Nat → State
  | 0 => s
  | fuel + 1 =>
    match s.sch.collq with
    | [] => s
    | c :: rest =>
      if s.collReady then
        (({ s with sch.collq := rest, sch.collTrig := .idle, sch.collRun := s.sch.collRun ++ [c],
                   sch.firedOrder := s.sch.firedOrder.erase (c.ctx, 64) }).arm c.ctx 64).startColls fuel
      else s

/-- Every collective record that can start has started. -/
def State.startColl (s : State) : State := s.startColls s.sch.collq.length

/-- The members of a record. -/
def ClctRec.members (r : ClctRec) : List Nat := (List.range r.nmem).map fun i => r.bcol + i * r.cstr

/-- The started record of an operation's TAG, when the operation is the oldest with that TAG. -/
def State.recordOf (s : State) (o : ClctOp) : Option ClctRec :=
  match o.tag with
  | none => none
  | some (ctx, tag) =>
    if (s.findClct ctx fun p => p.tag == o.tag && decide (p.n < o.n)).isSome then none
    else (s.sch.collRun.find? fun r => r.ctx == ctx && recTag r.record == tag.toNat).map fun r => clctRecOf r.record

/-! ## Trees (R230, R231) -/

/-- The right child's distance: halved while it lies beyond N. -/
def treeRight (N u : Nat) : Nat → Option Nat
  | 0 => none
  | d + 1 =>
    -- d + 1 is the exponent's successor: the distance is 2 ^ d
    if u + 2 ^ d ≤ N then some (u + 2 ^ d) else treeRight N u d

/-- The children of node u of T0 (1-based). -/
def treeKids (N u : Nat) : Option Nat × Option Nat :=
  match ctzW 13 u with
  | 0 => (none, none)
  | h + 1 => (some (u - 2 ^ h), treeRight N u (h + 1))

/-- The rank that plays a node's role in T0 or T1, and whether children are mirrored. -/
def treeRank (t1 : Bool) (N u : Nat) : Nat := if !t1 then u - 1 else if N % 2 = 0 then N - u else u % N

/-- The partial result of a node: combine(combine(own, left), right). -/
def treeVal {α : Type} (t1 : Bool) (N : Nat) (own : Nat → α) (comb : α → α → α) : Nat → Nat → α
  | 0, u => own (treeRank t1 N u)
  | fuel + 1, u =>
    let kids := treeKids N u
    let (l, r) := if t1 && N % 2 == 0 then (kids.2, kids.1) else kids
    let x := own (treeRank t1 N u)
    let x := match l with
      | some v => comb x (treeVal t1 N own comb fuel v)
      | none => x
    match r with
    | some v => comb x (treeVal t1 N own comb fuel v)
    | none => x

/-- The value that a tree's root reduces. -/
def treeRoot {α : Type} (t1 : Bool) (N : Nat) (own : Nat → α) (comb : α → α → α) : α :=
  treeVal t1 N own comb 13 (2 ^ Nat.log2 N)

/-- Two contributions combined: the value, and the OR of their poison. -/
def combPois (op : Nat) (t : Ty) (a b : Nat × Bool) : Nat × Bool := ((combine op t a.1 b.1).1, a.2 || b.2)

/-- A NaN in canonical form (R430, for N = 1). -/
def canonNan (t : Ty) (v : Nat) : Nat :=
  if t = .f32 ∨ t = .f64 then match (fmtOf t).widen v with
    | .nan => (fmtOf t).nan
    | _ => v
  else v

/-- Element i of E, reduced over N members. -/
def reduceElem (op : Nat) (t : Ty) (N E i : Nat) (own : Nat → Nat × Bool) : Nat × Bool :=
  if N = 1 then (canonNan t (own 0).1, (own 0).2) else treeRoot (decide ((E + 1) / 2 ≤ i)) N own (combPois op t)

/-! ## Group collectives: the operation (R430) -/

/-- The member at a global column, if it has joined. -/
def ClctOp.mem? (o : ClctOp) (g : Nat) : Option ClctMem := o.mems.find? fun m => globalOf m.col == g

/-- The number that the other modules know an operation by. -/
def ClctOp.key (o : ClctOp) : Nat := match o.tag with
  | some t => t.2.toNat
  | none => o.n

/-- Whether every member has joined; a member of another module joins as the outside has it (log entry 67). -/
def ClctOp.joinedAll (o : ClctOp) (tick : Nat) : Bool :=
  o.members.all fun g => if pkgOf g = Config.package.toNat then (o.mem? g).isSome else Config.foreignJoined tick g o.key

/-- Whether the words of the other modules' members agree with those of this module; a record's always do. -/
def ClctOp.foreignAgree (o : ClctOp) (tick : Nat) : Bool :=
  o.tag.isSome || o.members.all fun g => pkgOf g == Config.package.toNat || Config.foreignAgrees tick g o.key

/-- Whether a member's module cannot be reached (R50). -/
def State.lostMember (s : State) (ms : List Nat) : Bool :=
  ms.any fun g => pkgOf g != Config.package.toNat && decide (s.routePorts (pkgOf g) = [])

/-- One buffer of a member: its column, offset with aperture, elements. -/
structure ClctBuf where
  g : Nat
  off : Nat
  n : Nat
  deriving DecidableEq, Repr, Inhabited

def ClctBuf.loc (b : ClctBuf) (size i : Nat) : ELoc := .mem b.g (b.off + size * i)

/-- The source and destination of the member of rank r for an operation whose words agree with `m`, empty where it does not use them. Where another
module's buffers lie is told by a record, and else is free (log entry 67). -/
def ClctOp.bufs (o : ClctOp) (tick : Nat) (m : ClctMem) (r : Nat) : ClctBuf × ClctBuf :=
  let g := o.members.getD r 0
  let isRoot := r == m.root
  let (src, dst) := match o.mem? g with
    | some p => (p.src, p.dst)
    | none => if o.tag.isSome then (m.src, m.dst) else (Config.foreignBuf tick g 0, Config.foreignBuf tick g 1)
  (⟨g, src, if usesSrc m.kind isRoot then m.count else 0⟩,
   ⟨g, dst, if usesDst m.kind isRoot (src == dst) then (if m.kind = 6 then o.members.length * m.count else m.count) else 0⟩)

/-- What the accesses of a buffer meet; one that passes the end of its aperture fails. -/
def State.scanBuf (s : State) (ctx size : Nat) (b : ClctBuf) (acc : Acc) (a : Scan) : Scan :=
  if pkgOf b.g ≠ Config.package.toNat then a
  else if b.n ≠ 0 ∧ 2 ^ 34 < addrOff b.off + size * b.n then a.and (.fail whyProt) acc
  else (List.range b.n).foldl (fun a i => a.and (s.eCheck ctx (b.loc size i) size acc) acc) a

/-- Reads a buffer's elements. -/
def State.readBuf (s : State) (ctx size : Nat) (b : ClctBuf) : State × List (Nat × Bool) :=
  (List.range b.n).foldl (fun (r : State × List (Nat × Bool)) i =>
    let (s, v, q) := r.1.eGet ctx (b.loc size i) size
    (s, r.2 ++ [(v, q)])) (s, [])

/-- Writes a buffer's elements, as one store. -/
def State.writeBuf (s : State) (ctx size : Nat) (b : ClctBuf) (f : Nat → Nat × Bool) : State :=
  s.eWriteAll ctx ((List.range b.n).map fun i => (b.loc size i, bytesOf size (f i).1, (f i).2))

/-- Carries out a collective whose accesses meet neither fault nor failure: every source is read before any result is written. -/
def State.runClct (s : State) (ctx : Nat) (o : ClctOp) (m : ClctMem) : State :=
  let N := o.members.length
  let size := elemSize m.ty
  let ranks := List.range N
  let (s, srcs) := ranks.foldl (fun (r : State × List (List (Nat × Bool))) k =>
    let (s, vs) := r.1.readBuf ctx size (o.bufs s.tick m k).1
    (s, r.2 ++ [vs])) (s, [])
  let val (r i : Nat) : Nat × Bool := (srcs.getD r []).getD i (0, false)
  let out (i : Nat) : Nat × Bool :=
    match m.kind with
    | 4 => val m.root i
    | 6 => val (i / m.count) (i % m.count)
    | _ => reduceElem m.rop m.ty N m.count i fun r => val r i
  ranks.foldl (fun s r => s.writeBuf ctx size (o.bufs s.tick m r).2 out) s

/-- Ends a collective at every member that has joined. -/
def State.endClct (s : State) (id : Nat) (o : ClctOp) (code : Nat) : State :=
  (((s.endHandles (o.mems.map fun m => (m.col, m.handle)) code).setOp id none).endRec o).startColl

/-- Whether two members' words agree. -/
def ClctMem.sameAs (a b : ClctMem) : Bool :=
  a.kind == b.kind && a.rop == b.rop && a.ty == b.ty && a.count == b.count && a.root == b.root

/-- A member's word of a record's collective, with what the record says. -/
def ClctRec.fill (r : ClctRec) (m : ClctMem) : ClctMem :=
  { m with kind := r.kind, rop := r.rop, ty := r.ty, src := r.src, dst := r.dst, count := r.count, root := r.root }

/-- A collective that all its members have joined: differing words, overlapping buffers of a record, then its accesses. -/
def State.tryClct (s : State) (id ctx : Nat) (o : ClctOp) : State :=
  match o.mems with
  | [] => s
  | m :: _ =>
    let size := elemSize m.ty
    let N := o.members.length
    let clash (p : ClctMem) : Bool :=
      buffersClash p.kind N (o.members.getD p.root nGlobal == globalOf p.col) p.src p.dst (p.count * size)
    if (o.mems.any fun p => !p.sameAs m) || !o.foreignAgree s.tick then s.endClct id o 1
    else if o.mems.any clash then s.endClct id o 2
    else
      let scan := (List.range N).foldl (fun a r =>
        let b := o.bufs s.tick m r
        s.scanBuf ctx size b.2 .write (s.scanBuf ctx size b.1 .read a)) Scan.ok
      match scan with
      | .fault c a k => s.suspend id c a k
      | .code n => s.endClct id o (clctCode n)
      | .ok => (s.runClct ctx o m).endClct id o 0

/-- COLLECTIVE_COMPLETION (R428 to R433): a transfer or a collective is carried out and ends. A member that a record does not name ends
at once, and a collective with a member that cannot be reached ends at those that have joined. -/
def execCollectiveCompletion (op : Nat) (s : State) : Res :=
  match s.op op with
  | some ⟨_, ctx, false, .p2p o⟩ =>
    if !s.forkDone o.col (maskOf (o.lanes.map (·.1))) o.bound then notNow "COLLECTIVE_COMPLETION"
    else
      match s.faultP2p ctx o with
      | .fault c a k => .next (s.suspend op c a k)
      | _ =>
        let r := s.runP2p ctx o
        .next ((r.1.endHandles [(o.col, o.handle)] r.2).setOp op none)
  | some ⟨sq, ctx, false, .clct o⟩ =>
    let known : Option ClctOp := match o.tag with
      | none => some o
      | some _ => (s.recordOf o).map fun r => { o with members := r.members, mems := o.mems.map r.fill }
    match known with
    | none => notNow "COLLECTIVE_COMPLETION"
    | some o =>
      let strays := o.mems.filter fun m => !o.members.contains (globalOf m.col)
      if strays ≠ [] then
        let rest := o.mems.filter fun m => o.members.contains (globalOf m.col)
        let s := s.endHandles (strays.map fun m => (m.col, m.handle)) 6
        .next (s.setOp op (if rest = [] then none else some ⟨sq, ctx, false, .clct { o with mems := rest }⟩))
      else if s.lostMember o.members then .next (s.endClct op o 4)
      else if o.joinedAll s.tick && o.mems.all fun m => s.forkDone m.col m.lanes m.bound then .next (s.tryClct op ctx o)
      else notNow "COLLECTIVE_COMPLETION"
  | _ => notNow "COLLECTIVE_COMPLETION"

end Sys2Proof.Machine
end

