-- ==== Sys2Proof/Machine/Trans.lean ====
section
/-!
DEFINITION. The correctly rounded transcendentals of R339. The exact value of a function is enclosed between two rationals, at growing
precision, until both round alike; where it is rational (the exact cases of R339) it is computed exactly. By the theorems of
Gelfond and Schneider, Lindemann, and Niven every other value is irrational, so every other result is inexact and some
precision decides it.
-/

namespace Sys2Proof.Machine

/-- An enclosure in fixed point: the value lies from lo ÷ 2^P to hi ÷ 2^P. -/
abbrev Iv := Nat × Nat

def ivRatio (P n d : Nat) : Iv := (n * 2 ^ P / d, n * 2 ^ P / d + 1)
def ivMul (P : Nat) (a b : Iv) : Iv := (a.1 * b.1 / 2 ^ P, a.2 * b.2 / 2 ^ P + 1)
def ivDivN (a : Iv) (n : Nat) : Iv := (a.1 / n, a.2 / n + 1)
def ivDiv (P : Nat) (a b : Iv) : Iv := (a.1 * 2 ^ P / b.2, a.2 * 2 ^ P / b.1 + 1)
def ivAdd (a b : Iv) : Iv := (a.1 + b.1, a.2 + b.2)
def ivSub (a b : Iv) : Iv := (a.1 - b.2, a.2 - b.1)

/-- The exponential series from term k on, for 0 ≤ x ≤ 1. -/
def expSeries (P : Nat) (x : Iv) : Nat → Nat → Iv → Iv → Iv
  | 0, _, t, s => (s.1, s.2 + 2 * t.2 + 2)
  | n + 1, k, t, s =>
    if t.2 ≤ 1 then (s.1, s.2 + 4)
    else expSeries P x n (k + 1) (ivDivN (ivMul P t x) (k + 1)) (ivAdd s t)

def expIv (P : Nat) (x : Iv) : Iv := expSeries P x P 0 (2 ^ P, 2 ^ P) (0, 0)

/-- The series Σ z^(2k+1) ÷ (2k+1) for z ≤ 1/3, from power p = z^(2k+1) on. -/
def atanhSeries (P : Nat) (z2 : Iv) : Nat → Nat → Iv → Iv → Iv
  | 0, _, p, s => (s.1, s.2 + 2 * p.2 + 2)
  | n + 1, k, p, s =>
    if p.2 ≤ 1 then (s.1, s.2 + 4)
    else atanhSeries P z2 n (k + 1) (ivMul P p z2) (ivAdd s (ivDivN p (2 * k + 1)))

/-- ln((1 + z) ÷ (1 − z)) for z ≤ 1/3. -/
def lnIv (P : Nat) (z : Iv) : Iv :=
  let s := atanhSeries P (ivMul P z z) P 0 z (0, 0)
  (2 * s.1, 2 * s.2)

def ln2Iv (P : Nat) : Iv := lnIv P (ivRatio P 1 3)

/-- The alternating series of arctan(1 ÷ n): the sums of its positive and negative terms. -/
def atanSeries (n2 : Nat) : Nat → Nat → Iv → Iv → Iv → Iv
  | 0, _, p, a, b => ((ivSub a b).1 - p.2, (ivSub a b).2 + p.2)
  | m + 1, k, p, a, b =>
    if p.2 ≤ 1 then ((ivSub a b).1 - 4, (ivSub a b).2 + 4)
    else
      let t := ivDivN p (2 * k + 1)
      if k % 2 = 0 then atanSeries n2 m (k + 1) (ivDivN p n2) (ivAdd a t) b
      else atanSeries n2 m (k + 1) (ivDivN p n2) a (ivAdd b t)

/-- π, by Machin's formula. -/
def piIv (P : Nat) : Iv :=
  let at1 (n : Nat) : Iv := atanSeries (n * n) P 0 (ivRatio P 1 n) (0, 0) (0, 0)
  let a := at1 5
  let b := at1 239
  ivSub (16 * a.1, 16 * a.2) (4 * b.1, 4 * b.2)

/-- The alternating series of sine and cosine from term k on; `c` is 1 for cosine, 0 for sine. -/
def trigSeries (P c : Nat) (y2 : Iv) : Nat → Nat → Iv → Iv → Iv → Iv
  | 0, _, t, a, b => ((ivSub a b).1 - t.2, (ivSub a b).2 + t.2)
  | m + 1, k, t, a, b =>
    if t.2 ≤ 1 then ((ivSub a b).1 - 4, (ivSub a b).2 + 4)
    else
      let t' := ivDivN (ivMul P t y2) ((2 * k + 2 - c) * (2 * k + 3 - c))
      if k % 2 = 0 then trigSeries P c y2 m (k + 1) t' (ivAdd a t) b else trigSeries P c y2 m (k + 1) t' a (ivAdd b t)

def sinIv (P : Nat) (y : Iv) : Iv := trigSeries P 0 (ivMul P y y) P 0 y (0, 0) (0, 0)
def cosIv (P : Nat) (y : Iv) : Iv := trigSeries P 1 (ivMul P y y) P 0 (2 ^ P, 2 ^ P) (0, 0) (0, 0)

/-- A magnitude enclosed between lo ÷ d and hi ÷ e. -/
structure Enc where
  lo : Nat
  d : Nat
  hi : Nat
  e : Nat
  deriving DecidableEq, Repr, Inhabited

def encOf (P : Nat) (v : Iv) : Enc := ⟨v.1, 2 ^ P, v.2, 2 ^ P⟩

/-- Rounds both ends: the result if they agree, the first end's result with `false` otherwise. -/
def roundEnc (f : FFmt) (m : RMode) (ftz neg : Bool) (v : Enc) : Bool × Nat × FpFlags :=
  let r := roundTo f m false ftz (.num neg v.lo v.d)
  let q := roundTo f m false ftz (.num neg v.hi v.e)
  let fl := r.2 ||| fInexact
  (v.lo != 0 && r.1 == q.1 && fl == q.2 ||| fInexact, r.1, fl)

/-- Whether a precision of the list decides the result, and the result at the first that does, or at the last. -/
def decideEnc (f : FFmt) (m : RMode) (ftz neg : Bool) (enc : Nat → Enc) : List Nat → Bool × Nat × FpFlags
  | [] => (false, 0, 0)
  | P :: Ps =>
    let r := roundEnc f m ftz neg (enc P)
    if r.1 || Ps.isEmpty then r else decideEnc f m ftz neg enc Ps

/-- The precisions tried, in bits. -/
def precisions : List Nat := [160, 320, 640, 1280, 2560]

/-- 2^(n ÷ d) for a quotient that is no integer, with sign: 2^i × 2^f with 0 < f < 1. -/
def exp2Enc (neg : Bool) (n d P : Nat) : Enc :=
  let i : Int := if neg then -((n / d : Nat) : Int) - 1 else (n / d : Nat)
  let fr := if neg then d - n % d else n % d
  let v := expIv P (ivMul P (ivRatio P fr d) (ln2Iv P))
  match clampScale i with
  | .ofNat k => ⟨v.1 * 2 ^ k, 2 ^ P, v.2 * 2 ^ k, 2 ^ P⟩
  | .negSucc k => ⟨v.1, 2 ^ (P + k + 1), v.2, 2 ^ (P + k + 1)⟩

/-- |log2(n ÷ d)| for a quotient that is no power of two: e + log2(m), 1 < m < 2. -/
def log2Enc (n d P : Nat) : Enc :=
  let e := ilog2 n d
  let (p, q) := unscale n d e
  let v := ivDiv P (lnIv P (ivRatio P (p - q) (p + q))) (ln2Iv P)
  match e with
  | .ofNat k => encOf P (v.1 + k * 2 ^ P, v.2 + k * 2 ^ P)
  | .negSucc k => encOf P ((k + 1) * 2 ^ P - v.2, (k + 1) * 2 ^ P - v.1)

/-- sin(πr) for 0 < r = n ÷ d ≤ 1/4: below 2^-200 by πr(1 − 2r²) < sin(πr) < πr. -/
def sinPiEnc (n d P : Nat) : Enc :=
  let pi := piIv P
  if n * 2 ^ 200 < d then
    ⟨pi.1 * n * (d * d - 2 * n * n), 2 ^ P * d * d * d, pi.2 * n, 2 ^ P * d⟩
  else encOf P (sinIv P (ivMul P (ivRatio P n d) pi))

/-- cos(πr) for 0 < r = n ÷ d ≤ 1/4: below 2^-200 by 1 − 5r² < cos(πr) < 1 − 4r². -/
def cosPiEnc (n d P : Nat) : Enc :=
  if n * 2 ^ 200 < d then ⟨d * d - 5 * n * n, d * d, d * d - 4 * n * n, d * d⟩
  else encOf P (cosIv P (ivMul P (ivRatio P n d) (piIv P)))

/-- tanh(n ÷ d) for a positive quotient: below 2^-200 by a − a³/3 < tanh a < a − a³/6; above 700, near enough to 1; by
(1 − t) ÷ (1 + t) with t = 2^(−2a ÷ ln 2) between. -/
def tanhEnc (n d P : Nat) : Enc :=
  if n * 2 ^ 200 < d then
    ⟨n * (3 * d * d - n * n), 3 * d * d * d, n * (6 * d * d - n * n), 6 * d * d * d⟩
  else if 700 * d ≤ n then ⟨2 ^ 1000 - 1, 2 ^ 1000, 2 ^ 4000 - 1, 2 ^ 4000⟩
  else
    let y := ivDiv P (ivRatio P (2 * n) d) (ln2Iv P)
    let i := y.1 / 2 ^ P
    let fr : Iv := (y.1 - i * 2 ^ P, y.2 - i * 2 ^ P)
    let g := expIv P (ivMul P fr (ln2Iv P))
    let t : Iv := (2 ^ (2 * P) / g.2 / 2 ^ i, 2 ^ (2 * P) / g.1 / 2 ^ i + 2)
    encOf P ((2 ^ P - t.2) * 2 ^ P / (2 ^ P + t.2), (2 ^ P - t.1) * 2 ^ P / (2 ^ P + t.1) + 1)

/-- The functions of R339 that need enclosures. -/
inductive TFn where
  | exp2 | log2 | sin | cos | tanh
  deriving DecidableEq, Repr

/-- sin(πr) or cos(πr) for 0 < r = n ÷ d < 1/2, with the sign of the result. -/
def octant (f : FFmt) (m : RMode) (ftz neg isSin : Bool) (n d : Nat) : Bool × Nat × FpFlags :=
  if 4 * n ≤ d then decideEnc f m ftz neg (if isSin then sinPiEnc n d else cosPiEnc n d) precisions
  else
    -- the complement 1/2 − r
    decideEnc f m ftz neg (if isSin then cosPiEnc (d - 2 * n) (2 * d) else sinPiEnc (d - 2 * n) (2 * d)) precisions

/-- The function of a finite nonzero operand (R339), and whether the precisions tried decide it. -/
def transNum (fn : TFn) (f : FFmt) (m : RMode) (ftz neg : Bool) (n d : Nat) : Bool × Nat × FpFlags :=
  let exact (x : XR) : Bool × Nat × FpFlags := (true, roundTo f m false ftz x)
  match fn with
  | .exp2 =>
    if n % d = 0 then
      match clampScale (if neg then -((n / d : Nat) : Int) else (n / d : Nat)) with
      | .ofNat k => exact (.num false (2 ^ k) 1)
      | .negSucc k => exact (.num false 1 (2 ^ (k + 1)))
    else decideEnc f m ftz false (exp2Enc neg n d) precisions
  | .log2 =>
    if neg then (true, f.nan, fInvalid)
    else
      let e := ilog2 n d
      let (p, q) := unscale n d e
      if p = q then exact (if e = 0 then .num false 0 1 else XR.ofInt e)
      else decideEnc f m ftz (e < 0) (log2Enc n d) precisions
  | .sin =>
    let r := n % (2 * d)
    if r % d = 0 then exact (.num neg 0 1)
    else
      let sg := neg != decide (d < r)
      let r := r % d
      if 2 * r = d then exact (.num sg 1 1)
      else octant f m ftz sg true (if d < 2 * r then d - r else r) d
  | .cos =>
    let r := n % (2 * d)
    let r := if d < r then 2 * d - r else r
    if r = 0 then exact (.num false 1 1)
    else if r = d then exact (.num true 1 1)
    else if 2 * r = d then exact (.num false 0 1)
    else octant f m ftz (decide (d < 2 * r)) false (if d < 2 * r then d - r else r) d
  | .tanh => decideEnc f m ftz neg (tanhEnc n d) precisions

/-- FEXP2, FLOG2, FSIN, FCOS and FTANH of a code, with the special operands of R339. -/
def transcend (fn : TFn) (f : FFmt) (m : RMode) (ftz : Bool) (ca : Nat) : Nat × FpFlags :=
  let a := f.read ftz ca
  let one (neg : Bool) : Nat × FpFlags := roundTo f m false ftz (.num neg 1 1)
  let inf (neg : Bool) : Nat := f.signBit neg + f.infCode
  match a.x with
  | .nan => (f.nan, snanFlag [a])
  | .inf neg =>
    match fn with
    | .exp2 => (if neg then 0 else inf false, 0)
    | .log2 => if neg then (f.nan, fInvalid) else (inf false, 0)
    | .sin => (f.nan, fInvalid)
    | .cos => (f.nan, fInvalid)
    | .tanh => one neg
  | .num neg n d =>
    if n = 0 then
      match fn with
      | .exp2 => one false
      | .log2 => (inf true, fDivZero)
      | .sin => (f.signBit neg, 0)
      | .cos => one false
      | .tanh => (f.signBit neg, 0)
    else (transNum fn f m ftz neg n d).2

end Sys2Proof.Machine
end

