-- ==== Sys2Proof/Machine/Float.lean ====
section
/-!
DEFINITION. Floating-point words: the float mould, division and roots, minima and maxima, transcendentals, rounding, scaling and taking
apart, comparison and classes (R334 to R344).
-/

namespace Sys2Proof.Machine

/-- The type sets of R336. -/
def tyFA : List Ty := [.f32, .f64, .f16, .bf16x2, .f16x2]
def tyFS : List Ty := [.f32, .f64, .f16]

/-- The modifiers of the float mould that a word lists: rounding, .ftz, .sat (R335). -/
def xsF (rnd ftz sat : Bool) : List (Nat × Nat × (Nat → Bool)) :=
  [xFld 0 2 fun c => rnd || c == 0, xFld 2 1 fun c => ftz || c == 0, xFld 3 1 fun c => sat || c == 0]

/-- The rounding, .ftz and .sat that a word carries. -/
def rndOf (w : Full) : RMode := rmode (xf w 1 0)
def ftzOf (w : Full) : Bool := xb w 2
def satOf (w : Full) : Bool := xb w 3

/-- A float word of one, two or three sources; `i` when it has an I form, which only f32 and f64 take. -/
def fmtF1 (tys : List Ty) (xs : List (Nat × Nat × (Nat → Bool))) (_ : KHdr) (w : Full) : Fmt :=
  let wd := isWide w.ty
  { d := fVS.w wd, a := (fSrc w).w wd, tys := some tys, xs := xs, xAlways := true }
def fmtF2 (tys : List Ty) (i : Bool) (xs : List (Nat × Nat × (Nat → Bool))) (_ : KHdr) (w : Full) : Fmt :=
  let wd := isWide w.ty
  { d := fVS.w wd, a := (fSrc w).w wd, b := (fSrc w).w wd, tys := some tys, xs := xs,
    i := i && (w.ty == .f32 || w.ty == .f64), xAlways := true }
def fmtF3 (tys : List Ty) (xs : List (Nat × Nat × (Nat → Bool))) (_ : KHdr) (w : Full) : Fmt :=
  let wd := isWide w.ty
  { d := fVS.w wd, a := (fSrc w).w wd, b := (fSrc w).w wd, c := (fSrc w).w wd, tys := some tys, xs := xs, xAlways := true }

/-- B, or IMM24 converted exactly (R335). -/
def Ctx.rbf (x : Ctx) (l : Nat) : Nat :=
  if isImm x.w then intCode (fmtOf x.w.ty) (immS x.w) else x.rb (isWide x.w.ty) l

/-- The results of a function of each element of the sources (R211, R272). -/
def Ctx.fl1 (x : Ctx) (f : FFmt → Nat → Nat × FpFlags) : List RWrite × FpFlags :=
  let t := x.w.ty
  let wd := isWide t
  let ew := elemBits t
  x.map x.w.d wd false fun l =>
    let a := x.ra wd l
    let r := packFlags ew (fun j => f (fmtOf t) (elemAt ew a j)) (elemCount t)
    (r.1, x.qa wd l, r.2)

def Ctx.fl2 (x : Ctx) (f : FFmt → Nat → Nat → Nat × FpFlags) : List RWrite × FpFlags :=
  let t := x.w.ty
  let wd := isWide t
  let ew := elemBits t
  x.map x.w.d wd false fun l =>
    let a := x.ra wd l
    let b := x.rbf l
    let r := packFlags ew (fun j => f (fmtOf t) (elemAt ew a j) (elemAt ew b j)) (elemCount t)
    (r.1, x.qa wd l || x.qb wd l, r.2)

def Ctx.fl3 (x : Ctx) (f : FFmt → Nat → Nat → Nat → Nat × FpFlags) : List RWrite × FpFlags :=
  let t := x.w.ty
  let wd := isWide t
  let ew := elemBits t
  x.map x.w.d wd false fun l =>
    let a := x.ra wd l
    let b := x.rb wd l
    let c := x.rc wd l
    let r := packFlags ew (fun j => f (fmtOf t) (elemAt ew a j) (elemAt ew b j) (elemAt ew c j)) (elemCount t)
    (r.1, x.qa wd l || x.qb wd l || x.qc wd l, r.2)

/-! ## Arithmetic (R337, R338) -/

def execFadd (w : Full) (s : State) : Res :=
  s.word w (fmtF2 tyFA true (xsF true true true)) noPts fun x => x.fixed (x.fl2 fun f => fadd f (rndOf w) (ftzOf w) (satOf w))

def execFsub (w : Full) (s : State) : Res :=
  s.word w (fmtF2 tyFA true (xsF true true true)) noPts fun x => x.fixed (x.fl2 fun f => fsub f (rndOf w) (ftzOf w) (satOf w))

def execFmul (w : Full) (s : State) : Res :=
  s.word w (fmtF2 tyFA true (xsF true true true)) noPts fun x => x.fixed (x.fl2 fun f => fmul f (rndOf w) (ftzOf w) (satOf w))

def execFfma (w : Full) (s : State) : Res :=
  s.word w (fmtF3 tyFA (xsF true true true)) noPts fun x => x.fixed (x.fl3 fun f => ffma f (rndOf w) (ftzOf w) (satOf w))

def execFmin (w : Full) (s : State) : Res :=
  s.word w (fmtF2 tyFA true (xsF false true false)) noPts fun x => x.fixed (x.fl2 fun f => fminmax f false (ftzOf w))

def execFmax (w : Full) (s : State) : Res :=
  s.word w (fmtF2 tyFA true (xsF false true false)) noPts fun x => x.fixed (x.fl2 fun f => fminmax f true (ftzOf w))

def execFamax (w : Full) (s : State) : Res :=
  s.word w (fmtF2 tyFA true (xsF false true false)) noPts fun x => x.fixed (x.fl2 fun f => famax f (ftzOf w))

def execFdiv (w : Full) (s : State) : Res :=
  s.word w (fmtF2 [.f32, .f64] false (xsF true true true)) noPts fun x =>
    x.var (x.fl2 fun f => fdiv f (rndOf w) (ftzOf w) (satOf w))

def execFsqrt (w : Full) (s : State) : Res :=
  s.word w (fmtF1 [.f32, .f64] (xsF true true false)) noPts fun x => x.var (x.fl1 fun f => fsqrt f (rndOf w) (ftzOf w))

/-! ## Transcendentals (R339) -/

/-- A transcendental word. -/
def State.trans (s : State) (w : Full) (f : FFmt → RMode → Bool → Nat → Nat × FpFlags) : Res :=
  s.word w (fmtF1 tyFA (xsF true true false)) noPts fun x => x.fixed (x.fl1 fun t => f t (rndOf w) (ftzOf w))

def execFrcp (w : Full) (s : State) : Res := s.trans w frcp
def execFrsq (w : Full) (s : State) : Res := s.trans w frsq
def execFexp2 (w : Full) (s : State) : Res := s.trans w (transcend .exp2)
def execFlog2 (w : Full) (s : State) : Res := s.trans w (transcend .log2)
def execFsin (w : Full) (s : State) : Res := s.trans w (transcend .sin)
def execFcos (w : Full) (s : State) : Res := s.trans w (transcend .cos)
def execFtanh (w : Full) (s : State) : Res := s.trans w (transcend .tanh)

/-! ## Rounding, scaling, taking apart (R340 to R342) -/

def fmtFrnd (_ : KHdr) (w : Full) : Fmt :=
  { fmtF1 tyFA (xBit 4 :: xsF true true false) {} w with more := if xb w 4 && xf w 1 0 ≠ 0 then some (0, 22) else none }

def execFrnd (w : Full) (s : State) : Res :=
  s.word w fmtFrnd noPts fun x => x.fixed (x.fl1 fun f => frnd f (if xb w 4 then .rna else rndOf w) (ftzOf w))

/-- b is one 32-bit register for every type. -/
def fmtFscl (_ : KHdr) (w : Full) : Fmt :=
  let wd := isWide w.ty
  { d := fVS.w wd, a := (fSrc w).w wd, b := fSrc w, tys := some tyFA, xs := xsF true true true, i := true }

def execFscl (w : Full) (s : State) : Res :=
  s.word w fmtFscl noPts fun x =>
    let t := x.w.ty
    let wd := isWide t
    let ew := elemBits t
    x.fixed (x.map x.w.d wd false fun l =>
      let n := if isImm w then immS w else toSigned 32 (x.rb false l)
      let r := packFlags ew (fun j => fscl (fmtOf t) (rndOf w) (ftzOf w) (satOf w) (elemAt ew (x.ra wd l) j) n) (elemCount t)
      (r.1, x.qa wd l || x.qb false l, r.2))

def fmtFfrx (_ : KHdr) (w : Full) : Fmt :=
  let wd := isWide w.ty
  { d := fVS.w (wd && !xb w 0), a := (fSrc w).w wd, tys := some tyFS, xs := [xFld 0 2 (· < 2), xBit 2, xFld 3 1 (· == 0)], xAlways := true }

def execFfrx (w : Full) (s : State) : Res :=
  s.word w fmtFfrx noPts fun x =>
    let wd := isWide x.w.ty
    let f := fmtOf x.w.ty
    if xb w 0 then
      x.fixed (x.map x.w.d false true fun l =>
        let r := ffrxExp f (ftzOf w) (elemAt f.width (x.ra wd l) 0)
        (wrapW 32 r.1, x.qa wd l, r.2))
    else x.fixed (x.fl1 fun f => ffrxMan f (ftzOf w))

/-! ## Comparison and classification (R343, R344) -/

def fmtFcmp (_ : KHdr) (w : Full) : Fmt :=
  let wd := isWide w.ty
  { d := fPd, a := fAny.w wd, b := fAny.w wd, tys := some tyFS,
    xs := xsF false true false ++ if isImm w then [] else [xFld 4 3 (fun c => 1 ≤ c && c ≤ 6), xBit 7], xAlways := true }

def execFcmp (w : Full) (s : State) : Res :=
  s.word w fmtFcmp noPts fun x =>
    let wd := isWide x.w.ty
    let f := fmtOf x.w.ty
    x.fixed (x.map x.w.d false false fun l =>
      let r := fcmp f (ftzOf w) (xb w 7) (xf w 6 4) (elemAt f.width (x.ra wd l) 0) (elemAt f.width (x.rb wd l) 0)
      (if r.1 then 1 else 0, x.qa wd l || x.qb wd l, r.2))

def fmtFclass (_ : KHdr) (w : Full) : Fmt :=
  { d := fPd, a := fAny.w (isWide w.ty), tys := some tyFS, xs := xsF false false false, r := false, i := true, xAlways := true,
    more := if immF w 23 10 ≠ 0 then some (0, 20) else none }

def execFclass (w : Full) (s : State) : Res :=
  s.word w fmtFclass noPts fun x =>
    let wd := isWide x.w.ty
    let f := fmtOf x.w.ty
    x.fixed (x.map x.w.d false false fun l =>
      (immF w 9 0 / 2 ^ fclassBit f (elemAt f.width (x.ra wd l) 0) % 2, x.qa wd l, 0))

end Sys2Proof.Machine
end

