-- ==== Sys2Proof/Machine/Convert.lean ====
section
/-!
DEFINITION. Conversions between float formats, integers and packed narrow formats, the two-element dot product and the HN4 decode (R345
to R350).
-/

namespace Sys2Proof.Machine

/-! ## Integers and floats (R345) -/

def fmtF2i (_ : KHdr) (w : Full) : Fmt :=
  { d := fVS.w (wideCode (xf w 7 4)), a := (fSrc w).w (isWide w.ty), tys := some tyFS, xs := xFld 4 4 (fun _ => true) :: xsF true true false, xAlways := true,
    more := if 8 ≤ xf w 7 4 then some (0, 18) else none }

def execF2i (w : Full) (s : State) : Res :=
  s.word w fmtF2i noPts fun x =>
    let wd := isWide x.w.ty
    let f := fmtOf x.w.ty
    let it := xf w 7 4
    let (iw, sg) := intCodeOf it
    x.fixed (x.map x.w.d (wideCode it) sg fun l =>
      let r := toInt iw sg (rndOf w) (f.read (ftzOf w) (elemAt f.width (x.ra wd l) 0)).x
      (holdInt it r.1, x.qa wd l, r.2))

def fmtI2f (_ : KHdr) (w : Full) : Fmt :=
  { d := fVS.w (isWide w.ty), a := (fSrc w).w (wideCode (xf w 7 4)), tys := some tyFS,
    xs := xFld 4 4 (fun _ => true) :: xsF true false false, xAlways := true, more := if 8 ≤ xf w 7 4 then some (0, 18) else none }

def execI2f (w : Full) (s : State) : Res :=
  s.word w fmtI2f noPts fun x =>
    let it := xf w 7 4
    let (iw, sg) := intCodeOf it
    x.fixed (x.map x.w.d (isWide x.w.ty) false fun l =>
      let r := roundTo (fmtOf x.w.ty) (rndOf w) false false (XR.ofInt (readInt iw sg (x.ra (wideCode it) l)))
      (r.1, x.qa (wideCode it) l, r.2))

/-! ## FCVT (R346) -/

/-- The format of a code of FCVT. -/
def cvtFmt : Nat → FFmt
  | 0 => .f32 | 1 => .f64 | 2 => .f16 | 3 => .bf16 | 4 => .e4m3 | _ => .e5m2

def isVec : Opnd → Bool
  | .v _ => true
  | _ => false

/-- The rules on .ef. -/
def efBad (w : Full) : Bool :=
  xb w 4 && (xf w 10 8 ≠ 0 || xf w 7 5 < 2 || xb w 3 || !isVec w.d || !isVec (opB w) || w.d == opB w)

def fmtFcvt (_ : KHdr) (w : Full) : Fmt :=
  { d := fVS.w (xf w 7 5 == 1), a := (fSrc w).w (xf w 10 8 == 1), b := if xb w 4 then { ks := [.v, .s, .lane, .col] } else fNo,
    xs := [xFld 0 3 (· == 0), xBit 3, xBit 4, xFld 5 3 (fun _ => true), xFld 8 3 (fun _ => true)], xAlways := true,
    more := if 6 ≤ xf w 10 8 ∨ 6 ≤ xf w 7 5 then some (0, 16) else if efBad w then some (0, 17) else none }

/-- One lane of FCVT without .ef: the narrowed code and its flags. -/
def fcvtOne (st dt : FFmt) (sat : Bool) (a : Nat) : Nat × FpFlags :=
  let r := narrowFixed dt sat (st.widen a)
  (r.1, r.2 ||| if st.isSNan a then fInvalid else 0)

def execFcvt (w : Full) (s : State) : Res :=
  s.word w fmtFcvt noPts fun x =>
    let st := cvtFmt (xf w 10 8)
    let dt := cvtFmt (xf w 7 5)
    let sw := xf w 10 8 == 1
    if xb w 4 then
      let r := (lanesOf x.en).foldl (fun (acc : List RWrite × FpFlags) l =>
        let (q, res, fl) := narrowEf dt (x.ra false l) (x.rb false l)
        let p := x.qa false l || x.qb false l
        (acc.1 ++ wrOne x.w.d false false l q p ++ wrOne (opB w) false false l res p, acc.2 ||| fl)) ([], 0)
      x.fixed r
    else
      x.fixed (x.map x.w.d (xf w 7 5 == 1) false fun l =>
        let r := fcvtOne st dt (xb w 3) (elemAt st.width (x.ra sw l) 0)
        (r.1, x.qa sw l, r.2))

/-! ## Packing and unpacking (R347, R348) -/

def tyPack : List Ty := [.bf16x2, .f16x2, .e4m3x4, .e5m2x4]

def fmtFpack (_ : KHdr) (w : Full) : Fmt :=
  { d := fVS, a := fSrc w, b := fSrc w, tys := some tyPack, xs := [xFld 0 2 (· < 2), xFld 2 1 (· == 0), xBit 3], xAlways := true,
    more := if xb w 0 && elemCount w.ty = 2 then some (0, 19) else none }

def execFpack (w : Full) (s : State) : Res :=
  s.word w fmtFpack noPts fun x =>
    let ew := elemBits x.w.ty
    let j := 2 * xf w 0 0
    x.fixed (x.map x.w.d false false fun l =>
      let old := x.rdd false l
      let a := fcvtOne .f32 (fmtOf x.w.ty) (xb w 3) (x.ra false l)
      let b := fcvtOne .f32 (fmtOf x.w.ty) (xb w 3) (x.rb false l)
      (packElems ew (fun i => if i = j then a.1 else if i = j + 1 then b.1 else elemAt ew old i) (elemCount x.w.ty),
        x.qd false l || x.qa false l || x.qb false l, a.2 ||| b.2))

def fmtFunpk (_ : KHdr) (w : Full) : Fmt :=
  { d := fVS, a := fSrc w, tys := some tyPack, xs := [xFld 0 3 (fun _ => true), xFld 3 1 (· == 0)], xAlways := true,
    more := if elemCount w.ty ≤ xf w 2 0 then some (0, 19) else none }

def execFunpk (w : Full) (s : State) : Res :=
  s.word w fmtFunpk noPts fun x =>
    let ew := elemBits x.w.ty
    x.fixed (x.map x.w.d false false fun l =>
      let r := fcvtOne (fmtOf x.w.ty) .f32 false (elemAt ew (x.ra false l) (xf w 2 0))
      (r.1, x.qa false l, r.2))

/-! ## Dot product and HN4 (R349, R350) -/

def fmtFdot2 (_ : KHdr) (w : Full) : Fmt :=
  { d := fVS, a := fSrc w, b := fSrc w, c := fSrc w, tys := some [.bf16x2, .f16x2], xs := xsF true true true, xAlways := true }

def execFdot2 (w : Full) (s : State) : Res :=
  s.word w fmtFdot2 noPts fun x =>
    x.fixed (x.map x.w.d false false fun l =>
      let a := x.ra false l
      let b := x.rb false l
      let r := fdot2 (fmtOf x.w.ty) (rndOf w) (ftzOf w) (satOf w) (elemAt 16 a 0) (elemAt 16 a 1) (elemAt 16 b 0) (elemAt 16 b 1)
        (x.rc false l)
      (r.1, x.qa false l || x.qb false l || x.qc false l, r.2))

def fmtHndec (_ : KHdr) (w : Full) : Fmt :=
  { d := fVS, a := fSrc w, b := fSrc w, c := fSrc w, tys := some [.hn4x8], xs := [xFld 0 3 (fun _ => true), xFld 3 1 (· == 0)], xAlways := true }

def execHndec (w : Full) (s : State) : Res :=
  s.word w fmtHndec noPts fun x =>
    x.fixed (x.map x.w.d false false fun l =>
      let r := hn4Value (elemAt 4 (x.ra false l) (xf w 2 0)) (x.rb false l % 256) (x.rc false l)
      (r.1, x.qa false l || x.qb false l || x.qc false l, r.2))

end Sys2Proof.Machine
end

