-- ==== Sys2Proof/Machine/Halves.lean ====
section
/-!
DEFINITION. Pair words (R262 to R265): both halves read, then both write. Each constructor of half X has its meaning here; half Y is
the one the word holds.
-/

namespace Sys2Proof.Machine

/-- imm8 extended under HT (R263). -/
def halfImm (ht n : Nat) : Nat :=
  match ht with
  | 0 => wrapW 32 (toSigned 8 n)
  | 1 => n
  | 2 => (roundTo .f32 .rne false false (FFmt.e4m3.widen n)).1
  | _ =>
    let b := (roundTo .bf16 .rne false false (FFmt.e4m3.widen n)).1
    b + 2 ^ 16 * b

/-- An integer half: the exact value, then HS or a wrap. -/
def halfInt (hop ht : Nat) (hs : Bool) (d a : Nat) : Nat :=
  let sg := ht == 0
  let x := readInt 32 sg d
  let y := readInt 32 sg a
  match hop with
  | 0x01 => fitW hs 32 sg (x + y)
  | 0x02 => fitW hs 32 sg (x - y)
  | 0x03 => d &&& a
  | 0x04 => d ||| a
  | 0x05 => d ^^^ a
  | 0x06 => d &&& notW 32 a
  | 0x07 => if 32 ≤ a then 0 else d * 2 ^ a % 2 ^ 32
  | 0x08 => if 32 ≤ a then 0 else d / 2 ^ a
  | 0x09 => sarW 32 d a
  | 0x0A => wrapW 32 (min x y)
  | 0x0B => wrapW 32 (max x y)
  | 0x14 => popcount 32 a
  | 0x15 => clzW 32 a
  | 0x16 => fitW hs 32 sg (x * y)
  | _ => a

/-- A float half on one element. -/
def halfFp (hop : Nat) (f : FFmt) (hs : Bool) (d a : Nat) : Nat × FpFlags :=
  match hop with
  | 0x0E => fadd f .rne false hs d a
  | 0x0F => fsub f .rne false hs d a
  | 0x10 => fmul f .rne false hs d a
  | 0x11 => fminmax f false false d a
  | 0x12 => fminmax f true false d a
  | _ => famax f false d a

/-- d op a for one lane: the result and its flags. -/
def halfVal (hop ht : Nat) (hs : Bool) (d a : Nat) : Nat × FpFlags :=
  if 0x0E ≤ hop ∧ hop ≤ 0x13 then
    if ht = 2 then halfFp hop .f32 hs d a
    else packFlags 16 (fun j => halfFp hop .bf16 hs (elemAt 16 d j) (elemAt 16 a j)) 2
  else (halfInt hop ht hs d a, 0)

/-- The writes and flags of a half. -/
def Column.half (c : Column) (m : Mask) (hop : Nat) (h : HalfArgs) : List RWrite × FpFlags :=
  if hop = 0 then ([], 0)
  else
    (lanesOf (m &&& c.guard h.hg.toNat h.hn)).foldl (fun (acc : List RWrite × FpFlags) l =>
      let d := (c.rdV h.hd.toNat l).toNat
      let a := if h.hi then halfImm h.ht.toNat h.ha.toNat else (c.rdV h.ha.toNat l).toNat
      let q := c.rdVp h.hd.toNat l || (!h.hi && c.rdVp h.ha.toNat l)
      let (v, fl) := halfVal hop h.ht.toNat h.hs d a
      (acc.1 ++ [RWrite.vec h.hd.toNat l (BitVec.ofNat 32 v) q], acc.2 ||| fl)) ([], 0)

/-- The registers of a half in the order guard, HD, HA. -/
def halfRegs (hop : Nat) (h : HalfArgs) : List (Nat × PReg) :=
  if hop = 0 then []
  else (0xC0 + h.hg.toNat, .p h.hg.toNat) :: (halfReads hop h).map fun n => (n, .v n)

/-- A half's guard is at point 2 of R112. -/
def Ctx.ptHalf (x : Ctx) (hop : Nat) (h : HalfArgs) : Pt :=
  ⟨0xC0 + h.hg.toNat, if hop = 0 then 0 else x.sp.mask &&& x.c.rdPp h.hg.toNat, 2, fun _ => 0⟩

/-- Checks 3, 4 and 6 to 8, then both halves. -/
def Ctx.pairEff (x : Ctx) (hopX : Nat) (hx : HalfArgs) (hopY : Nat) (hy : HalfArgs) : Eff :=
  match checkPair x.h.nv hopX hx hopY hy with
  | some (code, info) => x.trap code x.sp.mask 0 info
  | none =>
    match firstPending x.sp.pend (halfRegs hopX hx ++ halfRegs hopY hy) with
    | some spec => x.trap 4 x.sp.mask 0 (256 * spec)
    | none =>
      match x.contain [x.ptHalf hopX hx, x.ptHalf hopY hy] with
      | some e => e
      | none =>
        let a := x.c.half x.sp.mask hopX hx
        let b := x.c.half x.sp.mask hopY hy
        x.fixed (a.1 ++ b.1, a.2 ||| b.2)

/-- A word that stands for a pair word in the context of its execution: no field of it is read. -/
def pairWord (marker : Bool) : Full := ⟨marker, 0, false, .v 0, .v 0, .i32, .reg (.v 0) (.v 0) false 0⟩

/-- Executes a pair word in the split that is issuing. -/
def State.pair (s : State) (marker : Bool) (hopX : Nat) (hx : HalfArgs) (y : Half) : Res :=
  match s.run with
  | none => .fault .noSplit
  | some (col, k) =>
    let x := s.ctxFor col k (pairWord marker)
    .next (s.perform col k marker (x.pairEff hopX hx y.hop.toNat y.args))

def execHnop (marker : Bool) (x : HalfArgs) (y : Half) (s : State) : Res := s.pair marker 0x00 x y
def execHalfIadd (marker : Bool) (x : HalfArgs) (y : Half) (s : State) : Res := s.pair marker 0x01 x y
def execHalfIsub (marker : Bool) (x : HalfArgs) (y : Half) (s : State) : Res := s.pair marker 0x02 x y
def execHalfAnd (marker : Bool) (x : HalfArgs) (y : Half) (s : State) : Res := s.pair marker 0x03 x y
def execHalfOr (marker : Bool) (x : HalfArgs) (y : Half) (s : State) : Res := s.pair marker 0x04 x y
def execHalfXor (marker : Bool) (x : HalfArgs) (y : Half) (s : State) : Res := s.pair marker 0x05 x y
def execHalfAndn (marker : Bool) (x : HalfArgs) (y : Half) (s : State) : Res := s.pair marker 0x06 x y
def execHalfShl (marker : Bool) (x : HalfArgs) (y : Half) (s : State) : Res := s.pair marker 0x07 x y
def execHalfShr (marker : Bool) (x : HalfArgs) (y : Half) (s : State) : Res := s.pair marker 0x08 x y
def execHalfSar (marker : Bool) (x : HalfArgs) (y : Half) (s : State) : Res := s.pair marker 0x09 x y
def execHalfImin (marker : Bool) (x : HalfArgs) (y : Half) (s : State) : Res := s.pair marker 0x0A x y
def execHalfImax (marker : Bool) (x : HalfArgs) (y : Half) (s : State) : Res := s.pair marker 0x0B x y
def execHalfMov (marker : Bool) (x : HalfArgs) (y : Half) (s : State) : Res := s.pair marker 0x0C x y
def execHalfMovi (marker : Bool) (x : HalfArgs) (y : Half) (s : State) : Res := s.pair marker 0x0D x y
def execHalfFadd (marker : Bool) (x : HalfArgs) (y : Half) (s : State) : Res := s.pair marker 0x0E x y
def execHalfFsub (marker : Bool) (x : HalfArgs) (y : Half) (s : State) : Res := s.pair marker 0x0F x y
def execHalfFmul (marker : Bool) (x : HalfArgs) (y : Half) (s : State) : Res := s.pair marker 0x10 x y
def execHalfFmin (marker : Bool) (x : HalfArgs) (y : Half) (s : State) : Res := s.pair marker 0x11 x y
def execHalfFmax (marker : Bool) (x : HalfArgs) (y : Half) (s : State) : Res := s.pair marker 0x12 x y
def execHalfFamax (marker : Bool) (x : HalfArgs) (y : Half) (s : State) : Res := s.pair marker 0x13 x y
def execHalfPopc (marker : Bool) (x : HalfArgs) (y : Half) (s : State) : Res := s.pair marker 0x14 x y
def execHalfClz (marker : Bool) (x : HalfArgs) (y : Half) (s : State) : Res := s.pair marker 0x15 x y
def execHalfImul (marker : Bool) (x : HalfArgs) (y : Half) (s : State) : Res := s.pair marker 0x16 x y

end Sys2Proof.Machine
end

