-- ==== Sys2Proof/Machine/Mint.lean ====
section
/-!
DEFINITION. Mint tasks and accumulators (R176, R177, R227, R228, R414 to R423).
-/

namespace Sys2Proof.Machine

/-! ## Accumulators -/

/-- The key of element (i, n) of accumulator a of a core's group. -/
def accKey (group core a i n : Nat) : Nat := (group * 4608 + core) * 2 ^ 13 + a * 1024 + 32 * i + n

def State.accGet (s : State) (group core a i n : Nat) : Word × Bool :=
  let k := accKey group core a i n
  (tabGet s.acc k, tabGet s.accP k)

def State.accSet (s : State) (group core a i n : Nat) (v : Word) (q : Bool) : State :=
  let k := accKey group core a i n
  { s with acc := tabSet s.acc k v, accP := tabSet s.accP k q }

/-- The element numbers of an accumulator: (row, column). -/
def accElems : List (Nat × Nat) := lanes32.flatMap fun i => lanes32.map fun n => (i, n)

/-! ## The queue (R414, R417) -/

/-- Entries of the task window: tasks that have not left it. -/
def State.windowLen (s : State) (core : Nat) : Nat :=
  ((tabGet s.mintq core).filter fun m => match m.act with
    | .task _ _ _ _ _ _ _ _ _ _ _ => true
    | _ => false).length

/-- Grants an operation at the mint queue port; its number is its place in the order of all engine operations. -/
def State.grantOp (s : State) (m : MintOp) : State :=
  { s with mintq := tabMod s.mintq (coreOf m.col) (· ++ [{ m with id := s.seqNo, seq := s.seqNo }]), seqNo := s.seqNo + 1 }

/-- One that is no task. -/
def State.grant (s : State) (group col acc : Nat) (act : MintAct) : State :=
  s.grantOp { id := 0, seq := 0, group := group, col := col, acc := acc, act := act }

/-- Whether an entry has completed and stays for room in its completion queue only. -/
def MintOp.done (m : MintOp) : Bool := match m.act with
  | .task _ _ _ _ _ _ _ _ _ _ fin => fin
  | _ => false

/-- The core scratchpad bytes that an ASPILL writes. -/
def MintOp.spillRange (m : MintOp) : List (Nat × Nat) := match m.act with
  | .spill b => [(b, 4096)]
  | _ => []

/-- Whether every operation that an entry follows has completed: on its accumulator, and for MWAIT.all on every one of its group; an
ASPILL also follows earlier tasks that read its bytes. -/
def State.mintReady (s : State) (core : Nat) (m : MintOp) : Bool :=
  let before := (tabGet s.mintq core).filter fun e => decide (e.seq < m.seq) && !e.done && e.group == m.group
  let all := match m.act with
    | .wait b => b
    | _ => false
  !before.any (fun e => all || e.acc == m.acc) && (m.spillRange = [] || !s.tasksRead core m.seq m.spillRange)

/-! ## ADRAIN, ASPILL, ALOAD, MWAIT when their turn comes (R420 to R422) -/

/-- The result that awaits an entry gets its writes and flags. -/
def State.fillMint (s : State) (col id : Nat) (ws : List RWrite) (fl : FpFlags) : State :=
  if (tabGet s.cols col).isNone then s
  else
    let f (r : Result) : Result := if r.await = .mint id then { r with writes := ws, flags := fl, await := .none } else r
    s.modCol col fun c => { c with results := c.results.map f }

/-- What ADRAIN writes in a lane (R421): the packed elements, the residues and the flags. A residue takes the poison of its own element; the result lane is
poisoned if any element is, or any residue that it reads (R110; log entry 40). -/
def State.drainLane (s : State) (m : MintOp) (core row : Nat) (ty : Ty) (ef sat : Bool) (vd vr l : Nat) : List RWrite × FpFlags :=
  let n := elemCount ty
  let f := fmtOf ty
  let w := elemBits ty
  let x (j : Nat) : Word × Bool := s.accGet m.group core m.acc (row + j) l
  let c := s.col m.col
  let q := (List.range n).any fun j => (x j).2 || (ef && c.rdVp (vr + j) l)
  let one (j : Nat) : Nat × List RWrite × FpFlags :=
    let v := (x j).1.toNat
    if ty = .f32 ∨ ty = .i32 then (v, [], 0)
    else if ef then
      let r := narrowEf f v (c.rdV (vr + j) l).toNat
      (r.1, [RWrite.vec (vr + j) l (BitVec.ofNat 32 r.2.1) (x j).2], r.2.2)
    else
      let r := fcvtOne .f32 f sat v
      (r.1, [], r.2)
  let js := (List.range n).map one
  (RWrite.vec vd l (BitVec.ofNat 32 (packElems w (fun j => (js.getD j default).1) n)) q
      :: js.flatMap (·.2.1),
   js.foldl (fun fl r => fl ||| r.2.2) 0)

/-- Performs an entry that is no task. -/
def State.runMint (s : State) (core : Nat) (m : MintOp) : State :=
  match m.act with
  | .task _ _ _ _ _ _ _ _ _ _ _ => s
  | .wait _ => s.fillMint m.col m.id [] 0
  | .drain row ty ef sat vd vr lanes =>
    let r := (lanesOf lanes).foldl (fun (a : List RWrite × FpFlags) l =>
      let d := s.drainLane m core row ty ef sat vd vr l
      (a.1 ++ d.1, a.2 ||| d.2)) ([], 0)
    s.fillMint m.col m.id r.1 r.2
  | .spill b =>
    let s := accElems.foldl (fun s e =>
      let x := s.accGet m.group core m.acc e.1 e.2
      s.spadSet core (b + 128 * e.1 + 4 * e.2) x.1 x.2) s
    s.fillMint m.col m.id [] 0
  | .load b =>
    let s := s.scrubSpad core m.col
    let s := accElems.foldl (fun s e =>
      let x := s.spadGet core (b + 128 * e.1 + 4 * e.2)
      s.accSet m.group core m.acc e.1 e.2 x.1 x.2) s
    s.fillMint m.col m.id [] 0

def MintOp.isTask (m : MintOp) : Bool := match m.act with
  | .task _ _ _ _ _ _ _ _ _ _ _ => true
  | _ => false

/-- Performs, in grant order, every entry that is no task and whose turn has come; `fuel` bounds their number. -/
def State.settleMint (s : State) (core : Nat) : Nat → State
  | 0 => s
  | fuel + 1 =>
    match (tabGet s.mintq core).find? fun m => !m.isTask && s.mintReady core m with
    | none => s
    | some m =>
      let s := s.runMint core m
      { s with mintq := tabMod s.mintq core fun q => q.filter fun e => e.id != m.id }.settleMint core fuel

/-- A queue after some entry has left it. -/
def State.mintGoOn (s : State) (core : Nat) : State := s.settleMint core (tabGet s.mintq core).length

/-! ## Records (R415, R416) -/

/-- A record with its descriptors, as the checks of R416 read it. -/
structure MintRec where
  op : Nat
  acc : Nat
  povr : Nat
  ks : Nat
  wrec : Nat
  wph : Nat
  tag : DWord
  zero : Bool
  rc : Bool
  atIn : Bool
  btIn : Bool
  aReg : Nat := 0
  bReg : Nat := 0
  aDesc : TileDesc
  bDesc : TileDesc
  deriving DecidableEq, Repr, Inhabited

/-- Whether a receipt's 16 bytes lie in the window or in the slice of a column of the group on the core. -/
def State.wrecOk (s : State) (col a : Nat) : Bool :=
  let core := coreOf col
  let w := winBytes (s.core core).win
  decide (a + 16 ≤ w) || ((s.groupCols col).filter fun c => coreOf c == core).any fun c =>
    let r := s.region c false
    decide (r.1 ≤ a) && decide (a + 16 ≤ r.1 + r.2)

/-- The lowest reason of R416 that holds; none for a well-formed record. -/
def State.mintReason (s : State) (col : Nat) (h : KHdr) (r : MintRec) : Option Nat :=
  let runs := r.op < 2
  let p := descP r.aDesc
  let aKind := r.atIn && descKind r.aDesc == 1
  firstOf [
    if r.zero then none else some 1,
    if r.op < 3 then none else some 2,
    if h.na ≤ r.acc then some 3 else none,
    if r.povr = 1 ∨ 17 ≤ r.povr
      ∨ (runs ∧ aKind = true ∧ (p < r.povr ∨ (intTile (descTy r.aDesc) = true ∧ r.povr ≠ 0 ∧ r.povr ≠ p))) then
      (if runs then some 4 else none) else none,
    if runs && (!aKind || !r.btIn || descKind r.bDesc != 2) then some 5 else none,
    if runs && decide (descKs r.aDesc < r.ks ∨ descKs r.bDesc < r.ks) then some 6 else none,
    if r.wrec ≠ 0 ∧ (2 ^ 20 < r.wrec * 16 + 16 ∨ s.wrecOk col (r.wrec * 16) = false) then some 7 else none,
    if r.rc != h.recomp then some 8 else none]

/-- A record enters the window: the word is the fork of its task (R205). -/
def Ctx.enterTask (x : Ctx) (r : MintRec) (nq : Bool) : State :=
  x.s.grantOp {
    id := 0, seq := 0, group := x.c.group, col := x.col, acc := r.acc
    act := .task r.op r.povr r.ks r.wrec r.wph r.aDesc r.bDesc r.tag nq false false
    lanes := x.en, bound := x.s.nextTag, aReg := r.aReg, bReg := r.bReg }

/-! ## MMA and ACLR (R414, R415) -/

def fmtMma (_ : KHdr) (_ : Full) : Fmt :=
  { d := fA, a := fT, b := fT, c := fS, xs := [xFld 0 2 (· < 2), xFld 2 5 fun _ => true, xBit 8, xBit 9] }

/-- The record that MMA builds. -/
def Ctx.mmaRec (x : Ctx) : MintRec :=
  let sc := x.rc true 0
  let a := tabGet x.c.t (numOf x.w.a)
  let f := fld sc 26 11
  { op := xf x.w 1 0, acc := numOf x.w.d, povr := xf x.w 6 2, ks := if fld sc 10 0 = 0 then descKs a else fld sc 10 0
    wrec := if f = 0 then 0 else ((x.s.region x.col (xb x.w 9)).1 + 16 * f) / 16
    wph := fld sc 30 27, tag := BitVec.ofNat 64 (fld sc 63 32), zero := fld sc 31 31 == 0, rc := x.h.recomp, atIn := true, btIn := true
    aReg := numOf x.w.a, bReg := numOf (opB x.w), aDesc := a, bDesc := tabGet x.c.t (numOf (opB x.w)) }

/-- The first offending operand of MMA for a reason. -/
def Ctx.mmaSpec (x : Ctx) (r : MintRec) (reason : Nat) : Nat :=
  match reason with
  | 1 => specOf (opC x.w)
  | 4 => if r.povr = 1 ∨ 17 ≤ r.povr then 0 else specOf x.w.a
  | 5 => if descKind r.aDesc = 1 then specOf (opB x.w) else specOf x.w.a
  | 6 => if fld (x.rc true 0) 10 0 = 0 then specOf (opB x.w) else specOf (opC x.w)
  | _ => specOf (opC x.w)

def execMma (w : Full) (s : State) : Res :=
  s.word w fmtMma (fun x => [x.pt (opC x.w) true 9]) fun x =>
    let r := x.mmaRec
    if x.en = 0 then .go x.s none false
    else
      match x.s.mintReason x.col x.h r with
      | some n => x.trap 0x0E x.sp.mask 0 (256 * x.mmaSpec r n + n)
      | none =>
        if 32 ≤ x.s.windowLen (coreOf x.col) then .block
        else .go (x.enterTask r (xb x.w 8)) none false

def execAclr (w : Full) (s : State) : Res :=
  s.word w (fun _ _ => { d := fA }) noPts fun x =>
    if x.en = 0 then .go x.s none false
    else if 32 ≤ x.s.windowLen (coreOf x.col) then .block
    else .go (x.enterTask { (default : MintRec) with op := 2, acc := numOf x.w.d } true) none false

/-! ## Running a task (R227, R228, R417 to R419) -/

/-- Whether every TFILL, TZERO and ASPILL issued earlier by a column of the core has completed where it writes some bytes. -/
def State.fillsDone (s : State) (core seq : Nat) (rs : List (Nat × Nat)) : Bool :=
  !s.ops.any (fun e => match e.2 with
    | some o => decide (o.seq < seq) && (match o.body with
      | .tile t => !t.store && coreOf t.col == core && rangesMeet (s.tileSpans t.col t.desc) rs
      | .tzero c d => coreOf c == core && rangesMeet (s.tileSpans c d) rs
      | _ => false)
    | none => false)
  && !(tabGet s.mintq core).any fun m => decide (m.seq < seq) && rangesMeet m.spillRange rs

/-- Started tasks of a core that have not completed: at most one on each of its two mints. -/
def State.mintsBusy (s : State) (core : Nat) : Nat :=
  ((tabGet s.mintq core).filter fun m => match m.act with
    | .task _ _ _ _ _ _ _ _ _ started fin => started && !fin
    | _ => false).length

/-- Replaces an entry. -/
def State.setMint (s : State) (core : Nat) (m : MintOp) : State :=
  { s with mintq := tabMod s.mintq core fun q => q.map fun e => if e.id = m.id then m else e }

/-- Conditions 1 and 2 of R417 for an entry. -/
def State.taskClear (s : State) (core : Nat) (m : MintOp) : Bool :=
  match m.act with
  | .task op _ _ _ _ a b _ _ _ _ =>
    s.mintReady core m && s.fillsDone core m.seq (if op < 2 then s.tileSpans m.col a ++ s.tileSpans m.col b else [])
  | _ => false

/-- The phase of a waiting task is tested when conditions 1 and 2 first hold (R417). -/
def State.testTask (s : State) (core : Nat) (m : MintOp) : MintOp :=
  match m.act with
  | .task _ _ _ wrec wph _ _ _ _ false _ =>
    if m.tested || !s.taskClear core m then m
    else { m with tested := true, passed := wrec == 0 || (s.rcptGet core (16 * wrec)).1.phase == wph }
  | _ => m

/-- The tests that are due, on every core. -/
def State.testTasks (s : State) : State :=
  if s.mintq.isEmpty then s
  else { s with mintq := s.mintq.map fun (e : Nat × List MintOp) => (e.1, e.2.map (s.testTask e.1)) }

/-- MINT_TASK_START (R205, R417): the accesses before its fork have performed, its column has its core's turn (R117), and a mint is free. -/
def execMintTaskStart (core task : Nat) (s : State) : Res :=
  match (tabGet s.mintq core).find? (·.id == task) with
  | none => notNow "MINT_TASK_START"
  | some m =>
    match m.act with
    | .task op povr ks wrec wph a b tag nq false false =>
      let m := s.testTask core m
      if s.taskClear core m && m.passed && decide (s.mintsBusy core < 2) && s.forkDone m.col m.lanes m.bound && s.hasTurn m.col then
        .next (s.setMint core { m with act := .task op povr ks wrec wph a b tag nq true false })
      else notNow "MINT_TASK_START"
    | _ => notNow "MINT_TASK_START"

/-- One slab of an A row at p of its planes: special, exponent, the 8 integers, poison (R418). The exponent contributes unless both tiles hold integers
(`ints`: R110, R228). -/
def State.aSlab (s : State) (core base : Nat) (d : TileDesc) (ints : Bool) (p i sl : Nat) : Group8 :=
  let pd := descP d
  let plane (j : Nat) : List Byte × Bool := s.eSpadRead core (base + descBase d + 32 * (pd * sl + (pd - p + j)) + i) 1
  let ex := s.eSpadRead core (base + descExp d + descStride d * sl + i) 1
  let ms := (List.range 8).map fun b => toSigned p ((List.range p).foldl (fun v j => v + natOf (plane j).1 / 2 ^ b % 2 * 2 ^ j) 0)
  ⟨natOf ex.1 == 128, toSigned 8 (natOf ex.1), ms, (!ints && ex.2) || (List.range p).any fun j => (plane j).2⟩

/-- One slab of a B column: special, its integers, its scale as an exact value, poison (R225, R226). -/
def State.bSlab (s : State) (core base : Nat) (d : TileDesc) (n sl : Nat) : Bool × List Int × XR × Bool :=
  let int (b : Nat) : List Byte × Bool := s.eSpadRead core (base + descBase d + 64 * (8 * sl + b) + 2 * n) 2
  let ms := (List.range 8).map fun b => toSigned 16 (natOf (int b).1)
  let q := (List.range 8).any fun b => (int b).2
  match expBytes d with
  | 32 =>
    let ex := s.eSpadRead core (base + descExp d + descStride d * sl + n) 1
    let (a, b) := scale2 1 (toSigned 8 (natOf ex.1) - 15)
    (natOf ex.1 == 128, ms, .num false a b, q || ex.2)
  | 128 =>
    let w := s.spadGet core (base + descExp d + descStride d * sl + 4 * n)
    let x := FFmt.f32.widen w.1.toNat
    ((match x with
      | .num _ _ _ => false
      | _ => true), ms, x, q || w.2)
  | _ => (false, ms, .num false 1 1, q)

def rneF32 (x : XR) : Nat := (roundTo .f32 .rne false false x).1

/-- mint_element over slabs from `sl` on, `fuel` of them (R227, R228). -/
def mintSlabs (a : Nat → Group8) (b : Nat → Bool × List Int × XR × Bool) (intA intB : Bool) (p sl acc : Nat) : Nat → Nat
  | 0 => acc
  | fuel + 1 =>
    let ga := a sl
    let (sb, mb, xb, _) := b sl
    let sum := (List.range 8).foldl (fun (v : Int) k => v + ga.m.getD k 0 * mb.getD k 0) 0
    let acc := if intA && intB then wrapW 32 (acc + sum)
      else if ga.special || sb then FFmt.f32.nan
      else
        let (n, d) := if intA then (sum.natAbs, 1) else scale2 sum.natAbs (ga.e - ((p : Int) - 1))
        let t : XR := .num (sum < 0) n d
        rneF32 (xsum .rne [FFmt.f32.widen acc, FFmt.f32.widen (rneF32 (xmul t xb).1)]).1
    mintSlabs a b intA intB p (sl + 1) acc fuel

/-- The value and poison of an element after a task. -/
def State.mintElem (s : State) (core : Nat) (m : MintOp) (op povr ks : Nat) (da db : TileDesc) (i n : Nat) : Word × Bool :=
  if op = 2 then (0, false)
  else
    let ba := (s.region m.col (descWin da)).1
    let bb := (s.region m.col (descWin db)).1
    let p := if povr = 0 then descP da else povr
    let a := s.aSlab core ba da (intTile (descTy da) && intTile (descTy db)) p i
    let b := s.bSlab core bb db n
    let old := if op = 1 then (0, false) else s.accGet m.group core m.acc i n
    (BitVec.ofNat 32 (mintSlabs a b (intTile (descTy da)) (intTile (descTy db)) p 0 old.1.toNat ks),
     old.2 || (List.range ks).any fun sl => (a sl).pois || (b sl).2.2.2)

def compKey (group core : Nat) : Nat := group * 4608 + core

/-- Finished tasks post their TAGs while there is room, in completion order, and leave the window (R419). -/
def State.postTags (s : State) (core : Nat) : List MintOp → State
  | [] => s
  | m :: ms =>
    match m.act with
    | .task _ _ _ _ _ _ _ tag _ _ true =>
      if (tabGet s.compq (compKey m.group core)).length < 32 then
        { s with
          compq := tabMod s.compq (compKey m.group core) (· ++ [tag])
          mintq := tabMod s.mintq core fun q => q.filter fun e => e.id != m.id }.postTags core ms
      else s.postTags core ms
    | _ => s.postTags core ms

/-- MINT_TASK_COMPLETION (R418, R419). In deterministic mode the core's tasks complete in task order. -/
def execMintTaskCompletion (core task : Nat) (s : State) : Res :=
  match (tabGet s.mintq core).find? (·.id == task) with
  | none => notNow "MINT_TASK_COMPLETION"
  | some m =>
    match m.act with
    | .task op povr ks wrec wph a b tag nq true false =>
      if (s.core core).det && (tabGet s.mintq core).any fun e => e.isTask && decide (e.seq < m.seq) && !e.done then
        notNow "MINT_TASK_COMPLETION"
      else
        let s := s.scrubSpad core m.col
        let out := accElems.map fun e => (e, s.mintElem core m op povr ks a b e.1 e.2)
        let s := out.foldl (fun s x => s.accSet m.group core m.acc x.1.1 x.1.2 x.2.1 x.2.2) s
        let rest (q : List MintOp) : List MintOp := q.filter fun e => e.id != task
        let s := if nq then { s with mintq := tabMod s.mintq core rest }
          else { s with mintq := tabMod s.mintq core fun q => rest q ++ [{ m with act := .task op povr ks wrec wph a b tag nq true true }] }
        let s := s.postTags core (tabGet s.mintq core)
        .next (s.mintGoOn core)
    | _ => notNow "MINT_TASK_COMPLETION"

/-! ## ADRAIN, ASPILL, ALOAD, MWAIT at issue -/

/-- Grants an operation with a result that awaits it; what can run at once does. -/
def Ctx.mintResult (x : Ctx) (acc : Nat) (act : MintAct) (regs : List PReg) : Eff :=
  let id := x.s.seqNo
  let s := x.s.setCol x.col (x.c.addResult x.k [] 0 (.mint id) regs)
  .go ((s.grant x.c.group x.col acc act).mintGoOn (coreOf x.col)) none false

def drainRow (w : Full) : Nat := xf w 4 0

def fmtAdrain (h : KHdr) (w : Full) : Fmt :=
  let n := elemCount w.ty
  let ef := xb w 5
  let vr := numOf (opB w)
  { d := fV, a := fA, b := if ef then fV else fNo, tys := some [.i32, .f32, .bf16x2, .f16x2, .e4m3x4, .e5m2x4, .f16]
    xs := [xFld 0 5 fun _ => true, xBit 5, xBit 6]
    more := if drainRow w % n ≠ 0 then some (0, 17)
      else if ef ∧ (w.ty = .f32 ∨ w.ty = .i32 ∨ xb w 6 = true ∨ h.nv < vr + n ∨ (vr ≤ numOf w.d ∧ numOf w.d < vr + n)) then some (0, 18)
      else none
    extra := if ef then ((List.range n).tail.map fun j => .v (BitVec.ofNat 7 (vr + j))) else [] }

def execAdrain (w : Full) (s : State) : Res :=
  s.word w fmtAdrain noPts fun x =>
    if x.en = 0 then .go x.s none false
    else
      let n := elemCount w.ty
      let ef := xb w 5
      let regs := PReg.v (numOf w.d) :: (if ef then (List.range n).map fun j => PReg.v (numOf (opB w) + j) else [])
      x.mintResult (numOf w.a) (.drain (drainRow w) w.ty ef (xb w 6) (numOf w.d) (numOf (opB w)) x.en) regs

def fmtAspill (_ : KHdr) (_ : Full) : Fmt := { d := fA, a := fS, xs := [xBit 0], r := false, i := true }

/-- The offset of ASPILL and ALOAD in their region. -/
def Ctx.spillOff (x : Ctx) : DWord := BitVec.ofInt 64 ((x.ra true 0 : Nat) + immS x.w)

/-- ASPILL and ALOAD: alignment, then the region; `load` makes ad pending. -/
def Ctx.spillWord (x : Ctx) (load : Bool) : Eff :=
  if x.en = 0 then .go x.s none false
  else
    let off := x.spillOff.toNat
    let r := x.s.region x.col (xb x.w 0)
    if off % 128 ≠ 0 then x.trapAt 7 x.en (fun _ => x.spillOff) 7
    else if r.2 < off + 4096 then x.trapAt 8 x.en (fun _ => x.spillOff) 16
    else if x.s.zeroing x.col [(r.1 + off, 4096)] then .stall
    else x.mintResult (numOf x.w.d) (if load then .load (r.1 + off) else .spill (r.1 + off)) (if load then [.a (numOf x.w.d)] else [])

def execAspill (w : Full) (s : State) : Res :=
  s.word w fmtAspill (fun x => [x.ptAddr x.w.a true fun _ => x.spillOff]) fun x => x.spillWord false
def execAload (w : Full) (s : State) : Res :=
  s.word w fmtAspill (fun x => [x.ptAddr x.w.a true fun _ => x.spillOff]) fun x => x.spillWord true

def fmtMwait (_ : KHdr) (w : Full) : Fmt := { d := if xb w 0 then fNo else fA, xs := [xBit 0] }

def execMwait (w : Full) (s : State) : Res :=
  s.word w fmtMwait noPts fun x =>
    if x.en = 0 then .go x.s none false
    else x.mintResult (if xb w 0 then 8 else numOf w.d) (.wait (xb w 0)) []

end Sys2Proof.Machine
end

