-- ==== Sys2Proof/Machine/Preempt.lean ====
section
/-!
DEFINITION. The second pass of a pre-emption (R103, R104, R372, R376, R412, R423, R424, R433).
-/

namespace Sys2Proof.Machine

/-- A copy, fill or store withdrawn by a flush: code 7 goes to its token, or its receipts and its event (R372, R412, R424). -/
def State.withdraw (s : State) (id : Nat) (o : EngOp) : State :=
  match o.body with
  | .copy c =>
    let (s, ra, rb) := if c.started then (s, some c.recA, some c.recB)
      else
        let (s, ga, gb) := s.copyRecords o.ctx c
        (s, ga.read, gb.read)
    let s := (s.failCopy id c 7 ra rb).1
    c.slices.foldl (fun s sl => if sl.treg = 0 then s else s.writeToken sl.col sl.treg id (2 ^ 63 + 7)) s
  | .tile t =>
    if t.store then
      let (s, g) := s.readSurf o.ctx t.col t.surf.toNat
      let (s, n) := s.storeBytes t g.read
      s.endTile id t n 7
    else s.endTile id t (tileBytes t.desc) 7
  | _ => s

/-- What a pre-empted column keeps outside its save area. -/
def keepOf (c : Column) : Keep := ⟨c.joinCnt, c.msgs, c.unacked, c.bounced, c.itemCur, c.ubar, c.tokens, c.stop⟩

/-- Saves or flushes a stopped group (R101, R103, R104, R423): mint state and pending RWAIT of a flush are dropped; copies that still miss slices, and exchanges that some
participants have consumed, are held for a save; handles return to 0 on a flush (R433). -/
def State.saveGroup (s : State) (gid : Nat) (g : Group) (o : PreOpt) : State :=
  let how := if o = .flush then 2 else 1
  let mine := s.ops.filterMap fun e => e.2.bind fun x => if x.body.ofGroup gid g.cols then some (e.1, x) else none
  let s := if o = .flush then mine.foldl (fun s e => s.withdraw e.1 e.2) s else s
  let s := g.cols.foldl (fun s c => s.saveColumn g.ctx c g.hdr how) s
  let s := if o = .flush then s else g.cores.foldl (fun s k => s.saveWindow g.ctx k) s
  let held := mine.filter fun e => match e.2.body with
    | .copy c => o == .save && !c.started
    | .xch q => o == .save && q.consumed
    | _ => false
  let held := held.map fun e => match e.2.body with
    | .xch q => (e.1, { e.2 with body := .xch q.withdrawn })
    | _ => e
  let keep := g.cols.foldl (fun t c => tabSet t c (keepOf (s.col c))) ([] : Tab Keep)
  let s := if o = .flush then
      { s with handles := g.cols.foldl (fun t c => (List.range 16).foldl (fun t h => if (tabGet t (handleKey c h)).toNat % 8 = 1 then t else tabSet t (handleKey c h) 0) t) s.handles }
    else s
  let s := s.evict gid g
  let s := { s with ops := held.foldl (fun (t : Tab (Option EngOp)) (e : Nat × EngOp) => tabSet t e.1 (some e.2)) s.ops }
  (s.setGroup gid (some { g with phase := .saved o, keep := keep })).freeCores g.cores

/-- PREEMPTION_SECOND_PASS (R103): once the drained groups have ended, the rest stop together, deterministic ones at the end of a
rotation step (R148); once their awaited results and
operations are done, they are saved or flushed. -/
def execPreemptionSecondPass (s : State) : Res :=
  match s.sch.sw with
  | none => notNow "PREEMPTION_SECOND_PASS"
  | some w =>
    if w.pass2 || s.draining w then notNow "PREEMPTION_SECOND_PASS"
    else
      let gs := s.preGroups w
      let cols := gs.flatMap fun g => g.2.1.cols
      if cols.any fun c => !(s.col c).frozen then
        if gs.any fun g => !s.mayStop g.2.1 then notNow "PREEMPTION_SECOND_PASS" else
        let s := cols.foldl (fun s c => s.modCol c (Column.halt · fun k => s.waits (.split c k))) s
        let s := s.dropFaults fun x => match x with
          | .split c _ => cols.contains c
          | _ => false
        let run := match s.run with
          | some (c, k) => if cols.contains c then none else some (c, k)
          | none => none
        .next { s with run := run }
      else if gs.all fun g => s.groupQuiet g.1 g.2.1 g.2.2 then
        let s := gs.foldl (fun s g => s.saveGroup g.1 g.2.1 g.2.2) s
        let met := w.metB && (gs.isEmpty || Config.usBetween w.cut s.tick ≤ w.bound)
        .next { s with sch.sw := some { w with pass2 := true, metB := met } }
      else notNow "PREEMPTION_SECOND_PASS"

end Sys2Proof.Machine
end

