-- ==== Sys2Proof/Machine/Queue.lean ====
section
/-!
DEFINITION. Queue bindings, messages, stage items and SUBMIT (R86, R87, R178, R395 to R402).
-/

namespace Sys2Proof.Machine

/-! ## Bindings (R178) -/

/-- The binding of a queue register; unbound where none is written. -/
def Column.binding (c : Column) (n : Nat) : QBind := (tabGet c.q n).getD ⟨7, 0, 0⟩

/-- The binding that the issuing split's word names by a queue register. -/
def State.bindingOf (s : State) (o : Opnd) : QBind :=
  match s.run with
  | some (col, _) => (s.col col).binding (numOf o)
  | none => ⟨7, 0, 0⟩

/-- The stage entry of a column's group (R80). -/
def State.stageEnt (s : State) (col : Nat) : StageDesc :=
  match s.group (s.col col).group with
  | none => {}
  | some g => match (s.lq g.ctx g.queue).run with
    | some l => l.stages.getD g.stage {}
    | none => {}

/-- The items of a column's group, as pool slots. -/
def State.groupItems (s : State) (col : Nat) : List Nat :=
  match s.group (s.col col).group with
  | some g => g.items
  | none => []

/-- The run reserved for a stage in a column's group (R87). -/
def State.outRun (s : State) (col stg : Nat) : Option OutRun :=
  match s.group (s.col col).group with
  | some g => g.outRuns.find? (·.stage == stg)
  | none => none

/-- A queue binding trap (R275): the specifier of the queue register and a reason. -/
def Ctx.trapQueue (x : Ctx) (q : Opnd) (reason : Nat) : Eff := x.trap 0x0C x.sp.mask 0 (256 * specOf q + reason)

/-! ## QBIND (R395) -/

def bindKind (w : Full) : Nat := immF w 2 0
def bindStg (w : Full) : Nat := immF w 10 8

def fmtQbind (_ : KHdr) (w : Full) : Fmt :=
  { d := fQ, a := fS, r := false, i := true
    more := if immF w 7 3 ≠ 0 ∨ immF w 23 11 ≠ 0 ∨ (bindKind w ≠ 0 ∧ w.a ≠ .s 0) ∨ (bindKind w ≠ 3 ∧ bindStg w ≠ 0) then some (0, 2)
      else none }

/-- Why a binding is refused. -/
def Ctx.bindReason (x : Ctx) (a : Nat) : Option Nat :=
  match bindKind x.w with
  | 0 => if addrOff a ≠ 0 ∨ addrAp a ≠ 0 ∨ (isSelfAlias a = false ∧ nCols ≤ addrCol a) then some 8 else none
  | 1 => if x.h.comm then none else some 3
  | 2 => if (x.s.stageEnt x.col).qcap = 0 then some 4 else none
  | 3 => if (x.s.stageEnt x.col).outmask / 2 ^ bindStg x.w % 2 = 0 then some 6 else none
  | 4 => if x.h.na = 0 then some 9 else none
  | 5 => if x.h.na = 0 then some 9 else none
  | 6 => some 1
  | _ => none

def execQbind (w : Full) (s : State) : Res :=
  s.word w fmtQbind (fun x => [x.pt x.w.a true 10]) fun x =>
    if x.en = 0 then .go x.s none false
    else
      let a := x.ra true 0
      match x.bindReason a with
      | some r => x.trapQueue w.d r
      | none =>
        let n := numOf w.d
        let b : Option QBind := if bindKind w = 7 then none
          else some ⟨bindKind w, bindStg w, if bindKind w = 0 then BitVec.ofNat 64 a else 0⟩
        .go (x.s.setCol x.col { x.c with q := tabSet x.c.q n b, itemCur := tabSet x.c.itemCur n 0 }) none false

/-! ## QPUSH (R396 to R399) -/

/-- Registers of an item or a record from operand `a` on, that exist. -/
def itemRegs (h : KHdr) (b : QBind) (a : Opnd) : List Opnd :=
  match b.kind, a with
  | 3, .s _ => ((sRegs a 8).tail.filter (· < h.ns)).map fun r => .s (BitVec.ofNat 6 r)
  | 3, .v _ => ((sRegs a 16).tail.filter (· < h.nv)).map fun r => .v (BitVec.ofNat 7 r)
  | 4, .s _ => ((sRegs a 2).tail.filter (· < h.ns)).map fun r => .s (BitVec.ofNat 6 r)
  | _, _ => []

def fmtQpush (b : QBind) (h : KHdr) (w : Full) : Fmt :=
  { d := fQ, a := fVS, extra := itemRegs h b w.a, more := if b.kind = 4 ∧ isUni w.a = true then sBeyond h w.a 2 else none }

/-- The source at its containment point: 9 for a mint task window, else 6. -/
def Ctx.ptsQpush (x : Ctx) (b : QBind) : List Pt :=
  (x.w.a :: itemRegs x.h b x.w.a).map fun o => x.pt o false (if b.kind = 4 then 9 else 6)

/-- The full address of a binding's destination column. -/
def bindDest (col : Nat) (b : QBind) : DWord := if isSelfAlias b.addr.toNat then mkAddr col 0 else b.addr

/-- A message (R397). -/
def Ctx.pushMessage (x : Ctx) (b : QBind) : Eff :=
  let n := numOf x.w.d
  if isUni x.w.a then x.trap2 (specOf x.w.a) 4
  else if x.c.unacked.any (·.1 == n) then .block
  else
    let tag := x.s.nextTag
    let ws := lanes32.map fun l => if x.on l then x.c.rdV (numOf x.w.a) l else 0
    let p : Packet :=
      { kind := BitVec.ofNat 8 kMessage, dest := bindDest x.col b, src := mkAddr x.col tag, vc := 3, npay := 2, slot := 0, req := tag, hops := 0
        ord := 0, scope := 0, stat := 0, ty := .b32, op := 0, cas := false, accs := [], words := ws, mask := x.en
        parked := false, left := false, via := none, port := 0 }
    let c := { x.c with unacked := x.c.unacked ++ [(n, x.en, tag)] }
    .go ((({ x.s with nextTag := tag + 1 }).setCol x.col c).send p) none false

/-- The accesses of item `i` of a push, at slot address `a` (R398). -/
def Ctx.itemAccs (x : Ctx) (l : Nat) (a : DWord) : List LaneAcc :=
  (List.range 8).map fun k =>
    let n := numOf x.w.a
    let v := if isUni x.w.a then (x.c.rdS (n + k)).toNat
      else (x.c.rdV (n + 2 * k) l).toNat + 2 ^ 32 * (x.c.rdV (n + 2 * k + 1) l).toNat
    ⟨l, a + BitVec.ofNat 64 (8 * k), 8, BitVec.ofNat 64 v, 0, false⟩

/-- The queue base of a stage's pool in a column's launch. -/
def State.poolBase (s : State) (col stg : Nat) : DWord :=
  match s.group (s.col col).group with
  | none => 0
  | some g => match (s.lq g.ctx g.queue).run with
    | some l => (l.stages.getD stg {}).qbase
    | none => 0

/-- The packets of a push of items (R87, R398): the slots in a pool of this module are taken when the push reaches it; in another module's, with
the push. -/
def Ctx.itemPackets (x : Ctx) (b : QBind) (r : OutRun) (ls : List Nat) : List Packet :=
  let base := x.s.poolBase x.col b.stg
  let here := addrPkg base.toNat == Config.package.toNat
  ls.zipIdx.map fun (y : Nat × Nat) =>
    let a := if here then base else itemAddr base (r.start + r.pushed + y.2)
    let accs := (x.itemAccs y.1 a).zipIdx.map fun (z : LaneAcc × Nat) => ({ z.1 with lane := z.2 } : LaneAcc)
    let p := requestPacket kStr 0 0 .n64 (a.toNat / 256) accs true
    if here then { p with words := ([x.c.group, b.stg, x.s.nextTag, ls.length, y.2] : List Nat).map (BitVec.ofNat 32) } else p

/-- Stage items: into the reserved run, as STR packets. -/
def Ctx.pushItems (x : Ctx) (b : QBind) : Eff :=
  let n := numOf x.w.a
  let uni := isUni x.w.a
  if if uni then decide (x.h.ns < n + 8) else decide (x.h.nv < n + 16) then x.trapQueue x.w.d 10
  else
    let ls := if uni then [lowLane x.en] else lanesOf x.en
    match x.s.outRun x.col b.stg with
    | none => x.trapQueue x.w.d 7
    | some r =>
      if r.len < r.pushed + ls.length then x.trapQueue x.w.d 7
      else
        let ps := x.itemPackets b r ls
        if x.c.held x.en true false || !x.s.canRequest x.col (ps.map fun p => creditKey p.dest.toNat) then .stall
        else
          let put (o : OutRun) : OutRun := if o.stage = b.stg then
              { o with pushed := o.pushed + ls.length
                       filled := if ps.any (·.words != []) then o.filled else o.filled + ls.length } else o
          let s := match x.s.group x.c.group with
            | some g => x.s.setGroup x.c.group (some { g with outRuns := g.outRuns.map put })
            | none => x.s
          .go ((ps.foldl (fun (s : State) p => s.request x.col p x.en true false false) s).pump x.col) none false

/-- The task record of a push (R176). -/
def Ctx.pushRec (x : Ctx) : MintRec :=
  let v := x.c.rdS (numOf x.w.a)
  let f (hi lo : Nat) : Nat := fieldNat v hi lo
  { op := f 3 0, acc := f 7 4, povr := f 20 16, ks := f 31 21, wrec := f 47 32, wph := f 51 48, tag := x.c.rdS (numOf x.w.a + 1)
    zero := f 63 53 == 0, rc := v.getLsbD 52, atIn := decide (f 11 8 < x.h.nt), btIn := decide (f 15 12 < x.h.nt)
    aReg := f 11 8, bReg := f 15 12
    aDesc := tabGet x.c.t (f 11 8), bDesc := tabGet x.c.t (f 15 12) }

def Ctx.pushTask (x : Ctx) : Eff :=
  if !isUni x.w.a then x.trap2 (specOf x.w.a) 4
  else
    let r := x.pushRec
    match x.s.mintReason x.col x.h r with
    | some n => x.trap 0x0E x.sp.mask 0 n
    | none =>
      if 32 ≤ x.s.windowLen (coreOf x.col) then .block
      else .go (x.enterTask r false) none false

def execQpush (w : Full) (s : State) : Res :=
  let b := s.bindingOf w.d
  s.word w (fmtQpush b) (fun x => x.ptsQpush b) fun x =>
    if x.en = 0 then .go x.s none false
    else
      match b.kind with
      | 0 => x.pushMessage b
      | 3 => x.pushItems b
      | 4 => x.pushTask
      | _ => x.trapQueue w.d 1

/-! ## QPOP (R399, R400) -/

def fmtQpop (b : QBind) (h : KHdr) (w : Full) : Fmt :=
  { d := fVS, a := fQ
    extra := match b.kind, w.d with
      | 2, .s _ => ((sRegs w.d 8).tail.filter (· < h.ns)).map fun r => .s (BitVec.ofNat 6 r)
      | _, _ => [] }

def Ctx.popMessage (x : Ctx) : Eff :=
  if isUni x.w.d then x.trap2 (specOf x.w.d) 4
  else
    match x.c.msgs with
    | [] => .block
    | m :: rest =>
      let ws := (lanesOf x.en).map fun l => RWrite.vec (numOf x.w.d) l (m.getD l 0) false
      Ctx.var { x with c := { x.c with msgs := rest } } (ws, 0)

/-- The next item of the column's binding, read as an LDR packet of eight 8-byte words. -/
def Ctx.popItem (x : Ctx) : Eff :=
  let q := numOf x.w.a
  let d := numOf x.w.d
  if !isUni x.w.d then x.trap2 (specOf x.w.d) 4
  else if x.h.ns < d + 8 then x.trapQueue x.w.a 10
  else
    let cur := tabGet x.c.itemCur q
    match (x.s.groupItems x.col)[cur]? with
    | none => x.trapQueue x.w.a 5
    | some slot =>
      let base := (x.s.stageEnt x.col).qbase
      let a := itemAddr base slot
      let accs := (List.range 8).map fun k => (⟨k, a + BitVec.ofNat 64 (8 * k), 8, 0, 0, false⟩ : LaneAcc)
      let p := requestPacket kLdr 0 0 .n64 (a.toNat / 256) accs false
      if x.c.held x.en false false || !x.s.canRequest x.col [creditKey p.dest.toNat] then .stall
      else
        let ws := (List.range 8).map fun k => RWrite.uni (d + k) 0 false
        let tag := x.s.nextTag
        let s := x.s.setCol x.col { x.c with itemCur := tabSet x.c.itemCur q (cur + 1) }
        let s := (s.request x.col p x.en false false false).modCol x.col fun c => c.addResult x.k ws 0 (.item tag) (regsOf ws)
        .go (s.pump x.col) none false

/-- One completed TAG; finished tasks that waited for its room follow. -/
def Ctx.popTag (x : Ctx) : Eff :=
  let core := coreOf x.col
  let key := compKey x.c.group core
  if !isUni x.w.d then x.trap2 (specOf x.w.d) 4
  else
    match tabGet x.s.compq key with
    | [] => .block
    | t :: rest =>
      let s := { x.s with compq := tabSet x.s.compq key rest }
      let s := (s.postTags core (tabGet s.mintq core)).mintGoOn core
      Ctx.var { x with s := s, c := s.col x.col } ([.uni (numOf x.w.d) t false], 0)

def execQpop (w : Full) (s : State) : Res :=
  let b := s.bindingOf w.a
  s.word w (fmtQpop b) noPts fun x =>
    if x.en = 0 then .go x.s none false
    else
      match b.kind with
      | 1 => x.popMessage
      | 2 => x.popItem
      | 5 => x.popTag
      | _ => x.trapQueue w.a 1

/-! ## QSTAT (R401) -/

/-- Count and capacity of a binding. -/
def Ctx.queueStat (x : Ctx) (n : Nat) (b : QBind) : Nat × Nat :=
  let core := coreOf x.col
  match b.kind with
  | 0 => (if x.c.unacked.any (·.1 == n) then 1 else 0, 1)
  | 1 => (x.c.msgs.length, 16)
  | 2 => ((x.s.groupItems x.col).length - tabGet x.c.itemCur n, (x.s.groupItems x.col).length)
  | 3 => match x.s.outRun x.col b.stg with
    | some r => (r.len - r.pushed, r.len)
    | none => (0, 0)
  | 4 => (32 - x.s.windowLen core, 32)
  | 5 => ((tabGet x.s.compq (compKey x.c.group core)).length, 32)
  | _ => (0, 0)

def execQstat (w : Full) (s : State) : Res :=
  s.word w (fun _ _ => { d := fS, a := fQ }) noPts fun x =>
    x.fixed (x.map w.d true false fun _ =>
      let b := x.c.binding (numOf w.a)
      let r := x.queueStat (numOf w.a) b
      (r.1 % 2 ^ 16 + at_ (r.2 % 2 ^ 16) 16 + at_ b.kind 32, false, 0))

/-! ## SUBMIT (R402) -/

def fmtSubmit (h : KHdr) (w : Full) : Fmt :=
  { d := fS, a := fS, r := false, i := true, extra := sExtra w.a 8
    more := (sBeyond h w.a 8).orElse fun _ => if 65 < immN w then some (0, 20) else none }

/-- The record with the current context in place of CTX. -/
def withCtx (r : Rec64) (ctx : Nat) : Rec64 :=
  BitVec.ofNat 512 (fieldNat r 47 0 + at_ (ctx % 16) 48 + at_ (fieldNat r 511 52) 52)

def execSubmit (w : Full) (s : State) : Res :=
  s.word w fmtSubmit (fun x => (x.w.a :: sExtra x.w.a 8).map fun o => x.pt o true 7) fun x =>
    if x.en = 0 then .go x.s none false
    else if x.c.reqs ≠ [] then .stall
    else
      let ctx := x.s.tabs.curCtx
      let r := withCtx (BitVec.ofNat 512 (x.c.sGroup w.a 8)) ctx
      let code := x.s.submitCode true 0 (immN w) r
      let s := if code = 0 then x.s.enqueue ctx (immN w) r else x.s
      Ctx.var { x with s := s, c := s.col x.col } ([.uni (numOf w.d) (BitVec.ofNat 64 code) false], 0)

/-! ## Messages on their way (R397) -/

/-- What a column that a pre-emption has saved keeps: its group and the record. -/
def State.keptCol (s : State) (col : Nat) : Option (Nat × Keep) :=
  s.groupList.findSome? fun g => match g.2.phase with
    | .saved _ => if g.2.cols.contains col then some (g.1, tabGet g.2.keep col) else none
    | _ => none

/-- Changes what a saved column keeps. -/
def State.setKept (s : State) (gid col : Nat) (k : Keep) : State :=
  match s.group gid with
  | some g => s.setGroup gid (some { g with keep := tabSet g.keep col k })
  | none => s

/-- The messages of a column that are not acknowledged: queue register, lanes, tag. -/
def State.unackedOf (s : State) (col : Nat) : List (Nat × Mask × Nat) :=
  if (tabGet s.cols col).isSome then (s.col col).unacked
  else match s.keptCol col with
    | some (_, k) => k.unacked
    | none => []

/-- Whether a sender waits for the acknowledgement of a message, and the removal of that mark. -/
def State.awaitsAck (s : State) (col tag : Nat) : Bool := (s.unackedOf col).any (·.2.2 == tag)

def State.ackMessage (s : State) (col tag : Nat) : State :=
  if (tabGet s.cols col).isSome then s.modCol col fun c => { c with unacked := c.unacked.filter (·.2.2 != tag) }
  else match s.keptCol col with
    | some (g, k) => s.setKept g col { k with unacked := k.unacked.filter (·.2.2 != tag) }
    | none => s

/-- Whether the accesses before a message's push have performed (R205). -/
def State.messageReady (s : State) (p : Packet) : Bool :=
  !pktOurs p || (s.col (pktSrc p)).unacked.all fun u => u.2.2 != p.req || s.forkDone (pktSrc p) u.2.1 u.2.2

/-- Puts a message into a buffer of 16; none when it is full. -/
def intoBuffer (ms : List (List Word)) (p : Packet) : Option (List (List Word)) := if ms.length < 16 then some (ms ++ [p.words]) else none

/-- The answer to a message. -/
def messageReply (p : Packet) (kind : Nat) : Packet :=
  replyWith p kind 0 [] (if kind = kBounced then p.words else [])

/-- Whether a saved column belongs to a group with COMM = 1. -/
def State.keptComm (s : State) (gid : Nat) : Bool :=
  match s.group gid with
  | some g => g.hdr.comm
  | none => false

/-- MESSAGE: into the column's buffer, bounced, or dropped with an event where COMM = 0. A message that is dropped completes. -/
def execMessage (p : Packet) (s : State) : Res :=
  s.deliver "MESSAGE" kMessage p fun s =>
  if !s.messageReady p || p.words.length != 32 then notNow "MESSAGE"
  else
    let col := pktDest p
    let s := s.take p
    let drop (s : State) : State := (s.postEvent 6 (pktSrc p) (at_ 4 4)).send (messageReply p kAccepted)
    if (tabGet s.cols col).isSome then
      if !(s.hdr col).comm then .next (drop s)
      else match intoBuffer (s.col col).msgs p with
        | some ms => .next ((s.modCol col fun c => { c with msgs := ms }).send (messageReply p kAccepted))
        | none => .next (s.send (messageReply p kBounced))
    else
      match s.keptCol col with
      | some (g, k) =>
        if !s.keptComm g then .next (drop s)
        else match intoBuffer k.msgs p with
          | some ms => .next ((s.setKept g col { k with msgs := ms }).send (messageReply p kAccepted))
          | none => .next (s.send (messageReply p kBounced))
      | none => .next (drop s)

/-- Whether an answer is to a message that is not acknowledged, from where it went. Any other is discarded (R18). -/
def State.answered (s : State) (p : Packet) : Bool :=
  s.awaitsAck (pktDest p) p.req && (pktOurs p || s.net.any (answers p))

/-- MESSAGE_ACCEPTED. -/
def execMessageAccepted (p : Packet) (s : State) : Res :=
  s.deliver "MESSAGE_ACCEPTED" kAccepted p fun s =>
    .next (if s.answered p then (s.landed p).ackMessage (pktDest p) p.req else s.landed p)

/-- A bounced message in its sender's return buffer, as it was sent. -/
def State.keepBounced (s : State) (p : Packet) : State :=
  let col := pktDest p
  let m : Packet := { p with kind := BitVec.ofNat 8 kMessage, dest := p.src, src := p.dest, vc := 3, npay := 2, stat := 0, hops := 0 }
  if (tabGet s.cols col).isSome then s.modCol col fun c => { c with bounced := c.bounced ++ [m] }
  else match s.keptCol col with
    | some (g, k) => s.setKept g col { k with bounced := k.bounced ++ [m] }
    | none => s

/-- MESSAGE_BOUNCED: the message waits in the return buffer. -/
def execMessageBounced (p : Packet) (s : State) : Res :=
  s.deliver "MESSAGE_BOUNCED" kBounced p fun s =>
    .next (if s.answered p then (s.landed p).keepBounced p else s.landed p)

/-- MESSAGE_RESEND. -/
def execMessageResend (column queue : Nat) (s : State) : Res :=
  let resend (l : List Packet) : Option Packet := l.find? fun m => (s.unackedOf column).any fun u => u.1 == queue && u.2.2 == m.req
  if (tabGet s.cols column).isSome then
    match resend (s.col column).bounced with
    | some m => .next ((s.modCol column fun c => { c with bounced := c.bounced.erase m }).send m)
    | none => notNow "MESSAGE_RESEND"
  else
    match s.keptCol column with
    | some (g, k) => match resend k.bounced with
      | some m => .next ((s.setKept g column { k with bounced := k.bounced.erase m }).send m)
      | none => notNow "MESSAGE_RESEND"
    | none => notNow "MESSAGE_RESEND"

end Sys2Proof.Machine
end

