-- ==== Sys2Proof/Machine/Repart.lean ====
section
/-!
DEFINITION. SFCKEY and REPART (R434 to R436, R452, R468).
-/

namespace Sys2Proof.Machine

/-! ## Curve keys (R434) -/

/-- The Morton key: bits 20 to 0 of x, y and z interleaved. -/
def mortonKey (x y z : Nat) : Nat :=
  (List.range 21).foldl (fun k i =>
    k + x / 2 ^ i % 2 * 2 ^ (3 * i) + y / 2 ^ i % 2 * 2 ^ (3 * i + 1) + z / 2 ^ i % 2 * 2 ^ (3 * i + 2)) 0

/-- The Hilbert digit. -/
def hilbertDigit (rx ry : Bool) : Nat :=
  match rx, ry with
  | false, false => 0 | false, true => 1 | true, true => 2 | true, false => 3

/-- The steps from s = 2 ^ (k - 1) down to 1. -/
def hilbertGo : Nat → Nat → Nat → Nat → Nat
  | 0, _, _, key => key
  | k + 1, x, y, key =>
    let s := 2 ^ k
    let rx := x.testBit k
    let ry := y.testBit k
    let key := key + s * s * hilbertDigit rx ry
    if ry then hilbertGo k x y key
    else if rx then hilbertGo k (2 ^ 31 - 1 - y) (2 ^ 31 - 1 - x) key
    else hilbertGo k y x key

/-- The Hilbert key of bits 30 to 0 of x and y. -/
def hilbertKey (x y : Nat) : Nat := hilbertGo 31 (x % 2 ^ 31) (y % 2 ^ 31) 0

/-- SFCKEY of a curve. -/
def curveKey (hilbert : Bool) (x y z : Nat) : Nat := if hilbert then hilbertKey x y else mortonKey x y z

def fmtSfckey (_ : KHdr) (w : Full) : Fmt :=
  { d := fVW, a := fV, b := fV, c := if xb w 0 then fNo else fV, xs := [xBit 0] }

def execSfckey (w : Full) (s : State) : Res :=
  s.word w fmtSfckey (fun x => [x.pt x.w.a false 8, x.pt (opB x.w) false 8] ++ if xb w 0 then [] else [x.pt (opC x.w) false 8]) fun x =>
    x.fixed (x.map w.d true false fun l => (curveKey (xb w 0) (x.ra false l) (x.rb false l) (x.rc false l), false, 0))

/-! ## REPART at issue (R426, R435, R452) -/

def fmtRepart (_ : KHdr) (_ : Full) : Fmt := { a := fS, xs := [xFld 0 4 fun _ => true] }

/-- The record addresses of a column's REPART words since dispatch. -/
def State.repList (s : State) (ctx col : Nat) : List DWord := tabGet s.repAddrs (ctx * nCols + col)

def execRepart (w : Full) (s : State) : Res :=
  s.word w fmtRepart (fun x => [x.ptAddr x.w.a true x.targetA]) fun x =>
    let h := xf w 3 0
    let a := x.targetA 0
    if x.en = 0 then .go x.s none false
    else if x.s.handleState x.col h ≠ 0 then x.trap2 0 16
    else
      match firstOf [x.check184 x.targetA, x.checkAlign x.targetA 64] with
      | some e => e
      | none =>
        let ctx := x.s.ctxOf x.col
        let addr := if isSelfAlias a.toNat then BitVec.ofNat 64 (Config.package.toNat * 2 ^ 52 + x.col * 2 ^ 36 + a.toNat % 2 ^ 36) else a
        let l := x.s.repList ctx x.col
        let m : RepMem := { (default : RepMem) with col := x.col, handle := h, lanes := x.en, bound := x.s.nextTag }
        let s := { x.takeHandle h with repAddrs := tabSet x.s.repAddrs (ctx * nCols + x.col) (l ++ [addr]) }
        .go (s.newOp ctx (.rep { (default : RepOp) with addr := addr, n := l.length, mems := [m] })) none false

/-! ## The record (R435) -/

structure RepRec where
  ins : Nat
  outs : Nat
  cap : Nat
  incnt : Nat
  outcnt : Nat
  es : Nat
  load : Nat
  x : Nat
  y : Nat
  z : Nat
  curve : Nat
  deriving DecidableEq, Repr, Inhabited

def repRecOf (r : Rec64) : RepRec where
  ins := fieldNat r 511 448
  outs := fieldNat r 447 384
  cap := fieldNat r 383 352
  incnt := fieldNat r 351 320
  outcnt := fieldNat r 319 288
  es := fieldNat r 284 280
  load := fieldNat r 271 264
  x := fieldNat r 263 256
  y := fieldNat r 255 248
  z := fieldNat r 247 240
  curve := fieldNat r 239 236

/-- Whether a surface is of the form that a repartition takes, for elements of ES × 16 bytes. -/
def repSurfOk (f : Surf) (es : Nat) : Bool :=
  f.ty == 13 && f.nd == 1 && f.ddim == 0 && f.dist == 0 && f.str.getD 0 0 == 4 && decide (f.ext.getD 0 0 % (f.ncol * 4 * es) = 0)

/-- The elements a member's region of a surface holds. -/
def repCap (f : Surf) (es : Nat) : Nat := f.ext.getD 0 0 / (f.ncol * 4 * es)

/-- Whether the record and its surfaces obey R435 and R180. -/
def repOk (r i o : Rec64) : Bool :=
  let p := repRecOf r
  let f := surfOf i
  let g := surfOf o
  let offs := [p.load, p.x, p.y] ++ if p.curve = 0 then [p.z] else []
  fieldNat r 15 0 == 0x5A52 && fieldNat r 235 16 == 0 && fieldNat r 279 272 == 0 && fieldNat r 287 285 == 0
    && decide (1 ≤ p.es) && decide (p.es ≤ 16) && decide (p.curve < 2) && (p.curve == 0 || p.z == 0)
    && p.incnt % 4 == 0 && p.outcnt % 4 == 0 && offs.all (fun a => a % 4 == 0 && decide (a < 16 * p.es))
    && surfOk i && surfOk o && repSurfOk f p.es && repSurfOk g p.es
    && f.bcol == g.bcol && (f.cstr == g.cstr || f.ncol == 1) && f.ncol == g.ncol && decide (p.cap ≤ repCap g p.es)

/-! ## Orders 1 to 3 of R468, at each issuing column -/

/-- What reading the record and its surfaces gives: a fault, or the code of order 1 or 2 (0: in order) with the three records. -/
inductive RepGot where
  | fault (col off : Nat)
  | got (code : Nat) (r i o : Rec64)
  deriving DecidableEq, Repr, Inhabited

/-- The code of a failed access, and 8 for poison. -/
def repCode (a : Acq (Rec64 × Bool)) : Nat :=
  match a with
  | .fail w => clctCode (failCode w)
  | .ok (_, q) => if q then 8 else 0
  | .fault _ _ => 0

/-- Of two codes of one order, the one tested first: 4, then 3, then 8. -/
def repFirst (a b : Nat) : Nat :=
  if a = 4 ∨ b = 4 then 4 else if a = 3 ∨ b = 3 then 3 else max a b

/-- Reads the record and its two surface records. A surface address that is not aligned breaks order 2. -/
def State.repRead (s : State) (ctx addr : Nat) : State × RepGot :=
  match s.eRecord ctx 0 addr with
  | (s, .fault c o) => (s, .fault c o)
  | (s, .ok (r, false)) =>
    let self := addrPkg addr * nCols + addrCol addr
    let p := repRecOf r
    let get (s : State) (a : Nat) : State × Acq (Rec64 × Bool) := if a % 64 ≠ 0 then (s, .ok (0, false)) else s.eRecord ctx self a
    let (s, i) := get s p.ins
    let (s, o) := get s p.outs
    match i, o with
    | .fault c a, _ => (s, .fault c a)
    | _, .fault c a => (s, .fault c a)
    | .ok (i, false), .ok (o, false) => (s, .got (if repOk r i o then 0 else 2) r i o)
    | i, o => (s, .got (repFirst (repCode i) (repCode o)) 0 0 0)
  | (s, a) => (s, .got (repCode a) 0 0 0)

/-- The columns a record names. -/
def repMembers (i : Rec64) : List Nat := (List.range (surfOf i).ncol).map (surfOf i).gcol

/-- The checks of one issuing column: its REPART ends with a code, or it joins the operation of its record. -/
def State.repOpen (s : State) (id : Nat) (e : EngOp) (o : RepOp) (m : RepMem) : State :=
  match s.repRead e.ctx o.addr.toNat with
  | (s, .fault c a) => s.suspend id c a .read
  | (s, .got code r i out) =>
    let ms := repMembers i
    let code := if code ≠ 0 then code else if (ms.contains (globalOf m.col)) then 0 else 6
    if code ≠ 0 then (s.endHandles [(m.col, m.handle)] code).setOp id none
    else
      let other := s.ops.findSome? fun x => match x.2 with
        | some ⟨q, c, u, .rep p⟩ =>
          if c = e.ctx ∧ p.addr = o.addr ∧ p.n = o.n ∧ p.members.contains (globalOf m.col) ∧ p.moved = false then some (x.1, EngOp.mk q c u (.rep p), p) else none
        | _ => none
      match other with
      | some (j, g, p) => (s.setOp j (some { g with body := .rep { p with mems := p.mems ++ [m] } })).setOp id none
      | none => s.setOp id (some { e with body := .rep { o with record := r, ins := i, outs := out, members := ms } })

/-! ## Orders 4 to 7 -/

/-- The columns of this module among the members. -/
def RepOp.locals (o : RepOp) : List Nat := (o.members.filter fun g => pkgOf g == Config.package.toNat).map (· % nCols)

/-- Whether two byte ranges meet. -/
def rangeHit (a b : Nat × Nat) : Bool := decide (0 < a.2) && decide (0 < b.2) && decide (a.1 < b.1 + b.2) && decide (b.1 < a.1 + a.2)

/-- The regions and count words of every member: offset and bytes. -/
def RepOp.inR (o : RepOp) : Nat × Nat := ((surfOf o.ins).base, 16 * (repRecOf o.record).es * repCap (surfOf o.ins) (repRecOf o.record).es)
def RepOp.outR (o : RepOp) : Nat × Nat := ((surfOf o.outs).base, 16 * (repRecOf o.record).es * repCap (surfOf o.outs) (repRecOf o.record).es)
def RepOp.inC (o : RepOp) : Nat × Nat := ((repRecOf o.record).incnt, 4)
def RepOp.outC (o : RepOp) : Nat × Nat := ((repRecOf o.record).outcnt, 4)

/-- Order 5. -/
def RepOp.overlaps (o : RepOp) : Bool :=
  rangeHit o.inR o.outR || rangeHit o.inR o.inC || rangeHit o.inR o.outC || rangeHit o.outR o.inC || rangeHit o.outR o.outC
    || rangeHit o.inC o.outC

/-- What the accesses of one member meet: its regions and counts, word by word. -/
def State.scanMember (s : State) (ctx : Nat) (o : RepOp) (g : Nat) : Scan :=
  let words (r : Nat × Nat) (a : Scan) (accs : List Acc) : Scan :=
    (List.range (r.2 / 4)).foldl (fun a i => accs.foldl (fun a k => a.and (s.eCheck ctx (.mem g (r.1 + 4 * i)) 4 k) k) a) a
  let a := words o.inC .ok [.read, .write]
  let a := words o.outC a [.read, .write]
  words o.outR (words o.inR a [.read, .write]) [.write]

/-- A count word: its value and poison. -/
def State.repCount (s : State) (ctx g : Nat) (r : Nat × Nat) : State × Nat × Bool := s.eGet ctx (.mem g r.1) 4

/-! ## The move (R436) -/

/-- An element: key, load, source rank and index, its words with their poison. -/
structure RepEl where
  key : Nat
  load : Nat
  rank : Nat
  ix : Nat
  ws : List (Nat × Bool)
  deriving DecidableEq, Repr, Inhabited

/-- The key and load of an element: a poisoned coordinate or load word gives the largest key and no load. -/
def repEl (p : RepRec) (rank ix : Nat) (ws : List (Nat × Bool)) : RepEl :=
  let at0 (off : Nat) : Nat × Bool := ws.getD (off / 4) (0, false)
  let used := [at0 p.x, at0 p.y, at0 p.load] ++ if p.curve = 0 then [at0 p.z] else []
  if used.any (·.2) then ⟨2 ^ 64 - 1, 0, rank, ix, ws⟩
  else ⟨curveKey (p.curve == 1) (at0 p.x).1 (at0 p.y).1 (at0 p.z).1, (at0 p.load).1, rank, ix, ws⟩

/-- Reads the elements of a region. -/
def State.repElems (s : State) (ctx : Nat) (o : RepOp) (rank n : Nat) : State × List RepEl :=
  let p := repRecOf o.record
  (List.range n).foldl (fun (r : State × List RepEl) k =>
    let (s, ws) := (List.range (4 * p.es)).foldl (fun (t : State × List (Nat × Bool)) j =>
      let (s, v, q) := t.1.eGet ctx (.mem (o.members.getD rank 0) (o.inR.1 + 16 * p.es * k + 4 * j)) 4
      (s, t.2 ++ [(v, q)])) (r.1, [])
    (s, r.2 ++ [repEl p rank k ws])) (s, [])

/-- Ascending key, then source column, then source index. -/
def RepEl.le (a b : RepEl) : Bool :=
  decide (a.key < b.key) || (a.key == b.key && (decide (a.rank < b.rank) || (a.rank == b.rank && decide (a.ix ≤ b.ix))))

/-- Inserts an element into a sorted list. -/
def repInsert (e : RepEl) : List RepEl → List RepEl
  | [] => [e]
  | x :: xs => if e.le x then e :: x :: xs else x :: repInsert e xs

def repSort (l : List RepEl) : List RepEl := l.foldr repInsert []

/-- The loads that count: every element counts as 1 where all loads are 0. -/
def repLoads (l : List RepEl) : List RepEl :=
  if l.all fun e => e.load == 0 then l.map fun e => { e with load := 1 } else l

/-- P(K): the load of the keys up to K. -/
def repP (l : List RepEl) (k : Nat) : Nat := l.foldl (fun n e => if e.key ≤ k then n + e.load else n) 0

/-- Splitter d of a sorted list: the smallest key K with N · P(K) at least (d + 1) · L. -/
def splitter (l : List RepEl) (N d : Nat) : Nat :=
  let total := l.foldl (fun n e => n + e.load) 0
  ((l.find? fun e => decide ((d + 1) * total ≤ N * repP l e.key)).map (·.key)).getD 0

/-- The receiver of a key. -/
def receiver (sps : List Nat) (key : Nat) : Nat := sps.findIdx fun sp => decide (key ≤ sp)

/-- The writes of some elements from index k of a region on, line by line. -/
def repWrites (g base es : Nat) (k : Nat) (els : List RepEl) : List (ELoc × List Byte × Bool) :=
  els.zipIdx.flatMap fun (e, i) =>
    let at0 := base + 16 * es * (k + i)
    (List.range (4 * es)).map fun j =>
      let w := e.ws.getD j (0, false)
      (ELoc.mem g (at0 + 4 * j), bytesOf 4 w.1, w.2)

/-- What a repartition gives at the member of rank d: the elements it accepts, then those it retains. -/
structure RepPlan where
  take : List RepEl
  keep : List RepEl
  deriving DecidableEq, Repr, Inhabited

/-- The plan of every member, from the elements and the output counts. -/
def repPlan (N cap : Nat) (els : List RepEl) (counts : List Nat) : List RepPlan :=
  let sorted := repSort (repLoads els)
  let sps := (List.range (N - 1)).map (splitter sorted N)
  let takes := (List.range N).map fun d => (sorted.filter fun e => receiver sps e.key == d).take (cap - counts.getD d 0)
  let taken (e : RepEl) : Bool := (takes.getD (receiver sps e.key) []).any fun t => t.rank == e.rank && t.ix == e.ix
  (List.range N).map fun d => ⟨takes.getD d [], els.filter fun e => e.rank == d && !taken e⟩

/-- Carries out a repartition: elements to their receivers, the retained ones to the start of their input regions, and both counts. -/
def State.repMove (s : State) (ctx : Nat) (o : RepOp) (ins outs : List Nat) : State × RepOp :=
  let p := repRecOf o.record
  let N := o.members.length
  let (s, els) := (List.range N).foldl (fun (r : State × List RepEl) d =>
    let (s, l) := r.1.repElems ctx o d (ins.getD d 0)
    (s, r.2 ++ l)) (s, [])
  let plan := repPlan N p.cap els outs
  let s := (List.range N).foldl (fun s d =>
    let g := o.members.getD d 0
    let q := plan.getD d default
    let c := outs.getD d 0
    let s := s.eWriteAll ctx (repWrites g o.outR.1 p.es c q.take)
    let s := s.eWriteAll ctx (repWrites g o.inR.1 p.es 0 q.keep)
    let s := s.ePut ctx (.mem g o.outC.1) 4 (c + q.take.length) false
    s.ePut ctx (.mem g o.inC.1) 4 q.keep.length false) s
  let mems := o.mems.map fun m =>
    let q := plan.getD (o.members.findIdx (· == globalOf m.col)) default
    { m with recv := q.take.length, kept := q.keep.length }
  (s, { o with moved := true, mems := mems })

/-- The address that a member names in its n-th REPART, none before it: one that has joined names this record's; another module's as the outside has
it (log entry 67). -/
def State.repNamed (s : State) (ctx : Nat) (o : RepOp) (g : Nat) : Option DWord :=
  if pkgOf g ≠ Config.package.toNat then Config.foreignRepart s.tick g o.n
  else if o.mems.any fun m => m.col == g % nCols then some o.addr
  else (s.repList ctx (g % nCols))[o.n]?

/-- Every member gets a code: its own, or the one that is tested first. -/
def RepOp.fail (o : RepOp) (own : Nat → Nat) (code : Nat) : RepOp :=
  { o with moved := true, mems := o.mems.map fun m => { m with code := if own m.col = 0 then code else own m.col } }

/-- Orders 4 to 7, then the move. -/
def State.repRun (s : State) (id : Nat) (e : EngOp) (o : RepOp) : State :=
  let put (s : State) (o : RepOp) : State := s.setOp id (some { e with body := .rep o })
  let none' (_ : Nat) : Nat := 0
  if o.members.any fun g => s.repNamed e.ctx o g != some o.addr then put s (o.fail none' 1)
  else if o.overlaps then put s (o.fail none' 5)
  else
    let scans := o.members.map fun g => (g, s.scanMember e.ctx o g)
    match scans.findSome? fun x => match x.2 with
      | .fault c a k => some (c, a, k)
      | _ => none with
    | some (c, a, k) => s.suspend id c a k
    | none =>
      let ok : List Nat := (scans.filter fun x => x.2 == Scan.ok).map fun x => x.1
      let (s, cnt) := o.members.foldl (fun (r : State × List (Nat × Bool × Nat × Bool)) g =>
        if ok.contains g then
          let (s, a, qa) := r.1.repCount e.ctx g o.inC
          let (s, b, qb) := s.repCount e.ctx g o.outC
          (s, r.2 ++ [(a, qa, b, qb)])
        else (r.1, r.2 ++ [(0, false, 0, false)])) (s, [])
      let codes : List (Nat × Nat) := (scans.zip cnt).map fun x => (x.1.1, match x.1.2 with
        | .code n => clctCode n
        | _ => if x.2.2.1 || x.2.2.2.2 then 8 else 0)
      let own (c : Nat) : Nat := ((codes.find? fun x => x.1 == globalOf c).map (·.2)).getD 0
      let worst := codes.foldl (fun a x => repFirst a x.2) 0
      if worst ≠ 0 then put s (o.fail own worst)
      else
        let f := surfOf o.ins
        let p := repRecOf o.record
        if cnt.any fun x => decide (repCap f p.es < x.1) || decide (p.cap < x.2.2.1) then put s (o.fail none' 7)
        else
          let r := s.repMove e.ctx o (cnt.map (·.1)) (cnt.map fun x => x.2.2.1)
          put r.1 r.2

/-- Whether every member has issued its n-th REPART, and all of this module have joined or one names another record. -/
def State.repReady (s : State) (ctx : Nat) (o : RepOp) : Bool :=
  o.members.all (fun g => (s.repNamed ctx o g).isSome)
    && (o.members.any (fun g => s.repNamed ctx o g != some o.addr) || o.locals.all fun c => o.mems.any fun m => m.col == c)

/-- REPART_MOVE (R436, R468): an issuing column's own checks; then, once every member has issued, the checks of all members and the
move. -/
def execRepartMove (op : Nat) (s : State) : Res :=
  match s.op op with
  | some ⟨sq, ctx, false, .rep o⟩ =>
    let e : EngOp := ⟨sq, ctx, false, .rep o⟩
    if o.moved then notNow "REPART_MOVE"
    else if o.members = [] then
      match o.mems with
      | m :: _ => if s.forkDone m.col m.lanes m.bound then .next (s.repOpen op e o m) else notNow "REPART_MOVE"
      | [] => notNow "REPART_MOVE"
    else if s.repReady ctx o then .next (s.repRun op e o)
    else notNow "REPART_MOVE"
  | _ => notNow "REPART_MOVE"

/-- REPART_COMPLETION (R426, R436): the status word at every member. -/
def execRepartCompletion (op : Nat) (s : State) : Res :=
  match s.op op with
  | some ⟨_, _, false, .rep o⟩ =>
    if !o.moved then notNow "REPART_COMPLETION"
    else .next ((o.mems.foldl (fun s m => s.setHandle m.col m.handle
      (if m.code = 0 then statusWord 2 0 m.kept m.recv else statusWord 4 m.code 0 0)) s).setOp op none)
  | _ => notNow "REPART_COMPLETION"

end Sys2Proof.Machine
end

