-- ==== Sys2Proof/Machine/Turn.lean ====
section
/-!
DEFINITION. The turns of a host and its guest (R117, R159, R423).
-/

namespace Sys2Proof.Machine

/-- A column stops at a word boundary of every split for a turn: no event, no effect but that runs in progress end. -/
def Column.pause (c : Column) : Column :=
  slots4.foldl (fun c k =>
    if (c.slot k).cond = .issuing then c.modSlot k fun sp => { sp with cond := c.restCond sp.lanes, runLen := 0, pend := [] }
    else c) c

/-- The groups on a core, by their lowest column there. -/
def State.coreGroups (s : State) (core : Nat) : List Nat :=
  ((List.range 8).filterMap fun i => (tabGet s.cols (8 * core + i)).map (·.group)).eraseDups

/-- The accumulator count of a group. -/
def State.groupNa (s : State) (gid : Nat) : Nat := ((s.group gid).getD default).hdr.na

/-- The record of a task (R176). -/
def taskBits (rc : Bool) (m : MintOp) : Nat := match m.act with
  | .task op povr ks wrec wph _ _ tag _ _ _ =>
    at_ tag.toNat 64 + (if rc then 2 ^ 52 else 0) + at_ wph 48 + at_ wrec 32 + at_ ks 21 + at_ povr 16 + at_ m.bReg 12 + at_ m.aReg 8
      + at_ m.acc 4 + op
  | _ => 0

/-- The accumulator store of a core, group after group, with the poison of its words beside it (R154). -/
def State.saveAccs (s : State) (ctx core : Nat) : State :=
  let o := s.saveoff ctx + 960 * 1024
  let ws := (s.coreGroups core).flatMap fun g => (List.range (s.groupNa g)).flatMap fun a =>
    accElems.map fun (e : Nat × Nat) => s.accGet g core a e.1 e.2
  let s := s.tierBytes (8 * core) o (ws.flatMap fun w => bytesOf 4 w.1.toNat)
  (List.range ws.length).foldl (fun (s : State) i =>
    { s with imgPois := tabSet s.imgPois ((s.place (8 * core) true (o + 4 * i)).addr / 4) (ws.getD i (0, false)).2 }) s

/-- What a core fold's turn writes of the leaving logical core besides its columns: window, accumulator store, waiting tasks in window order, and
completion queues, in the region of its column 0 (R159). Groups follow each other by their lowest column (log entry 58). -/
def State.saveCore (s : State) (ctx core : Nat) : State :=
  let tasks := (tabGet s.mintq core).filter fun m => m.isTask && !m.done
  let s := (s.saveWindow ctx core).saveAccs ctx core
  s.tierBytes (8 * core) (s.saveoff ctx + 992 * 1024)
    (tasks.flatMap (fun m => bytesOf 16 (taskBits ((s.group m.group).getD default).hdr.recomp m))
      ++ (s.coreGroups core).flatMap fun g => (tabGet s.compq (compKey g core)).flatMap fun (tag : DWord) => bytesOf 8 tag.toNat)

/-- The leaving logical column of a turn: its image is written, its runs stop. -/
def State.leaveTurn (s : State) (col : Nat) : State :=
  if (tabGet s.cols col).isNone then s
  else
    let s := s.modCol col Column.pause
    let clr (x : Option (Nat × Nat)) : Option (Nat × Nat) := match x with
      | some (c, j) => if c = col then none else some (c, j)
      | none => none
    let s := { s with run := clr s.run, cores := tabMod s.cores (coreOf col) fun r => { r with curA := clr r.curA, curB := clr r.curB } }
    s.saveColumn (s.ctxOf col) col (s.hdr col) 3

/-- Words of an image that lie in poisoned lines come back poisoned, with value 0 (R35, R456). -/
def State.imageErrors (s : State) (col off core byteAddr n : Nat) : State :=
  let s := s.touchTier col off (4 * n)
  ((List.range n).filter fun i => s.tierPois col (off + 4 * i)).foldl
    (fun (s : State) i => s.spadSet core (byteAddr + 4 * i) 0 true) s

/-- Whether a mint queue entry is a task that has started and not completed. -/
def MintOp.running (m : MintOp) : Bool := match m.act with
  | .task _ _ _ _ _ _ _ _ _ started finished => started && !finished
  | _ => false

/-- The logical column that a turn restores. The model has kept its record, so of the image it takes back what an error of the array has
changed: the registers and slice words of lines found poisoned (log entry 58). -/
def State.enterTurn (s : State) (col : Nat) : State :=
  if (tabGet s.cols col).isNone then s
  else
    let h := s.hdr col
    let o := s.saveoff (s.ctxOf col)
    let s := s.touchTier col o (2 ^ 16)
    let b := 8 * h.ns
    let d := o + 640 + b + 32 * h.nt
    let bad (n : Nat) : Bool := n != 0 && s.tierPois col (o + 320 + 8 * n)
    let f (c : Column) : Column :=
      { c with
        s := ((List.range h.ns).filter bad).foldl (fun t n => tabSet t n 0) c.s
        sp := c.sp ||| (List.range h.ns).foldl (fun (m : DWord) n => setBit m n (bad n)) 0
        pp := (List.range 7).foldl (fun t n => tabMod t (n + 1) (· ||| s.tierMask col (o + 320 + b + 4 * (n + 1)))) c.pp
        vp := (List.range h.nv).foldl (fun t n => tabMod t n (· ||| maskWhere fun l => s.tierPois col (d + 4 * h.nv + 128 * n + 4 * l))) c.vp }
    let s := s.modCol col f
    let r := s.region col false
    s.imageErrors col (o + 2 ^ 16) (coreOf col) r.1 (r.2 / 4)

/-- A word of the accumulator store image as it comes back: (group, accumulator, row, column) of the words in poisoned lines. -/
def State.badAccs (s : State) (ctx core : Nat) : List (Nat × Nat × Nat × Nat) :=
  let o := s.saveoff ctx + 960 * 1024
  let ks := (s.coreGroups core).flatMap fun g => (List.range (s.groupNa g)).flatMap fun a =>
    accElems.map fun (e : Nat × Nat) => (g, a, e.1, e.2)
  (List.range ks.length).filterMap fun i => if s.tierPois (8 * core) (o + 4 * i) then ks[i]? else none

/-- What a core fold's turn takes back of its image besides the columns: the words of window and accumulators found poisoned. -/
def State.enterCore (s : State) (ctx core : Nat) : State :=
  let s := s.imageErrors (8 * core) (s.saveoff ctx + 192 * 1024) core 0 (winBytes (s.core core).win / 4)
  let s := s.touchTier (8 * core) (s.saveoff ctx + 960 * 1024) (32 * 1024)
  (s.badAccs ctx core).foldl (fun (s : State) k => s.accSet k.1 core k.2.1 k.2.2.1 k.2.2.2 0 true) s

/-- The host columns that change turns together: one, or the eight of a core fold. -/
def State.turnSet (s : State) (host : Nat) : List Nat :=
  if (s.fold (s.fold host).host).fold = 3 then
    ((List.range 8).map fun i => host / 8 * 8 + i).filter fun c => (s.fold c).st == 1 && (s.fold (s.fold c).host).fold == 3
  else [host]

/-- FOLD_TURN (R117, R423): on a column that hosts a guest, once every started task of the columns that leave (of their cores, in a core fold) has
completed. The images of what leaves are written; what enters goes on, its waiting tasks in their order. -/
def execFoldTurn (column : Nat) (s : State) : Res :=
  if (s.fold column).st ≠ 1 ∨ s.boot.st ≠ 5 then notNow "FOLD_TURN"
  else
    let hs := s.turnSet column
    let inCore := (s.fold (s.fold column).host).fold == 3
    let out (h : Nat) : Nat := if tabGet s.foldTurn h then (s.fold h).host else h
    let into (h : Nat) : Nat := if tabGet s.foldTurn h then h else (s.fold h).host
    let leaving := hs.map out
    let cores := (leaving.map coreOf).eraseDups
    if s.mintq.any fun (e : Nat × List MintOp) => cores.contains e.1 && e.2.any fun (m : MintOp) => m.running && (inCore || leaving.contains m.col) then
      notNow "FOLD_TURN"
    else
      let each (cols : List Nat) (f : State → Nat → Nat → State) (s : State) : State :=
        if inCore then (cols.map coreOf).eraseDups.foldl (fun (s : State) c =>
          match cols.find? fun x => coreOf x == c && (tabGet s.cols x).isSome with
          | some x => f s (s.ctxOf x) c
          | none => s) s
        else s
      let s := each leaving State.saveCore s
      let s := hs.foldl (fun (s : State) h =>
        let s := (s.leaveTurn (out h)).enterTurn (into h)
        { s with foldTurn := tabSet s.foldTurn h (!tabGet s.foldTurn h) }) s
      .next (each (hs.map into) State.enterCore s)

end Sys2Proof.Machine
end

