-- ==== Sys2Proof/Machine/Dispatch.lean ====
section
/-!
DEFINITION. The meaning of every instruction: one arm per constructor of `Instr`, one direct call per arm.
-/

namespace Sys2Proof.Machine

def exec (i : Instr) (s : State) : Host.Outcome State Fault Refusal :=
  match i with
  | .hnop marker x y => Sys2Proof.Machine.execHnop marker x y s
  | .halfIadd marker x y => Sys2Proof.Machine.execHalfIadd marker x y s
  | .halfIsub marker x y => Sys2Proof.Machine.execHalfIsub marker x y s
  | .halfAnd marker x y => Sys2Proof.Machine.execHalfAnd marker x y s
  | .halfOr marker x y => Sys2Proof.Machine.execHalfOr marker x y s
  | .halfXor marker x y => Sys2Proof.Machine.execHalfXor marker x y s
  | .halfAndn marker x y => Sys2Proof.Machine.execHalfAndn marker x y s
  | .halfShl marker x y => Sys2Proof.Machine.execHalfShl marker x y s
  | .halfShr marker x y => Sys2Proof.Machine.execHalfShr marker x y s
  | .halfSar marker x y => Sys2Proof.Machine.execHalfSar marker x y s
  | .halfImin marker x y => Sys2Proof.Machine.execHalfImin marker x y s
  | .halfImax marker x y => Sys2Proof.Machine.execHalfImax marker x y s
  | .halfMov marker x y => Sys2Proof.Machine.execHalfMov marker x y s
  | .halfMovi marker x y => Sys2Proof.Machine.execHalfMovi marker x y s
  | .halfFadd marker x y => Sys2Proof.Machine.execHalfFadd marker x y s
  | .halfFsub marker x y => Sys2Proof.Machine.execHalfFsub marker x y s
  | .halfFmul marker x y => Sys2Proof.Machine.execHalfFmul marker x y s
  | .halfFmin marker x y => Sys2Proof.Machine.execHalfFmin marker x y s
  | .halfFmax marker x y => Sys2Proof.Machine.execHalfFmax marker x y s
  | .halfFamax marker x y => Sys2Proof.Machine.execHalfFamax marker x y s
  | .halfPopc marker x y => Sys2Proof.Machine.execHalfPopc marker x y s
  | .halfClz marker x y => Sys2Proof.Machine.execHalfClz marker x y s
  | .halfImul marker x y => Sys2Proof.Machine.execHalfImul marker x y s
  | .nop w => Sys2Proof.Machine.execNop w s
  | .bra w => Sys2Proof.Machine.execBra w s
  | .brx w => Sys2Proof.Machine.execBrx w s
  | .call w => Sys2Proof.Machine.execCall w s
  | .callx w => Sys2Proof.Machine.execCallx w s
  | .ret w => Sys2Proof.Machine.execRet w s
  | .loop w => Sys2Proof.Machine.execLoop w s
  | .jsetMask w => Sys2Proof.Machine.execJsetMask w s
  | .jsetEnabled w => Sys2Proof.Machine.execJsetEnabled w s
  | .join w => Sys2Proof.Machine.execJoin w s
  | .jmov w => Sys2Proof.Machine.execJmov w s
  | .yield w => Sys2Proof.Machine.execYield w s
  | .yieldPool w => Sys2Proof.Machine.execYieldPool w s
  | .nap w => Sys2Proof.Machine.execNap w s
  | .exit w => Sys2Proof.Machine.execExit w s
  | .susp w => Sys2Proof.Machine.execSusp w s
  | .resume w => Sys2Proof.Machine.execResume w s
  | .pinit w => Sys2Proof.Machine.execPinit w s
  | .pwakeRows w => Sys2Proof.Machine.execPwakeRows w s
  | .pwakeField w => Sys2Proof.Machine.execPwakeField w s
  | .pxform w => Sys2Proof.Machine.execPxform w s
  | .pcount w => Sys2Proof.Machine.execPcount w s
  | .pfreeRows w => Sys2Proof.Machine.execPfreeRows w s
  | .pfreeAll w => Sys2Proof.Machine.execPfreeAll w s
  | .pfreeWoken w => Sys2Proof.Machine.execPfreeWoken w s
  | .setrst w => Sys2Proof.Machine.execSetrst w s
  | .setrstClr w => Sys2Proof.Machine.execSetrstClr w s
  | .trap w => Sys2Proof.Machine.execTrap w s
  | .rtrap w => Sys2Proof.Machine.execRtrap w s
  | .rtrapStep w => Sys2Proof.Machine.execRtrapStep w s
  | .bkpt w => Sys2Proof.Machine.execBkpt w s
  | .iadd w => Sys2Proof.Machine.execIadd w s
  | .isub w => Sys2Proof.Machine.execIsub w s
  | .iadd3 w => Sys2Proof.Machine.execIadd3 w s
  | .iaddc w => Sys2Proof.Machine.execIaddc w s
  | .isubb w => Sys2Proof.Machine.execIsubb w s
  | .imul w => Sys2Proof.Machine.execImul w s
  | .imulh w => Sys2Proof.Machine.execImulh w s
  | .imad w => Sys2Proof.Machine.execImad w s
  | .imadw w => Sys2Proof.Machine.execImadw w s
  | .idiv w => Sys2Proof.Machine.execIdiv w s
  | .irem w => Sys2Proof.Machine.execIrem w s
  | .imin w => Sys2Proof.Machine.execImin w s
  | .imax w => Sys2Proof.Machine.execImax w s
  | .iabs w => Sys2Proof.Machine.execIabs w s
  | .idot4 w => Sys2Proof.Machine.execIdot4 w s
  | .and w => Sys2Proof.Machine.execAnd w s
  | .or w => Sys2Proof.Machine.execOr w s
  | .xor w => Sys2Proof.Machine.execXor w s
  | .andn w => Sys2Proof.Machine.execAndn w s
  | .orn w => Sys2Proof.Machine.execOrn w s
  | .shl w => Sys2Proof.Machine.execShl w s
  | .shr w => Sys2Proof.Machine.execShr w s
  | .sar w => Sys2Proof.Machine.execSar w s
  | .rol w => Sys2Proof.Machine.execRol w s
  | .fshl w => Sys2Proof.Machine.execFshl w s
  | .fshr w => Sys2Proof.Machine.execFshr w s
  | .popc w => Sys2Proof.Machine.execPopc w s
  | .clz w => Sys2Proof.Machine.execClz w s
  | .ctz w => Sys2Proof.Machine.execCtz w s
  | .brev w => Sys2Proof.Machine.execBrev w s
  | .bfx w => Sys2Proof.Machine.execBfx w s
  | .bfi w => Sys2Proof.Machine.execBfi w s
  | .prmb w => Sys2Proof.Machine.execPrmb w s
  | .icmp w => Sys2Proof.Machine.execIcmp w s
  | .isel w => Sys2Proof.Machine.execIsel w s
  | .cvti w => Sys2Proof.Machine.execCvti w s
  | .mov w => Sys2Proof.Machine.execMov w s
  | .movi w => Sys2Proof.Machine.execMovi w s
  | .movh w => Sys2Proof.Machine.execMovh w s
  | .mkcol w => Sys2Proof.Machine.execMkcol w s
  | .colof w => Sys2Proof.Machine.execColof w s
  | .offof w => Sys2Proof.Machine.execOffof w s
  | .lea w => Sys2Proof.Machine.execLea w s
  | .pset w => Sys2Proof.Machine.execPset w s
  | .pand w => Sys2Proof.Machine.execPand w s
  | .por w => Sys2Proof.Machine.execPor w s
  | .pxor w => Sys2Proof.Machine.execPxor w s
  | .pnot w => Sys2Proof.Machine.execPnot w s
  | .pmov w => Sys2Proof.Machine.execPmov w s
  | .vote w => Sys2Proof.Machine.execVote w s
  | .shfl w => Sys2Proof.Machine.execShfl w s
  | .redc w => Sys2Proof.Machine.execRedc w s
  | .scanc w => Sys2Proof.Machine.execScanc w s
  | .umov w => Sys2Proof.Machine.execUmov w s
  | .mfsr w => Sys2Proof.Machine.execMfsr w s
  | .mtsr w => Sys2Proof.Machine.execMtsr w s
  | .rdcnt w => Sys2Proof.Machine.execRdcnt w s
  | .fadd w => Sys2Proof.Machine.execFadd w s
  | .fsub w => Sys2Proof.Machine.execFsub w s
  | .fmul w => Sys2Proof.Machine.execFmul w s
  | .ffma w => Sys2Proof.Machine.execFfma w s
  | .fmin w => Sys2Proof.Machine.execFmin w s
  | .fmax w => Sys2Proof.Machine.execFmax w s
  | .famax w => Sys2Proof.Machine.execFamax w s
  | .fdiv w => Sys2Proof.Machine.execFdiv w s
  | .fsqrt w => Sys2Proof.Machine.execFsqrt w s
  | .frcp w => Sys2Proof.Machine.execFrcp w s
  | .frsq w => Sys2Proof.Machine.execFrsq w s
  | .fexp2 w => Sys2Proof.Machine.execFexp2 w s
  | .flog2 w => Sys2Proof.Machine.execFlog2 w s
  | .fsin w => Sys2Proof.Machine.execFsin w s
  | .fcos w => Sys2Proof.Machine.execFcos w s
  | .ftanh w => Sys2Proof.Machine.execFtanh w s
  | .fcmp w => Sys2Proof.Machine.execFcmp w s
  | .fclass w => Sys2Proof.Machine.execFclass w s
  | .frnd w => Sys2Proof.Machine.execFrnd w s
  | .fscl w => Sys2Proof.Machine.execFscl w s
  | .ffrx w => Sys2Proof.Machine.execFfrx w s
  | .f2i w => Sys2Proof.Machine.execF2i w s
  | .i2f w => Sys2Proof.Machine.execI2f w s
  | .fcvt w => Sys2Proof.Machine.execFcvt w s
  | .fpack w => Sys2Proof.Machine.execFpack w s
  | .funpk w => Sys2Proof.Machine.execFunpk w s
  | .fdot2 w => Sys2Proof.Machine.execFdot2 w s
  | .hndec w => Sys2Proof.Machine.execHndec w s
  | .ld w => Sys2Proof.Machine.execLd w s
  | .st w => Sys2Proof.Machine.execSt w s
  | .lds w => Sys2Proof.Machine.execLds w s
  | .sts w => Sys2Proof.Machine.execSts w s
  | .ldw w => Sys2Proof.Machine.execLdw w s
  | .stw w => Sys2Proof.Machine.execStw w s
  | .ldr w => Sys2Proof.Machine.execLdr w s
  | .str w => Sys2Proof.Machine.execStr w s
  | .ldro w => Sys2Proof.Machine.execLdro w s
  | .pref w => Sys2Proof.Machine.execPref w s
  | .copy w => Sys2Proof.Machine.execCopy w s
  | .copym w => Sys2Proof.Machine.execCopym w s
  | .xch w => Sys2Proof.Machine.execXch w s
  | .seal w => Sys2Proof.Machine.execSeal w s
  | .unseal w => Sys2Proof.Machine.execUnseal w s
  | .flush w => Sys2Proof.Machine.execFlush w s
  | .surf w => Sys2Proof.Machine.execSurf w s
  | .atom w => Sys2Proof.Machine.execAtom w s
  | .acas w => Sys2Proof.Machine.execAcas w s
  | .red w => Sys2Proof.Machine.execRed w s
  | .fence w => Sys2Proof.Machine.execFence w s
  | .bar w => Sys2Proof.Machine.execBar w s
  | .bara w => Sys2Proof.Machine.execBara w s
  | .barw w => Sys2Proof.Machine.execBarw w s
  | .bard w => Sys2Proof.Machine.execBard w s
  | .elect w => Sys2Proof.Machine.execElect w s
  | .rinit w => Sys2Proof.Machine.execRinit w s
  | .rarv w => Sys2Proof.Machine.execRarv w s
  | .rxpt w => Sys2Proof.Machine.execRxpt w s
  | .rwait w => Sys2Proof.Machine.execRwait w s
  | .qbind w => Sys2Proof.Machine.execQbind w s
  | .qpush w => Sys2Proof.Machine.execQpush w s
  | .qpop w => Sys2Proof.Machine.execQpop w s
  | .qstat w => Sys2Proof.Machine.execQstat w s
  | .submit w => Sys2Proof.Machine.execSubmit w s
  | .semsg w => Sys2Proof.Machine.execSemsg w s
  | .tdesc w => Sys2Proof.Machine.execTdesc w s
  | .tfill w => Sys2Proof.Machine.execTfill w s
  | .tstore w => Sys2Proof.Machine.execTstore w s
  | .tzero w => Sys2Proof.Machine.execTzero w s
  | .mma w => Sys2Proof.Machine.execMma w s
  | .aclr w => Sys2Proof.Machine.execAclr w s
  | .adrain w => Sys2Proof.Machine.execAdrain w s
  | .aspill w => Sys2Proof.Machine.execAspill w s
  | .aload w => Sys2Proof.Machine.execAload w s
  | .mwait w => Sys2Proof.Machine.execMwait w s
  | .clctP2p w => Sys2Proof.Machine.execClctP2p w s
  | .clctGroup w => Sys2Proof.Machine.execClctGroup w s
  | .clctRec w => Sys2Proof.Machine.execClctRec w s
  | .repart w => Sys2Proof.Machine.execRepart w s
  | .sfckey w => Sys2Proof.Machine.execSfckey w s
  | .cstat w => Sys2Proof.Machine.execCstat w s
  | .unassignedOpcodeWord word => Sys2Proof.Machine.execUnassignedOpcodeWord word s
  | .windowBRead link off len => Sys2Proof.Machine.execWindowBRead link off len s
  | .windowBWrite link off bytes => Sys2Proof.Machine.execWindowBWrite link off bytes s
  | .evqHeadWrite value => Sys2Proof.Machine.execEvqHeadWrite value s
  | .contextTableWrite entry value => Sys2Proof.Machine.execContextTableWrite entry value s
  | .registerWrite off value => Sys2Proof.Machine.execRegisterWrite off value s
  | .submitLaunchRecord link port w => Sys2Proof.Machine.execSubmitLaunchRecord link port w s
  | .submitCollectiveRecord link w => Sys2Proof.Machine.execSubmitCollectiveRecord link w s
  | .submitManagementRecord link w => Sys2Proof.Machine.execSubmitManagementRecord link w s
  | .postedWriteToPort link port => Sys2Proof.Machine.execPostedWriteToPort link port s
  | .operatingPointChangeDone cluster => Sys2Proof.Machine.execOperatingPointChangeDone cluster s
  | .clusterClockGate cluster => Sys2Proof.Machine.execClusterClockGate cluster s
  | .clusterWake cause => Sys2Proof.Machine.execClusterWake cause s
  | .vaultWriteBack block => Sys2Proof.Machine.execVaultWriteBack block s
  | .ldrRequest p => Sys2Proof.Machine.execLdrRequest p s
  | .readReply p => Sys2Proof.Machine.execReadReply p s
  | .strWrite p => Sys2Proof.Machine.execStrWrite p s
  | .writeAcknowledgement p => Sys2Proof.Machine.execWriteAcknowledgement p s
  | .ldroRequest p => Sys2Proof.Machine.execLdroRequest p s
  | .tellerData move => Sys2Proof.Machine.execTellerData move s
  | .tellerAcknowledgement p => Sys2Proof.Machine.execTellerAcknowledgement p s
  | .replicaInvalidate op what => Sys2Proof.Machine.execReplicaInvalidate op what s
  | .invalidateAcknowledgement op cluster => Sys2Proof.Machine.execInvalidateAcknowledgement op cluster s
  | .atomicRequest p => Sys2Proof.Machine.execAtomicRequest p s
  | .atomicReply p => Sys2Proof.Machine.execAtomicReply p s
  | .redRequest p => Sys2Proof.Machine.execRedRequest p s
  | .semsgPacket p => Sys2Proof.Machine.execSemsgPacket p s
  | .message p => Sys2Proof.Machine.execMessage p s
  | .messageAccepted p => Sys2Proof.Machine.execMessageAccepted p s
  | .messageBounced p => Sys2Proof.Machine.execMessageBounced p s
  | .messageResend column queue => Sys2Proof.Machine.execMessageResend column queue s
  | .launchStart ctx queue => Sys2Proof.Machine.execLaunchStart ctx queue s
  | .groupDispatch core => Sys2Proof.Machine.execGroupDispatch core s
  | .groupFinish group => Sys2Proof.Machine.execGroupFinish group s
  | .groupRetirement group => Sys2Proof.Machine.execGroupRetirement group s
  | .translationFaultRewalk entry => Sys2Proof.Machine.execTranslationFaultRewalk entry s
  | .foldTurn column => Sys2Proof.Machine.execFoldTurn column s
  | .trapEntry column slot => Sys2Proof.Machine.execTrapEntry column slot s
  | .resultWriteback column result => Sys2Proof.Machine.execResultWriteback column result s
  | .napExpiry column slot => Sys2Proof.Machine.execNapExpiry column slot s
  | .copyCompletion op => Sys2Proof.Machine.execCopyCompletion op s
  | .tfillCompletion op => Sys2Proof.Machine.execTfillCompletion op s
  | .tstoreCompletion op => Sys2Proof.Machine.execTstoreCompletion op s
  | .mintTaskStart core task => Sys2Proof.Machine.execMintTaskStart core task s
  | .mintTaskCompletion core task => Sys2Proof.Machine.execMintTaskCompletion core task s
  | .sealCompletion op => Sys2Proof.Machine.execSealCompletion op s
  | .flushCompletion op => Sys2Proof.Machine.execFlushCompletion op s
  | .collectiveCompletion op => Sys2Proof.Machine.execCollectiveCompletion op s
  | .repartMove op => Sys2Proof.Machine.execRepartMove op s
  | .repartCompletion op => Sys2Proof.Machine.execRepartCompletion op s
  | .replicaEviction cluster line => Sys2Proof.Machine.execReplicaEviction cluster line s
  | .tzeroCompletion op => Sys2Proof.Machine.execTzeroCompletion op s
  | .perst1NReset asserted => Sys2Proof.Machine.execPerst1NReset asserted s
  | .linkTraining link outcome => Sys2Proof.Machine.execLinkTraining link outcome s
  | .stagingWrite off bytes => Sys2Proof.Machine.execStagingWrite off bytes s
  | .spdmGetCertificate slot => Sys2Proof.Machine.execSpdmGetCertificate slot s
  | .spdmChallenge nonce => Sys2Proof.Machine.execSpdmChallenge nonce s
  | .spdmGetMeasurements index => Sys2Proof.Machine.execSpdmGetMeasurements index s
  | .boardPowerLimitRequest watts => Sys2Proof.Machine.execBoardPowerLimitRequest watts s
  | .powerMeasurement watts => Sys2Proof.Machine.execPowerMeasurement watts s
  | .thermalThrottle sensor reading => Sys2Proof.Machine.execThermalThrottle sensor reading s
  | .thermalEvent sensor reading => Sys2Proof.Machine.execThermalEvent sensor reading s
  | .thermalTrip sensor reading => Sys2Proof.Machine.execThermalTrip sensor reading s
  | .heartbeatPoll cluster answered => Sys2Proof.Machine.execHeartbeatPoll cluster answered s
  | .selfRefreshEntry channel => Sys2Proof.Machine.execSelfRefreshEntry channel s
  | .selfRefreshExit channel => Sys2Proof.Machine.execSelfRefreshExit channel s
  | .patrolRead line => Sys2Proof.Machine.execPatrolRead line s
  | .portDown port => Sys2Proof.Machine.execPortDown port s
  | .linkDown link => Sys2Proof.Machine.execLinkDown link s
  | .fabricHeaderDiscard p => Sys2Proof.Machine.execFabricHeaderDiscard p s
  | .logicCheckerError column coreShared => Sys2Proof.Machine.execLogicCheckerError column coreShared s
  | .sliceFailure cause => Sys2Proof.Machine.execSliceFailure cause s
  | .secondTierChannelDown channel => Sys2Proof.Machine.execSecondTierChannelDown channel s
  | .watchdogExpiry column => Sys2Proof.Machine.execWatchdogExpiry column s
  | .corruptedFlitRetry flit => Sys2Proof.Machine.execCorruptedFlitRetry flit s
  | .powerUp => Sys2Proof.Machine.execPowerUp s
  | .pwrGoodDeassert => Sys2Proof.Machine.execPwrGoodDeassert s
  | .perst0NAssert => Sys2Proof.Machine.execPerst0NAssert s
  | .perst0NDeassert => Sys2Proof.Machine.execPerst0NDeassert s
  | .bootRomReady => Sys2Proof.Machine.execBootRomReady s
  | .verifyAndStartJasper => Sys2Proof.Machine.execVerifyAndStartJasper s
  | .verifyAndLoadMicrocode => Sys2Proof.Machine.execVerifyAndLoadMicrocode s
  | .memoryTrainingDone => Sys2Proof.Machine.execMemoryTrainingDone s
  | .microcodeLoadDone => Sys2Proof.Machine.execMicrocodeLoadDone s
  | .switchContext => Sys2Proof.Machine.execSwitchContext s
  | .preemptionSecondPass => Sys2Proof.Machine.execPreemptionSecondPass s
  | .switchContextComplete => Sys2Proof.Machine.execSwitchContextComplete s
  | .setPowerLimit => Sys2Proof.Machine.execSetPowerLimit s
  | .signalSemaphore => Sys2Proof.Machine.execSignalSemaphore s
  | .abortContext => Sys2Proof.Machine.execAbortContext s
  | .contain => Sys2Proof.Machine.execContain s
  | .foldAndRemap => Sys2Proof.Machine.execFoldAndRemap s
  | .instructionFetchFault => Sys2Proof.Machine.execInstructionFetchFault s

end Sys2Proof.Machine
end

