-- ==== Sys2Proof/Machine/Issue.lean ====
section
/-!
DEFINITION. What happens next: the word of the split that is issuing, the selection of a run by a pipe (R136 to R150), and the steps that
the machine takes by itself when nothing outside orders another.
-/

namespace Sys2Proof.Machine

/-! ## Errors in registers and scratchpad (R108) -/

/-- An uncorrectable word of a register is poisoned: specifier and lane. -/
def Column.poisonReg (c : Column) (spec lane : Nat) : Column :=
  if spec < 0x80 then { c with vp := tabMod c.vp spec fun m => setBit m lane true }
  else if spec < 0xC0 then { c with sp := if spec = 0x80 then c.sp else setBit c.sp (spec - 0x80) true }
  else if spec = 0xC0 then c
  else { c with pp := tabMod c.pp (spec - 0xC0) fun m => setBit m lane true }

/-- The words that an issue of a column finds in error: corrected ones are rewritten, the others are poisoned, with an event. -/
def State.scrub (s : State) (col : Nat) : State :=
  let us := (s.col col).upsets
  let s := if us = [] then s
    else
      let s := us.foldl (fun s u =>
        if u.2.2 then s else (s.modCol col fun c => c.poisonReg u.1 u.2.1).wordError col 2) s
      s.modCol col fun c => { c with upsets := [] }
  s.scrubSpad (coreOf col) col

/-! ## One word -/

/-- Fetches, decodes and executes the word of slot k of a column. -/
def State.runWord (s : State) (col k : Nat) : Res :=
  let s := s.scrub col
  match s.fetch col k with
  | (t, .word w) => exec (decodeWord w) t
  | _ => exec .instructionFetchFault s

/-! ## Selection (R138, R146, R150) -/

/-- Whether a split of a column may issue at all: resident and holding lanes, the column neither failed nor stopped by a pre-emption nor
without its turn, its cluster running, and no trap 0x10 or 0x11 holding it but for its handler and the focus split. -/
def State.mayIssue (s : State) (col k : Nat) : Bool :=
  match tabGet s.cols col with
  | none => false
  | some c =>
    (c.slot k).mask != 0 && !c.frozen && !s.failedCol col && s.hasTurn col && s.pw.runs (clusterOf col) && match c.stop with
      | none => true
      | some st => match st.step with
        | some n => c.focus n == some k
        | none => st.slot == k

/-- A split begins a run on its pipe. -/
def State.begin (s : State) (col k : Nat) : State :=
  { s.modCol col fun c => c.modSlot k fun sp => { sp with cond := .issuing } with
    cores := tabMod s.cores (coreOf col) fun r => if onPipeB col then { r with curB := some (col, k) } else { r with curA := some (col, k) }
    run := some (col, k) }

/-- Whether the event that a waiting split's next word needs is there: issued now, the word would not wait again. -/
def State.canGo (s : State) (col k : Nat) : Bool :=
  match (s.begin col k).runWord col k with
  | .next t =>
    let sp := (t.col col).slot k
    !((tabGet t.cols col).isSome && sp.cond == .waiting && sp.pc == ((s.col col).slot k).pc)
  | _ => false

/-- Whether a split is ready for its pipe. -/
def State.eligible (s : State) (col k : Nat) : Bool :=
  s.mayIssue col k &&
  match ((s.col col).slot k).cond with
  | .ready => true
  | .waiting => !(s.col col).outstanding ((s.col col).slot k).lanes && s.canGo col k
  | _ => false

/-- The split at a position of a pipe (2 × core + pipe). -/
def pipeSplit (pipe pos : Nat) : Nat × Nat := (8 * (pipe / 2) + 4 * (pipe % 2) + pos / 4, pos % 4)

/-- Selection: a ready split in its trap handler first, else the first ready split after the one that ran last. -/
def State.select (s : State) (pipe : Nat) : Option (Nat × Nat) :=
  let r := s.core (pipe / 2)
  let last := if pipe % 2 = 0 then r.lastA else r.lastB
  let order := (List.range 16).map fun i => pipeSplit pipe ((last + 1 + i) % 16)
  match order.find? fun x => s.eligible x.1 x.2 && ((s.col x.1).slot x.2).hnd with
  | some x => some x
  | none => order.find? fun x => s.eligible x.1 x.2

/-- Whether a split waits for a result that other words must bring about: a receipt phase, an MWAIT. -/
def State.passedOver (s : State) (col k : Nat) : Bool :=
  (s.col col).results.any fun r => r.lanes &&& ((s.col col).slot k).lanes != 0 && match r.await with
    | .phase _ _ _ => true
    | .mint id => (tabGet s.mintq (coreOf col)).any fun m => m.id == id && match m.act with
      | .wait _ => true
      | _ => false
    | _ => false

/-- What a pipe does in a rotation step of deterministic mode. -/
inductive DetStep where
  | run (col k : Nat)
  | wait
  | skip
  deriving DecidableEq, Repr, Inhabited

/-- The pipe's part of the rotation step (R146). A cluster that changes its point stops the rotation (R21). -/
def State.detStep (s : State) (pipe : Nat) : DetStep :=
  let x := pipeSplit pipe (s.core (pipe / 2)).rot
  if !s.mayIssue x.1 x.2 then
    if ((s.col x.1).slot x.2).mask != 0 && !s.pw.runs (clusterOf x.1) then .wait else .skip
  else if s.eligible x.1 x.2 then .run x.1 x.2
  else
    match ((s.col x.1).slot x.2).cond with
    | .parked => if s.passedOver x.1 x.2 then .skip else .wait
    | .trapping => if s.faults.any fun f => f.waiter == .split x.1 x.2 then .skip else .wait
    | .waiting => if (s.col x.1).outstanding ((s.col x.1).slot x.2).lanes && !s.passedOver x.1 x.2 then .wait else .skip
    | _ => .skip

/-- A pipe has nothing to run in this step. -/
def State.skipStep (s : State) (pipe : Nat) : State :=
  { s with cores := tabMod s.cores (pipe / 2) fun r =>
      CoreSt.advance (if pipe % 2 = 0 then { r with doneA := true } else { r with doneB := true }) }

/-- A pipe takes its next word: of the run it is in, or of the run it selects; none where it has nothing to issue. -/
def State.issuePipe (s : State) (pipe : Nat) : Option Res :=
  let r := s.core (pipe / 2)
  match (if pipe % 2 = 0 then r.curA else r.curB) with
  | some (col, k) =>
    if (tabGet s.cols col).isSome && ((s.col col).slot k).cond == .issuing then
      if s.mayIssue col k then some (({ s with run := some (col, k) }).runWord col k) else none
    else some (.next (s.endPipe col k))
  | none =>
    if r.det then
      if (if pipe % 2 = 0 then r.doneA else r.doneB) then none
      else if s.secondPass && r.between then none
      else match s.detStep pipe with
        | .run col k => some ((s.begin col k).runWord col k)
        | .wait => none
        | .skip => some (.next (s.skipStep pipe))
    else (s.select pipe).map fun x => (s.begin x.1 x.2).runWord x.1 x.2

/-! ## Steps that the machine takes by itself -/

/-- The arrival of a packet at a column of this module. -/
def packetStep (p : Packet) : List Instr :=
  if !pktHere p then []
  else match p.kind.toNat with
    | 0x01 => [.ldrRequest p]
    | 0x02 => [.readReply p]
    | 0x03 => [.strWrite p]
    | 0x04 => [.writeAcknowledgement p]
    | 0x05 => [.ldroRequest p]
    | 0x06 => [.tellerData (.packet p)]
    | 0x07 => [.tellerAcknowledgement p]
    | 0x0A => [.atomicRequest p]
    | 0x0B => [.atomicReply p]
    | 0x0C => [.redRequest p]
    | 0x0D => [.semsgPacket p]
    | 0x0E => [.message p]
    | 0x0F => [.messageAccepted p]
    | 0x10 => [.messageBounced p]
    | _ => []

/-- The steps of an engine operation. -/
def opSteps (id : Nat) (b : OpBody) : List Instr :=
  match b with
  | .copy _ => [.tellerData (.own id), .copyCompletion id]
  | .tile o => if o.store then [.tstoreCompletion id] else [.tfillCompletion id]
  | .tzero _ _ => [.tzeroCompletion id]
  | .page o => match o.kind with
    | .flush => [.flushCompletion id]
    | .seal => [.sealCompletion id]
    | .unseal => (if o.begun then o.inval.map fun c => Instr.replicaInvalidate id (.own c) else [.replicaInvalidate id (.own 0)])
      ++ o.acks.map fun c => Instr.invalidateAcknowledgement id c
  | .xch _ => []
  | .p2p _ => [.collectiveCompletion id]
  | .clct _ => [.collectiveCompletion id]
  | .rep _ => [.repartMove id, .repartCompletion id]

/-- The steps of a resident column. -/
def colSteps (col : Nat) (c : Column) : List Instr :=
  (c.results.map fun r => Instr.resultWriteback col r.id)
    ++ slots4.flatMap fun k => match (c.slot k).cond with
      | .trapping => [Instr.trapEntry col k]
      | .napping => [Instr.napExpiry col k]
      | _ => []

/-- The steps of the scheduler and of Jasper. -/
def State.schedSteps (s : State) : List Instr :=
  (if s.boot.st < 5 then [.bootRomReady, .verifyAndStartJasper, .verifyAndLoadMicrocode, .memoryTrainingDone, .microcodeLoadDone] else [])
    ++ (if s.sch.mgmt = [] && s.sch.mgmtExec.isNone then [] else [.switchContext, .setPowerLimit, .signalSemaphore, .abortContext])
    ++ (if s.sch.sw.isSome then [.preemptionSecondPass, .switchContextComplete] else [])
    ++ (if s.recov.isSome then [.contain, .foldAndRemap] else [])
    ++ (s.sch.queues.map fun e => Instr.launchStart (e.1 / 64) (e.1 % 64))
    ++ (s.groupList.flatMap fun g => [Instr.groupFinish g.1, .groupRetirement g.1])
    ++ (s.pw.target.map fun e => Instr.operatingPointChangeDone e.1)
    ++ ((s.pw.points.filter fun e => e.2 == 4).map fun e => Instr.clusterWake (.work e.1))
    ++ if s.sch.queues.any fun e => match e.2.run with
        | some l => (List.range l.stages.length).any l.eligible
        | none => false
      then (List.range 4608).map .groupDispatch else []

/-- Faults whose walk would now succeed. -/
def State.walkSteps (s : State) : List Instr :=
  (s.faults.filter fun f => (s.walk f.ctx f.owner (addrOff f.vaddr.toNat)).1 != .miss).map fun f =>
    .translationFaultRewalk (256 * f.cluster + f.ent)

/-- The steps that the machine could take by itself. -/
def State.ownSteps (s : State) : List Instr :=
  (s.cols.flatMap fun e => match e.2 with
      | some c => colSteps e.1 c
      | none => [])
    ++ (s.net.flatMap packetStep)
    ++ (s.ops.flatMap fun e => match e.2 with
      | some o => if o.susp then [] else opSteps e.1 o.body
      | none => [])
    ++ (s.mintq.flatMap fun e => e.2.flatMap fun m => match m.act with
      | .task _ _ _ _ _ _ _ _ _ st fin => if fin then [] else if st then [Instr.mintTaskCompletion e.1 m.id] else [.mintTaskStart e.1 m.id]
      | _ => [])
    ++ s.walkSteps ++ s.schedSteps

/-- A list from a rotating position on. -/
def rotated {α : Type} (n : Nat) (l : List α) : List α := l.drop (n % max 1 l.length) ++ l.take (n % max 1 l.length)

/-- The first of them, from a rotating one on, that can happen. -/
def State.ownStep (s : State) : Option State :=
  (rotated (s.rota / 2) s.ownSteps).findSome? fun i => match exec i s with
    | .next t => some t
    | _ => none

/-- The pipes of the cores that hold a group, those after a rotating position first. -/
def State.pipes (s : State) : List Nat :=
  rotated (s.rota / 2) (s.cores.flatMap fun e => [2 * e.1, 2 * e.1 + 1])

/-- The first pipe with something to issue. -/
def State.pipeStep (s : State) : Option Res := s.pipes.findSome? s.issuePipe

/-- A step that the outside or timing decides. -/
def State.turn (s : State) : Turn → Res
  | .event i => match i.shape with
    | .event => if i = .instructionFetchFault then notNow "INSTRUCTION_FETCH_FAULT" else exec i s
    | _ => notNow "WORD"
  | .issue pipe => match s.issuePipe pipe with
    | some r => r
    | none => notNow "ISSUE"

/-- What happens next where nothing orders it: the next word of the run that is issuing; else, in turn, a step of the machine's own or a
word of a pipe; else nothing. -/
def State.goOn (s : State) : Res :=
  match s.run with
  | some (col, k) =>
    if s.mayIssue col k && ((s.col col).slot k).cond == .issuing then s.runWord col k else .next { s with run := none }
  | none =>
    let s := { s with rota := s.rota + 1 }
    let own : Option Res := s.ownStep.map .next
    ((if s.rota % 2 = 0 then own.orElse fun _ => s.pipeStep else s.pipeStep.orElse fun _ => own)).getD (.next s)

/-- The lines that a column's partition holds: a compressed block is one unit of four (R31). -/
def State.vaultLines (s : State) (col : Nat) : Nat :=
  (s.dirty.filter fun (e : Nat × Bool) => e.1 / 2 ^ 22 == col && (tabGet s.vault (e.1 / 4)).isNone).length
    + 4 * (s.vault.filter fun (e : Nat × Option (List Byte)) => e.1 / 2 ^ 20 == col).length

/-- A partition holds at most 1,024 dirty lines (R2, R30): the blocks above that, lowest first, are written back (log entry 62). -/
def State.boundCol (s : State) (col : Nat) : Nat → State
  | 0 => s
  | fuel + 1 =>
    if s.vaultLines col ≤ 1024 then s
    else match s.heldBlocks.find? fun b => b / 2 ^ 20 == col with
      | some b => (s.cleanBlock (placeOf (256 * b))).boundCol col fuel
      | none => s

def State.boundVaults (s : State) : State :=
  if s.dirty.length + 4 * s.vault.length ≤ 1024 then s
  else (s.heldBlocks.map (· / 2 ^ 20)).eraseDups.foldl (fun s c => s.boundCol c s.heldBlocks.length) s

/-- What follows every step at once: collective records that can start have started, cores that wide groups wait for are reserved (R85), the next
management record is armed (R97), due tests of mint tasks are made (R417), the vaults hold what they can. -/
def State.sweep (s : State) : State := s.startColl.reserveCores.armMgmt.testTasks.boundVaults

/-- The end of every step: a step has passed. -/
def State.finish (s : State) : State := { s.sweep with tick := s.sweep.tick + 1 }

/-! ## A word placed where the machine fetches -/

/-- The kernel header of the group that `loaded` dispatches. -/
def loadHdr : KHdr :=
  { nv := 128, ns := 64, nt := 16, na := 8, win := 1, level := 2, colsN := 8, coresN := 1, clusN := 1, modsN := 1, comm := true
    traptab := selfAddr 0 }

/-- Stores 8 bytes in column 0's HBM4E slice. -/
def State.poke (s : State) (off : Nat) (v : DWord) : State :=
  ([0, 1, 2, 3, 4, 5, 6, 7] : List Nat).foldl (fun s i => s.storeByte 0 false (off + i) (v.extractLsb' (8 * i) 8)) s

/-- Offset of the program that `loaded` runs, and TRANSOFF of its context. -/
def loadPc : Nat := 0x10000
def loadTrans : Nat := 0x1E00000

/-- A module in service whose context 0 is current and maps the first 2 MiB of column 0, with a core group dispatched to core 0 and its
first split issuing. It stands for the boot, the submission of a launch and its dispatch. -/
def State.loaded (s : State) : State :=
  let s := { s with
    agenda := []
    boot := { s.boot with powered := true, perst0 := false, perst1 := false, rom := true, st := 5, reached5 := true, jasper := true }
    tabs := { s.tabs with
      ctx := tabSet s.tabs.ctx 0 (BitVec.ofNat 512 (loadTrans + at_ 2 384)), curCtx := 0, switching := false, noCtx := false } }
  let s := s.poke loadTrans 0xF
  let gid := s.sch.nextGroup
  let g : Group := { cols := [0, 1, 2, 3, 4, 5, 6, 7], hdr := loadHdr, entry := selfAddr loadPc }
  (({ s with sch.nextGroup := gid + 1 }).placeGroup gid g).begin 0 0

/-- The memory of this module at which the next word is fetched: a page of its own form, unpoisoned. -/
def State.fetchSpan (s : State) : Option Span :=
  match s.agenda, s.run with
  | [], some (col, k) =>
    let pc := ((s.col col).slot k).pc
    if s.mayIssue col k && ((s.col col).slot k).cond == .issuing && isSelfAlias pc.toNat then
      match s.check (s.ctxOf col) col (addrOff pc.toNat) 8 false .fetch with
      | .page p =>
        if p.tol == 0 && !p.comp && !tabGet s.pois (s.pagePlace col p false (addrOff pc.toNat % p.size)).line then
          some ⟨col, p, false, addrOff pc.toNat % p.size⟩
        else none
      | _ => none
    else none
  | _, _ => none

/-- The state with a word where the next step fetches. -/
def State.withWord (s : State) (w : DWord) : State :=
  match s.fetchSpan with
  | some sp => s.writeSpans [(sp, bytesOfWord w, false)]
  | none => s.loaded.poke loadPc w

end Sys2Proof.Machine
end

