-- ==== Sys2Proof/Machine/Step.lean ====
section
/-!
DEFINITION. One step of the machine, and a word placed where the next step fetches it.
-/

namespace Sys2Proof.Machine

/-- One step: what the agenda orders next, or what goes on by itself. -/
def step (s : State) : Host.Outcome State Fault Refusal :=
  match (match s.agenda with
    | t :: ts => ({ s with agenda := ts }).turn t
    | [] => s.goOn) with
  | .next t => .next t.finish
  | .fault r => .fault r
  | .refused r => .refused r

/-- The state with the instruction of bits `w` where the next step fetches. From reset, the boot, a launch and its dispatch are stood for
by `State.loaded`. -/
def State.withFetchWord (s : State) (_nbits w : Nat) : State := s.withWord (BitVec.ofNat 64 w)

end Sys2Proof.Machine
end

