-- ==== Sys2Proof/WellFormed.lean ====
section
/-!
DEFINITION. Well-formed instructions: what the encoding can hold (R255, R256, R262, R265), and what passes the checks that depend only on
the word and a kernel header with every register class full (checks 3, 4 and 6 of R269).
-/

namespace Sys2Proof

open Sys2Proof.Machine

/-- An operand that a specifier can name (R256). -/
def Opnd.encodable : Opnd → Bool
  | .rsvd n => decide (2 ≤ n.toNat)
  | _ => true

/-- Operands that the word's fields can hold. -/
def Full.encodable (f : Full) : Bool :=
  f.d.encodable && f.a.encodable && match f.form with
    | .reg b c _ _ => b.encodable && c.encodable
    | .imm _ _ => true

/-- The form of each sub-form of an opcode (R280, R425). An opcode without sub-forms holds every form. -/
def Instr.formOk : Instr → Bool
  | .jsetMask f => !isImm f
  | .jsetEnabled f => isImm f
  | .yield f => isImm f || !xBit0 f
  | .yieldPool f => !isImm f && xBit0 f
  | .pwakeRows f => isImm f || !xb f 10
  | .pwakeField f => !isImm f && xb f 10
  | .pfreeRows f => !isImm f
  | .pfreeWoken f => isImm f && decide (xOf f = 1)
  | .pfreeAll f => isImm f && decide (xOf f ≠ 1)
  | .setrst f => !isImm f || !xBit0 f
  | .setrstClr f => isImm f && xBit0 f
  | .rtrap f => !isImm f || !xBit0 f
  | .rtrapStep f => isImm f && xBit0 f
  | .clctP2p f => isImm f || decide (xf f 2 0 < 3)
  | .clctGroup f => !isImm f && decide (3 ≤ xf f 2 0) && decide (xf f 2 0 < 7)
  | .clctRec f => !isImm f && decide (xf f 2 0 = 7)
  | _ => true

/-- Whether some word decodes to the instruction: every field at a value that its bits can hold. -/
def Instr.encodable (i : Instr) : Bool :=
  match i.shape with
  | .full _ f => f.encodable && i.formOk
  | .pair _ _ _ y => decide (y.hop.toNat < 0x17)
  | .illegal w => match classify w with
    | .ok _ => false
    | .error _ => true
  | .event => false

/-- What a full word accepts. The words of queues take what every binding accepts. -/
def Instr.fmt : Instr → KHdr → Full → Fmt
  | .nop _ => fmtBare
  | .bra _ => fmtDisp
  | .brx _ => fmtBrx
  | .call _ => fmtCall
  | .callx _ => fmtCallx
  | .ret _ => fmtBrx
  | .loop _ => fmtLoop
  | .jsetMask _ => fmtJsetMask
  | .jsetEnabled _ => fmtJsetEnabled
  | .join _ => fmtJoin
  | .jmov _ => fmtJmov
  | .yield _ => fmtYield
  | .yieldPool _ => fmtYieldPool
  | .nap _ => fmtDisp
  | .exit _ => fmtBare
  | .susp _ => fmtSusp
  | .resume _ => fmtResume
  | .pinit _ => fmtPinit
  | .pwakeRows _ => fmtPwakeRows
  | .pwakeField _ => fmtPwakeField
  | .pxform _ => fmtPxform
  | .pcount _ => fmtPcount
  | .pfreeRows _ => fmtPfreeRows
  | .pfreeAll _ => fmtPfreeAll
  | .pfreeWoken _ => fmtPfreeAll
  | .setrst _ => fmtSetrst
  | .setrstClr _ => fmtSetrst
  | .trap _ => fmtTrap
  | .rtrap _ => fmtRtrap
  | .rtrapStep _ => fmtRtrapStep
  | .bkpt _ => fmtBare
  | .iadd _ => fmt2 tyZp true [xBit 0]
  | .isub _ => fmt2 tyZp true [xBit 0]
  | .iadd3 _ => fmt3 tyZ []
  | .iaddc _ => fmtCarry
  | .isubb _ => fmtCarry
  | .imul _ => fmt2 tyZ true []
  | .imulh _ => fmt2 tyZ true []
  | .imad _ => fmt3 tyZ []
  | .imadw _ => fmtImadw
  | .idiv _ => fmt2 tyZ true []
  | .irem _ => fmt2 tyZ true []
  | .imin _ => fmt2 tyZp true []
  | .imax _ => fmt2 tyZp true []
  | .iabs _ => fmt1 [.i32, .i64, .i16x2, .i8x4] [xBit 0]
  | .idot4 _ => fmt3 [.i8x4] [xBit 0]
  | .and _ => fmt2 tyL true []
  | .or _ => fmt2 tyL true []
  | .xor _ => fmt2 tyL true []
  | .andn _ => fmt2 tyL true []
  | .orn _ => fmt2 tyL true []
  | .shl _ => fmtShift
  | .shr _ => fmtShift
  | .sar _ => fmtShift
  | .rol _ => fmtShift
  | .fshl _ => fmtFsh
  | .fshr _ => fmtFsh
  | .popc _ => fmt1 tyL []
  | .clz _ => fmt1 tyL []
  | .ctz _ => fmt1 tyL []
  | .brev _ => fmt1 tyL []
  | .bfx _ => fmtField
  | .bfi _ => fmtField
  | .prmb _ => fmt3 [.b32] []
  | .icmp _ => fmtIcmp
  | .isel _ => fmtIsel
  | .cvti _ => fmtCvti
  | .mov _ => fmt1 tyMov []
  | .movi _ => fmtMovi
  | .movh _ => fmtMovh
  | .mkcol _ => fmtMkcol
  | .colof _ => fmtColof
  | .offof _ => fmtOffof
  | .lea _ => fmtLea
  | .pset _ => fmtPset
  | .pand _ => fmtP2
  | .por _ => fmtP2
  | .pxor _ => fmtP2
  | .pnot _ => fmtP1
  | .pmov _ => fmtP1
  | .vote _ => fmtVote
  | .shfl _ => fmtShfl
  | .redc _ => fmtRedc
  | .scanc _ => fmtScanc
  | .umov _ => fmtUmov
  | .mfsr _ => fmtMfsr
  | .mtsr _ => fmtMtsr
  | .rdcnt _ => fmtRdcnt
  | .fadd _ => fmtF2 tyFA true (xsF true true true)
  | .fsub _ => fmtF2 tyFA true (xsF true true true)
  | .fmul _ => fmtF2 tyFA true (xsF true true true)
  | .ffma _ => fmtF3 tyFA (xsF true true true)
  | .fmin _ => fmtF2 tyFA true (xsF false true false)
  | .fmax _ => fmtF2 tyFA true (xsF false true false)
  | .famax _ => fmtF2 tyFA true (xsF false true false)
  | .fdiv _ => fmtF2 [.f32, .f64] false (xsF true true true)
  | .fsqrt _ => fmtF1 [.f32, .f64] (xsF true true false)
  | .frcp _ => fmtF1 tyFA (xsF true true false)
  | .frsq _ => fmtF1 tyFA (xsF true true false)
  | .fexp2 _ => fmtF1 tyFA (xsF true true false)
  | .flog2 _ => fmtF1 tyFA (xsF true true false)
  | .fsin _ => fmtF1 tyFA (xsF true true false)
  | .fcos _ => fmtF1 tyFA (xsF true true false)
  | .ftanh _ => fmtF1 tyFA (xsF true true false)
  | .fcmp _ => fmtFcmp
  | .fclass _ => fmtFclass
  | .frnd _ => fmtFrnd
  | .fscl _ => fmtFscl
  | .ffrx _ => fmtFfrx
  | .f2i _ => fmtF2i
  | .i2f _ => fmtI2f
  | .fcvt _ => fmtFcvt
  | .fpack _ => fmtFpack
  | .funpk _ => fmtFunpk
  | .fdot2 _ => fmtFdot2
  | .hndec _ => fmtHndec
  | .ld _ => fmtMem [1, 3]
  | .st _ => fmtMem [2, 3]
  | .lds _ => fmtMem []
  | .sts _ => fmtMem []
  | .ldw _ => fmtMem []
  | .stw _ => fmtMem []
  | .ldr _ => fmtMem [1, 3]
  | .str _ => fmtMem [2, 3]
  | .ldro _ => fmtMem []
  | .pref _ => fmtPref
  | .copy _ => fmtCopy
  | .copym _ => fmtCopym
  | .xch _ => fmtXch
  | .seal _ => fmtPage
  | .unseal _ => fmtPage
  | .flush _ => fmtPage
  | .surf _ => fmtSurf
  | .atom _ => fmtAtom
  | .acas _ => fmtAcas
  | .red _ => fmtRed
  | .fence _ => fmtFence
  | .bar _ => fmtBar
  | .bara _ => fmtBar
  | .barw _ => fmtBar
  | .bard _ => fmtBar
  | .elect _ => fmtElect
  | .rinit _ => fmtRcpt true
  | .rarv _ => fmtRcpt false
  | .rxpt _ => fmtRcpt true
  | .rwait _ => fmtRcpt true
  | .qbind _ => fmtQbind
  | .qpush _ => fmtQpush default
  | .qpop _ => fmtQpop default
  | .qstat _ => fun _ _ => { d := fS, a := fQ }
  | .submit _ => fmtSubmit
  | .semsg _ => fmtSemsg
  | .tdesc _ => fmtTdesc
  | .tfill _ => fmtTile false
  | .tstore _ => fmtTile true
  | .tzero _ => fun _ _ => { d := fT }
  | .mma _ => fmtMma
  | .aclr _ => fun _ _ => { d := fA }
  | .adrain _ => fmtAdrain
  | .aspill _ => fmtAspill
  | .aload _ => fmtAspill
  | .mwait _ => fmtMwait
  | .clctP2p _ => fmtClctP2p
  | .clctGroup _ => fmtClctGroup
  | .clctRec _ => fmtClctRec
  | .repart _ => fmtRepart
  | .sfckey _ => fmtSfckey
  | .cstat _ => fmtCstat
  | _ => fun _ _ => {}

/-- What checks 3, 4 and 6 of R269 find in a word under a kernel header: the trap code and %tinfo. -/
def Instr.staticTrap (h : KHdr) (i : Instr) : Option (Nat × Nat) :=
  match i.shape with
  | .full _ f => (check6 h f (i.fmt h f)).map fun r => (2, 256 * r.1 + r.2)
  | .pair _ hop x y => checkPair h.nv hop.toNat x y.hop.toNat y.args
  | .illegal w => (illegalInfo w).map fun n => (1, n)
  | .event => none

/-- Whether an instruction is a word that passes the static checks under the largest header. -/
def Instr.wellFormed (i : Instr) : Bool := i.encodable && i.staticTrap maxHdr == none

end Sys2Proof
end

