-- ==== Sys2Proof/Safety.lean ====
section
/-!
DEFINITION. What claims are stated in terms of: the state in which the next word of a split issues, that a word was performed, the registers
it delivered, the bytes a store reaches, and the forms that a state keeps.
-/

namespace Sys2Proof.Machine

/-! ## Invariants -/

/-- Every sparse table of the memories is in canonical form. -/
def State.memWf (s : State) : Bool :=
  Memory.wf s.mem && tabWf s.pois && tabWf s.spad && tabWf s.spadP && tabWf s.acc && tabWf s.accP

/-! ## A word that issues -/

/-- The next word of slot k of a resident column issues, and the column is not letting a single word issue under RTRAP.step (R150). -/
def State.Issues (s : State) (col k : Nat) : Prop :=
  s.run = some (col, k) ∧ (tabGet s.cols col).isSome = true ∧ (s.col col).stepping = false

/-- Checks 6 to 8 of R269 find nothing in the word: its operands are of the classes and in the counts that the instruction accepts, none is
pending, and none is poisoned at a containment point. -/
def State.Clears (s : State) (col k : Nat) (w : Full) (f : KHdr → Full → Fmt) (pts : Ctx → List Pt) : Prop :=
  (s.ctxFor col k w).early (f (s.hdr col) w) (pts (s.ctxFor col k w)) = none

/-- The split of slot k goes on at the next word, with its lanes, while its run lasts; at a marker or after 256 words the run ends and its pipe is free
(R136). The other slots and the pool change only at a run's end. -/
def State.GoesOn (s t : State) (col k : Nat) (marker : Bool) : Prop :=
  let sp := (s.col col).slot k
  if marker = true ∨ 256 ≤ sp.runLen + 1 then
    t.run = none ∧ t.cores = tabMod s.cores (coreOf col) (fun r => r.release col k) ∧ (t.col col).mec = (s.col col).mec + 1
  else
    t.run = s.run ∧ t.cores = s.cores ∧ (t.col col).mec = (s.col col).mec ∧ (t.col col).pool = (s.col col).pool
      ∧ ((t.col col).slot k).pc = pcNext sp.pc ∧ ((t.col col).slot k).mask = sp.mask ∧ ((t.col col).slot k).held = sp.held
      ∧ ((t.col col).slot k).runLen = sp.runLen + 1 ∧ ((t.col col).slot k).trap = sp.trap
      ∧ ∀ j, j ≠ k → (t.col col).slot j = (s.col col).slot j

/-- What holds outside a column after one of its words that changes nothing but the column: all other state is as it was, but the faults on which
this split waited are gone. -/
def State.OnlyColumn (s t : State) (col k : Nat) : Prop :=
  t = { s with faults := t.faults, cols := t.cols, cores := t.cores, run := t.run }
    ∧ t.faults = s.faults.filter (fun f => !(f.waiter == .split col k))
    ∧ ∀ c, c ≠ col → tabGet t.cols c = tabGet s.cols c

/-- A word that changes only its column was performed: it is counted (R147), and its split goes on. -/
def State.Performed (s t : State) (col k : Nat) (marker : Bool) : Prop :=
  s.OnlyColumn t col k ∧ (t.col col).retired = ((s.col col).retired + 1) % 2 ^ 48 ∧ s.GoesOn t col k marker

/-- A column keeps everything but its registers, flags, splits, pool and counts. -/
def Column.Keeps (c c' : Column) : Prop :=
  c' = { c with
    v := c'.v, vp := c'.vp, s := c'.s, sp := c'.sp, p := c'.p, pp := c'.pp, fpflags := c'.fpflags
    slots := c'.slots, pool := c'.pool, mec := c'.mec, demote := c'.demote, retired := c'.retired }

/-- A column keeps everything but its outstanding results, splits, pool and counts. -/
def Column.KeepsRegs (c c' : Column) : Prop :=
  c' = { c with
    results := c'.results, nextRes := c'.nextRes
    slots := c'.slots, pool := c'.pool, mec := c'.mec, demote := c'.demote, retired := c'.retired }

/-- A column keeps everything but its splits, pool and counts. -/
def Column.KeepsAll (c c' : Column) : Prop :=
  c' = { c with slots := c'.slots, pool := c'.pool, mec := c'.mec, demote := c'.demote, retired := c'.retired }

/-- A word without effect: it is performed and its split goes on. -/
def State.Passes (s : State) (i : Instr) (col k : Nat) (marker : Bool) : Prop :=
  ∃ t, exec i s = .next t ∧ s.Performed t col k marker ∧ (s.col col).KeepsAll (t.col col)

/-! ## Where lanes stand -/

/-- Lane l of a column stands at a PC: in a split slot or in the pool. -/
def Column.LaneAt (c : Column) (l : Nat) (pc : DWord) : Prop :=
  (∃ k, (c.slot k).mask.getLsbD l = true ∧ (c.slot k).pc = pc) ∨ ∃ e, e ∈ c.pool ∧ e.lane = l ∧ e.pc = pc

/-- After a word of slot k, every active lane of its split stands where `f` says, and every other lane where it stood. -/
def State.LanesGo (s t : State) (col k : Nat) (f : Nat → DWord) : Prop :=
  ∀ l, l < 32 →
    (((s.col col).slot k).mask.getLsbD l = true → (t.col col).LaneAt l (f l))
      ∧ ∀ pc, ((s.col col).slot k).mask.getLsbD l = false → (s.col col).LaneAt l pc → (t.col col).LaneAt l pc

/-- A word that changes only its column was performed and has placed its lanes. -/
def State.Placed (s t : State) (col k : Nat) (f : Nat → DWord) : Prop :=
  s.OnlyColumn t col k ∧ (t.col col).retired = ((s.col col).retired + 1) % 2 ^ 48 ∧ s.LanesGo t col k f

/-- The run of slot k has ended, and its pipe is free (R136). -/
def State.RunEnds (s t : State) (col k : Nat) : Prop :=
  t.run = none ∧ t.cores = tabMod s.cores (coreOf col) fun r => r.release col k

/-! ## Taking a trap -/

/-- The trap table entry of a code can be read as an LD of the column reads it, and holds the address of a handler (R305). -/
def State.HandlerAt (s : State) (col code : Nat) (h : DWord) : Prop :=
  (s.hdr col).traptab ≠ 0 ∧ targetOk col h = true
    ∧ let off := addrOff (s.hdr col).traptab.toNat + 8 * code
      ∃ p, s.check (s.ctxOf col) col off 8 false .read = .page p
        ∧ (s.pageRead col p false (off % p.size) 8).2.2 = false
        ∧ BitVec.ofNat 64 (natOf (s.pageRead col p false (off % p.size) 8).2.1) = h

/-- The split of slot k takes a trap (R149, R274, R305): the record is written, the failing lanes are active and the others held, and the split is in
its handler, or enters it once its results are written. No register, no byte of memory and no count changes. -/
def State.TakesTrap (s t : State) (col k code : Nat) (m : Mask) (taddr : DWord) (tinfo : Nat) (tpc h : DWord) : Prop :=
  let c := s.col col
  let c' := t.col col
  let sl := c'.slot k
  t.run = none ∧ t.mem = s.mem ∧ c'.retired = c.retired
    ∧ (c'.v, c'.vp, c'.s, c'.sp, c'.p, c'.pp, c'.fpflags, c'.live) = (c.v, c.vp, c.s, c.sp, c.p, c.pp, c.fpflags, c.live)
    ∧ sl.trap = ⟨tpc, taddr, m, BitVec.ofNat 16 tinfo, BitVec.ofNat 8 code⟩
    ∧ sl.mask = m ∧ sl.held = (c.slot k).lanes &&& ~~~m
    ∧ if c.outstanding (c.slot k).lanes = true then sl.cond = .trapping ∧ sl.hnd = false
      else sl.cond = .ready ∧ sl.hnd = true ∧ sl.pc = pcOf h

/-- The word of slot k is counted (R147), and its split takes a trap. -/
def State.Trapped (s t : State) (col k code : Nat) (m : Mask) (taddr : DWord) (tinfo : Nat) (tpc h : DWord) : Prop :=
  (s.modCol col fun c => c.countWord k).TakesTrap t col k code m taddr tinfo tpc h

/-! ## Registers delivered -/

/-- The registers of c' are those of c, but where the functions give a new value with its poison: of a lane of a vector register, of a uniform
register, of a lane of a predicate. -/
def Column.Regs (c c' : Column) (fv : Nat → Nat → Option (Word × Bool)) (fs : Nat → Option (DWord × Bool))
    (fp : Nat → Nat → Option (Bool × Bool)) : Prop :=
  (∀ n l, l < 32 → (c'.rdV n l, c'.rdVp n l) = (fv n l).getD (c.rdV n l, c.rdVp n l))
    ∧ (∀ n, n < 64 → (c'.rdS n, c'.rdSp n) = (fs n).getD (c.rdS n, c.rdSp n))
    ∧ (∀ n l, l < 32 → ((c'.rdP n).getLsbD l, (c'.rdPp n).getLsbD l) = (fp n l).getD ((c.rdP n).getLsbD l, (c.rdPp n).getLsbD l))

/-- A vector destination: every enabled lane, the low word and for a pair the high word (R153). -/
def vecDest (d : Opnd) (wide : Bool) (en : Mask) (val : Nat → Nat) (poi : Nat → Bool) (n l : Nat) : Option (Word × Bool) :=
  match d with
  | .v m =>
    if en.getLsbD l = false then none
    else if n = m.toNat then some (BitVec.ofNat 32 (val l), poi l)
    else if wide = true ∧ n = m.toNat + 1 then some (BitVec.ofNat 32 (val l / 2 ^ 32), poi l)
    else none
  | _ => none

/-- A uniform destination: the value of the lowest enabled lane, sign- or zero-extended (R210, R273); a write to s0 is discarded (R151). -/
def uniDest (d : Opnd) (wide sgn : Bool) (en : Mask) (val : Nat → Nat) (poi : Nat → Bool) (n : Nat) : Option (DWord × Bool) :=
  match d with
  | .s m =>
    if n = m.toNat ∧ n ≠ 0 ∧ en ≠ 0 then
      let v := val (lowLane en)
      some (if wide then BitVec.ofNat 64 v
        else if sgn then (BitVec.ofNat 32 v).signExtend 64 else (BitVec.ofNat 32 v).setWidth 64, poi (lowLane en))
    else none
  | _ => none

/-- A predicate destination: the low bit in every enabled lane; a write to p0 is discarded (R151). -/
def prdDest (d : Opnd) (en : Mask) (val : Nat → Nat) (poi : Nat → Bool) (n l : Nat) : Option (Bool × Bool) :=
  match d with
  | .p m => if n = m.toNat ∧ n ≠ 0 ∧ en.getLsbD l = true then some ((val l).testBit 0, poi l) else none
  | _ => none

/-- c' is c with one result delivered to a destination. -/
def Column.Delivers (c c' : Column) (d : Opnd) (wide sgn : Bool) (en : Mask) (val : Nat → Nat) (poi : Nat → Bool) : Prop :=
  c.Regs c' (vecDest d wide en val poi) (uniDest d wide sgn en val poi) (prdDest d en val poi)

/-- A fixed-latency word completes: it is performed, delivers its values and their poison, ORs its flags into %fpflags (R158), and nothing
else changes. -/
def State.Yields (s : State) (i : Instr) (col k : Nat) (w : Full) (wide sgn : Bool) (val : Nat → Nat) (poi : Nat → Bool)
    (fl : BitVec 5) : Prop :=
  ∃ t, exec i s = .next t ∧ s.Performed t col k w.marker ∧ (s.col col).Keeps (t.col col)
    ∧ (s.col col).Delivers (t.col col) w.d wide sgn (s.ctxFor col k w).en val poi
    ∧ (t.col col).fpflags = (s.col col).fpflags ||| fl

/-- A variable-latency word completes its issue (R137, R140): it is performed, no register changes yet, and a result is outstanding for the lanes of its
split whose writes deliver its values; the registers it names are pending for the run. With no enabled lane there is none. -/
def State.YieldsLater (s : State) (i : Instr) (col k : Nat) (w : Full) (wide sgn : Bool) (val : Nat → Nat) (poi : Nat → Bool)
    (fl : BitVec 5) : Prop :=
  ∃ t, exec i s = .next t ∧ s.Performed t col k w.marker ∧ (s.col col).KeepsRegs (t.col col)
    ∧ (if (s.ctxFor col k w).en = 0 then (t.col col).results = (s.col col).results
      else ∃ ws, (t.col col).results = (s.col col).results ++ [⟨(s.col col).nextRes, ((s.col col).slot k).lanes, ws, fl, .none⟩]
        ∧ (s.col col).Delivers ((s.col col).applyWrites ws) w.d wide sgn (s.ctxFor col k w).en val poi)

/-! ## Values -/

/-- v is what an exact result becomes within w bits: reduced modulo 2^w, or the nearest value of the type (R210). -/
def Fits (sat : Bool) (w : Nat) (sg : Bool) (i : Int) (v : Nat) : Prop :=
  v < 2 ^ w ∧
    if sat then
      readInt w sg v = (if sg then max (-(2 ^ (w - 1) : Int)) (min (2 ^ (w - 1) - 1) i) else max 0 (min (2 ^ w - 1) i))
    else (v : Int) % 2 ^ w = i % 2 ^ w

/-- The w bits of v are those that `bit` gives. -/
def BitsAre (w v : Nat) (bit : Nat → Bool) : Prop := v < 2 ^ w ∧ ∀ i, i < w → v.testBit i = bit i

/-! ## Bytes of memory -/

/-- The stored bytes of memory that a store of n bytes at a span can change (R40, R41, R115): none in a compressed page, whose new bytes the vault holds; through the raw
aperture also the blocks written back before; else the stored bytes; and the mirrors of all of them. -/
def State.reaches (s : State) (sp : Span) (n a : Nat) : Prop :=
  (sp.page.comp = true ∧ sp.raw = true ∧ ∃ i, i < n ∧
      let p := s.pagePlace sp.col sp.page sp.raw (sp.po + i)
      (a / 256 = p.addr / 256 ∨ ∃ m, s.mirror p.col p.tier (p.off / 256 * 256) = some m ∧ a / 256 = m.addr / 256))
    ∨ ((sp.raw = true ∨ sp.page.tol ≠ 0 ∨ sp.page.comp = false) ∧
      ∃ i, i < (if sp.raw = true ∨ sp.page.tol = 0 then n else if sp.page.tol = 1 then n / 4 * 2 else n / 4) ∧
        (a = (s.place sp.col sp.page.tier (sp.page.stored sp.raw sp.po + i)).addr
          ∨ ∃ m, s.mirror sp.col sp.page.tier (sp.page.stored sp.raw sp.po + i) = some m ∧ a = m.addr))

end Sys2Proof.Machine
end

