-- ==== Sys2Proof/Certificates/Slice0/Obligations.lean ====
section
/-!
DEFINITION. The statements about the model.
-/

open Sys2Proof Sys2Proof.Machine

/-- Nothing is left of memory, scratchpad, accumulators, staging, images and residents. -/
def Sys2Proof.Machine.Lost (t : State) : Prop :=
  t.boot.st = 0 ∧ t.mem = [] ∧ t.pois = [] ∧ t.spad = [] ∧ t.acc = [] ∧ t.cols = [] ∧ t.cores = [] ∧ t.boot.staging = []
    ∧ t.boot.jasperM = [] ∧ t.boot.microM = [] ∧ t.boot.jasper = false

/-- R27, R60: power and reset pins. -/
def Obligations.PowerAndResetPins : Prop :=
  (∀ s : State, s.boot.powered = false → ∃ t, exec .powerUp s = .next t ∧ t = { s with boot := t.boot } ∧ t.boot.powered = true
    ∧ t.boot.rom = true ∧ t.boot.link0.training = !s.boot.perst0 ∧ t.boot.link1.training = !s.boot.perst1 ∧ t.boot.st = s.boot.st)
  ∧ (∀ s : State, s.boot.powered = true → ∃ t, exec .pwrGoodDeassert s = .next t ∧ Lost t ∧ t.boot.powered = false ∧ t.boot.rom = false)
  ∧ (∀ s : State, s.boot.perst0 = false → ∃ t, exec .perst0NAssert s = .next t ∧ Lost t ∧ t.boot.perst0 = true
    ∧ t.boot.powered = s.boot.powered ∧ t.boot.link0.up = false ∧ t.boot.link1 = s.boot.link1)
  ∧ (∀ s : State, s.boot.perst0 = true → ∃ t, exec .perst0NDeassert s = .next t ∧ t = { s with boot := t.boot }
    ∧ t.boot = { s.boot with perst0 := false, link0 := t.boot.link0 } ∧ t.boot.link0.training = s.boot.rom)
  ∧ (∀ (s : State) (a : Bool), ∃ t, exec (.perst1NReset a) s = .next t ∧ t = { s with boot := t.boot }
    ∧ t.boot = { s.boot with perst1 := a, link1 := t.boot.link1 } ∧ t.boot.link1.up = false ∧ t.boot.link1.training = (!a && s.boot.rom))

/-- R57 to R60: firmware download. -/
def Obligations.BootSequence : Prop :=
  (∀ s : State, s.boot.rom = true → s.boot.perst0 = false → s.boot.st = 0 → ∃ t, exec .bootRomReady s = .next t
    ∧ t = { s with boot.st := 1 })
  ∧ (∀ s : State, s.boot.link0.up = true → s.boot.st = 1 → ∃ t, exec .verifyAndStartJasper s = .next t ∧ t.boot.err = s.imageErr 1
    ∧ (s.imageErr 1 = 0 → t.boot.st = 2 ∧ t.boot.jasper = true ∧ t.evq = {} ∧ t.tabs.cmap = [] ∧ t.mem = s.mem)
    ∧ (s.imageErr 1 ≠ 0 → t.boot.st = 1 ∧ t.boot.jasper = s.boot.jasper))
  ∧ (∀ s : State, s.boot.link0.up = true → s.boot.st ≠ 1 → ∃ t, exec .verifyAndStartJasper s = .next t ∧ t = { s with boot.err := 6 })
  ∧ (∀ s : State, s.boot.st = 2 → s.boot.jasper = true → ∃ t, exec .memoryTrainingDone s = .next t ∧ t = { s with boot.st := 3 })
  ∧ (∀ s : State, s.boot.link0.up = true → s.boot.st = 3 → ∃ t, exec .verifyAndLoadMicrocode s = .next t ∧ t.boot.err = s.imageErr 2
    ∧ (s.imageErr 2 = 0 → t.boot.st = 4 ∧ t.boot.microM = s.imageM) ∧ (s.imageErr 2 ≠ 0 → t.boot.st = 3))
  ∧ (∀ s : State, s.boot.st = 4 → ∃ t, exec .microcodeLoadDone s = .next t ∧ t.boot.st = 5 ∧ t.tabs.noCtx = true ∧ t.mem = s.mem)
  ∧ (∀ (s : State) (off : Nat) (bytes : List Byte), s.boot.link0.up = true → s.boot.st = 1 ∨ s.boot.st = 3 → crosses4K off bytes.length = false →
    off + bytes.length ≤ 12 * 2 ^ 20 →
    ∃ t, exec (.stagingWrite off bytes) s = .next t ∧ t = { s with boot.staging := t.boot.staging }
      ∧ ∀ a, tabGet t.boot.staging a = if off ≤ a ∧ a < off + bytes.length then bytes.getD (a - off) 0 else tabGet s.boot.staging a)
  ∧ (∀ (s : State) (off : Nat) (bytes : List Byte), s.boot.link0.up = true → s.boot.st ≠ 1 → s.boot.st ≠ 3 → exec (.stagingWrite off bytes) s = .next s)

/-- R20 to R23. -/
def Obligations.PowerManagement : Prop :=
  (∀ (s : State) (r : Rec64) (rest : List Rec64), s.sch.mgmt = r :: rest → s.mgmtFree = true → recKind r = 0x11 →
    recTrig r = 0 ∨ s.sch.mgmtTrig = .fired →
    ∃ t, exec .setPowerLimit s = .next t
      ∧ t = { s with sch := { s.sch with mgmt := rest, mgmtTrig := .idle }, pw.hostLimit := fieldNat r 223 192 }
      ∧ t.pw.limit = min (fieldNat r 223 192) s.pw.boardLimit)
  ∧ (∀ (s : State) (w : Nat), 3000 ≤ w → w ≤ 7500 → exec (.boardPowerLimitRequest w) s = .next { s with pw.boardLimit := w })
  ∧ (∀ (s : State) (w : Nat), w < 3000 ∨ 7500 < w → ∃ t, exec (.boardPowerLimitRequest w) s = .next t ∧ t.pw = s.pw)
  ∧ (∀ (s : State) (w : Nat), ∃ t, exec (.powerMeasurement w) s = .next t ∧ t = { s with pw := t.pw }
    ∧ t.pw.samples = (w :: s.pw.samples).take 10 ∧ t.pw.limit = s.pw.limit
    ∧ ∀ c p, tabGet s.pw.target c = none → tabGet t.pw.target c = some p →
        s.pw.point c ≠ 4 ∧ p ≤ s.pw.point c + 1 ∧ s.pw.point c ≤ p + 1)
  ∧ (∀ (s : State) (c p : Nat), tabGet s.pw.target c = some p → ∃ t, exec (.operatingPointChangeDone c) s = .next t
    ∧ t = { s with pw := t.pw } ∧ t.pw.point c = p ∧ t.pw.changing c = false
    ∧ ∀ d, d ≠ c → t.pw.point d = s.pw.point d ∧ tabGet t.pw.target d = tabGet s.pw.target d)
  ∧ (∀ (s : State) (c : Nat), c < 768 → s.pw.runs c = true → s.clusterBusy c = false → ∃ t, exec (.clusterClockGate c) s = .next t
    ∧ t = { s with pw := t.pw } ∧ t.pw.point c = 4 ∧ tabGet t.pw.before c = s.pw.point c ∧ t.pw.runs c = false)
  ∧ (∀ (s : State) (c : Nat), c < 768 → s.pw.point c = 4 → s.pw.changing c = false → s.packetFor c = true →
    ∃ t, exec (.clusterWake (.work c)) s = .next t ∧ t = { s with pw := t.pw } ∧ tabGet t.pw.target c = some (tabGet s.pw.before c))
  ∧ (∀ (s : State) (c : Nat) (p : Packet), c < 768 → s.pw.point c = 4 → s.pw.changing c = false → s.foreign p = true → pktHere p = true →
    pktCluster p = c → pktDest p < nCols →
    ∃ t, exec (.clusterWake (.packet p)) s = .next t ∧ t = { s with pw := t.pw, net := s.net ++ [p] }
      ∧ tabGet t.pw.target c = some (tabGet s.pw.before c))

/-- R25, R32, R36, R38, R40. -/
def Obligations.ThermalAndRefresh : Prop :=
  (∀ (s : State) (c x : Nat), c < 768 → 100 ≤ x → s.pw.point c < 3 → s.pw.changing c = false →
    ∃ t, exec (.thermalThrottle c x) s = .next t ∧ t = { s with pw := t.pw } ∧ tabGet t.pw.hot c = true
      ∧ tabGet t.pw.target c = some (s.pw.point c + 1) ∧ ∀ d, d ≠ c → tabGet t.pw.target d = tabGet s.pw.target d)
  ∧ (∀ (s : State) (n x : Nat), 110 ≤ x → ∃ t, exec (.thermalEvent n x) s = .next t ∧ t.evq.seq = s.evq.seq + 1 ∧ t.mem = s.mem
    ∧ ∀ c, c < 768 → t.pw.goal c = 3 ∧ (s.pw.point c < 3 → s.pw.changing c = false → tabGet t.pw.target c = some 3))
  ∧ (∀ (s : State) (n x : Nat), 120 ≤ x → ∃ t, exec (.thermalTrip n x) s = .next t ∧ Lost t ∧ t.boot.powered = false
    ∧ t.pw.thermTrip = true)
  ∧ (∀ (s : State) (ch : Nat), ch < 1632 → tabGet s.pw.selfRef ch = false → ∃ t, exec (.selfRefreshEntry ch) s = .next t
    ∧ t = { s with pw.selfRef := t.pw.selfRef } ∧ tabGet t.pw.selfRef ch = true)
  ∧ (∀ (s : State) (ch : Nat), tabGet s.pw.selfRef ch = true → ∃ t, exec (.selfRefreshExit ch) s = .next t
    ∧ t = { s with pw.selfRef := t.pw.selfRef } ∧ tabGet t.pw.selfRef ch = false)
  ∧ (∀ (s : State) (line : Nat) (u : Upset), line / 2 ^ 22 < nCols → tabGet s.upsets line = some u → u.wrong = none →
    tabGet s.dirty line = false → ∃ t, exec (.patrolRead line) s = .next t ∧ t.mem = s.mem ∧ tabGet t.upsets line = none
      ∧ tabGet t.pois line = (!u.corr || tabGet s.pois line))
  ∧ (∀ (s : State) (b : Nat), (List.range 4).any (fun i => tabGet s.dirty (4 * b + i)) = true → ∃ t, exec (.vaultWriteBack b) s = .next t
    ∧ (tabGet s.vault b = none → t.mem = s.mem) ∧ (∀ i, i < 4 → tabGet t.dirty (4 * b + i) = false)
    ∧ let mir (a : Nat) : Prop := ∃ m, s.mirror (placeOf (256 * b)).col (placeOf (256 * b)).tier (placeOf (256 * b)).off = some m ∧ a = m.addr / 256
      (∀ a, a / 256 ≠ b → ¬ mir (a / 256) → Memory.read t.mem a = Memory.read s.mem a)
        ∧ ∀ l, l / 4 ≠ b → ¬ mir (l / 4) → tabGet t.dirty l = tabGet s.dirty l)

/-- R55 to R66, R74, R76: windows B and C. -/
def Obligations.HostWindows : Prop :=
  (∀ (s : State) (link off len : Nat) (p : Page), s.linkUp link = true → malformedTlp off len = false → s.windowBOpen = true →
    let a := (s.windowB off len .read).2.1
    (s.windowB off len .read).1 = 0 → (s.windowB off len .read).2.2.1 = .page p →
    ∃ t, exec (.windowBRead link off len) s = .next t ∧ t.mem = s.mem
      ∧ t.boot.replies = s.boot.replies ++
        [.data (s.pageRead (addrCol a) p (addrAp a == 1) (addrOff a % p.size) len).2.1
          (s.pageRead (addrCol a) p (addrAp a == 1) (addrOff a % p.size) len).2.2])
  ∧ (∀ (s : State) (link off : Nat) (bytes : List Byte) (p : Page), s.linkUp link = true → malformedTlp off bytes.length = false →
    s.windowBOpen = true →
    let a := (s.windowB off bytes.length .write).2.1
    (s.windowB off bytes.length .write).1 = 0 → (s.windowB off bytes.length .write).2.2.1 = .page p → p.tol = 0 →
    ∃ t, exec (.windowBWrite link off bytes) s = .next t ∧ t.boot.replies = s.boot.replies
      ∧ (∀ x, ¬ s.reaches ⟨addrCol a, p, addrAp a == 1, addrOff a % p.size⟩ bytes.length x → s.wrongLine (x / 64) = none →
          Memory.read t.mem x = Memory.read s.mem x)
      ∧ (p.comp = false → ∀ i, i < bytes.length →
          Memory.read t.mem (s.place (addrCol a) p.tier (p.base + addrOff a % p.size + i)).addr = bytes.getD i 0))
  ∧ (∀ (s : State) (v : DWord), s.linkUp 0 = true → s.evq.head ≤ v.toNat → v.toNat ≤ s.evq.tail → ∃ t, exec (.evqHeadWrite v) s = .next t
    ∧ t.evq.head = v.toNat ∧ t.mem = s.mem)
  ∧ (∀ (s : State) (i : Nat) (v : Rec64), s.linkUp 0 = true → i < 16 → ctxState (s.ctxEnt i) < 2 → ctxState v < 2 →
    ∃ t, exec (.contextTableWrite i v) s = .next t ∧ t.ctxEnt i = ctxClean v ∧ (∀ j, j ≠ i → t.ctxEnt j = s.ctxEnt j)
      ∧ (ctxState (s.ctxEnt i) = 0 → ctxState v = 1 → ∀ q, q < 64 → (t.lq i q).done = 0))
  ∧ (∀ (s : State) (i : Nat) (v : DWord), s.linkUp 0 = true → i < 16384 → ∃ t, exec (.registerWrite (0x100000 + 8 * i) v) s = .next t
    ∧ t = { s with tabs.seg := t.tabs.seg } ∧ tabGet t.tabs.seg i = v ∧ ∀ j, j ≠ i → tabGet t.tabs.seg j = tabGet s.tabs.seg j)
  ∧ (∀ (s : State) (i : Nat) (v : DWord), s.linkUp 0 = true → i < 4096 → ∃ t, exec (.registerWrite (0x200000 + 8 * i) v) s = .next t
    ∧ (tabGet t.tabs.route i).toNat = v.toNat % 2 ^ 36 ∧ (∀ j, j ≠ i → tabGet t.tabs.route j = tabGet s.tabs.route j) ∧ t.mem = s.mem
    ∧ ((∀ p, p ∈ s.net → pktHere p = true) → t = { s with tabs.route := t.tabs.route }))
  ∧ (∀ (s : State) (link port : Nat), s.linkUp link = true → port ≤ 65 → ∃ t, exec (.postedWriteToPort link port) s = .next t
    ∧ t.evq.seq = s.evq.seq + 1 ∧ t.sch = s.sch ∧ t.mem = s.mem)
  ∧ (∀ (s : State) (link port : Nat), s.linkUp link = true → 65 < port → port < 128 →
    exec (.postedWriteToPort link port) s = .next { s with boot.replies := s.boot.replies ++ [.ur] })

/-- R65 to R68: submission. -/
def Obligations.RecordSubmission : Prop :=
  (∀ (s : State) (link port : Nat) (bytes : List Byte), s.linkUp link = true → port < 64 → bytes.length = 64 →
    let r := recOf bytes
    (s.submitCode false link port r = 0 →
      ∃ t, exec (.submitLaunchRecord link port ⟨0, bytes⟩) s = .next t ∧ (t.lq (recCtx r) port).recs = (s.lq (recCtx r) port).recs ++ [r]
        ∧ t.boot.replies = s.boot.replies ++ [.sc])
    ∧ (s.submitCode false link port r ≠ 0 →
      ∃ t, exec (.submitLaunchRecord link port ⟨0, bytes⟩) s = .next t ∧ t.sch = s.sch ∧ t.boot.replies = s.boot.replies ++ [.rrs]
        ∧ (tabGet t.tabs.lastRef (16 * port + recCtx r)).toNat = s.submitCode false link port r))
  ∧ (∀ (s : State) (link : Nat) (bytes : List Byte), s.linkUp link = true → bytes.length = 64 →
    s.submitCode false link 64 (recOf bytes) = 0 →
    ∃ t, exec (.submitCollectiveRecord link ⟨0, bytes⟩) s = .next t
      ∧ t.sch.collq = s.sch.collq ++ [⟨recCtx (recOf bytes), recOf bytes, s.sch.collNum⟩] ∧ t.boot.replies = s.boot.replies ++ [.sc])
  ∧ (∀ (s : State) (link : Nat) (bytes : List Byte), s.linkUp link = true → bytes.length = 64 →
    let r := recOf bytes
    s.submitCode false link 65 r = 0 →
    ∃ t, exec (.submitManagementRecord link ⟨0, bytes⟩) s = .next t ∧ t.sch.mgmt = s.sch.mgmt ++ [r]
      ∧ t.boot.replies = s.boot.replies ++ [.sc]
      ∧ (recKind r = 0x10 → recTrig r = 0 → s.currentAfter ≠ some (fieldNat r 195 192) → t.tabs.switching = true ∧ t.sch.stopped = true))
  ∧ (∀ (s : State) (link port off : Nat) (bytes : List Byte), s.linkUp link = true → port < 128 → crosses4K off bytes.length = false →
    66 ≤ port ∨ off ≠ 0 ∨ bytes.length ≠ 64 →
    exec (.submitLaunchRecord link port ⟨off, bytes⟩) s = .next { s with boot.replies := s.boot.replies ++ [.ur] })

/-- R73, R75, R103, R148, R464, R467. -/
def Obligations.ContextManagement : Prop :=
  (∀ (s : State) (r : Rec64) (rest : List Rec64), s.mgmtHead 0x10 = some (r, rest) → recTrig r = 0 ∨ s.recov = none →
    s.current ≠ some (fieldNat r 195 192) →
    ∃ t w, exec .switchContext s = .next t ∧ t.sch.sw = some w ∧ w.newCtx = fieldNat r 195 192 ∧ w.pass2 = false
      ∧ w.cut = (if recTrig r = 0 then s.sch.cuts.headD s.tick else s.tick)
      ∧ t.sch.mgmt = rest ∧ t.sch.stopped = true ∧ t.tabs.switching = true
      ∧ (ctxState (s.ctxEnt w.newCtx) ≠ 2 → ctxState (t.ctxEnt w.newCtx) = 3) ∧ t.cols = s.cols ∧ t.mem = s.mem)
  ∧ (∀ (s : State) (w : Switch), s.sch.sw = some w → w.pass2 = false → s.draining w = false →
    (∃ g c, g ∈ s.preGroups w ∧ c ∈ g.2.1.cols ∧ (s.col c).frozen = false) →
    (∀ g ∈ s.preGroups w, g.2.1.hdr.det = true → ∀ k ∈ g.2.1.cores, (s.core k).between = true) →
    ∃ t, exec .preemptionSecondPass s = .next t ∧ (∀ g ∈ s.preGroups w, ∀ c ∈ g.2.1.cols, (t.col c).frozen = true) ∧ t.mem = s.mem)
  ∧ (∀ (s : State) (w : Switch), s.sch.sw = some w → w.pass2 = false → s.draining w = false →
    (∀ g ∈ s.preGroups w, ∀ c ∈ g.2.1.cols, (s.col c).frozen = true) →
    (∀ g ∈ s.preGroups w, s.groupQuiet g.1 g.2.1 g.2.2 = true) →
    ∃ t, exec .preemptionSecondPass s = .next t ∧ (∃ w', t.sch.sw = some w' ∧ w'.pass2 = true)
      ∧ ∀ g ∈ s.preGroups w, ∃ g' o, t.group g.1 = some g' ∧ g'.phase = .saved o)
  ∧ (∀ (s : State) (w : Switch), s.sch.sw = some w → w.pass2 = true →
    ∃ t, exec .switchContextComplete s = .next t ∧ t.tabs.curCtx = w.newCtx ∧ t.tabs.noCtx = false ∧ t.tabs.switching = t.sch.stopped
      ∧ ((∀ r ∈ s.sch.mgmt, recKind r ≠ 0x10) → t.sch.stopped = false)
      ∧ t.sch.sw = none ∧ t.replicas = [] ∧ ctxState (t.ctxEnt w.newCtx) = 2)
  ∧ (∀ (s u : State) (r : Rec64) (rest : List Rec64), s.mgmtHead 0x12 = some (r, rest) → s.tabs.noCtx = false →
    s.away (fieldNat r 255 192) = false →
    (s.popMgmt rest).signalSem s.tabs.curCtx none (fieldNat r 255 192) (fieldBits r 256 64) false = (u, .ok ()) →
    exec .signalSemaphore s = .next { u with sch.mgmtExec := none })
  ∧ (∀ (s : State) (r : Rec64) (rest : List Rec64) (c0 : Nat) (ups : List Nat) (coll : Nat), s.mgmtHead 0x13 = some (r, rest) →
    s.sch.aborts.head? = some (c0, ups, coll) →
    let ctx := fieldNat r 195 192
    ∃ t, exec .abortContext s = .next t ∧ t.sch.mgmt = rest
      ∧ (∀ q, q < 64 → (t.lq ctx q).recs = (s.lq ctx q).recs.drop (ups.getD q 0 - ((s.lq ctx q).accepted - (s.lq ctx q).recs.length)))
      ∧ (∀ g gr, t.group g = some gr → s.group g = some gr ∧ gr.ctx ≠ ctx)
      ∧ t.sch.collq = s.sch.collq.filter (fun x => !(x.ctx == ctx && decide (x.num < coll)))
      ∧ (s.current = some ctx → t.tabs.noCtx = true ∧ ctxState (t.ctxEnt ctx) = 1))

/-- R77, R81, R91, R92, R131, R292. -/
def Obligations.LaunchPipeline : Prop :=
  (∀ (s : State) (ctx queue : Nat) (r : Rec64) (rest : List Rec64), s.canStart ctx queue = true → (s.lq ctx queue).recs = r :: rest →
    ∃ t, exec (.launchStart ctx queue) s = .next t ∧ (t.lq ctx queue).recs = rest
      ∧ t = (({ s.setLq ctx queue { s.lq ctx queue with recs := rest, trig := .idle, run := some { record := r } } with
          sch := { (s.setLq ctx queue { s.lq ctx queue with recs := rest, trig := .idle, run := some { record := r } }).sch with
            firedOrder := s.sch.firedOrder.erase (ctx, queue) } } : State).readDescriptor ctx queue r))
  ∧ (∀ (s : State) (core ctx q k sl ix : Nat) (l : LaunchRun) (h : KHdr), s.current = some ctx → s.schedules = true →
    s.pw.runs (core / 6) = true → s.firedFirst ctx = false → s.lowerTakes ctx core = false → s.pick ctx core = some (q, k) → (s.lq ctx q).run = some l → (l.sr.getD k {}).hdr = some h →
    s.placeFor (ctx, q, k) (l.stages.getD k {}) (l.sr.getD k {}) h core = some (sl, ix) →
    ∃ t, exec (.groupDispatch core) s = .next t ∧ t.sch.nextGroup = s.sch.nextGroup + 1
      ∧ ∀ c ∈ slotCols h sl, (tabGet t.cols c).isSome = true ∧ (t.col c).group = s.sch.nextGroup ∧ (t.col c).live = 0xFFFFFFFF
        ∧ ((t.col c).slot 0).mask = 0xFFFFFFFF ∧ ((t.col c).slot 0).pc = entryPc c (l.stages.getD k {}).entry
        ∧ ((t.col c).slot 0).cond = .ready ∧ (∀ j, j < 8 → (t.col c).rdJ j = 0xFFFFFFFF))
  ∧ (∀ (s : State) (gid : Nat) (g : Group), s.group gid = some g → s.canFinish gid g = true →
    ∃ t, exec (.groupFinish gid) s = .next t ∧ ∀ c ∈ g.cols, tabGet t.cols c = none)
  ∧ (∀ (s : State) (gid : Nat) (g : Group) (l : LaunchRun), s.group gid = some g → (s.lq g.ctx g.queue).run = some l →
    g.phase = .finished → g.stage < l.sr.length → (l.sr.getD g.stage {}).ret = g.index →
    ∃ t, exec (.groupRetirement gid) s = .next t ∧ t.group gid = none
      ∧ ∀ l', (t.lq g.ctx g.queue).run = some l' → (l'.sr.getD g.stage {}).ret = g.index + 1)

/-- R107, R114, R116, R117, R122, R126. -/
def Obligations.FailuresAndRecovery : Prop :=
  (∀ (s : State) (c : Nat), s.inService = true → c < nCols → s.runsOn c ≠ [] → ∃ t r, exec (.logicCheckerError c false) s = .next t
    ∧ t.boot.st = 6 ∧ t.recov = some r ∧ (c, 1) ∈ r.failed ∧ r.contained = false ∧ t.mem = s.mem
    ∧ ∀ g ∈ s.runsOn c, (tabGet s.cols g).isSome = true → (t.col g).frozen = true)
  ∧ (∀ (s : State) (c : Nat), s.inService = true → c < nCols → s.runsOn c ≠ [] → ∃ t r, exec (.logicCheckerError c true) s = .next t
    ∧ t.boot.st = 6 ∧ t.recov = some r ∧ ∀ d, d / 8 = c / 8 → s.runsOn d ≠ [] → (d, 1) ∈ r.failed)
  ∧ (∀ (s : State) (k c : Nat), s.inService = true → k < 768 → clusterOf c = k → s.runsOn c ≠ [] →
    ∃ t r, exec (.sliceFailure (.channelDown k)) s = .next t ∧ t.boot.st = 6 ∧ t.recov = some r ∧ (c, 2) ∈ r.failed)
  ∧ (∀ (s : State) (n c : Nat), s.inService = true → n < 24 → stackOf (clusterOf c) = n → c < nCols → s.runsOn c ≠ [] →
    ∃ t r, exec (.sliceFailure (.stackDown n)) s = .next t ∧ t.boot.st = 6 ∧ t.recov = some r ∧ (c, 2) ∈ r.failed)
  ∧ (∀ (s : State) (c : Nat), s.inService = true → c < nCols → 16 ≤ s.badLineCount c → s.runsOn c ≠ [] →
    ∃ t r, exec (.sliceFailure (.badLines c)) s = .next t ∧ t.boot.st = 6 ∧ t.recov = some r ∧ (c, 2) ∈ r.failed)
  ∧ (∀ (s : State) (ch : Nat), s.inService = true → ch < 96 → ∃ t, exec (.secondTierChannelDown ch) s = .next t ∧ t.boot.st = 7
    ∧ t.pw.fatal = true ∧ (∀ c, c < nCols → (t.fold c).st = 3)
    ∧ ∀ c o, clusterOf c / 8 = 8 * (ch / 8) + ch % 8 → o < 2 ^ 27 → Memory.read t.mem (⟨c, true, o⟩ : Place).addr = 0)
  ∧ (∀ (s : State) (k : Nat), s.inService = true → k < 768 → ∃ t, exec (.heartbeatPoll k true) s = .next t
    ∧ t = { s with pw.missed := t.pw.missed } ∧ tabGet t.pw.missed k = 0)
  ∧ (∀ (s : State) (k : Nat), s.inService = true → k < 768 → s.pw.point k ≠ 4 → tabGet s.pw.missed k = 1 →
    ∃ t r, exec (.heartbeatPoll k false) s = .next t ∧ t.boot.st = 6 ∧ t.recov = some r ∧ r.lost = true)
  ∧ (∀ (s : State) (c : Nat), s.inService = true → c < nCols → (s.runsOn c).any s.watched = true →
    ∃ t r, exec (.watchdogExpiry c) s = .next t ∧ t.boot.st = 6 ∧ t.recov = some r ∧ (c, 3) ∈ r.failed)
  ∧ (∀ (s : State) (r : Recovery), s.recov = some r → r.contained = false → s.sch.sw = none → s.sch.cuts = [] →
    ∃ t, exec .contain s = .next t ∧ t.schedules = false ∧ (∀ ctx g gr, s.current = some ctx → t.group g = some gr → gr.ctx ≠ ctx)
    ∧ (s.boot.st ≠ 7 → r.lost = false → (s.foldPlan r.failed).isSome = true → t.recov = some { r with contained := true })
    ∧ (s.boot.st ≠ 7 → r.lost = true ∨ s.foldPlan r.failed = none → t.recov = none ∧ t.boot.st = 7))
  ∧ (∀ (s : State) (r : Recovery) (plan : List (Nat × FoldEnt)), s.recov = some r → r.contained = true →
    s.foldPlan r.failed = some plan → (∀ x ∈ plan, ∀ y ∈ plan, x.2.host = y.1 → x.1 = y.1) →
    (plan.map (·.1)).Nodup →
    ∃ t, exec .foldAndRemap s = .next t ∧ t.boot.st = 5 ∧ t.recov = none ∧ ∀ x ∈ plan, t.fold x.1 = x.2)
  ∧ (∀ (s : State) (h : Nat), (s.fold h).st = 1 → s.boot.st = 5 → (s.fold (s.fold h).host).fold ≠ 3 →
    (∀ e ∈ s.mintq, ∀ m ∈ e.2, m.running = true → m.col ≠ if tabGet s.foldTurn h then (s.fold h).host else h) →
    ∃ t, exec (.foldTurn h) s = .next t ∧ tabGet t.foldTurn h = !tabGet s.foldTurn h)

/-- R15, R18, R49, R50, R52, R61. The challenge transcript is the model's choice (log entry 6). -/
def Obligations.LinksPortsAndAttestation : Prop :=
  (∀ (s : State) (o : TrainOutcome) (l : Link), trainedLink o = some l → s.boot.link0.training = true →
    ∃ t, exec (.linkTraining 0 o) s = .next t ∧ t = ({ s with boot.link0 := l } : State).postEvent 1 0 (linkDetail o))
  ∧ (∀ (s : State) (o : TrainOutcome) (l : Link), trainedLink o = some l → s.boot.link1.training = true →
    ∃ t, exec (.linkTraining 1 o) s = .next t ∧ t = ({ s with boot.link1 := l } : State).postEvent 1 1 (linkDetail o))
  ∧ (∀ s : State, s.spdmOn = true → ∃ t, exec (.spdmGetCertificate 0) s = .next t
    ∧ t = { s with boot.spdm := s.boot.spdm ++ [⟨Config.certChain, []⟩] })
  ∧ (∀ (s : State) (nonce : List Byte), s.spdmOn = true →
    ∃ t r, exec (.spdmChallenge nonce) s = .next t ∧ t = { s with boot.spdm := s.boot.spdm ++ [r] }
    ∧ r.sig = Config.sm2Sign r.bytes)
  ∧ (∀ (s : State) (i : Nat), s.spdmOn = true → 1 ≤ i → i ≤ 4 → ∃ t r, exec (.spdmGetMeasurements i) s = .next t
    ∧ t = { s with boot.spdm := s.boot.spdm ++ [r] } ∧ r.sig = Config.sm2Sign r.bytes
    ∧ r.bytes = if i = 1 then Config.bootRomDigest
        else if i = 2 then (if s.boot.jasper = true ∧ 3 ≤ s.boot.st then Config.sm3 s.boot.jasperM else List.replicate 32 0)
        else if i = 3 then (if s.boot.reached5 = true then Config.sm3 s.boot.microM else List.replicate 32 0)
        else bytesOf 4 Config.fusedSvn.toNat ++ Config.fusedKeyHash)
  ∧ (∀ (s : State) (n : Nat), s.portUp n = true → tabGet s.pw.portRetry n < 16 → ∃ t, exec (.corruptedFlitRetry ⟨n, true⟩) s = .next t
    ∧ t = { s with pw.portRetry := t.pw.portRetry } ∧ tabGet t.pw.portRetry n = tabGet s.pw.portRetry n + 1)
  ∧ (∀ (s : State) (n : Nat), s.portUp n = true → ∃ t, exec (.corruptedFlitRetry ⟨n, false⟩) s = .next t
    ∧ t = { s with pw.portRetry := t.pw.portRetry } ∧ tabGet t.pw.portRetry n = 1)
  ∧ (∀ (s : State) (n : Nat), s.portUp n = true → tabGet s.pw.portRetry n = 16 → ∃ t, exec (.portDown n) s = .next t
    ∧ t.portUp n = false ∧ t.mem = s.mem ∧ ∀ pkg, (tabGet t.tabs.route pkg).getLsbD n = false)
  ∧ (∀ (s : State) (l : AfzilLink) (a b : Nat), linkEnds l = some (a, b) → s.linkIsDown a b = false →
    ∃ t, exec (.linkDown l) s = .next t ∧ t.linkIsDown a b = true ∧ t.linkIsDown b a = true ∧ t.mem = s.mem)
  ∧ (∀ (s : State) (p : Packet), 5 ≤ p.vc ∨ 5 ≤ p.npay → ∃ t, exec (.fabricHeaderDiscard p) s = .next t ∧ t.net = s.net.erase p
    ∧ t.evq.seq = s.evq.seq + 1 ∧ t.mem = s.mem ∧ t.cols = s.cols)

/-- A packet of a kind can arrive, and its module is not lost (R21, R48, R126). -/
def Sys2Proof.Machine.State.Comes (s : State) (p : Packet) (kind : Nat) : Prop := s.arrives p kind = true ∧ (s.boot.st ≠ 7 ∨ pktOurs p = true)

/-- The block of an arriving request translates to a page. -/
def Sys2Proof.Machine.State.Served (s : State) (p : Packet) (kind : Nat) (acc : Acc) (pg : Page) : Prop :=
  s.Comes p kind
    ∧ s.check s.tabs.curCtx (pktDest p) (addrOff p.dest.toNat) 256 (addrAp p.dest.toNat == 1) acc = .page pg

/-- R358 to R361, R381, R383, R386: requests at their owner. -/
def Obligations.RequestsAtTheirOwner : Prop :=
  (∀ (s : State) (p : Packet) (pg : Page), s.Served p 0x01 .read pg → ∃ t, exec (.ldrRequest p) s = .next t ∧ t.mem = s.mem
    ∧ t = ((s.take p).readAccs p pg p.accs).1.send (replyTo p 0 ((s.take p).readAccs p pg p.accs).2))
  ∧ (∀ (s : State) (p : Packet) (pg : Page), s.Served p 0x05 .read pg → pg.sl = false → ∃ t, exec (.ldroRequest p) s = .next t
    ∧ t.mem = s.mem ∧ t = ((s.take p).readAccs p pg p.accs).1.send (replyTo p 0 ((s.take p).readAccs p pg p.accs).2))
  ∧ (∀ (s : State) (p : Packet) (pg : Page), s.Served p 0x05 .read pg → pg.sl = true → ∃ t, exec (.ldroRequest p) s = .next t
    ∧ t.mem = s.mem
    ∧ let r := (s.take p).readAccs p pg p.accs
      let l := r.1.readLines p pg (linesTouched p.accs)
      t = l.1.send { replyWith p 0x02 0 r.2 l.2.1 with mask := BitVec.ofNat 32 l.2.2 })
  ∧ (∀ (s : State) (p : Packet) (pg : Page), s.Comes p 0x03 →
    let u := (s.placeItem p).1
    let q := (s.placeItem p).2
    u.check u.tabs.curCtx (pktDest q) (addrOff q.dest.toNat) 256 (addrAp q.dest.toNat == 1) .write = .page pg →
    pg.tol = 0 ∨ addrAp q.dest.toNat ≠ 0 ∨ (∀ a ∈ q.accs, a.size % 4 = 0) → ∃ t, exec (.strWrite p) s = .next t
    ∧ t = ((u.take q).writeSpans (q.accs.map fun a => (pktSpan q pg a, bytesOf a.size a.data.toNat, a.pois))).send (replyTo q 0 [])
    ∧ ∀ x, (∀ a ∈ q.accs, ¬ u.reaches (pktSpan q pg a) a.size x) → s.wrongLine (x / 64) = none → Memory.read t.mem x = Memory.read s.mem x)
  ∧ (∀ (s : State) (p : Packet) (pg : Page), s.Served p 0x0A .atomic pg → pg.tol = 0 → addrAp p.dest.toNat = 0 →
    ∃ t, exec (.atomicRequest p) s = .next t
    ∧ (let r := (s.take p).atomicAll (fun a => some (pktSpan p pg a)) p.op.toNat p.cas p.ty p.accs
       t = r.1.send (replyTo p 0 r.2))
    ∧ ∀ x, (∀ a ∈ p.accs, ¬ s.reaches (pktSpan p pg a) a.size x) → s.wrongLine (x / 64) = none → Memory.read t.mem x = Memory.read s.mem x)
  ∧ (∀ (s : State) (p : Packet) (pg : Page), s.Served p 0x0C .atomic pg → pg.tol = 0 → addrAp p.dest.toNat = 0 →
    ∃ t, exec (.redRequest p) s = .next t
    ∧ (∀ x, (∀ a ∈ p.accs, ¬ s.reaches (pktSpan p pg a) a.size x) → s.wrongLine (x / 64) = none → Memory.read t.mem x = Memory.read s.mem x)
    ∧ t.mem = ((s.take p).atomicAll (fun a => some (pktSpan p pg a)) p.op.toNat false p.ty p.accs).1.mem)
  ∧ (∀ (s : State) (p : Packet) (pg : Page) (a : LaneAcc) (as : List LaneAcc), s.Served p 0x0D .atomic pg → p.accs = a :: as →
    pg.tol = 0 → addrAp p.dest.toNat = 0 → ∃ t, exec (.semsgPacket p) s = .next t
    ∧ t = ((s.take p).signalSem s.tabs.curCtx none a.addr.toNat a.data (p.op == 1)).1.send (replyTo p 0 []))

/-- R137, R291, R305, R358 to R360, R381: what completes at a requester. -/
def Obligations.RepliesAtTheirRequester : Prop :=
  (∀ (s : State) (p : Packet) (r : Req), s.Comes p 0x02 → p.words = [] → s.reqOf p = some r →
    ∃ t, exec (.readReply p) s = .next t ∧ (∀ q ∈ (t.col (pktDest p)).reqs, q.tag ≠ p.req)
      ∧ (t.col (pktDest p)).results = ((s.col (pktDest p)).fillReply p.req p.ty p.accs).results ∧ t.mem = s.mem)
  ∧ (∀ (s : State) (p : Packet) (r : Req), s.Comes p 0x0B → s.reqOf p = some r →
    ∃ t, exec (.atomicReply p) s = .next t ∧ (∀ q ∈ (t.col (pktDest p)).reqs, q.tag ≠ p.req)
      ∧ (t.col (pktDest p)).results = ((s.col (pktDest p)).fillReply p.req p.ty p.accs).results ∧ t.mem = s.mem)
  ∧ (∀ (s : State) (p : Packet) (r : Req), s.Comes p 0x04 → s.sch.mgmtSent ≠ some p.req → s.sentEnd p.req = none → s.reqOf p = some r →
    ∃ t, exec (.writeAcknowledgement p) s = .next t ∧ (∀ q ∈ (t.col (pktDest p)).reqs, q.tag ≠ p.req) ∧ t.mem = s.mem)
  ∧ (∀ (s : State) (p : Packet), s.reqOf p = none → (s.Comes p 0x02 → exec (.readReply p) s = .next (s.landed p))
    ∧ (s.Comes p 0x0B → exec (.atomicReply p) s = .next (s.landed p)))
  ∧ (∀ (s : State) (col id : Nat) (c : Column) (r : Result), tabGet s.cols col = some c →
    (c.results.find? fun q => q.id == id && q.await == .none) = some r → c.slots.all (fun e => e.2.exiting == 0) = true →
    ∃ t, exec (.resultWriteback col id) s = .next t ∧ (t.col col).v = (c.applyWrites r.writes).v ∧ (t.col col).s = (c.applyWrites r.writes).s
      ∧ (t.col col).p = (c.applyWrites r.writes).p ∧ (t.col col).fpflags = c.fpflags ||| r.flags
      ∧ (∀ q ∈ (t.col col).results, q.id ≠ id) ∧ t.mem = s.mem)
  ∧ (∀ (s : State) (col k : Nat) (c : Column), tabGet s.cols col = some c → k < 4 → (c.slot k).cond = .napping →
    (c.slot k).nap ≤ s.cycles col → (c.slot k).exiting = 0 → (c.slot k).lanes ≠ 0 → c.demote = none →
    ∃ t, exec (.napExpiry col k) s = .next t ∧ ((t.col col).slot k).cond = (if c.outstanding (c.slot k).lanes then .parked else .ready)
      ∧ ((t.col col).slot k).pc = (c.slot k).pc ∧ t.mem = s.mem)
  ∧ (∀ (s : State) (col k : Nat) (c : Column) (pg : Page), tabGet s.cols col = some c → (c.slot k).cond = .trapping →
    c.outstanding (c.slot k).lanes = false → s.faults.any (fun f => f.waiter == .split col k) = false →
    let off := addrOff (s.hdr col).traptab.toNat + 8 * (c.slot k).trap.tcode.toNat
    let r := s.pageRead col pg false (off % pg.size) 8
    s.check (s.ctxOf col) col off 8 false .read = .page pg → r.2.2 = false → targetOk col (BitVec.ofNat 64 (natOf r.2.1)) = true →
    ∃ t, exec (.trapEntry col k) s = .next t ∧ ((t.col col).slot k).hnd = true ∧ ((t.col col).slot k).cond = .ready
      ∧ ((t.col col).slot k).pc = pcOf (BitVec.ofNat 64 (natOf r.2.1)) ∧ ((t.col col).slot k).mask = (c.slot k).mask)

/-- R397: messages. -/
def Obligations.MessagesBetweenColumns : Prop :=
  (∀ (s : State) (p : Packet), s.Comes p 0x0E → s.messageReady p = true → p.words.length = 32 →
    (tabGet s.cols (pktDest p)).isSome = true → (s.hdr (pktDest p)).comm = true → (s.col (pktDest p)).msgs.length < 16 →
    ∃ t, exec (.message p) s = .next t ∧ (t.col (pktDest p)).msgs = (s.col (pktDest p)).msgs ++ [p.words] ∧ t.mem = s.mem
      ∧ t = ((s.take p).modCol (pktDest p) fun c => { c with msgs := c.msgs ++ [p.words] }).send (messageReply p 0x0F))
  ∧ (∀ (s : State) (p : Packet), s.Comes p 0x0E → s.messageReady p = true → p.words.length = 32 →
    (tabGet s.cols (pktDest p)).isSome = true → (s.hdr (pktDest p)).comm = true → 16 ≤ (s.col (pktDest p)).msgs.length →
    exec (.message p) s = .next ((s.take p).send (messageReply p 0x10)))
  ∧ (∀ (s : State) (p : Packet), s.Comes p 0x0E → s.messageReady p = true → p.words.length = 32 →
    (tabGet s.cols (pktDest p)).isSome = true → (s.hdr (pktDest p)).comm = false →
    exec (.message p) s = .next (((s.take p).postEvent 6 (pktSrc p) (at_ 4 4)).send (messageReply p 0x0F)))
  ∧ (∀ (s : State) (p : Packet), s.Comes p 0x0F → s.answered p = true → (tabGet s.cols (pktDest p)).isSome = true →
    ∃ t, exec (.messageAccepted p) s = .next t ∧ (∀ u ∈ (t.col (pktDest p)).unacked, u.2.2 ≠ p.req)
      ∧ (t.col (pktDest p)).msgs = (s.col (pktDest p)).msgs ∧ t.mem = s.mem)
  ∧ (∀ (s : State) (p : Packet), s.Comes p 0x10 → s.answered p = true → (tabGet s.cols (pktDest p)).isSome = true →
    ∃ t m, exec (.messageBounced p) s = .next t ∧ (t.col (pktDest p)).bounced = (s.col (pktDest p)).bounced ++ [m]
      ∧ m.words = p.words ∧ m.dest = p.src ∧ m.kind.toNat = 0x0E ∧ m.req = p.req)
  ∧ (∀ (s : State) (p : Packet), s.answered p = false → (s.Comes p 0x0F → exec (.messageAccepted p) s = .next (s.landed p))
    ∧ (s.Comes p 0x10 → exec (.messageBounced p) s = .next (s.landed p)))
  ∧ (∀ (s : State) (col q : Nat) (m : Packet), (tabGet s.cols col).isSome = true →
    (s.col col).bounced.find? (fun m => (s.col col).unacked.any fun u => u.1 == q && u.2.2 == m.req) = some m →
    exec (.messageResend col q) s = .next ((s.modCol col fun c => { c with bounced := c.bounced.erase m }).send m))

/-- An element-wise integer word yields in each element the fitted exact value. -/
def Sys2Proof.Machine.Elementwise (s : State) (i : Instr) (col k : Nat) (w : Full) (sat : Bool) (poi : Nat → Bool) (exact : Nat → Nat → Int) : Prop :=
  ∃ val, s.Yields i col k w (isWide w.ty) (w.ty == .i32) val poi 0
    ∧ ∀ l, (s.ctxFor col k w).en.getLsbD l = true → val l < 2 ^ (elemBits w.ty * elemCount w.ty)
      ∧ ∀ j, j < elemCount w.ty → Fits sat (elemBits w.ty) (isSigned w.ty) (exact l j) (elemAt (elemBits w.ty) (val l) j)

/-- R313: the arithmetic words of the mould. -/
def Obligations.IntegerArithmetic : Prop :=
  ∀ (s : State) (w : Full) (col k : Nat), s.Issues col k →
    let x := s.ctxFor col k w
    let rd (v j : Nat) : Int := readInt (elemBits w.ty) (isSigned w.ty) (elemAt (elemBits w.ty) v j)
    let A (l j : Nat) : Int := rd (x.ra (isWide w.ty) l) j
    let B (l j : Nat) : Int := rd (x.rbi (isWide w.ty) l) j
    let C (l j : Nat) : Int := rd (x.rc (isWide w.ty) l) j
    let q2 (l : Nat) : Bool := x.qa (isWide w.ty) l || x.qb (isWide w.ty) l
    let q3 (l : Nat) : Bool := q2 l || x.qc (isWide w.ty) l
    (s.Clears col k w (fmt2 tyZp true [xBit 0]) noPts →
      Elementwise s (.iadd w) col k w (xb w 0) q2 (fun l j => A l j + B l j)
      ∧ Elementwise s (.isub w) col k w (xb w 0) q2 (fun l j => A l j - B l j))
    ∧ (s.Clears col k w (fmt2 tyZ true []) noPts →
      Elementwise s (.imul w) col k w false q2 (fun l j => A l j * B l j)
      ∧ Elementwise s (.imulh w) col k w false q2 (fun l j => Int.fdiv (A l j * B l j) (2 ^ elemBits w.ty)))
    ∧ (s.Clears col k w (fmt2 tyZp true []) noPts →
      Elementwise s (.imin w) col k w false q2 (fun l j => min (A l j) (B l j))
      ∧ Elementwise s (.imax w) col k w false q2 (fun l j => max (A l j) (B l j)))
    ∧ (s.Clears col k w (fmt3 tyZ []) noPts →
      Elementwise s (.iadd3 w) col k w false q3 (fun l j => A l j + B l j + C l j)
      ∧ Elementwise s (.imad w) col k w false q3 (fun l j => A l j * B l j + C l j))
    ∧ (s.Clears col k w (fmt1 [.i32, .i64, .i16x2, .i8x4] [xBit 0]) noPts →
      Elementwise s (.iabs w) col k w (xb w 0) (x.qa (isWide w.ty)) (fun l j => |A l j|))

/-- A word yields one value of the type's width, whose bits are given. -/
def Sys2Proof.Machine.Bitwise (s : State) (i : Instr) (col k : Nat) (w : Full) (poi : Nat → Bool) (bit : Nat → Nat → Bool) : Prop :=
  ∃ val, s.Yields i col k w (isWide w.ty) (w.ty == .i32) val poi 0
    ∧ ∀ l, (s.ctxFor col k w).en.getLsbD l = true → BitsAre (elemBits w.ty) (val l) (bit l)

/-- R313, R323: bitwise words and shifts. -/
def Obligations.BitwiseAndShifts : Prop :=
  ∀ (s : State) (w : Full) (col k : Nat), s.Issues col k →
    let x := s.ctxFor col k w
    let wd := isWide w.ty
    let ew := elemBits w.ty
    let q1 (l : Nat) : Bool := x.qa wd l
    let q2 (l : Nat) : Bool := x.qa wd l || x.qb wd l
    (s.Clears col k w (fmt2 tyL true []) noPts →
      Bitwise s (.and w) col k w q2 (fun l i => (x.ra wd l).testBit i && (x.rbi wd l).testBit i)
      ∧ Bitwise s (.or w) col k w q2 (fun l i => (x.ra wd l).testBit i || (x.rbi wd l).testBit i)
      ∧ Bitwise s (.xor w) col k w q2 (fun l i => (x.ra wd l).testBit i != (x.rbi wd l).testBit i)
      ∧ Bitwise s (.andn w) col k w q2 (fun l i => (x.ra wd l).testBit i && !(x.rbi wd l).testBit i)
      ∧ Bitwise s (.orn w) col k w q2 (fun l i => (x.ra wd l).testBit i || !(x.rbi wd l).testBit i))
    ∧ (s.Clears col k w (fmt1 tyL []) noPts →
      Bitwise s (.brev w) col k w q1 (fun l i => (x.ra wd l).testBit (ew - 1 - i))
      ∧ (∃ val, s.Yields (.popc w) col k w wd (w.ty == .i32) val q1 0 ∧ ∀ l, x.en.getLsbD l = true →
          val l = ((List.range ew).filter (fun i => (x.ra wd l).testBit i)).length)
      ∧ (∃ val, s.Yields (.clz w) col k w wd (w.ty == .i32) val q1 0 ∧ ∀ l, x.en.getLsbD l = true →
          val l ≤ ew ∧ (∀ i, i < ew → ew - val l ≤ i → (x.ra wd l).testBit i = false)
            ∧ (val l < ew → (x.ra wd l).testBit (ew - 1 - val l) = true))
      ∧ (∃ val, s.Yields (.ctz w) col k w wd (w.ty == .i32) val q1 0 ∧ ∀ l, x.en.getLsbD l = true →
          val l ≤ ew ∧ (∀ i, i < val l → (x.ra wd l).testBit i = false) ∧ (val l < ew → (x.ra wd l).testBit (val l) = true)))
    ∧ (s.Clears col k w (fmt1 tyMov []) noPts → Bitwise s (.mov w) col k w q1 (fun l i => (x.ra wd l).testBit i))
    ∧ (s.Clears col k w fmtShift noPts →
      let n (l : Nat) : Nat := (if isImm w then immFor w else x.rb false l) % 2 ^ 32
      let q (l : Nat) : Bool := x.qa wd l || x.qb false l
      Bitwise s (.shl w) col k w q (fun l i => decide (n l ≤ i) && (x.ra wd l).testBit (i - n l))
      ∧ Bitwise s (.shr w) col k w q (fun l i => (x.ra wd l).testBit (i + n l))
      ∧ Bitwise s (.sar w) col k w q (fun l i => (x.ra wd l).testBit (min (i + n l) (ew - 1)))
      ∧ Bitwise s (.rol w) col k w q (fun l i => (x.ra wd l).testBit ((i + (ew - n l % ew)) % ew)))

/-- R315, R317 to R319, R321 to R323. -/
def Obligations.FieldsAndSelection : Prop :=
  ∀ (s : State) (w : Full) (col k : Nat), s.Issues col k →
    let x := s.ctxFor col k w
    let wd := isWide w.ty
    let ew := elemBits w.ty
    let cnt (l : Nat) : Nat := if xb w 5 then xf w 4 0 else x.rc false l % 32
    let h (l i : Nat) : Bool := if i < 32 then (x.rb false l).testBit i else (x.ra false l).testBit (i - 32)
    let qf (l : Nat) : Bool := x.qa false l || x.qb false l || (!xb w 5 && x.qc false l)
    let pos (l : Nat) : Nat := x.ctl l % 64
    let wid (l : Nat) : Nat := min (x.ctl l / 256 % 128) 64
    let on (l : Nat) : Prop := x.en.getLsbD l = true
    (s.Clears col k w fmtFsh noPts →
      Bitwise s (.fshl w) col k w qf (fun l i => decide (cnt l ≤ i + 32) && h l (i + 32 - cnt l))
      ∧ Bitwise s (.fshr w) col k w qf (fun l i => h l (i + cnt l)))
    ∧ (s.Clears col k w fmtField noPts →
      Bitwise s (.bfx w) col k w (fun l => x.qa wd l || x.qb false l) (fun l i =>
        if i < wid l then (x.ra wd l).testBit (pos l + i)
        else isSigned w.ty && decide (wid l ≠ 0) && (x.ra wd l).testBit (pos l + wid l - 1))
      ∧ Bitwise s (.bfi w) col k w (fun l => x.qd wd l || x.qa wd l) (fun l i =>
        if pos l ≤ i ∧ i < pos l + wid l then (x.ra wd l).testBit (i - pos l) else (x.rdd wd l).testBit i))
    ∧ (s.Clears col k w (fmt3 [.b32] []) noPts →
      ∃ val, s.Yields (.prmb w) col k w false false val (fun l => x.qa false l || x.qb false l || x.qc false l) 0
        ∧ ∀ l, on l → val l < 2 ^ 32 ∧ ∀ j, j < 4 →
          let nb := elemAt 4 (x.rc false l) j
          let b := if nb % 8 < 4 then elemAt 8 (x.ra false l) (nb % 8) else elemAt 8 (x.rb false l) (nb % 8 - 4)
          elemAt 8 (val l) j = if nb < 8 then b else if 128 ≤ b then 255 else 0)
    ∧ (s.Clears col k w fmtImadw noPts →
      ∃ val, s.Yields (.imadw w) col k w true false val (fun l => x.qa false l || x.qb false l || x.qc true l) 0
        ∧ ∀ l, on l → Fits false 64 false
          (readInt 32 (w.ty == .i32) (x.ra false l) * readInt 32 (w.ty == .i32) (x.rb false l) + (x.rc true l : Nat)) (val l))
    ∧ (s.Clears col k w (fmt3 [.i8x4] [xBit 0]) noPts →
      ∃ val, s.Yields (.idot4 w) col k w false true val (fun l => x.qa false l || x.qb false l || x.qc false l) 0
        ∧ ∀ l, on l → Fits (xb w 0) 32 true
          (toSigned 32 (x.rc false l) + ((List.range 4).map fun j =>
            toSigned 8 (elemAt 8 (x.ra false l) j) * toSigned 8 (elemAt 8 (x.rb false l) j)).sum) (val l))
    ∧ (s.Clears col k w fmtCvti noPts →
      let sc := intCodeOf (xf w 3 0)
      let dc := intCodeOf (xf w 7 4)
      ∃ val, s.Yields (.cvti w) col k w (dc.1 == 64) dc.2 val (x.qa (sc.1 == 64)) 0
        ∧ ∀ l, on l → ∃ r, Fits (xb w 8) dc.1 dc.2 (readInt sc.1 sc.2 (x.ra (sc.1 == 64) l)) r
          ∧ if dc.1 = 64 then val l = r else Fits false 32 false (readInt dc.1 dc.2 r) (val l))
    ∧ (s.Clears col k w fmtMovi noPts →
      ∃ val, s.Yields (.movi w) col k w wd (w.ty == .i32) val (fun _ => false) 0
        ∧ ∀ l, on l → Fits false ew false (if w.ty = .n32 ∨ w.ty = .n64 then (immN w : Int) else immS w) (val l))
    ∧ (s.Clears col k w fmtMovh noPts →
      ∃ val, s.Yields (.movh w) col k w wd false val (x.qd wd) 0
        ∧ ∀ l, on l → BitsAre ew (val l) (fun i =>
          if 16 * xf w 1 0 ≤ i ∧ i < 16 * xf w 1 0 + 16 then (immF w 15 0).testBit (i - 16 * xf w 1 0) else (x.rdd wd l).testBit i))
    ∧ (s.Clears col k w fmtIsel noPts →
      let sel (l : Nat) : Bool := (x.c.rdP (xf w 2 0)).getLsbD l
      s.Yields (.isel w) col k w wd (w.ty == .i32) (fun l => if sel l then x.ra wd l else x.rbi wd l)
        (fun l => (x.c.rdPp (xf w 2 0)).getLsbD l || if sel l then x.qa wd l else x.qb wd l) 0)

/-- A word with a carry (R314). -/
def Sys2Proof.Machine.Carries (s : State) (i : Instr) (col k : Nat) (w : Full) (f : Int → Int → Int → Int) : Prop :=
  let x := s.ctxFor col k w
  let wd := isWide w.ty
  let p := xf w 2 0
  let r (l : Nat) : Int := f (x.ra wd l) (x.rbi wd l) (if (x.c.rdP p).getLsbD l then 1 else 0)
  let q (l : Nat) : Bool := x.qa wd l || x.qb wd l || (x.c.rdPp p).getLsbD l
  ∃ t val, exec i s = .next t ∧ s.Performed t col k w.marker ∧ (s.col col).Keeps (t.col col) ∧ (t.col col).fpflags = (s.col col).fpflags
    ∧ (s.col col).Regs (t.col col) (vecDest w.d wd x.en val q) (fun _ => none)
        (fun n l => if n = p ∧ x.en.getLsbD l = true then some (decide (r l < 0 ∨ 2 ^ elemBits w.ty ≤ r l), q l) else none)
    ∧ ∀ l, x.en.getLsbD l = true → Fits false (elemBits w.ty) false (r l) (val l)

/-- R314, R316. -/
def Obligations.CarriesAndDivision : Prop :=
  ∀ (s : State) (w : Full) (col k : Nat), s.Issues col k →
    let x := s.ctxFor col k w
    let wd := isWide w.ty
    let ew := elemBits w.ty
    let A (l : Nat) : Int := readInt ew (isSigned w.ty) (x.ra wd l)
    let B (l : Nat) : Int := readInt ew (isSigned w.ty) (x.rbi wd l)
    let q (l : Nat) : Bool := x.qa wd l || x.qb wd l
    (s.Clears col k w fmtCarry noPts → Carries s (.iaddc w) col k w (fun a b c => a + b + c)
      ∧ Carries s (.isubb w) col k w (fun a b c => a - b - c))
    ∧ (s.Clears col k w (fmt2 tyZ true []) noPts →
      (∃ val, s.YieldsLater (.idiv w) col k w wd (w.ty == .i32) val q 0 ∧ ∀ l, x.en.getLsbD l = true →
        (B l = 0 → val l = 2 ^ ew - 1) ∧ (B l ≠ 0 → Fits false ew false (Int.tdiv (A l) (B l)) (val l)))
      ∧ (∃ val, s.YieldsLater (.irem w) col k w wd (w.ty == .i32) val q 0 ∧ ∀ l, x.en.getLsbD l = true →
        (B l = 0 → Fits false ew false (A l) (val l))
        ∧ (B l ≠ 0 → Fits false ew false (A l - B l * Int.tdiv (A l) (B l)) (val l))))

/-- R320, R325, R326, R343, R344. -/
def Obligations.PredicatesAndCompares : Prop :=
  ∀ (s : State) (w : Full) (col k : Nat), s.Issues col k →
    let x := s.ctxFor col k w
    let wd := isWide w.ty
    let A (l : Nat) : Int := readInt (elemBits w.ty) (isSigned w.ty) (x.ra wd l)
    let B (l : Nat) : Int := readInt (elemBits w.ty) (isSigned w.ty) (x.rbi wd l)
    let b2n (b : Bool) : Nat := if b then 1 else 0
    let pa (l : Nat) : Bool := x.ra false l == 1
    let pb (l : Nat) : Bool := (x.rb false l == 1) != xb w 0
    let qp (l : Nat) : Bool := x.qa false l || x.qb false l
    let f := fmtOf w.ty
    (s.Clears col k w fmtIcmp noPts → s.Yields (.icmp w) col k w false false (fun l => b2n (match xf w 2 0 with
        | 1 => decide (A l = B l) | 2 => decide (A l ≠ B l) | 3 => decide (A l < B l) | 4 => decide (A l ≤ B l)
        | 5 => decide (B l < A l) | _ => decide (B l ≤ A l)))
      (fun l => x.qa wd l || x.qb wd l) 0)
    ∧ (s.Clears col k w fmtPset noPts → s.Yields (.pset w) col k w false false
        (fun l => if isImm w then immN w else if isUni w.a then b2n ((x.ra false l).testBit l) else b2n (decide (x.ra false l ≠ 0)))
        (fun l => !isImm w && x.qa false l) 0)
    ∧ (s.Clears col k w fmtP2 noPts → s.Yields (.pand w) col k w false false (fun l => b2n (pa l && pb l)) qp 0
      ∧ s.Yields (.por w) col k w false false (fun l => b2n (pa l || pb l)) qp 0
      ∧ s.Yields (.pxor w) col k w false false (fun l => b2n (pa l != pb l)) qp 0)
    ∧ (s.Clears col k w fmtP1 noPts → s.Yields (.pnot w) col k w false false (fun l => b2n (!pa l)) (x.qa false) 0
      ∧ s.Yields (.pmov w) col k w false false (fun l => b2n (pa l)) (x.qa false) 0)
    ∧ (s.Clears col k w fmtVote noPts →
      let set (l : Nat) : Bool := x.en.getLsbD l && pa l
      let any : Bool := (List.range 32).any set
      let all : Bool := (List.range 32).all fun l => !x.en.getLsbD l || pa l
      ∃ m : Mask, (∀ l, l < 32 → m.getLsbD l = set l)
        ∧ s.Yields (.vote w) col k w false false (fun _ => match xf w 1 0 with
          | 0 => m.toNat | 1 => b2n any | 2 => b2n all | _ => b2n (!any || all))
          (fun _ => (List.range 32).any fun l => x.en.getLsbD l && x.qa false l) 0)
    ∧ (s.Clears col k w fmtFcmp noPts →
      let c (l : Nat) := fcmp f (ftzOf w) (xb w 7) (xf w 6 4) (elemAt f.width (x.ra wd l) 0) (elemAt f.width (x.rb wd l) 0)
      ∃ fl, s.Yields (.fcmp w) col k w false false (fun l => b2n (c l).1) (fun l => x.qa wd l || x.qb wd l) fl
        ∧ ∀ i, fl.getLsbD i = true ↔ ∃ l, l < 32 ∧ x.en.getLsbD l = true ∧ (c l).2.getLsbD i = true)
    ∧ (s.Clears col k w fmtFclass noPts →
      s.Yields (.fclass w) col k w false false
        (fun l => b2n ((immF w 9 0).testBit (fclassBit f (elemAt f.width (x.ra wd l) 0)))) (x.qa wd) 0)

/-- R324. -/
def Obligations.ColumnAddresses : Prop :=
  ∀ (s : State) (w : Full) (col k : Nat), s.Issues col k →
    let x := s.ctxFor col k w
    let on (l : Nat) : Prop := x.en.getLsbD l = true
    (s.Clears col k w fmtMkcol noPts → (∀ l, on l → x.ra false l < 150994944 ∧ x.rb true l < 2 ^ 34) →
      ∃ val, s.Yields (.mkcol w) col k w true false val (fun l => x.qa false l || x.qb true l) 0
        ∧ ∀ l, on l → val l < 2 ^ 64 ∧ addrPkg (val l) = x.ra false l / 36864 ∧ addrCol (val l) = x.ra false l % 36864
          ∧ addrAp (val l) = (if xb w 0 then 1 else 0) ∧ addrOff (val l) = x.rb true l)
    ∧ (s.Clears col k w fmtColof noPts →
      ∃ val, s.Yields (.colof w) col k w false false val (x.qa true) 0
        ∧ ∀ l, on l → val l = if x.ra true l / 2 ^ 36 = 2 ^ 28 - 1 then 36864 * Config.package.toNat + col
          else 36864 * addrPkg (x.ra true l) + addrCol (x.ra true l))
    ∧ (s.Clears col k w fmtOffof noPts →
      ∃ val, s.Yields (.offof w) col k w true false val (x.qa true) 0 ∧ ∀ l, on l → BitsAre 34 (val l) (x.ra true l).testBit)
    ∧ (s.Clears col k w fmtLea noPts →
      let b (l : Nat) : Int := if isImm w then immS w
        else if w.ty = .i64 then toSigned 64 (x.rb true l) else toSigned 32 (x.rb false l)
      ∃ val, s.Yields (.lea w) col k w true false val (fun l => x.qa true l || x.qb (w.ty == .i64) l) 0
        ∧ ∀ l, on l → val l / 2 ^ 34 = x.ra true l / 2 ^ 34
          ∧ Fits false 34 false ((x.ra true l : Nat) + b l * 2 ^ xf w 2 0) (val l % 2 ^ 34))

/-- R327 to R330. -/
def Obligations.LaneMovement : Prop :=
  ∀ (s : State) (w : Full) (col k : Nat), s.Issues col k →
    let x := s.ctxFor col k w
    let wd := isWide w.ty
    let ew := elemBits w.ty
    let on (l : Nat) : Prop := x.en.getLsbD l = true
    let A (l : Nat) : Int := readInt ew (isSigned w.ty) (x.ra wd l)
    (s.Clears col k w fmtShfl noPts →
      let W := 2 ^ (if isImm w then immF w 10 8 else xf w 4 2)
      let n (l : Nat) : Nat := (if isImm w then immN w else x.rb false l) % 32
      let base (l : Nat) : Nat := l - l % W
      let src (l : Nat) : Nat := match xf w 1 0 with
        | 0 => base l + n l % W
        | 1 => if base l + n l ≤ l then l - n l else l
        | 2 => if l + n l < base l + W then l + n l else l
        | _ => base l + (l ^^^ n l) % W
      s.Yields (.shfl w) col k w wd false (fun l => x.ra wd (src l)) (fun l => x.qa wd (src l) || x.qb false l) 0)
    ∧ (s.Clears col k w fmtRedc noPts →
      let q : Bool := (lanesOf x.en).any (x.qa wd)
      let tree := redTree (xf w 2 0) w.ty (lanes32.map fun l => if x.en.getLsbD l then x.ra wd l else identity (xf w 2 0) w.ty)
      ∃ t v fl, exec (.redc w) s = .next t ∧ s.Performed t col k w.marker ∧ (s.col col).Keeps (t.col col)
        ∧ (t.col col).fpflags = (s.col col).fpflags ||| fl
        ∧ (s.col col).Regs (t.col col) (vecDest w.d wd x.en (fun _ => v) (fun _ => q))
            (uniDest w.d wd (w.ty == .i32) 1 (fun _ => v) (fun _ => q)) (fun _ _ => none)
        ∧ (w.ty = .f32 → v = tree.1 ∧ fl = tree.2)
        ∧ (w.ty ≠ .f32 → fl = 0 ∧ v < 2 ^ ew
          ∧ (xf w 2 0 = 0 → Fits false ew false ((lanesOf x.en).map A).sum v)
          ∧ (xf w 2 0 = 1 → (∀ l, on l → readInt ew (isSigned w.ty) v ≤ A l)
              ∧ (x.en ≠ 0 → ∃ l, on l ∧ readInt ew (isSigned w.ty) v = A l) ∧ (x.en = 0 → v = identity 1 w.ty))
          ∧ (xf w 2 0 = 2 → (∀ l, on l → A l ≤ readInt ew (isSigned w.ty) v)
              ∧ (x.en ≠ 0 → ∃ l, on l ∧ readInt ew (isSigned w.ty) v = A l) ∧ (x.en = 0 → v = identity 2 w.ty))
          ∧ (xf w 2 0 = 3 → BitsAre ew v fun i => (lanesOf x.en).all fun l => (x.ra wd l).testBit i)
          ∧ (xf w 2 0 = 4 → BitsAre ew v fun i => (lanesOf x.en).any fun l => (x.ra wd l).testBit i)
          ∧ (xf w 2 0 = 5 → BitsAre ew v fun i =>
              ((lanesOf x.en).filter fun l => (x.ra wd l).testBit i).length % 2 == 1)))
    ∧ (s.Clears col k w fmtScanc noPts →
      let upto (l : Nat) : List Nat := (lanesOf x.en).filter fun m => if xb w 3 then m < l else m ≤ l
      let fold (ms : List Nat) : Nat := ms.foldl (fun a m => (combine (xf w 2 0) w.ty a (x.ra wd m)).1) (identity (xf w 2 0) w.ty)
      ∃ fl, s.Yields (.scanc w) col k w wd false (fun l => fold (upto l)) (fun l => (upto l).any (x.qa wd)) fl
        ∧ (w.ty ≠ .f32 → fl = 0))
    ∧ (s.Clears col k w fmtUmov noPts →
      let n : Nat := if isImm w then immN w else x.rb true 0
      let src : Nat := if n = 32 then lowLane x.en else n
      n ≤ 32 → s.YieldsLater (.umov w) col k w wd false (fun _ => x.ra wd src) (fun _ => x.qa wd src || x.qb true 0) 0)

/-- R157, R158, R331, R332. -/
def Obligations.SystemRegisters : Prop :=
  ∀ (s : State) (w : Full) (col k : Nat), s.Issues col k →
    let x := s.ctxFor col k w
    let c := s.col col
    let n := immF w 7 0
    let tr : TrapRec := if x.sp.hnd then x.sp.trap else {}
    (s.Clears col k w fmtMfsr noPts → ∃ v : DWord, s.Yields (.mfsr w) col k w true false (fun _ => v.toNat) (fun _ => false) 0
      ∧ (n = 0 → v = x.sp.pc) ∧ (n = 1 → v = BitVec.ofNat 64 (36864 * Config.package.toNat + col)) ∧ (n = 2 → v = c.ret)
      ∧ (n = 3 → v = BitVec.ofNat 64 (s.cycles col)) ∧ (n = 4 → v.toNat = c.fpflags.toNat)
      ∧ (n = 5 → v = tr.tpc) ∧ (n = 6 → v.toNat = tr.tcode.toNat) ∧ (n = 7 → v.toNat = tr.tmask.toNat) ∧ (n = 8 → v = tr.taddr)
      ∧ (n = 9 → v.toNat = tr.tinfo.toNat) ∧ (n = 10 → v.toNat = c.rst.toNat) ∧ (n = 11 → v = if x.h.det then 1 else 0)
      ∧ ∀ g, s.group c.group = some g → (n = 12 → v = BitVec.ofNat 64 g.stage) ∧ (n = 13 → v = BitVec.ofNat 64 g.items.length))
    ∧ (s.Clears col k w fmtMtsr (fun x => [x.pt x.w.a true 10]) →
      let v : DWord := BitVec.ofNat 64 (x.ra true 0)
      (x.en = 0 → ∃ t, exec (.mtsr w) s = .next t ∧ s.Performed t col k w.marker ∧ c.KeepsRegs (t.col col)
        ∧ (t.col col).results = c.results)
      ∧ (x.en ≠ 0 → n = 2 → ∃ t, exec (.mtsr w) s = .next t ∧ s.Performed t col k w.marker ∧ (t.col col).ret = v
        ∧ ({ c with ret := v } : Column).Keeps (t.col col) ∧ c.Regs (t.col col) (fun _ _ => none) (fun _ => none) (fun _ _ => none)
        ∧ (t.col col).fpflags = c.fpflags)
      ∧ (x.en ≠ 0 → n = 4 → ∃ t, exec (.mtsr w) s = .next t ∧ s.Performed t col k w.marker ∧ c.Keeps (t.col col)
        ∧ c.Regs (t.col col) (fun _ _ => none) (fun _ => none) (fun _ _ => none) ∧ (t.col col).fpflags = v.setWidth 5)
      ∧ (x.en ≠ 0 → n = 5 → x.sp.hnd = true → w.marker = false → x.sp.runLen < 255 → ∃ t, exec (.mtsr w) s = .next t
        ∧ s.OnlyColumn t col k ∧ c.Keeps (t.col col) ∧ c.Regs (t.col col) (fun _ _ => none) (fun _ => none) (fun _ _ => none)
        ∧ (t.col col).fpflags = c.fpflags ∧ ((t.col col).slot k).trap = { x.sp.trap with tpc := v }
        ∧ ((t.col col).slot k).pc = pcNext x.sp.pc ∧ ∀ j, j ≠ k → (t.col col).slot j = c.slot j))
    ∧ (s.Clears col k w fmtRdcnt noPts → s.Yields (.rdcnt w) col k w true false
      (fun _ => if x.h.det = true ∨ xb w 0 = true then c.retired else s.cycles col) (fun _ => false) 0)

/-- The value and flags of every element of the lanes that compute. -/
def Sys2Proof.Machine.ElementsAre (s : State) (col k : Nat) (w : Full) (r : Nat → Nat → Nat × FpFlags) (val : Nat → Nat) (fl : FpFlags) : Prop :=
  (∀ l, l ∈ (s.ctxFor col k w).lanesFor w.d → val l < 2 ^ (elemBits w.ty * elemCount w.ty)
    ∧ ∀ j, j < elemCount w.ty → elemAt (elemBits w.ty) (val l) j = (r l j).1 % 2 ^ elemBits w.ty)
  ∧ ∀ i, fl.getLsbD i = true ↔
      ∃ l, l ∈ (s.ctxFor col k w).lanesFor w.d ∧ ∃ j, j < elemCount w.ty ∧ (r l j).2.getLsbD i = true

/-- R335 to R342. -/
def Obligations.FloatWords : Prop :=
  ∀ (s : State) (w : Full) (col k : Nat), s.Issues col k →
    let x := s.ctxFor col k w
    let wd := isWide w.ty
    let f := fmtOf w.ty
    let m := rmode (xf w 1 0)
    let ftz := xb w 2
    let sat := xb w 3
    let A (l j : Nat) : Nat := elemAt (elemBits w.ty) (x.ra wd l) j
    let B (l j : Nat) : Nat := elemAt (elemBits w.ty) (if isImm w then intCode f (immS w) else x.rb wd l) j
    let C (l j : Nat) : Nat := elemAt (elemBits w.ty) (x.rc wd l) j
    let q1 (l : Nat) : Bool := x.qa wd l
    let q2 (l : Nat) : Bool := x.qa wd l || x.qb wd l
    let q3 (l : Nat) : Bool := x.qa wd l || x.qb wd l || x.qc wd l
    let does (i : Instr) (q : Nat → Bool) (r : Nat → Nat → Nat × FpFlags) : Prop :=
      ∃ val fl, s.Yields i col k w wd false val q fl ∧ ElementsAre s col k w r val fl
    let later (i : Instr) (q : Nat → Bool) (r : Nat → Nat → Nat × FpFlags) : Prop :=
      ∃ val fl, s.YieldsLater i col k w wd false val q fl ∧ ElementsAre s col k w r val fl
    (s.Clears col k w (fmtF2 tyFA true (xsF true true true)) noPts →
      does (.fadd w) q2 (fun l j => fadd f m ftz sat (A l j) (B l j)) ∧ does (.fsub w) q2 (fun l j => fsub f m ftz sat (A l j) (B l j))
      ∧ does (.fmul w) q2 (fun l j => fmul f m ftz sat (A l j) (B l j)))
    ∧ (s.Clears col k w (fmtF3 tyFA (xsF true true true)) noPts →
      does (.ffma w) q3 (fun l j => ffma f m ftz sat (A l j) (B l j) (C l j)))
    ∧ (s.Clears col k w (fmtF2 tyFA true (xsF false true false)) noPts →
      does (.fmin w) q2 (fun l j => fminmax f false ftz (A l j) (B l j)) ∧ does (.fmax w) q2 (fun l j => fminmax f true ftz (A l j) (B l j))
      ∧ does (.famax w) q2 (fun l j => famax f ftz (A l j) (B l j)))
    ∧ (s.Clears col k w (fmtF2 [.f32, .f64] false (xsF true true true)) noPts →
      later (.fdiv w) q2 (fun l j => fdiv f m ftz sat (A l j) (elemAt (elemBits w.ty) (x.rb wd l) j)))
    ∧ (s.Clears col k w (fmtF1 [.f32, .f64] (xsF true true false)) noPts →
      later (.fsqrt w) q1 (fun l j => fsqrt f m ftz (A l j)))
    ∧ (s.Clears col k w (fmtF1 tyFA (xsF true true false)) noPts →
      does (.frcp w) q1 (fun l j => frcp f m ftz (A l j)) ∧ does (.frsq w) q1 (fun l j => frsq f m ftz (A l j))
      ∧ does (.fexp2 w) q1 (fun l j => transcend .exp2 f m ftz (A l j)) ∧ does (.flog2 w) q1 (fun l j => transcend .log2 f m ftz (A l j))
      ∧ does (.fsin w) q1 (fun l j => transcend .sin f m ftz (A l j)) ∧ does (.fcos w) q1 (fun l j => transcend .cos f m ftz (A l j))
      ∧ does (.ftanh w) q1 (fun l j => transcend .tanh f m ftz (A l j)))
    ∧ (s.Clears col k w fmtFrnd noPts → does (.frnd w) q1 (fun l j => frnd f (if xb w 4 then .rna else m) ftz (A l j)))
    ∧ (s.Clears col k w fmtFscl noPts → does (.fscl w) (fun l => x.qa wd l || x.qb false l)
      (fun l j => fscl f m ftz sat (A l j) (if isImm w then immS w else toSigned 32 (x.rb false l))))
    ∧ (s.Clears col k w fmtFfrx noPts →
      (xb w 0 = false → does (.ffrx w) q1 (fun l j => ffrxMan f ftz (A l j)))
      ∧ (xb w 0 = true → ∃ val fl, s.Yields (.ffrx w) col k w false true val q1 fl
        ∧ (∀ l, l ∈ x.lanesFor w.d → Fits false 32 false (ffrxExp f ftz (elemAt f.width (x.ra wd l) 0)).1 (val l))
        ∧ ∀ i, fl.getLsbD i = true ↔ ∃ l, l ∈ x.lanesFor w.d ∧ (ffrxExp f ftz (elemAt f.width (x.ra wd l) 0)).2.getLsbD i = true))

/-- R345 to R350. -/
def Obligations.FloatConversions : Prop :=
  ∀ (s : State) (w : Full) (col k : Nat), s.Issues col k →
    let x := s.ctxFor col k w
    let wd := isWide w.ty
    let f := fmtOf w.ty
    let m := rmode (xf w 1 0)
    let flags (fl : FpFlags) (g : Nat → FpFlags) : Prop :=
      ∀ i, fl.getLsbD i = true ↔ ∃ l, l ∈ x.lanesFor w.d ∧ (g l).getLsbD i = true
    let it := xf w 7 4
    let st := cvtFmt (xf w 10 8)
    let dt := cvtFmt (xf w 7 5)
    (s.Clears col k w fmtF2i noPts →
      let r (l : Nat) := toInt (intCodeOf it).1 (intCodeOf it).2 m (f.read (xb w 2) (elemAt f.width (x.ra wd l) 0)).x
      ∃ val fl, s.Yields (.f2i w) col k w (wideCode it) (intCodeOf it).2 val (x.qa wd) fl ∧ flags fl (fun l => (r l).2)
        ∧ ∀ l, l ∈ x.lanesFor w.d → if wideCode it then val l = (r l).1
          else Fits false 32 false (readInt (intCodeOf it).1 (intCodeOf it).2 (r l).1) (val l))
    ∧ (s.Clears col k w fmtI2f noPts →
      let r (l : Nat) := roundTo f m false false (XR.ofInt (readInt (intCodeOf it).1 (intCodeOf it).2 (x.ra (wideCode it) l)))
      ∃ fl, s.Yields (.i2f w) col k w wd false (fun l => (r l).1) (x.qa (wideCode it)) fl ∧ flags fl (fun l => (r l).2))
    ∧ (s.Clears col k w fmtFcvt noPts →
      (xb w 4 = false →
        let r (l : Nat) := fcvtOne st dt (xb w 3) (elemAt st.width (x.ra (xf w 10 8 == 1) l) 0)
        ∃ fl, s.Yields (.fcvt w) col k w (xf w 7 5 == 1) false (fun l => (r l).1) (x.qa (xf w 10 8 == 1)) fl
          ∧ flags fl (fun l => (r l).2))
      ∧ (∀ b, xb w 4 = true → opB w = .v b →
        let r (l : Nat) := narrowEf dt (x.ra false l) (x.rb false l)
        let q (l : Nat) : Bool := x.qa false l || x.qb false l
        ∃ t fl, exec (.fcvt w) s = .next t ∧ s.Performed t col k w.marker ∧ (s.col col).Keeps (t.col col)
          ∧ (t.col col).fpflags = (s.col col).fpflags ||| fl ∧ flags fl (fun l => (r l).2.2)
          ∧ (s.col col).Regs (t.col col) (fun n l => if n = b.toNat ∧ x.en.getLsbD l = true
              then some (BitVec.ofNat 32 (r l).2.1, q l) else vecDest w.d false x.en (fun l => (r l).1) q n l)
            (fun _ => none) (fun _ _ => none)))
    ∧ (s.Clears col k w fmtFpack noPts →
      let a (l : Nat) := fcvtOne .f32 f (xb w 3) (x.ra false l)
      let b (l : Nat) := fcvtOne .f32 f (xb w 3) (x.rb false l)
      let j0 := 2 * xf w 0 0
      ∃ val fl, s.Yields (.fpack w) col k w false false val (fun l => x.qd false l || x.qa false l || x.qb false l) fl
        ∧ flags fl (fun l => (a l).2 ||| (b l).2)
        ∧ ∀ l, l ∈ x.lanesFor w.d → val l < 2 ^ 32 ∧ ∀ i, i < elemCount w.ty → elemAt (elemBits w.ty) (val l) i
          = if i = j0 then (a l).1 % 2 ^ elemBits w.ty else if i = j0 + 1 then (b l).1 % 2 ^ elemBits w.ty
            else elemAt (elemBits w.ty) (x.rdd false l) i)
    ∧ (s.Clears col k w fmtFunpk noPts →
      let r (l : Nat) := fcvtOne f .f32 false (elemAt (elemBits w.ty) (x.ra false l) (xf w 2 0))
      ∃ fl, s.Yields (.funpk w) col k w false false (fun l => (r l).1) (x.qa false) fl ∧ flags fl (fun l => (r l).2))
    ∧ (s.Clears col k w fmtFdot2 noPts →
      let e (v j : Nat) : Nat := elemAt 16 v j
      let r (l : Nat) := fdot2 f m (xb w 2) (xb w 3) (e (x.ra false l) 0) (e (x.ra false l) 1) (e (x.rb false l) 0) (e (x.rb false l) 1)
        (x.rc false l)
      ∃ fl, s.Yields (.fdot2 w) col k w false false (fun l => (r l).1)
          (fun l => x.qa false l || x.qb false l || x.qc false l) fl ∧ flags fl (fun l => (r l).2))
    ∧ (s.Clears col k w fmtHndec noPts →
      let r (l : Nat) := hn4Value (elemAt 4 (x.ra false l) (xf w 2 0)) (x.rb false l % 256) (x.rc false l)
      ∃ fl, s.Yields (.hndec w) col k w false false (fun l => (r l).1)
          (fun l => x.qa false l || x.qb false l || x.qc false l) fl ∧ flags fl (fun l => (r l).2))

/-- The rational that a finite exact value stands for. -/
def Sys2Proof.Machine.XR.toRat : XR → Option ℚ
  | .num neg n d => some (if neg then -((n : ℚ) / d) else (n : ℚ) / d)
  | _ => none

/-- c is a code that a mode asks for of a real: no finite code of the format is nearer, or nearer on the allowed side; a tie goes to the even last
fraction bit, or to the larger magnitude (R216). Nothing is said of an infinite result. -/
def Sys2Proof.Machine.NearestCode (f : FFmt) (m : RMode) (x : ℝ) (c : Nat) : Prop :=
  ∀ y : ℚ, XR.toRat (f.widen c) = some y → ∀ (c' : Nat) (z : ℚ), c' < 2 ^ f.width → XR.toRat (f.widen c') = some z →
    match m with
    | .rne => |(y : ℝ) - x| ≤ |(z : ℝ) - x| ∧ (|(y : ℝ) - x| = |(z : ℝ) - x| → y ≠ z → c % 2 = 0)
    | .rna => |(y : ℝ) - x| ≤ |(z : ℝ) - x| ∧ (|(y : ℝ) - x| = |(z : ℝ) - x| → |z| ≤ |y|)
    | .rz => |(y : ℝ)| ≤ |x| ∧ (|(z : ℝ)| ≤ |x| → |z| ≤ |y|)
    | .ru => x ≤ y ∧ (x ≤ z → y ≤ z)
    | .rd => (y : ℝ) ≤ x ∧ ((z : ℝ) ≤ x → z ≤ y)

/-- The rational of an operand, if it is finite; .ftz reads a subnormal as zero (R214). -/
def Sys2Proof.Machine.FFmt.rat (f : FFmt) (ftz : Bool) (c : Nat) : Option ℚ := XR.toRat (f.read ftz c).x

/-- r is round_to of a rational; an exact zero has the sign named (R337). -/
def Sys2Proof.Machine.RoundsTo (f : FFmt) (m : RMode) (sat ftz : Bool) (x : ℚ) (zneg : Bool) (r : Nat × FpFlags) : Prop :=
  ∃ neg n d, 0 < d ∧ XR.toRat (.num neg n d) = some x ∧ (x = 0 → neg = zneg) ∧ r = roundTo f m sat ftz (.num neg n d)

/-- An operand code as .ftz leaves it. -/
def Sys2Proof.Machine.FFmt.flush (f : FFmt) (ftz : Bool) (c : Nat) : Nat :=
  if ftz = true ∧ f.isSub c = true then c / 2 ^ (f.width - 1) * 2 ^ (f.width - 1) else c

/-- The order of codes that are no NaN: by sign and magnitude, -0 below +0. -/
def Sys2Proof.Machine.FFmt.key (f : FFmt) (c : Nat) : Int :=
  if c.testBit (f.width - 1) then -((c % 2 ^ (f.width - 1) : Nat) : Int) - 1 else ((c % 2 ^ (f.width - 1) : Nat) : Int)

/-- R212 to R216, R337 to R342. -/
def Obligations.RoundingIsCorrect : Prop :=
  (∀ (f : FFmt) (m : RMode) (neg : Bool) (n d : Nat) (x : ℚ), 0 < n → 0 < d → XR.toRat (.num neg n d) = some x →
    let r := roundTo f m false false (.num neg n d)
    let fin := (XR.toRat (f.widen r.1)).isSome
    NearestCode f m x r.1 ∧ (r.1 ≠ f.nan → r.1.testBit (f.width - 1) = neg)
      ∧ (fin = true → (r.2.getLsbD 4 = true ↔ XR.toRat (f.widen r.1) ≠ some x))
      ∧ (roundTo f m true false (.num neg n d)).1 = if fin then r.1 else f.signBit neg + f.maxCode)
  ∧ (∀ (f : FFmt) (m : RMode) (ftz sat : Bool) (a b c : Nat) (x y z : ℚ), a < 2 ^ f.width → b < 2 ^ f.width → c < 2 ^ f.width →
    f.rat ftz a = some x → f.rat ftz b = some y → f.rat ftz c = some z →
    let sa := a.testBit (f.width - 1)
    let sb := b.testBit (f.width - 1)
    let sc := c.testBit (f.width - 1)
    let zsum (p q : Bool) : Bool := if p = q then p else m == .rd
    RoundsTo f m sat ftz (x + y) (zsum sa sb) (fadd f m ftz sat a b)
      ∧ RoundsTo f m sat ftz (x - y) (zsum sa !sb) (fsub f m ftz sat a b)
      ∧ RoundsTo f m sat ftz (x * y) (sa != sb) (fmul f m ftz sat a b)
      ∧ RoundsTo f m sat ftz (x * y + z) (zsum (sa != sb) sc) (ffma f m ftz sat a b c)
      ∧ (y ≠ 0 → RoundsTo f m sat ftz (x / y) (sa != sb) (fdiv f m ftz sat a b))
      ∧ (y = 0 → x ≠ 0 → f.hasInf = true → fdiv f m ftz false a b = (f.signBit (sa != sb) + f.infCode, fDivZero))
      ∧ (y = 0 → x = 0 → fdiv f m ftz sat a b = (f.nan, fInvalid))
      ∧ (x ≠ 0 → RoundsTo f m false ftz (1 / x) sa (frcp f m ftz a))
      ∧ (x = 0 → f.hasInf = true → frcp f m ftz a = (f.signBit sa + f.infCode, fDivZero))
      ∧ ∀ n : Int, RoundsTo f m sat ftz (x * 2 ^ n) sa (fscl f m ftz sat a n))
  ∧ (∀ (f : FFmt) (m : RMode) (ftz sat : Bool) (a b : Nat), f.widen a = .nan ∨ f.widen b = .nan →
    ∀ op ∈ [fadd, fsub, fmul, fdiv], op f m ftz sat a b = (f.nan, if f.isSNan a = true ∨ f.isSNan b = true then fInvalid else fNone))
  ∧ (∀ (f : FFmt) (isMax ftz : Bool) (a b : Nat), a < 2 ^ f.width → b < 2 ^ f.width →
    let a' := f.flush ftz a
    let b' := f.flush ftz b
    let an := f.widen a = .nan
    let bn := f.widen b = .nan
    let fl : FpFlags := if f.isSNan a = true ∨ f.isSNan b = true then fInvalid else fNone
    (¬ an → ¬ bn → fminmax f isMax ftz a b = (if decide (f.key a' ≤ f.key b') != isMax then a' else b', fNone)
        ∧ famax f ftz a b = (max (a' % 2 ^ (f.width - 1)) (b' % 2 ^ (f.width - 1)), fNone))
      ∧ (an → ¬ bn → fminmax f isMax ftz a b = (b', fl)) ∧ (¬ an → bn → fminmax f isMax ftz a b = (a', fl))
      ∧ (an → bn → fminmax f isMax ftz a b = (f.nan, fl)) ∧ (an ∨ bn → famax f ftz a b = (f.nan, fl)))
  ∧ (∀ (f : FFmt) (m : RMode) (ftz : Bool) (a : Nat) (x : ℚ), a < 2 ^ f.width → f.rat ftz a = some x →
    ∃ y : ℤ, XR.toRat (f.widen (frnd f m ftz a).1) = some (y : ℚ) ∧ (frnd f m ftz a).2 = fNone
      ∧ (frnd f m ftz a).1.testBit (f.width - 1) = a.testBit (f.width - 1)
      ∧ match m with
        | .rne => |(y : ℚ) - x| ≤ 1 / 2 ∧ (|(y : ℚ) - x| = 1 / 2 → Even y)
        | .rna => |(y : ℚ) - x| ≤ 1 / 2 ∧ (|(y : ℚ) - x| = 1 / 2 → |x| < |(y : ℚ)|)
        | .rz => |(y : ℚ)| ≤ |x| ∧ |x| < |(y : ℚ)| + 1
        | .ru => x ≤ y ∧ (y : ℚ) < x + 1
        | .rd => (y : ℚ) ≤ x ∧ x < y + 1)
  ∧ (∀ (f : FFmt) (ftz : Bool) (a : Nat) (x : ℚ), a < 2 ^ f.width → f.rat ftz a = some x → x ≠ 0 →
    ∃ q : ℚ, XR.toRat (f.widen (ffrxMan f ftz a).1) = some q ∧ x = q * 2 ^ (ffrxExp f ftz a).1 ∧ 1 / 2 ≤ |q| ∧ |q| < 1
      ∧ (ffrxMan f ftz a).2 = fNone ∧ (ffrxExp f ftz a).2 = fNone)

/-- R337, R339: exact arithmetic under the roundings, roots and transcendentals. -/
def Obligations.ExactSumsAndProducts : Prop :=
  (∀ (m : RMode) (xs : List (Bool × Nat × Nat)), (∀ e ∈ xs, 0 < e.2.2) →
    XR.toRat (xsum m (xs.map fun e => .num e.1 e.2.1 e.2.2)).1
      = some ((xs.map fun e => if e.1 then -((e.2.1 : ℚ) / e.2.2) else (e.2.1 : ℚ) / e.2.2).sum)
    ∧ (xsum m (xs.map fun e => .num e.1 e.2.1 e.2.2)).2 = 0)
  ∧ (∀ (s t : Bool) (n d n' d' : Nat) (x y : ℚ), 0 < d → 0 < d' → XR.toRat (.num s n d) = some x → XR.toRat (.num t n' d') = some y →
    XR.toRat (xmul (.num s n d) (.num t n' d')).1 = some (x * y)
    ∧ (0 < n' → XR.toRat (xdiv (.num s n d) (.num t n' d')).1 = some (x / y)))
  ∧ (∀ (f : FFmt) (m : RMode) (ftz : Bool) (a : Nat) (x : ℚ), a < 2 ^ f.width → f.rat ftz a = some x →
    (0 < x → NearestCode f m (Real.sqrt x) (fsqrt f m ftz a).1 ∧ (XR.toRat (f.widen (fsqrt f m ftz a).1)).isSome = true
        ∧ NearestCode f m (1 / Real.sqrt x) (frsq f m ftz a).1 ∧ (XR.toRat (f.widen (frsq f m ftz a).1)).isSome = true)
      ∧ (x < 0 → fsqrt f m ftz a = (f.nan, fInvalid) ∧ frsq f m ftz a = (f.nan, fInvalid))
      ∧ (x = 0 → fsqrt f m ftz a = (f.signBit (a.testBit (f.width - 1)), fNone)
        ∧ (f.hasInf = true → frsq f m ftz a = (f.signBit (a.testBit (f.width - 1)) + f.infCode, fDivZero))))
  ∧ (∀ (f : FFmt) (m : RMode) (neg : Bool) (a n d : Nat), a < 2 ^ f.width → f.widen a = .num neg n d → n ≠ 0 →
    let x : ℝ := if neg then -((n : ℝ) / d) else (n : ℝ) / d
    let ok (fn : TFn) : Prop := (transNum fn f m false neg n d).1 = true
    (ok .exp2 → NearestCode f m ((2 : ℝ) ^ x) (transcend .exp2 f m false a).1)
      ∧ (0 < x → ok .log2 → NearestCode f m (Real.logb 2 x) (transcend .log2 f m false a).1)
      ∧ (x < 0 → transcend .log2 f m false a = (f.nan, fInvalid))
      ∧ (ok .sin → NearestCode f m (Real.sin (Real.pi * x)) (transcend .sin f m false a).1)
      ∧ (ok .cos → NearestCode f m (Real.cos (Real.pi * x)) (transcend .cos f m false a).1)
      ∧ (ok .tanh → NearestCode f m (Real.tanh x) (transcend .tanh f m false a).1)
      ∧ ((∃ j : ℤ, x = j) → ok .exp2) ∧ ((∃ j : ℤ, x = (2 : ℝ) ^ j) → ok .log2) ∧ ((∃ j : ℤ, 2 * x = j) → ok .sin ∧ ok .cos))
  ∧ (∀ (f : FFmt) (m : RMode) (neg : Bool), f.hasInf = true →
    let z0 := f.signBit neg
    let inf (s : Bool) : Nat := f.signBit s + f.infCode
    let one (s : Bool) : Nat := (roundTo f m false false (.num s 1 1)).1
    let at_ (fn : TFn) (c : Nat) : Nat × FpFlags := transcend fn f m false c
    at_ .exp2 z0 = (one false, 0) ∧ at_ .log2 z0 = (inf true, fDivZero) ∧ at_ .sin z0 = (z0, 0) ∧ at_ .cos z0 = (one false, 0)
      ∧ at_ .tanh z0 = (z0, 0) ∧ at_ .exp2 (inf neg) = (if neg then 0 else inf false, 0)
      ∧ at_ .log2 (inf neg) = (if neg then (f.nan, fInvalid) else (inf false, 0)) ∧ at_ .sin (inf neg) = (f.nan, fInvalid)
      ∧ at_ .cos (inf neg) = (f.nan, fInvalid) ∧ at_ .tanh (inf neg) = (one neg, 0)
      ∧ ∀ (fn : TFn) (c : Nat), f.widen c = .nan → at_ fn c = (f.nan, if f.isSNan c = true then fInvalid else 0))

/-- What a half puts into each lane that it enables. -/
def Sys2Proof.Machine.HalfDoes (c : Column) (m : Mask) (hop : Nat) (h : HalfArgs) (n l : Nat) : Option (Word × Bool) :=
  let d := (c.rdV h.hd.toNat l).toNat
  let a := if h.hi then halfImm h.ht.toNat h.ha.toNat else (c.rdV h.ha.toNat l).toNat
  if hop ≠ 0 ∧ n = h.hd.toNat ∧ (m &&& c.guard h.hg.toNat h.hn).getLsbD l = true then
    some (BitVec.ofNat 32 (halfVal hop h.ht.toNat h.hs d a).1, c.rdVp h.hd.toNat l || (!h.hi && c.rdVp h.ha.toNat l))
  else none

/-- The checks of a pair word find nothing. -/
def Sys2Proof.Machine.State.PairClears (s : State) (col k : Nat) (m : Bool) (hopX : Nat) (hx : HalfArgs) (y : Half) : Prop :=
  let x := s.ctxFor col k (pairWord m)
  checkPair (s.hdr col).nv hopX hx y.hop.toNat y.args = none
    ∧ firstPending x.sp.pend (halfRegs hopX hx ++ halfRegs y.hop.toNat y.args) = none
    ∧ x.contain [x.ptHalf hopX hx, x.ptHalf y.hop.toNat y.args] = none

/-- R262 to R265. -/
def Obligations.PairWords : Prop :=
  (∀ (s : State) (col k : Nat) (m : Bool) (hx : HalfArgs) (y : Half) (i : Instr) (hopX : Nat), s.Issues col k →
    (hopX, i) ∈ ([(0x00, .hnop m hx y), (0x01, .halfIadd m hx y), (0x02, .halfIsub m hx y), (0x03, .halfAnd m hx y), (0x04, .halfOr m hx y),
      (0x05, .halfXor m hx y), (0x06, .halfAndn m hx y), (0x07, .halfShl m hx y), (0x08, .halfShr m hx y), (0x09, .halfSar m hx y),
      (0x0A, .halfImin m hx y), (0x0B, .halfImax m hx y), (0x0C, .halfMov m hx y), (0x0D, .halfMovi m hx y), (0x0E, .halfFadd m hx y),
      (0x0F, .halfFsub m hx y), (0x10, .halfFmul m hx y), (0x11, .halfFmin m hx y), (0x12, .halfFmax m hx y), (0x13, .halfFamax m hx y),
      (0x14, .halfPopc m hx y), (0x15, .halfClz m hx y), (0x16, .halfImul m hx y)] : List (Nat × Instr)) →
    s.PairClears col k m hopX hx y →
    let c := s.col col
    let msk := (c.slot k).mask
    ∃ t, exec i s = .next t ∧ s.Performed t col k m ∧ c.Keeps (t.col col)
      ∧ c.Regs (t.col col) (fun n l => (HalfDoes c msk hopX hx n l).orElse fun _ => HalfDoes c msk y.hop.toNat y.args n l)
        (fun _ => none) (fun _ _ => none)
      ∧ (t.col col).fpflags = c.fpflags ||| (c.half msk hopX hx).2 ||| (c.half msk y.hop.toNat y.args).2)
  ∧ (∀ (hop ht d a : Nat) (hs : Bool), d < 2 ^ 32 → a < 2 ^ 32 →
    let v := (halfVal hop ht hs d a).1
    let sg := ht == 0
    (hop = 0x01 → Fits hs 32 sg (readInt 32 sg d + readInt 32 sg a) v) ∧ (hop = 0x02 → Fits hs 32 sg (readInt 32 sg d - readInt 32 sg a) v)
    ∧ (hop = 0x16 → Fits hs 32 sg (readInt 32 sg d * readInt 32 sg a) v)
    ∧ (hop = 0x03 → BitsAre 32 v fun i => d.testBit i && a.testBit i) ∧ (hop = 0x04 → BitsAre 32 v fun i => d.testBit i || a.testBit i)
    ∧ (hop = 0x05 → BitsAre 32 v fun i => d.testBit i != a.testBit i) ∧ (hop = 0x06 → BitsAre 32 v fun i => d.testBit i && !a.testBit i)
    ∧ (hop = 0x07 → BitsAre 32 v fun i => decide (a ≤ i) && d.testBit (i - a)) ∧ (hop = 0x08 → BitsAre 32 v fun i => d.testBit (i + a))
    ∧ (hop = 0x09 → BitsAre 32 v fun i => d.testBit (min (i + a) 31))
    ∧ (hop = 0x0A → Fits false 32 false (min (readInt 32 sg d) (readInt 32 sg a)) v)
    ∧ (hop = 0x0B → Fits false 32 false (max (readInt 32 sg d) (readInt 32 sg a)) v)
    ∧ (hop = 0x0C ∨ hop = 0x0D → v = a)
    ∧ (hop = 0x14 → v = ((List.range 32).filter (fun i => a.testBit i)).length)
    ∧ (hop = 0x15 → v ≤ 32 ∧ (∀ i, i < 32 → 32 - v ≤ i → a.testBit i = false) ∧ (v < 32 → a.testBit (31 - v) = true))
    ∧ (0x0E ≤ hop → hop ≤ 0x13 → ht = 2 → halfVal hop ht hs d a = halfFp hop .f32 hs d a))

/-- R277 to R286. -/
def Obligations.ControlFlow : Prop :=
  ∀ (s : State) (w : Full) (col k : Nat), s.Issues col k →
    let x := s.ctxFor col k w
    let c := s.col col
    let on (l : Nat) : Prop := x.en.getLsbD l = true
    let next := pcNext x.sp.pc
    let disp := pcAdd next (8 * immS w)
    let go (f : Nat → DWord) (l : Nat) : DWord := if x.en.getLsbD l then f l else next
    let tgt (l : Nat) : DWord := BitVec.ofNat 64 (x.ra true l)
    let links (c' : Column) : Prop := ({ c with ret := if x.en = 0 then c.ret else next } : Column).Keeps c'
      ∧ c.Delivers c' w.d true false x.en (fun _ => next.toNat) (fun _ => false) ∧ c'.fpflags = c.fpflags
    (s.Clears col k w fmtBare noPts → s.Passes (.nop w) col k w.marker)
    ∧ (x.sp.hnd = false →
      (s.Clears col k w fmtDisp noPts → ∃ t, exec (.bra w) s = .next t ∧ s.Placed t col k (go fun _ => disp) ∧ c.KeepsAll (t.col col))
      ∧ (s.Clears col k w fmtBrx (fun x => [x.pt x.w.a true 2]) → (∀ l, l < 32 → on l → targetOk col (tgt l) = true) →
        ∃ t, exec (.brx w) s = .next t ∧ s.Placed t col k (go fun l => pcOf (tgt l)) ∧ c.KeepsAll (t.col col))
      ∧ (s.Clears col k w fmtCall noPts → ∃ t, exec (.call w) s = .next t ∧ s.Placed t col k (go fun _ => disp) ∧ links (t.col col))
      ∧ (s.Clears col k w fmtCallx (fun x => [x.pt x.w.a true 2]) → (∀ l, l < 32 → on l → targetOk col (tgt l) = true) →
        ∃ t, exec (.callx w) s = .next t ∧ s.Placed t col k (go fun l => pcOf (tgt l)) ∧ links (t.col col))
      ∧ (s.Clears col k w fmtBrx (fun x => [x.pt x.w.a true 2]) →
        let dest (l : Nat) : DWord := if w.a = .s 0 then c.ret else tgt l
        (∀ l, l < 32 → on l → targetOk col (dest l) = true) →
        ∃ t, exec (.ret w) s = .next t ∧ s.Placed t col k (go fun l => pcOf (dest l)) ∧ c.KeepsAll (t.col col))
      ∧ (s.Clears col k w fmtLoop (fun x => [x.pt x.w.d (isWide x.w.ty) 2]) →
        let wd := isWide w.ty
        let n (l : Nat) : Nat := x.rdd wd l
        ∃ t, exec (.loop w) s = .next t ∧ s.Placed t col k (go fun l => if n l ≤ 1 then next else disp) ∧ c.Keeps (t.col col)
          ∧ (t.col col).fpflags = c.fpflags
          ∧ c.Regs (t.col col)
              (fun r l => if n l = 0 then none else vecDest w.d wd x.en (fun l => n l - 1) (fun _ => false) r l)
              (fun r => if n (lowLane x.en) = 0 then none else uniDest w.d wd false x.en (fun l => n l - 1) (fun _ => false) r)
              (fun _ _ => none)))

/-- R287 to R289, R292. -/
def Obligations.RejoinMasks : Prop :=
  ∀ (s : State) (w : Full) (col k : Nat), s.Issues col k →
    let x := s.ctxFor col k w
    let c := s.col col
    let next := pcNext x.sp.pc
    let setsJ (i : Instr) (m : Mask) : Prop := ∃ t, exec i s = .next t ∧ s.Performed t col k w.marker
      ∧ ({ c with j := (t.col col).j } : Column).KeepsAll (t.col col)
      ∧ ∀ n, (t.col col).rdJ n = if x.en ≠ 0 ∧ n = numOf w.d then m &&& c.live else c.rdJ n
    let src : Mask := match w.a with
      | .j n => c.rdJ n.toNat
      | .p n => c.rdP n.toNat
      | .s n => (c.rdS n.toNat).setWidth 32
      | _ => 0
    let here (l : Nat) : Prop := ∃ p, p ∈ c.parked ∧ p.bar = false ∧ p.pc = x.sp.pc ∧ p.lane = l
    (s.Clears col k w fmtJsetMask (fun x => [x.pt x.w.a false 2]) → setsJ (.jsetMask w) (src &&& x.en))
    ∧ (s.Clears col k w fmtJsetEnabled noPts → setsJ (.jsetEnabled w) x.en)
    ∧ (s.Clears col k w fmtJmov (fun x => [x.ptMask]) →
      (x.en = 0 → s.Passes (.jmov w) col k w.marker)
      ∧ (∀ n, w.d = .j n → setsJ (.jmov w) src)
      ∧ (∀ n, x.en ≠ 0 → w.d = .p n → ∃ t, exec (.jmov w) s = .next t ∧ s.Performed t col k w.marker ∧ c.Keeps (t.col col)
        ∧ (t.col col).fpflags = c.fpflags
        ∧ c.Regs (t.col col) (fun _ _ => none) (fun _ => none)
            (fun r l => if r = n.toNat ∧ r ≠ 0 then some (src.getLsbD l, false) else none))
      ∧ (∀ n, x.en ≠ 0 → w.d = .s n → ∃ t, exec (.jmov w) s = .next t ∧ s.Performed t col k w.marker ∧ c.Keeps (t.col col)
        ∧ (t.col col).fpflags = c.fpflags
        ∧ c.Regs (t.col col) (fun _ _ => none)
            (fun r => if r = n.toNat ∧ r ≠ 0 then some (src.setWidth 64, false) else none) (fun _ _ => none)))
    ∧ (s.Clears col k w fmtJoin noPts → x.sp.hnd = false →
      let all : Prop := ∀ l, l < 32 → (c.rdJ (numOf w.a)).getLsbD l = true → c.live.getLsbD l = true →
        x.en.getLsbD l = true ∨ here l
      (x.en = 0 → s.Passes (.join w) col k w.marker)
      ∧ (x.en ≠ 0 → all → ∃ t, exec (.join w) s = .next t ∧ s.Placed t col k (fun _ => next)
        ∧ (∀ l, l < 32 → here l → (t.col col).LaneAt l next)
        ∧ (∀ p, p ∈ (t.col col).parked → p.lane < 32 → p.bar = true ∨ p.pc ≠ x.sp.pc)
        ∧ ({ c with parked := (t.col col).parked } : Column).KeepsAll (t.col col))
      ∧ (x.en ≠ 0 → ¬ all → ∃ t, exec (.join w) s = .next t ∧ s.OnlyColumn t col k ∧ s.RunEnds t col k
        ∧ (t.col col).parked = c.parked ++ (lanesOf x.en).map (fun l => ⟨l, x.sp.pc, false, numOf w.a⟩)
        ∧ (∀ l, l < 32 → x.sp.mask.getLsbD l = true → x.en.getLsbD l = false → (t.col col).LaneAt l next)
        ∧ ({ c with parked := (t.col col).parked } : Column).KeepsAll (t.col col)))

/-- R290 to R292, R303. -/
def Obligations.YieldNapExit : Prop :=
  ∀ (s : State) (w : Full) (col k : Nat), s.Issues col k →
    let x := s.ctxFor col k w
    let c := s.col col
    let next := pcNext x.sp.pc
    let ends (i : Instr) : Prop := ∃ t, exec i s = .next t ∧ s.Placed t col k (fun _ => next) ∧ s.RunEnds t col k ∧ c.KeepsAll (t.col col)
    (s.Clears col k w fmtYield noPts → ends (.yield w))
    ∧ (s.Clears col k w fmtYieldPool noPts → ends (.yieldPool w))
    ∧ (s.Clears col k w fmtDisp noPts →
      (immN w = 0 ∨ x.h.det = true → ends (.nap w))
      ∧ (immN w ≠ 0 → x.h.det = false → x.sp.mask ≠ 0 → ∃ t, exec (.nap w) s = .next t ∧ s.OnlyColumn t col k ∧ s.RunEnds t col k
        ∧ c.KeepsAll (t.col col) ∧ ((t.col col).slot k).cond = .napping ∧ ((t.col col).slot k).pc = next
        ∧ ((t.col col).slot k).mask = x.sp.mask ∧ ((t.col col).slot k).nap = s.cycles col + immN w))
    ∧ (s.Clears col k w fmtBare noPts → x.sp.hnd = false →
      (x.en = 0 → ends (.exit w))
      ∧ (x.en ≠ 0 → c.outstanding x.sp.lanes = true → ∃ t, exec (.exit w) s = .next t ∧ s.OnlyColumn t col k ∧ s.RunEnds t col k
        ∧ c.KeepsAll (t.col col) ∧ ((t.col col).slot k).cond = .parked ∧ ((t.col col).slot k).exiting = x.en)
      ∧ (x.en ≠ 0 → c.outstanding x.sp.lanes = false → ∃ t, exec (.exit w) s = .next t ∧ t.mem = s.mem ∧ t.run = none
        ∧ t = { s with faults := t.faults, cols := t.cols, cores := t.cores, run := t.run }
        ∧ (t.col col).live = c.live &&& ~~~x.en ∧ (t.col col).retired = (c.retired + 1) % 2 ^ 48
        ∧ (∀ n, n < 8 → (t.col col).rdJ n = c.rdJ n &&& ~~~x.en)
        ∧ c.Regs (t.col col) (fun _ _ => none) (fun _ => none) (fun _ _ => none)))
    ∧ (s.Clears col k w fmtSetrst noPts →
      let d : Int := (addrOff (pcAdd next (8 * immS w)).toNat : Int) - (x.entryOff : Int)
      let sets (i : Instr) (v : Nat) : Prop := ∃ t, exec i s = .next t ∧ s.Performed t col k w.marker
        ∧ ({ c with rst := (t.col col).rst } : Column).KeepsAll (t.col col)
        ∧ (t.col col).rst.toNat = if x.en = 0 then c.rst.toNat else v
      (0 ≤ d → d ≤ 0xFFFFFFF8 → sets (.setrst w) d.toNat) ∧ sets (.setrstClr w) 0xFFFFFFFF)

/-- R149, R274, R305 to R309. -/
def Obligations.TrapsAndReturns : Prop :=
  ∀ (s : State) (w : Full) (col k : Nat), s.Issues col k →
    let x := s.ctxFor col k w
    let c := s.col col
    let next := pcNext x.sp.pc
    let back := pcOf x.sp.trap.tpc
    let leaves (i : Instr) (stop : Option StopSt) : Prop := ∃ t, exec i s = .next t ∧ s.OnlyColumn t col k ∧ s.RunEnds t col k
      ∧ (∀ l, l < 32 → x.sp.lanes.getLsbD l = true → (t.col col).LaneAt l back)
      ∧ (t.col col).retired = (c.retired + 1) % 2 ^ 48 ∧ ({ c with stop := stop } : Column).KeepsAll (t.col col)
    (s.Clears col k w fmtTrap noPts →
      (x.en = 0 → s.Passes (.trap w) col k w.marker)
      ∧ ∀ h, x.en ≠ 0 → x.sp.hnd = false → s.HandlerAt col (0x20 + immN w) h → ∃ t, exec (.trap w) s = .next t
        ∧ s.Trapped t col k (0x20 + immN w) x.en 0 0 next h)
    ∧ (s.Clears col k w fmtBare noPts →
      (x.en = 0 → s.Passes (.bkpt w) col k w.marker)
      ∧ ∀ h, x.en ≠ 0 → x.sp.hnd = false → s.HandlerAt col 0x10 h → ∃ t, exec (.bkpt w) s = .next t
        ∧ s.Trapped t col k 0x10 x.sp.mask 0 0 next h ∧ (t.col col).stop = some ⟨k, none, c.slotLanes⟩)
    ∧ (s.Clears col k w fmtRtrap noPts → x.sp.hnd = true →
      (x.en = 0 → s.Passes (.rtrap w) col k w.marker)
      ∧ (x.en ≠ 0 → targetOk col x.sp.trap.tpc = true →
        leaves (.rtrap w) (if x.sp.trap.tcode = 0x10 ∨ x.sp.trap.tcode = 0x11 then none else c.stop.map fun st => { st with step := some (lowLane x.sp.lanes) })))
    ∧ (s.Clears col k w fmtRtrapStep noPts → x.sp.hnd = true → x.sp.trap.tcode = 0x10 ∨ x.sp.trap.tcode = 0x11 →
      (x.en = 0 → s.Passes (.rtrapStep w) col k w.marker)
      ∧ (x.en ≠ 0 → targetOk col x.sp.trap.tpc = true →
        leaves (.rtrapStep w) (some { c.stop.getD ⟨k, none, c.slotLanes⟩ with step := some (immF w 5 0) })))

/-- Every 64-bit word form but QPUSH and QPOP, with what its instruction accepts and its operands at containment points. -/
abbrev FormRow : Type := List (Full → Instr) × (KHdr → Full → Fmt) × (Ctx → List Pt)
def Sys2Proof.Machine.fullForms0 : List FormRow := [
  ([.nop, .exit, .bkpt], fmtBare, noPts),
  ([.bra, .nap], fmtDisp, noPts),
  ([.brx, .ret], fmtBrx, fun x => [x.pt x.w.a true 2]),
  ([.call], fmtCall, noPts),
  ([.callx], fmtCallx, fun x => [x.pt x.w.a true 2]),
  ([.loop], fmtLoop, fun x => [x.pt x.w.d (isWide x.w.ty) 2]),
  ([.jsetMask], fmtJsetMask, fun x => [x.pt x.w.a false 2]),
  ([.jsetEnabled], fmtJsetEnabled, noPts),
  ([.join], fmtJoin, noPts),
  ([.jmov], fmtJmov, fun x => [x.ptMask]),
  ([.yield], fmtYield, noPts),
  ([.yieldPool], fmtYieldPool, noPts),
  ([.susp], fmtSusp, noPts),
  ([.resume], fmtResume, noPts),
  ([.pinit], fmtPinit, fun x => [x.ptAddr x.w.a true x.imageAddr]),
  ([.pwakeRows], fmtPwakeRows, fun x => [x.ptRow]),
  ([.pwakeField], fmtPwakeField, noPts),
  ([.pxform], fmtPxform, noPts),
  ([.pcount], fmtPcount, noPts),
  ([.pfreeRows], fmtPfreeRows, fun x => [x.ptRow]),
  ([.pfreeAll, .pfreeWoken], fmtPfreeAll, noPts),
  ([.setrst, .setrstClr], fmtSetrst, noPts),
  ([.trap], fmtTrap, noPts),
  ([.rtrap], fmtRtrap, noPts),
  ([.rtrapStep], fmtRtrapStep, noPts),
  ([.iadd, .isub], fmt2 tyZp true [xBit 0], noPts),
  ([.iadd3, .imad], fmt3 tyZ [], noPts),
  ([.iaddc, .isubb], fmtCarry, noPts),
  ([.imul, .imulh, .idiv, .irem], fmt2 tyZ true [], noPts),
  ([.imadw], fmtImadw, noPts),
  ([.imin, .imax], fmt2 tyZp true [], noPts),
  ([.iabs], fmt1 [.i32, .i64, .i16x2, .i8x4] [xBit 0], noPts),
  ([.idot4], fmt3 [.i8x4] [xBit 0], noPts),
  ([.and, .or, .xor, .andn, .orn], fmt2 tyL true [], noPts),
  ([.shl, .shr, .sar, .rol], fmtShift, noPts),
  ([.fshl, .fshr], fmtFsh, noPts),
  ([.popc, .clz, .ctz, .brev], fmt1 tyL [], noPts),
  ([.bfx, .bfi], fmtField, noPts),
  ([.prmb], fmt3 [.b32] [], noPts),
  ([.icmp], fmtIcmp, noPts),
  ([.isel], fmtIsel, noPts),
  ([.cvti], fmtCvti, noPts),
  ([.mov], fmt1 tyMov [], noPts),
  ([.movi], fmtMovi, noPts),
  ([.movh], fmtMovh, noPts),
  ([.mkcol], fmtMkcol, noPts),
  ([.colof], fmtColof, noPts),
  ([.offof], fmtOffof, noPts),
  ([.lea], fmtLea, noPts),
  ([.pset], fmtPset, noPts),
  ([.pand, .por, .pxor], fmtP2, noPts),
  ([.pnot, .pmov], fmtP1, noPts),
  ([.vote], fmtVote, noPts),
  ([.shfl], fmtShfl, noPts),
  ([.redc], fmtRedc, noPts),
  ([.scanc], fmtScanc, noPts),
  ([.umov], fmtUmov, noPts),
  ([.mfsr], fmtMfsr, noPts)]
def Sys2Proof.Machine.fullForms1 : List FormRow := [
  ([.mtsr], fmtMtsr, fun x => [x.pt x.w.a true 10]),
  ([.rdcnt], fmtRdcnt, noPts),
  ([.fadd, .fsub, .fmul], fmtF2 tyFA true (xsF true true true), noPts),
  ([.ffma], fmtF3 tyFA (xsF true true true), noPts),
  ([.fmin, .fmax, .famax], fmtF2 tyFA true (xsF false true false), noPts),
  ([.fdiv], fmtF2 [.f32, .f64] false (xsF true true true), noPts),
  ([.fsqrt], fmtF1 [.f32, .f64] (xsF true true false), noPts),
  ([.frcp, .frsq, .fexp2, .flog2, .fsin, .fcos, .ftanh], fmtF1 tyFA (xsF true true false), noPts),
  ([.fcmp], fmtFcmp, noPts),
  ([.fclass], fmtFclass, noPts),
  ([.frnd], fmtFrnd, noPts),
  ([.fscl], fmtFscl, noPts),
  ([.ffrx], fmtFfrx, noPts),
  ([.f2i], fmtF2i, noPts),
  ([.i2f], fmtI2f, noPts),
  ([.fcvt], fmtFcvt, noPts),
  ([.fpack], fmtFpack, noPts),
  ([.funpk], fmtFunpk, noPts),
  ([.fdot2], fmtFdot2, noPts),
  ([.hndec], fmtHndec, noPts),
  ([.ld, .ldr], fmtMem [1, 3], fun x => [x.ptAddr x.w.a true x.addr]),
  ([.st], fmtMem [2, 3], fun x => [x.ptAddr x.w.a true x.addr]),
  ([.lds, .sts, .ldw, .stw, .ldro], fmtMem [], fun x => [x.ptAddr x.w.a true x.addr]),
  ([.str], fmtMem [2, 3], fun x => [x.pt x.w.d (decide (memSize x.w = 8)) 3, x.ptAddr x.w.a true x.addr]),
  ([.pref], fmtPref, fun x => [x.ptAddr x.w.a true x.prefAddr]),
  ([.copy], fmtCopy, fun x => x.ptsCopy (xb x.w 0)),
  ([.copym], fmtCopym, fun x => x.ptsCopy true),
  ([.xch], fmtXch, fun x => [x.pt x.w.a (isWide x.w.ty) 5, x.pt (opB x.w) false 5]),
  ([.seal, .unseal, .flush], fmtPage, Ctx.ptsPage),
  ([.surf], fmtSurf, fun x => [x.ptAddr x.w.a true x.prefAddr]),
  ([.atom], fmtAtom, fun x => x.ptsAtom false),
  ([.acas], fmtAcas, fun x => x.ptsAtom true),
  ([.red], fmtRed, fun x => x.ptsAtom false),
  ([.fence], fmtFence, noPts),
  ([.bar, .bara, .barw, .bard], fmtBar, noPts),
  ([.elect], fmtElect, noPts),
  ([.rinit, .rxpt, .rwait], fmtRcpt true, fun x => x.ptsRcpt true),
  ([.rarv], fmtRcpt false, fun x => x.ptsRcpt false),
  ([.qbind], fmtQbind, fun x => [x.pt x.w.a true 10]),
  ([.qstat], fun _ _ => { d := fS, a := fQ }, noPts),
  ([.submit], fmtSubmit, fun x => (x.w.a :: sExtra x.w.a 8).map fun o => x.pt o true 7),
  ([.semsg], fmtSemsg, fun x => [x.ptAddr x.w.a true x.targetA, x.pt (opB x.w) true 7]),
  ([.tdesc], fmtTdesc, fun x => (x.w.a :: sExtra x.w.a 4).map fun o => x.pt o true 10),
  ([.tfill], fmtTile false, fun x => x.ptsTile false),
  ([.tstore], fmtTile true, fun x => x.ptsTile true),
  ([.tzero], fun _ _ => { d := fT }, noPts),
  ([.mma], fmtMma, fun x => [x.pt (opC x.w) true 9]),
  ([.aclr], fun _ _ => { d := fA }, noPts),
  ([.adrain], fmtAdrain, noPts),
  ([.aspill, .aload], fmtAspill, fun x => [x.ptAddr x.w.a true fun _ => x.spillOff]),
  ([.mwait], fmtMwait, noPts),
  ([.clctP2p], fmtClctP2p, Ctx.ptsP2p),
  ([.clctGroup], fmtClctGroup, Ctx.ptsGroup),
  ([.clctRec], fmtClctRec, fun x => [x.pt (opC x.w) true 8]),
  ([.repart], fmtRepart, fun x => [x.ptAddr x.w.a true x.targetA]),
  ([.sfckey], fmtSfckey, fun x => [x.pt x.w.a false 8, x.pt (opB x.w) false 8] ++ if xb x.w 0 then [] else [x.pt (opC x.w) false 8]),
  ([.cstat], fmtCstat, noPts)]
def Sys2Proof.Machine.fullForms : List FormRow := fullForms0 ++ fullForms1

/-- Checks 6 to 8 of R269: the first that a word fails is its trap. -/
def Sys2Proof.Machine.TrapsFirst (s : State) (i : Instr) (w : Full) (col k : Nat) (f : Fmt) (pts : List Pt) : Prop :=
  let x := s.ctxFor col k w
  let regs := wordRegs w f
  let ops := x.ptGuard :: pts
  (∀ spec reason h, check6 x.h w f = some (spec, reason) → s.HandlerAt col 2 h →
      ∃ t, exec i s = .next t ∧ s.Trapped t col k 2 x.sp.mask 0 (256 * spec + reason) x.sp.pc h)
    ∧ (∀ spec h, check6 x.h w f = none → firstPending x.sp.pend regs = some spec → s.HandlerAt col 4 h →
      ∃ t, exec i s = .next t ∧ s.Trapped t col k 4 x.sp.mask 0 (256 * spec) x.sp.pc h)
    ∧ ∀ p h, check6 x.h w f = none → firstPending x.sp.pend regs = none → x.c.tokenPending regs = false →
      (ops.find? fun q => q.lanes != 0) = some p → s.HandlerAt col 9 h → ∃ t m, exec i s = .next t
        ∧ (∀ l, l < 32 → (m.getLsbD l = true ↔ ∃ q, q ∈ ops ∧ q.lanes.getLsbD l = true))
        ∧ s.Trapped t col k 9 m (if p.pt = 1 then p.addr (lowLane p.lanes) else 0) (256 * p.spec + p.pt) x.sp.pc h

/-- R269: the checks that stop a word before its effect. -/
def Obligations.WordsThatTrap : Prop :=
  (∀ (s : State) (w : Full) (col k : Nat), s.Issues col k →
    let x := s.ctxFor col k w
    x.sp.hnd = false → x.sp.mask ≠ 0 →
    (∀ e, e ∈ fullForms → ∀ i, i ∈ e.1 → TrapsFirst s (i w) w col k (e.2.1 x.h w) (e.2.2 x))
    ∧ (let b := (s.col col).binding (numOf w.d)
      TrapsFirst s (.qpush w) w col k (fmtQpush b x.h w) (x.ptsQpush b))
    ∧ (let b := (s.col col).binding (numOf w.a)
      TrapsFirst s (.qpop w) w col k (fmtQpop b x.h w) []))
  ∧ (∀ (s : State) (word : DWord) (col k info : Nat) (h : DWord), s.Issues col k → ((s.col col).slot k).hnd = false →
    ((s.col col).slot k).mask ≠ 0 → illegalInfo word = some info → s.HandlerAt col 1 h →
    ∃ t, exec (.unassignedOpcodeWord word) s = .next t
      ∧ s.Trapped t col k 1 ((s.col col).slot k).mask 0 info ((s.col col).slot k).pc h)
  ∧ (∀ (s : State) (col k code info : Nat) (h : DWord), s.Issues col k →
    let sp := (s.col col).slot k
    let u := (s.fetch col k).1
    sp.hnd = false → sp.mask ≠ 0 → (s.fetch col k).2 = .trap code info →
    (if code = 8 then u.touchWalk (s.ctxOf col) col (addrOff sp.pc.toNat) else u).HandlerAt col code h →
    ∃ t, exec .instructionFetchFault s = .next t ∧ s.Trapped t col k code sp.mask sp.pc info sp.pc h)

/-- The purse header at a core scratchpad address. -/
def Sys2Proof.Machine.State.purseAt (s : State) (core base : Nat) : PurseHdr :=
  purseOf (natOf ((s.spadGetAll core base 32).flatMap fun w => bytesOf 4 w.1.toNat))

/-- A purse word completes: the header's wake and allocation bits become those given, its counts follow, the rest of the header stays, and no
scratchpad word outside the header and the fields written changes. -/
def Sys2Proof.Machine.PurseStep (s : State) (i : Instr) (col k : Nat) (p : PurseAt) (alloc woken : Nat → Bool) (field : Nat → Nat → Option (Word × Bool))
    (fl : FpFlags → Prop) : Prop :=
  ∃ t, exec i s = .next t ∧ t.mem = s.mem ∧ (t.col col).retired = ((s.col col).retired + 1) % 2 ^ 48
    ∧ (let h := t.purseAt p.core p.base
      (h.resume, h.nrow, h.width, h.layout) = (p.h.resume, p.h.nrow, p.h.width, p.h.layout)
      ∧ (∀ r, r < 256 → h.isAlloc r = alloc r ∧ h.isWoken r = woken r)
      ∧ h.alloc = popcount 256 h.abits ∧ h.woken = popcount 256 h.wake)
    ∧ (∀ r f, r < p.h.nrow → f < p.h.width / 4 →
        t.spadGet p.core (p.field r f) = (field r f).getD (s.spadGet p.core (p.field r f)))
    ∧ (∀ key, key < spadKey p.core p.base ∨ spadKey p.core (p.base + p.h.size) ≤ key →
        tabGet t.spad key = tabGet s.spad key ∧ tabGet t.spadP key = tabGet s.spadP key)
    ∧ (s.col col).Regs (t.col col) (fun _ _ => none) (fun _ => none) (fun _ _ => none)
    ∧ ∃ g, fl g ∧ (t.col col).results
        = (s.col col).results ++ [⟨(s.col col).nextRes, ((s.col col).slot k).lanes, [], g, .none⟩]

/-- R298 to R301. -/
def Obligations.PurseRows : Prop :=
  ∀ (s : State) (w : Full) (col k : Nat) (p : PurseAt), s.Issues col k →
    let x := s.ctxFor col k w
    let named (r : Nat) : Bool := (lanesOf x.en).any fun l => x.ra false l == r
    let same : Nat → Nat → Option (Word × Bool) := fun _ _ => none
    let val (r f : Nat) := s.spadGet p.core (p.field r f)
    x.en ≠ 0 → x.purse w.d = .ok p →
      (s.Clears col k w fmtPwakeRows (fun x => [x.ptRow]) → PurseStep s (.pwakeRows w) col k p p.h.isAlloc
        (fun r => p.h.isWoken r || (p.h.isAlloc r && named r)) same (· = 0))
      ∧ (s.Clears col k w fmtPwakeField noPts → xf w 8 3 < p.h.width / 4 → PurseStep s (.pwakeField w) col k p p.h.isAlloc
        (fun r => p.h.isWoken r || (p.h.isAlloc r && (x.qa false 0 || (val r (xf w 8 3)).2
          || (purseCmp w.ty (xf w 2 0) (val r (xf w 8 3)).1.toNat (x.ra false 0)).1))) same
        (fun g => w.ty ≠ .f32 → g = 0))
      ∧ (s.Clears col k w fmtPxform noPts → immF w 5 0 < p.h.width / 4 →
        let f := immF w 5 0
        let op := immF w 8 6
        let cc := immF w 11 9
        let new (r : Nat) : Nat := (xformOp w.ty op (val r f).1.toNat (x.ra false 0)).1
        let poi (r : Nat) : Bool := x.qa false 0 || (decide (op ≠ 5) && (val r f).2)
        PurseStep s (.pxform w) col k p p.h.isAlloc
          (fun r => p.h.isWoken r || (p.h.isAlloc r && decide (cc ≠ 0) && (poi r || (purseCmp w.ty cc (new r) 0).1)))
          (fun r g => if g = f ∧ p.h.isAlloc r = true then some (BitVec.ofNat 32 (new r), poi r) else none)
          (fun g => w.ty ≠ .f32 → g = 0))
      ∧ (s.Clears col k w fmtPfreeRows (fun x => [x.ptRow]) → PurseStep s (.pfreeRows w) col k p
        (fun r => p.h.isAlloc r && !named r) (fun r => p.h.isWoken r && !named r) same (· = 0))
      ∧ (s.Clears col k w fmtPfreeAll noPts → PurseStep s (.pfreeAll w) col k p (fun _ => false) (fun _ => false) same (· = 0))
      ∧ (s.Clears col k w fmtPfreeAll noPts → PurseStep s (.pfreeWoken w) col k p
        (fun r => p.h.isAlloc r && !p.h.isWoken r) (fun _ => false) same (· = 0))

/-- R300. -/
def Obligations.PurseCounts : Prop :=
  ∀ (s : State) (w : Full) (col k : Nat) (p : PurseAt), s.Issues col k → s.Clears col k w fmtPcount noPts →
    let x := s.ctxFor col k w
    (x.en = 0 → s.Passes (.pcount w) col k w.marker)
    ∧ (x.en ≠ 0 → x.purse w.a = .ok p → s.YieldsLater (.pcount w) col k w true false
      (fun _ => p.h.alloc + 2 ^ 16 * p.h.woken + 2 ^ 32 * p.h.nrow) (fun _ => false) 0)

/-- R295 to R297. -/
def Obligations.CoroutinesInPurses : Prop :=
  ∀ (s : State) (w : Full) (col k : Nat) (p : PurseAt), s.Issues col k →
    let x := s.ctxFor col k w
    let c := s.col col
    let disp := pcAdd (pcNext x.sp.pc) (8 * immS w)
    let rank (l : Nat) : Nat := ((lanesOf x.en).filter (· < l)).length
    let frees := p.h.rows.filter fun r => !p.h.isAlloc r
    let wokens := p.h.rows.filter fun r => p.h.isWoken r
    let suspRow (l : Nat) : Option Nat := if x.en.getLsbD l then frees[rank l]? else none
    let resRow (l : Nat) : Option Nat := if x.en.getLsbD l then wokens[rank l]? else none
    (x.en ≠ 0 → x.sp.hnd = false → x.purse w.a = .ok p → x.layoutBad w.a p = none →
      (s.Clears col k w fmtSusp noPts → ∃ t ws, exec (.susp w) s = .next t ∧ t.mem = s.mem
        ∧ s.LanesGo t col k (fun l => if (suspRow l).isSome then disp else pcNext x.sp.pc)
        ∧ (t.col col).results = c.results ++ [⟨c.nextRes, (c.slot k).lanes, ws, 0, .none⟩]
        ∧ c.Delivers (c.applyWrites ws) w.d false false x.en (fun l => if (suspRow l).isSome then 1 else 0) (fun _ => false)
        ∧ (∀ r, r < 256 → (t.purseAt p.core p.base).isAlloc r = (p.h.isAlloc r || (lanesOf x.en).any fun l => suspRow l == some r)
          ∧ (t.purseAt p.core p.base).isWoken r = (p.h.isWoken r || (xb w 0 && (lanesOf x.en).any fun l => suspRow l == some r)))
        ∧ ∀ l r f, l < 32 → suspRow l = some r → f < p.h.width / 4 →
          t.spadGet p.core (p.field r f) = (c.rdV (p.h.layout.getD f 0) l, c.rdVp (p.h.layout.getD f 0) l))
      ∧ (s.Clears col k w fmtResume noPts → ∃ t ws, exec (.resume w) s = .next t ∧ t.mem = s.mem
        ∧ s.LanesGo t col k (fun l => if (resRow l).isSome then p.h.resume else if x.en.getLsbD l then disp else pcNext x.sp.pc)
        ∧ (t.col col).results = c.results ++ [⟨c.nextRes, (c.slot k).lanes, ws, 0, .none⟩]
        ∧ (∀ n l, l < 32 → (((c.applyWrites ws).rdP n).getLsbD l, ((c.applyWrites ws).rdPp n).getLsbD l)
          = if n = numOf w.d ∧ x.en.getLsbD l = true then ((resRow l).isSome, false) else ((c.rdP n).getLsbD l, (c.rdPp n).getLsbD l))
        ∧ (∀ l r f, l < 32 → resRow l = some r → f < p.h.width / 4 →
          (∀ g, f < g → g < p.h.width / 4 → p.h.layout.getD g 0 ≠ p.h.layout.getD f 0) →
          ((c.applyWrites ws).rdV (p.h.layout.getD f 0) l, (c.applyWrites ws).rdVp (p.h.layout.getD f 0) l)
            = s.spadGet p.core (p.field r f))
        ∧ (∀ n l, l < 32 → resRow l = none ∨ (∀ f, f < p.h.width / 4 → p.h.layout.getD f 0 ≠ n) →
          ((c.applyWrites ws).rdV n l, (c.applyWrites ws).rdVp n l) = (c.rdV n l, c.rdVp n l))
        ∧ ∀ r, r < 256 → (t.purseAt p.core p.base).isAlloc r = (p.h.isAlloc r && !((lanesOf x.en).any fun l => resRow l == some r))
          ∧ (t.purseAt p.core p.base).isWoken r = (p.h.isWoken r && !((lanesOf x.en).any fun l => resRow l == some r))))
    ∧ (∀ core base last, x.en ≠ 0 → s.Clears col k w fmtPinit (fun x => [x.ptAddr x.w.a true x.imageAddr]) →
      x.purseSpot w.d = .ok (core, base, last) →
      let f (i : Nat) : DWord := x.imageAddr 0 + BitVec.ofNat 64 (8 * i)
      let r := s.readLanes col f 8 (List.range 16)
      let h := purseOf (natOf (r.2.flatMap fun a => bytesOf 8 a.data.toNat))
      x.check183 (fun _ => f 0) = none → x.checkAlign (fun _ => f 0) 8 = none → (∀ i, i < 16 → x.check183 (fun _ => f i) = none) →
      (∀ i, i < 16 → x.checkOwn x.en (fun _ => f i) 8 .read = none) → x.held false 0 0 = false →
      (∀ a ∈ r.2, a.pois = false) → h.ok = true → base + h.size ≤ last →
      ∃ t, exec (.pinit w) s = .next t ∧ t.mem = s.mem ∧ t.purseAt core base = h
        ∧ (∀ key, key < spadKey core base ∨ spadKey core (base + 128) ≤ key → tabGet t.spad key = tabGet s.spad key)
        ∧ c.Regs (t.col col) (fun _ _ => none) (fun _ => none) (fun _ _ => none))

/-- R392 to R394. -/
def Obligations.Receipts : Prop :=
  ∀ (s : State) (w : Full) (col k : Nat), s.Issues col k →
    let x := s.ctxFor col k w
    let c := s.col col
    let off := x.rcptOff.toNat
    let reg := s.region col (xb w 0)
    let a := reg.1 + off
    let r := (s.rcptGet (coreOf col) a).1
    let d := x.rdd true 0
    let good : Prop := x.en ≠ 0 ∧ off % 16 = 0 ∧ off + 16 ≤ reg.2 ∧ s.zeroing col [(a, 16)] = false
    let clean : Prop := (s.rcptGet (coreOf col) a).2 = false
    let done (i : Instr) (f : Rcpt) : Prop := ∃ t, exec i s = .next t
      ∧ (t.rcptGet (coreOf col) a).1 = (if f.arrv = 0 ∧ f.sect = 0 then ⟨(f.phase + 1) % 16, f.reload, 0, f.reload⟩ else f)
      ∧ (∀ key, key < spadKey (coreOf col) a ∨ spadKey (coreOf col) (a + 16) ≤ key → tabGet t.spad key = tabGet s.spad key)
      ∧ (t.col col).retired = (c.retired + 1) % 2 ^ 48
      ∧ c.Regs (t.col col) (fun _ _ => none) (fun _ => none) (fun _ _ => none)
    (s.Clears col k w (fmtRcpt true) (fun x => x.ptsRcpt true) →
      (good → d < 2 ^ 28 → ∃ t, exec (.rinit w) s = .next t ∧ t.mem = s.mem
        ∧ t.rcptGet (coreOf col) a = (⟨d / 2 ^ 24, d % 2 ^ 24, 0, d % 2 ^ 24⟩, false)
        ∧ (∀ key, key < spadKey (coreOf col) a ∨ spadKey (coreOf col) (a + 16) ≤ key → tabGet t.spad key = tabGet s.spad key)
        ∧ c.KeepsAll (t.col col))
      ∧ (good → clean → d < 2 ^ 32 → done (.rxpt w) { r with sect := (r.sect + d) % 2 ^ 32 })
      ∧ (good → clean → d = r.phase → s.Passes (.rwait w) col k w.marker)
      ∧ (good → clean → d < 16 → d ≠ r.phase → ∃ t, exec (.rwait w) s = .next t ∧ s.Performed t col k w.marker ∧ c.KeepsRegs (t.col col)
        ∧ (t.col col).results = c.results ++ [⟨c.nextRes, (c.slot k).lanes, [], 0, .phase (xb w 0) off d⟩])
      ∧ (x.en = 0 → s.Passes (.rinit w) col k w.marker ∧ s.Passes (.rxpt w) col k w.marker ∧ s.Passes (.rwait w) col k w.marker))
    ∧ (s.Clears col k w (fmtRcpt false) (fun x => x.ptsRcpt false) →
      (good → clean → 1 ≤ r.arrv → done (.rarv w) { r with arrv := r.arrv - 1 })
      ∧ (x.en = 0 → s.Passes (.rarv w) col k w.marker))

/-- R388 to R390. -/
def Obligations.BarrierWords : Prop :=
  ∀ (s : State) (w : Full) (col k : Nat), s.Issues col k → s.Clears col k w fmtBar noPts →
    let x := s.ctxFor col k w
    let c := s.col col
    let n := barNum w
    let b := tabGet c.cbar n
    let next := pcNext x.sp.pc
    let member : Prop := x.en ≠ 0 ∧ barLevel w = 1 ∧ x.en &&& b.dropped = 0 ∧ x.en &&& b.arrived = 0
    let full (drop : Mask) : Prop := b.arrived ||| x.en ||| drop = 0xFFFFFFFF
    let done (t : State) (drop : Mask) : Prop := tabGet (t.col col).cbar n = ⟨drop, 0, !b.phase⟩
      ∧ (∀ p, p ∈ (t.col col).parked → p.bar = true → p.id ≠ barKey 1 n)
      ∧ ∀ p, p ∈ c.parked → p.bar = true → p.id = barKey 1 n → p.lane < 32 → (t.col col).LaneAt p.lane (pcNext p.pc)
    let rest (t : State) (drop : Mask) : Prop := tabGet (t.col col).cbar n = ⟨drop, b.arrived ||| x.en, b.phase⟩
    let key := barKey (barLevel w) n
    let u := tabGet c.ubar key
    (x.en = 0 → x.sp.hnd = false → s.Passes (.bar w) col k w.marker ∧ s.Passes (.bara w) col k w.marker
      ∧ s.Passes (.barw w) col k w.marker ∧ s.Passes (.bard w) col k w.marker)
    ∧ (member →
      (full b.dropped → c.reqs = [] → ∃ t, exec (.bara w) s = .next t ∧ s.Placed t col k (fun _ => next) ∧ done t b.dropped)
      ∧ (¬ full b.dropped → ∃ t, exec (.bara w) s = .next t ∧ s.Performed t col k w.marker ∧ rest t b.dropped)
      ∧ (x.sp.hnd = false →
        (full (b.dropped ||| x.en) → c.reqs = [] → ∃ t, exec (.bard w) s = .next t ∧ s.Placed t col k (fun _ => next)
          ∧ done t (b.dropped ||| x.en))
        ∧ (¬ full (b.dropped ||| x.en) → ∃ t, exec (.bard w) s = .next t ∧ s.Performed t col k w.marker ∧ rest t (b.dropped ||| x.en))
        ∧ (full b.dropped → c.reqs = [] → ∃ t, exec (.bar w) s = .next t ∧ s.Placed t col k (fun _ => next) ∧ done t b.dropped)
        ∧ (¬ full b.dropped → ∃ t, exec (.bar w) s = .next t ∧ s.OnlyColumn t col k ∧ s.RunEnds t col k ∧ rest t b.dropped
          ∧ (t.col col).parked = c.parked ++ (lanesOf x.en).map (fun l => ⟨l, x.sp.pc, true, barKey 1 n⟩)
          ∧ ∀ l, l < 32 → x.sp.mask.getLsbD l = true → x.en.getLsbD l = false → (t.col col).LaneAt l next)
        ∧ s.Passes (.barw w) col k w.marker))
    ∧ (x.en ≠ 0 → barLevel w ≠ 1 → u.dropped = false → u.arrived = false → x.en &&& u.lanes = 0 →
      c.live &&& ~~~(u.lanes ||| x.en) ≠ 0 →
      (u.lanes = 0 ∨ u.kind = 2 → ∃ t, exec (.bara w) s = .next t ∧ s.Performed t col k w.marker
        ∧ tabGet (t.col col).ubar key = { u with lanes := u.lanes ||| x.en, kind := 2 })
      ∧ (x.sp.hnd = false → u.lanes = 0 ∨ u.kind = 3 → ∃ t, exec (.bard w) s = .next t ∧ s.Performed t col k w.marker
        ∧ tabGet (t.col col).ubar key = { u with lanes := u.lanes ||| x.en, kind := 3 })
      ∧ (x.sp.hnd = false → u.lanes = 0 ∨ u.kind = 1 → ∃ t, exec (.bar w) s = .next t ∧ s.OnlyColumn t col k
        ∧ tabGet (t.col col).ubar key = { u with lanes := u.lanes ||| x.en, kind := 1 }
        ∧ (t.col col).parked = c.parked ++ (lanesOf x.en).map (fun l => ⟨l, x.sp.pc, true, key⟩))
      ∧ (x.sp.hnd = false → s.Passes (.barw w) col k w.marker))

/-- No array error or reserved mode code is waiting to be met by a read. -/
def Sys2Proof.Machine.State.Sound (s : State) : Prop := s.upsets = [] ∧ ∀ b, tabGet s.modes b < 5

/-- Byte i of an access of a page, and whether it is poisoned. -/
def Sys2Proof.Machine.State.accByte (s : State) (col : Nat) (p : Page) (a : DWord) (i : Nat) : Byte :=
  s.pageByte col p (addrAp a.toNat == 1) (addrOff a.toNat % p.size + i)
def Sys2Proof.Machine.State.accBad (s : State) (col : Nat) (p : Page) (a : DWord) (i : Nat) : Bool :=
  s.pagePois col p (addrAp a.toNat == 1) (addrOff a.toNat % p.size + i)

/-- The value of n bytes; a poisoned byte counts as 0 (R456). -/
def Sys2Proof.Machine.State.accVal (s : State) (col : Nat) (p : Page) (a : DWord) (n : Nat) : Nat :=
  natOf ((List.range n).map fun i => if s.accBad col p a i then 0 else s.accByte col p a i)
def Sys2Proof.Machine.State.accPois (s : State) (col : Nat) (p : Page) (a : DWord) (n : Nat) : Bool :=
  (List.range n).any fun i => s.accBad col p a i

/-- Every enabled lane's address names its column, is aligned, and gives a page. -/
def Sys2Proof.Machine.Ctx.OwnOk (x : Ctx) (acc : Acc) (pg : Nat → Page) : Prop :=
  ∀ l, l < 32 → x.en.getLsbD l = true → ownAddr x.col (x.addr l) = true ∧ addrAp (x.addr l).toNat < 2
    ∧ (x.addr l).toNat % memSize x.w = 0 ∧ x.own (x.addr l) (memSize x.w) acc = .page (pg l)

/-- R355, R356. -/
def Obligations.OwnMemoryWords : Prop :=
  ∀ (s : State) (w : Full) (col k : Nat) (pg : Nat → Page), s.Issues col k → s.Sound →
    let x := s.ctxFor col k w
    let c := s.col col
    let n := memSize w
    let ls := x.lanesFor w.d
    let sp (l : Nat) : Span := ⟨col, pg l, addrAp (x.addr l).toNat == 1, addrOff (x.addr l).toNat % (pg l).size⟩
    (s.Clears col k w (fmtMem [1, 3]) (fun x => [x.ptAddr x.w.a true x.addr]) →
      (x.en = 0 → s.Passes (.ld w) col k w.marker)
      ∧ (x.en ≠ 0 → x.OwnOk .read pg → x.held false (memOrd w) x.en = false →
        s.YieldsLater (.ld w) col k w (decide (n = 8)) (w.ty == .i32)
          (fun l => extLoad w.ty n (s.accVal col (pg l) (x.addr l) n)) (fun l => s.accPois col (pg l) (x.addr l) n) 0))
    ∧ (s.Clears col k w (fmtMem [2, 3]) (fun x => [x.ptAddr x.w.a true x.addr]) →
      (x.en = 0 → s.Passes (.st w) col k w.marker)
      ∧ (x.en ≠ 0 → x.OwnOk .write pg → x.held true (memOrd w) x.en = false →
        (∀ l, l < 32 → x.en.getLsbD l = true → addrAp (x.addr l).toNat = 0 → (pg l).tol ≠ 0 → n % 4 = 0) →
        ∃ t, exec (.st w) s = .next t ∧ c.KeepsAll (t.col col) ∧ (t.col col).retired = (c.retired + 1) % 2 ^ 48
          ∧ (∀ d, d ≠ col → tabGet t.cols d = tabGet s.cols d)
          ∧ t = { s with
              mem := t.mem, pois := t.pois, dirty := t.dirty, vault := t.vault, modes := t.modes
              faults := t.faults, cols := t.cols, cores := t.cores, run := t.run }
          ∧ (∀ a, (∀ l, l ∈ ls → ¬ s.reaches (sp l) n a) → Memory.read t.mem a = Memory.read s.mem a)
          ∧ (∀ l i, l ∈ ls → i < n → (pg l).comp = false → (sp l).raw = true ∨ (pg l).tol = 0 →
            let at_ (j : Nat) : Nat := (s.place col (pg l).tier ((pg l).base + (sp l).po + j)).addr
            (∀ j, j < n → s.mirror col (pg l).tier ((pg l).base + (sp l).po + j) = none) →
            (∀ m, m ∈ ls → l < m → ¬ s.reaches (sp m) n (at_ i)) →
            Memory.read t.mem (at_ i) = BitVec.ofNat 8 (x.rdd (decide (n = 8)) l / 256 ^ i))
          ∧ ∀ l i, l ∈ ls → i < n → (sp l).raw = true ∨ (pg l).tol = 0 → x.qd (decide (n = 8)) l = true →
            tabGet t.pois (((s.pagePlace col (pg l) (sp l).raw (sp l).po).addr + i) / 64) = true))

/-- The byte of a core's scratchpad at a byte address. -/
def Sys2Proof.Machine.State.spadByte (s : State) (core a : Nat) : Nat := (s.spadGet core a).1.toNat / 2 ^ (8 * (a % 4)) % 256

/-- R357. -/
def Obligations.ScratchpadWords : Prop :=
  ∀ (s : State) (w : Full) (col k : Nat), s.Issues col k → s.Clears col k w (fmtMem []) (fun x => [x.ptAddr x.w.a true x.addr]) →
    let x := s.ctxFor col k w
    let c := s.col col
    let n := memSize w
    let ls := x.lanesFor w.d
    let core := coreOf col
    let loads (i : Instr) (win : Bool) : Prop :=
      let a (l : Nat) : Nat := (s.region col win).1 + (x.addr l).toNat
      (x.en = 0 → s.Passes i col k w.marker)
      ∧ (x.en ≠ 0 → x.checkSpad win = none → s.YieldsLater i col k w (decide (n = 8)) (w.ty == .i32)
        (fun l => extLoad w.ty n (natOf ((List.range n).map fun j => BitVec.ofNat 8 (s.spadByte core (a l + j)))))
        (fun l => (s.spadGet core (a l)).2 || (decide (n = 8) && (s.spadGet core (a l + 4)).2)) 0)
    let stores (i : Instr) (win : Bool) : Prop :=
      let a (l : Nat) : Nat := (s.region col win).1 + (x.addr l).toNat
      let hit (l b : Nat) : Prop := a l ≤ b ∧ b < a l + n
      let touch (l b : Nat) : Prop := a l / 4 ≤ b / 4 ∧ b / 4 ≤ (a l + n - 1) / 4
      (x.en = 0 → s.Passes i col k w.marker)
      ∧ (x.en ≠ 0 → x.checkSpad win = none → ∃ t, exec i s = .next t ∧ c.KeepsAll (t.col col)
        ∧ (t.col col).retired = (c.retired + 1) % 2 ^ 48 ∧ (∀ d, d ≠ col → tabGet t.cols d = tabGet s.cols d)
        ∧ t = { s with spad := t.spad, spadP := t.spadP, faults := t.faults, cols := t.cols, cores := t.cores, run := t.run }
        ∧ (∀ l b, l ∈ ls → hit l b → (∀ m, m ∈ ls → l < m → ¬ hit m b) →
            t.spadByte core b = x.rdd (decide (n = 8)) l / 256 ^ (b - a l) % 256)
        ∧ (∀ b, (∀ l, l ∈ ls → ¬ hit l b) → t.spadByte core b = s.spadByte core b)
        ∧ (∀ l b, l ∈ ls → touch l b → ((t.spadGet core b).2 = true ↔ ∃ m, m ∈ ls ∧ touch m b ∧ x.qd (decide (n = 8)) m = true))
        ∧ ∀ key, (∀ l b, l ∈ ls → touch l b → key ≠ spadKey core b) →
            tabGet t.spad key = tabGet s.spad key ∧ tabGet t.spadP key = tabGet s.spadP key)
    loads (.lds w) false ∧ loads (.ldw w) true ∧ stores (.sts w) false ∧ stores (.stw w) true

/-- n requests of a column are handed over, with fresh tags in order; for loads each has a result that awaits its reply. -/
def Sys2Proof.Machine.State.Requests (s t : State) (col k n : Nat) (wr load : Bool) : Prop :=
  let c := s.col col
  t.mem = s.mem ∧ t.spad = s.spad ∧ t.nextTag = s.nextTag + n ∧ (t.col col).retired = (c.retired + 1) % 2 ^ 48
    ∧ (t.col col).reqs.map (fun r => (r.tag, r.write))
      = c.reqs.map (fun r => (r.tag, r.write)) ++ (List.range n).map (fun i => (s.nextTag + i, wr))
    ∧ (t.col col).results.map (fun r => (r.id, r.lanes, r.await))
      = c.results.map (fun r => (r.id, r.lanes, r.await)) ++
        (if load then (List.range n).map fun i => (c.nextRes + i, (c.slot k).lanes, .reply (s.nextTag + i)) else [])
    ∧ c.Regs (t.col col) (fun _ _ => none) (fun _ => none) (fun _ _ => none) ∧ (t.col col).fpflags = c.fpflags

/-- Every enabled lane's address is aligned and names another column. -/
def Sys2Proof.Machine.Ctx.FarOk (x : Ctx) (f : Nat → DWord) (n : Nat) : Prop :=
  ∀ l, l < 32 → x.en.getLsbD l = true → ownAddr x.col (f l) = false ∧ addrAp (f l).toNat < 2 ∧ addrCol (f l).toNat < nCols
    ∧ (f l).toNat % n = 0

/-- R358, R360 to R362. -/
def Obligations.RemoteMemoryWords : Prop :=
  ∀ (s : State) (w : Full) (col k : Nat) (pg : Nat → Page), s.Issues col k → s.Sound →
    let x := s.ctxFor col k w
    let c := s.col col
    let n := memSize w
    let ls := x.lanesFor w.d
    let blocks : List Nat := (ls.map fun l => (x.addr l).toNat / 256).eraseDups
    let keys : List Nat := blocks.map fun b => creditKey (256 * b)
    let reads (i : Instr) : Prop := s.YieldsLater i col k w (decide (n = 8)) (w.ty == .i32)
      (fun l => extLoad w.ty n (s.accVal col (pg l) (x.addr l) n)) (fun l => s.accPois col (pg l) (x.addr l) n) 0
    let cached (l : Nat) : Option Replica := s.replicas.find? fun r =>
      r.cluster == clusterOf col && r.owner == nCols * addrPkg (x.addr l).toNat + addrCol (x.addr l).toNat && r.line == (x.addr l).toNat % 2 ^ 36 / 64
    (s.Clears col k w (fmtMem [1, 3]) (fun x => [x.ptAddr x.w.a true x.addr]) →
      (x.en = 0 → s.Passes (.ldr w) col k w.marker)
      ∧ (x.en ≠ 0 → x.OwnOk .read pg → x.held false (memOrd w) (maskOf ls) = false → c.sendq = [] → reads (.ldr w))
      ∧ (x.en ≠ 0 → x.FarOk x.addr n → x.held false (memOrd w) 0 = false → s.canRequest col keys = true →
        ∃ t, exec (.ldr w) s = .next t ∧ s.Requests t col k blocks.length false true))
    ∧ (s.Clears col k w (fmtMem []) (fun x => [x.ptAddr x.w.a true x.addr]) →
      (x.en = 0 → s.Passes (.ldro w) col k w.marker)
      ∧ (x.en ≠ 0 → x.OwnOk .read pg → x.held false 0 (maskOf ls) = false → c.sendq = [] → reads (.ldro w))
      ∧ (x.en ≠ 0 → x.FarOk x.addr n → s.replicas = [] → x.held false 0 0 = false → s.canRequest col keys = true →
        ∃ t, exec (.ldro w) s = .next t ∧ s.Requests t col k blocks.length false true)
      ∧ (x.en ≠ 0 → x.FarOk x.addr n → (∀ l, l ∈ ls → (cached l).isSome = true) → x.held false 0 0 = false → c.sendq = [] →
        s.YieldsLater (.ldro w) col k w (decide (n = 8)) (w.ty == .i32)
          (fun l => extLoad w.ty n (((cached l).getD default).data.toNat / 2 ^ (8 * ((x.addr l).toNat % 64)) % 2 ^ (8 * n)))
          (fun l => ((cached l).getD default).pois) 0))
    ∧ (s.Clears col k w (fmtMem [2, 3]) (fun x => [x.pt x.w.d (decide (memSize w = 8)) 3, x.ptAddr x.w.a true x.addr]) →
      let sp (l : Nat) : Span := ⟨col, pg l, addrAp (x.addr l).toNat == 1, addrOff (x.addr l).toNat % (pg l).size⟩
      (x.en = 0 → s.Passes (.str w) col k w.marker)
      ∧ (x.en ≠ 0 → x.OwnOk .write pg → x.held true (memOrd w) (maskOf ls) = false → c.sendq = [] →
        (∀ l, l < 32 → x.en.getLsbD l = true → addrAp (x.addr l).toNat = 0 → (pg l).tol ≠ 0 → n % 4 = 0) →
        ∃ t, exec (.str w) s = .next t ∧ c.KeepsAll (t.col col) ∧ (t.col col).retired = (c.retired + 1) % 2 ^ 48
          ∧ ∀ a, (∀ l, l ∈ ls → ¬ s.reaches (sp l) n a) → Memory.read t.mem a = Memory.read s.mem a)
      ∧ (x.en ≠ 0 → x.FarOk x.addr n → x.held true (memOrd w) 0 = false → s.canRequest col keys = true →
        ∃ t, exec (.str w) s = .next t ∧ s.Requests t col k blocks.length true false))
    ∧ (s.Clears col k w fmtPref (fun x => [x.ptAddr x.w.a true x.prefAddr]) →
      (∀ l, l < 32 → x.en.getLsbD l = true → ownAddr col (x.prefAddr l) = true ∧ addrAp (x.prefAddr l).toNat < 2) →
      s.Passes (.pref w) col k w.marker)

/-- A page word starts its operation. FLUSH writes back what its region holds dirty; the others change nothing of memory. -/
def Sys2Proof.Machine.StartsPageOp (s : State) (i : Instr) (col k : Nat) (kind : PageKind) (off len : Nat) (en : Mask) : Prop :=
  ∃ t, exec i s = .next t ∧ (s.col col).KeepsRegs (t.col col) ∧ (t.col col).retired = ((s.col col).retired + 1) % 2 ^ 48
    ∧ t = { s with
        nextOp := s.nextOp + 1, seqNo := s.seqNo + 1, ops := t.ops, faults := t.faults, cols := t.cols, cores := t.cores, run := t.run
        mem := t.mem, pois := t.pois, dirty := t.dirty, vault := t.vault, modes := t.modes, upsets := t.upsets }
    ∧ (kind ≠ .flush → (t.mem, t.pois, t.dirty, t.vault, t.modes, t.upsets) = (s.mem, s.pois, s.dirty, s.vault, s.modes, s.upsets))
    ∧ (kind = .flush →
      ((∀ b, tabGet s.vault b ≠ none → s.mirror (placeOf (256 * b)).col (placeOf (256 * b)).tier (placeOf (256 * b)).off = none) →
        ∀ a, tabGet s.vault (a / 256) = none → Memory.read t.mem a = Memory.read s.mem a)
        ∧ ∀ o lo hi b, o ∈ steps64 off len →
          s.stepBlocks (s.ctxOf col) ⟨kind, col, off, len, [], [], false, en, s.nextTag⟩ o = some (lo, hi) → lo ≤ b → b ≤ hi →
          tabGet t.vault b = none ∧ ∀ i, i < 4 → tabGet t.dirty (4 * b + i) = false)
    ∧ (∀ d, d ≠ col → tabGet t.cols d = tabGet s.cols d)
    ∧ (∀ j, tabGet t.ops j = if j = s.nextOp then some ⟨s.seqNo, s.ctxOf col, false, .page ⟨kind, col, off, len, [], [], false, en, s.nextTag⟩⟩
        else tabGet s.ops j)
    ∧ (t.col col).results = (s.col col).results ++ [⟨(s.col col).nextRes, ((s.col col).slot k).lanes, [], 0, .op s.nextOp⟩]

/-- R363 to R367. -/
def Obligations.PageWords : Prop :=
  ∀ (s : State) (w : Full) (col k : Nat), s.Issues col k →
    let x := s.ctxFor col k w
    (s.Clears col k w fmtSurf (fun x => [x.ptAddr x.w.a true x.prefAddr]) →
      (∀ l, l < 32 → x.en.getLsbD l = true → ownAddr col (x.prefAddr l) = true ∧ addrAp (x.prefAddr l).toNat < 2) →
      let a := (x.prefAddr (lowLane x.en)).toNat
      let o := (s.walk (s.ctxOf col) col (addrOff a)).1
      (x.en = 0 → s.Passes (.surf w) col k w.marker)
      ∧ (x.en ≠ 0 → s.upsets = [] → ∃ v, s.YieldsLater (.surf w) col k w true false (fun _ => v) (fun _ => false) 0
        ∧ (o = .miss → v = 0) ∧ (∀ r, o = .bad r → v = 2 ^ 17)
        ∧ ∀ p, o = .page p →
          let blk := addrOff a % p.size / 256 * 256
          let mode := if p.comp then tabGet s.modes ((s.pagePlace col p (addrAp a == 1) blk).addr / 256) else 0
          p.tol < 4 → mode < 16 →
          v % 16 = mode ∧ v / 2 ^ 4 % 16 = (if p.comp then modeSectors mode else 8) ∧ v.testBit 8 = p.comp ∧ v / 2 ^ 9 % 4 = p.tol
          ∧ v.testBit 11 = p.sl ∧ v.testBit 12 = p.tier ∧ v.testBit 13 = p.w ∧ v.testBit 14 = p.x ∧ v.testBit 15 = true
          ∧ v.testBit 16 = (List.range 256).any (fun i => tabGet s.pois (s.pagePlace col p (addrAp a == 1) (blk + i)).line)))
    ∧ (s.Clears col k w fmtPage Ctx.ptsPage →
      let f (l : Nat) : DWord := BitVec.ofNat 64 (x.ra true l)
      let off := addrOff (f (lowLane x.en)).toNat
      let len := x.rb true (lowLane x.en)
      let inside : Prop := (∀ l, l < 32 → x.en.getLsbD l = true → ownAddr col (f l) = true ∧ addrAp (f l).toNat < 2) ∧ off + len ≤ 2 ^ 34
      let pages (whole : Bool) : Prop := ∀ o, o ∈ steps64 off len → ∃ p, (s.walk (s.ctxOf col) col o).1 = .page p
        ∧ (whole = true → p.size = 2 ^ 21 → off ≤ o / 2 ^ 21 * 2 ^ 21 ∧ o / 2 ^ 21 * 2 ^ 21 + 2 ^ 21 ≤ off + len)
      (x.en = 0 → s.Passes (.flush w) col k w.marker ∧ s.Passes (.seal w) col k w.marker ∧ s.Passes (.unseal w) col k w.marker)
      ∧ (x.en ≠ 0 → inside →
        (off % 256 = 0 → len % 256 = 0 → (len = 0 → s.Passes (.flush w) col k w.marker)
          ∧ (len ≠ 0 → pages false → StartsPageOp s (.flush w) col k .flush off len x.en))
        ∧ (off % 65536 = 0 → len % 65536 = 0 →
          (len = 0 → s.Passes (.seal w) col k w.marker ∧ s.Passes (.unseal w) col k w.marker)
          ∧ (len ≠ 0 → pages true → StartsPageOp s (.seal w) col k .seal off len x.en
            ∧ StartsPageOp s (.unseal w) col k .unseal off len x.en))))

/-- New fresh requests of a column are handed over, at least one; for loads each has a result that awaits its reply. -/
def Sys2Proof.Machine.State.SomeRequests (s t : State) (col k : Nat) (wr load : Bool) : Prop := ∃ n, 0 < n ∧ s.Requests t col k n wr load

/-- An own atomic of one access at lane l: the old value's result, and the new value stored. -/
def Sys2Proof.Machine.OwnAtomic (s : State) (i : Instr) (col k l : Nat) (w : Full) (pg : Page) (red : Bool) (new : Nat → Option Nat) : Prop :=
  let x := s.ctxFor col k w
  let c := s.col col
  let n := atomSize w
  let a := x.targetA l
  let old := s.accVal col pg a n
  let poi := s.accPois col pg a n
  let sp : Span := ⟨col, pg, false, addrOff a.toNat % pg.size⟩
  let at_ (j : Nat) : Nat := (s.place col pg.tier (pg.base + addrOff a.toNat % pg.size + j)).addr
  ∃ t, exec i s = .next t ∧ (t.col col).retired = (c.retired + 1) % 2 ^ 48
    ∧ c.Regs (t.col col) (fun _ _ => none) (fun _ => none) (fun _ _ => none)
    ∧ (∀ b, ¬ s.reaches sp n b → Memory.read t.mem b = Memory.read s.mem b)
    ∧ (poi = true ∨ new old = none → t.mem = s.mem)
    ∧ (∀ v j, poi = false → new old = some v → pg.comp = false → j < n →
      (∀ j, j < n → s.mirror col pg.tier (pg.base + addrOff a.toNat % pg.size + j) = none) →
      Memory.read t.mem (at_ j) = BitVec.ofNat 8 (v / 256 ^ j))
    ∧ if red then (t.col col).results = c.results
      else ∃ ws, (t.col col).results = c.results ++ [⟨c.nextRes, (c.slot k).lanes, ws, 0, .none⟩]
        ∧ c.Delivers (c.applyWrites ws) w.d (isWide w.ty) (w.ty == .i32) x.en (fun _ => old) (fun _ => poi)

/-- R379 to R383. -/
def Obligations.AtomicWords : Prop :=
  (∀ (s : State) (w : Full) (col k l : Nat) (pg : Page), s.Issues col k → s.Sound →
    let x := s.ctxFor col k w
    let c := s.col col
    let n := atomSize w
    let b := x.rb (isWide w.ty) l % 2 ^ (8 * n)
    let sw := x.rc (isWide w.ty) l % 2 ^ (8 * n)
    let own (red : Bool) : Prop := (if x.once red then lowLane x.en = l else lanesOf x.en = [l]) ∧ x.en ≠ 0
      ∧ (∀ m, m < 32 → x.en.getLsbD m = true → ownAddr col (x.targetA m) = true)
      ∧ x.checkAtomic x.targetA n = none ∧ x.own (x.targetA l) n .atomic = .page pg
      ∧ x.held true (atomOrd w) (laneBit l) = false ∧ x.performsLater (atomOrd w) (laneBit l) = false ∧ c.sendq = []
    (s.Clears col k w fmtAtom (fun x => x.ptsAtom false) →
      (x.en = 0 → s.Passes (.atom w) col k w.marker)
      ∧ (own false → OwnAtomic s (.atom w) col k l w pg false fun old => some (atomNew (xf w 3 0) w.ty old b)))
    ∧ (s.Clears col k w fmtAcas (fun x => x.ptsAtom true) →
      (x.en = 0 → s.Passes (.acas w) col k w.marker)
      ∧ (own false → OwnAtomic s (.acas w) col k l w pg false fun old => if old = b then some sw else none))
    ∧ (s.Clears col k w fmtRed (fun x => x.ptsAtom false) →
      (x.en = 0 → s.Passes (.red w) col k w.marker)
      ∧ (own true → OwnAtomic s (.red w) col k l w pg true fun old => some (atomNew (xf w 3 0) w.ty old b)))
    ∧ (x.en ≠ 0 → x.FarOk x.targetA n → x.held true (atomOrd w) 0 = false →
      (∀ kind cas red, s.canRequest col ((x.atomPackets kind cas (((if x.once red then [lowLane x.en] else lanesOf x.en).map fun l =>
        (⟨l, x.targetA l, n, BitVec.ofNat 64 (x.rb (isWide w.ty) l), BitVec.ofNat 64 (x.rc (isWide w.ty) l), false⟩ : LaneAcc)))).map
          fun p => creditKey p.dest.toNat) = true) →
      (s.Clears col k w fmtAtom (fun x => x.ptsAtom false) → ∃ t, exec (.atom w) s = .next t ∧ s.SomeRequests t col k false true)
      ∧ (s.Clears col k w fmtAcas (fun x => x.ptsAtom true) → ∃ t, exec (.acas w) s = .next t ∧ s.SomeRequests t col k false true)
      ∧ (s.Clears col k w fmtRed (fun x => x.ptsAtom false) → ∃ t, exec (.red w) s = .next t ∧ s.SomeRequests t col k false false)))
  ∧ (∀ (t : Ty) (old b : Nat), t ∈ [Ty.i32, .n32, .i64, .n64] →
    let w := elemBits t
    let sg := isSigned t
    Fits false w false (readInt w sg old + readInt w sg b) (atomNew 0 t old b)
    ∧ Fits false w false (min (readInt w sg old) (readInt w sg b)) (atomNew 1 t old b)
    ∧ Fits false w false (max (readInt w sg old) (readInt w sg b)) (atomNew 2 t old b))

/-- R386, R387, R391. -/
def Obligations.SemaphoresFencesElection : Prop :=
  ∀ (s : State) (w : Full) (col k : Nat), s.Issues col k →
    let x := s.ctxFor col k w
    let c := s.col col
    let l := lowLane x.en
    let a := x.targetA l
    let v := x.rb true l
    (s.Clears col k w fmtSemsg (fun x => [x.ptAddr x.w.a true x.targetA, x.pt (opB x.w) true 7]) →
      (x.en = 0 → s.Passes (.semsg w) col k w.marker)
      ∧ (∀ pg : Page, s.Sound → x.en ≠ 0 → ownAddr col a = true → x.checkAtomic x.targetA 8 = none → x.own a 8 .atomic = .page pg →
        s.ctxOf col < 16 → col < nCols → x.held true 2 x.en = false → x.performsLater 2 x.en = false → c.sendq = [] → s.accPois col pg a 8 = false →
        let at_ (j : Nat) : Nat := (s.place col pg.tier (pg.base + addrOff a.toNat % pg.size + j)).addr
        ∃ t, exec (.semsg w) s = .next t ∧ c.KeepsAll (t.col col) ∧ (t.col col).retired = (c.retired + 1) % 2 ^ 48
          ∧ (∀ b, ¬ s.reaches ⟨col, pg, false, addrOff a.toNat % pg.size⟩ 8 b → Memory.read t.mem b = Memory.read s.mem b)
          ∧ (pg.comp = false → (∀ j, j < 8 → s.mirror col pg.tier (pg.base + addrOff a.toNat % pg.size + j) = none) → ∀ j, j < 8 →
            Memory.read t.mem (at_ j)
              = BitVec.ofNat 8 ((if xb w 0 then v else (s.accVal col pg a 8 + v) % 2 ^ 64) / 256 ^ j)))
      ∧ (x.en ≠ 0 → x.FarOk x.targetA 8 → x.held true 2 0 = false → s.canRequest col [creditKey a.toNat] = true →
        ∃ t, exec (.semsg w) s = .next t ∧ s.Requests t col k 1 false false))
    ∧ (s.Clears col k w fmtFence noPts →
      let kind := xf w 4 3
      let open_ : Prop := ∃ r, r ∈ c.reqs ∧ r.lanes &&& x.en ≠ 0 ∧ (kind = 1 → r.write = false)
      (¬ open_ → s.Passes (.fence w) col k w.marker)
      ∧ (open_ → ∃ t, exec (.fence w) s = .next t ∧ s.Performed t col k w.marker
        ∧ ({ c with fences := c.fences ++ [(x.en, kind, s.nextTag)] } : Column).KeepsAll (t.col col)))
    ∧ (s.Clears col k w (fmtElect) noPts → s.Yields (.elect w) col k w true false
      (fun m => if isUni w.d then lowLane x.en else if m = lowLane x.en then 1 else 0) (fun _ => false) 0)

/-- R395 to R402. -/
def Obligations.QueueWords : Prop :=
  ∀ (s : State) (w : Full) (col k : Nat), s.Issues col k →
    let x := s.ctxFor col k w
    let c := s.col col
    let core := coreOf col
    (s.Clears col k w fmtQbind (fun x => [x.pt x.w.a true 10]) →
      (x.en = 0 → s.Passes (.qbind w) col k w.marker)
      ∧ (x.en ≠ 0 → x.bindReason (x.ra true 0) = none → ∃ t, exec (.qbind w) s = .next t ∧ s.Performed t col k w.marker
        ∧ ({ c with q := (t.col col).q, itemCur := (t.col col).itemCur } : Column).KeepsAll (t.col col)
        ∧ (t.col col).binding (numOf w.d) = (if immF w 2 0 = 7 then ⟨7, 0, 0⟩
            else ⟨immF w 2 0, immF w 10 8, if immF w 2 0 = 0 then BitVec.ofNat 64 (x.ra true 0) else 0⟩)
        ∧ tabGet (t.col col).itemCur (numOf w.d) = 0
        ∧ ∀ n, n ≠ numOf w.d → (t.col col).binding n = c.binding n ∧ tabGet (t.col col).itemCur n = tabGet c.itemCur n))
    ∧ (let b := c.binding (numOf w.d)
      s.Clears col k w (fmtQpush b) (fun x => x.ptsQpush b) →
      (x.en = 0 → s.Passes (.qpush w) col k w.marker)
      ∧ (x.en ≠ 0 → b.kind = 0 → isUni w.a = false → (∀ u, u ∈ c.unacked → u.1 ≠ numOf w.d) → ∃ t, exec (.qpush w) s = .next t
        ∧ t.mem = s.mem ∧ (t.col col).retired = (c.retired + 1) % 2 ^ 48
        ∧ ({ c with unacked := c.unacked ++ [(numOf w.d, x.en, s.nextTag)] } : Column).KeepsAll (t.col col)
        ∧ let p : Packet := {
            kind := 0x0E, dest := if isSelfAlias b.addr.toNat then mkAddr col 0 else b.addr, src := mkAddr col s.nextTag, vc := 3, npay := 2, slot := 0
            req := s.nextTag, hops := 0, ord := 0, scope := 0, stat := 0, ty := .b32, op := 0, cas := false, accs := [], mask := x.en
            words := lanes32.map fun l => if x.en.getLsbD l then c.rdV (numOf w.a) l else 0, parked := false, left := false, via := none, port := 0 }
          ∀ q, s.cannotLeave p = none → s.departs p = some q → t.net = s.net ++ [q])
      ∧ (∀ r : OutRun, x.en ≠ 0 → b.kind = 3 → s.outRun col b.stg = some r →
        let m : Nat := if isUni w.a then 1 else (lanesOf x.en).length
        (if isUni w.a then numOf w.a + 8 ≤ x.h.ns else numOf w.a + 16 ≤ x.h.nv) → r.pushed + m ≤ r.len → c.held x.en true false = false →
        (∀ keys, keys ≠ [] → keys.length ≤ 8 * m → s.canRequest col keys = true) → s.group c.group ≠ none →
        ∃ t, exec (.qpush w) s = .next t ∧ s.SomeRequests t col k true false
          ∧ ∃ q, t.outRun col b.stg = some q ∧ q.start = r.start ∧ q.len = r.len ∧ q.pushed = r.pushed + m)
      ∧ (x.en ≠ 0 → b.kind = 4 → isUni w.a = true → s.mintReason col x.h x.pushRec = none → s.windowLen core < 32 →
        ∃ t, exec (.qpush w) s = .next t ∧ t.mem = s.mem ∧ c.KeepsAll (t.col col)
          ∧ ∃ m, tabGet t.mintq core = tabGet s.mintq core ++ [m] ∧ m.isTask = true ∧ m.acc = x.pushRec.acc ∧ m.col = col))
    ∧ (let b := c.binding (numOf w.a)
      s.Clears col k w (fmtQpop b) noPts →
      (x.en = 0 → s.Passes (.qpop w) col k w.marker)
      ∧ (∀ m rest, x.en ≠ 0 → b.kind = 1 → isUni w.d = false → c.msgs = m :: rest → ∃ t ws, exec (.qpop w) s = .next t
        ∧ s.Performed t col k w.marker ∧ ({ c with msgs := rest } : Column).KeepsRegs (t.col col)
        ∧ (t.col col).results = c.results ++ [⟨c.nextRes, (c.slot k).lanes, ws, 0, .none⟩]
        ∧ c.Delivers (c.applyWrites ws) w.d false false x.en (fun l => (m.getD l 0).toNat) (fun _ => false))
      ∧ (∀ slot, x.en ≠ 0 → b.kind = 2 → isUni w.d = true → numOf w.d + 8 ≤ x.h.ns →
        (s.groupItems col)[tabGet c.itemCur (numOf w.a)]? = some slot → c.held x.en false false = false →
        (∀ key, s.canRequest col [key] = true) → ∃ t, exec (.qpop w) s = .next t ∧ t.mem = s.mem
          ∧ tabGet (t.col col).itemCur (numOf w.a) = tabGet c.itemCur (numOf w.a) + 1
          ∧ (t.col col).results.map (fun r => (r.id, r.lanes, r.await))
            = c.results.map (fun r => (r.id, r.lanes, r.await)) ++ [(c.nextRes, (c.slot k).lanes, .item s.nextTag)]
          ∧ c.Regs (t.col col) (fun _ _ => none) (fun _ => none) (fun _ _ => none))
      ∧ (∀ tag rest, x.en ≠ 0 → b.kind = 5 → isUni w.d = true → tabGet s.compq (compKey c.group core) = tag :: rest →
        tabGet s.mintq core = [] → ∃ t ws, exec (.qpop w) s = .next t ∧ t.mem = s.mem
          ∧ tabGet t.compq (compKey c.group core) = rest
          ∧ (t.col col).results = c.results ++ [⟨c.nextRes, (c.slot k).lanes, ws, 0, .none⟩]
          ∧ c.Delivers (c.applyWrites ws) w.d true false x.en (fun _ => tag.toNat) (fun _ => false)))
    ∧ (s.Clears col k w (fun _ _ => { d := fS, a := fQ }) noPts →
      let n := numOf w.a
      let b := c.binding n
      let items := (s.groupItems col).length
      let stat : Nat × Nat := match b.kind with
        | 0 => (if c.unacked.any (·.1 == n) then 1 else 0, 1)
        | 1 => (c.msgs.length, 16)
        | 2 => (items - tabGet c.itemCur n, items)
        | 3 => match s.outRun col b.stg with
          | some r => (r.len - r.pushed, r.len)
          | none => (0, 0)
        | 4 => (32 - s.windowLen core, 32)
        | 5 => ((tabGet s.compq (compKey c.group core)).length, 32)
        | _ => (0, 0)
      s.Yields (.qstat w) col k w true false
        (fun _ => stat.1 % 2 ^ 16 + 2 ^ 16 * (stat.2 % 2 ^ 16) + 2 ^ 32 * b.kind) (fun _ => false) 0)
    ∧ (s.Clears col k w fmtSubmit (fun x => (x.w.a :: sExtra x.w.a 8).map fun o => x.pt o true 7) →
      let ctx := s.tabs.curCtx
      let r := withCtx (BitVec.ofNat 512 (c.sGroup w.a 8)) ctx
      let code := s.submitCode true 0 (immN w) r
      (x.en = 0 → s.Passes (.submit w) col k w.marker)
      ∧ (x.en ≠ 0 → c.reqs = [] → ∃ t ws, exec (.submit w) s = .next t ∧ t.mem = s.mem ∧ c.KeepsRegs (t.col col)
        ∧ (t.col col).results = c.results ++ [⟨c.nextRes, (c.slot k).lanes, ws, 0, .none⟩]
        ∧ c.Delivers (c.applyWrites ws) w.d true false x.en (fun _ => code) (fun _ => false)
        ∧ (code ≠ 0 → t.sch = s.sch)
        ∧ (code = 0 → immN w < 64 → (t.lq ctx (immN w)).recs = (s.lq ctx (immN w)).recs ++ [r])))

/-- A word is performed, and what it did is the state s'. -/
def Sys2Proof.Machine.State.Does (s : State) (i : Instr) (col k : Nat) (marker : Bool) (s' : State) : Prop :=
  ∃ t, exec i s = .next t ∧ s'.Performed t col k marker ∧ (s'.col col).KeepsAll (t.col col)

/-- The machine with one more engine operation of a column, the latest in order. -/
def Sys2Proof.Machine.State.Starting (s : State) (col : Nat) (b : OpBody) : State :=
  { s with ops := tabSet s.ops s.nextOp (some ⟨s.seqNo, s.ctxOf col, false, b⟩), nextOp := s.nextOp + 1, seqNo := s.seqNo + 1 }

/-- A column's token register is pending for an operation (R141). -/
def Sys2Proof.Machine.State.Token (s : State) (col treg op : Nat) : State :=
  if treg = 0 then s else s.modCol col fun c => { c with tokens := c.tokens ++ [(treg, op)] }

/-- R406, R407, R408, R411. -/
def Obligations.TileWords : Prop :=
  ∀ (s : State) (w : Full) (col k : Nat), s.Issues col k →
    let x := s.ctxFor col k w
    let c := s.col col
    (s.Clears col k w fmtTdesc (fun x => (x.w.a :: sExtra x.w.a 4).map fun o => x.pt o true 10) →
      let d : TileDesc := c.rdS (numOf w.a + 3) ++ c.rdS (numOf w.a + 2) ++ c.rdS (numOf w.a + 1) ++ c.rdS (numOf w.a)
      (x.en = 0 → s.Passes (.tdesc w) col k w.marker)
      ∧ (x.en ≠ 0 → tdescOk d = true → tileInside d (s.region col (descWin d)).2 = true →
        s.Does (.tdesc w) col k w.marker (s.modCol col fun c => { c with t := tabSet c.t (numOf w.d) d })))
    ∧ (s.Clears col k w (fun _ _ => { d := fT }) noPts →
      let d := tabGet c.t (numOf w.d)
      (x.en = 0 → s.Passes (.tzero w) col k w.marker)
      ∧ (x.en ≠ 0 → descKind d = 1 ∨ descKind d = 2 ∨ descKind d = 3 →
        s.Does (.tzero w) col k w.marker (s.Starting col (.tzero col d))))
    ∧ ∀ store : Bool,
      let i : Instr := if store then .tstore w else .tfill w
      s.Clears col k w (fmtTile store) (fun x => x.ptsTile store) →
      let d := tabGet c.t (numOf w.a)
      let s24 := !store && xb w 1
      let rc := xb w 0
      let o : TileOp := {
        col := col, store := store, desc := d, rcpt := rc, s24 := s24, surf := c.rdS (numOf (opB w))
        metaA := if s24 then c.rdS (numOf (opB w) + 1) else 0, org := c.rdS (numOf (opC w)), d := c.rdS (numOf w.d)
        treg := if rc then 0 else numOf w.d, lanes := x.en, bound := s.nextTag }
      (x.en = 0 → s.Passes i col k w.marker)
      ∧ (x.en ≠ 0 → descKind d = 1 ∨ descKind d = 2 ∨ descKind d = 3 → (s24 = true → descKind d ≠ 3) →
        (rc = true → (c.rdS (numOf w.d)).toNat % 16 = 0) →
        s.Does i col k w.marker ((s.Starting col (.tile o)).Token col o.treg s.nextOp))

/-- A copy with the operands of one word. -/
def Sys2Proof.Machine.Joining (s : State) (x : Ctx) (multi rcpt : Bool) (srcK dstK : Nat) (cv : Bool) (a b : DWord) (sl : CopySlice) : CopyOp :=
  { core := coreOf x.col, group := (s.col x.col).group, n := tabGet (s.col x.col).joinCnt (if multi then 1 else 0), multi := multi, rcpt := rcpt
    srcK := srcK, dstK := dstK, cv := cv, a := a, b := b, slices := [sl], recA := 0, recB := 0, started := false, pos := 0, unacked := []
    landed := [], dst := 0, code := 0 }

/-- A word joins with the operands and the slice of o: as the first of its copy, or as one more. -/
def Sys2Proof.Machine.Joins (s : State) (i : Instr) (col k : Nat) (marker : Bool) (o : CopyOp) (sl : CopySlice) : Prop :=
  let kind := if o.multi then 1 else 0
  let joined (t : State) (id : Nat) : State := (t.modCol col fun c => { c with joinCnt := tabSet c.joinCnt kind (o.n + 1) }).Token col sl.treg id
  (s.findCopy o.core o.group o.multi o.n = none → s.Does i col k marker (joined (s.Starting col (.copy o)) s.nextOp))
    ∧ ∀ id sq cx su p, s.findCopy o.core o.group o.multi o.n = some (id, p) → tabGet s.ops id = some ⟨sq, cx, su, .copy p⟩ →
      (∃ q, q ∈ p.slices ∧ q.empty = false) → sl.empty = true ∨ p.sameAs o = true →
      s.Does i col k marker (joined { s with ops := tabSet s.ops id (some ⟨sq, cx, su, .copy { p with slices := p.slices ++ [sl] }⟩) } id)

/-- R368, R369, R373. -/
def Obligations.CopyWords : Prop :=
  ∀ (s : State) (w : Full) (col k : Nat), s.Issues col k →
    let x := s.ctxFor col k w
    let c := s.col col
    let d := c.rdS (numOf w.d)
    let a := c.rdS (numOf w.a)
    let b := c.rdS (numOf (opB w))
    let e := c.rdS (numOf (opC w))
    (s.Clears col k w fmtCopy (fun x => x.ptsCopy (xb w 0)) → (x.en ≠ 0 → xb w 0 = true → d.toNat % 16 = 0) →
      let sl : CopySlice := {
        col := col, first := e.toNat % 2 ^ 32, count := if x.en = 0 then 0 else e.toNat / 2 ^ 32, off := b.toNat, src := a, d := d
        treg := if xb w 0 then 0 else numOf w.d, empty := x.en == 0, lanes := x.sp.mask, bound := s.nextTag }
      Joins s (.copy w) col k w.marker (Joining s x false (xb w 0) (xf w 2 1) (xf w 4 3) (xb w 5) a b sl) sl)
    ∧ (s.Clears col k w fmtCopym (fun x => x.ptsCopy true) →
      (x.en ≠ 0 → targetCol (some col) a.toNat = some col ∧ addrAp a.toNat < 2 ∧ a.toNat % 32 = 0 ∧ d.toNat / 2 ^ 32 % 16 = 0) →
      let sl : CopySlice := {
        col := col, first := b.toNat % 2 ^ 24, count := if x.en = 0 then 0 else b.toNat / 2 ^ 24 % 2 ^ 24, off := 0, src := a, d := d
        treg := 0, empty := x.en == 0, lanes := x.sp.mask, bound := s.nextTag }
      Joins s (.copym w) col k w.marker (Joining s x true true 0 0 false d e sl) sl)

/-- R376, R377. -/
def Obligations.ExchangeWords : Prop :=
  ∀ (s : State) (w : Full) (col k : Nat), s.Issues col k →
    s.Clears col k w fmtXch (fun x => [x.pt x.w.a (isWide x.w.ty) 5, x.pt (opB x.w) false 5]) →
    let x := s.ctxFor col k w
    let c := s.col col
    let level := xf w 2 0
    let n := tabGet c.joinCnt (2 + level)
    let cols := s.xchCols col level
    let wide := isWide w.ty
    x.sp.mask ≠ 0 → c.live &&& ~~~x.sp.mask = 0 →
    (s.findXch c.group level n cols = none → ∃ t q, exec (.xch w) s = .next t ∧ s.RunEnds t col k ∧ t.mem = s.mem
      ∧ (t.col col).retired = c.retired ∧ c.Regs (t.col col) (fun _ _ => none) (fun _ => none) (fun _ _ => none)
      ∧ (c.demote = none → c.pool = [] → (∀ j, j < 4 → j ≠ k → (c.slot j).lanes = 0) →
        (t.col col).slot k = { c.slot k with cond := if c.outstanding (c.slot k).lanes = true then .parked else .waiting, runLen := 0, pend := [] })
      ∧ (∀ j, tabGet t.ops j = if j = s.nextOp then some ⟨s.seqNo, s.ctxOf col, false, .xch q⟩ else tabGet s.ops j)
      ∧ q.group = c.group ∧ q.level = level ∧ q.n = n ∧ q.parts = [] ∧ q.ents.map (·.col) = [col])
    ∧ ∀ id sq cx su o, s.findXch c.group level n cols = some (id, o) → tabGet s.ops id = some ⟨sq, cx, su, .xch o⟩ → o.parts = [] →
      (∀ d, d ∈ cols → ∃ e, e ∈ o.ents ∧ e.col = d) → col ∈ cols →
      (∀ e f, e ∈ o.ents → f ∈ o.ents → e.sameAs f = true) →
      (∀ e, e ∈ o.ents → e.col = col → e.level = level ∧ e.perm = xf w 4 3 ∧ e.lrot = xb w 5 ∧ e.m = xf w 10 6 ∧ e.wide = wide ∧ e.k = x.rb false 0) →
      let m := xf w 10 6
      let rank := cols.findIdx (· == col)
      let p : Nat := match xf w 4 3 with
        | 0 => (rank + x.rb false 0) % cols.length
        | 1 => rank ^^^ x.rb false 0
        | 2 => cols.length - 1 - rank
        | _ => x.rb false 0
      let from_ (l : Nat) : Nat := if xb w 5 then (l + m) % 32 else l ^^^ m
      let src (l : Nat) : Option XchEnt := if p < cols.length then
          (o.ents.find? fun e => e.col == cols.getD p 0).bind fun e => if e.en.getLsbD (from_ l) then some e else none
        else none
      let fv (v l : Nat) : Option (Word × Bool) := match src l with
        | none => none
        | some e => if x.en.getLsbD l = false then none
          else if v = numOf w.d then some (e.vals.getD (2 * from_ l) (0, false))
          else if wide = true ∧ v = numOf w.d + 1 then some (e.vals.getD (2 * from_ l + 1) (0, false)) else none
      let fp (v l : Nat) : Option (Bool × Bool) :=
        if v = numOf (opC w) ∧ v ≠ 0 ∧ x.en.getLsbD l = true then some ((src l).isSome, false) else none
      ∃ t, exec (.xch w) s = .next t ∧ t.mem = s.mem ∧ (t.col col).retired = (c.retired + 1) % 2 ^ 48
        ∧ c.Regs (t.col col) (fun _ _ => none) (fun _ => none) (fun _ _ => none)
        ∧ tabGet (t.col col).joinCnt (2 + level) = n + 1
        ∧ (∀ j, j ≠ id → tabGet t.ops j = tabGet s.ops j)
        ∧ (x.en ≠ 0 →
          ∃ ws, (t.col col).results = c.results ++ [⟨c.nextRes, (c.slot k).lanes, ws, 0, .none⟩]
            ∧ c.Regs (c.applyWrites ws) fv (fun _ => none) fp)

/-- An operation of a column at its core's mint queue port. -/
def Sys2Proof.Machine.State.AtPort (s : State) (col acc : Nat) (act : MintAct) : MintOp :=
  { id := s.seqNo, seq := s.seqNo, group := (s.col col).group, col := col, acc := acc, act := act }

/-- The machine with one more operation at its core's mint queue port, the latest in order. -/
def Sys2Proof.Machine.State.Granting (s : State) (m : MintOp) : State :=
  { s with mintq := tabMod s.mintq (coreOf m.col) (· ++ [m]), seqNo := s.seqNo + 1 }

/-- A word waits at the port: nothing is ready, and an earlier operation on the accumulator has not completed. Its result awaits it. -/
def Sys2Proof.Machine.WaitsAtPort (s : State) (i : Instr) (col k acc : Nat) (marker : Bool) (act : MintAct) : Prop :=
  (∃ m, m ∈ tabGet s.mintq (coreOf col) ∧ m.seq < s.seqNo ∧ m.done = false ∧ m.group = (s.col col).group ∧ m.acc = acc) →
  (∀ m, m ∈ tabGet s.mintq (coreOf col) → m.isTask = false → s.mintReady (coreOf col) m = false) →
  ∃ t, exec i s = .next t ∧ (s.Granting (s.AtPort col acc act)).Performed t col k marker ∧ (s.col col).KeepsRegs (t.col col)
    ∧ (t.col col).results = (s.col col).results ++ [⟨(s.col col).nextRes, ((s.col col).slot k).lanes, [], 0, .mint s.seqNo⟩]

/-- A word is carried out at the port at once, with its effect in s' but for its result. -/
def Sys2Proof.Machine.GoesAtOnce (s : State) (i : Instr) (col k : Nat) (marker : Bool) (s' : State) (ok : List RWrite → Prop) : Prop :=
  tabGet s.mintq (coreOf col) = [] → (∀ r, r ∈ (s.col col).results → r.await ≠ .mint s.seqNo) →
  ∃ t ws fl, exec i s = .next t ∧ ({ s' with mintq := t.mintq, seqNo := s.seqNo + 1 } : State).Performed t col k marker
    ∧ (s.col col).KeepsRegs (t.col col) ∧ (∀ j, tabGet t.mintq j = tabGet s.mintq j)
    ∧ (t.col col).results = (s.col col).results ++ [⟨(s.col col).nextRes, ((s.col col).slot k).lanes, ws, fl, .none⟩] ∧ ok ws

/-- R414 to R422. -/
def Obligations.MintWords : Prop :=
  ∀ (s : State) (w : Full) (col k : Nat), s.Issues col k →
    let x := s.ctxFor col k w
    let c := s.col col
    let core := coreOf col
    (s.Clears col k w fmtMma (fun x => [x.pt (opC x.w) true 9]) →
      let sc := x.rc true 0
      let a := tabGet c.t (numOf w.a)
      let f := sc / 2 ^ 11 % 2 ^ 16
      (x.en = 0 → s.Passes (.mma w) col k w.marker)
      ∧ (x.en ≠ 0 → s.mintReason col (s.hdr col) x.mmaRec = none → s.windowLen core < 32 →
        s.Does (.mma w) col k w.marker (s.Granting { s.AtPort col (numOf w.d)
          (.task (xf w 1 0) (xf w 6 2) (if sc % 2 ^ 11 = 0 then descKs a else sc % 2 ^ 11)
            (if f = 0 then 0 else ((s.region col (xb w 9)).1 + 16 * f) / 16) (sc / 2 ^ 27 % 16) a (tabGet c.t (numOf (opB w)))
            (BitVec.ofNat 64 (sc / 2 ^ 32)) (xb w 8) false false) with
              lanes := x.en, bound := s.nextTag, aReg := numOf w.a, bReg := numOf (opB w) })))
    ∧ (s.Clears col k w (fun _ _ => { d := fA }) noPts →
      (x.en = 0 → s.Passes (.aclr w) col k w.marker)
      ∧ (x.en ≠ 0 → s.windowLen core < 32 →
        s.Does (.aclr w) col k w.marker (s.Granting { s.AtPort col (numOf w.d) (.task 2 0 0 0 0 0 0 0 true false false) with
          lanes := x.en, bound := s.nextTag })))
    ∧ (s.Clears col k w fmtAdrain noPts →
      let act : MintAct := .drain (xf w 4 0) w.ty (xb w 5) (xb w 6) (numOf w.d) (numOf (opB w)) x.en
      let el (l j : Nat) : Word × Bool := s.accGet c.group core (numOf w.a) (xf w 4 0 + j) l
      (x.en = 0 → s.Passes (.adrain w) col k w.marker)
      ∧ (x.en ≠ 0 → WaitsAtPort s (.adrain w) col k (numOf w.a) w.marker act
        ∧ (xb w 5 = false → GoesAtOnce s (.adrain w) col k w.marker s fun ws => ∃ val,
          c.Delivers (c.applyWrites ws) w.d false false x.en val (fun l => (List.range (elemCount w.ty)).any fun j => (el l j).2)
          ∧ ∀ l j, x.en.getLsbD l = true → j < elemCount w.ty → elemAt (elemBits w.ty) (val l) j
            = if w.ty = .f32 ∨ w.ty = .i32 then (el l j).1.toNat
              else (fcvtOne .f32 (fmtOf w.ty) (xb w 6) (el l j).1.toNat).1 % 2 ^ elemBits w.ty)))
    ∧ (s.Clears col k w fmtAspill (fun x => [x.ptAddr x.w.a true fun _ => x.spillOff]) →
      let off := x.spillOff.toNat
      let r := s.region col (xb w 0)
      (x.en = 0 → s.Passes (.aspill w) col k w.marker ∧ s.Passes (.aload w) col k w.marker)
      ∧ (x.en ≠ 0 → off % 128 = 0 → off + 4096 ≤ r.2 → s.zeroing col [(r.1 + off, 4096)] = false →
        WaitsAtPort s (.aspill w) col k (numOf w.d) w.marker (.spill (r.1 + off))
        ∧ WaitsAtPort s (.aload w) col k (numOf w.d) w.marker (.load (r.1 + off))
        ∧ (∃ s' : State, GoesAtOnce s (.aspill w) col k w.marker s' (· = [])
          ∧ s' = { s with spad := s'.spad, spadP := s'.spadP }
          ∧ (∀ i n, i < 32 → n < 32 →
            s'.spadGet core (r.1 + off + 128 * i + 4 * n) = s.accGet c.group core (numOf w.d) i n)
          ∧ ∀ key, (∀ i n, i < 32 → n < 32 → key ≠ spadKey core (r.1 + off + 128 * i + 4 * n)) →
            tabGet s'.spad key = tabGet s.spad key ∧ tabGet s'.spadP key = tabGet s.spadP key)
        ∧ (s.spadUp = [] → ∃ s' : State, GoesAtOnce s (.aload w) col k w.marker s' (· = [])
          ∧ s' = { s with acc := s'.acc, accP := s'.accP }
          ∧ (∀ i n, i < 32 → n < 32 →
            s'.accGet c.group core (numOf w.d) i n = s.spadGet core (r.1 + off + 128 * i + 4 * n))
          ∧ ∀ key, (∀ i n, i < 32 → n < 32 → key ≠ accKey c.group core (numOf w.d) i n) →
            tabGet s'.acc key = tabGet s.acc key ∧ tabGet s'.accP key = tabGet s.accP key)))
    ∧ (s.Clears col k w fmtMwait noPts →
      let acc := if xb w 0 then 8 else numOf w.d
      (x.en = 0 → s.Passes (.mwait w) col k w.marker)
      ∧ (x.en ≠ 0 → GoesAtOnce s (.mwait w) col k w.marker s (· = [])
        ∧ (xb w 0 = false → WaitsAtPort s (.mwait w) col k acc w.marker (.wait false))))

/-- A handle of a column holds a status word. -/
def Sys2Proof.Machine.State.Handle (s : State) (col h : Nat) (v : DWord) : State := { s with handles := tabSet s.handles (16 * col + h) v }

/-- A word of a collective makes its operation, or joins it. -/
def Sys2Proof.Machine.JoinsClct (s : State) (i : Instr) (col k h : Nat) (marker : Bool) (s1 : State) (pick : ClctOp → Bool) (new : ClctOp) (m : ClctMem) : Prop :=
  (s.findClct (s.ctxOf col) pick = none → s.Does i col k marker ((s1.Handle col h 1).Starting col (.clct { new with mems := [m] })))
    ∧ ∀ id sq cx su o, s.findClct (s.ctxOf col) pick = some (id, o) → tabGet s.ops id = some ⟨sq, cx, su, .clct o⟩ →
      s.Does i col k marker { s1.Handle col h 1 with ops := tabSet s.ops id (some ⟨sq, cx, su, .clct { o with mems := o.mems ++ [m] }⟩) }

/-- R425 to R437. -/
def Obligations.CollectiveWords : Prop :=
  ∀ (s : State) (w : Full) (col k : Nat), s.Issues col k →
    let x := s.ctxFor col k w
    let c := s.col col
    let ctx := s.ctxOf col
    let h := xf w 6 3
    let free (n : Nat) : Prop := (tabGet s.handles (16 * col + n)).toNat % 8 = 0
    let size := elemSize w.ty
    (s.Clears col k w fmtClctP2p Ctx.ptsP2p → free h →
      let own (l : Nat) : Nat := x.rdd true l
      (x.en = 0 → s.Does (.clctP2p w) col k w.marker (s.Handle col h 2))
      ∧ (x.en ≠ 0 →
        (∀ l, l < 32 → x.en.getLsbD l = true → ownAddr col (BitVec.ofNat 64 (own l)) = true ∧ addrAp (own l) < 2 ∧ own l % size = 0
          ∧ x.ra false l < nGlobal ∧ x.rb true l < 2 ^ 36 ∧ addrAp (x.rb true l) < 2 ∧ x.rb true l % size = 0) →
        s.Does (.clctP2p w) col k w.marker ((s.Handle col h 1).Starting col (.p2p {
          col := col, handle := h, kind := xf w 2 0, ty := w.ty, bound := s.nextTag
          lanes := (lanesOf x.en).map fun l => (l, own l % 2 ^ 36, x.ra false l, x.rb true l) }))))
    ∧ (s.Clears col k w fmtClctGroup Ctx.ptsGroup →
      let ms := (lanesOf x.en).map fun l => x.ra false l
      let key := ctx * nCols + col
      let n := s.clctCount key ms
      let counted : State := { s with clctCnt := (s.clctCnt.filter fun e => !(e.1 == key && e.2.1 == ms)) ++ [(key, ms, n + 1)] }
      let m : ClctMem := {
        col := col, handle := h, kind := xf w 2 0, rop := xf w 9 7, ty := w.ty, src := x.rdd true 0 % 2 ^ 36, dst := x.rb true 0 % 2 ^ 36
        count := x.rc true 0 % 2 ^ 32, root := x.rc true 0 / 2 ^ 32 % 2 ^ 16, lanes := x.en, bound := s.nextTag }
      (x.en = 0 → s.Passes (.clctGroup w) col k w.marker)
      ∧ (x.en ≠ 0 → free h → x.groupCheck ms = none →
        JoinsClct s (.clctGroup w) col k h w.marker counted (fun o => o.tag.isNone && o.members == ms && o.n == n) ⟨ms, n, none, []⟩ m))
    ∧ (s.Clears col k w fmtClctRec (fun x => [x.pt (opC x.w) true 8]) →
      let tag := some (ctx, BitVec.ofNat 32 (x.rc true 0))
      let m : ClctMem := { (default : ClctMem) with col := col, handle := h, lanes := x.en, bound := s.nextTag }
      (x.en = 0 → s.Passes (.clctRec w) col k w.marker)
      ∧ (x.en ≠ 0 → free h → x.rc true 0 < 2 ^ 32 →
        (∀ id o, tabGet s.ops id = some o → ∀ q, o.body = .clct q → q.tag = tag → ∀ p, p ∈ q.mems → p.col ≠ col) → tabWf s.ops = true →
        JoinsClct s (.clctRec w) col k h w.marker s (fun o => o.tag == tag && o.n == 0) ⟨[], 0, tag, []⟩ m))
    ∧ (s.Clears col k w fmtRepart (fun x => [x.ptAddr x.w.a true x.targetA]) →
      let hr := xf w 3 0
      let a := x.targetA 0
      let addr := if isSelfAlias a.toNat then BitVec.ofNat 64 (Config.package.toNat * 2 ^ 52 + col * 2 ^ 36 + a.toNat % 2 ^ 36) else a
      let l := tabGet s.repAddrs (ctx * nCols + col)
      (x.en = 0 → s.Passes (.repart w) col k w.marker)
      ∧ (x.en ≠ 0 → free hr → addrAp a.toNat < 2 → (isSelfAlias a.toNat = true ∨ addrCol a.toNat < nCols) → a.toNat % 64 = 0 →
        s.Does (.repart w) col k w.marker (({ s.Handle col hr 1 with repAddrs := tabSet s.repAddrs (ctx * nCols + col) (l ++ [addr]) } : State).Starting
          col (.rep { (default : RepOp) with
            addr := addr, n := l.length, mems := [{ (default : RepMem) with col := col, handle := hr, lanes := x.en, bound := s.nextTag }] }))))
    ∧ (s.Clears col k w fmtCstat noPts →
      let hc := immF w 3 0
      let v := tabGet s.handles (16 * col + hc)
      let st := v.toNat % 8
      let s' := if xb w 0 = true ∧ 2 ≤ st ∧ st ≤ 4 then s.Handle col hc 0 else s
      (x.en = 0 → s.Passes (.cstat w) col k w.marker)
      ∧ (x.en ≠ 0 → ∃ t ws, exec (.cstat w) s = .next t ∧ s'.Performed t col k w.marker ∧ c.KeepsRegs (t.col col)
        ∧ (t.col col).results = c.results ++ [⟨c.nextRes, (c.slot k).lanes, ws, 0, .none⟩]
        ∧ c.Delivers (c.applyWrites ws) w.d true false x.en (fun _ => v.toNat) (fun _ => false)))

/-- R434. -/
def Obligations.CurveKeys : Prop :=
  (∀ (s : State) (w : Full) (col k : Nat), s.Issues col k →
    s.Clears col k w fmtSfckey (fun x => [x.pt x.w.a false 8, x.pt (opB x.w) false 8] ++ if xb w 0 then [] else [x.pt (opC x.w) false 8]) →
    let x := s.ctxFor col k w
    s.Yields (.sfckey w) col k w true false (fun l => curveKey (xb w 0) (x.ra false l) (x.rb false l) (x.rc false l)) (fun _ => false) 0)
  ∧ (∀ x y z : Nat, curveKey false x y z < 2 ^ 63
    ∧ ∀ i, i < 21 → (curveKey false x y z).testBit (3 * i) = x.testBit i ∧ (curveKey false x y z).testBit (3 * i + 1) = y.testBit i
      ∧ (curveKey false x y z).testBit (3 * i + 2) = z.testBit i)
  ∧ ∀ x y z x' y' z' : Nat, curveKey true x y z < 2 ^ 62
    ∧ (x < 2 ^ 31 → y < 2 ^ 31 → x' < 2 ^ 31 → y' < 2 ^ 31 → curveKey true x y z = curveKey true x' y' z' → x = x' ∧ y = y')

/-- What an element of a copy between local places writes at the next of its copies; none where its read fails. -/
def Sys2Proof.Machine.State.copyWrite (s : State) (ctx : Nat) (o : CopyOp) (x : CopySlice × Nat) : Option (ELoc × List Byte × Bool) :=
  match s.eRead ctx (s.copySrcLoc o x.1 x.2) o.srcSize with
  | (t, .ok (bs, q)) => if t = s then some (s.copyDst o x.1 x.2, o.convert bs, q) else none
  | _ => none

/-- R359, R369 to R372. -/
def Obligations.CopyEvents : Prop :=
  (∀ (s : State) (op sq ctx : Nat) (o : CopyOp), tabGet s.ops op = some ⟨sq, ctx, false, .copy o⟩ → s.copyJoined o = true → o.started = false →
    o.total = 0 → (∀ sl, sl ∈ o.slices → s.forkDone sl.col sl.lanes sl.bound = true) →
    ∃ t, exec (.tellerData (.own op)) s = .next t ∧ t = { s with ops := t.ops }
      ∧ tabGet t.ops op = some ⟨sq, ctx, false, .copy { o with started := true, pos := 0 }⟩)
  ∧ (∀ (s : State) (op sq ctx el : Nat) (sl : CopySlice) (o : CopyOp), s.Sound → tabGet s.ops op = some ⟨sq, ctx, false, .copy o⟩ →
    s.copyJoined o = true → o.started = true → o.multi = false → copyAt o.slices o.pos = some (sl, el) →
    let dst := s.copyDst o sl el
    let key := dst.credit sl.col
    let es := s.packetElems o dst.block o.pos 256
    s.creditsFree o.core key.toList = true → (∀ k, key = some k → k / 768 = Config.package.toNat → s.pw.runs (k % 768) = true) →
    (∀ x, x ∈ es → ∃ w, s.copyWrite ctx o x = some w ∧ s.eCheck ctx w.1 o.dstSize .write = .ok ()) →
    0 < es.length ∧ es.length ≤ 256 ∧ (∀ x, x ∈ es → (s.copyDst o x.1 x.2).block = dst.block)
    ∧ ∃ t q, exec (.tellerData (.own op)) s = .next t ∧ tabGet t.ops op = some ⟨sq, ctx, false, .copy q⟩
      ∧ (q.slices, q.code) = (o.slices, o.code)
      ∧ (q.pos, q.dst) = (if o.dst + 1 < o.copies then (o.pos, o.dst + 1) else (o.pos + es.length, 0))
      ∧ (key = none → q.unacked = o.unacked)
      ∧ (∀ k, key = some k → q.unacked = o.unacked ++ [(s.nextTag, k, s.freeCredit (8 * o.core) k)])
      ∧ t.mem = (s.eWriteAll ctx (es.filterMap (s.copyWrite ctx o))).mem)
  ∧ (∀ (s : State) (p : Packet) (pg : Page), s.Served p 0x06 .write pg → pktOurs p = false → ∃ t, exec (.tellerData (.packet p)) s = .next t
    ∧ t = ((s.take p).writeSpans (p.accs.map fun a => (pktSpan p pg a, bytesOf a.size a.data.toNat, a.pois))).send (replyTo p 0 []))
  ∧ (∀ (s : State) (p : Packet), s.Comes p 0x07 →
    (s.unackedBy p.req = none → exec (.tellerAcknowledgement p) s = .next (s.landed p))
    ∧ ∀ op e o, s.unackedBy p.req = some (op, e, o) → ∃ t, exec (.tellerAcknowledgement p) s = .next t ∧ t.mem = s.mem
      ∧ ∀ j, tabGet t.ops j = if j = op then some { e with body := .copy { o with unacked := o.unacked.filter fun u => u.1 != p.req } }
          else tabGet s.ops j)
  ∧ (∀ (s : State) (op sq ctx : Nat) (o : CopyOp), tabGet s.ops op = some ⟨sq, ctx, false, .copy o⟩ → o.started = true → o.pos = o.total →
    o.unacked = [] → (o.multi = true → o.total ≠ 0) →
    ∃ t, exec (.copyCompletion op) s = .next t ∧ t = { s with ops := t.ops, cols := t.cols }
      ∧ (∀ j, tabGet t.ops j = if j = op then none else tabGet s.ops j)
      ∧ ∀ sl, sl ∈ o.slices → sl.treg ≠ 0 → (tabGet s.cols sl.col).isSome = true →
        (t.col sl.col).rdS sl.treg = BitVec.ofNat 64 (if o.code ≠ 0 then 2 ^ 63 + o.code
          else o.total * o.dstSize * (if o.dstK = 0 ∧ o.dstSurf.dist = 3 then o.dstSurf.ncol else 1))
        ∧ (t.col sl.col).rdSp sl.treg = false ∧ (sl.treg, op) ∉ (t.col sl.col).tokens)

/-- A plain tile of 4-byte words in the token form, whose records are read and in order, and whose packets find their credits. -/
def Sys2Proof.Machine.State.PlainTile (s : State) (op sq ctx : Nat) (o : TileOp) (r : Rec64) : Prop :=
  tabGet s.ops op = some ⟨sq, ctx, false, .tile o⟩ ∧ s.Sound ∧ s.spadUp = [] ∧ s.forkDone o.col o.lanes o.bound = true ∧ o.s24 = false ∧ o.rcpt = false
    ∧ tdescOk o.desc = true ∧ descKind o.desc = 3 ∧ s.readSurf ctx o.col o.surf.toNat = (s, .ok r) ∧ (surfOf r).size = 4
    ∧ s.tileCode o (surfOf r) = 0 ∧ (tabGet s.cols o.col).isSome = true ∧ o.treg < 64
    ∧ s.canReach (coreOf o.col) (s.tileKeys ctx o) = true

/-- A token holds some bytes. -/
def Sys2Proof.Machine.State.TokenIs (t : State) (o : TileOp) (bytes : Nat) : Prop := o.treg ≠ 0 → (t.col o.col).rdS o.treg = BitVec.ofNat 64 bytes

/-- R407 to R413, R224, R226. -/
def Obligations.TileEvents : Prop :=
  (∀ (s : State) (op sq ctx col : Nat) (su : Bool) (d : TileDesc), tabGet s.ops op = some ⟨sq, ctx, su, .tzero col d⟩ → tdescOk d = true →
    s.tasksRead (coreOf col) sq (s.tileSpans col d) = false →
    let hit (b : Nat) : Prop := ∃ r, r ∈ s.tileSpans col d ∧ r.1 ≤ b ∧ b < r.1 + r.2
    ∃ t, exec (.tzeroCompletion op) s = .next t ∧ t = { s with spad := t.spad, spadP := t.spadP, ops := t.ops }
      ∧ (∀ j, tabGet t.ops j = if j = op then none else tabGet s.ops j)
      ∧ (∀ b, hit b → t.spadGet (coreOf col) b = (0, false))
      ∧ ∀ key, (∀ b, hit b → key ≠ spadKey (coreOf col) b) → tabGet t.spad key = tabGet s.spad key ∧ tabGet t.spadP key = tabGet s.spadP key)
  ∧ (∀ (s : State) (op sq ctx : Nat) (o : TileOp) (r : Rec64), s.PlainTile op sq ctx o r → o.store = false →
    s.tasksRead (coreOf o.col) sq (s.tileSpans o.col o.desc) = false →
    let d := o.desc
    let f := surfOf r
    let x (j : Nat) : Nat := o.k0 / elemCount (tyOfCode f.ty) + j
    let loc (i j : Nat) : ELoc := .mem (f.readAt o.col [x j, o.row0 + i, 0, 0]).1 (f.readAt o.col [x j, o.row0 + i, 0, 0]).2
    let at_ (i j : Nat) : Nat := (s.region o.col (descWin d)).1 + (descBase d + descStride d * i + 4 * j)
    (∀ i j, i < descRows d → j < descKs d → f.within (x j) (o.row0 + i) = true → ∃ v, s.eRead ctx (loc i j) 4 = (s, .ok v)) →
    ∃ t, exec (.tfillCompletion op) s = .next t ∧ t = { s with spad := t.spad, spadP := t.spadP, ops := t.ops, cols := t.cols }
      ∧ (∀ j, tabGet t.ops j = if j = op then none else tabGet s.ops j) ∧ t.TokenIs o (4 * descKs d * descRows d)
      ∧ (∀ i j, i < descRows d → j < descKs d →
        (f.within (x j) (o.row0 + i) = false → t.spadGet (coreOf o.col) (at_ i j) = (0, false))
        ∧ ∀ bs q, f.within (x j) (o.row0 + i) = true → s.eRead ctx (loc i j) 4 = (s, .ok (bs, q)) →
          t.spadGet (coreOf o.col) (at_ i j) = (BitVec.ofNat 32 (natOf bs), q))
      ∧ ∀ key, (∀ i j, i < descRows d → j < descKs d → key ≠ spadKey (coreOf o.col) (at_ i j)) →
        tabGet t.spad key = tabGet s.spad key ∧ tabGet t.spadP key = tabGet s.spadP key)
  ∧ (∀ (s : State) (op sq ctx : Nat) (o : TileOp) (r : Rec64), s.PlainTile op sq ctx o r → o.store = true →
    let d := o.desc
    let f := surfOf r
    let x0 := o.k0 / elemCount (tyOfCode f.ty)
    let src (x : Nat × Nat) : List Byte × Bool := s.eSpadRead (coreOf o.col)
      ((s.region o.col (descWin d)).1 + descBase d + descStride d * (x.2 - o.row0) + 4 * (x.1 - x0)) 4
    let ws : List (ELoc × List Byte × Bool) :=
      ((grid x0 (x0 + descKs d - 1) o.row0 (descRows d)).filter fun x => f.within x.1 x.2).flatMap fun x =>
        (f.writeAt [x.1, x.2, 0, 0]).map fun p => (ELoc.mem p.1 p.2, src x)
    (∀ w, w ∈ ws → s.eCheck ctx w.1 4 .write = .ok ()) →
    ∃ t, exec (.tstoreCompletion op) s = .next t ∧ t.spad = s.spad ∧ t.mem = (s.eWriteAll ctx ws).mem
      ∧ (∀ j, tabGet t.ops j = if j = op then none else tabGet s.ops j) ∧ t.TokenIs o (4 * ws.length))
  ∧ ∀ (p : Nat) (xs : List XR) (q : Bool), 2 ≤ p → p ≤ 16 →
    let g := alignA p xs q
    g.pois = q ∧ g.m.length = xs.length
    ∧ ((∃ x, x ∈ xs ∧ XR.toRat x = none) → g.special = true ∧ g.e = -128 ∧ ∀ m, m ∈ g.m → m = 0)
    ∧ ((∀ x, x ∈ xs → ∃ neg n d, x = .num neg n d ∧ 0 < d) → g.special = false
      ∧ ((∀ x, x ∈ xs → XR.toRat x = some 0) → g.e = -127 ∧ ∀ m, m ∈ g.m → m = 0)
      ∧ ∀ t : Int, (∀ x r, x ∈ xs → XR.toRat x = some r → |r| < (2 : ℚ) ^ (t + 1)) → (∃ x r, x ∈ xs ∧ XR.toRat x = some r ∧ (2 : ℚ) ^ t ≤ |r|) →
        g.e = max (-127) (min 127 (t + 1))
        ∧ ∀ j r, j < xs.length → XR.toRat (xs.getD j .nan) = some r →
          |g.m.getD j 0| ≤ 2 ^ (p - 1) - 1 ∧ (t + 1 ≤ 127 → |(g.m.getD j 0 : ℚ) - r * (2 : ℚ) ^ ((p : Int) - 1 - g.e)| ≤ 1))

/-- R417 to R419, R227, R228. -/
def Obligations.MintEvents : Prop :=
  (∀ (s : State) (core op povr ks wrec wph : Nat) (a b : TileDesc) (tag : DWord) (nq : Bool) (m : MintOp),
    (tabGet s.mintq core).find? (·.id == m.id) = some m → m.act = .task op povr ks wrec wph a b tag nq false false →
    s.mintReady core m = true → s.fillsDone core m.seq (if op < 2 then s.tileSpans m.col a ++ s.tileSpans m.col b else []) = true →
    s.mintsBusy core < 2 → s.forkDone m.col m.lanes m.bound = true → s.hasTurn m.col = true →
    (if m.tested then m.passed = true else wrec = 0 ∨ (s.rcptGet core (16 * wrec)).1.phase = wph) →
    ∃ t, exec (.mintTaskStart core m.id) s = .next t ∧ t = { s with mintq := t.mintq }
      ∧ tabGet t.mintq core = (tabGet s.mintq core).map (fun e =>
        if e.id = m.id then { m with act := .task op povr ks wrec wph a b tag nq true false, tested := true, passed := true } else e)
      ∧ ∀ c, c ≠ core → tabGet t.mintq c = tabGet s.mintq c)
  ∧ (∀ (s : State) (core : Nat) (m : MintOp), s.taskClear core m = true → m.tested = false → ∀ op povr ks wrec wph a b tag nq fin,
    m.act = .task op povr ks wrec wph a b tag nq false fin →
    s.testTask core m = { m with tested := true, passed := wrec == 0 || (s.rcptGet core (16 * wrec)).1.phase == wph })
  ∧ (∀ (s : State) (core op povr ks wrec wph : Nat) (a b : TileDesc) (tag : DWord) (nq : Bool) (m : MintOp),
    (tabGet s.mintq core).find? (·.id == m.id) = some m → m.act = .task op povr ks wrec wph a b tag nq true false →
    (∀ e, e ∈ tabGet s.mintq core → e.isTask = true ∧ e.done = false ∧ ((s.core core).det = true → m.seq ≤ e.seq)) →
    s.spadUp = [] → (nq = false → (tabGet s.compq (compKey m.group core)).length < 32) →
    ∃ t, exec (.mintTaskCompletion core m.id) s = .next t ∧ t = { s with acc := t.acc, accP := t.accP, mintq := t.mintq, compq := t.compq }
      ∧ (∀ i n, i < 32 → n < 32 → t.accGet m.group core m.acc i n = s.mintElem core m op povr ks a b i n)
      ∧ (∀ key, (∀ i n, i < 32 → n < 32 → key ≠ accKey m.group core m.acc i n) →
        tabGet t.acc key = tabGet s.acc key ∧ tabGet t.accP key = tabGet s.accP key)
      ∧ tabGet t.mintq core = (tabGet s.mintq core).filter (fun e => e.id != m.id)
      ∧ ∀ key, tabGet t.compq key = tabGet s.compq key ++ (if key = compKey m.group core ∧ nq = false then [tag] else []))
  ∧ (∀ (s : State) (core : Nat) (m : MintOp) (op povr ks : Nat) (da db : TileDesc) (i n : Nat),
    let p := if povr = 0 then descP da else povr
    let A (sl : Nat) : Group8 := s.aSlab core (s.region m.col (descWin da)).1 da (intTile (descTy da) && intTile (descTy db)) p i sl
    let B (sl : Nat) : Bool × List Int × XR × Bool := s.bSlab core (s.region m.col (descWin db)).1 db n sl
    let old : Word × Bool := if op = 1 then (0, false) else s.accGet m.group core m.acc i n
    let new := s.mintElem core m op povr ks da db i n
    (op = 2 → new = (0, false))
    ∧ (op ≠ 2 → (new.2 = true ↔ old.2 = true ∨ ∃ sl, sl < ks ∧ ((A sl).pois = true ∨ (B sl).2.2.2 = true)))
    ∧ (op ≠ 2 → intTile (descTy da) = true → intTile (descTy db) = true →
      (new.1.toNat : Int) % 2 ^ 32 = ((old.1.toNat : Int) + ((List.range ks).map fun sl =>
        ((List.range 8).map fun b => (A sl).m.getD b 0 * (B sl).2.1.getD b 0).sum).sum) % 2 ^ 32))

/-- An operation of a column has ended: it is gone, and no result awaits it. -/
def Sys2Proof.Machine.State.OpEnds (s t : State) (op col : Nat) : Prop :=
  (∀ j, tabGet t.ops j = if j = op then none else tabGet s.ops j) ∧ (∀ c, c ≠ col → tabGet t.cols c = tabGet s.cols c)
    ∧ ((tabGet s.cols col).isSome = true →
      tabGet t.cols col = some { s.col col with
        results := (s.col col).results.map fun r => if r.await = .op op then { r with await := .none } else r })

/-- R189, R190, R361, R365 to R367. -/
def Obligations.PageAndFaultEvents : Prop :=
  (∀ (s : State) (op sq ctx o : Nat) (su : Bool) (q : PageOp) (p : Page), s.upsets = [] → tabGet s.ops op = some ⟨sq, ctx, su, .page q⟩ → q.kind = .seal →
    (∀ r, r ∈ (s.col q.col).reqs → r.tag < q.bound → r.lanes &&& q.lanes = 0) → steps64 q.off q.len = [o] → (s.walk ctx q.col o).1 = .page p →
    let a := (s.hbmPlace q.col (p.ent + 1)).addr
    ∃ t, exec (.sealCompletion op) s = .next t ∧ s.OpEnds t op q.col
      ∧ t = { s with mem := t.mem, dirty := t.dirty, ops := t.ops, cols := t.cols }
      ∧ Memory.read t.mem a = setBit (Memory.read s.mem a) 0 true
      ∧ ∀ b, b ≠ a → (∀ m, s.mirror q.col false (p.ent + 1) = some m → b ≠ m.addr) → Memory.read t.mem b = Memory.read s.mem b)
  ∧ (∀ (s : State) (op sq ctx : Nat) (su : Bool) (q : PageOp), tabGet s.ops op = some ⟨sq, ctx, su, .page q⟩ → q.kind = .flush →
    ∃ t, exec (.flushCompletion op) s = .next t ∧ s.OpEnds t op q.col ∧ t.spad = s.spad
      ∧ ∀ o lo hi b, o ∈ steps64 q.off q.len → s.stepBlocks ctx q o = some (lo, hi) → lo ≤ b → b ≤ hi →
        tabGet t.vault b = none ∧ ∀ i, i < 4 → tabGet t.dirty (4 * b + i) = false)
  ∧ (∀ (s : State) (op sq ctx cl : Nat) (su : Bool) (q : PageOp), tabGet s.ops op = some ⟨sq, ctx, su, .page q⟩ → q.kind = .unseal →
    let left := if q.begun then q.inval else s.systemClusters
    let hit (owner off : Nat) : Prop := owner = awayCol (mkAddr q.col 0).toNat ∧ q.off ≤ off ∧ off < q.off + q.len
    cl ∈ left → (cl < 768 → s.pw.runs cl = true) → (768 ≤ cl → s.routePorts (cl / 768 - 1) ≠ []) →
    ∃ t, exec (.replicaInvalidate op (.own cl)) s = .next t
      ∧ (∀ r, r ∈ t.replicas ↔ r ∈ s.replicas ∧ ¬ (r.cluster = cl ∧ hit r.owner (r.line * 64 % 2 ^ 34)))
      ∧ (∀ p, p ∈ t.net → p.kind = 0x02 → pktHere p = true → pktCluster p = cl → hit (awayCol p.src.toNat) (addrOff p.src.toNat) → p.words = [])
      ∧ tabGet t.ops op = some ⟨sq, ctx, su, .page { q with begun := true, inval := left.erase cl, acks := q.acks ++ [cl] }⟩
      ∧ (q.begun = true → t.mem = s.mem))
  ∧ (∀ (s : State) (op : Nat) (p : Packet), s.Comes p 0x08 → ∃ t, exec (.replicaInvalidate op (.packet p)) s = .next t ∧ t.mem = s.mem
    ∧ ∀ r, r ∈ t.replicas ↔ r ∈ s.replicas ∧ ¬ (r.cluster = pktCluster p ∧ r.owner = awayCol p.src.toNat))
  ∧ (∀ (s : State) (op sq ctx cl : Nat) (su : Bool) (q : PageOp), tabGet s.ops op = some ⟨sq, ctx, su, .page q⟩ → q.kind = .unseal →
    cl ∈ q.acks → ∃ t, exec (.invalidateAcknowledgement op cl) s = .next t ∧ t = { s with ops := t.ops, cols := t.cols }
      ∧ (q.inval = [] → q.acks = [cl] → s.OpEnds t op q.col)
      ∧ (q.inval ≠ [] ∨ q.acks.erase cl ≠ [] → t.cols = s.cols
        ∧ tabGet t.ops op = some ⟨sq, ctx, su, .page { q with acks := q.acks.erase cl }⟩))
  ∧ (∀ (s : State) (cl line : Nat), (∃ r, r ∈ s.replicas ∧ r.cluster = cl ∧ r.line = line) → ∃ t, exec (.replicaEviction cl line) s = .next t
    ∧ t = { s with replicas := t.replicas } ∧ ∀ r, r ∈ t.replicas ↔ r ∈ s.replicas ∧ ¬ (r.cluster = cl ∧ r.line = line))
  ∧ (∀ (s : State) (f : FaultEnt) (col k : Nat),
    (s.faults.find? fun g => g.cluster == f.cluster && g.ent == f.ent) = some f → f.ent < 256 → f.waiter = .split col k →
    (tabGet s.cols col).isSome = true → (s.walk f.ctx f.owner (addrOff f.vaddr.toNat)).1 ≠ .miss →
    (s.col col).demote ≠ some k → ((s.col col).slot k).lanes ≠ 0 →
    ∃ t, exec (.translationFaultRewalk (256 * f.cluster + f.ent)) s = .next t ∧ t = { s with faults := t.faults, cols := t.cols }
      ∧ t.faults = s.faults.filter (fun g => g != f) ∧ (∀ c, c ≠ col → tabGet t.cols c = tabGet s.cols c)
      ∧ (t.col col).slot k = { (s.col col).slot k with cond :=
          if ((s.col col).slot k).cond = .faulted then (s.col col).restCond ((s.col col).slot k).lanes else ((s.col col).slot k).cond })
  ∧ ∀ (s : State) (f : FaultEnt) (ls : List Nat), (s.faults.find? fun g => g.cluster == f.cluster && g.ent == f.ent) = some f → f.ent < 256 →
    s.walk f.ctx f.owner (addrOff f.vaddr.toNat) = (.miss, ls) →
    ∃ t, exec (.translationFaultRewalk (256 * f.cluster + f.ent)) s = .next t
      ∧ t = { s with faults := s.faults.map fun g => if g = f then { g with lines := ls } else g }

/-- R426 to R436, R230, R231. -/
def Obligations.CollectiveEvents : Prop :=
  (∀ (s : State) (op sq ctx : Nat) (o : P2pOp), tabGet s.ops op = some ⟨sq, ctx, false, .p2p o⟩ →
    s.forkDone o.col (maskOf (o.lanes.map (·.1))) o.bound = true →
    (∀ x, x ∈ o.lanes → ∀ c a k, s.scanP2p ctx o.kind (elemSize o.ty) (.mem (globalOf o.col) x.2.1) (.mem x.2.2.1 x.2.2.2) ≠ .fault c a k) →
    ∃ t code, exec (.collectiveCompletion op) s = .next t ∧ (∀ j, tabGet t.ops j = if j = op then none else tabGet s.ops j)
      ∧ tabGet t.handles (16 * o.col + o.handle) = (if code = 0 then 2 else statusWord 4 code 0 0)
      ∧ ∀ l own g peer bs q, s.Sound → o.kind = 0 → o.lanes = [(l, own, g, peer)] → l < 32 → pkgOf g = Config.package.toNat →
        s.eRead ctx (.mem (globalOf o.col) own) (elemSize o.ty) = (s, .ok (bs, q)) →
        s.eCheck ctx (.mem (globalOf o.col) own) (elemSize o.ty) .read = .ok () → s.eCheck ctx (.mem g peer) (elemSize o.ty) .write = .ok () →
        code = 0 ∧ t.mem = (s.eWriteAll ctx [(.mem g peer, bytesOf (elemSize o.ty) (natOf bs), q)]).mem)
  ∧ (∀ (s : State) (op sq ctx : Nat) (o : ClctOp) (m : ClctMem) (ms : List ClctMem),
    tabGet s.ops op = some ⟨sq, ctx, false, .clct o⟩ → o.tag = none → o.mems = m :: ms → s.lostMember o.members = false → o.joinedAll s.tick = true → o.foreignAgree s.tick = true →
    (∀ p, p ∈ o.mems → globalOf p.col ∈ o.members ∧ s.forkDone p.col p.lanes p.bound = true ∧ p.sameAs m = true
      ∧ buffersClash p.kind o.members.length (o.members.getD p.root nGlobal == globalOf p.col) p.src p.dst (p.count * elemSize m.ty) = false) →
    (List.range o.members.length).foldl (fun a r =>
      s.scanBuf ctx (elemSize m.ty) (o.bufs s.tick m r).2 .write
        (s.scanBuf ctx (elemSize m.ty) (o.bufs s.tick m r).1 .read a)) Scan.ok = .ok →
    ∃ t, exec (.collectiveCompletion op) s = .next t ∧ t.mem = (s.runClct ctx o m).mem
      ∧ (∀ j, tabGet t.ops j = if j = op then none else tabGet s.ops j) ∧ ∀ p, p ∈ o.mems → tabGet t.handles (16 * p.col + p.handle) = 2)
  ∧ (∀ (s : State) (op sq ctx code : Nat) (o : RepOp) (m : RepMem) (ms : List RepMem) (r i out : Rec64),
    tabGet s.ops op = some ⟨sq, ctx, false, .rep o⟩ → o.moved = false → o.members = [] → o.mems = m :: ms →
    s.forkDone m.col m.lanes m.bound = true → s.repRead ctx o.addr.toNat = (s, .got code r i out) →
    (code ≠ 0 → ∃ t, exec (.repartMove op) s = .next t ∧ t.mem = s.mem ∧ tabGet t.handles (16 * m.col + m.handle) = statusWord 4 code 0 0
      ∧ ∀ j, tabGet t.ops j = if j = op then none else tabGet s.ops j)
    ∧ (code = 0 → globalOf m.col ∈ repMembers i → (∀ e, e ∈ s.ops → ∀ g p, e.2 = some g → g.body = .rep p → p.members = []) →
      ∃ t, exec (.repartMove op) s = .next t ∧ t = { s with ops := t.ops }
        ∧ ∀ j, tabGet t.ops j = if j = op then some ⟨sq, ctx, false, .rep { o with record := r, ins := i, outs := out, members := repMembers i }⟩
            else tabGet s.ops j))
  ∧ (∀ (s : State) (op sq ctx : Nat) (o : RepOp), tabGet s.ops op = some ⟨sq, ctx, false, .rep o⟩ → o.moved = false →
    (o.members = [] → ∀ m ms, o.mems = m :: ms → s.forkDone m.col m.lanes m.bound = true → ∃ t, exec (.repartMove op) s = .next t)
    ∧ (o.members ≠ [] → s.repReady ctx o = true →
      let named : Prop := ∀ g, g ∈ o.members → s.repNamed ctx o g = some o.addr
      let failed (code : Nat) : RepOp := { o with moved := true, mems := o.mems.map fun m => { m with code := code } }
      let becomes (t : State) (q : RepOp) : State := { t with ops := tabSet t.ops op (some ⟨sq, ctx, false, .rep q⟩) }
      (∃ t, exec (.repartMove op) s = .next t)
      ∧ (¬ named → exec (.repartMove op) s = .next (becomes s (failed 1)))
      ∧ (named → o.overlaps = true → exec (.repartMove op) s = .next (becomes s (failed 5)))
      ∧ ∀ ins outs : Nat → Nat, named → o.overlaps = false →
        (∀ g, g ∈ o.members → s.scanMember ctx o g = .ok ∧ s.repCount ctx g o.inC = (s, ins g, false) ∧ s.repCount ctx g o.outC = (s, outs g, false)) →
        let p := repRecOf o.record
        let fit : Prop := ∀ g, g ∈ o.members → ins g ≤ repCap (surfOf o.ins) p.es ∧ outs g ≤ p.cap
        (¬ fit → exec (.repartMove op) s = .next (becomes s (failed 7)))
        ∧ (fit → exec (.repartMove op) s
          = .next (becomes (s.repMove ctx o (o.members.map ins) (o.members.map outs)).1 (s.repMove ctx o (o.members.map ins) (o.members.map outs)).2))))
  ∧ (∀ (s : State) (op sq ctx : Nat) (o : RepOp), tabGet s.ops op = some ⟨sq, ctx, false, .rep o⟩ → o.moved = true →
    (o.mems.map fun m => 16 * m.col + m.handle).Nodup →
    ∃ t, exec (.repartCompletion op) s = .next t ∧ t = { s with ops := t.ops, handles := t.handles }
      ∧ (∀ j, tabGet t.ops j = if j = op then none else tabGet s.ops j)
      ∧ (∀ m, m ∈ o.mems → tabGet t.handles (16 * m.col + m.handle)
        = if m.code = 0 then statusWord 2 0 m.kept m.recv else statusWord 4 m.code 0 0)
      ∧ ∀ h, (∀ m, m ∈ o.mems → h ≠ 16 * m.col + m.handle) → tabGet t.handles h = tabGet s.handles h)
  ∧ (∀ (t : Ty) (N E i : Nat) (own : Nat → Nat × Bool), t ∈ [Ty.i32, .n32, .i64, .n64] → 1 ≤ N → N ≤ 4096 →
    let v := reduceElem 0 t N E i own
    v.1 % 2 ^ elemBits t = ((List.range N).map fun r => (own r).1).sum % 2 ^ elemBits t
    ∧ (v.2 = true ↔ ∃ r, r < N ∧ (own r).2 = true))
  ∧ ∀ (N cap : Nat) (els : List RepEl) (counts : List Nat), (∀ e, e ∈ els → e.rank < N) → (els.map fun e => (e.rank, e.ix)).Nodup →
    let plan := repPlan N cap els counts
    plan.length = N ∧ (plan.map fun p => p.take.length + p.keep.length).sum = els.length
    ∧ ∀ d, d < N → counts.getD d 0 + (plan.getD d default).take.length ≤ max cap (counts.getD d 0)

/-- Slot k of a column issues, and nothing orders another step. -/
def Sys2Proof.Machine.State.IssuesNow (s : State) (col k : Nat) : Prop :=
  s.agenda = [] ∧ s.run = some (col, k) ∧ s.mayIssue col k = true ∧ ((s.col col).slot k).cond = .issuing ∧ (s.col col).upsets = []
    ∧ s.spadUp = []

/-- What a step adds to an execution. -/
def Sys2Proof.Machine.stepEnd (r : Host.Outcome State Fault Refusal) : Host.Outcome State Fault Refusal :=
  match r with
  | .next t => .next t.finish
  | r => r

/-- R254, R268, R269: a step runs the decoded instruction. What follows at once changes no column, core, scratchpad word, accumulator, packet or
operation, and nothing but the step count where nothing is due. -/
def Obligations.StepRunsDecoded : Prop :=
  (∀ t u : State, u = t.finish →
    u = { t with
      tick := t.tick + 1, evq := u.evq, boot := { t.boot with msix := u.boot.msix }, tabs := u.tabs, pw := { t.pw with badLines := u.pw.badLines }
      sch := u.sch, mem := u.mem, pois := u.pois, dirty := u.dirty, upsets := u.upsets, modes := u.modes, vault := u.vault, mintq := u.mintq }
    ∧ (t.dirty.length + 4 * t.vault.length ≤ 1024 → u.mem = t.mem)
    ∧ (t.sch.collq = [] → t.sch.queues = [] → t.sch.mgmt = [] → t.mintq = [] → t.dirty.length + 4 * t.vault.length ≤ 1024 →
      u = { t with tick := t.tick + 1 }))
  ∧ ∀ (s : State) (col k : Nat), s.IssuesNow col k →
    (∀ (t : State) (w : DWord) (i : Instr), s.fetch col k = (t, .word w) → classify w = .ok i → step s = stepEnd (exec i t))
    ∧ (∀ (t : State) (w : DWord) (e : Reject), s.fetch col k = (t, .word w) → classify w = .error e →
      step s = stepEnd (exec (.unassignedOpcodeWord w) t))
    ∧ (∀ (t : State) (f : Fetch), s.fetch col k = (t, f) → (∀ w, f ≠ .word w) → step s = stepEnd (exec .instructionFetchFault s))
    ∧ ∀ (p : Page), s.Sound → isSelfAlias ((s.col col).slot k).pc.toNat = true →
      let pc := ((s.col col).slot k).pc
      s.check (s.ctxOf col) col (addrOff pc.toNat) 8 (addrAp pc.toNat == 1) .fetch = .page p → s.accPois col p pc 8 = false →
      s.fetch col k = (s, .word (BitVec.ofNat 64 (wordOfBytes ((List.range 8).map fun j => s.accByte col p pc j))))

/-- R254 to R268: words written out in the spec. -/
def Obligations.DecodeWords : Prop :=
  classify 0x08000A0803000000 = .ok (.iadd ⟨false, 0, false, .v 5, .v 4, .i32, .reg (.v 3) (.v 0) false 0⟩)
  ∧ classify 0x080A0A09FFFFFF00 = .ok (.iadd ⟨false, 2, true, .v 5, .v 4, .i32, .imm 0xFFFFFF 0⟩)
  ∧ classify 0x18000C040300A000 = .ok (.fadd ⟨false, 0, false, .v 6, .v 2, .f32, .reg (.v 3) (.v 0) true 0⟩)
  ∧ classify 0x2400091100004000 = .ok (.ld ⟨false, 0, false, .v 4, .s 8, .i32, .imm 0x40 0⟩)
  ∧ classify 0x8100019200000000 = .ok (.join ⟨true, 0, false, .v 0, .j 1, .i32, .reg (.v 0) (.v 0) false 0⟩)
  ∧ classify 0x00C11201FFFFFA10 = .ok (.loop ⟨false, 0, false, .s 9, .v 0, .n32, .imm 0xFFFFFA 0⟩)
  ∧ classify 0x0C21840803000003 = .ok (.icmp ⟨false, 0, false, .p 2, .v 4, .i32, .reg (.v 3) (.v 0) false 3⟩)
  ∧ classify 0x30000C2805000040 = .ok (.atom ⟨false, 0, false, .v 6, .v 20, .i32, .reg (.v 5) (.v 0) false 0x40⟩)
  ∧ classify 0x3801C32000000000 = .ok (.tdesc ⟨false, 0, false, .t 1, .s 16, .i32, .reg (.v 0) (.v 0) false 0⟩)
  ∧ classify 0x3C0128089596201B = .ok (.clctGroup ⟨false, 0, false, .s 20, .v 4, .f32, .reg (.s 21) (.s 22) false 0x1B⟩)
  ∧ classify 0x40A00FD812A0A122
    = .ok (.halfIadd false ⟨1, false, 0, 0xFD, true, false, false, 0⟩ ⟨0x12, ⟨2, true, 5, 9, false, false, false, 2⟩⟩)
  ∧ classify 0x0300000000000000 = .error (.unassignedOpcode 0x018)

/-- R254 to R267. -/
def Obligations.DecodeOfEncode : Prop :=
  ∀ i : Instr, i.encodable = true → ∃ w, encode i = some w ∧ classify w = .ok i

/-- R254 to R268. -/
def Obligations.EncodeOfDecode : Prop :=
  (∀ (w : DWord) (i : Instr), classify w = .ok i → i.encodable = true ∧ encode i = some w)
  ∧ ∀ w : DWord, (∃ e, classify w = .error e) ↔ (illegalInfo w).isSome = true

/-- The memories' form is an invariant of the step. -/
def Obligations.MemoryFormKept : Prop :=
  ∀ s t : State, s.memWf = true → step s = .next t → t.memWf = true

/-- The state after reset. -/
def Obligations.ResetState : Prop :=
  State.reset.memWf = true ∧ State.reset.boot.powered = false ∧ State.reset.boot.st = 0 ∧ State.reset.boot.err = 0
    ∧ State.reset.evq.head = 0 ∧ State.reset.evq.tail = 0 ∧ State.reset.evq.lost = 0
    ∧ (∀ c, tabGet State.reset.cols c = none) ∧ (∀ g, State.reset.group g = none) ∧ (∀ c q, (State.reset.lq c q).recs = [] ∧ (State.reset.lq c q).run = none)
    ∧ (∀ k, tabGet State.reset.handles k = 0) ∧ (∀ j, tabGet State.reset.ops j = none) ∧ State.reset.faults = [] ∧ State.reset.net = []
    ∧ State.reset.replicas = [] ∧ (∀ a, Memory.read State.reset.mem a = 0) ∧ ∀ core a, State.reset.spadGet core a = (0, false)
end

