-- ==== Sys2Proof/Laws/Tab.lean ====
section
/-!
SUPPORT. Laws of sparse tables: what a read after a write gives, for any list of entries, and that every operation keeps the canonical form.
-/

namespace Sys2Proof.Machine

variable {α : Type}

/-! ## Reading -/

@[simp] theorem tabGet_nil [Inhabited α] (k : Nat) : tabGet ([] : Tab α) k = default := rfl

theorem tabGet_cons [Inhabited α] (k k' : Nat) (v : α) (t : Tab α) : tabGet ((k', v) :: t) k = if k' = k then v else tabGet t k := rfl

@[simp] theorem tabGet_tabErase_same [Inhabited α] (t : Tab α) (k : Nat) : tabGet (tabErase t k) k = default := by
  induction t with
  | nil => rfl
  | cons e t ih => unfold tabErase; split <;> simp_all [tabGet]

theorem tabGet_tabErase_ne [Inhabited α] (t : Tab α) {k j : Nat} (h : j ≠ k) : tabGet (tabErase t k) j = tabGet t j := by
  induction t with
  | nil => rfl
  | cons e t ih =>
    unfold tabErase
    split
    · simp_all [tabGet]; omega
    · simp_all [tabGet]

theorem tabGet_tabErase [Inhabited α] (t : Tab α) (k j : Nat) : tabGet (tabErase t k) j = if j = k then default else tabGet t j := by
  by_cases h : j = k
  · subst h; simp
  · rw [if_neg h, tabGet_tabErase_ne t h]

theorem tabGet_tabInsert_ne [Inhabited α] (t : Tab α) (k : Nat) (v : α) {j : Nat} (h : j ≠ k) : tabGet (tabInsert t k v) j = tabGet t j := by
  induction t with
  | nil => simp [tabInsert, tabGet]; omega
  | cons e t ih =>
    unfold tabInsert
    split
    · simp [tabGet]; omega
    · simp_all [tabGet]

theorem tabGet_tabInsert_same [Inhabited α] (t : Tab α) (k : Nat) (v : α) (h : ∀ e ∈ t, e.1 ≠ k) : tabGet (tabInsert t k v) k = v := by
  induction t with
  | nil => simp [tabInsert, tabGet]
  | cons e t ih =>
    unfold tabInsert
    split
    · simp [tabGet]
    · simp_all [tabGet]

theorem mem_tabErase (t : Tab α) (k : Nat) {e : Nat × α} (h : e ∈ tabErase t k) : e ∈ t ∧ e.1 ≠ k := by
  induction t with
  | nil => simp [tabErase] at h
  | cons a t ih => unfold tabErase at h; split at h <;> aesop

theorem mem_tabInsert (t : Tab α) (k : Nat) (v : α) {e : Nat × α} (h : e ∈ tabInsert t k v) : e = (k, v) ∨ e ∈ t := by
  induction t with
  | nil => simpa [tabInsert] using h
  | cons a t ih => unfold tabInsert at h; split at h <;> aesop

/-- A read after a write. -/
theorem tabGet_tabSet [DecidableEq α] [Inhabited α] (t : Tab α) (k j : Nat) (v : α) : tabGet (tabSet t k v) j = if j = k then v else tabGet t j := by
  unfold tabSet
  by_cases h : j = k
  · subst h
    split
    · simp_all
    · rw [tabGet_tabInsert_same _ _ _ fun e he => (mem_tabErase t j he).2]; simp
  · split
    · rw [tabGet_tabErase_ne t h]
    · rw [tabGet_tabInsert_ne _ _ _ h, tabGet_tabErase_ne t h]

@[simp] theorem tabGet_tabSet_same [DecidableEq α] [Inhabited α] (t : Tab α) (k : Nat) (v : α) : tabGet (tabSet t k v) k = v := by
  simp [tabGet_tabSet]

theorem tabGet_tabSet_ne [DecidableEq α] [Inhabited α] (t : Tab α) {k j : Nat} (v : α) (h : j ≠ k) : tabGet (tabSet t k v) j = tabGet t j := by
  simp [tabGet_tabSet, h]

theorem tabGet_tabMod [DecidableEq α] [Inhabited α] (t : Tab α) (k j : Nat) (f : α → α) :
    tabGet (tabMod t k f) j = if j = k then f (tabGet t k) else tabGet t j := tabGet_tabSet t k j _

@[simp] theorem tabGet_tabMod_same [DecidableEq α] [Inhabited α] (t : Tab α) (k : Nat) (f : α → α) : tabGet (tabMod t k f) k = f (tabGet t k) := by
  simp [tabGet_tabMod]

theorem tabGet_tabMod_ne [DecidableEq α] [Inhabited α] (t : Tab α) {k j : Nat} (f : α → α) (h : j ≠ k) : tabGet (tabMod t k f) j = tabGet t j := by
  simp [tabGet_tabMod, h]

/-- Keys that a list of writes does not name keep their values. -/
theorem tabGet_tabSetAll_other [DecidableEq α] [Inhabited α] (kvs : List (Nat × α)) (t : Tab α) (j : Nat) (h : ∀ e ∈ kvs, e.1 ≠ j) :
    tabGet (tabSetAll t kvs) j = tabGet t j := by
  induction kvs generalizing t with
  | nil => rfl
  | cons e kvs ih =>
    obtain ⟨k, v⟩ := e
    rw [tabSetAll, ih _ fun e he => h e (List.mem_cons_of_mem _ he), tabGet_tabSet_ne _ _ (h (k, v) List.mem_cons_self).symm]

/-- After writes at distinct keys, each reads as written. -/
theorem tabGet_tabSetAll_mem [DecidableEq α] [Inhabited α] (kvs : List (Nat × α)) (t : Tab α) (k : Nat) (v : α) (hn : (kvs.map (·.1)).Nodup)
    (h : (k, v) ∈ kvs) : tabGet (tabSetAll t kvs) k = v := by
  induction kvs generalizing t with
  | nil => cases h
  | cons e kvs ih =>
    obtain ⟨k', v'⟩ := e
    simp only [List.map_cons, List.nodup_cons, List.mem_map] at hn
    rw [tabSetAll]
    rcases List.mem_cons.mp h with h | h
    · obtain ⟨rfl, rfl⟩ := Prod.mk.inj h
      rw [tabGet_tabSetAll_other _ _ _ fun e he hk => hn.1 ⟨e, he, hk⟩, tabGet_tabSet_same]
    · exact ih _ hn.2 h

/-! ## The canonical form -/

@[simp] theorem tabWf_nil [DecidableEq α] [Inhabited α] : tabWf ([] : Tab α) = true := rfl

/-- Every key lies above a bound. -/
def tabAbove (lo : Option Nat) (t : Tab α) : Prop := ∀ b, lo = some b → ∀ e ∈ t, b < e.1

theorem tabRising_cons (lo : Option Nat) (k : Nat) (v : α) (t : Tab α) :
    tabRising lo ((k, v) :: t) = true ↔ (∀ b, lo = some b → b < k) ∧ tabRising (some k) t = true := by
  cases lo <;> simp [tabRising]

theorem tabRising_above (t : Tab α) (lo : Option Nat) (h : tabRising lo t = true) : tabAbove lo t := by
  induction t generalizing lo with
  | nil => intro b _ e he; cases he
  | cons a t ih =>
    obtain ⟨k, v⟩ := a
    rw [tabRising_cons] at h
    intro b hb e he
    rcases List.mem_cons.mp he with rfl | he
    · exact h.1 b hb
    · exact Nat.lt_trans (h.1 b hb) (ih _ h.2 k rfl e he)

theorem tabRising_mono (t : Tab α) (lo lo' : Option Nat) (h : tabRising lo t = true) (ha : tabAbove lo' t) : tabRising lo' t = true := by
  cases t with
  | nil => rfl
  | cons a t =>
    obtain ⟨k, v⟩ := a
    rw [tabRising_cons] at h ⊢
    exact ⟨fun b hb => ha b hb (k, v) List.mem_cons_self, h.2⟩

theorem tabRising_tabErase (t : Tab α) (k : Nat) (lo : Option Nat) (h : tabRising lo t = true) : tabRising lo (tabErase t k) = true := by
  induction t generalizing lo with
  | nil => rfl
  | cons a t ih =>
    obtain ⟨k', v⟩ := a
    have hab := tabRising_above _ _ h
    rw [tabRising_cons] at h
    unfold tabErase
    split
    · exact tabRising_mono _ _ _ (ih _ h.2) fun b hb e he => hab b hb e (List.mem_cons_of_mem _ (mem_tabErase t k he).1)
    · rw [tabRising_cons]; exact ⟨h.1, ih _ h.2⟩

theorem tabRising_tabInsert (t : Tab α) (k : Nat) (v : α) (lo : Option Nat) (h : tabRising lo t = true) (hk : ∀ b, lo = some b → b < k)
    (hn : ∀ e ∈ t, e.1 ≠ k) : tabRising lo (tabInsert t k v) = true := by
  induction t generalizing lo with
  | nil => rw [tabInsert, tabRising_cons]; exact ⟨hk, rfl⟩
  | cons a t ih =>
    obtain ⟨k', v'⟩ := a
    have hr := h
    rw [tabRising_cons] at h
    unfold tabInsert
    split
    · rename_i hlt
      rw [tabRising_cons, tabRising_cons]
      exact ⟨hk, fun b hb => by cases hb; exact hlt, h.2⟩
    · rename_i hge
      have hne : k' ≠ k := hn (k', v') List.mem_cons_self
      rw [tabRising_cons]
      refine ⟨h.1, ih _ h.2 (fun b hb => ?_) fun e he => hn e (List.mem_cons_of_mem _ he)⟩
      cases hb; omega

theorem tabWf_iff [DecidableEq α] [Inhabited α] (t : Tab α) : tabWf t = true ↔ tabRising none t = true ∧ ∀ e ∈ t, e.2 ≠ default := by
  simp [tabWf]

/-- Erasing keeps the form. -/
theorem tabWf_tabErase [DecidableEq α] [Inhabited α] (t : Tab α) (k : Nat) (h : tabWf t = true) : tabWf (tabErase t k) = true := by
  rw [tabWf_iff] at h ⊢
  exact ⟨tabRising_tabErase _ _ _ h.1, fun e he => h.2 e (mem_tabErase t k he).1⟩

/-- A write keeps the form. -/
theorem tabWf_tabSet [DecidableEq α] [Inhabited α] (t : Tab α) (k : Nat) (v : α) (h : tabWf t = true) : tabWf (tabSet t k v) = true := by
  unfold tabSet
  split
  · exact tabWf_tabErase _ _ h
  · rename_i hv
    have he := (tabWf_iff _).mp (tabWf_tabErase t k h)
    rw [tabWf_iff]
    refine ⟨tabRising_tabInsert _ _ _ _ he.1 (fun _ hb => nomatch hb) fun e hm => (mem_tabErase t k hm).2, fun e hm => ?_⟩
    rcases mem_tabInsert _ _ _ hm with rfl | hm
    · exact hv
    · exact he.2 e hm

theorem tabWf_tabMod [DecidableEq α] [Inhabited α] (t : Tab α) (k : Nat) (f : α → α) (h : tabWf t = true) : tabWf (tabMod t k f) = true :=
  tabWf_tabSet _ _ _ h

theorem tabWf_tabSetAll [DecidableEq α] [Inhabited α] (kvs : List (Nat × α)) (t : Tab α) (h : tabWf t = true) : tabWf (tabSetAll t kvs) = true := by
  induction kvs generalizing t with
  | nil => exact h
  | cons e kvs ih => obtain ⟨k, v⟩ := e; exact ih _ (tabWf_tabSet _ _ _ h)

theorem tabRising_filter (p : Nat × α → Bool) (t : Tab α) (lo : Option Nat) (h : tabRising lo t = true) : tabRising lo (t.filter p) = true := by
  induction t generalizing lo with
  | nil => rfl
  | cons a t ih =>
    obtain ⟨k, v⟩ := a
    have hab := tabRising_above _ _ h
    rw [tabRising_cons] at h
    rw [List.filter_cons]
    split
    · rw [tabRising_cons]; exact ⟨h.1, ih _ h.2⟩
    · exact tabRising_mono _ _ _ (ih _ h.2) fun b hb e he => hab b hb e (List.mem_cons_of_mem _ (List.mem_filter.mp he).1)

/-- Dropping entries keeps the form. -/
theorem tabWf_filter [DecidableEq α] [Inhabited α] (p : Nat × α → Bool) (t : Tab α) (h : tabWf t = true) : tabWf (t.filter p) = true := by
  rw [tabWf_iff] at h ⊢
  exact ⟨tabRising_filter _ _ _ h.1, fun e he => h.2 e (List.mem_filter.mp he).1⟩

/-- A fold of steps that each keep the form keeps it. -/
theorem tabWf_foldl [DecidableEq α] [Inhabited α] {β : Type} (f : Tab α → β → Tab α) (hf : ∀ t b, tabWf t = true → tabWf (f t b) = true)
    (l : List β) (t : Tab α) (h : tabWf t = true) : tabWf (l.foldl f t) = true := by
  induction l generalizing t with
  | nil => exact h
  | cons b l ih => exact ih _ (hf _ _ h)

/-- Two tables in canonical form that read alike are equal. -/
theorem tabWf_ext [DecidableEq α] [Inhabited α] (t u : Tab α) (ht : tabWf t = true) (hu : tabWf u = true) (h : ∀ k, tabGet t k = tabGet u k) : t = u := by
  rw [tabWf_iff] at ht hu
  obtain ⟨ht, htd⟩ := ht
  obtain ⟨hu, hud⟩ := hu
  have key : ∀ (lo : Option Nat) (t u : Tab α), tabRising lo t = true → tabRising lo u = true → (∀ e ∈ t, e.2 ≠ default) → (∀ e ∈ u, e.2 ≠ default) →
      (∀ k, tabGet t k = tabGet u k) → t = u := by
    have none_above : ∀ (k : Nat) (t : Tab α), tabRising (some k) t = true → ∀ j, j ≤ k → tabGet t j = default := by
      intro k t
      induction t generalizing k with
      | nil => intros; rfl
      | cons a t ih =>
        obtain ⟨k', v⟩ := a
        intro h j hj
        rw [tabRising_cons] at h
        have := h.1 k rfl
        rw [tabGet_cons, if_neg (by omega), ih k' h.2 j (by omega)]
    intro lo t
    induction t generalizing lo with
    | nil =>
      intro u _ hu _ hud h
      cases u with
      | nil => rfl
      | cons b u =>
        obtain ⟨k, v⟩ := b
        have := h k
        rw [tabGet_nil, tabGet_cons, if_pos rfl] at this
        exact absurd this.symm (hud (k, v) List.mem_cons_self)
    | cons a t ih =>
      obtain ⟨k, v⟩ := a
      intro u ht hu htd hud h
      rw [tabRising_cons] at ht
      cases u with
      | nil =>
        have := h k
        rw [tabGet_nil, tabGet_cons, if_pos rfl] at this
        exact absurd this (htd (k, v) List.mem_cons_self)
      | cons b u =>
        obtain ⟨k', v'⟩ := b
        rw [tabRising_cons] at hu
        have hv : v ≠ default := htd (k, v) List.mem_cons_self
        have hv' : v' ≠ default := hud (k', v') List.mem_cons_self
        have hkk : k = k' := by
          rcases Nat.lt_trichotomy k k' with hlt | heq | hgt
          · have := h k
            rw [tabGet_cons, if_pos rfl, tabGet_cons, if_neg (by omega), none_above k' u hu.2 k (by omega)] at this
            exact absurd this hv
          · exact heq
          · have := h k'
            rw [tabGet_cons, if_neg (by omega), none_above k t ht.2 k' (by omega), tabGet_cons, if_pos rfl] at this
            exact absurd this.symm hv'
        subst hkk
        have hvv : v = v' := by have := h k; rwa [tabGet_cons, if_pos rfl, tabGet_cons, if_pos rfl] at this
        subst hvv
        congr 1
        refine ih (some k) u ht.2 hu.2 (fun e he => htd e (List.mem_cons_of_mem _ he)) (fun e he => hud e (List.mem_cons_of_mem _ he)) fun j => ?_
        by_cases hj : j ≤ k
        · rw [none_above k t ht.2 j hj, none_above k u hu.2 j hj]
        · have := h j
          rwa [tabGet_cons, if_neg (by omega), tabGet_cons, if_neg (by omega)] at this
  exact key none t u ht hu htd hud h

end Sys2Proof.Machine
end

