-- ==== Sys2Proof/Laws/State.lean ====
section
/-!
SUPPORT. One lemma per field for each plain update of a module's or a column's state: what the field holds after it.
-/

namespace Sys2Proof.Machine

/-! ### `State.setCol` -/

@[simp] theorem State.setCol_tick (s : State) (c : Nat) (v : Column) : (s.setCol c v).tick = s.tick := rfl
@[simp] theorem State.setCol_agenda (s : State) (c : Nat) (v : Column) : (s.setCol c v).agenda = s.agenda := rfl
@[simp] theorem State.setCol_run (s : State) (c : Nat) (v : Column) : (s.setCol c v).run = s.run := rfl
@[simp] theorem State.setCol_boot (s : State) (c : Nat) (v : Column) : (s.setCol c v).boot = s.boot := rfl
@[simp] theorem State.setCol_evq (s : State) (c : Nat) (v : Column) : (s.setCol c v).evq = s.evq := rfl
@[simp] theorem State.setCol_tabs (s : State) (c : Nat) (v : Column) : (s.setCol c v).tabs = s.tabs := rfl
@[simp] theorem State.setCol_pw (s : State) (c : Nat) (v : Column) : (s.setCol c v).pw = s.pw := rfl
@[simp] theorem State.setCol_sch (s : State) (c : Nat) (v : Column) : (s.setCol c v).sch = s.sch := rfl
@[simp] theorem State.setCol_recov (s : State) (c : Nat) (v : Column) : (s.setCol c v).recov = s.recov := rfl
@[simp] theorem State.setCol_cols (s : State) (c : Nat) (v : Column) : (s.setCol c v).cols = tabSet s.cols c (some v) := rfl
@[simp] theorem State.setCol_cores (s : State) (c : Nat) (v : Column) : (s.setCol c v).cores = s.cores := rfl
@[simp] theorem State.setCol_mem (s : State) (c : Nat) (v : Column) : (s.setCol c v).mem = s.mem := rfl
@[simp] theorem State.setCol_pois (s : State) (c : Nat) (v : Column) : (s.setCol c v).pois = s.pois := rfl
@[simp] theorem State.setCol_dirty (s : State) (c : Nat) (v : Column) : (s.setCol c v).dirty = s.dirty := rfl
@[simp] theorem State.setCol_upsets (s : State) (c : Nat) (v : Column) : (s.setCol c v).upsets = s.upsets := rfl
@[simp] theorem State.setCol_modes (s : State) (c : Nat) (v : Column) : (s.setCol c v).modes = s.modes := rfl
@[simp] theorem State.setCol_vault (s : State) (c : Nat) (v : Column) : (s.setCol c v).vault = s.vault := rfl
@[simp] theorem State.setCol_spad (s : State) (c : Nat) (v : Column) : (s.setCol c v).spad = s.spad := rfl
@[simp] theorem State.setCol_spadP (s : State) (c : Nat) (v : Column) : (s.setCol c v).spadP = s.spadP := rfl
@[simp] theorem State.setCol_spadUp (s : State) (c : Nat) (v : Column) : (s.setCol c v).spadUp = s.spadUp := rfl
@[simp] theorem State.setCol_acc (s : State) (c : Nat) (v : Column) : (s.setCol c v).acc = s.acc := rfl
@[simp] theorem State.setCol_accP (s : State) (c : Nat) (v : Column) : (s.setCol c v).accP = s.accP := rfl
@[simp] theorem State.setCol_imgPois (s : State) (c : Nat) (v : Column) : (s.setCol c v).imgPois = s.imgPois := rfl
@[simp] theorem State.setCol_replicas (s : State) (c : Nat) (v : Column) : (s.setCol c v).replicas = s.replicas := rfl
@[simp] theorem State.setCol_faults (s : State) (c : Nat) (v : Column) : (s.setCol c v).faults = s.faults := rfl
@[simp] theorem State.setCol_net (s : State) (c : Nat) (v : Column) : (s.setCol c v).net = s.net := rfl
@[simp] theorem State.setCol_ops (s : State) (c : Nat) (v : Column) : (s.setCol c v).ops = s.ops := rfl
@[simp] theorem State.setCol_nextOp (s : State) (c : Nat) (v : Column) : (s.setCol c v).nextOp = s.nextOp := rfl
@[simp] theorem State.setCol_nextTag (s : State) (c : Nat) (v : Column) : (s.setCol c v).nextTag = s.nextTag := rfl
@[simp] theorem State.setCol_seqNo (s : State) (c : Nat) (v : Column) : (s.setCol c v).seqNo = s.seqNo := rfl
@[simp] theorem State.setCol_mintq (s : State) (c : Nat) (v : Column) : (s.setCol c v).mintq = s.mintq := rfl
@[simp] theorem State.setCol_compq (s : State) (c : Nat) (v : Column) : (s.setCol c v).compq = s.compq := rfl
@[simp] theorem State.setCol_handles (s : State) (c : Nat) (v : Column) : (s.setCol c v).handles = s.handles := rfl
@[simp] theorem State.setCol_clctCnt (s : State) (c : Nat) (v : Column) : (s.setCol c v).clctCnt = s.clctCnt := rfl
@[simp] theorem State.setCol_repAddrs (s : State) (c : Nat) (v : Column) : (s.setCol c v).repAddrs = s.repAddrs := rfl
@[simp] theorem State.setCol_foldTurn (s : State) (c : Nat) (v : Column) : (s.setCol c v).foldTurn = s.foldTurn := rfl
@[simp] theorem State.setCol_ext (s : State) (c : Nat) (v : Column) : (s.setCol c v).ext = s.ext := rfl
@[simp] theorem State.setCol_freeIx (s : State) (c : Nat) (v : Column) : (s.setCol c v).freeIx = s.freeIx := rfl
@[simp] theorem State.setCol_rota (s : State) (c : Nat) (v : Column) : (s.setCol c v).rota = s.rota := rfl

/-! ### `State.modCol` -/

@[simp] theorem State.modCol_tick (s : State) (c : Nat) (f : Column → Column) : (s.modCol c f).tick = s.tick := rfl
@[simp] theorem State.modCol_agenda (s : State) (c : Nat) (f : Column → Column) : (s.modCol c f).agenda = s.agenda := rfl
@[simp] theorem State.modCol_run (s : State) (c : Nat) (f : Column → Column) : (s.modCol c f).run = s.run := rfl
@[simp] theorem State.modCol_boot (s : State) (c : Nat) (f : Column → Column) : (s.modCol c f).boot = s.boot := rfl
@[simp] theorem State.modCol_evq (s : State) (c : Nat) (f : Column → Column) : (s.modCol c f).evq = s.evq := rfl
@[simp] theorem State.modCol_tabs (s : State) (c : Nat) (f : Column → Column) : (s.modCol c f).tabs = s.tabs := rfl
@[simp] theorem State.modCol_pw (s : State) (c : Nat) (f : Column → Column) : (s.modCol c f).pw = s.pw := rfl
@[simp] theorem State.modCol_sch (s : State) (c : Nat) (f : Column → Column) : (s.modCol c f).sch = s.sch := rfl
@[simp] theorem State.modCol_recov (s : State) (c : Nat) (f : Column → Column) : (s.modCol c f).recov = s.recov := rfl
@[simp] theorem State.modCol_cols (s : State) (c : Nat) (f : Column → Column) : (s.modCol c f).cols = tabSet s.cols c (some (f (s.col c))) := rfl
@[simp] theorem State.modCol_cores (s : State) (c : Nat) (f : Column → Column) : (s.modCol c f).cores = s.cores := rfl
@[simp] theorem State.modCol_mem (s : State) (c : Nat) (f : Column → Column) : (s.modCol c f).mem = s.mem := rfl
@[simp] theorem State.modCol_pois (s : State) (c : Nat) (f : Column → Column) : (s.modCol c f).pois = s.pois := rfl
@[simp] theorem State.modCol_dirty (s : State) (c : Nat) (f : Column → Column) : (s.modCol c f).dirty = s.dirty := rfl
@[simp] theorem State.modCol_upsets (s : State) (c : Nat) (f : Column → Column) : (s.modCol c f).upsets = s.upsets := rfl
@[simp] theorem State.modCol_modes (s : State) (c : Nat) (f : Column → Column) : (s.modCol c f).modes = s.modes := rfl
@[simp] theorem State.modCol_vault (s : State) (c : Nat) (f : Column → Column) : (s.modCol c f).vault = s.vault := rfl
@[simp] theorem State.modCol_spad (s : State) (c : Nat) (f : Column → Column) : (s.modCol c f).spad = s.spad := rfl
@[simp] theorem State.modCol_spadP (s : State) (c : Nat) (f : Column → Column) : (s.modCol c f).spadP = s.spadP := rfl
@[simp] theorem State.modCol_spadUp (s : State) (c : Nat) (f : Column → Column) : (s.modCol c f).spadUp = s.spadUp := rfl
@[simp] theorem State.modCol_acc (s : State) (c : Nat) (f : Column → Column) : (s.modCol c f).acc = s.acc := rfl
@[simp] theorem State.modCol_accP (s : State) (c : Nat) (f : Column → Column) : (s.modCol c f).accP = s.accP := rfl
@[simp] theorem State.modCol_imgPois (s : State) (c : Nat) (f : Column → Column) : (s.modCol c f).imgPois = s.imgPois := rfl
@[simp] theorem State.modCol_replicas (s : State) (c : Nat) (f : Column → Column) : (s.modCol c f).replicas = s.replicas := rfl
@[simp] theorem State.modCol_faults (s : State) (c : Nat) (f : Column → Column) : (s.modCol c f).faults = s.faults := rfl
@[simp] theorem State.modCol_net (s : State) (c : Nat) (f : Column → Column) : (s.modCol c f).net = s.net := rfl
@[simp] theorem State.modCol_ops (s : State) (c : Nat) (f : Column → Column) : (s.modCol c f).ops = s.ops := rfl
@[simp] theorem State.modCol_nextOp (s : State) (c : Nat) (f : Column → Column) : (s.modCol c f).nextOp = s.nextOp := rfl
@[simp] theorem State.modCol_nextTag (s : State) (c : Nat) (f : Column → Column) : (s.modCol c f).nextTag = s.nextTag := rfl
@[simp] theorem State.modCol_seqNo (s : State) (c : Nat) (f : Column → Column) : (s.modCol c f).seqNo = s.seqNo := rfl
@[simp] theorem State.modCol_mintq (s : State) (c : Nat) (f : Column → Column) : (s.modCol c f).mintq = s.mintq := rfl
@[simp] theorem State.modCol_compq (s : State) (c : Nat) (f : Column → Column) : (s.modCol c f).compq = s.compq := rfl
@[simp] theorem State.modCol_handles (s : State) (c : Nat) (f : Column → Column) : (s.modCol c f).handles = s.handles := rfl
@[simp] theorem State.modCol_clctCnt (s : State) (c : Nat) (f : Column → Column) : (s.modCol c f).clctCnt = s.clctCnt := rfl
@[simp] theorem State.modCol_repAddrs (s : State) (c : Nat) (f : Column → Column) : (s.modCol c f).repAddrs = s.repAddrs := rfl
@[simp] theorem State.modCol_foldTurn (s : State) (c : Nat) (f : Column → Column) : (s.modCol c f).foldTurn = s.foldTurn := rfl
@[simp] theorem State.modCol_ext (s : State) (c : Nat) (f : Column → Column) : (s.modCol c f).ext = s.ext := rfl
@[simp] theorem State.modCol_freeIx (s : State) (c : Nat) (f : Column → Column) : (s.modCol c f).freeIx = s.freeIx := rfl
@[simp] theorem State.modCol_rota (s : State) (c : Nat) (f : Column → Column) : (s.modCol c f).rota = s.rota := rfl

/-! ### `State.setOp` -/

@[simp] theorem State.setOp_tick (s : State) (id : Nat) (o : Option EngOp) : (s.setOp id o).tick = s.tick := rfl
@[simp] theorem State.setOp_agenda (s : State) (id : Nat) (o : Option EngOp) : (s.setOp id o).agenda = s.agenda := rfl
@[simp] theorem State.setOp_run (s : State) (id : Nat) (o : Option EngOp) : (s.setOp id o).run = s.run := rfl
@[simp] theorem State.setOp_boot (s : State) (id : Nat) (o : Option EngOp) : (s.setOp id o).boot = s.boot := rfl
@[simp] theorem State.setOp_evq (s : State) (id : Nat) (o : Option EngOp) : (s.setOp id o).evq = s.evq := rfl
@[simp] theorem State.setOp_tabs (s : State) (id : Nat) (o : Option EngOp) : (s.setOp id o).tabs = s.tabs := rfl
@[simp] theorem State.setOp_pw (s : State) (id : Nat) (o : Option EngOp) : (s.setOp id o).pw = s.pw := rfl
@[simp] theorem State.setOp_sch (s : State) (id : Nat) (o : Option EngOp) : (s.setOp id o).sch = s.sch := rfl
@[simp] theorem State.setOp_recov (s : State) (id : Nat) (o : Option EngOp) : (s.setOp id o).recov = s.recov := rfl
@[simp] theorem State.setOp_cols (s : State) (id : Nat) (o : Option EngOp) : (s.setOp id o).cols = s.cols := rfl
@[simp] theorem State.setOp_cores (s : State) (id : Nat) (o : Option EngOp) : (s.setOp id o).cores = s.cores := rfl
@[simp] theorem State.setOp_mem (s : State) (id : Nat) (o : Option EngOp) : (s.setOp id o).mem = s.mem := rfl
@[simp] theorem State.setOp_pois (s : State) (id : Nat) (o : Option EngOp) : (s.setOp id o).pois = s.pois := rfl
@[simp] theorem State.setOp_dirty (s : State) (id : Nat) (o : Option EngOp) : (s.setOp id o).dirty = s.dirty := rfl
@[simp] theorem State.setOp_upsets (s : State) (id : Nat) (o : Option EngOp) : (s.setOp id o).upsets = s.upsets := rfl
@[simp] theorem State.setOp_modes (s : State) (id : Nat) (o : Option EngOp) : (s.setOp id o).modes = s.modes := rfl
@[simp] theorem State.setOp_vault (s : State) (id : Nat) (o : Option EngOp) : (s.setOp id o).vault = s.vault := rfl
@[simp] theorem State.setOp_spad (s : State) (id : Nat) (o : Option EngOp) : (s.setOp id o).spad = s.spad := rfl
@[simp] theorem State.setOp_spadP (s : State) (id : Nat) (o : Option EngOp) : (s.setOp id o).spadP = s.spadP := rfl
@[simp] theorem State.setOp_spadUp (s : State) (id : Nat) (o : Option EngOp) : (s.setOp id o).spadUp = s.spadUp := rfl
@[simp] theorem State.setOp_acc (s : State) (id : Nat) (o : Option EngOp) : (s.setOp id o).acc = s.acc := rfl
@[simp] theorem State.setOp_accP (s : State) (id : Nat) (o : Option EngOp) : (s.setOp id o).accP = s.accP := rfl
@[simp] theorem State.setOp_imgPois (s : State) (id : Nat) (o : Option EngOp) : (s.setOp id o).imgPois = s.imgPois := rfl
@[simp] theorem State.setOp_replicas (s : State) (id : Nat) (o : Option EngOp) : (s.setOp id o).replicas = s.replicas := rfl
@[simp] theorem State.setOp_faults (s : State) (id : Nat) (o : Option EngOp) : (s.setOp id o).faults = s.faults := rfl
@[simp] theorem State.setOp_net (s : State) (id : Nat) (o : Option EngOp) : (s.setOp id o).net = s.net := rfl
@[simp] theorem State.setOp_ops (s : State) (id : Nat) (o : Option EngOp) : (s.setOp id o).ops = tabSet s.ops id o := rfl
@[simp] theorem State.setOp_nextOp (s : State) (id : Nat) (o : Option EngOp) : (s.setOp id o).nextOp = s.nextOp := rfl
@[simp] theorem State.setOp_nextTag (s : State) (id : Nat) (o : Option EngOp) : (s.setOp id o).nextTag = s.nextTag := rfl
@[simp] theorem State.setOp_seqNo (s : State) (id : Nat) (o : Option EngOp) : (s.setOp id o).seqNo = s.seqNo := rfl
@[simp] theorem State.setOp_mintq (s : State) (id : Nat) (o : Option EngOp) : (s.setOp id o).mintq = s.mintq := rfl
@[simp] theorem State.setOp_compq (s : State) (id : Nat) (o : Option EngOp) : (s.setOp id o).compq = s.compq := rfl
@[simp] theorem State.setOp_handles (s : State) (id : Nat) (o : Option EngOp) : (s.setOp id o).handles = s.handles := rfl
@[simp] theorem State.setOp_clctCnt (s : State) (id : Nat) (o : Option EngOp) : (s.setOp id o).clctCnt = s.clctCnt := rfl
@[simp] theorem State.setOp_repAddrs (s : State) (id : Nat) (o : Option EngOp) : (s.setOp id o).repAddrs = s.repAddrs := rfl
@[simp] theorem State.setOp_foldTurn (s : State) (id : Nat) (o : Option EngOp) : (s.setOp id o).foldTurn = s.foldTurn := rfl
@[simp] theorem State.setOp_ext (s : State) (id : Nat) (o : Option EngOp) : (s.setOp id o).ext = s.ext := rfl
@[simp] theorem State.setOp_freeIx (s : State) (id : Nat) (o : Option EngOp) : (s.setOp id o).freeIx = s.freeIx := rfl
@[simp] theorem State.setOp_rota (s : State) (id : Nat) (o : Option EngOp) : (s.setOp id o).rota = s.rota := rfl

/-! ### `State.setGroup` -/

@[simp] theorem State.setGroup_tick (s : State) (g : Nat) (v : Option Group) : (s.setGroup g v).tick = s.tick := rfl
@[simp] theorem State.setGroup_agenda (s : State) (g : Nat) (v : Option Group) : (s.setGroup g v).agenda = s.agenda := rfl
@[simp] theorem State.setGroup_run (s : State) (g : Nat) (v : Option Group) : (s.setGroup g v).run = s.run := rfl
@[simp] theorem State.setGroup_boot (s : State) (g : Nat) (v : Option Group) : (s.setGroup g v).boot = s.boot := rfl
@[simp] theorem State.setGroup_evq (s : State) (g : Nat) (v : Option Group) : (s.setGroup g v).evq = s.evq := rfl
@[simp] theorem State.setGroup_tabs (s : State) (g : Nat) (v : Option Group) : (s.setGroup g v).tabs = s.tabs := rfl
@[simp] theorem State.setGroup_pw (s : State) (g : Nat) (v : Option Group) : (s.setGroup g v).pw = s.pw := rfl
@[simp] theorem State.setGroup_sch (s : State) (g : Nat) (v : Option Group) :
    (s.setGroup g v).sch = { s.sch with groups := tabSet s.sch.groups g v } := rfl
@[simp] theorem State.setGroup_recov (s : State) (g : Nat) (v : Option Group) : (s.setGroup g v).recov = s.recov := rfl
@[simp] theorem State.setGroup_cols (s : State) (g : Nat) (v : Option Group) : (s.setGroup g v).cols = s.cols := rfl
@[simp] theorem State.setGroup_cores (s : State) (g : Nat) (v : Option Group) : (s.setGroup g v).cores = s.cores := rfl
@[simp] theorem State.setGroup_mem (s : State) (g : Nat) (v : Option Group) : (s.setGroup g v).mem = s.mem := rfl
@[simp] theorem State.setGroup_pois (s : State) (g : Nat) (v : Option Group) : (s.setGroup g v).pois = s.pois := rfl
@[simp] theorem State.setGroup_dirty (s : State) (g : Nat) (v : Option Group) : (s.setGroup g v).dirty = s.dirty := rfl
@[simp] theorem State.setGroup_upsets (s : State) (g : Nat) (v : Option Group) : (s.setGroup g v).upsets = s.upsets := rfl
@[simp] theorem State.setGroup_modes (s : State) (g : Nat) (v : Option Group) : (s.setGroup g v).modes = s.modes := rfl
@[simp] theorem State.setGroup_vault (s : State) (g : Nat) (v : Option Group) : (s.setGroup g v).vault = s.vault := rfl
@[simp] theorem State.setGroup_spad (s : State) (g : Nat) (v : Option Group) : (s.setGroup g v).spad = s.spad := rfl
@[simp] theorem State.setGroup_spadP (s : State) (g : Nat) (v : Option Group) : (s.setGroup g v).spadP = s.spadP := rfl
@[simp] theorem State.setGroup_spadUp (s : State) (g : Nat) (v : Option Group) : (s.setGroup g v).spadUp = s.spadUp := rfl
@[simp] theorem State.setGroup_acc (s : State) (g : Nat) (v : Option Group) : (s.setGroup g v).acc = s.acc := rfl
@[simp] theorem State.setGroup_accP (s : State) (g : Nat) (v : Option Group) : (s.setGroup g v).accP = s.accP := rfl
@[simp] theorem State.setGroup_imgPois (s : State) (g : Nat) (v : Option Group) : (s.setGroup g v).imgPois = s.imgPois := rfl
@[simp] theorem State.setGroup_replicas (s : State) (g : Nat) (v : Option Group) : (s.setGroup g v).replicas = s.replicas := rfl
@[simp] theorem State.setGroup_faults (s : State) (g : Nat) (v : Option Group) : (s.setGroup g v).faults = s.faults := rfl
@[simp] theorem State.setGroup_net (s : State) (g : Nat) (v : Option Group) : (s.setGroup g v).net = s.net := rfl
@[simp] theorem State.setGroup_ops (s : State) (g : Nat) (v : Option Group) : (s.setGroup g v).ops = s.ops := rfl
@[simp] theorem State.setGroup_nextOp (s : State) (g : Nat) (v : Option Group) : (s.setGroup g v).nextOp = s.nextOp := rfl
@[simp] theorem State.setGroup_nextTag (s : State) (g : Nat) (v : Option Group) : (s.setGroup g v).nextTag = s.nextTag := rfl
@[simp] theorem State.setGroup_seqNo (s : State) (g : Nat) (v : Option Group) : (s.setGroup g v).seqNo = s.seqNo := rfl
@[simp] theorem State.setGroup_mintq (s : State) (g : Nat) (v : Option Group) : (s.setGroup g v).mintq = s.mintq := rfl
@[simp] theorem State.setGroup_compq (s : State) (g : Nat) (v : Option Group) : (s.setGroup g v).compq = s.compq := rfl
@[simp] theorem State.setGroup_handles (s : State) (g : Nat) (v : Option Group) : (s.setGroup g v).handles = s.handles := rfl
@[simp] theorem State.setGroup_clctCnt (s : State) (g : Nat) (v : Option Group) : (s.setGroup g v).clctCnt = s.clctCnt := rfl
@[simp] theorem State.setGroup_repAddrs (s : State) (g : Nat) (v : Option Group) : (s.setGroup g v).repAddrs = s.repAddrs := rfl
@[simp] theorem State.setGroup_foldTurn (s : State) (g : Nat) (v : Option Group) : (s.setGroup g v).foldTurn = s.foldTurn := rfl
@[simp] theorem State.setGroup_ext (s : State) (g : Nat) (v : Option Group) : (s.setGroup g v).ext = s.ext := rfl
@[simp] theorem State.setGroup_freeIx (s : State) (g : Nat) (v : Option Group) : (s.setGroup g v).freeIx = s.freeIx := rfl
@[simp] theorem State.setGroup_rota (s : State) (g : Nat) (v : Option Group) : (s.setGroup g v).rota = s.rota := rfl

/-! ### `State.setLq` -/

@[simp] theorem State.setLq_tick (s : State) (ctx queue : Nat) (q : LQueue) : (s.setLq ctx queue q).tick = s.tick := rfl
@[simp] theorem State.setLq_agenda (s : State) (ctx queue : Nat) (q : LQueue) : (s.setLq ctx queue q).agenda = s.agenda := rfl
@[simp] theorem State.setLq_run (s : State) (ctx queue : Nat) (q : LQueue) : (s.setLq ctx queue q).run = s.run := rfl
@[simp] theorem State.setLq_boot (s : State) (ctx queue : Nat) (q : LQueue) : (s.setLq ctx queue q).boot = s.boot := rfl
@[simp] theorem State.setLq_evq (s : State) (ctx queue : Nat) (q : LQueue) : (s.setLq ctx queue q).evq = s.evq := rfl
@[simp] theorem State.setLq_tabs (s : State) (ctx queue : Nat) (q : LQueue) : (s.setLq ctx queue q).tabs = s.tabs := rfl
@[simp] theorem State.setLq_pw (s : State) (ctx queue : Nat) (q : LQueue) : (s.setLq ctx queue q).pw = s.pw := rfl
@[simp] theorem State.setLq_sch (s : State) (ctx queue : Nat) (q : LQueue) :
    (s.setLq ctx queue q).sch = { s.sch with queues := tabSet s.sch.queues (qKey ctx queue) q } := rfl
@[simp] theorem State.setLq_recov (s : State) (ctx queue : Nat) (q : LQueue) : (s.setLq ctx queue q).recov = s.recov := rfl
@[simp] theorem State.setLq_cols (s : State) (ctx queue : Nat) (q : LQueue) : (s.setLq ctx queue q).cols = s.cols := rfl
@[simp] theorem State.setLq_cores (s : State) (ctx queue : Nat) (q : LQueue) : (s.setLq ctx queue q).cores = s.cores := rfl
@[simp] theorem State.setLq_mem (s : State) (ctx queue : Nat) (q : LQueue) : (s.setLq ctx queue q).mem = s.mem := rfl
@[simp] theorem State.setLq_pois (s : State) (ctx queue : Nat) (q : LQueue) : (s.setLq ctx queue q).pois = s.pois := rfl
@[simp] theorem State.setLq_dirty (s : State) (ctx queue : Nat) (q : LQueue) : (s.setLq ctx queue q).dirty = s.dirty := rfl
@[simp] theorem State.setLq_upsets (s : State) (ctx queue : Nat) (q : LQueue) : (s.setLq ctx queue q).upsets = s.upsets := rfl
@[simp] theorem State.setLq_modes (s : State) (ctx queue : Nat) (q : LQueue) : (s.setLq ctx queue q).modes = s.modes := rfl
@[simp] theorem State.setLq_vault (s : State) (ctx queue : Nat) (q : LQueue) : (s.setLq ctx queue q).vault = s.vault := rfl
@[simp] theorem State.setLq_spad (s : State) (ctx queue : Nat) (q : LQueue) : (s.setLq ctx queue q).spad = s.spad := rfl
@[simp] theorem State.setLq_spadP (s : State) (ctx queue : Nat) (q : LQueue) : (s.setLq ctx queue q).spadP = s.spadP := rfl
@[simp] theorem State.setLq_spadUp (s : State) (ctx queue : Nat) (q : LQueue) : (s.setLq ctx queue q).spadUp = s.spadUp := rfl
@[simp] theorem State.setLq_acc (s : State) (ctx queue : Nat) (q : LQueue) : (s.setLq ctx queue q).acc = s.acc := rfl
@[simp] theorem State.setLq_accP (s : State) (ctx queue : Nat) (q : LQueue) : (s.setLq ctx queue q).accP = s.accP := rfl
@[simp] theorem State.setLq_imgPois (s : State) (ctx queue : Nat) (q : LQueue) : (s.setLq ctx queue q).imgPois = s.imgPois := rfl
@[simp] theorem State.setLq_replicas (s : State) (ctx queue : Nat) (q : LQueue) : (s.setLq ctx queue q).replicas = s.replicas := rfl
@[simp] theorem State.setLq_faults (s : State) (ctx queue : Nat) (q : LQueue) : (s.setLq ctx queue q).faults = s.faults := rfl
@[simp] theorem State.setLq_net (s : State) (ctx queue : Nat) (q : LQueue) : (s.setLq ctx queue q).net = s.net := rfl
@[simp] theorem State.setLq_ops (s : State) (ctx queue : Nat) (q : LQueue) : (s.setLq ctx queue q).ops = s.ops := rfl
@[simp] theorem State.setLq_nextOp (s : State) (ctx queue : Nat) (q : LQueue) : (s.setLq ctx queue q).nextOp = s.nextOp := rfl
@[simp] theorem State.setLq_nextTag (s : State) (ctx queue : Nat) (q : LQueue) : (s.setLq ctx queue q).nextTag = s.nextTag := rfl
@[simp] theorem State.setLq_seqNo (s : State) (ctx queue : Nat) (q : LQueue) : (s.setLq ctx queue q).seqNo = s.seqNo := rfl
@[simp] theorem State.setLq_mintq (s : State) (ctx queue : Nat) (q : LQueue) : (s.setLq ctx queue q).mintq = s.mintq := rfl
@[simp] theorem State.setLq_compq (s : State) (ctx queue : Nat) (q : LQueue) : (s.setLq ctx queue q).compq = s.compq := rfl
@[simp] theorem State.setLq_handles (s : State) (ctx queue : Nat) (q : LQueue) : (s.setLq ctx queue q).handles = s.handles := rfl
@[simp] theorem State.setLq_clctCnt (s : State) (ctx queue : Nat) (q : LQueue) : (s.setLq ctx queue q).clctCnt = s.clctCnt := rfl
@[simp] theorem State.setLq_repAddrs (s : State) (ctx queue : Nat) (q : LQueue) : (s.setLq ctx queue q).repAddrs = s.repAddrs := rfl
@[simp] theorem State.setLq_foldTurn (s : State) (ctx queue : Nat) (q : LQueue) : (s.setLq ctx queue q).foldTurn = s.foldTurn := rfl
@[simp] theorem State.setLq_ext (s : State) (ctx queue : Nat) (q : LQueue) : (s.setLq ctx queue q).ext = s.ext := rfl
@[simp] theorem State.setLq_freeIx (s : State) (ctx queue : Nat) (q : LQueue) : (s.setLq ctx queue q).freeIx = s.freeIx := rfl
@[simp] theorem State.setLq_rota (s : State) (ctx queue : Nat) (q : LQueue) : (s.setLq ctx queue q).rota = s.rota := rfl

/-! ### `State.modLq` -/

@[simp] theorem State.modLq_tick (s : State) (ctx queue : Nat) (f : LQueue → LQueue) : (s.modLq ctx queue f).tick = s.tick := rfl
@[simp] theorem State.modLq_agenda (s : State) (ctx queue : Nat) (f : LQueue → LQueue) : (s.modLq ctx queue f).agenda = s.agenda := rfl
@[simp] theorem State.modLq_run (s : State) (ctx queue : Nat) (f : LQueue → LQueue) : (s.modLq ctx queue f).run = s.run := rfl
@[simp] theorem State.modLq_boot (s : State) (ctx queue : Nat) (f : LQueue → LQueue) : (s.modLq ctx queue f).boot = s.boot := rfl
@[simp] theorem State.modLq_evq (s : State) (ctx queue : Nat) (f : LQueue → LQueue) : (s.modLq ctx queue f).evq = s.evq := rfl
@[simp] theorem State.modLq_tabs (s : State) (ctx queue : Nat) (f : LQueue → LQueue) : (s.modLq ctx queue f).tabs = s.tabs := rfl
@[simp] theorem State.modLq_pw (s : State) (ctx queue : Nat) (f : LQueue → LQueue) : (s.modLq ctx queue f).pw = s.pw := rfl
@[simp] theorem State.modLq_sch (s : State) (ctx queue : Nat) (f : LQueue → LQueue) :
    (s.modLq ctx queue f).sch = { s.sch with queues := tabSet s.sch.queues (qKey ctx queue) (f (s.lq ctx queue)) } := rfl
@[simp] theorem State.modLq_recov (s : State) (ctx queue : Nat) (f : LQueue → LQueue) : (s.modLq ctx queue f).recov = s.recov := rfl
@[simp] theorem State.modLq_cols (s : State) (ctx queue : Nat) (f : LQueue → LQueue) : (s.modLq ctx queue f).cols = s.cols := rfl
@[simp] theorem State.modLq_cores (s : State) (ctx queue : Nat) (f : LQueue → LQueue) : (s.modLq ctx queue f).cores = s.cores := rfl
@[simp] theorem State.modLq_mem (s : State) (ctx queue : Nat) (f : LQueue → LQueue) : (s.modLq ctx queue f).mem = s.mem := rfl
@[simp] theorem State.modLq_pois (s : State) (ctx queue : Nat) (f : LQueue → LQueue) : (s.modLq ctx queue f).pois = s.pois := rfl
@[simp] theorem State.modLq_dirty (s : State) (ctx queue : Nat) (f : LQueue → LQueue) : (s.modLq ctx queue f).dirty = s.dirty := rfl
@[simp] theorem State.modLq_upsets (s : State) (ctx queue : Nat) (f : LQueue → LQueue) : (s.modLq ctx queue f).upsets = s.upsets := rfl
@[simp] theorem State.modLq_modes (s : State) (ctx queue : Nat) (f : LQueue → LQueue) : (s.modLq ctx queue f).modes = s.modes := rfl
@[simp] theorem State.modLq_vault (s : State) (ctx queue : Nat) (f : LQueue → LQueue) : (s.modLq ctx queue f).vault = s.vault := rfl
@[simp] theorem State.modLq_spad (s : State) (ctx queue : Nat) (f : LQueue → LQueue) : (s.modLq ctx queue f).spad = s.spad := rfl
@[simp] theorem State.modLq_spadP (s : State) (ctx queue : Nat) (f : LQueue → LQueue) : (s.modLq ctx queue f).spadP = s.spadP := rfl
@[simp] theorem State.modLq_spadUp (s : State) (ctx queue : Nat) (f : LQueue → LQueue) : (s.modLq ctx queue f).spadUp = s.spadUp := rfl
@[simp] theorem State.modLq_acc (s : State) (ctx queue : Nat) (f : LQueue → LQueue) : (s.modLq ctx queue f).acc = s.acc := rfl
@[simp] theorem State.modLq_accP (s : State) (ctx queue : Nat) (f : LQueue → LQueue) : (s.modLq ctx queue f).accP = s.accP := rfl
@[simp] theorem State.modLq_imgPois (s : State) (ctx queue : Nat) (f : LQueue → LQueue) : (s.modLq ctx queue f).imgPois = s.imgPois := rfl
@[simp] theorem State.modLq_replicas (s : State) (ctx queue : Nat) (f : LQueue → LQueue) : (s.modLq ctx queue f).replicas = s.replicas := rfl
@[simp] theorem State.modLq_faults (s : State) (ctx queue : Nat) (f : LQueue → LQueue) : (s.modLq ctx queue f).faults = s.faults := rfl
@[simp] theorem State.modLq_net (s : State) (ctx queue : Nat) (f : LQueue → LQueue) : (s.modLq ctx queue f).net = s.net := rfl
@[simp] theorem State.modLq_ops (s : State) (ctx queue : Nat) (f : LQueue → LQueue) : (s.modLq ctx queue f).ops = s.ops := rfl
@[simp] theorem State.modLq_nextOp (s : State) (ctx queue : Nat) (f : LQueue → LQueue) : (s.modLq ctx queue f).nextOp = s.nextOp := rfl
@[simp] theorem State.modLq_nextTag (s : State) (ctx queue : Nat) (f : LQueue → LQueue) : (s.modLq ctx queue f).nextTag = s.nextTag := rfl
@[simp] theorem State.modLq_seqNo (s : State) (ctx queue : Nat) (f : LQueue → LQueue) : (s.modLq ctx queue f).seqNo = s.seqNo := rfl
@[simp] theorem State.modLq_mintq (s : State) (ctx queue : Nat) (f : LQueue → LQueue) : (s.modLq ctx queue f).mintq = s.mintq := rfl
@[simp] theorem State.modLq_compq (s : State) (ctx queue : Nat) (f : LQueue → LQueue) : (s.modLq ctx queue f).compq = s.compq := rfl
@[simp] theorem State.modLq_handles (s : State) (ctx queue : Nat) (f : LQueue → LQueue) : (s.modLq ctx queue f).handles = s.handles := rfl
@[simp] theorem State.modLq_clctCnt (s : State) (ctx queue : Nat) (f : LQueue → LQueue) : (s.modLq ctx queue f).clctCnt = s.clctCnt := rfl
@[simp] theorem State.modLq_repAddrs (s : State) (ctx queue : Nat) (f : LQueue → LQueue) : (s.modLq ctx queue f).repAddrs = s.repAddrs := rfl
@[simp] theorem State.modLq_foldTurn (s : State) (ctx queue : Nat) (f : LQueue → LQueue) : (s.modLq ctx queue f).foldTurn = s.foldTurn := rfl
@[simp] theorem State.modLq_ext (s : State) (ctx queue : Nat) (f : LQueue → LQueue) : (s.modLq ctx queue f).ext = s.ext := rfl
@[simp] theorem State.modLq_freeIx (s : State) (ctx queue : Nat) (f : LQueue → LQueue) : (s.modLq ctx queue f).freeIx = s.freeIx := rfl
@[simp] theorem State.modLq_rota (s : State) (ctx queue : Nat) (f : LQueue → LQueue) : (s.modLq ctx queue f).rota = s.rota := rfl

/-! ### `State.setHandle` -/

@[simp] theorem State.setHandle_tick (s : State) (col h : Nat) (w : DWord) : (s.setHandle col h w).tick = s.tick := rfl
@[simp] theorem State.setHandle_agenda (s : State) (col h : Nat) (w : DWord) : (s.setHandle col h w).agenda = s.agenda := rfl
@[simp] theorem State.setHandle_run (s : State) (col h : Nat) (w : DWord) : (s.setHandle col h w).run = s.run := rfl
@[simp] theorem State.setHandle_boot (s : State) (col h : Nat) (w : DWord) : (s.setHandle col h w).boot = s.boot := rfl
@[simp] theorem State.setHandle_evq (s : State) (col h : Nat) (w : DWord) : (s.setHandle col h w).evq = s.evq := rfl
@[simp] theorem State.setHandle_tabs (s : State) (col h : Nat) (w : DWord) : (s.setHandle col h w).tabs = s.tabs := rfl
@[simp] theorem State.setHandle_pw (s : State) (col h : Nat) (w : DWord) : (s.setHandle col h w).pw = s.pw := rfl
@[simp] theorem State.setHandle_sch (s : State) (col h : Nat) (w : DWord) : (s.setHandle col h w).sch = s.sch := rfl
@[simp] theorem State.setHandle_recov (s : State) (col h : Nat) (w : DWord) : (s.setHandle col h w).recov = s.recov := rfl
@[simp] theorem State.setHandle_cols (s : State) (col h : Nat) (w : DWord) : (s.setHandle col h w).cols = s.cols := rfl
@[simp] theorem State.setHandle_cores (s : State) (col h : Nat) (w : DWord) : (s.setHandle col h w).cores = s.cores := rfl
@[simp] theorem State.setHandle_mem (s : State) (col h : Nat) (w : DWord) : (s.setHandle col h w).mem = s.mem := rfl
@[simp] theorem State.setHandle_pois (s : State) (col h : Nat) (w : DWord) : (s.setHandle col h w).pois = s.pois := rfl
@[simp] theorem State.setHandle_dirty (s : State) (col h : Nat) (w : DWord) : (s.setHandle col h w).dirty = s.dirty := rfl
@[simp] theorem State.setHandle_upsets (s : State) (col h : Nat) (w : DWord) : (s.setHandle col h w).upsets = s.upsets := rfl
@[simp] theorem State.setHandle_modes (s : State) (col h : Nat) (w : DWord) : (s.setHandle col h w).modes = s.modes := rfl
@[simp] theorem State.setHandle_vault (s : State) (col h : Nat) (w : DWord) : (s.setHandle col h w).vault = s.vault := rfl
@[simp] theorem State.setHandle_spad (s : State) (col h : Nat) (w : DWord) : (s.setHandle col h w).spad = s.spad := rfl
@[simp] theorem State.setHandle_spadP (s : State) (col h : Nat) (w : DWord) : (s.setHandle col h w).spadP = s.spadP := rfl
@[simp] theorem State.setHandle_spadUp (s : State) (col h : Nat) (w : DWord) : (s.setHandle col h w).spadUp = s.spadUp := rfl
@[simp] theorem State.setHandle_acc (s : State) (col h : Nat) (w : DWord) : (s.setHandle col h w).acc = s.acc := rfl
@[simp] theorem State.setHandle_accP (s : State) (col h : Nat) (w : DWord) : (s.setHandle col h w).accP = s.accP := rfl
@[simp] theorem State.setHandle_imgPois (s : State) (col h : Nat) (w : DWord) : (s.setHandle col h w).imgPois = s.imgPois := rfl
@[simp] theorem State.setHandle_replicas (s : State) (col h : Nat) (w : DWord) : (s.setHandle col h w).replicas = s.replicas := rfl
@[simp] theorem State.setHandle_faults (s : State) (col h : Nat) (w : DWord) : (s.setHandle col h w).faults = s.faults := rfl
@[simp] theorem State.setHandle_net (s : State) (col h : Nat) (w : DWord) : (s.setHandle col h w).net = s.net := rfl
@[simp] theorem State.setHandle_ops (s : State) (col h : Nat) (w : DWord) : (s.setHandle col h w).ops = s.ops := rfl
@[simp] theorem State.setHandle_nextOp (s : State) (col h : Nat) (w : DWord) : (s.setHandle col h w).nextOp = s.nextOp := rfl
@[simp] theorem State.setHandle_nextTag (s : State) (col h : Nat) (w : DWord) : (s.setHandle col h w).nextTag = s.nextTag := rfl
@[simp] theorem State.setHandle_seqNo (s : State) (col h : Nat) (w : DWord) : (s.setHandle col h w).seqNo = s.seqNo := rfl
@[simp] theorem State.setHandle_mintq (s : State) (col h : Nat) (w : DWord) : (s.setHandle col h w).mintq = s.mintq := rfl
@[simp] theorem State.setHandle_compq (s : State) (col h : Nat) (w : DWord) : (s.setHandle col h w).compq = s.compq := rfl
@[simp] theorem State.setHandle_handles (s : State) (col h : Nat) (w : DWord) :
    (s.setHandle col h w).handles = tabSet s.handles (handleKey col h) w := rfl
@[simp] theorem State.setHandle_clctCnt (s : State) (col h : Nat) (w : DWord) : (s.setHandle col h w).clctCnt = s.clctCnt := rfl
@[simp] theorem State.setHandle_repAddrs (s : State) (col h : Nat) (w : DWord) : (s.setHandle col h w).repAddrs = s.repAddrs := rfl
@[simp] theorem State.setHandle_foldTurn (s : State) (col h : Nat) (w : DWord) : (s.setHandle col h w).foldTurn = s.foldTurn := rfl
@[simp] theorem State.setHandle_ext (s : State) (col h : Nat) (w : DWord) : (s.setHandle col h w).ext = s.ext := rfl
@[simp] theorem State.setHandle_freeIx (s : State) (col h : Nat) (w : DWord) : (s.setHandle col h w).freeIx = s.freeIx := rfl
@[simp] theorem State.setHandle_rota (s : State) (col h : Nat) (w : DWord) : (s.setHandle col h w).rota = s.rota := rfl

/-! ### `State.take` -/

@[simp] theorem State.take_tick (s : State) (p : Packet) : (s.take p).tick = s.tick := rfl
@[simp] theorem State.take_agenda (s : State) (p : Packet) : (s.take p).agenda = s.agenda := rfl
@[simp] theorem State.take_run (s : State) (p : Packet) : (s.take p).run = s.run := rfl
@[simp] theorem State.take_boot (s : State) (p : Packet) : (s.take p).boot = s.boot := rfl
@[simp] theorem State.take_evq (s : State) (p : Packet) : (s.take p).evq = s.evq := rfl
@[simp] theorem State.take_tabs (s : State) (p : Packet) : (s.take p).tabs = s.tabs := rfl
@[simp] theorem State.take_pw (s : State) (p : Packet) : (s.take p).pw = s.pw := rfl
@[simp] theorem State.take_sch (s : State) (p : Packet) : (s.take p).sch = s.sch := rfl
@[simp] theorem State.take_recov (s : State) (p : Packet) : (s.take p).recov = s.recov := rfl
@[simp] theorem State.take_cols (s : State) (p : Packet) : (s.take p).cols = s.cols := rfl
@[simp] theorem State.take_cores (s : State) (p : Packet) : (s.take p).cores = s.cores := rfl
@[simp] theorem State.take_mem (s : State) (p : Packet) : (s.take p).mem = s.mem := rfl
@[simp] theorem State.take_pois (s : State) (p : Packet) : (s.take p).pois = s.pois := rfl
@[simp] theorem State.take_dirty (s : State) (p : Packet) : (s.take p).dirty = s.dirty := rfl
@[simp] theorem State.take_upsets (s : State) (p : Packet) : (s.take p).upsets = s.upsets := rfl
@[simp] theorem State.take_modes (s : State) (p : Packet) : (s.take p).modes = s.modes := rfl
@[simp] theorem State.take_vault (s : State) (p : Packet) : (s.take p).vault = s.vault := rfl
@[simp] theorem State.take_spad (s : State) (p : Packet) : (s.take p).spad = s.spad := rfl
@[simp] theorem State.take_spadP (s : State) (p : Packet) : (s.take p).spadP = s.spadP := rfl
@[simp] theorem State.take_spadUp (s : State) (p : Packet) : (s.take p).spadUp = s.spadUp := rfl
@[simp] theorem State.take_acc (s : State) (p : Packet) : (s.take p).acc = s.acc := rfl
@[simp] theorem State.take_accP (s : State) (p : Packet) : (s.take p).accP = s.accP := rfl
@[simp] theorem State.take_imgPois (s : State) (p : Packet) : (s.take p).imgPois = s.imgPois := rfl
@[simp] theorem State.take_replicas (s : State) (p : Packet) : (s.take p).replicas = s.replicas := rfl
@[simp] theorem State.take_faults (s : State) (p : Packet) : (s.take p).faults = s.faults := rfl
@[simp] theorem State.take_net (s : State) (p : Packet) : (s.take p).net = s.net.erase p := rfl
@[simp] theorem State.take_ops (s : State) (p : Packet) : (s.take p).ops = s.ops := rfl
@[simp] theorem State.take_nextOp (s : State) (p : Packet) : (s.take p).nextOp = s.nextOp := rfl
@[simp] theorem State.take_nextTag (s : State) (p : Packet) : (s.take p).nextTag = s.nextTag := rfl
@[simp] theorem State.take_seqNo (s : State) (p : Packet) : (s.take p).seqNo = s.seqNo := rfl
@[simp] theorem State.take_mintq (s : State) (p : Packet) : (s.take p).mintq = s.mintq := rfl
@[simp] theorem State.take_compq (s : State) (p : Packet) : (s.take p).compq = s.compq := rfl
@[simp] theorem State.take_handles (s : State) (p : Packet) : (s.take p).handles = s.handles := rfl
@[simp] theorem State.take_clctCnt (s : State) (p : Packet) : (s.take p).clctCnt = s.clctCnt := rfl
@[simp] theorem State.take_repAddrs (s : State) (p : Packet) : (s.take p).repAddrs = s.repAddrs := rfl
@[simp] theorem State.take_foldTurn (s : State) (p : Packet) : (s.take p).foldTurn = s.foldTurn := rfl
@[simp] theorem State.take_ext (s : State) (p : Packet) : (s.take p).ext = s.ext := rfl
@[simp] theorem State.take_freeIx (s : State) (p : Packet) : (s.take p).freeIx = s.freeIx := rfl
@[simp] theorem State.take_rota (s : State) (p : Packet) : (s.take p).rota = s.rota := rfl

/-! ### `State.reply` -/

@[simp] theorem State.reply_tick (s : State) (r : HostReply) : (s.reply r).tick = s.tick := rfl
@[simp] theorem State.reply_agenda (s : State) (r : HostReply) : (s.reply r).agenda = s.agenda := rfl
@[simp] theorem State.reply_run (s : State) (r : HostReply) : (s.reply r).run = s.run := rfl
@[simp] theorem State.reply_boot (s : State) (r : HostReply) : (s.reply r).boot = { s.boot with replies := s.boot.replies ++ [r] } := rfl
@[simp] theorem State.reply_evq (s : State) (r : HostReply) : (s.reply r).evq = s.evq := rfl
@[simp] theorem State.reply_tabs (s : State) (r : HostReply) : (s.reply r).tabs = s.tabs := rfl
@[simp] theorem State.reply_pw (s : State) (r : HostReply) : (s.reply r).pw = s.pw := rfl
@[simp] theorem State.reply_sch (s : State) (r : HostReply) : (s.reply r).sch = s.sch := rfl
@[simp] theorem State.reply_recov (s : State) (r : HostReply) : (s.reply r).recov = s.recov := rfl
@[simp] theorem State.reply_cols (s : State) (r : HostReply) : (s.reply r).cols = s.cols := rfl
@[simp] theorem State.reply_cores (s : State) (r : HostReply) : (s.reply r).cores = s.cores := rfl
@[simp] theorem State.reply_mem (s : State) (r : HostReply) : (s.reply r).mem = s.mem := rfl
@[simp] theorem State.reply_pois (s : State) (r : HostReply) : (s.reply r).pois = s.pois := rfl
@[simp] theorem State.reply_dirty (s : State) (r : HostReply) : (s.reply r).dirty = s.dirty := rfl
@[simp] theorem State.reply_upsets (s : State) (r : HostReply) : (s.reply r).upsets = s.upsets := rfl
@[simp] theorem State.reply_modes (s : State) (r : HostReply) : (s.reply r).modes = s.modes := rfl
@[simp] theorem State.reply_vault (s : State) (r : HostReply) : (s.reply r).vault = s.vault := rfl
@[simp] theorem State.reply_spad (s : State) (r : HostReply) : (s.reply r).spad = s.spad := rfl
@[simp] theorem State.reply_spadP (s : State) (r : HostReply) : (s.reply r).spadP = s.spadP := rfl
@[simp] theorem State.reply_spadUp (s : State) (r : HostReply) : (s.reply r).spadUp = s.spadUp := rfl
@[simp] theorem State.reply_acc (s : State) (r : HostReply) : (s.reply r).acc = s.acc := rfl
@[simp] theorem State.reply_accP (s : State) (r : HostReply) : (s.reply r).accP = s.accP := rfl
@[simp] theorem State.reply_imgPois (s : State) (r : HostReply) : (s.reply r).imgPois = s.imgPois := rfl
@[simp] theorem State.reply_replicas (s : State) (r : HostReply) : (s.reply r).replicas = s.replicas := rfl
@[simp] theorem State.reply_faults (s : State) (r : HostReply) : (s.reply r).faults = s.faults := rfl
@[simp] theorem State.reply_net (s : State) (r : HostReply) : (s.reply r).net = s.net := rfl
@[simp] theorem State.reply_ops (s : State) (r : HostReply) : (s.reply r).ops = s.ops := rfl
@[simp] theorem State.reply_nextOp (s : State) (r : HostReply) : (s.reply r).nextOp = s.nextOp := rfl
@[simp] theorem State.reply_nextTag (s : State) (r : HostReply) : (s.reply r).nextTag = s.nextTag := rfl
@[simp] theorem State.reply_seqNo (s : State) (r : HostReply) : (s.reply r).seqNo = s.seqNo := rfl
@[simp] theorem State.reply_mintq (s : State) (r : HostReply) : (s.reply r).mintq = s.mintq := rfl
@[simp] theorem State.reply_compq (s : State) (r : HostReply) : (s.reply r).compq = s.compq := rfl
@[simp] theorem State.reply_handles (s : State) (r : HostReply) : (s.reply r).handles = s.handles := rfl
@[simp] theorem State.reply_clctCnt (s : State) (r : HostReply) : (s.reply r).clctCnt = s.clctCnt := rfl
@[simp] theorem State.reply_repAddrs (s : State) (r : HostReply) : (s.reply r).repAddrs = s.repAddrs := rfl
@[simp] theorem State.reply_foldTurn (s : State) (r : HostReply) : (s.reply r).foldTurn = s.foldTurn := rfl
@[simp] theorem State.reply_ext (s : State) (r : HostReply) : (s.reply r).ext = s.ext := rfl
@[simp] theorem State.reply_freeIx (s : State) (r : HostReply) : (s.reply r).freeIx = s.freeIx := rfl
@[simp] theorem State.reply_rota (s : State) (r : HostReply) : (s.reply r).rota = s.rota := rfl

/-! ### `State.answer` -/

@[simp] theorem State.answer_tick (s : State) (r : SpdmReply) : (s.answer r).tick = s.tick := rfl
@[simp] theorem State.answer_agenda (s : State) (r : SpdmReply) : (s.answer r).agenda = s.agenda := rfl
@[simp] theorem State.answer_run (s : State) (r : SpdmReply) : (s.answer r).run = s.run := rfl
@[simp] theorem State.answer_boot (s : State) (r : SpdmReply) : (s.answer r).boot = { s.boot with spdm := s.boot.spdm ++ [r] } := rfl
@[simp] theorem State.answer_evq (s : State) (r : SpdmReply) : (s.answer r).evq = s.evq := rfl
@[simp] theorem State.answer_tabs (s : State) (r : SpdmReply) : (s.answer r).tabs = s.tabs := rfl
@[simp] theorem State.answer_pw (s : State) (r : SpdmReply) : (s.answer r).pw = s.pw := rfl
@[simp] theorem State.answer_sch (s : State) (r : SpdmReply) : (s.answer r).sch = s.sch := rfl
@[simp] theorem State.answer_recov (s : State) (r : SpdmReply) : (s.answer r).recov = s.recov := rfl
@[simp] theorem State.answer_cols (s : State) (r : SpdmReply) : (s.answer r).cols = s.cols := rfl
@[simp] theorem State.answer_cores (s : State) (r : SpdmReply) : (s.answer r).cores = s.cores := rfl
@[simp] theorem State.answer_mem (s : State) (r : SpdmReply) : (s.answer r).mem = s.mem := rfl
@[simp] theorem State.answer_pois (s : State) (r : SpdmReply) : (s.answer r).pois = s.pois := rfl
@[simp] theorem State.answer_dirty (s : State) (r : SpdmReply) : (s.answer r).dirty = s.dirty := rfl
@[simp] theorem State.answer_upsets (s : State) (r : SpdmReply) : (s.answer r).upsets = s.upsets := rfl
@[simp] theorem State.answer_modes (s : State) (r : SpdmReply) : (s.answer r).modes = s.modes := rfl
@[simp] theorem State.answer_vault (s : State) (r : SpdmReply) : (s.answer r).vault = s.vault := rfl
@[simp] theorem State.answer_spad (s : State) (r : SpdmReply) : (s.answer r).spad = s.spad := rfl
@[simp] theorem State.answer_spadP (s : State) (r : SpdmReply) : (s.answer r).spadP = s.spadP := rfl
@[simp] theorem State.answer_spadUp (s : State) (r : SpdmReply) : (s.answer r).spadUp = s.spadUp := rfl
@[simp] theorem State.answer_acc (s : State) (r : SpdmReply) : (s.answer r).acc = s.acc := rfl
@[simp] theorem State.answer_accP (s : State) (r : SpdmReply) : (s.answer r).accP = s.accP := rfl
@[simp] theorem State.answer_imgPois (s : State) (r : SpdmReply) : (s.answer r).imgPois = s.imgPois := rfl
@[simp] theorem State.answer_replicas (s : State) (r : SpdmReply) : (s.answer r).replicas = s.replicas := rfl
@[simp] theorem State.answer_faults (s : State) (r : SpdmReply) : (s.answer r).faults = s.faults := rfl
@[simp] theorem State.answer_net (s : State) (r : SpdmReply) : (s.answer r).net = s.net := rfl
@[simp] theorem State.answer_ops (s : State) (r : SpdmReply) : (s.answer r).ops = s.ops := rfl
@[simp] theorem State.answer_nextOp (s : State) (r : SpdmReply) : (s.answer r).nextOp = s.nextOp := rfl
@[simp] theorem State.answer_nextTag (s : State) (r : SpdmReply) : (s.answer r).nextTag = s.nextTag := rfl
@[simp] theorem State.answer_seqNo (s : State) (r : SpdmReply) : (s.answer r).seqNo = s.seqNo := rfl
@[simp] theorem State.answer_mintq (s : State) (r : SpdmReply) : (s.answer r).mintq = s.mintq := rfl
@[simp] theorem State.answer_compq (s : State) (r : SpdmReply) : (s.answer r).compq = s.compq := rfl
@[simp] theorem State.answer_handles (s : State) (r : SpdmReply) : (s.answer r).handles = s.handles := rfl
@[simp] theorem State.answer_clctCnt (s : State) (r : SpdmReply) : (s.answer r).clctCnt = s.clctCnt := rfl
@[simp] theorem State.answer_repAddrs (s : State) (r : SpdmReply) : (s.answer r).repAddrs = s.repAddrs := rfl
@[simp] theorem State.answer_foldTurn (s : State) (r : SpdmReply) : (s.answer r).foldTurn = s.foldTurn := rfl
@[simp] theorem State.answer_ext (s : State) (r : SpdmReply) : (s.answer r).ext = s.ext := rfl
@[simp] theorem State.answer_freeIx (s : State) (r : SpdmReply) : (s.answer r).freeIx = s.freeIx := rfl
@[simp] theorem State.answer_rota (s : State) (r : SpdmReply) : (s.answer r).rota = s.rota := rfl

/-! ### `State.putByte` -/

@[simp] theorem State.putByte_tick (s : State) (p : Place) (b : Byte) : (s.putByte p b).tick = s.tick := rfl
@[simp] theorem State.putByte_agenda (s : State) (p : Place) (b : Byte) : (s.putByte p b).agenda = s.agenda := rfl
@[simp] theorem State.putByte_run (s : State) (p : Place) (b : Byte) : (s.putByte p b).run = s.run := rfl
@[simp] theorem State.putByte_boot (s : State) (p : Place) (b : Byte) : (s.putByte p b).boot = s.boot := rfl
@[simp] theorem State.putByte_evq (s : State) (p : Place) (b : Byte) : (s.putByte p b).evq = s.evq := rfl
@[simp] theorem State.putByte_tabs (s : State) (p : Place) (b : Byte) : (s.putByte p b).tabs = s.tabs := rfl
@[simp] theorem State.putByte_pw (s : State) (p : Place) (b : Byte) : (s.putByte p b).pw = s.pw := rfl
@[simp] theorem State.putByte_sch (s : State) (p : Place) (b : Byte) : (s.putByte p b).sch = s.sch := rfl
@[simp] theorem State.putByte_recov (s : State) (p : Place) (b : Byte) : (s.putByte p b).recov = s.recov := rfl
@[simp] theorem State.putByte_cols (s : State) (p : Place) (b : Byte) : (s.putByte p b).cols = s.cols := rfl
@[simp] theorem State.putByte_cores (s : State) (p : Place) (b : Byte) : (s.putByte p b).cores = s.cores := rfl
@[simp] theorem State.putByte_mem (s : State) (p : Place) (b : Byte) : (s.putByte p b).mem = Memory.write s.mem p.addr b := rfl
@[simp] theorem State.putByte_pois (s : State) (p : Place) (b : Byte) : (s.putByte p b).pois = s.pois := rfl
@[simp] theorem State.putByte_dirty (s : State) (p : Place) (b : Byte) : (s.putByte p b).dirty = tabSet s.dirty p.line true := rfl
@[simp] theorem State.putByte_upsets (s : State) (p : Place) (b : Byte) : (s.putByte p b).upsets = s.upsets := rfl
@[simp] theorem State.putByte_modes (s : State) (p : Place) (b : Byte) : (s.putByte p b).modes = s.modes := rfl
@[simp] theorem State.putByte_vault (s : State) (p : Place) (b : Byte) : (s.putByte p b).vault = s.vault := rfl
@[simp] theorem State.putByte_spad (s : State) (p : Place) (b : Byte) : (s.putByte p b).spad = s.spad := rfl
@[simp] theorem State.putByte_spadP (s : State) (p : Place) (b : Byte) : (s.putByte p b).spadP = s.spadP := rfl
@[simp] theorem State.putByte_spadUp (s : State) (p : Place) (b : Byte) : (s.putByte p b).spadUp = s.spadUp := rfl
@[simp] theorem State.putByte_acc (s : State) (p : Place) (b : Byte) : (s.putByte p b).acc = s.acc := rfl
@[simp] theorem State.putByte_accP (s : State) (p : Place) (b : Byte) : (s.putByte p b).accP = s.accP := rfl
@[simp] theorem State.putByte_imgPois (s : State) (p : Place) (b : Byte) : (s.putByte p b).imgPois = s.imgPois := rfl
@[simp] theorem State.putByte_replicas (s : State) (p : Place) (b : Byte) : (s.putByte p b).replicas = s.replicas := rfl
@[simp] theorem State.putByte_faults (s : State) (p : Place) (b : Byte) : (s.putByte p b).faults = s.faults := rfl
@[simp] theorem State.putByte_net (s : State) (p : Place) (b : Byte) : (s.putByte p b).net = s.net := rfl
@[simp] theorem State.putByte_ops (s : State) (p : Place) (b : Byte) : (s.putByte p b).ops = s.ops := rfl
@[simp] theorem State.putByte_nextOp (s : State) (p : Place) (b : Byte) : (s.putByte p b).nextOp = s.nextOp := rfl
@[simp] theorem State.putByte_nextTag (s : State) (p : Place) (b : Byte) : (s.putByte p b).nextTag = s.nextTag := rfl
@[simp] theorem State.putByte_seqNo (s : State) (p : Place) (b : Byte) : (s.putByte p b).seqNo = s.seqNo := rfl
@[simp] theorem State.putByte_mintq (s : State) (p : Place) (b : Byte) : (s.putByte p b).mintq = s.mintq := rfl
@[simp] theorem State.putByte_compq (s : State) (p : Place) (b : Byte) : (s.putByte p b).compq = s.compq := rfl
@[simp] theorem State.putByte_handles (s : State) (p : Place) (b : Byte) : (s.putByte p b).handles = s.handles := rfl
@[simp] theorem State.putByte_clctCnt (s : State) (p : Place) (b : Byte) : (s.putByte p b).clctCnt = s.clctCnt := rfl
@[simp] theorem State.putByte_repAddrs (s : State) (p : Place) (b : Byte) : (s.putByte p b).repAddrs = s.repAddrs := rfl
@[simp] theorem State.putByte_foldTurn (s : State) (p : Place) (b : Byte) : (s.putByte p b).foldTurn = s.foldTurn := rfl
@[simp] theorem State.putByte_ext (s : State) (p : Place) (b : Byte) : (s.putByte p b).ext = s.ext := rfl
@[simp] theorem State.putByte_freeIx (s : State) (p : Place) (b : Byte) : (s.putByte p b).freeIx = s.freeIx := rfl
@[simp] theorem State.putByte_rota (s : State) (p : Place) (b : Byte) : (s.putByte p b).rota = s.rota := rfl

/-! ### `State.spadSet` -/

@[simp] theorem State.spadSet_tick (s : State) (core a : Nat) (w : Word) (q : Bool) : (s.spadSet core a w q).tick = s.tick := rfl
@[simp] theorem State.spadSet_agenda (s : State) (core a : Nat) (w : Word) (q : Bool) : (s.spadSet core a w q).agenda = s.agenda := rfl
@[simp] theorem State.spadSet_run (s : State) (core a : Nat) (w : Word) (q : Bool) : (s.spadSet core a w q).run = s.run := rfl
@[simp] theorem State.spadSet_boot (s : State) (core a : Nat) (w : Word) (q : Bool) : (s.spadSet core a w q).boot = s.boot := rfl
@[simp] theorem State.spadSet_evq (s : State) (core a : Nat) (w : Word) (q : Bool) : (s.spadSet core a w q).evq = s.evq := rfl
@[simp] theorem State.spadSet_tabs (s : State) (core a : Nat) (w : Word) (q : Bool) : (s.spadSet core a w q).tabs = s.tabs := rfl
@[simp] theorem State.spadSet_pw (s : State) (core a : Nat) (w : Word) (q : Bool) : (s.spadSet core a w q).pw = s.pw := rfl
@[simp] theorem State.spadSet_sch (s : State) (core a : Nat) (w : Word) (q : Bool) : (s.spadSet core a w q).sch = s.sch := rfl
@[simp] theorem State.spadSet_recov (s : State) (core a : Nat) (w : Word) (q : Bool) : (s.spadSet core a w q).recov = s.recov := rfl
@[simp] theorem State.spadSet_cols (s : State) (core a : Nat) (w : Word) (q : Bool) : (s.spadSet core a w q).cols = s.cols := rfl
@[simp] theorem State.spadSet_cores (s : State) (core a : Nat) (w : Word) (q : Bool) : (s.spadSet core a w q).cores = s.cores := rfl
@[simp] theorem State.spadSet_mem (s : State) (core a : Nat) (w : Word) (q : Bool) : (s.spadSet core a w q).mem = s.mem := rfl
@[simp] theorem State.spadSet_pois (s : State) (core a : Nat) (w : Word) (q : Bool) : (s.spadSet core a w q).pois = s.pois := rfl
@[simp] theorem State.spadSet_dirty (s : State) (core a : Nat) (w : Word) (q : Bool) : (s.spadSet core a w q).dirty = s.dirty := rfl
@[simp] theorem State.spadSet_upsets (s : State) (core a : Nat) (w : Word) (q : Bool) : (s.spadSet core a w q).upsets = s.upsets := rfl
@[simp] theorem State.spadSet_modes (s : State) (core a : Nat) (w : Word) (q : Bool) : (s.spadSet core a w q).modes = s.modes := rfl
@[simp] theorem State.spadSet_vault (s : State) (core a : Nat) (w : Word) (q : Bool) : (s.spadSet core a w q).vault = s.vault := rfl
@[simp] theorem State.spadSet_spad (s : State) (core a : Nat) (w : Word) (q : Bool) :
    (s.spadSet core a w q).spad = tabSet s.spad (spadKey core a) w := rfl
@[simp] theorem State.spadSet_spadP (s : State) (core a : Nat) (w : Word) (q : Bool) :
    (s.spadSet core a w q).spadP = tabSet s.spadP (spadKey core a) q := rfl
@[simp] theorem State.spadSet_spadUp (s : State) (core a : Nat) (w : Word) (q : Bool) : (s.spadSet core a w q).spadUp = s.spadUp := rfl
@[simp] theorem State.spadSet_acc (s : State) (core a : Nat) (w : Word) (q : Bool) : (s.spadSet core a w q).acc = s.acc := rfl
@[simp] theorem State.spadSet_accP (s : State) (core a : Nat) (w : Word) (q : Bool) : (s.spadSet core a w q).accP = s.accP := rfl
@[simp] theorem State.spadSet_imgPois (s : State) (core a : Nat) (w : Word) (q : Bool) : (s.spadSet core a w q).imgPois = s.imgPois := rfl
@[simp] theorem State.spadSet_replicas (s : State) (core a : Nat) (w : Word) (q : Bool) : (s.spadSet core a w q).replicas = s.replicas := rfl
@[simp] theorem State.spadSet_faults (s : State) (core a : Nat) (w : Word) (q : Bool) : (s.spadSet core a w q).faults = s.faults := rfl
@[simp] theorem State.spadSet_net (s : State) (core a : Nat) (w : Word) (q : Bool) : (s.spadSet core a w q).net = s.net := rfl
@[simp] theorem State.spadSet_ops (s : State) (core a : Nat) (w : Word) (q : Bool) : (s.spadSet core a w q).ops = s.ops := rfl
@[simp] theorem State.spadSet_nextOp (s : State) (core a : Nat) (w : Word) (q : Bool) : (s.spadSet core a w q).nextOp = s.nextOp := rfl
@[simp] theorem State.spadSet_nextTag (s : State) (core a : Nat) (w : Word) (q : Bool) : (s.spadSet core a w q).nextTag = s.nextTag := rfl
@[simp] theorem State.spadSet_seqNo (s : State) (core a : Nat) (w : Word) (q : Bool) : (s.spadSet core a w q).seqNo = s.seqNo := rfl
@[simp] theorem State.spadSet_mintq (s : State) (core a : Nat) (w : Word) (q : Bool) : (s.spadSet core a w q).mintq = s.mintq := rfl
@[simp] theorem State.spadSet_compq (s : State) (core a : Nat) (w : Word) (q : Bool) : (s.spadSet core a w q).compq = s.compq := rfl
@[simp] theorem State.spadSet_handles (s : State) (core a : Nat) (w : Word) (q : Bool) : (s.spadSet core a w q).handles = s.handles := rfl
@[simp] theorem State.spadSet_clctCnt (s : State) (core a : Nat) (w : Word) (q : Bool) : (s.spadSet core a w q).clctCnt = s.clctCnt := rfl
@[simp] theorem State.spadSet_repAddrs (s : State) (core a : Nat) (w : Word) (q : Bool) : (s.spadSet core a w q).repAddrs = s.repAddrs := rfl
@[simp] theorem State.spadSet_foldTurn (s : State) (core a : Nat) (w : Word) (q : Bool) : (s.spadSet core a w q).foldTurn = s.foldTurn := rfl
@[simp] theorem State.spadSet_ext (s : State) (core a : Nat) (w : Word) (q : Bool) : (s.spadSet core a w q).ext = s.ext := rfl
@[simp] theorem State.spadSet_freeIx (s : State) (core a : Nat) (w : Word) (q : Bool) : (s.spadSet core a w q).freeIx = s.freeIx := rfl
@[simp] theorem State.spadSet_rota (s : State) (core a : Nat) (w : Word) (q : Bool) : (s.spadSet core a w q).rota = s.rota := rfl

/-! ### `State.accSet` -/

@[simp] theorem State.accSet_tick (s : State) (g core a i n : Nat) (w : Word) (q : Bool) : (s.accSet g core a i n w q).tick = s.tick := rfl
@[simp] theorem State.accSet_agenda (s : State) (g core a i n : Nat) (w : Word) (q : Bool) : (s.accSet g core a i n w q).agenda = s.agenda := rfl
@[simp] theorem State.accSet_run (s : State) (g core a i n : Nat) (w : Word) (q : Bool) : (s.accSet g core a i n w q).run = s.run := rfl
@[simp] theorem State.accSet_boot (s : State) (g core a i n : Nat) (w : Word) (q : Bool) : (s.accSet g core a i n w q).boot = s.boot := rfl
@[simp] theorem State.accSet_evq (s : State) (g core a i n : Nat) (w : Word) (q : Bool) : (s.accSet g core a i n w q).evq = s.evq := rfl
@[simp] theorem State.accSet_tabs (s : State) (g core a i n : Nat) (w : Word) (q : Bool) : (s.accSet g core a i n w q).tabs = s.tabs := rfl
@[simp] theorem State.accSet_pw (s : State) (g core a i n : Nat) (w : Word) (q : Bool) : (s.accSet g core a i n w q).pw = s.pw := rfl
@[simp] theorem State.accSet_sch (s : State) (g core a i n : Nat) (w : Word) (q : Bool) : (s.accSet g core a i n w q).sch = s.sch := rfl
@[simp] theorem State.accSet_recov (s : State) (g core a i n : Nat) (w : Word) (q : Bool) : (s.accSet g core a i n w q).recov = s.recov := rfl
@[simp] theorem State.accSet_cols (s : State) (g core a i n : Nat) (w : Word) (q : Bool) : (s.accSet g core a i n w q).cols = s.cols := rfl
@[simp] theorem State.accSet_cores (s : State) (g core a i n : Nat) (w : Word) (q : Bool) : (s.accSet g core a i n w q).cores = s.cores := rfl
@[simp] theorem State.accSet_mem (s : State) (g core a i n : Nat) (w : Word) (q : Bool) : (s.accSet g core a i n w q).mem = s.mem := rfl
@[simp] theorem State.accSet_pois (s : State) (g core a i n : Nat) (w : Word) (q : Bool) : (s.accSet g core a i n w q).pois = s.pois := rfl
@[simp] theorem State.accSet_dirty (s : State) (g core a i n : Nat) (w : Word) (q : Bool) : (s.accSet g core a i n w q).dirty = s.dirty := rfl
@[simp] theorem State.accSet_upsets (s : State) (g core a i n : Nat) (w : Word) (q : Bool) : (s.accSet g core a i n w q).upsets = s.upsets := rfl
@[simp] theorem State.accSet_modes (s : State) (g core a i n : Nat) (w : Word) (q : Bool) : (s.accSet g core a i n w q).modes = s.modes := rfl
@[simp] theorem State.accSet_vault (s : State) (g core a i n : Nat) (w : Word) (q : Bool) : (s.accSet g core a i n w q).vault = s.vault := rfl
@[simp] theorem State.accSet_spad (s : State) (g core a i n : Nat) (w : Word) (q : Bool) : (s.accSet g core a i n w q).spad = s.spad := rfl
@[simp] theorem State.accSet_spadP (s : State) (g core a i n : Nat) (w : Word) (q : Bool) : (s.accSet g core a i n w q).spadP = s.spadP := rfl
@[simp] theorem State.accSet_spadUp (s : State) (g core a i n : Nat) (w : Word) (q : Bool) : (s.accSet g core a i n w q).spadUp = s.spadUp := rfl
@[simp] theorem State.accSet_acc (s : State) (g core a i n : Nat) (w : Word) (q : Bool) :
    (s.accSet g core a i n w q).acc = tabSet s.acc (accKey g core a i n) w := rfl
@[simp] theorem State.accSet_accP (s : State) (g core a i n : Nat) (w : Word) (q : Bool) :
    (s.accSet g core a i n w q).accP = tabSet s.accP (accKey g core a i n) q := rfl
@[simp] theorem State.accSet_imgPois (s : State) (g core a i n : Nat) (w : Word) (q : Bool) : (s.accSet g core a i n w q).imgPois = s.imgPois := rfl
@[simp] theorem State.accSet_replicas (s : State) (g core a i n : Nat) (w : Word) (q : Bool) :
    (s.accSet g core a i n w q).replicas = s.replicas := rfl
@[simp] theorem State.accSet_faults (s : State) (g core a i n : Nat) (w : Word) (q : Bool) : (s.accSet g core a i n w q).faults = s.faults := rfl
@[simp] theorem State.accSet_net (s : State) (g core a i n : Nat) (w : Word) (q : Bool) : (s.accSet g core a i n w q).net = s.net := rfl
@[simp] theorem State.accSet_ops (s : State) (g core a i n : Nat) (w : Word) (q : Bool) : (s.accSet g core a i n w q).ops = s.ops := rfl
@[simp] theorem State.accSet_nextOp (s : State) (g core a i n : Nat) (w : Word) (q : Bool) : (s.accSet g core a i n w q).nextOp = s.nextOp := rfl
@[simp] theorem State.accSet_nextTag (s : State) (g core a i n : Nat) (w : Word) (q : Bool) : (s.accSet g core a i n w q).nextTag = s.nextTag := rfl
@[simp] theorem State.accSet_seqNo (s : State) (g core a i n : Nat) (w : Word) (q : Bool) : (s.accSet g core a i n w q).seqNo = s.seqNo := rfl
@[simp] theorem State.accSet_mintq (s : State) (g core a i n : Nat) (w : Word) (q : Bool) : (s.accSet g core a i n w q).mintq = s.mintq := rfl
@[simp] theorem State.accSet_compq (s : State) (g core a i n : Nat) (w : Word) (q : Bool) : (s.accSet g core a i n w q).compq = s.compq := rfl
@[simp] theorem State.accSet_handles (s : State) (g core a i n : Nat) (w : Word) (q : Bool) : (s.accSet g core a i n w q).handles = s.handles := rfl
@[simp] theorem State.accSet_clctCnt (s : State) (g core a i n : Nat) (w : Word) (q : Bool) : (s.accSet g core a i n w q).clctCnt = s.clctCnt := rfl
@[simp] theorem State.accSet_repAddrs (s : State) (g core a i n : Nat) (w : Word) (q : Bool) :
    (s.accSet g core a i n w q).repAddrs = s.repAddrs := rfl
@[simp] theorem State.accSet_foldTurn (s : State) (g core a i n : Nat) (w : Word) (q : Bool) :
    (s.accSet g core a i n w q).foldTurn = s.foldTurn := rfl
@[simp] theorem State.accSet_ext (s : State) (g core a i n : Nat) (w : Word) (q : Bool) : (s.accSet g core a i n w q).ext = s.ext := rfl
@[simp] theorem State.accSet_freeIx (s : State) (g core a i n : Nat) (w : Word) (q : Bool) : (s.accSet g core a i n w q).freeIx = s.freeIx := rfl
@[simp] theorem State.accSet_rota (s : State) (g core a i n : Nat) (w : Word) (q : Bool) : (s.accSet g core a i n w q).rota = s.rota := rfl

/-! ### `State.setMint` -/

@[simp] theorem State.setMint_tick (s : State) (core : Nat) (m : MintOp) : (s.setMint core m).tick = s.tick := rfl
@[simp] theorem State.setMint_agenda (s : State) (core : Nat) (m : MintOp) : (s.setMint core m).agenda = s.agenda := rfl
@[simp] theorem State.setMint_run (s : State) (core : Nat) (m : MintOp) : (s.setMint core m).run = s.run := rfl
@[simp] theorem State.setMint_boot (s : State) (core : Nat) (m : MintOp) : (s.setMint core m).boot = s.boot := rfl
@[simp] theorem State.setMint_evq (s : State) (core : Nat) (m : MintOp) : (s.setMint core m).evq = s.evq := rfl
@[simp] theorem State.setMint_tabs (s : State) (core : Nat) (m : MintOp) : (s.setMint core m).tabs = s.tabs := rfl
@[simp] theorem State.setMint_pw (s : State) (core : Nat) (m : MintOp) : (s.setMint core m).pw = s.pw := rfl
@[simp] theorem State.setMint_sch (s : State) (core : Nat) (m : MintOp) : (s.setMint core m).sch = s.sch := rfl
@[simp] theorem State.setMint_recov (s : State) (core : Nat) (m : MintOp) : (s.setMint core m).recov = s.recov := rfl
@[simp] theorem State.setMint_cols (s : State) (core : Nat) (m : MintOp) : (s.setMint core m).cols = s.cols := rfl
@[simp] theorem State.setMint_cores (s : State) (core : Nat) (m : MintOp) : (s.setMint core m).cores = s.cores := rfl
@[simp] theorem State.setMint_mem (s : State) (core : Nat) (m : MintOp) : (s.setMint core m).mem = s.mem := rfl
@[simp] theorem State.setMint_pois (s : State) (core : Nat) (m : MintOp) : (s.setMint core m).pois = s.pois := rfl
@[simp] theorem State.setMint_dirty (s : State) (core : Nat) (m : MintOp) : (s.setMint core m).dirty = s.dirty := rfl
@[simp] theorem State.setMint_upsets (s : State) (core : Nat) (m : MintOp) : (s.setMint core m).upsets = s.upsets := rfl
@[simp] theorem State.setMint_modes (s : State) (core : Nat) (m : MintOp) : (s.setMint core m).modes = s.modes := rfl
@[simp] theorem State.setMint_vault (s : State) (core : Nat) (m : MintOp) : (s.setMint core m).vault = s.vault := rfl
@[simp] theorem State.setMint_spad (s : State) (core : Nat) (m : MintOp) : (s.setMint core m).spad = s.spad := rfl
@[simp] theorem State.setMint_spadP (s : State) (core : Nat) (m : MintOp) : (s.setMint core m).spadP = s.spadP := rfl
@[simp] theorem State.setMint_spadUp (s : State) (core : Nat) (m : MintOp) : (s.setMint core m).spadUp = s.spadUp := rfl
@[simp] theorem State.setMint_acc (s : State) (core : Nat) (m : MintOp) : (s.setMint core m).acc = s.acc := rfl
@[simp] theorem State.setMint_accP (s : State) (core : Nat) (m : MintOp) : (s.setMint core m).accP = s.accP := rfl
@[simp] theorem State.setMint_imgPois (s : State) (core : Nat) (m : MintOp) : (s.setMint core m).imgPois = s.imgPois := rfl
@[simp] theorem State.setMint_replicas (s : State) (core : Nat) (m : MintOp) : (s.setMint core m).replicas = s.replicas := rfl
@[simp] theorem State.setMint_faults (s : State) (core : Nat) (m : MintOp) : (s.setMint core m).faults = s.faults := rfl
@[simp] theorem State.setMint_net (s : State) (core : Nat) (m : MintOp) : (s.setMint core m).net = s.net := rfl
@[simp] theorem State.setMint_ops (s : State) (core : Nat) (m : MintOp) : (s.setMint core m).ops = s.ops := rfl
@[simp] theorem State.setMint_nextOp (s : State) (core : Nat) (m : MintOp) : (s.setMint core m).nextOp = s.nextOp := rfl
@[simp] theorem State.setMint_nextTag (s : State) (core : Nat) (m : MintOp) : (s.setMint core m).nextTag = s.nextTag := rfl
@[simp] theorem State.setMint_seqNo (s : State) (core : Nat) (m : MintOp) : (s.setMint core m).seqNo = s.seqNo := rfl
@[simp] theorem State.setMint_mintq (s : State) (core : Nat) (m : MintOp) :
    (s.setMint core m).mintq = tabMod s.mintq core fun q => q.map fun e => if e.id = m.id then m else e := rfl
@[simp] theorem State.setMint_compq (s : State) (core : Nat) (m : MintOp) : (s.setMint core m).compq = s.compq := rfl
@[simp] theorem State.setMint_handles (s : State) (core : Nat) (m : MintOp) : (s.setMint core m).handles = s.handles := rfl
@[simp] theorem State.setMint_clctCnt (s : State) (core : Nat) (m : MintOp) : (s.setMint core m).clctCnt = s.clctCnt := rfl
@[simp] theorem State.setMint_repAddrs (s : State) (core : Nat) (m : MintOp) : (s.setMint core m).repAddrs = s.repAddrs := rfl
@[simp] theorem State.setMint_foldTurn (s : State) (core : Nat) (m : MintOp) : (s.setMint core m).foldTurn = s.foldTurn := rfl
@[simp] theorem State.setMint_ext (s : State) (core : Nat) (m : MintOp) : (s.setMint core m).ext = s.ext := rfl
@[simp] theorem State.setMint_freeIx (s : State) (core : Nat) (m : MintOp) : (s.setMint core m).freeIx = s.freeIx := rfl
@[simp] theorem State.setMint_rota (s : State) (core : Nat) (m : MintOp) : (s.setMint core m).rota = s.rota := rfl

/-! ### `State.postEvent` -/

@[simp] theorem State.postEvent_tick (s : State) (kind src detail : Nat) :
    (s.postEvent kind src detail).tick = s.tick := by
  unfold State.postEvent; dsimp only; split <;> rfl
@[simp] theorem State.postEvent_agenda (s : State) (kind src detail : Nat) :
    (s.postEvent kind src detail).agenda = s.agenda := by
  unfold State.postEvent; dsimp only; split <;> rfl
@[simp] theorem State.postEvent_run (s : State) (kind src detail : Nat) :
    (s.postEvent kind src detail).run = s.run := by
  unfold State.postEvent; dsimp only; split <;> rfl
@[simp] theorem State.postEvent_tabs (s : State) (kind src detail : Nat) :
    (s.postEvent kind src detail).tabs = s.tabs := by
  unfold State.postEvent; dsimp only; split <;> rfl
@[simp] theorem State.postEvent_pw (s : State) (kind src detail : Nat) :
    (s.postEvent kind src detail).pw = s.pw := by
  unfold State.postEvent; dsimp only; split <;> rfl
@[simp] theorem State.postEvent_sch (s : State) (kind src detail : Nat) :
    (s.postEvent kind src detail).sch = s.sch := by
  unfold State.postEvent; dsimp only; split <;> rfl
@[simp] theorem State.postEvent_recov (s : State) (kind src detail : Nat) :
    (s.postEvent kind src detail).recov = s.recov := by
  unfold State.postEvent; dsimp only; split <;> rfl
@[simp] theorem State.postEvent_cols (s : State) (kind src detail : Nat) :
    (s.postEvent kind src detail).cols = s.cols := by
  unfold State.postEvent; dsimp only; split <;> rfl
@[simp] theorem State.postEvent_cores (s : State) (kind src detail : Nat) :
    (s.postEvent kind src detail).cores = s.cores := by
  unfold State.postEvent; dsimp only; split <;> rfl
@[simp] theorem State.postEvent_mem (s : State) (kind src detail : Nat) :
    (s.postEvent kind src detail).mem = s.mem := by
  unfold State.postEvent; dsimp only; split <;> rfl
@[simp] theorem State.postEvent_pois (s : State) (kind src detail : Nat) :
    (s.postEvent kind src detail).pois = s.pois := by
  unfold State.postEvent; dsimp only; split <;> rfl
@[simp] theorem State.postEvent_dirty (s : State) (kind src detail : Nat) :
    (s.postEvent kind src detail).dirty = s.dirty := by
  unfold State.postEvent; dsimp only; split <;> rfl
@[simp] theorem State.postEvent_upsets (s : State) (kind src detail : Nat) :
    (s.postEvent kind src detail).upsets = s.upsets := by
  unfold State.postEvent; dsimp only; split <;> rfl
@[simp] theorem State.postEvent_modes (s : State) (kind src detail : Nat) :
    (s.postEvent kind src detail).modes = s.modes := by
  unfold State.postEvent; dsimp only; split <;> rfl
@[simp] theorem State.postEvent_vault (s : State) (kind src detail : Nat) :
    (s.postEvent kind src detail).vault = s.vault := by
  unfold State.postEvent; dsimp only; split <;> rfl
@[simp] theorem State.postEvent_spad (s : State) (kind src detail : Nat) :
    (s.postEvent kind src detail).spad = s.spad := by
  unfold State.postEvent; dsimp only; split <;> rfl
@[simp] theorem State.postEvent_spadP (s : State) (kind src detail : Nat) :
    (s.postEvent kind src detail).spadP = s.spadP := by
  unfold State.postEvent; dsimp only; split <;> rfl
@[simp] theorem State.postEvent_spadUp (s : State) (kind src detail : Nat) :
    (s.postEvent kind src detail).spadUp = s.spadUp := by
  unfold State.postEvent; dsimp only; split <;> rfl
@[simp] theorem State.postEvent_acc (s : State) (kind src detail : Nat) :
    (s.postEvent kind src detail).acc = s.acc := by
  unfold State.postEvent; dsimp only; split <;> rfl
@[simp] theorem State.postEvent_accP (s : State) (kind src detail : Nat) :
    (s.postEvent kind src detail).accP = s.accP := by
  unfold State.postEvent; dsimp only; split <;> rfl
@[simp] theorem State.postEvent_imgPois (s : State) (kind src detail : Nat) :
    (s.postEvent kind src detail).imgPois = s.imgPois := by
  unfold State.postEvent; dsimp only; split <;> rfl
@[simp] theorem State.postEvent_replicas (s : State) (kind src detail : Nat) :
    (s.postEvent kind src detail).replicas = s.replicas := by
  unfold State.postEvent; dsimp only; split <;> rfl
@[simp] theorem State.postEvent_faults (s : State) (kind src detail : Nat) :
    (s.postEvent kind src detail).faults = s.faults := by
  unfold State.postEvent; dsimp only; split <;> rfl
@[simp] theorem State.postEvent_net (s : State) (kind src detail : Nat) :
    (s.postEvent kind src detail).net = s.net := by
  unfold State.postEvent; dsimp only; split <;> rfl
@[simp] theorem State.postEvent_ops (s : State) (kind src detail : Nat) :
    (s.postEvent kind src detail).ops = s.ops := by
  unfold State.postEvent; dsimp only; split <;> rfl
@[simp] theorem State.postEvent_nextOp (s : State) (kind src detail : Nat) :
    (s.postEvent kind src detail).nextOp = s.nextOp := by
  unfold State.postEvent; dsimp only; split <;> rfl
@[simp] theorem State.postEvent_nextTag (s : State) (kind src detail : Nat) :
    (s.postEvent kind src detail).nextTag = s.nextTag := by
  unfold State.postEvent; dsimp only; split <;> rfl
@[simp] theorem State.postEvent_seqNo (s : State) (kind src detail : Nat) :
    (s.postEvent kind src detail).seqNo = s.seqNo := by
  unfold State.postEvent; dsimp only; split <;> rfl
@[simp] theorem State.postEvent_mintq (s : State) (kind src detail : Nat) :
    (s.postEvent kind src detail).mintq = s.mintq := by
  unfold State.postEvent; dsimp only; split <;> rfl
@[simp] theorem State.postEvent_compq (s : State) (kind src detail : Nat) :
    (s.postEvent kind src detail).compq = s.compq := by
  unfold State.postEvent; dsimp only; split <;> rfl
@[simp] theorem State.postEvent_handles (s : State) (kind src detail : Nat) :
    (s.postEvent kind src detail).handles = s.handles := by
  unfold State.postEvent; dsimp only; split <;> rfl
@[simp] theorem State.postEvent_clctCnt (s : State) (kind src detail : Nat) :
    (s.postEvent kind src detail).clctCnt = s.clctCnt := by
  unfold State.postEvent; dsimp only; split <;> rfl
@[simp] theorem State.postEvent_repAddrs (s : State) (kind src detail : Nat) :
    (s.postEvent kind src detail).repAddrs = s.repAddrs := by
  unfold State.postEvent; dsimp only; split <;> rfl
@[simp] theorem State.postEvent_foldTurn (s : State) (kind src detail : Nat) :
    (s.postEvent kind src detail).foldTurn = s.foldTurn := by
  unfold State.postEvent; dsimp only; split <;> rfl
@[simp] theorem State.postEvent_ext (s : State) (kind src detail : Nat) :
    (s.postEvent kind src detail).ext = s.ext := by
  unfold State.postEvent; dsimp only; split <;> rfl
@[simp] theorem State.postEvent_freeIx (s : State) (kind src detail : Nat) :
    (s.postEvent kind src detail).freeIx = s.freeIx := by
  unfold State.postEvent; dsimp only; split <;> rfl
@[simp] theorem State.postEvent_rota (s : State) (kind src detail : Nat) :
    (s.postEvent kind src detail).rota = s.rota := by
  unfold State.postEvent; dsimp only; split <;> rfl

/-! ### `Column.setSlot` -/

@[simp] theorem Column.setSlot_group (c : Column) (k : Nat) (sp : Split) : (c.setSlot k sp).group = c.group := rfl
@[simp] theorem Column.setSlot_idx (c : Column) (k : Nat) (sp : Split) : (c.setSlot k sp).idx = c.idx := rfl
@[simp] theorem Column.setSlot_v (c : Column) (k : Nat) (sp : Split) : (c.setSlot k sp).v = c.v := rfl
@[simp] theorem Column.setSlot_vp (c : Column) (k : Nat) (sp : Split) : (c.setSlot k sp).vp = c.vp := rfl
@[simp] theorem Column.setSlot_s (c : Column) (k : Nat) (sp : Split) : (c.setSlot k sp).s = c.s := rfl
@[simp] theorem Column.setSlot_sp (c : Column) (k : Nat) (sp : Split) : (c.setSlot k sp).sp = c.sp := rfl
@[simp] theorem Column.setSlot_p (c : Column) (k : Nat) (sp : Split) : (c.setSlot k sp).p = c.p := rfl
@[simp] theorem Column.setSlot_pp (c : Column) (k : Nat) (sp : Split) : (c.setSlot k sp).pp = c.pp := rfl
@[simp] theorem Column.setSlot_j (c : Column) (k : Nat) (sp : Split) : (c.setSlot k sp).j = c.j := rfl
@[simp] theorem Column.setSlot_q (c : Column) (k : Nat) (sp : Split) : (c.setSlot k sp).q = c.q := rfl
@[simp] theorem Column.setSlot_t (c : Column) (k : Nat) (sp : Split) : (c.setSlot k sp).t = c.t := rfl
@[simp] theorem Column.setSlot_ret (c : Column) (k : Nat) (sp : Split) : (c.setSlot k sp).ret = c.ret := rfl
@[simp] theorem Column.setSlot_fpflags (c : Column) (k : Nat) (sp : Split) : (c.setSlot k sp).fpflags = c.fpflags := rfl
@[simp] theorem Column.setSlot_rst (c : Column) (k : Nat) (sp : Split) : (c.setSlot k sp).rst = c.rst := rfl
@[simp] theorem Column.setSlot_live (c : Column) (k : Nat) (sp : Split) : (c.setSlot k sp).live = c.live := rfl
@[simp] theorem Column.setSlot_slots (c : Column) (k : Nat) (sp : Split) : (c.setSlot k sp).slots = tabSet c.slots k sp := rfl
@[simp] theorem Column.setSlot_pool (c : Column) (k : Nat) (sp : Split) : (c.setSlot k sp).pool = c.pool := rfl
@[simp] theorem Column.setSlot_parked (c : Column) (k : Nat) (sp : Split) : (c.setSlot k sp).parked = c.parked := rfl
@[simp] theorem Column.setSlot_mec (c : Column) (k : Nat) (sp : Split) : (c.setSlot k sp).mec = c.mec := rfl
@[simp] theorem Column.setSlot_demote (c : Column) (k : Nat) (sp : Split) : (c.setSlot k sp).demote = c.demote := rfl
@[simp] theorem Column.setSlot_retired (c : Column) (k : Nat) (sp : Split) : (c.setSlot k sp).retired = c.retired := rfl
@[simp] theorem Column.setSlot_stop (c : Column) (k : Nat) (sp : Split) : (c.setSlot k sp).stop = c.stop := rfl
@[simp] theorem Column.setSlot_cbar (c : Column) (k : Nat) (sp : Split) : (c.setSlot k sp).cbar = c.cbar := rfl
@[simp] theorem Column.setSlot_ubar (c : Column) (k : Nat) (sp : Split) : (c.setSlot k sp).ubar = c.ubar := rfl
@[simp] theorem Column.setSlot_results (c : Column) (k : Nat) (sp : Split) : (c.setSlot k sp).results = c.results := rfl
@[simp] theorem Column.setSlot_nextRes (c : Column) (k : Nat) (sp : Split) : (c.setSlot k sp).nextRes = c.nextRes := rfl
@[simp] theorem Column.setSlot_tokens (c : Column) (k : Nat) (sp : Split) : (c.setSlot k sp).tokens = c.tokens := rfl
@[simp] theorem Column.setSlot_joinCnt (c : Column) (k : Nat) (sp : Split) : (c.setSlot k sp).joinCnt = c.joinCnt := rfl
@[simp] theorem Column.setSlot_msgs (c : Column) (k : Nat) (sp : Split) : (c.setSlot k sp).msgs = c.msgs := rfl
@[simp] theorem Column.setSlot_unacked (c : Column) (k : Nat) (sp : Split) : (c.setSlot k sp).unacked = c.unacked := rfl
@[simp] theorem Column.setSlot_bounced (c : Column) (k : Nat) (sp : Split) : (c.setSlot k sp).bounced = c.bounced := rfl
@[simp] theorem Column.setSlot_itemCur (c : Column) (k : Nat) (sp : Split) : (c.setSlot k sp).itemCur = c.itemCur := rfl
@[simp] theorem Column.setSlot_reqs (c : Column) (k : Nat) (sp : Split) : (c.setSlot k sp).reqs = c.reqs := rfl
@[simp] theorem Column.setSlot_sendq (c : Column) (k : Nat) (sp : Split) : (c.setSlot k sp).sendq = c.sendq := rfl
@[simp] theorem Column.setSlot_fences (c : Column) (k : Nat) (sp : Split) : (c.setSlot k sp).fences = c.fences := rfl
@[simp] theorem Column.setSlot_barGates (c : Column) (k : Nat) (sp : Split) : (c.setSlot k sp).barGates = c.barGates := rfl
@[simp] theorem Column.setSlot_upsets (c : Column) (k : Nat) (sp : Split) : (c.setSlot k sp).upsets = c.upsets := rfl
@[simp] theorem Column.setSlot_frozen (c : Column) (k : Nat) (sp : Split) : (c.setSlot k sp).frozen = c.frozen := rfl

/-! ### `Column.modSlot` -/

@[simp] theorem Column.modSlot_group (c : Column) (k : Nat) (f : Split → Split) : (c.modSlot k f).group = c.group := rfl
@[simp] theorem Column.modSlot_idx (c : Column) (k : Nat) (f : Split → Split) : (c.modSlot k f).idx = c.idx := rfl
@[simp] theorem Column.modSlot_v (c : Column) (k : Nat) (f : Split → Split) : (c.modSlot k f).v = c.v := rfl
@[simp] theorem Column.modSlot_vp (c : Column) (k : Nat) (f : Split → Split) : (c.modSlot k f).vp = c.vp := rfl
@[simp] theorem Column.modSlot_s (c : Column) (k : Nat) (f : Split → Split) : (c.modSlot k f).s = c.s := rfl
@[simp] theorem Column.modSlot_sp (c : Column) (k : Nat) (f : Split → Split) : (c.modSlot k f).sp = c.sp := rfl
@[simp] theorem Column.modSlot_p (c : Column) (k : Nat) (f : Split → Split) : (c.modSlot k f).p = c.p := rfl
@[simp] theorem Column.modSlot_pp (c : Column) (k : Nat) (f : Split → Split) : (c.modSlot k f).pp = c.pp := rfl
@[simp] theorem Column.modSlot_j (c : Column) (k : Nat) (f : Split → Split) : (c.modSlot k f).j = c.j := rfl
@[simp] theorem Column.modSlot_q (c : Column) (k : Nat) (f : Split → Split) : (c.modSlot k f).q = c.q := rfl
@[simp] theorem Column.modSlot_t (c : Column) (k : Nat) (f : Split → Split) : (c.modSlot k f).t = c.t := rfl
@[simp] theorem Column.modSlot_ret (c : Column) (k : Nat) (f : Split → Split) : (c.modSlot k f).ret = c.ret := rfl
@[simp] theorem Column.modSlot_fpflags (c : Column) (k : Nat) (f : Split → Split) : (c.modSlot k f).fpflags = c.fpflags := rfl
@[simp] theorem Column.modSlot_rst (c : Column) (k : Nat) (f : Split → Split) : (c.modSlot k f).rst = c.rst := rfl
@[simp] theorem Column.modSlot_live (c : Column) (k : Nat) (f : Split → Split) : (c.modSlot k f).live = c.live := rfl
@[simp] theorem Column.modSlot_slots (c : Column) (k : Nat) (f : Split → Split) : (c.modSlot k f).slots = tabSet c.slots k (f (c.slot k)) := rfl
@[simp] theorem Column.modSlot_pool (c : Column) (k : Nat) (f : Split → Split) : (c.modSlot k f).pool = c.pool := rfl
@[simp] theorem Column.modSlot_parked (c : Column) (k : Nat) (f : Split → Split) : (c.modSlot k f).parked = c.parked := rfl
@[simp] theorem Column.modSlot_mec (c : Column) (k : Nat) (f : Split → Split) : (c.modSlot k f).mec = c.mec := rfl
@[simp] theorem Column.modSlot_demote (c : Column) (k : Nat) (f : Split → Split) : (c.modSlot k f).demote = c.demote := rfl
@[simp] theorem Column.modSlot_retired (c : Column) (k : Nat) (f : Split → Split) : (c.modSlot k f).retired = c.retired := rfl
@[simp] theorem Column.modSlot_stop (c : Column) (k : Nat) (f : Split → Split) : (c.modSlot k f).stop = c.stop := rfl
@[simp] theorem Column.modSlot_cbar (c : Column) (k : Nat) (f : Split → Split) : (c.modSlot k f).cbar = c.cbar := rfl
@[simp] theorem Column.modSlot_ubar (c : Column) (k : Nat) (f : Split → Split) : (c.modSlot k f).ubar = c.ubar := rfl
@[simp] theorem Column.modSlot_results (c : Column) (k : Nat) (f : Split → Split) : (c.modSlot k f).results = c.results := rfl
@[simp] theorem Column.modSlot_nextRes (c : Column) (k : Nat) (f : Split → Split) : (c.modSlot k f).nextRes = c.nextRes := rfl
@[simp] theorem Column.modSlot_tokens (c : Column) (k : Nat) (f : Split → Split) : (c.modSlot k f).tokens = c.tokens := rfl
@[simp] theorem Column.modSlot_joinCnt (c : Column) (k : Nat) (f : Split → Split) : (c.modSlot k f).joinCnt = c.joinCnt := rfl
@[simp] theorem Column.modSlot_msgs (c : Column) (k : Nat) (f : Split → Split) : (c.modSlot k f).msgs = c.msgs := rfl
@[simp] theorem Column.modSlot_unacked (c : Column) (k : Nat) (f : Split → Split) : (c.modSlot k f).unacked = c.unacked := rfl
@[simp] theorem Column.modSlot_bounced (c : Column) (k : Nat) (f : Split → Split) : (c.modSlot k f).bounced = c.bounced := rfl
@[simp] theorem Column.modSlot_itemCur (c : Column) (k : Nat) (f : Split → Split) : (c.modSlot k f).itemCur = c.itemCur := rfl
@[simp] theorem Column.modSlot_reqs (c : Column) (k : Nat) (f : Split → Split) : (c.modSlot k f).reqs = c.reqs := rfl
@[simp] theorem Column.modSlot_sendq (c : Column) (k : Nat) (f : Split → Split) : (c.modSlot k f).sendq = c.sendq := rfl
@[simp] theorem Column.modSlot_fences (c : Column) (k : Nat) (f : Split → Split) : (c.modSlot k f).fences = c.fences := rfl
@[simp] theorem Column.modSlot_barGates (c : Column) (k : Nat) (f : Split → Split) : (c.modSlot k f).barGates = c.barGates := rfl
@[simp] theorem Column.modSlot_upsets (c : Column) (k : Nat) (f : Split → Split) : (c.modSlot k f).upsets = c.upsets := rfl
@[simp] theorem Column.modSlot_frozen (c : Column) (k : Nat) (f : Split → Split) : (c.modSlot k f).frozen = c.frozen := rfl

/-! ### `Column.wrV` -/

@[simp] theorem Column.wrV_group (c : Column) (n l : Nat) (x : Word) (q : Bool) : (c.wrV n l x q).group = c.group := rfl
@[simp] theorem Column.wrV_idx (c : Column) (n l : Nat) (x : Word) (q : Bool) : (c.wrV n l x q).idx = c.idx := rfl
@[simp] theorem Column.wrV_v (c : Column) (n l : Nat) (x : Word) (q : Bool) : (c.wrV n l x q).v = tabSet c.v (32 * n + l) x := rfl
@[simp] theorem Column.wrV_vp (c : Column) (n l : Nat) (x : Word) (q : Bool) : (c.wrV n l x q).vp = tabMod c.vp n fun m => setBit m l q := rfl
@[simp] theorem Column.wrV_s (c : Column) (n l : Nat) (x : Word) (q : Bool) : (c.wrV n l x q).s = c.s := rfl
@[simp] theorem Column.wrV_sp (c : Column) (n l : Nat) (x : Word) (q : Bool) : (c.wrV n l x q).sp = c.sp := rfl
@[simp] theorem Column.wrV_p (c : Column) (n l : Nat) (x : Word) (q : Bool) : (c.wrV n l x q).p = c.p := rfl
@[simp] theorem Column.wrV_pp (c : Column) (n l : Nat) (x : Word) (q : Bool) : (c.wrV n l x q).pp = c.pp := rfl
@[simp] theorem Column.wrV_j (c : Column) (n l : Nat) (x : Word) (q : Bool) : (c.wrV n l x q).j = c.j := rfl
@[simp] theorem Column.wrV_q (c : Column) (n l : Nat) (x : Word) (q : Bool) : (c.wrV n l x q).q = c.q := rfl
@[simp] theorem Column.wrV_t (c : Column) (n l : Nat) (x : Word) (q : Bool) : (c.wrV n l x q).t = c.t := rfl
@[simp] theorem Column.wrV_ret (c : Column) (n l : Nat) (x : Word) (q : Bool) : (c.wrV n l x q).ret = c.ret := rfl
@[simp] theorem Column.wrV_fpflags (c : Column) (n l : Nat) (x : Word) (q : Bool) : (c.wrV n l x q).fpflags = c.fpflags := rfl
@[simp] theorem Column.wrV_rst (c : Column) (n l : Nat) (x : Word) (q : Bool) : (c.wrV n l x q).rst = c.rst := rfl
@[simp] theorem Column.wrV_live (c : Column) (n l : Nat) (x : Word) (q : Bool) : (c.wrV n l x q).live = c.live := rfl
@[simp] theorem Column.wrV_slots (c : Column) (n l : Nat) (x : Word) (q : Bool) : (c.wrV n l x q).slots = c.slots := rfl
@[simp] theorem Column.wrV_pool (c : Column) (n l : Nat) (x : Word) (q : Bool) : (c.wrV n l x q).pool = c.pool := rfl
@[simp] theorem Column.wrV_parked (c : Column) (n l : Nat) (x : Word) (q : Bool) : (c.wrV n l x q).parked = c.parked := rfl
@[simp] theorem Column.wrV_mec (c : Column) (n l : Nat) (x : Word) (q : Bool) : (c.wrV n l x q).mec = c.mec := rfl
@[simp] theorem Column.wrV_demote (c : Column) (n l : Nat) (x : Word) (q : Bool) : (c.wrV n l x q).demote = c.demote := rfl
@[simp] theorem Column.wrV_retired (c : Column) (n l : Nat) (x : Word) (q : Bool) : (c.wrV n l x q).retired = c.retired := rfl
@[simp] theorem Column.wrV_stop (c : Column) (n l : Nat) (x : Word) (q : Bool) : (c.wrV n l x q).stop = c.stop := rfl
@[simp] theorem Column.wrV_cbar (c : Column) (n l : Nat) (x : Word) (q : Bool) : (c.wrV n l x q).cbar = c.cbar := rfl
@[simp] theorem Column.wrV_ubar (c : Column) (n l : Nat) (x : Word) (q : Bool) : (c.wrV n l x q).ubar = c.ubar := rfl
@[simp] theorem Column.wrV_results (c : Column) (n l : Nat) (x : Word) (q : Bool) : (c.wrV n l x q).results = c.results := rfl
@[simp] theorem Column.wrV_nextRes (c : Column) (n l : Nat) (x : Word) (q : Bool) : (c.wrV n l x q).nextRes = c.nextRes := rfl
@[simp] theorem Column.wrV_tokens (c : Column) (n l : Nat) (x : Word) (q : Bool) : (c.wrV n l x q).tokens = c.tokens := rfl
@[simp] theorem Column.wrV_joinCnt (c : Column) (n l : Nat) (x : Word) (q : Bool) : (c.wrV n l x q).joinCnt = c.joinCnt := rfl
@[simp] theorem Column.wrV_msgs (c : Column) (n l : Nat) (x : Word) (q : Bool) : (c.wrV n l x q).msgs = c.msgs := rfl
@[simp] theorem Column.wrV_unacked (c : Column) (n l : Nat) (x : Word) (q : Bool) : (c.wrV n l x q).unacked = c.unacked := rfl
@[simp] theorem Column.wrV_bounced (c : Column) (n l : Nat) (x : Word) (q : Bool) : (c.wrV n l x q).bounced = c.bounced := rfl
@[simp] theorem Column.wrV_itemCur (c : Column) (n l : Nat) (x : Word) (q : Bool) : (c.wrV n l x q).itemCur = c.itemCur := rfl
@[simp] theorem Column.wrV_reqs (c : Column) (n l : Nat) (x : Word) (q : Bool) : (c.wrV n l x q).reqs = c.reqs := rfl
@[simp] theorem Column.wrV_sendq (c : Column) (n l : Nat) (x : Word) (q : Bool) : (c.wrV n l x q).sendq = c.sendq := rfl
@[simp] theorem Column.wrV_fences (c : Column) (n l : Nat) (x : Word) (q : Bool) : (c.wrV n l x q).fences = c.fences := rfl
@[simp] theorem Column.wrV_barGates (c : Column) (n l : Nat) (x : Word) (q : Bool) : (c.wrV n l x q).barGates = c.barGates := rfl
@[simp] theorem Column.wrV_upsets (c : Column) (n l : Nat) (x : Word) (q : Bool) : (c.wrV n l x q).upsets = c.upsets := rfl
@[simp] theorem Column.wrV_frozen (c : Column) (n l : Nat) (x : Word) (q : Bool) : (c.wrV n l x q).frozen = c.frozen := rfl

/-! ### `Column.wrS` -/

@[simp] theorem Column.wrS_group (c : Column) (n : Nat) (x : DWord) (q : Bool) :
    (c.wrS n x q).group = c.group := by
  unfold Column.wrS; split <;> rfl
@[simp] theorem Column.wrS_idx (c : Column) (n : Nat) (x : DWord) (q : Bool) : (c.wrS n x q).idx = c.idx := by
  unfold Column.wrS; split <;> rfl
@[simp] theorem Column.wrS_v (c : Column) (n : Nat) (x : DWord) (q : Bool) : (c.wrS n x q).v = c.v := by
  unfold Column.wrS; split <;> rfl
@[simp] theorem Column.wrS_vp (c : Column) (n : Nat) (x : DWord) (q : Bool) : (c.wrS n x q).vp = c.vp := by
  unfold Column.wrS; split <;> rfl
@[simp] theorem Column.wrS_p (c : Column) (n : Nat) (x : DWord) (q : Bool) : (c.wrS n x q).p = c.p := by
  unfold Column.wrS; split <;> rfl
@[simp] theorem Column.wrS_pp (c : Column) (n : Nat) (x : DWord) (q : Bool) : (c.wrS n x q).pp = c.pp := by
  unfold Column.wrS; split <;> rfl
@[simp] theorem Column.wrS_j (c : Column) (n : Nat) (x : DWord) (q : Bool) : (c.wrS n x q).j = c.j := by
  unfold Column.wrS; split <;> rfl
@[simp] theorem Column.wrS_q (c : Column) (n : Nat) (x : DWord) (q : Bool) : (c.wrS n x q).q = c.q := by
  unfold Column.wrS; split <;> rfl
@[simp] theorem Column.wrS_t (c : Column) (n : Nat) (x : DWord) (q : Bool) : (c.wrS n x q).t = c.t := by
  unfold Column.wrS; split <;> rfl
@[simp] theorem Column.wrS_ret (c : Column) (n : Nat) (x : DWord) (q : Bool) : (c.wrS n x q).ret = c.ret := by
  unfold Column.wrS; split <;> rfl
@[simp] theorem Column.wrS_fpflags (c : Column) (n : Nat) (x : DWord) (q : Bool) :
    (c.wrS n x q).fpflags = c.fpflags := by
  unfold Column.wrS; split <;> rfl
@[simp] theorem Column.wrS_rst (c : Column) (n : Nat) (x : DWord) (q : Bool) : (c.wrS n x q).rst = c.rst := by
  unfold Column.wrS; split <;> rfl
@[simp] theorem Column.wrS_live (c : Column) (n : Nat) (x : DWord) (q : Bool) : (c.wrS n x q).live = c.live := by
  unfold Column.wrS; split <;> rfl
@[simp] theorem Column.wrS_slots (c : Column) (n : Nat) (x : DWord) (q : Bool) :
    (c.wrS n x q).slots = c.slots := by
  unfold Column.wrS; split <;> rfl
@[simp] theorem Column.wrS_pool (c : Column) (n : Nat) (x : DWord) (q : Bool) : (c.wrS n x q).pool = c.pool := by
  unfold Column.wrS; split <;> rfl
@[simp] theorem Column.wrS_parked (c : Column) (n : Nat) (x : DWord) (q : Bool) :
    (c.wrS n x q).parked = c.parked := by
  unfold Column.wrS; split <;> rfl
@[simp] theorem Column.wrS_mec (c : Column) (n : Nat) (x : DWord) (q : Bool) : (c.wrS n x q).mec = c.mec := by
  unfold Column.wrS; split <;> rfl
@[simp] theorem Column.wrS_demote (c : Column) (n : Nat) (x : DWord) (q : Bool) :
    (c.wrS n x q).demote = c.demote := by
  unfold Column.wrS; split <;> rfl
@[simp] theorem Column.wrS_retired (c : Column) (n : Nat) (x : DWord) (q : Bool) :
    (c.wrS n x q).retired = c.retired := by
  unfold Column.wrS; split <;> rfl
@[simp] theorem Column.wrS_stop (c : Column) (n : Nat) (x : DWord) (q : Bool) : (c.wrS n x q).stop = c.stop := by
  unfold Column.wrS; split <;> rfl
@[simp] theorem Column.wrS_cbar (c : Column) (n : Nat) (x : DWord) (q : Bool) : (c.wrS n x q).cbar = c.cbar := by
  unfold Column.wrS; split <;> rfl
@[simp] theorem Column.wrS_ubar (c : Column) (n : Nat) (x : DWord) (q : Bool) : (c.wrS n x q).ubar = c.ubar := by
  unfold Column.wrS; split <;> rfl
@[simp] theorem Column.wrS_results (c : Column) (n : Nat) (x : DWord) (q : Bool) :
    (c.wrS n x q).results = c.results := by
  unfold Column.wrS; split <;> rfl
@[simp] theorem Column.wrS_nextRes (c : Column) (n : Nat) (x : DWord) (q : Bool) :
    (c.wrS n x q).nextRes = c.nextRes := by
  unfold Column.wrS; split <;> rfl
@[simp] theorem Column.wrS_tokens (c : Column) (n : Nat) (x : DWord) (q : Bool) :
    (c.wrS n x q).tokens = c.tokens := by
  unfold Column.wrS; split <;> rfl
@[simp] theorem Column.wrS_joinCnt (c : Column) (n : Nat) (x : DWord) (q : Bool) :
    (c.wrS n x q).joinCnt = c.joinCnt := by
  unfold Column.wrS; split <;> rfl
@[simp] theorem Column.wrS_msgs (c : Column) (n : Nat) (x : DWord) (q : Bool) : (c.wrS n x q).msgs = c.msgs := by
  unfold Column.wrS; split <;> rfl
@[simp] theorem Column.wrS_unacked (c : Column) (n : Nat) (x : DWord) (q : Bool) :
    (c.wrS n x q).unacked = c.unacked := by
  unfold Column.wrS; split <;> rfl
@[simp] theorem Column.wrS_bounced (c : Column) (n : Nat) (x : DWord) (q : Bool) :
    (c.wrS n x q).bounced = c.bounced := by
  unfold Column.wrS; split <;> rfl
@[simp] theorem Column.wrS_itemCur (c : Column) (n : Nat) (x : DWord) (q : Bool) :
    (c.wrS n x q).itemCur = c.itemCur := by
  unfold Column.wrS; split <;> rfl
@[simp] theorem Column.wrS_reqs (c : Column) (n : Nat) (x : DWord) (q : Bool) : (c.wrS n x q).reqs = c.reqs := by
  unfold Column.wrS; split <;> rfl
@[simp] theorem Column.wrS_sendq (c : Column) (n : Nat) (x : DWord) (q : Bool) :
    (c.wrS n x q).sendq = c.sendq := by
  unfold Column.wrS; split <;> rfl
@[simp] theorem Column.wrS_fences (c : Column) (n : Nat) (x : DWord) (q : Bool) :
    (c.wrS n x q).fences = c.fences := by
  unfold Column.wrS; split <;> rfl
@[simp] theorem Column.wrS_barGates (c : Column) (n : Nat) (x : DWord) (q : Bool) :
    (c.wrS n x q).barGates = c.barGates := by
  unfold Column.wrS; split <;> rfl
@[simp] theorem Column.wrS_upsets (c : Column) (n : Nat) (x : DWord) (q : Bool) :
    (c.wrS n x q).upsets = c.upsets := by
  unfold Column.wrS; split <;> rfl
@[simp] theorem Column.wrS_frozen (c : Column) (n : Nat) (x : DWord) (q : Bool) :
    (c.wrS n x q).frozen = c.frozen := by
  unfold Column.wrS; split <;> rfl

/-! ### `Column.wrP` -/

@[simp] theorem Column.wrP_group (c : Column) (n l : Nat) (b q : Bool) : (c.wrP n l b q).group = c.group := by
  unfold Column.wrP; split <;> rfl
@[simp] theorem Column.wrP_idx (c : Column) (n l : Nat) (b q : Bool) : (c.wrP n l b q).idx = c.idx := by
  unfold Column.wrP; split <;> rfl
@[simp] theorem Column.wrP_v (c : Column) (n l : Nat) (b q : Bool) : (c.wrP n l b q).v = c.v := by
  unfold Column.wrP; split <;> rfl
@[simp] theorem Column.wrP_vp (c : Column) (n l : Nat) (b q : Bool) : (c.wrP n l b q).vp = c.vp := by
  unfold Column.wrP; split <;> rfl
@[simp] theorem Column.wrP_s (c : Column) (n l : Nat) (b q : Bool) : (c.wrP n l b q).s = c.s := by
  unfold Column.wrP; split <;> rfl
@[simp] theorem Column.wrP_sp (c : Column) (n l : Nat) (b q : Bool) : (c.wrP n l b q).sp = c.sp := by
  unfold Column.wrP; split <;> rfl
@[simp] theorem Column.wrP_j (c : Column) (n l : Nat) (b q : Bool) : (c.wrP n l b q).j = c.j := by
  unfold Column.wrP; split <;> rfl
@[simp] theorem Column.wrP_q (c : Column) (n l : Nat) (b q : Bool) : (c.wrP n l b q).q = c.q := by
  unfold Column.wrP; split <;> rfl
@[simp] theorem Column.wrP_t (c : Column) (n l : Nat) (b q : Bool) : (c.wrP n l b q).t = c.t := by
  unfold Column.wrP; split <;> rfl
@[simp] theorem Column.wrP_ret (c : Column) (n l : Nat) (b q : Bool) : (c.wrP n l b q).ret = c.ret := by
  unfold Column.wrP; split <;> rfl
@[simp] theorem Column.wrP_fpflags (c : Column) (n l : Nat) (b q : Bool) :
    (c.wrP n l b q).fpflags = c.fpflags := by
  unfold Column.wrP; split <;> rfl
@[simp] theorem Column.wrP_rst (c : Column) (n l : Nat) (b q : Bool) : (c.wrP n l b q).rst = c.rst := by
  unfold Column.wrP; split <;> rfl
@[simp] theorem Column.wrP_live (c : Column) (n l : Nat) (b q : Bool) : (c.wrP n l b q).live = c.live := by
  unfold Column.wrP; split <;> rfl
@[simp] theorem Column.wrP_slots (c : Column) (n l : Nat) (b q : Bool) : (c.wrP n l b q).slots = c.slots := by
  unfold Column.wrP; split <;> rfl
@[simp] theorem Column.wrP_pool (c : Column) (n l : Nat) (b q : Bool) : (c.wrP n l b q).pool = c.pool := by
  unfold Column.wrP; split <;> rfl
@[simp] theorem Column.wrP_parked (c : Column) (n l : Nat) (b q : Bool) : (c.wrP n l b q).parked = c.parked := by
  unfold Column.wrP; split <;> rfl
@[simp] theorem Column.wrP_mec (c : Column) (n l : Nat) (b q : Bool) : (c.wrP n l b q).mec = c.mec := by
  unfold Column.wrP; split <;> rfl
@[simp] theorem Column.wrP_demote (c : Column) (n l : Nat) (b q : Bool) : (c.wrP n l b q).demote = c.demote := by
  unfold Column.wrP; split <;> rfl
@[simp] theorem Column.wrP_retired (c : Column) (n l : Nat) (b q : Bool) :
    (c.wrP n l b q).retired = c.retired := by
  unfold Column.wrP; split <;> rfl
@[simp] theorem Column.wrP_stop (c : Column) (n l : Nat) (b q : Bool) : (c.wrP n l b q).stop = c.stop := by
  unfold Column.wrP; split <;> rfl
@[simp] theorem Column.wrP_cbar (c : Column) (n l : Nat) (b q : Bool) : (c.wrP n l b q).cbar = c.cbar := by
  unfold Column.wrP; split <;> rfl
@[simp] theorem Column.wrP_ubar (c : Column) (n l : Nat) (b q : Bool) : (c.wrP n l b q).ubar = c.ubar := by
  unfold Column.wrP; split <;> rfl
@[simp] theorem Column.wrP_results (c : Column) (n l : Nat) (b q : Bool) :
    (c.wrP n l b q).results = c.results := by
  unfold Column.wrP; split <;> rfl
@[simp] theorem Column.wrP_nextRes (c : Column) (n l : Nat) (b q : Bool) :
    (c.wrP n l b q).nextRes = c.nextRes := by
  unfold Column.wrP; split <;> rfl
@[simp] theorem Column.wrP_tokens (c : Column) (n l : Nat) (b q : Bool) : (c.wrP n l b q).tokens = c.tokens := by
  unfold Column.wrP; split <;> rfl
@[simp] theorem Column.wrP_joinCnt (c : Column) (n l : Nat) (b q : Bool) :
    (c.wrP n l b q).joinCnt = c.joinCnt := by
  unfold Column.wrP; split <;> rfl
@[simp] theorem Column.wrP_msgs (c : Column) (n l : Nat) (b q : Bool) : (c.wrP n l b q).msgs = c.msgs := by
  unfold Column.wrP; split <;> rfl
@[simp] theorem Column.wrP_unacked (c : Column) (n l : Nat) (b q : Bool) :
    (c.wrP n l b q).unacked = c.unacked := by
  unfold Column.wrP; split <;> rfl
@[simp] theorem Column.wrP_bounced (c : Column) (n l : Nat) (b q : Bool) :
    (c.wrP n l b q).bounced = c.bounced := by
  unfold Column.wrP; split <;> rfl
@[simp] theorem Column.wrP_itemCur (c : Column) (n l : Nat) (b q : Bool) :
    (c.wrP n l b q).itemCur = c.itemCur := by
  unfold Column.wrP; split <;> rfl
@[simp] theorem Column.wrP_reqs (c : Column) (n l : Nat) (b q : Bool) : (c.wrP n l b q).reqs = c.reqs := by
  unfold Column.wrP; split <;> rfl
@[simp] theorem Column.wrP_sendq (c : Column) (n l : Nat) (b q : Bool) : (c.wrP n l b q).sendq = c.sendq := by
  unfold Column.wrP; split <;> rfl
@[simp] theorem Column.wrP_fences (c : Column) (n l : Nat) (b q : Bool) : (c.wrP n l b q).fences = c.fences := by
  unfold Column.wrP; split <;> rfl
@[simp] theorem Column.wrP_barGates (c : Column) (n l : Nat) (b q : Bool) :
    (c.wrP n l b q).barGates = c.barGates := by
  unfold Column.wrP; split <;> rfl
@[simp] theorem Column.wrP_upsets (c : Column) (n l : Nat) (b q : Bool) : (c.wrP n l b q).upsets = c.upsets := by
  unfold Column.wrP; split <;> rfl
@[simp] theorem Column.wrP_frozen (c : Column) (n l : Nat) (b q : Bool) : (c.wrP n l b q).frozen = c.frozen := by
  unfold Column.wrP; split <;> rfl

/-! ### `Column.wrPm` -/

@[simp] theorem Column.wrPm_group (c : Column) (n : Nat) (m q : Mask) : (c.wrPm n m q).group = c.group := by
  unfold Column.wrPm; split <;> rfl
@[simp] theorem Column.wrPm_idx (c : Column) (n : Nat) (m q : Mask) : (c.wrPm n m q).idx = c.idx := by
  unfold Column.wrPm; split <;> rfl
@[simp] theorem Column.wrPm_v (c : Column) (n : Nat) (m q : Mask) : (c.wrPm n m q).v = c.v := by
  unfold Column.wrPm; split <;> rfl
@[simp] theorem Column.wrPm_vp (c : Column) (n : Nat) (m q : Mask) : (c.wrPm n m q).vp = c.vp := by
  unfold Column.wrPm; split <;> rfl
@[simp] theorem Column.wrPm_s (c : Column) (n : Nat) (m q : Mask) : (c.wrPm n m q).s = c.s := by
  unfold Column.wrPm; split <;> rfl
@[simp] theorem Column.wrPm_sp (c : Column) (n : Nat) (m q : Mask) : (c.wrPm n m q).sp = c.sp := by
  unfold Column.wrPm; split <;> rfl
@[simp] theorem Column.wrPm_j (c : Column) (n : Nat) (m q : Mask) : (c.wrPm n m q).j = c.j := by
  unfold Column.wrPm; split <;> rfl
@[simp] theorem Column.wrPm_q (c : Column) (n : Nat) (m q : Mask) : (c.wrPm n m q).q = c.q := by
  unfold Column.wrPm; split <;> rfl
@[simp] theorem Column.wrPm_t (c : Column) (n : Nat) (m q : Mask) : (c.wrPm n m q).t = c.t := by
  unfold Column.wrPm; split <;> rfl
@[simp] theorem Column.wrPm_ret (c : Column) (n : Nat) (m q : Mask) : (c.wrPm n m q).ret = c.ret := by
  unfold Column.wrPm; split <;> rfl
@[simp] theorem Column.wrPm_fpflags (c : Column) (n : Nat) (m q : Mask) :
    (c.wrPm n m q).fpflags = c.fpflags := by
  unfold Column.wrPm; split <;> rfl
@[simp] theorem Column.wrPm_rst (c : Column) (n : Nat) (m q : Mask) : (c.wrPm n m q).rst = c.rst := by
  unfold Column.wrPm; split <;> rfl
@[simp] theorem Column.wrPm_live (c : Column) (n : Nat) (m q : Mask) : (c.wrPm n m q).live = c.live := by
  unfold Column.wrPm; split <;> rfl
@[simp] theorem Column.wrPm_slots (c : Column) (n : Nat) (m q : Mask) : (c.wrPm n m q).slots = c.slots := by
  unfold Column.wrPm; split <;> rfl
@[simp] theorem Column.wrPm_pool (c : Column) (n : Nat) (m q : Mask) : (c.wrPm n m q).pool = c.pool := by
  unfold Column.wrPm; split <;> rfl
@[simp] theorem Column.wrPm_parked (c : Column) (n : Nat) (m q : Mask) : (c.wrPm n m q).parked = c.parked := by
  unfold Column.wrPm; split <;> rfl
@[simp] theorem Column.wrPm_mec (c : Column) (n : Nat) (m q : Mask) : (c.wrPm n m q).mec = c.mec := by
  unfold Column.wrPm; split <;> rfl
@[simp] theorem Column.wrPm_demote (c : Column) (n : Nat) (m q : Mask) : (c.wrPm n m q).demote = c.demote := by
  unfold Column.wrPm; split <;> rfl
@[simp] theorem Column.wrPm_retired (c : Column) (n : Nat) (m q : Mask) :
    (c.wrPm n m q).retired = c.retired := by
  unfold Column.wrPm; split <;> rfl
@[simp] theorem Column.wrPm_stop (c : Column) (n : Nat) (m q : Mask) : (c.wrPm n m q).stop = c.stop := by
  unfold Column.wrPm; split <;> rfl
@[simp] theorem Column.wrPm_cbar (c : Column) (n : Nat) (m q : Mask) : (c.wrPm n m q).cbar = c.cbar := by
  unfold Column.wrPm; split <;> rfl
@[simp] theorem Column.wrPm_ubar (c : Column) (n : Nat) (m q : Mask) : (c.wrPm n m q).ubar = c.ubar := by
  unfold Column.wrPm; split <;> rfl
@[simp] theorem Column.wrPm_results (c : Column) (n : Nat) (m q : Mask) :
    (c.wrPm n m q).results = c.results := by
  unfold Column.wrPm; split <;> rfl
@[simp] theorem Column.wrPm_nextRes (c : Column) (n : Nat) (m q : Mask) :
    (c.wrPm n m q).nextRes = c.nextRes := by
  unfold Column.wrPm; split <;> rfl
@[simp] theorem Column.wrPm_tokens (c : Column) (n : Nat) (m q : Mask) : (c.wrPm n m q).tokens = c.tokens := by
  unfold Column.wrPm; split <;> rfl
@[simp] theorem Column.wrPm_joinCnt (c : Column) (n : Nat) (m q : Mask) :
    (c.wrPm n m q).joinCnt = c.joinCnt := by
  unfold Column.wrPm; split <;> rfl
@[simp] theorem Column.wrPm_msgs (c : Column) (n : Nat) (m q : Mask) : (c.wrPm n m q).msgs = c.msgs := by
  unfold Column.wrPm; split <;> rfl
@[simp] theorem Column.wrPm_unacked (c : Column) (n : Nat) (m q : Mask) :
    (c.wrPm n m q).unacked = c.unacked := by
  unfold Column.wrPm; split <;> rfl
@[simp] theorem Column.wrPm_bounced (c : Column) (n : Nat) (m q : Mask) :
    (c.wrPm n m q).bounced = c.bounced := by
  unfold Column.wrPm; split <;> rfl
@[simp] theorem Column.wrPm_itemCur (c : Column) (n : Nat) (m q : Mask) :
    (c.wrPm n m q).itemCur = c.itemCur := by
  unfold Column.wrPm; split <;> rfl
@[simp] theorem Column.wrPm_reqs (c : Column) (n : Nat) (m q : Mask) : (c.wrPm n m q).reqs = c.reqs := by
  unfold Column.wrPm; split <;> rfl
@[simp] theorem Column.wrPm_sendq (c : Column) (n : Nat) (m q : Mask) : (c.wrPm n m q).sendq = c.sendq := by
  unfold Column.wrPm; split <;> rfl
@[simp] theorem Column.wrPm_fences (c : Column) (n : Nat) (m q : Mask) : (c.wrPm n m q).fences = c.fences := by
  unfold Column.wrPm; split <;> rfl
@[simp] theorem Column.wrPm_barGates (c : Column) (n : Nat) (m q : Mask) :
    (c.wrPm n m q).barGates = c.barGates := by
  unfold Column.wrPm; split <;> rfl
@[simp] theorem Column.wrPm_upsets (c : Column) (n : Nat) (m q : Mask) : (c.wrPm n m q).upsets = c.upsets := by
  unfold Column.wrPm; split <;> rfl
@[simp] theorem Column.wrPm_frozen (c : Column) (n : Nat) (m q : Mask) : (c.wrPm n m q).frozen = c.frozen := by
  unfold Column.wrPm; split <;> rfl

/-! ### `Column.wrJ` -/

@[simp] theorem Column.wrJ_group (c : Column) (n : Nat) (m : Mask) : (c.wrJ n m).group = c.group := rfl
@[simp] theorem Column.wrJ_idx (c : Column) (n : Nat) (m : Mask) : (c.wrJ n m).idx = c.idx := rfl
@[simp] theorem Column.wrJ_v (c : Column) (n : Nat) (m : Mask) : (c.wrJ n m).v = c.v := rfl
@[simp] theorem Column.wrJ_vp (c : Column) (n : Nat) (m : Mask) : (c.wrJ n m).vp = c.vp := rfl
@[simp] theorem Column.wrJ_s (c : Column) (n : Nat) (m : Mask) : (c.wrJ n m).s = c.s := rfl
@[simp] theorem Column.wrJ_sp (c : Column) (n : Nat) (m : Mask) : (c.wrJ n m).sp = c.sp := rfl
@[simp] theorem Column.wrJ_p (c : Column) (n : Nat) (m : Mask) : (c.wrJ n m).p = c.p := rfl
@[simp] theorem Column.wrJ_pp (c : Column) (n : Nat) (m : Mask) : (c.wrJ n m).pp = c.pp := rfl
@[simp] theorem Column.wrJ_j (c : Column) (n : Nat) (m : Mask) : (c.wrJ n m).j = tabSet c.j n m := rfl
@[simp] theorem Column.wrJ_q (c : Column) (n : Nat) (m : Mask) : (c.wrJ n m).q = c.q := rfl
@[simp] theorem Column.wrJ_t (c : Column) (n : Nat) (m : Mask) : (c.wrJ n m).t = c.t := rfl
@[simp] theorem Column.wrJ_ret (c : Column) (n : Nat) (m : Mask) : (c.wrJ n m).ret = c.ret := rfl
@[simp] theorem Column.wrJ_fpflags (c : Column) (n : Nat) (m : Mask) : (c.wrJ n m).fpflags = c.fpflags := rfl
@[simp] theorem Column.wrJ_rst (c : Column) (n : Nat) (m : Mask) : (c.wrJ n m).rst = c.rst := rfl
@[simp] theorem Column.wrJ_live (c : Column) (n : Nat) (m : Mask) : (c.wrJ n m).live = c.live := rfl
@[simp] theorem Column.wrJ_slots (c : Column) (n : Nat) (m : Mask) : (c.wrJ n m).slots = c.slots := rfl
@[simp] theorem Column.wrJ_pool (c : Column) (n : Nat) (m : Mask) : (c.wrJ n m).pool = c.pool := rfl
@[simp] theorem Column.wrJ_parked (c : Column) (n : Nat) (m : Mask) : (c.wrJ n m).parked = c.parked := rfl
@[simp] theorem Column.wrJ_mec (c : Column) (n : Nat) (m : Mask) : (c.wrJ n m).mec = c.mec := rfl
@[simp] theorem Column.wrJ_demote (c : Column) (n : Nat) (m : Mask) : (c.wrJ n m).demote = c.demote := rfl
@[simp] theorem Column.wrJ_retired (c : Column) (n : Nat) (m : Mask) : (c.wrJ n m).retired = c.retired := rfl
@[simp] theorem Column.wrJ_stop (c : Column) (n : Nat) (m : Mask) : (c.wrJ n m).stop = c.stop := rfl
@[simp] theorem Column.wrJ_cbar (c : Column) (n : Nat) (m : Mask) : (c.wrJ n m).cbar = c.cbar := rfl
@[simp] theorem Column.wrJ_ubar (c : Column) (n : Nat) (m : Mask) : (c.wrJ n m).ubar = c.ubar := rfl
@[simp] theorem Column.wrJ_results (c : Column) (n : Nat) (m : Mask) : (c.wrJ n m).results = c.results := rfl
@[simp] theorem Column.wrJ_nextRes (c : Column) (n : Nat) (m : Mask) : (c.wrJ n m).nextRes = c.nextRes := rfl
@[simp] theorem Column.wrJ_tokens (c : Column) (n : Nat) (m : Mask) : (c.wrJ n m).tokens = c.tokens := rfl
@[simp] theorem Column.wrJ_joinCnt (c : Column) (n : Nat) (m : Mask) : (c.wrJ n m).joinCnt = c.joinCnt := rfl
@[simp] theorem Column.wrJ_msgs (c : Column) (n : Nat) (m : Mask) : (c.wrJ n m).msgs = c.msgs := rfl
@[simp] theorem Column.wrJ_unacked (c : Column) (n : Nat) (m : Mask) : (c.wrJ n m).unacked = c.unacked := rfl
@[simp] theorem Column.wrJ_bounced (c : Column) (n : Nat) (m : Mask) : (c.wrJ n m).bounced = c.bounced := rfl
@[simp] theorem Column.wrJ_itemCur (c : Column) (n : Nat) (m : Mask) : (c.wrJ n m).itemCur = c.itemCur := rfl
@[simp] theorem Column.wrJ_reqs (c : Column) (n : Nat) (m : Mask) : (c.wrJ n m).reqs = c.reqs := rfl
@[simp] theorem Column.wrJ_sendq (c : Column) (n : Nat) (m : Mask) : (c.wrJ n m).sendq = c.sendq := rfl
@[simp] theorem Column.wrJ_fences (c : Column) (n : Nat) (m : Mask) : (c.wrJ n m).fences = c.fences := rfl
@[simp] theorem Column.wrJ_barGates (c : Column) (n : Nat) (m : Mask) : (c.wrJ n m).barGates = c.barGates := rfl
@[simp] theorem Column.wrJ_upsets (c : Column) (n : Nat) (m : Mask) : (c.wrJ n m).upsets = c.upsets := rfl
@[simp] theorem Column.wrJ_frozen (c : Column) (n : Nat) (m : Mask) : (c.wrJ n m).frozen = c.frozen := rfl

/-! ### Columns, groups, operations and handles read after a write -/

theorem State.col_setCol (s : State) (c d : Nat) (v : Column) : (s.setCol c v).col d = if d = c then v else s.col d := by
  unfold State.col; rw [State.setCol_cols, tabGet_tabSet]; split <;> rfl

@[simp] theorem State.col_setCol_same (s : State) (c : Nat) (v : Column) : (s.setCol c v).col c = v := by
  rw [State.col_setCol, if_pos rfl]

theorem State.col_modCol (s : State) (c d : Nat) (f : Column → Column) :
    (s.modCol c f).col d = if d = c then f (s.col c) else s.col d := State.col_setCol s c d _

@[simp] theorem State.col_modCol_same (s : State) (c : Nat) (f : Column → Column) : (s.modCol c f).col c = f (s.col c) :=
  State.col_setCol_same s c _

theorem State.group_setGroup (s : State) (g h : Nat) (v : Option Group) :
    (s.setGroup g v).group h = if h = g then v else s.group h := tabGet_tabSet s.sch.groups g h v

theorem Column.slot_setSlot (c : Column) (k j : Nat) (sp : Split) : (c.setSlot k sp).slot j = if j = k then sp else c.slot j :=
  tabGet_tabSet c.slots k j sp

@[simp] theorem Column.slot_setSlot_same (c : Column) (k : Nat) (sp : Split) : (c.setSlot k sp).slot k = sp := by
  rw [Column.slot_setSlot, if_pos rfl]

/-! ### Registers read after a write (R151, R152) -/

theorem getLsbD_setBit {w : Nat} (x : BitVec w) (i j : Nat) (b : Bool) (h : j < w) :
    (setBit x i b).getLsbD j = if j = i then b else x.getLsbD j := by
  have hp : (BitVec.ofNat w (2 ^ i)).getLsbD j = decide (i = j) := by
    rw [BitVec.getLsbD_ofNat, Nat.testBit_two_pow]; simp [h]
  unfold setBit
  generalize BitVec.ofNat w (2 ^ i) = y at hp ⊢
  by_cases hj : j = i
  · subst hj
    cases b <;> simp only [if_true, if_false, Bool.false_eq_true, BitVec.getLsbD_and, BitVec.getLsbD_or, BitVec.getLsbD_not, hp, h]
      <;> simp
  · have hi : ¬ i = j := fun e => hj e.symm
    cases b <;> simp only [if_false, if_true, Bool.false_eq_true, BitVec.getLsbD_and, BitVec.getLsbD_or, BitVec.getLsbD_not, hp, h, hj, hi]
      <;> simp

theorem Column.rdV_wrV (c : Column) (n m l k : Nat) (x : Word) (q : Bool) (hl : l < 32) (hk : k < 32) :
    (c.wrV n l x q).rdV m k = if m = n ∧ k = l then x else c.rdV m k := by
  unfold Column.rdV; rw [Column.wrV_v, tabGet_tabSet]
  congr 1; simp only [eq_iff_iff]; omega

theorem Column.rdVp_wrV (c : Column) (n m l k : Nat) (x : Word) (q : Bool) (hk : k < 32) :
    (c.wrV n l x q).rdVp m k = if m = n ∧ k = l then q else c.rdVp m k := by
  unfold Column.rdVp; rw [Column.wrV_vp, tabGet_tabMod]
  by_cases hm : m = n
  · subst hm; rw [if_pos rfl, getLsbD_setBit _ _ _ _ hk]; simp
  · simp [hm]

/-- s0 reads as zero whatever is written to it (R151). -/
theorem Column.rdS_zero (c : Column) : c.rdS 0 = 0 := rfl

theorem Column.rdS_wrS (c : Column) (n m : Nat) (x : DWord) (q : Bool) :
    (c.wrS n x q).rdS m = if m = 0 then 0 else if m = n then x else c.rdS m := by
  unfold Column.rdS Column.wrS
  by_cases hm : m = 0
  · simp [hm]
  · by_cases hn : n = 0
    · subst hn; simp [hm]
    · simp [hm, hn, tabGet_tabSet]

/-- A write to s0 is discarded (R151). -/
@[simp] theorem Column.wrS_zero (c : Column) (x : DWord) (q : Bool) : c.wrS 0 x q = c := rfl

/-- A write to p0 is discarded (R152). -/
@[simp] theorem Column.wrP_zero (c : Column) (l : Nat) (b q : Bool) : c.wrP 0 l b q = c := rfl

/-- p0 reads as all ones (R152). -/
theorem Column.rdP_zero (c : Column) : c.rdP 0 = 0xFFFFFFFF := rfl

theorem Column.rdP_wrPm (c : Column) (n m : Nat) (x q : Mask) :
    (c.wrPm n x q).rdP m = if m = 0 then 0xFFFFFFFF else if m = n then x else c.rdP m := by
  unfold Column.rdP Column.wrPm
  by_cases hm : m = 0
  · simp [hm]
  · by_cases hn : n = 0
    · subst hn; simp [hm]
    · simp [hm, hn, tabGet_tabSet]

theorem Column.rdJ_wrJ (c : Column) (n m : Nat) (x : Mask) : (c.wrJ n x).rdJ m = if m = n then x else c.rdJ m :=
  tabGet_tabSet c.j n m x

/-! ### The scratchpad and the accumulators -/

theorem State.spadGet_spadSet (s : State) (core a core' a' : Nat) (w : Word) (q : Bool) :
    (s.spadSet core a w q).spadGet core' a' = if spadKey core' a' = spadKey core a then (w, q) else s.spadGet core' a' := by
  unfold State.spadGet
  rw [State.spadSet_spad, State.spadSet_spadP, tabGet_tabSet, tabGet_tabSet]; split <;> rfl

theorem State.accGet_accSet (s : State) (g core a i n g' core' a' i' n' : Nat) (w : Word) (q : Bool) :
    (s.accSet g core a i n w q).accGet g' core' a' i' n' = if accKey g' core' a' i' n' = accKey g core a i n then (w, q) else s.accGet g' core' a' i' n' := by
  unfold State.accGet
  rw [State.accSet_acc, State.accSet_accP]; simp only []; rw [tabGet_tabSet, tabGet_tabSet]; split <;> rfl

end Sys2Proof.Machine
end

