-- ==== Sys2Proof/Laws/Memory.lean ====
section
/-!
SUPPORT. Laws of memory: a read after a write, and that every operation over memory, poison, scratchpad and accumulators keeps the
canonical form.
-/

namespace Sys2Proof.Machine

/-! ## Bytes -/

theorem Memory.read_write (m : Memory) (a b : Nat) (v : Byte) : Memory.read (Memory.write m a v) b = if b = a then v else Memory.read m b :=
  tabGet_tabSet m a b v

@[simp] theorem Memory.read_write_same (m : Memory) (a : Nat) (v : Byte) : Memory.read (Memory.write m a v) a = v := by
  rw [Memory.read_write, if_pos rfl]

theorem Memory.read_write_ne (m : Memory) {a b : Nat} (v : Byte) (h : b ≠ a) : Memory.read (Memory.write m a v) b = Memory.read m b := by
  rw [Memory.read_write, if_neg h]

theorem Memory.wf_write (m : Memory) (a : Nat) (v : Byte) (h : Memory.wf m = true) : Memory.wf (Memory.write m a v) = true :=
  tabWf_tabSet m a v h

/-- Two memories in canonical form that read the same everywhere are equal. -/
theorem Memory.ext (m n : Memory) (hm : Memory.wf m = true) (hn : Memory.wf n = true) (h : ∀ a, Memory.read m a = Memory.read n a) : m = n :=
  tabWf_ext m n hm hn h

theorem State.getByte_putByte (s : State) (p q : Place) (b : Byte) :
    (s.putByte p b).getByte q = if q.addr = p.addr then b else s.getByte q := Memory.read_write s.mem p.addr q.addr b

theorem State.getByte_putByte_ne (s : State) (p q : Place) (b : Byte) (h : q.addr ≠ p.addr) : (s.putByte p b).getByte q = s.getByte q := by
  rw [State.getByte_putByte, if_neg h]

/-! ## The canonical form -/

theorem State.memWf_iff (s : State) : s.memWf = true ↔
    Memory.wf s.mem = true ∧ tabWf s.pois = true ∧ tabWf s.spad = true ∧ tabWf s.spadP = true ∧ tabWf s.acc = true ∧ tabWf s.accP = true := by
  unfold State.memWf; simp only [Bool.and_eq_true, and_assoc]

/-- A state with the same memories keeps the form. -/
theorem State.memWf_of (s t : State) (h : s.memWf = true) (h1 : t.mem = s.mem) (h2 : t.pois = s.pois) (h3 : t.spad = s.spad)
    (h4 : t.spadP = s.spadP) (h5 : t.acc = s.acc) (h6 : t.accP = s.accP) : t.memWf = true := by
  unfold State.memWf at *; rw [h1, h2, h3, h4, h5, h6]; exact h

theorem State.memWf_reset : State.reset.memWf = true := rfl

theorem foldl_keeps {α β : Type} (P : α → Prop) (f : α → β → α) (hf : ∀ a b, P a → P (f a b)) (l : List β) (a : α) (h : P a) :
    P (l.foldl f a) := by
  induction l generalizing a with
  | nil => exact h
  | cons b l ih => exact ih _ (hf _ _ h)

/-! ### Events and logs leave memory alone -/

theorem State.memWf_postEvent (s : State) (k src d : Nat) (h : s.memWf = true) : (s.postEvent k src d).memWf = true :=
  s.memWf_of _ h (by simp) (by simp) (by simp) (by simp) (by simp) (by simp)

/-- An entry in an error log changes the tables, the count of bad lines and what posting an event changes. -/
theorem State.logLine_keeps (s : State) (p : Place) (owner kind sym : Nat) :
    s.logLine p owner kind sym = { s with
      tabs := (s.logLine p owner kind sym).tabs, evq := (s.logLine p owner kind sym).evq, boot := (s.logLine p owner kind sym).boot
      pw := (s.logLine p owner kind sym).pw } := by
  unfold State.logLine State.postEvent; dsimp only
  repeat' split
  all_goals rfl

theorem State.memWf_logLine (s : State) (p : Place) (owner kind sym : Nat) (h : s.memWf = true) : (s.logLine p owner kind sym).memWf = true := by
  rw [State.logLine_keeps]; exact h

/-! ### Reads -/

theorem State.memWf_touchLine (s : State) (p : Place) (owner : Nat) (h : s.memWf = true) : (s.touchLine p owner).memWf = true := by
  unfold State.touchLine; dsimp only; split
  · exact h
  · split
    · exact h
    · split
      · exact State.memWf_logLine _ _ _ _ _ h
      · refine State.memWf_logLine _ _ _ _ _ ?_
        rw [State.memWf_iff] at h ⊢
        dsimp only
        exact ⟨h.1, tabWf_tabSet _ _ _ h.2.1, h.2.2⟩

theorem State.memWf_touchTables (s : State) (col : Nat) (ls : List Nat) (h : s.memWf = true) : (s.touchTables col ls).memWf = true :=
  foldl_keeps (fun s : State => s.memWf = true) _ (fun _ _ ha => State.memWf_touchLine _ _ _ ha) _ _ h

theorem State.memWf_takeWrong (s : State) (p : Place) (h : s.memWf = true) : (s.takeWrong p).memWf = true := by
  unfold State.takeWrong; split
  · rw [State.memWf_iff] at h ⊢
    dsimp only
    exact ⟨foldl_keeps (fun m : Memory => Memory.wf m = true) _ (fun _ _ ha => Memory.wf_write _ _ _ ha) _ _ h.1, h.2⟩
  · exact h

theorem State.memWf_fillLine (s : State) (p : Place) (owner : Nat) (h : s.memWf = true) : (s.fillLine p owner).memWf = true :=
  State.memWf_takeWrong _ _ (State.memWf_touchLine _ _ _ h)

theorem State.memWf_fillBoth (s : State) (p : Place) (owner : Nat) (h : s.memWf = true) : (s.fillBoth p owner).memWf = true := by
  unfold State.fillBoth; dsimp only; split
  · exact State.memWf_fillLine _ _ _ (State.memWf_fillLine _ _ _ h)
  · exact State.memWf_fillLine _ _ _ h

theorem State.memWf_touchMode (s : State) (p : Place) (owner : Nat) (h : s.memWf = true) : (s.touchMode p owner).memWf = true := by
  unfold State.touchMode; dsimp only; split
  · refine State.memWf_logLine _ _ _ _ _ ?_
    rw [State.memWf_iff] at h ⊢
    dsimp only
    exact ⟨h.1, tabWf_tabSet _ _ _ h.2.1, h.2.2⟩
  · exact h

theorem State.memWf_touchBlock (s : State) (p : Place) (owner : Nat) (h : s.memWf = true) : (s.touchBlock p owner).memWf = true := by
  unfold State.touchBlock; dsimp only; split
  · exact h
  · exact foldl_keeps (fun s : State => s.memWf = true) _ (fun a b ha => State.memWf_touchLine _ _ _ ha) _ _ h

theorem State.memWf_pageRead (s : State) (col : Nat) (p : Page) (raw : Bool) (po size : Nat) (h : s.memWf = true) :
    (s.pageRead col p raw po size).1.memWf = true := by
  unfold State.pageRead; dsimp only
  refine foldl_keeps (fun s : State => s.memWf = true) _ (fun a b ha => ?_) _ _ (State.memWf_touchTables _ _ _ h)
  split
  · split
    · exact State.memWf_touchLine _ _ _ (State.memWf_touchMode _ _ _ ha)
    · exact State.memWf_touchBlock _ _ _ (State.memWf_touchMode _ _ _ ha)
  · exact State.memWf_touchLine _ _ _ ha

theorem State.mem_touchLine (s : State) (p : Place) (owner : Nat) : (s.touchLine p owner).mem = s.mem := by
  unfold State.touchLine; dsimp only; split
  · rfl
  · split
    · rfl
    · split <;> rw [State.logLine_keeps]

theorem State.mem_touchTables (s : State) (col : Nat) (ls : List Nat) : (s.touchTables col ls).mem = s.mem :=
  foldl_keeps (fun t : State => t.mem = s.mem) _ (fun _ _ ha => by rw [State.mem_touchLine, ha]) _ _ rfl

theorem State.mem_touchMode (s : State) (p : Place) (owner : Nat) : (s.touchMode p owner).mem = s.mem := by
  unfold State.touchMode; dsimp only; split
  · rw [State.logLine_keeps]
  · rfl

theorem State.mem_touchBlock (s : State) (p : Place) (owner : Nat) : (s.touchBlock p owner).mem = s.mem := by
  unfold State.touchBlock; dsimp only; split
  · rfl
  · exact foldl_keeps (fun t : State => t.mem = s.mem) _ (fun a b ha => by rw [State.mem_touchLine, ha]) _ _ rfl

/-- A read changes no stored byte. -/
theorem State.mem_pageRead (s : State) (col : Nat) (p : Page) (raw : Bool) (po size : Nat) : (s.pageRead col p raw po size).1.mem = s.mem := by
  unfold State.pageRead; dsimp only
  refine foldl_keeps (fun t : State => t.mem = s.mem) _ (fun a b ha => ?_) _ _ (State.mem_touchTables _ _ _)
  split
  · split
    · rw [State.mem_touchLine, State.mem_touchMode, ha]
    · rw [State.mem_touchBlock, State.mem_touchMode, ha]
  · rw [State.mem_touchLine, ha]

/-! ### Writes -/

theorem State.memWf_putByte (s : State) (p : Place) (b : Byte) (h : s.memWf = true) : (s.putByte p b).memWf = true := by
  rw [State.memWf_iff] at h ⊢
  exact ⟨Memory.wf_write _ _ _ h.1, h.2⟩

theorem State.memWf_putBytes (bs : List Byte) (s : State) (p : Place) (h : s.memWf = true) : (s.putBytes p bs).memWf = true := by
  induction bs generalizing s p with
  | nil => exact h
  | cons b bs ih => exact ih _ _ (State.memWf_putByte _ _ _ h)

theorem State.memWf_mirrorBlock (s : State) (p : Place) (mode : Nat) (st : List Byte) (h : s.memWf = true) : (s.mirrorBlock p mode st).memWf = true := by
  unfold State.mirrorBlock; split
  · exact h
  · have hb := fun m => State.memWf_putBytes st s m h
    dsimp only
    rw [State.memWf_iff]
    simp only [State.memWf_iff] at hb
    exact ⟨(hb _).1, foldl_keeps (fun t : Tab Bool => tabWf t = true) _ (fun _ _ ha => tabWf_tabSet _ _ _ ha) _ _ (hb _).2.1, (hb _).2.2⟩

theorem State.memWf_writeBackBlock (s : State) (p : Place) (h : s.memWf = true) : (s.writeBackBlock p).memWf = true := by
  unfold State.writeBackBlock; dsimp only; split
  · exact h
  · exact State.memWf_mirrorBlock _ _ _ _ (State.memWf_putBytes _ _ _ h)

theorem State.memWf_cleanBlock (s : State) (p : Place) (h : s.memWf = true) : (s.cleanBlock p).memWf = true := by
  unfold State.cleanBlock; dsimp only
  refine foldl_keeps (fun s : State => s.memWf = true) _ (fun a b ha => ?_) _ _ (State.memWf_writeBackBlock _ _ h)
  split <;> exact ha

theorem State.memWf_storeByte (s : State) (col : Nat) (tier : Bool) (off : Nat) (b : Byte) (h : s.memWf = true) :
    (s.storeByte col tier off b).memWf = true := by
  unfold State.storeByte; dsimp only; split
  · exact State.memWf_putByte _ _ _ (State.memWf_putByte _ _ _ h)
  · exact State.memWf_putByte _ _ _ h

theorem State.memWf_pageWrite (s : State) (col : Nat) (p : Page) (raw : Bool) (po : Nat) (bs : List Byte) (h : s.memWf = true) :
    (s.pageWrite col p raw po bs).memWf = true := by
  unfold State.pageWrite; dsimp only; split
  · refine foldl_keeps (fun s : State => s.memWf = true) _ (fun a b ha => ?_) _ _ h
    exact foldl_keeps (fun s : State => s.memWf = true) _ (fun a b hb => State.memWf_storeByte _ _ _ _ _ hb) _ _ ha
  · split
    · have hm := State.memWf_touchMode s (s.pagePlace col p raw po) col h
      rw [State.memWf_iff] at hm ⊢
      dsimp only
      refine ⟨hm.1, ?_, hm.2.2⟩
      split
      · exact foldl_keeps (fun t : Tab Bool => tabWf t = true) _ (fun a b ha => tabWf_tabSet _ _ _ ha) _ _ hm.2.1
      · exact hm.2.1
    · refine foldl_keeps (fun s : State => s.memWf = true) _ (fun a b ha => State.memWf_storeByte _ _ _ _ _ ha) _ _ ?_
      split
      · exact State.memWf_writeBackBlock _ _ h
      · exact h

theorem tabWf_poisonLines (t : Tab Bool) (cells : List (Nat × Nat × Bool)) (h : tabWf t = true) : tabWf (poisonLines t cells) = true := by
  unfold poisonLines; dsimp only
  refine foldl_keeps (fun t : Tab Bool => tabWf t = true) _ (fun a b ha => ?_) _ _ h
  split
  · exact tabWf_tabSet _ _ _ ha
  · split
    · exact tabWf_tabSet _ _ _ ha
    · exact ha

theorem State.memWf_fillSpans (s : State) (cells : List (Nat × Nat × Bool)) (ws : List (Span × List Byte × Bool)) (h : s.memWf = true) :
    (s.fillSpans cells ws).memWf = true := by
  unfold State.fillSpans; dsimp only; split
  · exact h
  · have hT := foldl_keeps (fun s : State => s.memWf = true)
      (fun (s : State) (w : Span × List Byte × Bool) => s.touchTables w.1.col (s.tableLines w.1.col w.1.page))
      (fun a b ha => State.memWf_touchTables _ _ _ ha) ws s h
    refine foldl_keeps (fun s : State => s.memWf = true) _ (fun a w ha => ?_) _ _ hT
    refine foldl_keeps (fun s : State => s.memWf = true) _ (fun b i hb => ?_) _ _ ha
    split
    · exact State.memWf_touchBlock _ _ _ hb
    · split
      · exact hb
      · exact State.memWf_fillBoth _ _ _ hb

theorem State.memWf_writeSpans (s : State) (ws : List (Span × List Byte × Bool)) (h : s.memWf = true) : (s.writeSpans ws).memWf = true := by
  have h' := fun cells => foldl_keeps (fun s : State => s.memWf = true)
    (fun (s : State) (w : Span × List Byte × Bool) => s.pageWrite w.1.col w.1.page w.1.raw w.1.po w.2.1)
    (fun a b ha => State.memWf_pageWrite _ _ _ _ _ _ ha) ws (s.fillSpans cells ws) (State.memWf_fillSpans s cells ws h)
  unfold State.writeSpans; dsimp only
  specialize h' (ws.flatMap fun w => s.storeCells w.1.col w.1.page w.1.raw w.1.po w.2.1.length w.2.2)
  rw [State.memWf_iff] at h' ⊢
  exact ⟨h'.1, tabWf_poisonLines _ _ h'.2.1, h'.2.2⟩

/-! ### Scratchpad and accumulators -/

theorem State.memWf_spadSet (s : State) (core a : Nat) (w : Word) (q : Bool) (h : s.memWf = true) : (s.spadSet core a w q).memWf = true := by
  rw [State.memWf_iff] at h ⊢
  exact ⟨h.1, h.2.1, tabWf_tabSet _ _ _ h.2.2.1, tabWf_tabSet _ _ _ h.2.2.2.1, h.2.2.2.2⟩

theorem State.memWf_spadSetAll (ws : List (Word × Bool)) (s : State) (core a : Nat) (h : s.memWf = true) : (s.spadSetAll core a ws).memWf = true := by
  induction ws generalizing s a with
  | nil => exact h
  | cons w ws ih => exact ih _ _ (State.memWf_spadSet _ _ _ _ _ h)

theorem tabWf_tabClear {α : Type} [DecidableEq α] [Inhabited α] (t : Tab α) (lo n : Nat) (h : tabWf t = true) : tabWf (tabClear t lo n) = true :=
  tabWf_filter _ t h

theorem State.memWf_spadZero (s : State) (core a n : Nat) (h : s.memWf = true) : (s.spadZero core a n).memWf = true := by
  rw [State.memWf_iff] at h ⊢
  exact ⟨h.1, h.2.1, tabWf_tabClear _ _ _ h.2.2.1, tabWf_tabClear _ _ _ h.2.2.2.1, h.2.2.2.2⟩

theorem State.memWf_accSet (s : State) (g core a i n : Nat) (v : Word) (q : Bool) (h : s.memWf = true) : (s.accSet g core a i n v q).memWf = true := by
  rw [State.memWf_iff] at h ⊢
  exact ⟨h.1, h.2.1, h.2.2.1, h.2.2.2.1, tabWf_tabSet _ _ _ h.2.2.2.2.1, tabWf_tabSet _ _ _ h.2.2.2.2.2⟩

/-! ### Recovery -/

theorem State.memWf_clearMem (s : State) (key n : Nat) (h : s.memWf = true) : (s.clearMem key n).memWf = true := by
  rw [State.memWf_iff] at h ⊢
  exact ⟨tabWf_tabClear _ _ _ h.1, tabWf_tabClear _ _ _ h.2.1, h.2.2⟩

theorem tabWf_tabCopy {α : Type} [DecidableEq α] [Inhabited α] (t src : Tab α) (lo n from_ : Nat) (h : tabWf t = true) :
    tabWf (tabCopy t src lo n from_) = true := tabWf_tabSetAll _ _ (tabWf_tabClear _ _ _ h)

theorem State.memWf_copyMem (s s0 : State) (key n from_ : Nat) (h : s.memWf = true) : (s.copyMem s0 key n from_).memWf = true := by
  rw [State.memWf_iff] at h ⊢
  unfold State.copyMem; dsimp only
  exact ⟨tabWf_tabCopy _ _ _ _ _ h.1, tabWf_tabCopy _ _ _ _ _ h.2.1, h.2.2⟩

/-! ### Patrol and the save area -/

theorem State.memWf_patrolLine (s : State) (p : Place) (kind : Nat) (h : s.memWf = true) : (s.patrolLine p kind).memWf = true := by
  have e : ∀ u, ({ s with upsets := u } : State).memWf = true := fun _ => h
  unfold State.patrolLine; split
  · exact h
  · split
    · exact h
    · split
      · exact State.memWf_logLine _ _ _ _ _ (e _)
      · split
        · exact State.memWf_logLine _ _ _ _ _ h
        · refine State.memWf_logLine _ _ _ _ _ ?_
          rw [State.memWf_iff] at h ⊢
          dsimp only
          exact ⟨h.1, tabWf_tabSet _ _ _ h.2.1, h.2.2⟩

theorem State.memWf_tierBytes (s : State) (col off : Nat) (bs : List Byte) (h : s.memWf = true) : (s.tierBytes col off bs).memWf = true := by
  have h' := foldl_keeps (fun s : State => s.memWf = true) (fun (s : State) (i : Nat) => s.storeByte col true (off + i) (bs.getD i 0))
    (fun a b ha => State.memWf_storeByte _ _ _ _ _ ha) (List.range bs.length) s h
  unfold State.tierBytes; dsimp only
  rw [State.memWf_iff] at h' ⊢
  exact ⟨h'.1, tabWf_poisonLines _ _ h'.2.1, h'.2.2⟩

theorem State.memWf_imageOut (s : State) (col off core a n : Nat) (h : s.memWf = true) : (s.imageOut col off core a n).memWf = true := by
  unfold State.imageOut; dsimp only
  generalize s.spadGetAll core a n = ws
  have hb := State.memWf_tierBytes s col off (ws.flatMap fun w => bytesOf 4 w.1.toNat) h
  generalize s.tierBytes col off (ws.flatMap fun w => bytesOf 4 w.1.toNat) = t at *
  have e : ∀ (u : State) (x : Tab Bool), ({ u with imgPois := x } : State).memWf = u.memWf := fun _ _ => rfl
  refine foldl_keeps (fun s : State => s.memWf = true) _ (fun a b ha => ?_) _ _ hb
  rw [e]; exact ha

theorem State.memWf_touchTier (s : State) (col off n : Nat) (h : s.memWf = true) : (s.touchTier col off n).memWf = true := by
  unfold State.touchTier; split
  · exact h
  · exact foldl_keeps (fun s : State => s.memWf = true) _ (fun _ _ ha => State.memWf_touchLine _ _ _ ha) _ _ h

theorem State.memWf_imageIn (s : State) (col off core a n : Nat) (h : s.memWf = true) : (s.imageIn col off core a n).memWf = true := by
  unfold State.imageIn; exact State.memWf_spadSetAll _ _ _ _ (State.memWf_touchTier _ _ _ _ h)

end Sys2Proof.Machine
end

