-- ==== Sys2Proof/Laws/Fabric.lean ====
section
/-!
SUPPORT. Laws of packets and triggers: what sending a packet, reading a page and firing a trigger leave as it was.
-/

namespace Sys2Proof.Machine

/-- Posting an event changes the event queue and the count of MSI-X interrupts. -/
theorem State.postEvent_keeps (s : State) (kind src detail : Nat) : s.postEvent kind src detail =
    { s with evq := (s.postEvent kind src detail).evq, boot := (s.postEvent kind src detail).boot } := by
  unfold State.postEvent; dsimp only; split <;> rfl

/-- Everything but the packets on their way, the event queue with its interrupts, the count of free values and what is known of other modules'
memory is as it was. -/
def State.Sent (s t : State) : Prop := t = { s with net := t.net, evq := t.evq, boot := t.boot, freeIx := t.freeIx, ext := t.ext }

theorem State.Sent.trans {s t u : State} (h : s.Sent t) (h' : t.Sent u) : s.Sent u := by
  unfold State.Sent at *; rw [h']; rw [h]

theorem State.sent_postEvent (s : State) (kind src detail : Nat) : s.Sent (s.postEvent kind src detail) := by
  unfold State.Sent; rw [State.postEvent_keeps]

theorem State.sent_foldl {β : Type} (f : State → β → State) (hf : ∀ (s : State) b, s.Sent (f s b)) (l : List β) (s : State) :
    s.Sent (l.foldl f s) := by
  induction l generalizing s with
  | nil => rfl
  | cons b l ih => exact (hf s b).trans (ih _)

theorem State.sent_forget (s : State) (p : Packet) : s.Sent (s.forget p) := by
  unfold State.forget; split
  · rfl
  · refine State.sent_foldl _ ?_ _ _
    intro _ _; rfl

theorem State.sent_launchPkt (s : State) (p : Packet) : s.Sent (s.launchPkt p) := by
  unfold State.launchPkt; split <;> rfl

theorem State.sent_unreachable (s : State) (p : Packet) (cause : Nat) : s.Sent (s.unreachable p cause) := by
  unfold State.unreachable; dsimp only
  have h := (s.sent_forget p).trans ((s.forget p).sent_postEvent 5 (pktSrc p) (cause + at_ p.dest.toNat 64))
  generalize (s.forget p).postEvent 5 (pktSrc p) (cause + at_ p.dest.toNat 64) = u at *
  split
  · exact h
  · exact (h.trans (u := (u.freeAccs p.accs).1) rfl).trans (State.sent_launchPkt _ _)

/-- Sending a packet changes nothing else. -/
theorem State.sent_send (s : State) (p : Packet) : s.Sent (s.send p) := by
  unfold State.send; split
  · exact s.sent_unreachable p _
  · split
    · rfl
    · exact s.sent_unreachable p _

theorem State.sent_take (s : State) (p : Packet) : s.Sent (s.take p) := rfl

/-- Where a route is open, a packet sent is the last of those on their way. -/
theorem State.send_open (s : State) (p q : Packet) (h : s.cannotLeave p = none) (hd : s.departs p = some q) :
    s.send p = { s with net := s.net ++ [q] } := by
  unfold State.send; rw [h]; dsimp only; rw [hd]

/-- A packet for a column of this package goes by the links of the package alone. -/
theorem State.send_here (s : State) (p q : Packet) (h : pktHere p = true) (hd : s.departs p = some q) :
    s.send p = { s with net := s.net ++ [q] } :=
  s.send_open p q (by unfold State.cannotLeave; rw [if_pos h]) hd

theorem State.Sent.mem {s t : State} (h : s.Sent t) : t.mem = s.mem := by unfold State.Sent at h; rw [h]
theorem State.Sent.cols {s t : State} (h : s.Sent t) : t.cols = s.cols := by unfold State.Sent at h; rw [h]

theorem State.Sent.memWf {s t : State} (h : s.Sent t) (hs : s.memWf = true) : t.memWf = true := by unfold State.Sent at h; rw [h]; exact hs

/-! ## Reads -/

/-- Everything but what a read finds in error is as it was: poison, errors and modes of lines, the logs with the count of bad lines, the event queue
with its interrupts; and the scheduler's state, which the check of a trigger changes. -/
def State.Checked (s t : State) : Prop :=
  t = { s with tabs := t.tabs, evq := t.evq, boot := t.boot, pw := t.pw, pois := t.pois, upsets := t.upsets, modes := t.modes, sch := t.sch }

theorem State.Checked.trans {s t u : State} (h : s.Checked t) (h' : t.Checked u) : s.Checked u := by
  unfold State.Checked at *; rw [h']; rw [h]

theorem State.checked_foldl {β : Type} (f : State → β → State) (hf : ∀ (s : State) b, s.Checked (f s b)) (l : List β) (s : State) :
    s.Checked (l.foldl f s) := by
  induction l generalizing s with
  | nil => rfl
  | cons b l ih => exact (hf s b).trans (ih _)

theorem State.checked_logLine (s : State) (p : Place) (owner kind sym : Nat) : s.Checked (s.logLine p owner kind sym) := by
  unfold State.Checked; rw [State.logLine_keeps]

theorem State.checked_touchLine (s : State) (p : Place) (owner : Nat) : s.Checked (s.touchLine p owner) := by
  unfold State.touchLine; dsimp only; split
  · rfl
  · split
    · rfl
    · split
      · exact State.Checked.trans (t := { s with upsets := _ }) rfl (State.checked_logLine _ _ _ _ _)
      · exact State.Checked.trans (t := { s with upsets := _, pois := _ }) rfl (State.checked_logLine _ _ _ _ _)

theorem State.checked_touchMode (s : State) (p : Place) (owner : Nat) : s.Checked (s.touchMode p owner) := by
  unfold State.touchMode; dsimp only; split
  · exact State.Checked.trans (t := { s with modes := _, pois := _ }) rfl (State.checked_logLine _ _ _ _ _)
  · rfl

theorem State.checked_touchBlock (s : State) (p : Place) (owner : Nat) : s.Checked (s.touchBlock p owner) := by
  unfold State.touchBlock; dsimp only; split
  · rfl
  · exact State.checked_foldl _ (fun _ _ => State.checked_touchLine _ _ _) _ _

/-- A read of a page changes only what its lines' errors change. -/
theorem State.checked_pageRead (s : State) (col : Nat) (p : Page) (raw : Bool) (po size : Nat) : s.Checked (s.pageRead col p raw po size).1 := by
  unfold State.pageRead; dsimp only
  refine State.Checked.trans (State.checked_foldl _ (fun _ _ => State.checked_touchLine _ _ _) (s.tableLines col p) s)
    (State.checked_foldl _ (fun t i => ?_) _ _)
  split
  · split
    · exact (State.checked_touchMode _ _ _).trans (State.checked_touchLine _ _ _)
    · exact (State.checked_touchMode _ _ _).trans (State.checked_touchBlock _ _ _)
  · exact State.checked_touchLine _ _ _

/-! ## Triggers -/

theorem State.checked_setTrig (s : State) (ctx port : Nat) (t : TrigSt) : s.Checked (s.setTrig ctx port t) := by
  unfold State.setTrig; repeat' split
  all_goals rfl

theorem State.checked_fire (s : State) (ctx port : Nat) : s.Checked (s.fire ctx port) := by
  unfold State.fire; dsimp only
  have h := s.checked_setTrig ctx port .fired
  generalize s.setTrig ctx port .fired = u at *
  split
  · exact h
  · exact h.trans rfl

theorem State.checked_touchSem (s : State) (ctx addr : Nat) : s.Checked (s.touchSem ctx addr) := by
  unfold State.touchSem; split
  · exact State.checked_pageRead _ _ _ _ _ _
  · rfl

theorem State.checked_arm (s : State) (ctx port : Nat) : s.Checked (s.arm ctx port) := by
  unfold State.arm; split
  · rfl
  · rename_i c r t _
    split
    · rfl
    · dsimp only
      have hs : s.Checked (if recTrig r = 2 then s.touchSem c (recTrigAddr r) else s) := by
        split
        · exact s.checked_touchSem _ _
        · rfl
      generalize (if recTrig r = 2 then s.touchSem c (recTrigAddr r) else s) = u at *
      split
      · exact hs.trans (u.checked_setTrig _ _ _)
      · split
        · exact hs.trans (u.checked_fire _ _)
        · exact (hs.trans (u := { u with sch.trigs := _ }) rfl).trans (State.checked_setTrig _ _ _ _)

theorem State.checked_armWaiting (s : State) : s.Checked s.armWaiting :=
  State.checked_foldl (fun (s : State) (h : Nat × Nat) => s.arm h.1 h.2) (fun s h => s.checked_arm h.1 h.2) s.waitingHeads s

/-- Re-checking the armed triggers changes the scheduler's state, and what the reads of semaphores find. -/
theorem State.checked_recheck (s : State) (f : TrigEnt → Bool) : s.Checked (s.recheck f) := by
  unfold State.recheck; dsimp only; split
  · rfl
  · refine State.Checked.trans ?_ (State.checked_armWaiting _)
    exact State.Checked.trans (t := { s with sch.trigs := _ }) rfl
      (State.checked_foldl (fun (s : State) (e : TrigEnt) => s.fire e.ctx e.port) (fun s e => s.checked_fire e.ctx e.port) _ _)

theorem State.Checked.mem {s t : State} (h : s.Checked t) : t.mem = s.mem := by unfold State.Checked at h; rw [h]
theorem State.Checked.cols {s t : State} (h : s.Checked t) : t.cols = s.cols := by unfold State.Checked at h; rw [h]

end Sys2Proof.Machine
end

