-- ==== Sys2Proof/Laws/PerInstr.lean ====
section
/-!
SUPPORT. What holds of every instruction as syntax, one lemma per constructor.
-/

open Sys2Proof Sys2Proof.Machine

/-- The opcode map gives the instruction back from the opcode and fields of its own shape. -/
def Sys2Proof.Laws.OpcodeMap.Statement (i : Instr) : Prop :=
  match i.shape with
  | .full op f => i.formOk = true → fullInstr op.toNat f = some i
  | .pair s hop x y => pairInstr hop.toNat s x y = some i
  | .illegal _ => True
  | .event => True

open Sys2Proof.Laws.OpcodeMap

/-- X has 11 bits, X4 four. -/
theorem Sys2Proof.Laws.OpcodeMap.xOf_lt (w : Full) : xOf w < 2048 := by
  unfold xOf
  split <;> omega

theorem Sys2Proof.Laws.OpcodeMap.hnop (marker : Bool) (x : HalfArgs) (y : Half) : Statement (.hnop marker x y) := rfl
theorem Sys2Proof.Laws.OpcodeMap.halfIadd (marker : Bool) (x : HalfArgs) (y : Half) : Statement (.halfIadd marker x y) := rfl
theorem Sys2Proof.Laws.OpcodeMap.halfIsub (marker : Bool) (x : HalfArgs) (y : Half) : Statement (.halfIsub marker x y) := rfl
theorem Sys2Proof.Laws.OpcodeMap.halfAnd (marker : Bool) (x : HalfArgs) (y : Half) : Statement (.halfAnd marker x y) := rfl
theorem Sys2Proof.Laws.OpcodeMap.halfOr (marker : Bool) (x : HalfArgs) (y : Half) : Statement (.halfOr marker x y) := rfl
theorem Sys2Proof.Laws.OpcodeMap.halfXor (marker : Bool) (x : HalfArgs) (y : Half) : Statement (.halfXor marker x y) := rfl
theorem Sys2Proof.Laws.OpcodeMap.halfAndn (marker : Bool) (x : HalfArgs) (y : Half) : Statement (.halfAndn marker x y) := rfl
theorem Sys2Proof.Laws.OpcodeMap.halfShl (marker : Bool) (x : HalfArgs) (y : Half) : Statement (.halfShl marker x y) := rfl
theorem Sys2Proof.Laws.OpcodeMap.halfShr (marker : Bool) (x : HalfArgs) (y : Half) : Statement (.halfShr marker x y) := rfl
theorem Sys2Proof.Laws.OpcodeMap.halfSar (marker : Bool) (x : HalfArgs) (y : Half) : Statement (.halfSar marker x y) := rfl
theorem Sys2Proof.Laws.OpcodeMap.halfImin (marker : Bool) (x : HalfArgs) (y : Half) : Statement (.halfImin marker x y) := rfl
theorem Sys2Proof.Laws.OpcodeMap.halfImax (marker : Bool) (x : HalfArgs) (y : Half) : Statement (.halfImax marker x y) := rfl
theorem Sys2Proof.Laws.OpcodeMap.halfMov (marker : Bool) (x : HalfArgs) (y : Half) : Statement (.halfMov marker x y) := rfl
theorem Sys2Proof.Laws.OpcodeMap.halfMovi (marker : Bool) (x : HalfArgs) (y : Half) : Statement (.halfMovi marker x y) := rfl
theorem Sys2Proof.Laws.OpcodeMap.halfFadd (marker : Bool) (x : HalfArgs) (y : Half) : Statement (.halfFadd marker x y) := rfl
theorem Sys2Proof.Laws.OpcodeMap.halfFsub (marker : Bool) (x : HalfArgs) (y : Half) : Statement (.halfFsub marker x y) := rfl
theorem Sys2Proof.Laws.OpcodeMap.halfFmul (marker : Bool) (x : HalfArgs) (y : Half) : Statement (.halfFmul marker x y) := rfl
theorem Sys2Proof.Laws.OpcodeMap.halfFmin (marker : Bool) (x : HalfArgs) (y : Half) : Statement (.halfFmin marker x y) := rfl
theorem Sys2Proof.Laws.OpcodeMap.halfFmax (marker : Bool) (x : HalfArgs) (y : Half) : Statement (.halfFmax marker x y) := rfl
theorem Sys2Proof.Laws.OpcodeMap.halfFamax (marker : Bool) (x : HalfArgs) (y : Half) : Statement (.halfFamax marker x y) := rfl
theorem Sys2Proof.Laws.OpcodeMap.halfPopc (marker : Bool) (x : HalfArgs) (y : Half) : Statement (.halfPopc marker x y) := rfl
theorem Sys2Proof.Laws.OpcodeMap.halfClz (marker : Bool) (x : HalfArgs) (y : Half) : Statement (.halfClz marker x y) := rfl
theorem Sys2Proof.Laws.OpcodeMap.halfImul (marker : Bool) (x : HalfArgs) (y : Half) : Statement (.halfImul marker x y) := rfl
theorem Sys2Proof.Laws.OpcodeMap.nop (w : Full) : Statement (.nop w) := fun _ => rfl
theorem Sys2Proof.Laws.OpcodeMap.bra (w : Full) : Statement (.bra w) := fun _ => rfl
theorem Sys2Proof.Laws.OpcodeMap.brx (w : Full) : Statement (.brx w) := fun _ => rfl
theorem Sys2Proof.Laws.OpcodeMap.call (w : Full) : Statement (.call w) := fun _ => rfl
theorem Sys2Proof.Laws.OpcodeMap.callx (w : Full) : Statement (.callx w) := fun _ => rfl
theorem Sys2Proof.Laws.OpcodeMap.ret (w : Full) : Statement (.ret w) := fun _ => rfl
theorem Sys2Proof.Laws.OpcodeMap.loop (w : Full) : Statement (.loop w) := fun _ => rfl
theorem Sys2Proof.Laws.OpcodeMap.jsetMask (w : Full) : Statement (.jsetMask w) := by
  intro h
  cases hi : isImm w <;> simp_all [Instr.formOk, fullInstr]
theorem Sys2Proof.Laws.OpcodeMap.jsetEnabled (w : Full) : Statement (.jsetEnabled w) := by
  intro h
  cases hi : isImm w <;> simp_all [Instr.formOk, fullInstr]
theorem Sys2Proof.Laws.OpcodeMap.join (w : Full) : Statement (.join w) := fun _ => rfl
theorem Sys2Proof.Laws.OpcodeMap.jmov (w : Full) : Statement (.jmov w) := fun _ => rfl
theorem Sys2Proof.Laws.OpcodeMap.yield (w : Full) : Statement (.yield w) := by
  intro h
  cases hi : isImm w <;> simp_all [Instr.formOk, fullInstr, xBit0]
theorem Sys2Proof.Laws.OpcodeMap.yieldPool (w : Full) : Statement (.yieldPool w) := by
  intro h
  cases hi : isImm w <;> simp_all [Instr.formOk, fullInstr, xBit0]
theorem Sys2Proof.Laws.OpcodeMap.nap (w : Full) : Statement (.nap w) := fun _ => rfl
theorem Sys2Proof.Laws.OpcodeMap.exit (w : Full) : Statement (.exit w) := fun _ => rfl
theorem Sys2Proof.Laws.OpcodeMap.susp (w : Full) : Statement (.susp w) := fun _ => rfl
theorem Sys2Proof.Laws.OpcodeMap.resume (w : Full) : Statement (.resume w) := fun _ => rfl
theorem Sys2Proof.Laws.OpcodeMap.pinit (w : Full) : Statement (.pinit w) := fun _ => rfl
theorem Sys2Proof.Laws.OpcodeMap.pwakeRows (w : Full) : Statement (.pwakeRows w) := by
  intro h
  have hx := xOf_lt w
  cases hi : isImm w <;> simp_all [Instr.formOk, fullInstr, xb]
  omega
theorem Sys2Proof.Laws.OpcodeMap.pwakeField (w : Full) : Statement (.pwakeField w) := by
  intro h
  have hx := xOf_lt w
  cases hi : isImm w <;> simp_all [Instr.formOk, fullInstr, xb]
  omega
theorem Sys2Proof.Laws.OpcodeMap.pxform (w : Full) : Statement (.pxform w) := fun _ => rfl
theorem Sys2Proof.Laws.OpcodeMap.pcount (w : Full) : Statement (.pcount w) := fun _ => rfl
theorem Sys2Proof.Laws.OpcodeMap.pfreeRows (w : Full) : Statement (.pfreeRows w) := by
  intro h
  cases hi : isImm w <;> simp_all [Instr.formOk, fullInstr]
theorem Sys2Proof.Laws.OpcodeMap.pfreeAll (w : Full) : Statement (.pfreeAll w) := by
  intro h
  cases hi : isImm w <;> simp_all [Instr.formOk, fullInstr]
theorem Sys2Proof.Laws.OpcodeMap.pfreeWoken (w : Full) : Statement (.pfreeWoken w) := by
  intro h
  cases hi : isImm w <;> simp_all [Instr.formOk, fullInstr]
theorem Sys2Proof.Laws.OpcodeMap.setrst (w : Full) : Statement (.setrst w) := by
  intro h
  cases hi : isImm w <;> simp_all [Instr.formOk, fullInstr, xBit0]
theorem Sys2Proof.Laws.OpcodeMap.setrstClr (w : Full) : Statement (.setrstClr w) := by
  intro h
  cases hi : isImm w <;> simp_all [Instr.formOk, fullInstr, xBit0]
theorem Sys2Proof.Laws.OpcodeMap.trap (w : Full) : Statement (.trap w) := fun _ => rfl
theorem Sys2Proof.Laws.OpcodeMap.rtrap (w : Full) : Statement (.rtrap w) := by
  intro h
  cases hi : isImm w <;> simp_all [Instr.formOk, fullInstr, xBit0]
theorem Sys2Proof.Laws.OpcodeMap.rtrapStep (w : Full) : Statement (.rtrapStep w) := by
  intro h
  cases hi : isImm w <;> simp_all [Instr.formOk, fullInstr, xBit0]
theorem Sys2Proof.Laws.OpcodeMap.bkpt (w : Full) : Statement (.bkpt w) := fun _ => rfl
theorem Sys2Proof.Laws.OpcodeMap.iadd (w : Full) : Statement (.iadd w) := fun _ => rfl
theorem Sys2Proof.Laws.OpcodeMap.isub (w : Full) : Statement (.isub w) := fun _ => rfl
theorem Sys2Proof.Laws.OpcodeMap.iadd3 (w : Full) : Statement (.iadd3 w) := fun _ => rfl
theorem Sys2Proof.Laws.OpcodeMap.iaddc (w : Full) : Statement (.iaddc w) := fun _ => rfl
theorem Sys2Proof.Laws.OpcodeMap.isubb (w : Full) : Statement (.isubb w) := fun _ => rfl
theorem Sys2Proof.Laws.OpcodeMap.imul (w : Full) : Statement (.imul w) := fun _ => rfl
theorem Sys2Proof.Laws.OpcodeMap.imulh (w : Full) : Statement (.imulh w) := fun _ => rfl
theorem Sys2Proof.Laws.OpcodeMap.imad (w : Full) : Statement (.imad w) := fun _ => rfl
theorem Sys2Proof.Laws.OpcodeMap.imadw (w : Full) : Statement (.imadw w) := fun _ => rfl
theorem Sys2Proof.Laws.OpcodeMap.idiv (w : Full) : Statement (.idiv w) := fun _ => rfl
theorem Sys2Proof.Laws.OpcodeMap.irem (w : Full) : Statement (.irem w) := fun _ => rfl
theorem Sys2Proof.Laws.OpcodeMap.imin (w : Full) : Statement (.imin w) := fun _ => rfl
theorem Sys2Proof.Laws.OpcodeMap.imax (w : Full) : Statement (.imax w) := fun _ => rfl
theorem Sys2Proof.Laws.OpcodeMap.iabs (w : Full) : Statement (.iabs w) := fun _ => rfl
theorem Sys2Proof.Laws.OpcodeMap.idot4 (w : Full) : Statement (.idot4 w) := fun _ => rfl
theorem Sys2Proof.Laws.OpcodeMap.and (w : Full) : Statement (.and w) := fun _ => rfl
theorem Sys2Proof.Laws.OpcodeMap.or (w : Full) : Statement (.or w) := fun _ => rfl
theorem Sys2Proof.Laws.OpcodeMap.xor (w : Full) : Statement (.xor w) := fun _ => rfl
theorem Sys2Proof.Laws.OpcodeMap.andn (w : Full) : Statement (.andn w) := fun _ => rfl
theorem Sys2Proof.Laws.OpcodeMap.orn (w : Full) : Statement (.orn w) := fun _ => rfl
theorem Sys2Proof.Laws.OpcodeMap.shl (w : Full) : Statement (.shl w) := fun _ => rfl
theorem Sys2Proof.Laws.OpcodeMap.shr (w : Full) : Statement (.shr w) := fun _ => rfl
theorem Sys2Proof.Laws.OpcodeMap.sar (w : Full) : Statement (.sar w) := fun _ => rfl
theorem Sys2Proof.Laws.OpcodeMap.rol (w : Full) : Statement (.rol w) := fun _ => rfl
theorem Sys2Proof.Laws.OpcodeMap.fshl (w : Full) : Statement (.fshl w) := fun _ => rfl
theorem Sys2Proof.Laws.OpcodeMap.fshr (w : Full) : Statement (.fshr w) := fun _ => rfl
theorem Sys2Proof.Laws.OpcodeMap.popc (w : Full) : Statement (.popc w) := fun _ => rfl
theorem Sys2Proof.Laws.OpcodeMap.clz (w : Full) : Statement (.clz w) := fun _ => rfl
theorem Sys2Proof.Laws.OpcodeMap.ctz (w : Full) : Statement (.ctz w) := fun _ => rfl
theorem Sys2Proof.Laws.OpcodeMap.brev (w : Full) : Statement (.brev w) := fun _ => rfl
theorem Sys2Proof.Laws.OpcodeMap.bfx (w : Full) : Statement (.bfx w) := fun _ => rfl
theorem Sys2Proof.Laws.OpcodeMap.bfi (w : Full) : Statement (.bfi w) := fun _ => rfl
theorem Sys2Proof.Laws.OpcodeMap.prmb (w : Full) : Statement (.prmb w) := fun _ => rfl
theorem Sys2Proof.Laws.OpcodeMap.icmp (w : Full) : Statement (.icmp w) := fun _ => rfl
theorem Sys2Proof.Laws.OpcodeMap.isel (w : Full) : Statement (.isel w) := fun _ => rfl
theorem Sys2Proof.Laws.OpcodeMap.cvti (w : Full) : Statement (.cvti w) := fun _ => rfl
theorem Sys2Proof.Laws.OpcodeMap.mov (w : Full) : Statement (.mov w) := fun _ => rfl
theorem Sys2Proof.Laws.OpcodeMap.movi (w : Full) : Statement (.movi w) := fun _ => rfl
theorem Sys2Proof.Laws.OpcodeMap.movh (w : Full) : Statement (.movh w) := fun _ => rfl
theorem Sys2Proof.Laws.OpcodeMap.mkcol (w : Full) : Statement (.mkcol w) := fun _ => rfl
theorem Sys2Proof.Laws.OpcodeMap.colof (w : Full) : Statement (.colof w) := fun _ => rfl
theorem Sys2Proof.Laws.OpcodeMap.offof (w : Full) : Statement (.offof w) := fun _ => rfl
theorem Sys2Proof.Laws.OpcodeMap.lea (w : Full) : Statement (.lea w) := fun _ => rfl
theorem Sys2Proof.Laws.OpcodeMap.pset (w : Full) : Statement (.pset w) := fun _ => rfl
theorem Sys2Proof.Laws.OpcodeMap.pand (w : Full) : Statement (.pand w) := fun _ => rfl
theorem Sys2Proof.Laws.OpcodeMap.por (w : Full) : Statement (.por w) := fun _ => rfl
theorem Sys2Proof.Laws.OpcodeMap.pxor (w : Full) : Statement (.pxor w) := fun _ => rfl
theorem Sys2Proof.Laws.OpcodeMap.pnot (w : Full) : Statement (.pnot w) := fun _ => rfl
theorem Sys2Proof.Laws.OpcodeMap.pmov (w : Full) : Statement (.pmov w) := fun _ => rfl
theorem Sys2Proof.Laws.OpcodeMap.vote (w : Full) : Statement (.vote w) := fun _ => rfl
theorem Sys2Proof.Laws.OpcodeMap.shfl (w : Full) : Statement (.shfl w) := fun _ => rfl
theorem Sys2Proof.Laws.OpcodeMap.redc (w : Full) : Statement (.redc w) := fun _ => rfl
theorem Sys2Proof.Laws.OpcodeMap.scanc (w : Full) : Statement (.scanc w) := fun _ => rfl
theorem Sys2Proof.Laws.OpcodeMap.umov (w : Full) : Statement (.umov w) := fun _ => rfl
theorem Sys2Proof.Laws.OpcodeMap.mfsr (w : Full) : Statement (.mfsr w) := fun _ => rfl
theorem Sys2Proof.Laws.OpcodeMap.mtsr (w : Full) : Statement (.mtsr w) := fun _ => rfl
theorem Sys2Proof.Laws.OpcodeMap.rdcnt (w : Full) : Statement (.rdcnt w) := fun _ => rfl
theorem Sys2Proof.Laws.OpcodeMap.fadd (w : Full) : Statement (.fadd w) := fun _ => rfl
theorem Sys2Proof.Laws.OpcodeMap.fsub (w : Full) : Statement (.fsub w) := fun _ => rfl
theorem Sys2Proof.Laws.OpcodeMap.fmul (w : Full) : Statement (.fmul w) := fun _ => rfl
theorem Sys2Proof.Laws.OpcodeMap.ffma (w : Full) : Statement (.ffma w) := fun _ => rfl
theorem Sys2Proof.Laws.OpcodeMap.fmin (w : Full) : Statement (.fmin w) := fun _ => rfl
theorem Sys2Proof.Laws.OpcodeMap.fmax (w : Full) : Statement (.fmax w) := fun _ => rfl
theorem Sys2Proof.Laws.OpcodeMap.famax (w : Full) : Statement (.famax w) := fun _ => rfl
theorem Sys2Proof.Laws.OpcodeMap.fdiv (w : Full) : Statement (.fdiv w) := fun _ => rfl
theorem Sys2Proof.Laws.OpcodeMap.fsqrt (w : Full) : Statement (.fsqrt w) := fun _ => rfl
theorem Sys2Proof.Laws.OpcodeMap.frcp (w : Full) : Statement (.frcp w) := fun _ => rfl
theorem Sys2Proof.Laws.OpcodeMap.frsq (w : Full) : Statement (.frsq w) := fun _ => rfl
theorem Sys2Proof.Laws.OpcodeMap.fexp2 (w : Full) : Statement (.fexp2 w) := fun _ => rfl
theorem Sys2Proof.Laws.OpcodeMap.flog2 (w : Full) : Statement (.flog2 w) := fun _ => rfl
theorem Sys2Proof.Laws.OpcodeMap.fsin (w : Full) : Statement (.fsin w) := fun _ => rfl
theorem Sys2Proof.Laws.OpcodeMap.fcos (w : Full) : Statement (.fcos w) := fun _ => rfl
theorem Sys2Proof.Laws.OpcodeMap.ftanh (w : Full) : Statement (.ftanh w) := fun _ => rfl
theorem Sys2Proof.Laws.OpcodeMap.fcmp (w : Full) : Statement (.fcmp w) := fun _ => rfl
theorem Sys2Proof.Laws.OpcodeMap.fclass (w : Full) : Statement (.fclass w) := fun _ => rfl
theorem Sys2Proof.Laws.OpcodeMap.frnd (w : Full) : Statement (.frnd w) := fun _ => rfl
theorem Sys2Proof.Laws.OpcodeMap.fscl (w : Full) : Statement (.fscl w) := fun _ => rfl
theorem Sys2Proof.Laws.OpcodeMap.ffrx (w : Full) : Statement (.ffrx w) := fun _ => rfl
theorem Sys2Proof.Laws.OpcodeMap.f2i (w : Full) : Statement (.f2i w) := fun _ => rfl
theorem Sys2Proof.Laws.OpcodeMap.i2f (w : Full) : Statement (.i2f w) := fun _ => rfl
theorem Sys2Proof.Laws.OpcodeMap.fcvt (w : Full) : Statement (.fcvt w) := fun _ => rfl
theorem Sys2Proof.Laws.OpcodeMap.fpack (w : Full) : Statement (.fpack w) := fun _ => rfl
theorem Sys2Proof.Laws.OpcodeMap.funpk (w : Full) : Statement (.funpk w) := fun _ => rfl
theorem Sys2Proof.Laws.OpcodeMap.fdot2 (w : Full) : Statement (.fdot2 w) := fun _ => rfl
theorem Sys2Proof.Laws.OpcodeMap.hndec (w : Full) : Statement (.hndec w) := fun _ => rfl
theorem Sys2Proof.Laws.OpcodeMap.ld (w : Full) : Statement (.ld w) := fun _ => rfl
theorem Sys2Proof.Laws.OpcodeMap.st (w : Full) : Statement (.st w) := fun _ => rfl
theorem Sys2Proof.Laws.OpcodeMap.lds (w : Full) : Statement (.lds w) := fun _ => rfl
theorem Sys2Proof.Laws.OpcodeMap.sts (w : Full) : Statement (.sts w) := fun _ => rfl
theorem Sys2Proof.Laws.OpcodeMap.ldw (w : Full) : Statement (.ldw w) := fun _ => rfl
theorem Sys2Proof.Laws.OpcodeMap.stw (w : Full) : Statement (.stw w) := fun _ => rfl
theorem Sys2Proof.Laws.OpcodeMap.ldr (w : Full) : Statement (.ldr w) := fun _ => rfl
theorem Sys2Proof.Laws.OpcodeMap.str (w : Full) : Statement (.str w) := fun _ => rfl
theorem Sys2Proof.Laws.OpcodeMap.ldro (w : Full) : Statement (.ldro w) := fun _ => rfl
theorem Sys2Proof.Laws.OpcodeMap.pref (w : Full) : Statement (.pref w) := fun _ => rfl
theorem Sys2Proof.Laws.OpcodeMap.copy (w : Full) : Statement (.copy w) := fun _ => rfl
theorem Sys2Proof.Laws.OpcodeMap.copym (w : Full) : Statement (.copym w) := fun _ => rfl
theorem Sys2Proof.Laws.OpcodeMap.xch (w : Full) : Statement (.xch w) := fun _ => rfl
theorem Sys2Proof.Laws.OpcodeMap.seal (w : Full) : Statement (.seal w) := fun _ => rfl
theorem Sys2Proof.Laws.OpcodeMap.unseal (w : Full) : Statement (.unseal w) := fun _ => rfl
theorem Sys2Proof.Laws.OpcodeMap.flush (w : Full) : Statement (.flush w) := fun _ => rfl
theorem Sys2Proof.Laws.OpcodeMap.surf (w : Full) : Statement (.surf w) := fun _ => rfl
theorem Sys2Proof.Laws.OpcodeMap.atom (w : Full) : Statement (.atom w) := fun _ => rfl
theorem Sys2Proof.Laws.OpcodeMap.acas (w : Full) : Statement (.acas w) := fun _ => rfl
theorem Sys2Proof.Laws.OpcodeMap.red (w : Full) : Statement (.red w) := fun _ => rfl
theorem Sys2Proof.Laws.OpcodeMap.fence (w : Full) : Statement (.fence w) := fun _ => rfl
theorem Sys2Proof.Laws.OpcodeMap.bar (w : Full) : Statement (.bar w) := fun _ => rfl
theorem Sys2Proof.Laws.OpcodeMap.bara (w : Full) : Statement (.bara w) := fun _ => rfl
theorem Sys2Proof.Laws.OpcodeMap.barw (w : Full) : Statement (.barw w) := fun _ => rfl
theorem Sys2Proof.Laws.OpcodeMap.bard (w : Full) : Statement (.bard w) := fun _ => rfl
theorem Sys2Proof.Laws.OpcodeMap.elect (w : Full) : Statement (.elect w) := fun _ => rfl
theorem Sys2Proof.Laws.OpcodeMap.rinit (w : Full) : Statement (.rinit w) := fun _ => rfl
theorem Sys2Proof.Laws.OpcodeMap.rarv (w : Full) : Statement (.rarv w) := fun _ => rfl
theorem Sys2Proof.Laws.OpcodeMap.rxpt (w : Full) : Statement (.rxpt w) := fun _ => rfl
theorem Sys2Proof.Laws.OpcodeMap.rwait (w : Full) : Statement (.rwait w) := fun _ => rfl
theorem Sys2Proof.Laws.OpcodeMap.qbind (w : Full) : Statement (.qbind w) := fun _ => rfl
theorem Sys2Proof.Laws.OpcodeMap.qpush (w : Full) : Statement (.qpush w) := fun _ => rfl
theorem Sys2Proof.Laws.OpcodeMap.qpop (w : Full) : Statement (.qpop w) := fun _ => rfl
theorem Sys2Proof.Laws.OpcodeMap.qstat (w : Full) : Statement (.qstat w) := fun _ => rfl
theorem Sys2Proof.Laws.OpcodeMap.submit (w : Full) : Statement (.submit w) := fun _ => rfl
theorem Sys2Proof.Laws.OpcodeMap.semsg (w : Full) : Statement (.semsg w) := fun _ => rfl
theorem Sys2Proof.Laws.OpcodeMap.tdesc (w : Full) : Statement (.tdesc w) := fun _ => rfl
theorem Sys2Proof.Laws.OpcodeMap.tfill (w : Full) : Statement (.tfill w) := fun _ => rfl
theorem Sys2Proof.Laws.OpcodeMap.tstore (w : Full) : Statement (.tstore w) := fun _ => rfl
theorem Sys2Proof.Laws.OpcodeMap.tzero (w : Full) : Statement (.tzero w) := fun _ => rfl
theorem Sys2Proof.Laws.OpcodeMap.mma (w : Full) : Statement (.mma w) := fun _ => rfl
theorem Sys2Proof.Laws.OpcodeMap.aclr (w : Full) : Statement (.aclr w) := fun _ => rfl
theorem Sys2Proof.Laws.OpcodeMap.adrain (w : Full) : Statement (.adrain w) := fun _ => rfl
theorem Sys2Proof.Laws.OpcodeMap.aspill (w : Full) : Statement (.aspill w) := fun _ => rfl
theorem Sys2Proof.Laws.OpcodeMap.aload (w : Full) : Statement (.aload w) := fun _ => rfl
theorem Sys2Proof.Laws.OpcodeMap.mwait (w : Full) : Statement (.mwait w) := fun _ => rfl
theorem Sys2Proof.Laws.OpcodeMap.clctP2p (w : Full) : Statement (.clctP2p w) := by
  intro h
  cases hi : isImm w <;> simp_all [Instr.formOk, fullInstr, xf]
theorem Sys2Proof.Laws.OpcodeMap.clctGroup (w : Full) : Statement (.clctGroup w) := by
  intro h
  have h1 : isImm w = false := by simp_all [Instr.formOk]
  have h2 : ¬ xOf w % 8 < 3 := by simp_all [Instr.formOk, xf]
  have h3 : ¬ xOf w % 8 = 7 := by
    simp [Instr.formOk, xf] at h
    omega
  simp [fullInstr, h1, h2, h3]
theorem Sys2Proof.Laws.OpcodeMap.clctRec (w : Full) : Statement (.clctRec w) := by
  intro h
  cases hi : isImm w <;> simp_all [Instr.formOk, fullInstr, xf]
theorem Sys2Proof.Laws.OpcodeMap.repart (w : Full) : Statement (.repart w) := fun _ => rfl
theorem Sys2Proof.Laws.OpcodeMap.sfckey (w : Full) : Statement (.sfckey w) := fun _ => rfl
theorem Sys2Proof.Laws.OpcodeMap.cstat (w : Full) : Statement (.cstat w) := fun _ => rfl
theorem Sys2Proof.Laws.OpcodeMap.unassignedOpcodeWord (word : DWord) : Statement (.unassignedOpcodeWord word) := trivial
theorem Sys2Proof.Laws.OpcodeMap.windowBRead (link off len : Nat) : Statement (.windowBRead link off len) := trivial
theorem Sys2Proof.Laws.OpcodeMap.windowBWrite (link off : Nat) (bytes : List Byte) : Statement (.windowBWrite link off bytes) := trivial
theorem Sys2Proof.Laws.OpcodeMap.evqHeadWrite (value : DWord) : Statement (.evqHeadWrite value) := trivial
theorem Sys2Proof.Laws.OpcodeMap.contextTableWrite (entry : Nat) (value : Rec64) : Statement (.contextTableWrite entry value) := trivial
theorem Sys2Proof.Laws.OpcodeMap.registerWrite (off : Nat) (value : DWord) : Statement (.registerWrite off value) := trivial
theorem Sys2Proof.Laws.OpcodeMap.submitLaunchRecord (link port : Nat) (w : PortWrite) : Statement (.submitLaunchRecord link port w) := trivial
theorem Sys2Proof.Laws.OpcodeMap.submitCollectiveRecord (link : Nat) (w : PortWrite) : Statement (.submitCollectiveRecord link w) := trivial
theorem Sys2Proof.Laws.OpcodeMap.submitManagementRecord (link : Nat) (w : PortWrite) : Statement (.submitManagementRecord link w) := trivial
theorem Sys2Proof.Laws.OpcodeMap.postedWriteToPort (link port : Nat) : Statement (.postedWriteToPort link port) := trivial
theorem Sys2Proof.Laws.OpcodeMap.operatingPointChangeDone (cluster : Nat) : Statement (.operatingPointChangeDone cluster) := trivial
theorem Sys2Proof.Laws.OpcodeMap.clusterClockGate (cluster : Nat) : Statement (.clusterClockGate cluster) := trivial
theorem Sys2Proof.Laws.OpcodeMap.clusterWake (cause : WakeCause) : Statement (.clusterWake cause) := trivial
theorem Sys2Proof.Laws.OpcodeMap.vaultWriteBack (block : Nat) : Statement (.vaultWriteBack block) := trivial
theorem Sys2Proof.Laws.OpcodeMap.ldrRequest (p : Packet) : Statement (.ldrRequest p) := trivial
theorem Sys2Proof.Laws.OpcodeMap.readReply (p : Packet) : Statement (.readReply p) := trivial
theorem Sys2Proof.Laws.OpcodeMap.strWrite (p : Packet) : Statement (.strWrite p) := trivial
theorem Sys2Proof.Laws.OpcodeMap.writeAcknowledgement (p : Packet) : Statement (.writeAcknowledgement p) := trivial
theorem Sys2Proof.Laws.OpcodeMap.ldroRequest (p : Packet) : Statement (.ldroRequest p) := trivial
theorem Sys2Proof.Laws.OpcodeMap.tellerData (move : TellerMove) : Statement (.tellerData move) := trivial
theorem Sys2Proof.Laws.OpcodeMap.tellerAcknowledgement (p : Packet) : Statement (.tellerAcknowledgement p) := trivial
theorem Sys2Proof.Laws.OpcodeMap.replicaInvalidate (op : Nat) (what : InvalidateOf) : Statement (.replicaInvalidate op what) := trivial
theorem Sys2Proof.Laws.OpcodeMap.invalidateAcknowledgement (op cluster : Nat) : Statement (.invalidateAcknowledgement op cluster) := trivial
theorem Sys2Proof.Laws.OpcodeMap.atomicRequest (p : Packet) : Statement (.atomicRequest p) := trivial
theorem Sys2Proof.Laws.OpcodeMap.atomicReply (p : Packet) : Statement (.atomicReply p) := trivial
theorem Sys2Proof.Laws.OpcodeMap.redRequest (p : Packet) : Statement (.redRequest p) := trivial
theorem Sys2Proof.Laws.OpcodeMap.semsgPacket (p : Packet) : Statement (.semsgPacket p) := trivial
theorem Sys2Proof.Laws.OpcodeMap.message (p : Packet) : Statement (.message p) := trivial
theorem Sys2Proof.Laws.OpcodeMap.messageAccepted (p : Packet) : Statement (.messageAccepted p) := trivial
theorem Sys2Proof.Laws.OpcodeMap.messageBounced (p : Packet) : Statement (.messageBounced p) := trivial
theorem Sys2Proof.Laws.OpcodeMap.messageResend (column queue : Nat) : Statement (.messageResend column queue) := trivial
theorem Sys2Proof.Laws.OpcodeMap.launchStart (ctx queue : Nat) : Statement (.launchStart ctx queue) := trivial
theorem Sys2Proof.Laws.OpcodeMap.groupDispatch (core : Nat) : Statement (.groupDispatch core) := trivial
theorem Sys2Proof.Laws.OpcodeMap.groupFinish (group : Nat) : Statement (.groupFinish group) := trivial
theorem Sys2Proof.Laws.OpcodeMap.groupRetirement (group : Nat) : Statement (.groupRetirement group) := trivial
theorem Sys2Proof.Laws.OpcodeMap.translationFaultRewalk (entry : Nat) : Statement (.translationFaultRewalk entry) := trivial
theorem Sys2Proof.Laws.OpcodeMap.foldTurn (column : Nat) : Statement (.foldTurn column) := trivial
theorem Sys2Proof.Laws.OpcodeMap.trapEntry (column slot : Nat) : Statement (.trapEntry column slot) := trivial
theorem Sys2Proof.Laws.OpcodeMap.resultWriteback (column result : Nat) : Statement (.resultWriteback column result) := trivial
theorem Sys2Proof.Laws.OpcodeMap.napExpiry (column slot : Nat) : Statement (.napExpiry column slot) := trivial
theorem Sys2Proof.Laws.OpcodeMap.copyCompletion (op : Nat) : Statement (.copyCompletion op) := trivial
theorem Sys2Proof.Laws.OpcodeMap.tfillCompletion (op : Nat) : Statement (.tfillCompletion op) := trivial
theorem Sys2Proof.Laws.OpcodeMap.tstoreCompletion (op : Nat) : Statement (.tstoreCompletion op) := trivial
theorem Sys2Proof.Laws.OpcodeMap.mintTaskStart (core task : Nat) : Statement (.mintTaskStart core task) := trivial
theorem Sys2Proof.Laws.OpcodeMap.mintTaskCompletion (core task : Nat) : Statement (.mintTaskCompletion core task) := trivial
theorem Sys2Proof.Laws.OpcodeMap.sealCompletion (op : Nat) : Statement (.sealCompletion op) := trivial
theorem Sys2Proof.Laws.OpcodeMap.flushCompletion (op : Nat) : Statement (.flushCompletion op) := trivial
theorem Sys2Proof.Laws.OpcodeMap.collectiveCompletion (op : Nat) : Statement (.collectiveCompletion op) := trivial
theorem Sys2Proof.Laws.OpcodeMap.repartMove (op : Nat) : Statement (.repartMove op) := trivial
theorem Sys2Proof.Laws.OpcodeMap.repartCompletion (op : Nat) : Statement (.repartCompletion op) := trivial
theorem Sys2Proof.Laws.OpcodeMap.replicaEviction (cluster line : Nat) : Statement (.replicaEviction cluster line) := trivial
theorem Sys2Proof.Laws.OpcodeMap.tzeroCompletion (op : Nat) : Statement (.tzeroCompletion op) := trivial
theorem Sys2Proof.Laws.OpcodeMap.perst1NReset (asserted : Bool) : Statement (.perst1NReset asserted) := trivial
theorem Sys2Proof.Laws.OpcodeMap.linkTraining (link : Nat) (outcome : TrainOutcome) : Statement (.linkTraining link outcome) := trivial
theorem Sys2Proof.Laws.OpcodeMap.stagingWrite (off : Nat) (bytes : List Byte) : Statement (.stagingWrite off bytes) := trivial
theorem Sys2Proof.Laws.OpcodeMap.spdmGetCertificate (slot : Nat) : Statement (.spdmGetCertificate slot) := trivial
theorem Sys2Proof.Laws.OpcodeMap.spdmChallenge (nonce : List Byte) : Statement (.spdmChallenge nonce) := trivial
theorem Sys2Proof.Laws.OpcodeMap.spdmGetMeasurements (index : Nat) : Statement (.spdmGetMeasurements index) := trivial
theorem Sys2Proof.Laws.OpcodeMap.boardPowerLimitRequest (watts : Nat) : Statement (.boardPowerLimitRequest watts) := trivial
theorem Sys2Proof.Laws.OpcodeMap.powerMeasurement (watts : Nat) : Statement (.powerMeasurement watts) := trivial
theorem Sys2Proof.Laws.OpcodeMap.thermalThrottle (sensor reading : Nat) : Statement (.thermalThrottle sensor reading) := trivial
theorem Sys2Proof.Laws.OpcodeMap.thermalEvent (sensor reading : Nat) : Statement (.thermalEvent sensor reading) := trivial
theorem Sys2Proof.Laws.OpcodeMap.thermalTrip (sensor reading : Nat) : Statement (.thermalTrip sensor reading) := trivial
theorem Sys2Proof.Laws.OpcodeMap.heartbeatPoll (cluster : Nat) (answered : Bool) : Statement (.heartbeatPoll cluster answered) := trivial
theorem Sys2Proof.Laws.OpcodeMap.selfRefreshEntry (channel : Nat) : Statement (.selfRefreshEntry channel) := trivial
theorem Sys2Proof.Laws.OpcodeMap.selfRefreshExit (channel : Nat) : Statement (.selfRefreshExit channel) := trivial
theorem Sys2Proof.Laws.OpcodeMap.patrolRead (line : Nat) : Statement (.patrolRead line) := trivial
theorem Sys2Proof.Laws.OpcodeMap.portDown (port : Nat) : Statement (.portDown port) := trivial
theorem Sys2Proof.Laws.OpcodeMap.linkDown (link : AfzilLink) : Statement (.linkDown link) := trivial
theorem Sys2Proof.Laws.OpcodeMap.fabricHeaderDiscard (p : Packet) : Statement (.fabricHeaderDiscard p) := trivial
theorem Sys2Proof.Laws.OpcodeMap.logicCheckerError (column : Nat) (coreShared : Bool) : Statement (.logicCheckerError column coreShared) := trivial
theorem Sys2Proof.Laws.OpcodeMap.sliceFailure (cause : SliceCause) : Statement (.sliceFailure cause) := trivial
theorem Sys2Proof.Laws.OpcodeMap.secondTierChannelDown (channel : Nat) : Statement (.secondTierChannelDown channel) := trivial
theorem Sys2Proof.Laws.OpcodeMap.watchdogExpiry (column : Nat) : Statement (.watchdogExpiry column) := trivial
theorem Sys2Proof.Laws.OpcodeMap.corruptedFlitRetry (flit : FlitRetry) : Statement (.corruptedFlitRetry flit) := trivial
theorem Sys2Proof.Laws.OpcodeMap.powerUp : Statement (.powerUp) := trivial
theorem Sys2Proof.Laws.OpcodeMap.pwrGoodDeassert : Statement (.pwrGoodDeassert) := trivial
theorem Sys2Proof.Laws.OpcodeMap.perst0NAssert : Statement (.perst0NAssert) := trivial
theorem Sys2Proof.Laws.OpcodeMap.perst0NDeassert : Statement (.perst0NDeassert) := trivial
theorem Sys2Proof.Laws.OpcodeMap.bootRomReady : Statement (.bootRomReady) := trivial
theorem Sys2Proof.Laws.OpcodeMap.verifyAndStartJasper : Statement (.verifyAndStartJasper) := trivial
theorem Sys2Proof.Laws.OpcodeMap.verifyAndLoadMicrocode : Statement (.verifyAndLoadMicrocode) := trivial
theorem Sys2Proof.Laws.OpcodeMap.memoryTrainingDone : Statement (.memoryTrainingDone) := trivial
theorem Sys2Proof.Laws.OpcodeMap.microcodeLoadDone : Statement (.microcodeLoadDone) := trivial
theorem Sys2Proof.Laws.OpcodeMap.switchContext : Statement (.switchContext) := trivial
theorem Sys2Proof.Laws.OpcodeMap.preemptionSecondPass : Statement (.preemptionSecondPass) := trivial
theorem Sys2Proof.Laws.OpcodeMap.switchContextComplete : Statement (.switchContextComplete) := trivial
theorem Sys2Proof.Laws.OpcodeMap.setPowerLimit : Statement (.setPowerLimit) := trivial
theorem Sys2Proof.Laws.OpcodeMap.signalSemaphore : Statement (.signalSemaphore) := trivial
theorem Sys2Proof.Laws.OpcodeMap.abortContext : Statement (.abortContext) := trivial
theorem Sys2Proof.Laws.OpcodeMap.contain : Statement (.contain) := trivial
theorem Sys2Proof.Laws.OpcodeMap.foldAndRemap : Statement (.foldAndRemap) := trivial
theorem Sys2Proof.Laws.OpcodeMap.instructionFetchFault : Statement (.instructionFetchFault) := trivial
end

