-- ==== Sys2Proof/Laws/Words.lean ====
section
/-!
SUPPORT. Laws of the operations a word goes through: what merging, filling and a run's end leave of a column, what the checks before a word's
own effect let pass, and what carrying out an effect does to the machine.
-/

namespace Sys2Proof.Machine

/-! ## What the operations on splits keep of a column -/

theorem Column.KeepsAll.refl (c : Column) : c.KeepsAll c := rfl

theorem Column.KeepsAll.trans {a b c : Column} (h : a.KeepsAll b) (h' : b.KeepsAll c) : a.KeepsAll c := by
  unfold Column.KeepsAll at *; rw [h'] ; rw [h]

theorem Column.keepsAll_setSlot (c : Column) (k : Nat) (sp : Split) : c.KeepsAll (c.setSlot k sp) := rfl

theorem Column.keepsAll_modSlot (c : Column) (k : Nat) (f : Split → Split) : c.KeepsAll (c.modSlot k f) := rfl

theorem Column.keepsAll_foldl {β : Type} (f : Column → β → Column) (hf : ∀ (c : Column) b, c.KeepsAll (f c b)) (l : List β) (c : Column) :
    c.KeepsAll (l.foldl f c) := by
  induction l generalizing c with
  | nil => exact .refl c
  | cons b l ih => exact (hf c b).trans (ih _)

theorem Column.keepsAll_fillOne (c : Column) : c.KeepsAll c.fillOne := by
  unfold Column.fillOne; split <;> rfl

theorem Column.keepsAll_fill (c : Column) : c.KeepsAll c.fill :=
  (((keepsAll_fillOne c).trans (keepsAll_fillOne _)).trans (keepsAll_fillOne _)).trans (keepsAll_fillOne _)

theorem Column.keepsAll_mergePair (c : Column) (i j : Nat) : c.KeepsAll (c.mergePair i j) := by
  unfold Column.mergePair; dsimp only; split
  · split <;> rfl
  · rfl

theorem Column.keepsAll_mergePool (c : Column) (i : Nat) : c.KeepsAll (c.mergePool i) := by
  unfold Column.mergePool; dsimp only; split <;> rfl

theorem Column.keepsAll_merge (c : Column) : c.KeepsAll c.merge := by
  unfold Column.merge; dsimp only
  exact (keepsAll_foldl (fun (c : Column) (p : Nat × Nat) => c.mergePair p.1 p.2) (fun c p => keepsAll_mergePair c p.1 p.2) _ c).trans
    (keepsAll_foldl Column.mergePool keepsAll_mergePool slots4 _)

theorem Column.keepsAll_chooseDemote (c : Column) : c.KeepsAll c.chooseDemote := by
  unfold Column.chooseDemote; split
  · split <;> rfl
  · rfl

theorem Column.keepsAll_demoteNow (c : Column) (k : Nat) : c.KeepsAll (c.demoteNow k) := by
  unfold Column.demoteNow; dsimp only; split <;> rfl

/-- A marker event changes splits, pool and counts only. -/
theorem Column.keepsAll_marker (c : Column) (k : Nat) : c.KeepsAll (c.marker k) := by
  unfold Column.marker
  refine .trans (b := { c with mec := c.mec + 1 }) rfl ?_
  exact (((keepsAll_demoteNow _ k).trans (keepsAll_merge _)).trans (keepsAll_fill _)).trans (keepsAll_chooseDemote _)

theorem Column.keepsAll_endRun (c : Column) (k : Nat) (cond : SplitCond) : c.KeepsAll (c.endRun k cond) :=
  (keepsAll_modSlot c k _).trans (keepsAll_marker _ k)

theorem Column.keepsAll_countWord (c : Column) (k : Nat) : c.KeepsAll (c.countWord k) := rfl

/-! ### Counts -/

theorem Column.mec_foldl {β : Type} (f : Column → β → Column) (hf : ∀ c b, (f c b).mec = c.mec ∧ (f c b).retired = c.retired) (l : List β)
    (c : Column) : (l.foldl f c).mec = c.mec ∧ (l.foldl f c).retired = c.retired := by
  induction l generalizing c with
  | nil => exact ⟨rfl, rfl⟩
  | cons b l ih => have h := ih (f c b); have h' := hf c b; exact ⟨h.1.trans h'.1, h.2.trans h'.2⟩

theorem Column.mec_fillOne (c : Column) : c.fillOne.mec = c.mec ∧ c.fillOne.retired = c.retired := by
  unfold Column.fillOne; split <;> exact ⟨rfl, rfl⟩

theorem Column.mec_fill (c : Column) : c.fill.mec = c.mec ∧ c.fill.retired = c.retired := by
  unfold Column.fill; constructor <;> simp only [mec_fillOne]

theorem Column.mec_merge (c : Column) : c.merge.mec = c.mec ∧ c.merge.retired = c.retired := by
  have h := mec_foldl (fun c (p : Nat × Nat) => c.mergePair p.1 p.2) (fun c p => by
    unfold Column.mergePair; dsimp only; split
    · split <;> exact ⟨rfl, rfl⟩
    · exact ⟨rfl, rfl⟩) [(0, 1), (0, 2), (0, 3), (1, 2), (1, 3), (2, 3)] c
  have h' := mec_foldl Column.mergePool (fun c i => by
    unfold Column.mergePool; dsimp only; split <;> exact ⟨rfl, rfl⟩) slots4
      (([(0, 1), (0, 2), (0, 3), (1, 2), (1, 3), (2, 3)] : List (Nat × Nat)).foldl (fun c p => c.mergePair p.1 p.2) c)
  exact ⟨h'.1.trans h.1, h'.2.trans h.2⟩

theorem Column.mec_chooseDemote (c : Column) : c.chooseDemote.mec = c.mec ∧ c.chooseDemote.retired = c.retired := by
  unfold Column.chooseDemote; split
  · split <;> exact ⟨rfl, rfl⟩
  · exact ⟨rfl, rfl⟩

theorem Column.mec_demoteNow (c : Column) (k : Nat) : (c.demoteNow k).mec = c.mec ∧ (c.demoteNow k).retired = c.retired := by
  unfold Column.demoteNow; dsimp only; split <;> exact ⟨rfl, rfl⟩

/-- A run's end is one marker event (R134). -/
theorem Column.mec_endRun (c : Column) (k : Nat) (cond : SplitCond) :
    (c.endRun k cond).mec = c.mec + 1 ∧ (c.endRun k cond).retired = c.retired := by
  unfold Column.endRun Column.marker; dsimp only
  constructor
  · rw [(mec_chooseDemote _).1, (mec_fill _).1, (mec_merge _).1, (mec_demoteNow _ k).1]; rfl
  · rw [(mec_chooseDemote _).2, (mec_fill _).2, (mec_merge _).2, (mec_demoteNow _ k).2]; rfl

/-! ## Checks before a word's own effect -/

/-- A word outside an issuing split is a fault. -/
theorem State.word_noSplit {s : State} (h : s.run = none) (w : Full) (f : KHdr → Full → Fmt) (pts : Ctx → List Pt) (body : Ctx → Eff) :
    s.word w f pts body = .fault .noSplit := by unfold State.word; rw [h]

/-- A word in the split that issues always answers a next state: its effect carried out. -/
theorem State.word_next {s : State} {col k : Nat} (h : s.run = some (col, k)) (w : Full) (f : KHdr → Full → Fmt) (pts : Ctx → List Pt)
    (body : Ctx → Eff) : s.word w f pts body = .next (s.perform col k w.marker
      ((s.ctxFor col k w).eff (f (s.ctxFor col k w).h w) (pts (s.ctxFor col k w)) body)) := by unfold State.word; rw [h]

/-- A word that checks 6 to 8 let pass has its own effect. -/
theorem State.word_clear {s : State} {col k : Nat} {w : Full} {f : KHdr → Full → Fmt} {pts : Ctx → List Pt} (h : s.run = some (col, k))
    (hc : s.Clears col k w f pts) (body : Ctx → Eff) : s.word w f pts body = .next (s.perform col k w.marker (body (s.ctxFor col k w))) := by
  rw [State.word_next h]; unfold Ctx.eff; rw [show (s.ctxFor col k w).h = s.hdr col from rfl, show _ = none from hc]

/-- A word that checks 6 to 8 stop has no other effect than theirs. -/
theorem State.word_stopped {s : State} {col k : Nat} {w : Full} {f : KHdr → Full → Fmt} {pts : Ctx → List Pt} {e : Eff} (h : s.run = some (col, k))
    (he : (s.ctxFor col k w).early (f (s.hdr col) w) (pts (s.ctxFor col k w)) = some e) (body : Ctx → Eff) :
    s.word w f pts body = .next (s.perform col k w.marker e) := by
  rw [State.word_next h]; unfold Ctx.eff; rw [show (s.ctxFor col k w).h = s.hdr col from rfl, he]

/-- Checks 6 to 8 stop a word with a trap or a wait at issue, never otherwise. -/
theorem Ctx.early_cases {x : Ctx} {f : Fmt} {pts : List Pt} {e : Eff} (h : x.early f pts = some e) :
    e = .stall ∨ ∃ code lanes a info, e = .trap code lanes a info x.sp.pc := by
  unfold Ctx.early at h; dsimp only at h
  split at h
  · cases h; exact .inr ⟨_, _, _, _, rfl⟩
  · split at h
    · cases h; exact .inr ⟨_, _, _, _, rfl⟩
    · split at h
      · cases h; exact .inl rfl
      · unfold Ctx.contain at h; split at h
        · cases h
        · cases h; exact .inr ⟨_, _, _, _, rfl⟩

/-! ## Carrying out an effect -/

/-- Nothing changes but a column, the faults, the pipes and the split that issues. -/
def State.Touches (s t : State) (col : Nat) : Prop :=
  t = { s with faults := t.faults, cols := t.cols, cores := t.cores, run := t.run } ∧ ∀ c, c ≠ col → tabGet t.cols c = tabGet s.cols c

theorem State.Touches.trans {s t u : State} {col : Nat} (h : s.Touches t col) (h' : t.Touches u col) : s.Touches u col := by
  refine ⟨?_, fun c hc => (h'.2 c hc).trans (h.2 c hc)⟩
  have e := h'.1; rw [h.1] at e; exact e

theorem State.touches_setCol (s : State) (col : Nat) (v : Column) : s.Touches (s.setCol col v) col :=
  ⟨rfl, fun _ hd => (congrArg (fun m => tabGet m _) (s.setCol_cols col v)).trans (tabGet_tabSet_ne s.cols (some v) hd)⟩

theorem State.touches_modCol (s : State) (col : Nat) (f : Column → Column) : s.Touches (s.modCol col f) col := s.touches_setCol col _

theorem State.touches_dropFaults (s : State) (col : Nat) (f : Waiter → Bool) : s.Touches (s.dropFaults f) col := ⟨rfl, fun _ _ => rfl⟩

theorem State.touches_endPipe (s : State) (col k : Nat) : s.Touches (s.endPipe col k) col := ⟨rfl, fun _ _ => rfl⟩

theorem State.touches_endRun (s : State) (col k : Nat) (cond : SplitCond) : s.Touches (s.endRun col k cond) col :=
  (s.touches_modCol col _).trans (State.touches_endPipe _ col k)

@[simp] theorem State.col_endPipe (s : State) (col k d : Nat) : (s.endPipe col k).col d = s.col d := rfl

theorem State.col_endRun (s : State) (col k : Nat) (cond : SplitCond) : (s.endRun col k cond).col col = (s.col col).endRun k cond :=
  (State.col_endPipe _ col k col).trans (s.col_modCol_same col _)

theorem State.run_endRun (s : State) (col k : Nat) (cond : SplitCond) : (s.endRun col k cond).run = none := rfl

theorem State.cores_endRun (s : State) (col k : Nat) (cond : SplitCond) :
    (s.endRun col k cond).cores = tabMod s.cores (coreOf col) fun r => r.release col k := rfl

theorem State.faults_endRun (s : State) (col k : Nat) (cond : SplitCond) : (s.endRun col k cond).faults = s.faults := rfl

@[simp] theorem State.col_dropFaults (s : State) (f : Waiter → Bool) (d : Nat) : (s.dropFaults f).col d = s.col d := rfl

/-- The state in which a word of slot k is counted, from the state of its effect. -/
def State.counted (s : State) (col k : Nat) : State := (s.dropFaults (fun f => f == .split col k)).modCol col fun c => c.countWord k

theorem State.col_counted (s : State) (col k : Nat) : (s.counted col k).col col = (s.col col).countWord k := State.col_modCol_same _ col _

theorem State.touches_counted (s : State) (col k : Nat) : s.Touches (s.counted col k) col :=
  (s.touches_dropFaults col _).trans (State.touches_modCol _ col _)

theorem State.faults_counted (s : State) (col k : Nat) :
    (s.counted col k).faults = s.faults.filter (fun f => !(f.waiter == .split col k)) := rfl

theorem Column.retired_countWord (c : Column) (k : Nat) : (c.countWord k).retired = (c.retired + 1) % 2 ^ 48 := rfl

theorem Column.slot_countWord (c : Column) (k : Nat) : (c.countWord k).slot k =
    { c.slot k with runLen := (c.slot k).runLen + 1, wcnt := min ((c.slot k).wcnt + 1) (2 ^ 32 - 1) } := by
  unfold Column.countWord Column.modSlot; rw [Column.slot_setSlot_same]; rfl

theorem Column.slot_countWord_ne (c : Column) (k : Nat) {j : Nat} (h : j ≠ k) : (c.countWord k).slot j = c.slot j := by
  unfold Column.countWord Column.modSlot; rw [Column.slot_setSlot, if_neg h]; rfl

theorem State.perform_go {s : State} {col k : Nat} (h : (s.col col).stepping = false) (marker : Bool) (t : State)
    (pcs : Option (List (Nat × DWord))) (stop : Bool) :
    s.perform col k marker (.go t pcs stop) = (t.counted col k).advance col k marker pcs stop := by
  unfold State.perform; dsimp only
  rw [h]; simp only [Bool.false_and, Bool.false_eq_true, if_false]; rfl

theorem State.advance_on (u : State) (col k : Nat) (marker : Bool) : u.advance col k marker none false =
    if marker = true ∨ 256 ≤ ((u.col col).slot k).runLen then
      (u.setCol col ((u.col col).setSlot k { (u.col col).slot k with pc := pcNext ((u.col col).slot k).pc })).endRun col k
        ((u.col col).restCond ((u.col col).slot k).mask)
    else u.setCol col ((u.col col).setSlot k { (u.col col).slot k with pc := pcNext ((u.col col).slot k).pc }) := by
  unfold State.advance Column.runFull; dsimp only
  simp only [Bool.false_or, Bool.or_eq_true, decide_eq_true_eq]

/-- The last part of a word that goes on, from the counted state u and its column c2. -/
theorem State.performed_on {s u : State} {c' c2 : Column} {col k : Nat} (marker : Bool)
    (hlen : (c2.slot k).runLen = ((s.col col).slot k).runLen + 1)
    (hpc : (c2.slot k).pc = ((s.col col).slot k).pc ∧ (c2.slot k).mask = ((s.col col).slot k).mask
      ∧ (c2.slot k).held = ((s.col col).slot k).held ∧ (c2.slot k).trap = ((s.col col).slot k).trap)
    (hoth : ∀ j, j ≠ k → c2.slot j = (s.col col).slot j)
    (hc2r : c2.retired = ((s.col col).retired + 1) % 2 ^ 48) (hc2m : c2.mec = (s.col col).mec) (hc2p : c2.pool = (s.col col).pool)
    (hkeep : c'.KeepsAll c2) (hu : s.Touches u col) (hf : u.faults = s.faults.filter (fun f => !(f.waiter == .split col k)))
    (hcr : u.cores = s.cores) (hrn : u.run = s.run) (hcol : u.col col = c2) :
    s.Performed (u.advance col k marker none false) col k marker ∧ c'.KeepsAll ((u.advance col k marker none false).col col) := by
  rw [State.advance_on, hcol, hlen]
  generalize hc3 : c2.setSlot k { c2.slot k with pc := pcNext (c2.slot k).pc } = c3
  have h3 : c'.KeepsAll c3 := by rw [← hc3]; exact hkeep.trans (c2.keepsAll_setSlot k _)
  have h3r : c3.retired = c2.retired := by rw [← hc3, Column.setSlot_retired]
  have h3m : c3.mec = c2.mec := by rw [← hc3, Column.setSlot_mec]
  have h3p : c3.pool = c2.pool := by rw [← hc3, Column.setSlot_pool]
  have h3s : c3.slot k = { c2.slot k with pc := pcNext (c2.slot k).pc } := by rw [← hc3, Column.slot_setSlot_same]
  have h3o : ∀ j, j ≠ k → c3.slot j = c2.slot j := fun j hj => by rw [← hc3, Column.slot_setSlot, if_neg hj]
  unfold State.Performed State.GoesOn
  by_cases hl : marker = true ∨ 256 ≤ ((s.col col).slot k).runLen + 1
  · simp only [if_pos hl, -Nat.reducePow]
    have he := State.col_endRun (u.setCol col c3) col k (c2.restCond (c2.slot k).mask)
    have ht := hu.trans ((u.touches_setCol col c3).trans (State.touches_endRun _ col k (c2.restCond (c2.slot k).mask)))
    have hr' := State.run_endRun (u.setCol col c3) col k (c2.restCond (c2.slot k).mask)
    have hcr' := State.cores_endRun (u.setCol col c3) col k (c2.restCond (c2.slot k).mask)
    have hf' := State.faults_endRun (u.setCol col c3) col k (c2.restCond (c2.slot k).mask)
    generalize (u.setCol col c3).endRun col k (c2.restCond (c2.slot k).mask) = t at *
    rw [State.col_setCol_same] at he
    have hm' := c3.mec_endRun k (c2.restCond (c2.slot k).mask)
    rw [he]
    refine ⟨⟨⟨ht.1, hf'.trans hf, ht.2⟩, by rw [hm'.2, h3r, hc2r], hr', by rw [hcr', State.setCol_cores, hcr], by rw [hm'.1, h3m, hc2m]⟩, ?_⟩
    exact h3.trans (c3.keepsAll_endRun k _)
  · simp only [if_neg hl, State.col_setCol_same, -Nat.reducePow]
    have ht := hu.trans (u.touches_setCol col c3)
    refine ⟨⟨⟨ht.1, hf, ht.2⟩, by rw [h3r, hc2r], hrn, hcr, by rw [h3m, hc2m], by rw [h3p, hc2p], ?_, ?_, ?_, ?_, ?_, ?_⟩, h3⟩
    · rw [h3s]; exact congrArg pcNext hpc.1
    · rw [h3s]; exact hpc.2.1
    · rw [h3s]; exact hpc.2.2.1
    · rw [h3s]; exact hlen
    · rw [h3s]; exact hpc.2.2.2
    · intro j hj; rw [h3o j hj]; exact hoth j hj

/-- A word whose lanes all go on, and whose own effect changed only its column's registers and results: it is performed. -/
theorem State.performed_go {s t : State} {col k : Nat} (hi : s.Issues col k) (marker : Bool) (hu : s.Touches t col)
    (hf : t.faults = s.faults) (hcr : t.cores = s.cores) (hrn : t.run = s.run)
    (hm : (t.col col).mec = (s.col col).mec) (hp : (t.col col).pool = (s.col col).pool) (hr : (t.col col).retired = (s.col col).retired)
    (hk : (t.col col).slot k = { (s.col col).slot k with pend := ((t.col col).slot k).pend })
    (ho : ∀ j, j ≠ k → (t.col col).slot j = (s.col col).slot j) :
    s.Performed (s.perform col k marker (.go t none false)) col k marker
      ∧ (t.col col).KeepsAll ((s.perform col k marker (.go t none false)).col col) := by
  have hlen : (((t.col col).countWord k).slot k).runLen = ((s.col col).slot k).runLen + 1 := by rw [Column.slot_countWord, hk]
  have hpc : (((t.col col).countWord k).slot k).pc = ((s.col col).slot k).pc ∧ (((t.col col).countWord k).slot k).mask = ((s.col col).slot k).mask
      ∧ (((t.col col).countWord k).slot k).held = ((s.col col).slot k).held ∧ (((t.col col).countWord k).slot k).trap = ((s.col col).slot k).trap := by
    rw [Column.slot_countWord, hk]; exact ⟨rfl, rfl, rfl, rfl⟩
  have hoth : ∀ j, j ≠ k → ((t.col col).countWord k).slot j = (s.col col).slot j := fun j hj => by
    rw [Column.slot_countWord_ne _ _ hj, ho j hj]
  rw [State.perform_go hi.2.2]
  exact State.performed_on marker hlen hpc hoth (by rw [Column.retired_countWord, hr]) hm hp (Column.keepsAll_countWord _ k)
    (hu.trans (t.touches_counted col k)) ((t.faults_counted col k).trans (by rw [hf])) hcr hrn (t.col_counted col k)

/-- The same for a word that changed only its column. -/
theorem State.performed_setCol {s : State} {col k : Nat} (hi : s.Issues col k) (marker : Bool) (c' : Column)
    (hm : c'.mec = (s.col col).mec) (hp : c'.pool = (s.col col).pool) (hr : c'.retired = (s.col col).retired)
    (hk : c'.slot k = { (s.col col).slot k with pend := (c'.slot k).pend }) (ho : ∀ j, j ≠ k → c'.slot j = (s.col col).slot j) :
    s.Performed (s.perform col k marker (.go (s.setCol col c') none false)) col k marker
      ∧ c'.KeepsAll ((s.perform col k marker (.go (s.setCol col c') none false)).col col) := by
  have e := s.col_setCol_same col c'
  have h := State.performed_go hi marker (s.touches_setCol col c') rfl rfl rfl (by rw [e, hm]) (by rw [e, hp]) (by rw [e, hr])
    (by rw [e]; exact hk) (fun j hj => by rw [e]; exact ho j hj)
  rw [e] at h; exact h

/-- The same for a word that changed nothing. -/
theorem State.performed_same {s : State} {col k : Nat} (hi : s.Issues col k) (marker : Bool) :
    s.Performed (s.perform col k marker (.go s none false)) col k marker
      ∧ (s.col col).KeepsAll ((s.perform col k marker (.go s none false)).col col) :=
  State.performed_go hi marker ⟨rfl, fun _ _ => rfl⟩ rfl rfl rfl rfl rfl rfl rfl (fun _ _ => rfl)

end Sys2Proof.Machine
end

