-- ==== Sys2Proof/Laws/Results.lean ====
section
/-!
SUPPORT. Laws of results: what the register writes of a word deliver, and what a fixed-latency and a variable-latency word leave behind.
-/

namespace Sys2Proof.Machine

/-! ## The writes of a word -/

theorem map_fold (d : Opnd) (wide sgn : Bool) (f : Nat → Nat × Bool × FpFlags) (ls : List Nat) (a : List RWrite × FpFlags) :
    ls.foldl (fun (acc : List RWrite × FpFlags) l => (acc.1 ++ wrOne d wide sgn l (f l).1 (f l).2.1, acc.2 ||| (f l).2.2)) a =
      (a.1 ++ ls.flatMap (fun l => wrOne d wide sgn l (f l).1 (f l).2.1), ls.foldl (fun m l => m ||| (f l).2.2) a.2) := by
  induction ls generalizing a with
  | nil => simp
  | cons l ls ih => rw [List.foldl_cons, ih]; simp

/-- The writes of a word, lane by lane. -/
theorem Ctx.map_writes (x : Ctx) (d : Opnd) (wide sgn : Bool) (f : Nat → Nat × Bool × FpFlags) :
    (x.map d wide sgn f).1 = (x.lanesFor d).flatMap fun l => wrOne d wide sgn l (f l).1 (f l).2.1 := by
  unfold Ctx.map; dsimp only; rw [map_fold]; simp

theorem Ctx.map_flags (x : Ctx) (d : Opnd) (wide sgn : Bool) (f : Nat → Nat × Bool × FpFlags) :
    (x.map d wide sgn f).2 = (x.lanesFor d).foldl (fun m l => m ||| (f l).2.2) 0 := by
  unfold Ctx.map; dsimp only; rw [map_fold]

theorem Column.applyWrites_nil (c : Column) : c.applyWrites [] = c := rfl

theorem Column.applyWrites_append (c : Column) (a b : List RWrite) : c.applyWrites (a ++ b) = (c.applyWrites a).applyWrites b :=
  List.foldl_append

/-- A column keeps everything but its registers. -/
def Column.OnlyRegs (c c' : Column) : Prop :=
  c' = { c with v := c'.v, vp := c'.vp, s := c'.s, sp := c'.sp, p := c'.p, pp := c'.pp }

theorem Column.OnlyRegs.trans {a b c : Column} (h : a.OnlyRegs b) (h' : b.OnlyRegs c) : a.OnlyRegs c := by
  unfold Column.OnlyRegs at *; rw [h']; rw [h]

theorem Column.onlyRegs_applyWrite (c : Column) (w : RWrite) : c.OnlyRegs (c.applyWrite w) := by
  cases w with
  | vec => rfl
  | uni n x q => unfold Column.applyWrite Column.wrS; dsimp only; split <;> rfl
  | prd n l b q => unfold Column.applyWrite Column.wrP; dsimp only; split <;> rfl

/-- Register writes change registers only. -/
theorem Column.onlyRegs_applyWrites (c : Column) (ws : List RWrite) : c.OnlyRegs (c.applyWrites ws) := by
  induction ws generalizing c with
  | nil => rfl
  | cons w ws ih => exact (c.onlyRegs_applyWrite w).trans (ih _)

/-! ### Registers after one write -/

theorem Column.rdV_wrS (c : Column) (n m l : Nat) (x : DWord) (q : Bool) : (c.wrS n x q).rdV m l = c.rdV m l := by unfold Column.rdV; simp
theorem Column.rdVp_wrS (c : Column) (n m l : Nat) (x : DWord) (q : Bool) : (c.wrS n x q).rdVp m l = c.rdVp m l := by unfold Column.rdVp; simp
theorem Column.rdV_wrP (c : Column) (n m l k : Nat) (b q : Bool) : (c.wrP n k b q).rdV m l = c.rdV m l := by unfold Column.rdV; simp
theorem Column.rdVp_wrP (c : Column) (n m l k : Nat) (b q : Bool) : (c.wrP n k b q).rdVp m l = c.rdVp m l := by unfold Column.rdVp; simp
theorem Column.rdS_wrV (c : Column) (n m l : Nat) (x : Word) (q : Bool) : (c.wrV n l x q).rdS m = c.rdS m := rfl
theorem Column.rdSp_wrV (c : Column) (n m l : Nat) (x : Word) (q : Bool) : (c.wrV n l x q).rdSp m = c.rdSp m := rfl
theorem Column.rdS_wrP (c : Column) (n m l : Nat) (b q : Bool) : (c.wrP n l b q).rdS m = c.rdS m := by unfold Column.rdS; simp
theorem Column.rdSp_wrP (c : Column) (n m l : Nat) (b q : Bool) : (c.wrP n l b q).rdSp m = c.rdSp m := by unfold Column.rdSp; simp
theorem Column.rdP_wrV (c : Column) (n m l : Nat) (x : Word) (q : Bool) : (c.wrV n l x q).rdP m = c.rdP m := rfl
theorem Column.rdPp_wrV (c : Column) (n m l : Nat) (x : Word) (q : Bool) : (c.wrV n l x q).rdPp m = c.rdPp m := rfl
theorem Column.rdP_wrS (c : Column) (n m : Nat) (x : DWord) (q : Bool) : (c.wrS n x q).rdP m = c.rdP m := by unfold Column.rdP; simp
theorem Column.rdPp_wrS (c : Column) (n m : Nat) (x : DWord) (q : Bool) : (c.wrS n x q).rdPp m = c.rdPp m := by unfold Column.rdPp; simp

theorem Column.rdSp_wrSp (c : Column) (n m : Nat) (x : DWord) (q : Bool) (hm : m < 64) :
    (c.wrS n x q).rdSp m = if m = n ∧ n ≠ 0 then q else c.rdSp m := by
  unfold Column.rdSp Column.wrS
  by_cases hm : m = 0
  · subst hm; by_cases hn : n = 0 <;> simp [hn, eq_comm]
  · by_cases hn : n = 0
    · subst hn; simp [hm]
    · simp only [hn, hm, if_false, ne_eq, not_false_eq_true, and_true]; exact getLsbD_setBit _ _ _ _ (by omega)

theorem Column.rdP_wrP (c : Column) (n m l k : Nat) (b q : Bool) (hk : k < 32) :
    ((c.wrP n l b q).rdP m).getLsbD k = if m = n ∧ n ≠ 0 ∧ k = l then b else (c.rdP m).getLsbD k := by
  unfold Column.rdP Column.wrP
  by_cases hm : m = 0
  · subst hm; by_cases hn : n = 0
    · simp [hn]
    · simp [hn, show ¬ 0 = n from fun e => hn e.symm]
  · by_cases hn : n = 0
    · subst hn; simp [hm]
    · simp only [hn, hm, if_false, ne_eq, not_false_eq_true, true_and]; rw [tabGet_tabMod]
      by_cases h : m = n
      · subst h; simp only [if_true, true_and]; exact getLsbD_setBit _ _ _ _ hk
      · simp [h]

theorem Column.rdPp_wrP (c : Column) (n m l k : Nat) (b q : Bool) (hk : k < 32) :
    ((c.wrP n l b q).rdPp m).getLsbD k = if m = n ∧ n ≠ 0 ∧ k = l then q else (c.rdPp m).getLsbD k := by
  unfold Column.rdPp Column.wrP
  by_cases hm : m = 0
  · subst hm; by_cases hn : n = 0
    · simp [hn]
    · simp [hn, show ¬ 0 = n from fun e => hn e.symm]
  · by_cases hn : n = 0
    · subst hn; simp [hm]
    · simp only [hn, hm, if_false, ne_eq, not_false_eq_true, true_and]; rw [tabGet_tabMod]
      by_cases h : m = n
      · subst h; simp only [if_true, true_and]; exact getLsbD_setBit _ _ _ _ hk
      · simp [h]

/-! ## Lanes of a mask -/

theorem mem_lanes32 {l : Nat} : l ∈ lanes32 ↔ l < 32 := by
  constructor
  · intro h; simp only [lanes32, List.mem_cons, List.not_mem_nil, or_false] at h; omega
  · intro h; interval_cases l <;> decide

theorem mem_lanesOf {m : Mask} {l : Nat} : l ∈ lanesOf m ↔ l < 32 ∧ m.getLsbD l = true := by
  unfold lanesOf; rw [List.mem_filter, mem_lanes32]

theorem lanesOf_eq_nil {m : Mask} : lanesOf m = [] ↔ m = 0 := by
  constructor
  · intro h; apply BitVec.eq_of_getLsbD_eq; intro i hi
    have := fun e => (List.eq_nil_iff_forall_not_mem.1 h i) (mem_lanesOf.2 ⟨hi, e⟩)
    simpa using this
  · rintro rfl; rfl

/-! ## What the writes of a word deliver -/

/-- The registers after one lane's writes to a vector register. -/
theorem Column.vec_wrOne (c : Column) (m : BitVec 7) (wide sgn : Bool) (l v : Nat) (q : Bool) (hl : l < 32) (n k : Nat) (hk : k < 32) :
    ((c.applyWrites (wrOne (.v m) wide sgn l v q)).rdV n k, (c.applyWrites (wrOne (.v m) wide sgn l v q)).rdVp n k) =
      if k = l ∧ n = m.toNat then (BitVec.ofNat 32 v, q)
      else if k = l ∧ wide = true ∧ n = m.toNat + 1 then (BitVec.ofNat 32 (v / 2 ^ 32), q) else (c.rdV n k, c.rdVp n k) := by
  cases wide
  · show ((c.wrV m.toNat l (BitVec.ofNat 32 v) q).rdV n k, (c.wrV m.toNat l (BitVec.ofNat 32 v) q).rdVp n k) = _
    rw [Column.rdV_wrV _ _ _ _ _ _ _ hl hk, Column.rdVp_wrV _ _ _ _ _ _ _ hk]
    by_cases h : n = m.toNat ∧ k = l
    · rw [if_pos h, if_pos h, if_pos ⟨h.2, h.1⟩]
    · rw [if_neg h, if_neg h, if_neg (fun e => h ⟨e.2, e.1⟩), if_neg (fun e => Bool.noConfusion e.2.1)]
  · show (((c.wrV m.toNat l (BitVec.ofNat 32 v) q).wrV (m.toNat + 1) l (BitVec.ofNat 32 (v / 2 ^ 32)) q).rdV n k,
      ((c.wrV m.toNat l (BitVec.ofNat 32 v) q).wrV (m.toNat + 1) l (BitVec.ofNat 32 (v / 2 ^ 32)) q).rdVp n k) = _
    rw [Column.rdV_wrV _ _ _ _ _ _ _ hl hk, Column.rdVp_wrV _ _ _ _ _ _ _ hk, Column.rdV_wrV _ _ _ _ _ _ _ hl hk,
      Column.rdVp_wrV _ _ _ _ _ _ _ hk]
    by_cases hkl : k = l
    · by_cases h : n = m.toNat
      · simp [hkl, h]
      · by_cases h' : n = m.toNat + 1 <;> simp [hkl, h, h']
    · simp [hkl]

/-- Writes to one lane's vector registers leave uniform and predicate registers. -/
theorem Column.other_wrOne_v (c : Column) (m : BitVec 7) (wide sgn : Bool) (l v : Nat) (q : Bool) (n : Nat) :
    (c.applyWrites (wrOne (.v m) wide sgn l v q)).rdS n = c.rdS n ∧ (c.applyWrites (wrOne (.v m) wide sgn l v q)).rdSp n = c.rdSp n
      ∧ (c.applyWrites (wrOne (.v m) wide sgn l v q)).rdP n = c.rdP n ∧ (c.applyWrites (wrOne (.v m) wide sgn l v q)).rdPp n = c.rdPp n := by
  cases wide <;> exact ⟨rfl, rfl, rfl, rfl⟩

/-- The writes of a list of lanes to a vector register. -/
theorem Column.regs_v (m : BitVec 7) (wide sgn : Bool) (val : Nat → Nat) (poi : Nat → Bool) (ls : List Nat) (hls : ∀ l ∈ ls, l < 32) (c : Column) :
    c.Regs (c.applyWrites (ls.flatMap fun l => wrOne (.v m) wide sgn l (val l) (poi l)))
      (fun n l => if l ∉ ls then none else if n = m.toNat then some (BitVec.ofNat 32 (val l), poi l)
        else if wide = true ∧ n = m.toNat + 1 then some (BitVec.ofNat 32 (val l / 2 ^ 32), poi l) else none)
      (fun _ => none) (fun _ _ => none) := by
  induction ls generalizing c with
  | nil => exact ⟨fun n l _ => by simp [Column.applyWrites], fun n _ => rfl, fun n l _ => rfl⟩
  | cons a ls ih =>
    have h := ih (fun l hl => hls l (List.mem_cons_of_mem _ hl)) (c.applyWrites (wrOne (.v m) wide sgn a (val a) (poi a)))
    rw [List.flatMap_cons, Column.applyWrites_append]
    refine ⟨fun n l hl => ?_, fun n hn => ?_, fun n l hl => ?_⟩
    · rw [h.1 n l hl, Column.vec_wrOne _ _ _ _ _ _ _ (hls a (List.mem_cons_self ..)) _ _ hl]
      by_cases hla : l = a
      · subst hla
        by_cases hm : l ∈ ls <;> by_cases h1 : n = m.toNat <;> by_cases h2 : n = m.toNat + 1 <;> cases wide <;> simp_all
      · by_cases hm : l ∈ ls <;> by_cases h1 : n = m.toNat <;> by_cases h2 : n = m.toNat + 1 <;> cases wide <;> simp_all
    · have o := c.other_wrOne_v m wide sgn a (val a) (poi a) n
      rw [h.2.1 n hn]; show (_, _) = (_, _); rw [o.1, o.2.1]
    · have o := c.other_wrOne_v m wide sgn a (val a) (poi a) n
      rw [h.2.2 n l hl]; show (_, _) = (_, _); rw [o.2.2.1, o.2.2.2]

/-- The registers after a write to a uniform register. -/
theorem Column.regs_s (c : Column) (m : BitVec 6) (x : DWord) (q : Bool) :
    c.Regs (c.wrS m.toNat x q) (fun _ _ => none) (fun n => if n = m.toNat ∧ n ≠ 0 then some (x, q) else none) (fun _ _ => none) := by
  refine ⟨fun n l _ => ?_, fun n hn => ?_, fun n l _ => ?_⟩
  · show (_, _) = (_, _); rw [Column.rdV_wrS, Column.rdVp_wrS]
  · rw [Column.rdS_wrS, Column.rdSp_wrSp _ _ _ _ _ hn]
    by_cases h0 : n = 0
    · subst h0
      by_cases hm : m.toNat = 0
      · simp [hm, Column.rdS]
      · simp [show ¬ 0 = m.toNat from fun e => hm e.symm, Column.rdS]
    · by_cases h : n = m.toNat
      · simp [h, h ▸ h0]
      · simp [h0, h]
  · show (_, _) = (_, _); rw [Column.rdP_wrS, Column.rdPp_wrS]

/-- The writes of a list of lanes to a predicate. -/
theorem Column.regs_p (m : BitVec 3) (wide sgn : Bool) (val : Nat → Nat) (poi : Nat → Bool) (ls : List Nat) (c : Column) :
    c.Regs (c.applyWrites (ls.flatMap fun l => wrOne (.p m) wide sgn l (val l) (poi l))) (fun _ _ => none) (fun _ => none)
      (fun n l => if n = m.toNat ∧ n ≠ 0 ∧ l ∈ ls then some (val l % 2 == 1, poi l) else none) := by
  induction ls generalizing c with
  | nil => exact ⟨fun n l _ => rfl, fun n _ => rfl, fun n l _ => by simp [Column.applyWrites]⟩
  | cons a ls ih =>
    have h := ih (c.applyWrites (wrOne (.p m) wide sgn a (val a) (poi a)))
    rw [List.flatMap_cons, Column.applyWrites_append]
    have e : c.applyWrites (wrOne (.p m) wide sgn a (val a) (poi a)) = c.wrP m.toNat a (val a % 2 == 1) (poi a) := rfl
    rw [e] at h ⊢
    refine ⟨fun n l hl => ?_, fun n hn => ?_, fun n l hl => ?_⟩
    · rw [h.1 n l hl]; show (_, _) = (_, _); rw [Column.rdV_wrP, Column.rdVp_wrP]
    · rw [h.2.1 n hn]; show (_, _) = (_, _); rw [Column.rdS_wrP, Column.rdSp_wrP]
    · rw [h.2.2 n l hl, Column.rdP_wrP _ _ _ _ _ _ _ hl, Column.rdPp_wrP _ _ _ _ _ _ _ hl]
      by_cases hn : n = m.toNat
      · by_cases h0 : m.toNat = 0
        · simp [hn, h0]
        · by_cases hla : l = a
          · subst hla; by_cases hm : l ∈ ls <;> simp [hn, h0, hm]
          · by_cases hm : l ∈ ls <;> simp [hn, h0, hm, hla]
      · simp [hn]

theorem Column.Regs.congr {c c' : Column} {fv gv : Nat → Nat → Option (Word × Bool)} {fs gs : Nat → Option (DWord × Bool)}
    {fp gp : Nat → Nat → Option (Bool × Bool)} (h : c.Regs c' fv fs fp) (hv : ∀ n l, l < 32 → fv n l = gv n l) (hs : ∀ n, fs n = gs n)
    (hp : ∀ n l, l < 32 → fp n l = gp n l) : c.Regs c' gv gs gp :=
  ⟨fun n l hl => hv n l hl ▸ h.1 n l hl, fun n hn => hs n ▸ h.2.1 n hn, fun n l hl => hp n l hl ▸ h.2.2 n l hl⟩

theorem Column.Regs.refl (c : Column) : c.Regs c (fun _ _ => none) (fun _ => none) (fun _ _ => none) :=
  ⟨fun _ _ _ => rfl, fun _ _ => rfl, fun _ _ _ => rfl⟩

/-- The writes of a word deliver its values to its destination (R210, R272, R273). -/
theorem Ctx.delivers_map (x : Ctx) (d : Opnd) (wide sgn : Bool) (f : Nat → Nat × Bool × FpFlags) :
    x.c.Delivers (x.c.applyWrites (x.map d wide sgn f).1) d wide sgn x.en (fun l => (f l).1) (fun l => (f l).2.1) := by
  rw [Ctx.map_writes]
  have hl : ∀ l ∈ lanesOf x.en, l < 32 := fun l h => (mem_lanesOf.1 h).1
  cases d with
  | v m =>
    refine (Column.regs_v m wide sgn (fun l => (f l).1) (fun l => (f l).2.1) (lanesOf x.en) hl x.c).congr (fun n l hl => ?_) (fun _ => rfl) (fun _ _ _ => rfl)
    unfold vecDest; dsimp only
    by_cases he : x.en.getLsbD l = true
    · simp [mem_lanesOf, hl, he]
    · simp [mem_lanesOf, he]
  | s m =>
    unfold Ctx.lanesFor
    by_cases he : x.en = 0
    · simp only [isUni, if_true, he, List.flatMap_nil]
      refine (Column.Regs.refl x.c).congr (fun _ _ _ => rfl) (fun n => ?_) (fun _ _ _ => rfl)
      simp [uniDest]
    · simp only [isUni, if_true, he, if_false, List.flatMap_cons, List.flatMap_nil, List.append_nil]
      refine (Column.regs_s x.c m (if wide then BitVec.ofNat 64 (f (lowLane x.en)).1 else ext64 sgn (f (lowLane x.en)).1) (f (lowLane x.en)).2.1).congr
        (fun _ _ _ => rfl) (fun n => ?_) (fun _ _ _ => rfl)
      unfold uniDest; dsimp only
      by_cases hn : n = m.toNat ∧ n ≠ 0
      · have hn' : n = m.toNat ∧ n ≠ 0 ∧ x.en ≠ 0 := ⟨hn.1, hn.2, he⟩
        rw [if_pos hn, if_pos hn']
        have e : ext64 sgn (f (lowLane x.en)).1 = if sgn = true then (BitVec.ofNat 32 (f (lowLane x.en)).1).signExtend 64
            else (BitVec.ofNat 32 (f (lowLane x.en)).1).setWidth 64 := by
          unfold ext64; split
          · rfl
          · apply BitVec.eq_of_toNat_eq; simp
        rw [e]
      · rw [if_neg hn, if_neg (fun e => hn ⟨e.1, e.2.1⟩)]
  | p m =>
    refine (Column.regs_p m wide sgn (fun l => (f l).1) (fun l => (f l).2.1) (lanesOf x.en) x.c).congr (fun _ _ _ => rfl) (fun _ => rfl) (fun n l hl => ?_)
    unfold prdDest; dsimp only
    simp only [mem_lanesOf, hl, true_and, Nat.testBit_zero]; rfl
  | _ =>
    have : ∀ ls : List Nat, ls.flatMap (fun _ => ([] : List RWrite)) = [] := fun ls => by induction ls <;> simp_all
    simp only [wrOne, this]; exact Column.Regs.refl x.c

/-! ## Words that complete -/

/-- What splits, pool and counts are does not matter to what was delivered. -/
theorem Column.Regs.after {c c' c'' : Column} {fv : Nat → Nat → Option (Word × Bool)} {fs : Nat → Option (DWord × Bool)}
    {fp : Nat → Nat → Option (Bool × Bool)} (h : c.Regs c' fv fs fp) (hk : c'.KeepsAll c'') : c.Regs c'' fv fs fp :=
  ⟨fun n l hl => (congrArg (fun c : Column => (c.rdV n l, c.rdVp n l)) hk).trans (h.1 n l hl),
    fun n hn => (congrArg (fun c : Column => (c.rdS n, c.rdSp n)) hk).trans (h.2.1 n hn),
    fun n l hl => (congrArg (fun c : Column => ((c.rdP n).getLsbD l, (c.rdPp n).getLsbD l)) hk).trans (h.2.2 n l hl)⟩

theorem Column.OnlyRegs.slot {c c' : Column} (h : c.OnlyRegs c') (k : Nat) : c'.slot k = c.slot k :=
  (congrArg (fun c : Column => c.slot k) (show _ = _ from h)).trans rfl

/-- A fixed-latency word completes (R139, R272, R273): its values are delivered, its flags added, and its split goes on. -/
theorem State.yields_fixed {s : State} {i : Instr} {col k : Nat} (hi : s.Issues col k) (w : Full) (wide sgn : Bool) (f : Nat → Nat × Bool × FpFlags)
    (h : exec i s = .next (s.perform col k w.marker ((s.ctxFor col k w).fixed ((s.ctxFor col k w).map w.d wide sgn f)))) :
    s.Yields i col k w wide sgn (fun l => (f l).1) (fun l => (f l).2.1) ((s.ctxFor col k w).map w.d wide sgn f).2 := by
  have hd := (s.ctxFor col k w).delivers_map w.d wide sgn f
  have ho := (s.col col).onlyRegs_applyWrites ((s.ctxFor col k w).map w.d wide sgn f).1
  have e : (s.ctxFor col k w).fixed ((s.ctxFor col k w).map w.d wide sgn f) =
      .go (s.setCol col { (s.col col).applyWrites ((s.ctxFor col k w).map w.d wide sgn f).1 with
        fpflags := ((s.col col).applyWrites ((s.ctxFor col k w).map w.d wide sgn f).1).fpflags ||| ((s.ctxFor col k w).map w.d wide sgn f).2 }) none false := rfl
  rw [e] at h
  replace hd : (s.col col).Delivers ((s.col col).applyWrites ((s.ctxFor col k w).map w.d wide sgn f).1) w.d wide sgn (s.ctxFor col k w).en
    (fun l => (f l).1) (fun l => (f l).2.1) := hd
  generalize ((s.ctxFor col k w).map w.d wide sgn f).2 = fl at *
  generalize (s.col col).applyWrites ((s.ctxFor col k w).map w.d wide sgn f).1 = c1 at *
  have hfl : c1.fpflags = (s.col col).fpflags := (congrArg Column.fpflags (show _ = _ from ho)).trans rfl
  generalize hc : { c1 with fpflags := c1.fpflags ||| fl } = c2 at *
  have hj : ∀ j, c2.slot j = (s.col col).slot j := fun j => by rw [← hc]; exact ho.slot j
  have hp := State.performed_setCol hi w.marker c2 (by rw [← hc]; unfold Column.OnlyRegs at ho; rw [ho]) (by rw [← hc]; unfold Column.OnlyRegs at ho; rw [ho])
    (by rw [← hc]; unfold Column.OnlyRegs at ho; rw [ho]) (by rw [hj k]) (fun j _ => hj j)
  refine ⟨_, h, hp.1, ?_, ?_, ?_⟩
  · have hk := hp.2
    generalize (s.perform col k w.marker (.go (s.setCol col c2) none false)).col col = c3 at *
    unfold Column.Keeps Column.KeepsAll Column.OnlyRegs at *
    rw [hk, ← hc]; rw [ho]
  · exact Column.Regs.after (by rw [← hc]; exact hd) hp.2
  · have hk := congrArg Column.fpflags (show _ = _ from hp.2)
    rw [hk, ← hc, ← hfl]

/-- A variable-latency word completes its issue (R137, R140): with no enabled lane nothing is outstanding. -/
theorem State.yieldsLater_var {s : State} {i : Instr} {col k : Nat} (hi : s.Issues col k) (w : Full) (wide sgn : Bool) (f : Nat → Nat × Bool × FpFlags)
    (hw : ∀ l, wrOne w.d wide sgn l (f l).1 (f l).2.1 ≠ [])
    (h : exec i s = .next (s.perform col k w.marker ((s.ctxFor col k w).var ((s.ctxFor col k w).map w.d wide sgn f)))) :
    s.YieldsLater i col k w wide sgn (fun l => (f l).1) (fun l => (f l).2.1) ((s.ctxFor col k w).map w.d wide sgn f).2 := by
  have hd := (s.ctxFor col k w).delivers_map w.d wide sgn f
  replace hd : (s.col col).Delivers ((s.col col).applyWrites ((s.ctxFor col k w).map w.d wide sgn f).1) w.d wide sgn (s.ctxFor col k w).en
    (fun l => (f l).1) (fun l => (f l).2.1) := hd
  have hn : (((s.ctxFor col k w).map w.d wide sgn f).1 = [] ∧ ((s.ctxFor col k w).map w.d wide sgn f).2 = 0) ↔ (s.ctxFor col k w).en = 0 := by
    rw [Ctx.map_writes, Ctx.map_flags]
    unfold Ctx.lanesFor
    by_cases he : (s.ctxFor col k w).en = 0
    · rw [he]; simp [show lanesOf (0#32) = [] from rfl]
    · refine iff_of_false (fun hh => ?_) he
      have hl : lanesOf (s.ctxFor col k w).en ≠ [] := fun h => he (lanesOf_eq_nil.1 h)
      have hb := hh.1
      rw [if_neg he] at hb
      split at hb
      · exact hw _ (by simpa using hb)
      · cases hx : lanesOf (s.ctxFor col k w).en with
        | nil => exact hl hx
        | cons a t => rw [hx, List.flatMap_cons] at hb; exact hw a (List.append_eq_nil_iff.1 hb).1
  generalize ((s.ctxFor col k w).map w.d wide sgn f) = r at *
  unfold Ctx.var Ctx.varOf at h
  by_cases he : (s.ctxFor col k w).en = 0
  · rw [if_pos ⟨(hn.2 he).1, (hn.2 he).2, by rw [(hn.2 he).1]; rfl⟩] at h
    have hp := State.performed_same hi w.marker
    have e : (Eff.go (s.ctxFor col k w).s none false) = .go s none false := rfl
    rw [e] at h
    refine ⟨_, h, hp.1, ?_, ?_⟩
    · have hk := hp.2
      generalize (s.perform col k w.marker (.go s none false)).col col = c3 at *
      unfold Column.KeepsRegs; unfold Column.KeepsAll at hk; rw [hk]
    · rw [if_pos he]; exact (congrArg Column.results (show _ = _ from hp.2)).trans rfl
  · rw [if_neg (fun e => he (hn.1 ⟨e.1, e.2.1⟩))] at h
    have e : (Eff.go ((s.ctxFor col k w).s.setCol (s.ctxFor col k w).col ((s.ctxFor col k w).c.addResult (s.ctxFor col k w).k r.1 r.2 .none (regsOf r.1))) none false) =
      .go (s.setCol col ((s.col col).addResult k r.1 r.2 .none (regsOf r.1))) none false := rfl
    rw [e] at h
    have hr : ((s.col col).addResult k r.1 r.2 .none (regsOf r.1)).results =
        (s.col col).results ++ [⟨(s.col col).nextRes, ((s.col col).slot k).lanes, r.1, r.2, .none⟩] := rfl
    have hkr : (s.col col).KeepsRegs ((s.col col).addResult k r.1 r.2 .none (regsOf r.1)) := rfl
    have hp := State.performed_setCol hi w.marker ((s.col col).addResult k r.1 r.2 .none (regsOf r.1)) rfl rfl rfl
      (by unfold Column.addResult Column.modSlot; rw [Column.slot_setSlot_same]; rfl)
      (fun j hj => by unfold Column.addResult Column.modSlot; rw [Column.slot_setSlot, if_neg hj]; rfl)
    generalize (s.col col).addResult k r.1 r.2 .none (regsOf r.1) = c2 at *
    refine ⟨_, h, hp.1, ?_, ?_⟩
    · have hk := hp.2
      generalize (s.perform col k w.marker (.go (s.setCol col c2) none false)).col col = c3 at *
      unfold Column.KeepsRegs Column.KeepsAll at *
      rw [hk]; rw [hkr]
    · rw [if_neg he]
      exact ⟨r.1, ((congrArg Column.results (show _ = _ from hp.2)).trans rfl).trans hr, hd⟩

end Sys2Proof.Machine
end

