-- ==== Sys2Proof/Laws/Traps.lean ====
section
/-!
SUPPORT. Laws of taking a trap: what a read of the trap table does not depend on, and what the trap leaves behind.
-/

namespace Sys2Proof.Machine

/-! ## A read does not depend on columns, pipes and the split that issues -/

/-- The same machine with other columns, pipes and issuing split. -/
def State.withIssue (s : State) (a : Tab (Option Column)) (b : Tab CoreSt) (r : Option (Nat × Nat)) : State :=
  { s with cols := a, cores := b, run := r }

theorem State.walk_withIssue (s : State) (a : Tab (Option Column)) (b : Tab CoreSt) (r : Option (Nat × Nat)) (ctx col off : Nat) :
    (s.withIssue a b r).walk ctx col off = s.walk ctx col off := by
  have h1 : (s.withIssue a b r).ctxEnt = s.ctxEnt := rfl
  have h2 : (s.withIssue a b r).hbmPlace = s.hbmPlace := rfl
  have h3 : (s.withIssue a b r).entryAt = s.entryAt := rfl
  have h4 : (s.withIssue a b r).entryPois = s.entryPois := rfl
  unfold State.walk; rw [h1, h2, h3, h4]

theorem State.check_withIssue (s : State) (a : Tab (Option Column)) (b : Tab CoreSt) (r : Option (Nat × Nat)) (ctx col off size : Nat) (raw : Bool)
    (acc : Acc) : (s.withIssue a b r).check ctx col off size raw acc = s.check ctx col off size raw acc := by
  have h : (s.withIssue a b r).unsealing = s.unsealing := rfl
  unfold State.check; rw [State.walk_withIssue, h]

theorem State.postEvent_withIssue (s : State) (a : Tab (Option Column)) (b : Tab CoreSt) (r : Option (Nat × Nat)) (k src d : Nat) :
    (s.withIssue a b r).postEvent k src d = (s.postEvent k src d).withIssue a b r := by
  unfold State.postEvent State.withIssue; dsimp only; split <;> rfl

theorem State.logLine_withIssue (s : State) (a : Tab (Option Column)) (b : Tab CoreSt) (r : Option (Nat × Nat)) (p : Place) (owner kind sym : Nat) :
    (s.withIssue a b r).logLine p owner kind sym = (s.logLine p owner kind sym).withIssue a b r := by
  have h : (s.withIssue a b r).nowUs = s.nowUs := rfl
  have h' : (s.withIssue a b r).tabs = s.tabs := rfl
  have h'' : (s.withIssue a b r).pw = s.pw := rfl
  have hp : ∀ (u : State) (c : Bool) (x : List (Nat × Nat)), (if c then u.withIssue a b r else { u.withIssue a b r with pw.badLines := x })
      = (if c then u else { u with pw.badLines := x }).withIssue a b r := fun u c x => by cases c <;> rfl
  unfold State.logLine; dsimp only
  rw [h, h']
  generalize s.tabs.logError s.nowUs p owner kind sym = x
  split
  · rw [← State.postEvent_withIssue]
    congr 1
    exact hp ({ s with tabs := x } : State) _ _
  · rfl

theorem State.touchLine_withIssue (s : State) (a : Tab (Option Column)) (b : Tab CoreSt) (r : Option (Nat × Nat)) (p : Place) (owner : Nat) :
    (s.withIssue a b r).touchLine p owner = (s.touchLine p owner).withIssue a b r := by
  have h1 : (s.withIssue a b r).upsets = s.upsets := rfl
  have h2 : (s.withIssue a b r).dirty = s.dirty := rfl
  have h3 : (s.withIssue a b r).pois = s.pois := rfl
  unfold State.touchLine; dsimp only
  rw [h1, h2, h3]
  cases hu : tabGet s.upsets p.line with
  | none => rfl
  | some u =>
    dsimp only
    split
    · rfl
    · split
      · exact State.logLine_withIssue ({ s with upsets := tabSet s.upsets p.line none } : State) a b r p owner 1 u.sym
      · exact State.logLine_withIssue ({ s with upsets := tabSet s.upsets p.line none, pois := tabSet s.pois p.line true } : State) a b r p owner 2 u.sym

theorem State.touchTables_withIssue (s : State) (a : Tab (Option Column)) (b : Tab CoreSt) (r : Option (Nat × Nat)) (col : Nat) (ls : List Nat) :
    (s.withIssue a b r).touchTables col ls = (s.touchTables col ls).withIssue a b r := by
  unfold State.touchTables
  generalize s = u
  induction ls generalizing u with
  | nil => rfl
  | cons i l ih => rw [List.foldl_cons, List.foldl_cons, State.touchLine_withIssue, ih]

theorem State.touchMode_withIssue (s : State) (a : Tab (Option Column)) (b : Tab CoreSt) (r : Option (Nat × Nat)) (p : Place) (owner : Nat) :
    (s.withIssue a b r).touchMode p owner = (s.touchMode p owner).withIssue a b r := by
  have h1 : (s.withIssue a b r).modes = s.modes := rfl
  have h2 : (s.withIssue a b r).vault = s.vault := rfl
  have h3 : (s.withIssue a b r).pois = s.pois := rfl
  unfold State.touchMode; dsimp only
  rw [h1, h2, h3]
  split
  · generalize tabSet s.pois _ true = x
    generalize tabSet s.modes _ 0 = y
    exact State.logLine_withIssue ({ s with pois := x, modes := y } : State) a b r _ _ _ _
  · rfl

theorem State.touchBlock_withIssue (s : State) (a : Tab (Option Column)) (b : Tab CoreSt) (r : Option (Nat × Nat)) (p : Place) (owner : Nat) :
    (s.withIssue a b r).touchBlock p owner = (s.touchBlock p owner).withIssue a b r := by
  have h1 : (s.withIssue a b r).vault = s.vault := rfl
  have h2 : (s.withIssue a b r).modes = s.modes := rfl
  unfold State.touchBlock; dsimp only
  rw [h1, h2]
  split
  · rfl
  · generalize List.range _ = l
    generalize s = u
    induction l generalizing u with
    | nil => rfl
    | cons i l ih => rw [List.foldl_cons, List.foldl_cons, State.touchLine_withIssue, ih]

theorem State.pageRead_withIssue (s : State) (a : Tab (Option Column)) (b : Tab CoreSt) (r : Option (Nat × Nat)) (col : Nat) (p : Page) (raw : Bool)
    (po size : Nat) : (s.withIssue a b r).pageRead col p raw po size =
      ((s.pageRead col p raw po size).1.withIssue a b r, (s.pageRead col p raw po size).2) := by
  have hf : ∀ (l : List Nat) (u : State), l.foldl (fun (s : State) (i : Nat) =>
        let pl := s.pagePlace col p raw (po + i)
        if p.comp then
          let s := s.touchMode pl col
          if raw then s.touchLine pl col else s.touchBlock pl col
        else s.touchLine pl col) (u.withIssue a b r) =
      (l.foldl (fun (s : State) (i : Nat) =>
        let pl := s.pagePlace col p raw (po + i)
        if p.comp then
          let s := s.touchMode pl col
          if raw then s.touchLine pl col else s.touchBlock pl col
        else s.touchLine pl col) u).withIssue a b r := by
    intro l
    induction l with
    | nil => intro u; rfl
    | cons i l ih =>
      intro u
      rw [List.foldl_cons, List.foldl_cons, ← ih]
      congr 1
      dsimp only
      have e : (u.withIssue a b r).pagePlace col p raw (po + i) = u.pagePlace col p raw (po + i) := rfl
      rw [e]
      split
      · rw [State.touchMode_withIssue]
        split
        · exact State.touchLine_withIssue _ _ _ _ _ _
        · exact State.touchBlock_withIssue _ _ _ _ _ _
      · exact State.touchLine_withIssue _ _ _ _ _ _
  have ht : (s.withIssue a b r).tableLines col p = s.tableLines col p := rfl
  unfold State.pageRead; dsimp only
  rw [ht, State.touchTables_withIssue, hf]; rfl

/-! ## A trapping split through a marker event -/

/-- A split that holds lanes and is not ready in the sense of R131. -/
def Split.Stays (sp : Split) : Prop := sp.rests = false ∧ sp.lanes ≠ 0

theorem Split.Stays.not_mergeable {sp : Split} (h : sp.Stays) : sp.mergeable = false := by
  unfold Split.mergeable; simp [h.1]

theorem Column.slot_demoteNow {c : Column} {k : Nat} (j : Nat) (h : (c.slot k).Stays) : (c.demoteNow j).slot k = c.slot k := by
  unfold Column.demoteNow; dsimp only; split
  · next e =>
    have hj : k ≠ j := fun e' => by have := e.2.1; rw [← e', h.1] at this; exact absurd this (by decide)
    show ((c.toPool _ _).setSlot j {}).slot k = _
    rw [Column.slot_setSlot, if_neg hj]; rfl
  · rfl

theorem Column.slot_mergePair {c : Column} {k : Nat} (i j : Nat) (h : (c.slot k).Stays) : (c.mergePair i j).slot k = c.slot k := by
  have hn := h.not_mergeable
  unfold Column.mergePair; dsimp only; split
  · next e =>
    simp only [Bool.and_eq_true] at e
    have hi : k ≠ i := fun e' => by rw [← e', hn] at e; exact absurd e.1.1 (by decide)
    have hj : k ≠ j := fun e' => by rw [← e', hn] at e; exact absurd e.1.2 (by decide)
    have hs : ∀ a b, ((c.setSlot i a).setSlot j b).slot k = c.slot k := fun a b => by
      rw [Column.slot_setSlot, if_neg hj, Column.slot_setSlot, if_neg hi]
    have hd : ∀ d : Column, d.slot k = c.slot k → (if d.demote = some j then { d with demote := none } else d : Column).slot k = c.slot k := by
      intro d hd; split
      · exact hd
      · exact hd
    exact hd _ (hs _ _)
  · rfl

theorem Column.slot_mergePool {c : Column} {k : Nat} (i : Nat) (h : (c.slot k).Stays) : (c.mergePool i).slot k = c.slot k := by
  have hn := h.not_mergeable
  unfold Column.mergePool; dsimp only; split
  · next e =>
    simp only [Bool.and_eq_true] at e
    have hi : k ≠ i := fun e' => by rw [← e', hn] at e; exact absurd e.1 (by decide)
    show (c.setSlot i _).slot k = _
    rw [Column.slot_setSlot, if_neg hi]
  · rfl

theorem Column.slot_fold {β : Type} (f : Column → β → Column) {k : Nat} {sp : Split}
    (hf : ∀ (c : Column) b, c.slot k = sp → (f c b).slot k = sp) (l : List β) (c : Column) (h : c.slot k = sp) : (l.foldl f c).slot k = sp := by
  induction l generalizing c with
  | nil => exact h
  | cons b l ih => exact ih _ (hf c b h)

theorem Column.slot_merge {c : Column} {k : Nat} (h : (c.slot k).Stays) : c.merge.slot k = c.slot k := by
  unfold Column.merge; dsimp only
  refine Column.slot_fold Column.mergePool (fun c i e => ?_) slots4 _ ?_
  · rw [Column.slot_mergePool i (e ▸ h), e]
  · refine Column.slot_fold (fun (c : Column) (p : Nat × Nat) => c.mergePair p.1 p.2) (fun c p e => ?_) _ _ rfl
    rw [Column.slot_mergePair p.1 p.2 (e ▸ h), e]

theorem Column.slot_fillOne {c : Column} {k : Nat} (h : (c.slot k).Stays) : c.fillOne.slot k = c.slot k := by
  unfold Column.fillOne; split
  · next j l pc ef ep =>
    have hm : j ∈ c.freeSlots := by rw [ef]; exact List.mem_cons_self ..
    have hj : k ≠ j := by
      intro e; subst e
      unfold Column.freeSlots Column.used at hm
      have := (List.mem_filter.1 hm).2
      simp only [Bool.not_eq_true', bne_eq_false_iff_eq] at this
      exact h.2 this
    show (c.setSlot j _).slot k = _
    rw [Column.slot_setSlot, if_neg hj]
  · rfl

theorem Column.slot_fill {c : Column} {k : Nat} (h : (c.slot k).Stays) : c.fill.slot k = c.slot k := by
  have h1 := Column.slot_fillOne h
  have h2 := Column.slot_fillOne (c := c.fillOne) (k := k) (h1 ▸ h)
  have h3 := Column.slot_fillOne (c := c.fillOne.fillOne) (k := k) (by rw [h2, h1]; exact h)
  have h4 := Column.slot_fillOne (c := c.fillOne.fillOne.fillOne) (k := k) (by rw [h3, h2, h1]; exact h)
  unfold Column.fill; rw [h4, h3, h2, h1]

theorem Column.slot_chooseDemote (c : Column) (k : Nat) : c.chooseDemote.slot k = c.slot k := by
  unfold Column.chooseDemote; split
  · split <;> rfl
  · rfl

/-- A run that ends with lanes and not ready keeps its slot. -/
theorem Column.slot_endRun (c : Column) (k : Nat) (cond : SplitCond) (hc : cond ≠ .ready ∧ cond ≠ .waiting) (hl : (c.slot k).lanes ≠ 0) :
    (c.endRun k cond).slot k = { c.slot k with cond := cond, runLen := 0, pend := [] } := by
  have hr : ({ c.slot k with cond := cond, runLen := 0, pend := [] } : Split).Stays := ⟨by unfold Split.rests; simp [hc.1, hc.2], hl⟩
  unfold Column.endRun Column.marker; dsimp only
  generalize hd : ({ (c.modSlot k fun sp => { sp with cond := cond, runLen := 0, pend := [] }) with
    mec := (c.modSlot k fun sp => { sp with cond := cond, runLen := 0, pend := [] }).mec + 1 } : Column) = d
  have h0 : d.slot k = { c.slot k with cond := cond, runLen := 0, pend := [] } := by
    rw [← hd]; exact Column.slot_setSlot_same c k _
  have h1 := Column.slot_demoteNow (c := d) (k := k) k (h0 ▸ hr)
  have h2 := Column.slot_merge (c := d.demoteNow k) (k := k) (by rw [h1, h0]; exact hr)
  have h3 := Column.slot_fill (c := (d.demoteNow k).merge) (k := k) (by rw [h2, h1, h0]; exact hr)
  rw [Column.slot_chooseDemote, h3, h2, h1, h0]

/-! ## Taking a trap -/

/-- Within a handler, or without a trap table, a trap is a double trap (R72, R149, R306). -/
theorem State.raiseTrap_double (s : State) (col k code : Nat) (m : Mask) (a : DWord) (info : Nat) (pc : DWord)
    (h : ((s.col col).slot k).hnd = true ∨ (s.hdr col).traptab = 0) : s.raiseTrap col k code m a info pc = s.doubleTrap col := by
  unfold State.raiseTrap; dsimp only
  rw [if_pos (by rcases h with h | h <;> simp [h])]

theorem State.handlerAt_withIssue (s : State) (a : Tab (Option Column)) (b : Tab CoreSt) (r : Option (Nat × Nat)) (col code : Nat) (h : DWord)
    (hd : (s.withIssue a b r).hdr col = s.hdr col) (hc : (s.withIssue a b r).ctxOf col = s.ctxOf col) (hh : s.HandlerAt col code h) :
    (s.withIssue a b r).HandlerAt col code h := by
  unfold State.HandlerAt at *
  simp only [hd, hc, State.check_withIssue, State.pageRead_withIssue] at *
  exact hh

/-- A trap outside a handler leaves the record, and the split in its handler or waiting for its results (R149, R274, R305). -/
theorem State.raiseTrap_takes {s : State} {col k code : Nat} {m : Mask} {a : DWord} {info : Nat} {pc h : DWord}
    (hn : ((s.col col).slot k).hnd = false) (hm : m ≠ 0) (hh : s.HandlerAt col code h) (hc : code < 256) :
    s.TakesTrap (s.raiseTrap col k code m a info pc) col k code m a info pc h := by
  obtain ⟨htt, htg, p, hp, hpoi, hval⟩ := hh
  unfold State.raiseTrap; dsimp only
  rw [if_neg (by rw [hn]; simp only [Bool.false_or, beq_iff_eq]; exact htt)]
  generalize hX : ({ (s.col col).slot k with trap := ⟨pc, a, m, BitVec.ofNat 16 info, BitVec.ofNat 8 code⟩, mask := m
                                             held := ((s.col col).slot k).lanes &&& ~~~m, exiting := 0 } : Split) = X
  have hXl : X.lanes ≠ 0 := by
    rw [← hX]; unfold Split.lanes; dsimp only
    intro e; apply hm
    apply BitVec.eq_of_getLsbD_eq; intro i hi
    have := congrArg (fun v : Mask => v.getLsbD i) e
    rw [BitVec.getLsbD_or] at this
    have hz : (0 : Mask).getLsbD i = false := by simp
    rw [hz, Bool.or_eq_false_iff] at this
    rw [hz]; exact this.1
  have hcol := (s.modCol col fun c => c.setSlot k X).col_endRun col k .trapping
  have hcols := ((s.touches_modCol col fun c => c.setSlot k X).trans (State.touches_endRun _ col k .trapping)).1
  have hfl : ((s.modCol col fun c => c.setSlot k X).endRun col k .trapping).faults = s.faults := rfl
  rw [hfl] at hcols
  have hrun : ((s.modCol col fun c => c.setSlot k X).endRun col k .trapping).run = none := rfl
  generalize (s.modCol col fun c => c.setSlot k X).endRun col k .trapping = u at *
  rw [State.col_modCol_same] at hcol
  have hu : u = s.withIssue u.cols u.cores u.run := hcols
  have hslot : (u.col col).slot k = { X with cond := .trapping, runLen := 0, pend := [] } := by
    rw [hcol, Column.slot_endRun _ _ _ (by decide) (by rw [Column.slot_setSlot_same]; exact hXl), Column.slot_setSlot_same]
  have hkeep : (s.col col).KeepsAll (u.col col) := by rw [hcol]; exact (Column.keepsAll_setSlot _ _ _).trans (Column.keepsAll_endRun _ _ _)
  have hkeep' := hkeep
  unfold Column.KeepsAll at hkeep'
  have hret : (u.col col).retired = (s.col col).retired := by rw [hcol, (Column.mec_endRun _ _ _).2, Column.setSlot_retired]
  have hout : (u.col col).outstanding ((s.col col).slot k).lanes = (s.col col).outstanding ((s.col col).slot k).lanes := by
    unfold Column.outstanding; rw [show (u.col col).results = (s.col col).results from (congrArg Column.results hkeep').trans rfl]
  have hgr : (u.col col).group = (s.col col).group := (congrArg Column.group hkeep').trans rfl
  have hsch : u.sch = s.sch := (congrArg State.sch hu).trans rfl
  have hhdr : u.hdr col = s.hdr col := by unfold State.hdr State.group; rw [hgr, hsch]
  have hctx : u.ctxOf col = s.ctxOf col := by
    unfold State.ctxOf State.group; rw [hgr, hsch, show u.tabs = s.tabs from (congrArg State.tabs hu).trans rfl]
  have hmem : u.mem = s.mem := (congrArg State.mem hu).trans rfl
  have hregs : ((u.col col).v, (u.col col).vp, (u.col col).s, (u.col col).sp, (u.col col).p, (u.col col).pp, (u.col col).fpflags, (u.col col).live)
      = ((s.col col).v, (s.col col).vp, (s.col col).s, (s.col col).sp, (s.col col).p, (s.col col).pp, (s.col col).fpflags, (s.col col).live) :=
    (congrArg (fun c : Column => (c.v, c.vp, c.s, c.sp, c.p, c.pp, c.fpflags, c.live)) hkeep').trans rfl
  have hXt : X.trap = ⟨pc, a, m, BitVec.ofNat 16 info, BitVec.ofNat 8 code⟩ ∧ X.mask = m ∧ X.held = ((s.col col).slot k).lanes &&& ~~~m
      ∧ X.hnd = false := by rw [← hX]; exact ⟨rfl, rfl, rfl, hn⟩
  by_cases ho : (s.col col).outstanding ((s.col col).slot k).lanes = true
  · rw [hout, if_pos ho]
    unfold State.TakesTrap; dsimp only
    rw [hslot, if_pos ho]
    exact ⟨hrun, hmem, hret, hregs, hXt.1, hXt.2.1, hXt.2.2.1, rfl, hXt.2.2.2⟩
  · rw [hout, if_neg ho]
    have hcode : ((u.col col).slot k).trap.tcode.toNat = code := by rw [hslot]; show X.trap.tcode.toNat = _; rw [hXt.1]; simp; omega
    have hchk : u.check (u.ctxOf col) col (addrOff (u.hdr col).traptab.toNat + 8 * code) 8 false .read = .page p := by
      rw [hhdr, hctx, hu, State.check_withIssue]; exact hp
    have hrd := State.pageRead_withIssue s u.cols u.cores u.run col p false ((addrOff (s.hdr col).traptab.toNat + 8 * code) % p.size) 8
    rw [← hu] at hrd
    unfold State.enterTrap; dsimp only
    rw [hcode, hchk]; dsimp only
    rw [hhdr, hrd]; dsimp only
    rw [hval, hpoi, htg]
    simp only [Bool.not_true, Bool.or_self, Bool.false_eq_true, if_false]
    generalize hw : (s.pageRead col p false ((addrOff (s.hdr col).traptab.toNat + 8 * code) % p.size) 8).1.withIssue u.cols u.cores u.run = w
    have hwc : w.col col = u.col col := by rw [← hw]; rfl
    have hwr : w.run = none := by rw [← hw]; exact hrun
    have hwm : w.mem = s.mem := by rw [← hw]; exact State.mem_pageRead s col p false _ 8
    unfold State.TakesTrap; dsimp only
    rw [State.col_modCol_same, if_neg ho, hwc]
    unfold Column.modSlot; rw [Column.slot_setSlot_same, hslot]
    exact ⟨hwr, hwm, hret, hregs, hXt.1, hXt.2.1, hXt.2.2.1, rfl, rfl, rfl⟩

/-- A word that traps outside a handler is counted, and its trap is taken (R147, R149). -/
theorem State.raiseTrap_trapped {s : State} {col k code : Nat} {m : Mask} {a : DWord} {info : Nat} {pc h : DWord}
    (hn : ((s.col col).slot k).hnd = false) (hm : m ≠ 0) (hh : s.HandlerAt col code h) (hc : code < 256) :
    s.Trapped ((s.modCol col fun c => c.countWord k).raiseTrap col k code m a info pc) col k code m a info pc h := by
  have e : (s.modCol col fun c => c.countWord k).col col = (s.col col).countWord k := State.col_modCol_same _ _ _
  refine State.raiseTrap_takes ?_ hm ?_ hc
  · rw [e]; unfold Column.countWord Column.modSlot; rw [Column.slot_setSlot_same]; exact hn
  · have hg : ((s.modCol col fun c => c.countWord k).col col).group = (s.col col).group := by rw [e]; rfl
    have hs : (s.modCol col fun c => c.countWord k).sch = s.sch := rfl
    refine State.handlerAt_withIssue s (s.modCol col fun c => c.countWord k).cols s.cores s.run col code h ?_ ?_ hh
    · show (s.modCol col fun c => c.countWord k).hdr col = _
      unfold State.hdr State.group; rw [hg, hs]
    · show (s.modCol col fun c => c.countWord k).ctxOf col = _
      unfold State.ctxOf State.group; rw [hg, hs]; rfl

end Sys2Proof.Machine
end

