-- ==== Sys2Proof/Machine/Hn4.lean ====
section
/-!
DEFINITION. The encoding of FP32 values to HN4 (R223). No step of the machine encodes: software does, and R223 fixes its
result, which the mint and HNDEC decode (R222, R225, R350).
-/

namespace Sys2Proof.Machine

/-- The magnitude of an FP32 code as a code: its sign bit cleared. For codes that are no NaN it orders as the magnitude does. -/
def magCode (x : Nat) : Nat := x % 2 ^ 31

/-- The magnitude of a finite FP32 code as a quotient. -/
def magOf (x : Nat) : Nat × Nat :=
  match FFmt.f32.widen (magCode x) with
  | .num _ n d => (n, d)
  | _ => (0, 1)

/-- How many of the eight magnitudes of R221 lie nearer to n ÷ d than the smallest does, a tie going to the larger (R223,
step 5): the midpoints that n ÷ d has reached. -/
def hn4Rank (n d : Nat) : Nat :=
  ((List.range 7).filter fun i => 2 * n ≥ ((hn4C (8 + i)).natAbs + (hn4C (9 + i)).natAbs) * d).length

/-- The scale byte of a block whose largest magnitude is the code `m` (R223, step 3). -/
def hn4ScaleByte (m sc : Nat) : Nat :=
  let (sn, sd) := magOf sc
  let (mn, md) := magOf m
  if sn = 0 then 0 else (2 * 255 * mn * sd + sn * md) / (2 * sn * md)

/-- The code of an element (R223, steps 4 and 5). -/
def hn4CodeOf (b sc x : Nat) : Nat :=
  let (sn, sd) := magOf sc
  let (xn, xd) := magOf x
  let k := if b = 0 then 0 else hn4Rank (xn * 255 * 4096 * sd) (xd * b * sn)
  if x / 2 ^ 31 % 2 = 0 then 8 + k else 7 - k

/-- Block `q` of a superblock: 64 elements, those past its end +0. -/
def hn4Block (xs : List Nat) (q : Nat) : List Nat := (List.range 64).map fun j => (xs.drop (64 * q)).getD j 0

/-- The largest magnitude of a list, as a code. -/
def hn4Max (xs : List Nat) : Nat := xs.foldl (fun m x => Nat.max m (magCode x)) 0

/-- A superblock encoded (R223): S, and for each of its blocks the scale byte and the 64 codes. `xs` are the FP32 codes of its
elements, at most 16,384. -/
def hn4Encode (xs : List Nat) : Nat × List (Nat × List Nat) :=
  let blocks := (List.range ((xs.length + 63) / 64)).map (hn4Block xs)
  if xs.any (fun x => magCode x ≥ 0x7F800000) then
    (0x7FC00000, blocks.map fun _ => (0, List.replicate 64 0))
  else
    let sc := hn4Max xs
    (sc, blocks.map fun bl =>
      let b := hn4ScaleByte (hn4Max bl) sc
      (b, bl.map (hn4CodeOf b sc)))

end Sys2Proof.Machine
end

