-- ==== Sys2Proof/Tests/Slice0.lean ====
section
/-!
SUPPORT. Tests. The words are the spec's own where it prints one; the other expected results are worked out by hand from the rules named. A
theorem named `test_meets_<Name>` shows, for the obligation <Name>, a concrete state and operands that meet the hypotheses of each of
its clauses.
-/

set_option maxRecDepth 100000
set_option exponentiation.threshold 5000

open Sys2Proof Sys2Proof.Machine

namespace Sys2Proof.Tests

/-- A full word in the register form, unguarded. -/
def tR (d a b c : Opnd) (ty : Ty) (x : BitVec 11) : Full := ⟨false, 0, false, d, a, ty, .reg b c false x⟩
/-- A full word in the immediate form, unguarded. -/
def tI (d a : Opnd) (ty : Ty) (i : BitVec 24) (x : BitVec 4) : Full := ⟨false, 0, false, d, a, ty, .imm i x⟩
/-- Whether every word decodes to its instruction. -/
def tDecode (l : List (DWord × Instr)) : Bool := l.all fun e => match classify e.1 with
  | .ok i => decide (i = e.2) && i.wellFormed
  | .error _ => false

/-- Words of R277 to R309: those printed in the spec, the others written from the fields of R255, R256 and R259. -/
theorem test_decode_control : tDecode [
  (0x0000000000000000, .nop (tR (.v 0) (.v 0) (.v 0) (.v 0) .i32 0)),
  (0x00200001FFFFFC00, .bra (tI (.v 0) (.v 0) .i32 0xfffffc 0)),
  (0x0040002800000000, .brx (tR (.v 0) (.v 20) (.v 0) (.v 0) .i32 0)),
  (0x0061000100000C00, .call (tI (.s 0) (.v 0) .i32 0xc 0)),
  (0x0081011200000000, .callx (tR (.s 0) (.s 9) (.v 0) (.v 0) .i32 0)),
  (0x00A0010000000000, .ret (tR (.v 0) (.s 0) (.v 0) (.v 0) .i32 0)),
  (0x00C11201FFFFFA10, .loop (tI (.s 9) (.v 0) .n32 0xfffffa 0)),
  (0x00E1938400000000, .jsetMask (tR (.j 1) (.p 2) (.v 0) (.v 0) .i32 0)),
  (0x00E1920100000000, .jsetEnabled (tI (.j 1) (.v 0) .i32 0x0 0)),
  (0x0100019200000000, .join (tR (.v 0) (.j 1) (.v 0) (.v 0) .i32 0)),
  (0x0121199200000000, .jmov (tR (.s 12) (.j 1) (.v 0) (.v 0) .i32 0)),
  (0x0140000000000001, .yieldPool (tR (.v 0) (.v 0) (.v 0) (.v 0) .i32 1)),
  (0x0140000000000000, .yield (tR (.v 0) (.v 0) (.v 0) (.v 0) .i32 0)),
  (0x016000010003E800, .nap (tI (.v 0) (.v 0) .i32 0x3e8 0)),
  (0x0180000000000000, .exit (tR (.v 0) (.v 0) (.v 0) (.v 0) .i32 0)),
  (0x01A187C500000501, .susp (tI (.p 3) (.t 2) .i32 0x5 1)),
  (0x01C187C500000300, .resume (tI (.p 3) (.t 2) .i32 0x3 0)),
  (0x01E1C51500004000, .pinit (tI (.t 2) (.s 10) .i32 0x40 0)),
  (0x0201C40E00000000, .pwakeRows (tR (.t 2) (.v 7) (.v 0) (.v 0) .i32 0)),
  (0x0201C5120000240C, .pwakeField (tR (.t 2) (.s 9) (.v 0) (.v 0) .f32 1036)),
  (0x0221C51300084140, .pxform (tI (.t 2) (.s 9) .f32 0x841 0)),
  (0x024119C400000000, .pcount (tR (.s 12) (.t 2) (.v 0) (.v 0) .i32 0)),
  (0x0261C40E00000000, .pfreeRows (tR (.t 2) (.v 7) (.v 0) (.v 0) .i32 0)),
  (0x0261C40100000000, .pfreeAll (tI (.t 2) (.v 0) .i32 0x0 0)),
  (0x0261C40100000001, .pfreeWoken (tI (.t 2) (.v 0) .i32 0x0 1)),
  (0x02800001FFFFEC00, .setrst (tI (.v 0) (.v 0) .i32 0xffffec 0)),
  (0x0280000100000001, .setrstClr (tI (.v 0) (.v 0) .i32 0x0 1)),
  (0x02A0000100000500, .trap (tI (.v 0) (.v 0) .i32 0x5 0)),
  (0x02C0000100001001, .rtrapStep (tI (.v 0) (.v 0) .i32 0x10 1)),
  (0x02C0000100000000, .rtrap (tI (.v 0) (.v 0) .i32 0x0 0)),
  (0x02E0000000000000, .bkpt (tR (.v 0) (.v 0) (.v 0) (.v 0) .i32 0))] = true := by decide

/-- Words of R312 to R326: those printed in the spec, the others written from the fields of R255, R256 and R259. -/
theorem test_decode_integer : tDecode [
  (0x08000A0803000001, .iadd (tR (.v 5) (.v 4) (.v 3) (.v 0) .i32 1)),
  (0x08200A0A01000000, .isub (tR (.v 5) (.v 5) (.v 1) (.v 0) .i32 0)),
  (0x0840020403040000, .iadd3 (tR (.v 1) (.v 2) (.v 3) (.v 4) .i32 0)),
  (0x08600C0803000802, .iaddc (tR (.v 6) (.v 4) (.v 3) (.v 0) .n32 2)),
  (0x08800C0803000802, .isubb (tR (.v 6) (.v 4) (.v 3) (.v 0) .n32 2)),
  (0x08A00C0802001000, .imul (tR (.v 6) (.v 4) (.v 2) (.v 0) .i64 0)),
  (0x08C00C0900000710, .imulh (tI (.v 6) (.v 4) .n32 0x7 0)),
  (0x08E009F28A040000, .imad (tR (.v 4) .col (.s 10) (.v 4) .i32 0)),
  (0x09000C0803080000, .imadw (tR (.v 6) (.v 4) (.v 3) (.v 8) .i32 0)),
  (0x09200C0803000000, .idiv (tR (.v 6) (.v 4) (.v 3) (.v 0) .i32 0)),
  (0x09410D0883000000, .irem (tR (.s 6) (.s 4) (.s 3) (.v 0) .i32 0)),
  (0x09600C0803004800, .imin (tR (.v 6) (.v 4) (.v 3) (.v 0) .i8x4 0)),
  (0x09800C0803004000, .imax (tR (.v 6) (.v 4) (.v 3) (.v 0) .i16x2 0)),
  (0x09A00C0800004800, .iabs (tR (.v 6) (.v 4) (.v 0) (.v 0) .i8x4 0)),
  (0x09C00C0803054801, .idot4 (tR (.v 6) (.v 4) (.v 3) (.v 5) .i8x4 1)),
  (0x09E00C0B000001D0, .and (tI (.v 6) (.v 5) .b32 0x1 0)),
  (0x0A000C0803006800, .or (tR (.v 6) (.v 4) (.v 3) (.v 0) .b32 0)),
  (0x0A200C0802001000, .xor (tR (.v 6) (.v 4) (.v 2) (.v 0) .i64 0)),
  (0x0A410D0883001800, .andn (tR (.s 6) (.s 4) (.s 3) (.v 0) .n64 0)),
  (0x0A600C0803006800, .orn (tR (.v 6) (.v 4) (.v 3) (.v 0) .b32 0)),
  (0x0A800E0D000003D0, .shl (tI (.v 7) (.v 6) .b32 0x3 0)),
  (0x0AA00C0803006800, .shr (tR (.v 6) (.v 4) (.v 3) (.v 0) .b32 0)),
  (0x0AC00C0803000000, .sar (tR (.v 6) (.v 4) (.v 3) (.v 0) .i32 0)),
  (0x0AE00C0803000800, .rol (tR (.v 6) (.v 4) (.v 3) (.v 0) .n32 0)),
  (0x0B000C0803006825, .fshl (tR (.v 6) (.v 4) (.v 3) (.v 0) .b32 37)),
  (0x0B200C0803056800, .fshr (tR (.v 6) (.v 4) (.v 3) (.v 5) .b32 0)),
  (0x0B400C0800006800, .popc (tR (.v 6) (.v 4) (.v 0) (.v 0) .b32 0)),
  (0x0B600C0800006800, .clz (tR (.v 6) (.v 4) (.v 0) (.v 0) .b32 0)),
  (0x0B800C0800006800, .ctz (tR (.v 6) (.v 4) (.v 0) (.v 0) .b32 0)),
  (0x0BA00C0800006800, .brev (tR (.v 6) (.v 4) (.v 0) (.v 0) .b32 0)),
  (0x0BC00C0900050400, .bfx (tI (.v 6) (.v 4) .i32 0x504 0)),
  (0x0BE00C0803000800, .bfi (tR (.v 6) (.v 4) (.v 3) (.v 0) .n32 0)),
  (0x0C000C0803056800, .prmb (tR (.v 6) (.v 4) (.v 3) (.v 5) .b32 0)),
  (0x0C21840803000003, .icmp (tR (.p 2) (.v 4) (.v 3) (.v 0) .i32 3)),
  (0x0C40100B00000002, .isel (tI (.v 8) (.v 5) .i32 0x0 2)),
  (0x0C600C0800000014, .cvti (tR (.v 6) (.v 4) (.v 0) (.v 0) .i32 20)),
  (0x0C8009F000006800, .mov (tR (.v 4) .lane (.v 0) (.v 0) .b32 0)),
  (0x0CA00401FFFFFE00, .movi (tI (.v 2) (.v 0) .i32 0xfffffe 0)),
  (0x0CC00401001234D1, .movh (tI (.v 2) (.v 0) .b32 0x1234 1)),
  (0x0CE0152895000000, .mkcol (tR (.v 10) (.s 20) (.s 21) (.v 0) .i32 0)),
  (0x0D00142800000000, .colof (tR (.v 10) (.v 20) (.v 0) (.v 0) .i32 0)),
  (0x0D20142800000000, .offof (tR (.v 10) (.v 20) (.v 0) (.v 0) .i32 0)),
  (0x0D40181404000002, .lea (tR (.v 12) (.v 10) (.v 4) (.v 0) .i32 2))] = true := by decide

/-- Words of R319 to R332: those printed in the spec, the others written from the fields of R255, R256 and R259. -/
theorem test_decode_lanes : tDecode [
  (0x1001840800000000, .pset (tR (.p 2) (.v 4) (.v 0) (.v 0) .i32 0)),
  (0x10218582C3000001, .pand (tR (.p 2) (.p 1) (.p 3) (.v 0) .i32 1)),
  (0x10418582C3000000, .por (tR (.p 2) (.p 1) (.p 3) (.v 0) .i32 0)),
  (0x10618582C3000000, .pxor (tR (.p 2) (.p 1) (.p 3) (.v 0) .i32 0)),
  (0x1081858200000000, .pnot (tR (.p 2) (.p 1) (.v 0) (.v 0) .i32 0)),
  (0x10A1858200000000, .pmov (tR (.p 2) (.p 1) (.v 0) (.v 0) .i32 0)),
  (0x90C11D8400000000, .vote ({ tR (.s 14) (.p 2) (.v 0) (.v 0) .i32 0 with marker := true })),
  (0x10E00C0B000501D3, .shfl (tI (.v 6) (.v 5) .b32 0x501 3)),
  (0x1101180C00000000, .redc (tR (.s 12) (.v 6) (.v 0) (.v 0) .i32 0)),
  (0x1120120C00000008, .scanc (tR (.v 9) (.v 6) (.v 0) (.v 0) .i32 8)),
  (0x11410A0D000020D0, .umov (tI (.s 5) (.v 6) .b32 0x20 0)),
  (0x1161180100000100, .mfsr (tI (.s 12) (.v 0) .i32 0x1 0)),
  (0x1180011900000200, .mtsr (tI (.v 0) (.s 12) .i32 0x2 0)),
  (0x11A11A0000000000, .rdcnt (tR (.s 13) (.v 0) (.v 0) (.v 0) .i32 0))] = true := by decide

/-- Words of R335 to R350: those printed in the spec, the others written from the fields of R255, R256 and R259. -/
theorem test_decode_float : tDecode [
  (0x18000C0403002001, .fadd (tR (.v 6) (.v 2) (.v 3) (.v 0) .f32 1)),
  (0x18200C0403003800, .fsub (tR (.v 6) (.v 2) (.v 3) (.v 0) .f16x2 0)),
  (0x18400E0D00000340, .fmul (tI (.v 7) (.v 6) .f32 0x3 0)),
  (0x1860140404062800, .ffma (tR (.v 10) (.v 2) (.v 4) (.v 6) .f64 0)),
  (0x18800C0403002000, .fmin (tR (.v 6) (.v 2) (.v 3) (.v 0) .f32 0)),
  (0x18A00C0403002000, .fmax (tR (.v 6) (.v 2) (.v 3) (.v 0) .f32 0)),
  (0x18C00C0403003000, .famax (tR (.v 6) (.v 2) (.v 3) (.v 0) .bf16x2 0)),
  (0x18E00C0404002800, .fdiv (tR (.v 6) (.v 2) (.v 4) (.v 0) .f64 0)),
  (0x19000C0400002000, .fsqrt (tR (.v 6) (.v 2) (.v 0) (.v 0) .f32 0)),
  (0x19200C0400002000, .frcp (tR (.v 6) (.v 2) (.v 0) (.v 0) .f32 0)),
  (0x19400C0400002000, .frsq (tR (.v 6) (.v 2) (.v 0) (.v 0) .f32 0)),
  (0x19600C0400002000, .fexp2 (tR (.v 6) (.v 2) (.v 0) (.v 0) .f32 0)),
  (0x19800C0400002000, .flog2 (tR (.v 6) (.v 2) (.v 0) (.v 0) .f32 0)),
  (0x19A00C0400002000, .fsin (tR (.v 6) (.v 2) (.v 0) (.v 0) .f32 0)),
  (0x19C00C0400002000, .fcos (tR (.v 6) (.v 2) (.v 0) (.v 0) .f32 0)),
  (0x19E00C0400002000, .ftanh (tR (.v 6) (.v 2) (.v 0) (.v 0) .f32 0)),
  (0x1A01840803002030, .fcmp (tR (.p 2) (.v 4) (.v 3) (.v 0) .f32 48)),
  (0x1A21840900000340, .fclass (tI (.p 2) (.v 4) .f32 0x3 0)),
  (0x1A400C0400002010, .frnd (tR (.v 6) (.v 2) (.v 0) (.v 0) .f32 16)),
  (0x1A600C05FFFFFF40, .fscl (tI (.v 6) (.v 2) .f32 0xffffff 0)),
  (0x1A800C0400002001, .ffrx (tR (.v 6) (.v 2) (.v 0) (.v 0) .f32 1)),
  (0x1AA00C0400002010, .f2i (tR (.v 6) (.v 2) (.v 0) (.v 0) .f32 16)),
  (0x1AC0020200002000, .i2f (tR (.v 1) (.v 1) (.v 0) (.v 0) .f32 0)),
  (0x1AE0100A14000090, .fcvt (tR (.v 8) (.v 5) (.v 20) (.v 0) .i32 144)),
  (0x1B00100604005009, .fpack (tR (.v 8) (.v 3) (.v 4) (.v 0) .e4m3x4 9)),
  (0x1B20100600005803, .funpk (tR (.v 8) (.v 3) (.v 0) (.v 0) .e5m2x4 3)),
  (0x1B40100604053000, .fdot2 (tR (.v 8) (.v 3) (.v 4) (.v 5) .bf16x2 0)),
  (0x1B60100604056007, .hndec (tR (.v 8) (.v 3) (.v 4) (.v 5) .hn4x8 7))] = true := by decide

/-- Words of R352 to R377: those printed in the spec, the others written from the fields of R255, R256 and R259. -/
theorem test_decode_memory : tDecode [
  (0x24000D1588014008, .ld (tI (.v 6) (.s 10) .i32 0x880140 8)),
  (0x24200B1100008000, .st (tI (.v 5) (.s 8) .i32 0x80 0)),
  (0x24400F0100020004, .lds (tI (.v 7) (.s 0) .i32 0x200 4)),
  (0x24600F0100020004, .sts (tI (.v 7) (.s 0) .i32 0x200 4)),
  (0x24800F0100020000, .ldw (tI (.v 7) (.s 0) .i32 0x200 0)),
  (0x24A00F0100020000, .stw (tI (.v 7) (.s 0) .i32 0x200 0)),
  (0x24C0142900000020, .ldr (tI (.v 10) (.v 20) .i64 0x0 0)),
  (0x24E00A0D90000008, .str (tI (.v 5) (.v 6) .i32 0x900000 8)),
  (0x2500142900000000, .ldro (tI (.v 10) (.v 20) .i32 0x0 0)),
  (0x2520011100004004, .pref (tI (.v 0) (.s 8) .i32 0x40 4)),
  (0x2541192896980000, .copy (tR (.s 12) (.s 20) (.s 22) (.s 24) .i32 0)),
  (0x2561192896980000, .copym (tR (.s 12) (.s 20) (.s 22) (.s 24) .i32 0)),
  (0xA5800A0889C3684A, .xch ({ tR (.v 5) (.v 4) (.s 9) (.p 3) .b32 74 with marker := true })),
  (0x25A0012895000000, .seal (tR (.v 0) (.s 20) (.s 21) (.v 0) .i32 0)),
  (0x25C0012895000000, .unseal (tR (.v 0) (.s 20) (.s 21) (.v 0) .i32 0)),
  (0x25E0012895000000, .flush (tR (.v 0) (.s 20) (.s 21) (.v 0) .i32 0)),
  (0x2601192900000000, .surf (tI (.s 12) (.s 20) .i32 0x0 0))] = true := by decide

/-- Words of R379 to R404: those printed in the spec, the others written from the fields of R255, R256 and R259. -/
theorem test_decode_sync : tDecode [
  (0x30000C2805000040, .atom (tR (.v 6) (.v 20) (.v 5) (.v 0) .i32 64)),
  (0x3020112805060890, .acas (tR (.v 8) (.s 20) (.v 5) (.v 6) .n32 144)),
  (0x3040002805000140, .red (tR (.v 0) (.v 20) (.v 5) (.v 0) .i32 320)),
  (0x3060000000000014, .fence (tR (.v 0) (.v 0) (.v 0) (.v 0) .i32 20)),
  (0x3080000100000302, .bar (tI (.v 0) (.v 0) .i32 0x3 2)),
  (0x30A0000100000302, .bara (tI (.v 0) (.v 0) .i32 0x3 2)),
  (0x30C0000100000302, .barw (tI (.v 0) (.v 0) .i32 0x3 2)),
  (0x30E0000100000302, .bard (tI (.v 0) (.v 0) .i32 0x3 2)),
  (0x3101840000000000, .elect (tR (.p 2) (.v 0) (.v 0) (.v 0) .i32 0)),
  (0x3121130100010000, .rinit (tI (.s 9) (.s 0) .i32 0x100 0)),
  (0x3140010100010000, .rarv (tI (.v 0) (.s 0) .i32 0x100 0)),
  (0x3161130100010000, .rxpt (tI (.s 9) (.s 0) .i32 0x100 0)),
  (0x3181130100010000, .rwait (tI (.s 9) (.s 0) .i32 0x100 0)),
  (0x31A1A70100020300, .qbind (tI (.q 3) (.s 0) .i32 0x203 0)),
  (0x31C1A40A00000000, .qpush (tR (.q 2) (.v 5) (.v 0) (.v 0) .i32 0)),
  (0x31E00FA200000000, .qpop (tR (.v 7) (.q 1) (.v 0) (.v 0) .i32 0)),
  (0x320119A200000000, .qstat (tR (.s 12) (.q 1) (.v 0) (.v 0) .i32 0)),
  (0x3221192100004000, .submit (tI (.s 12) (.s 16) .i32 0x40 0)),
  (0x3240012895000000, .semsg (tR (.v 0) (.s 20) (.s 21) (.v 0) .i32 0))] = true := by decide

/-- Words of R406 to R422: those printed in the spec, the others written from the fields of R255, R256 and R259. -/
theorem test_decode_matrix : tDecode [
  (0x3801C32000000000, .tdesc (tR (.t 1) (.s 16) (.v 0) (.v 0) .i32 0)),
  (0x382119C294960000, .tfill (tR (.s 12) (.t 1) (.s 20) (.s 22) .i32 0)),
  (0x384119C694960000, .tstore (tR (.s 12) (.t 3) (.s 20) (.s 22) .i32 0)),
  (0x3861C20000000000, .tzero (tR (.t 1) (.v 0) (.v 0) (.v 0) .i32 0)),
  (0x3881E5C2E2980000, .mma (tR (.a 2) (.t 1) (.t 2) (.s 24) .i32 0)),
  (0x38A1E40000000000, .aclr (tR (.a 2) (.v 0) (.v 0) (.v 0) .i32 0)),
  (0x38C011E414005024, .adrain (tR (.v 8) (.a 2) (.v 20) (.v 0) .e4m3x4 36)),
  (0x38E1E50100100000, .aspill (tI (.a 2) (.s 0) .i32 0x1000 0)),
  (0x3901E50100100000, .aload (tI (.a 2) (.s 0) .i32 0x1000 0)),
  (0x3921E40000000000, .mwait (tR (.a 2) (.v 0) (.v 0) (.v 0) .i32 0))] = true := by decide

/-- Words of R425 to R437: those printed in the spec, the others written from the fields of R255, R256 and R259. -/
theorem test_decode_collective : tDecode [
  (0x3C0014080C000008, .clctP2p (tR (.v 10) (.v 4) (.v 12) (.v 0) .i32 8)),
  (0x3C0128089596201B, .clctGroup (tR (.s 20) (.v 4) (.s 21) (.s 22) .f32 27)),
  (0x3C00000000960017, .clctRec (tR (.v 0) (.v 0) (.v 0) (.s 22) .i32 23)),
  (0x3C20012800000002, .repart (tR (.v 0) (.s 20) (.v 0) (.v 0) .i32 2)),
  (0x3C40140805060000, .sfckey (tR (.v 10) (.v 4) (.v 5) (.v 6) .i32 0)),
  (0x3C61180100000301, .cstat (tI (.s 12) (.v 0) .i32 0x3 1))] = true := by decide

/-- Pair words: one for each half opcode in half X, written from the fields of R262, and the printed one of R267. -/
theorem test_decode_pairs : tDecode [
  (0x4000000001A0A124, .hnop false ⟨0, false, 0, 0, false, false, false, 0⟩ ⟨1, ⟨2, true, 5, 9, false, false, true, 0⟩⟩),
  (0x40D0509280000000, .halfIadd false ⟨2, true, 5, 9, false, false, true, 1⟩ ⟨0, ⟨0, false, 0, 0, false, false, false, 0⟩⟩),
  (0x4150509280000000, .halfIsub false ⟨2, true, 5, 9, false, false, true, 1⟩ ⟨0, ⟨0, false, 0, 0, false, false, false, 0⟩⟩),
  (0x41D0509080000000, .halfAnd false ⟨2, true, 5, 9, false, false, false, 1⟩ ⟨0, ⟨0, false, 0, 0, false, false, false, 0⟩⟩),
  (0x4250509080000000, .halfOr false ⟨2, true, 5, 9, false, false, false, 1⟩ ⟨0, ⟨0, false, 0, 0, false, false, false, 0⟩⟩),
  (0x42D0509080000000, .halfXor false ⟨2, true, 5, 9, false, false, false, 1⟩ ⟨0, ⟨0, false, 0, 0, false, false, false, 0⟩⟩),
  (0x4350509080000000, .halfAndn false ⟨2, true, 5, 9, false, false, false, 1⟩ ⟨0, ⟨0, false, 0, 0, false, false, false, 0⟩⟩),
  (0x43D0509080000000, .halfShl false ⟨2, true, 5, 9, false, false, false, 1⟩ ⟨0, ⟨0, false, 0, 0, false, false, false, 0⟩⟩),
  (0x4450509080000000, .halfShr false ⟨2, true, 5, 9, false, false, false, 1⟩ ⟨0, ⟨0, false, 0, 0, false, false, false, 0⟩⟩),
  (0x44D0509080000000, .halfSar false ⟨2, true, 5, 9, false, false, false, 1⟩ ⟨0, ⟨0, false, 0, 0, false, false, false, 0⟩⟩),
  (0x4550509080000000, .halfImin false ⟨2, true, 5, 9, false, false, false, 1⟩ ⟨0, ⟨0, false, 0, 0, false, false, false, 0⟩⟩),
  (0x45D0509080000000, .halfImax false ⟨2, true, 5, 9, false, false, false, 1⟩ ⟨0, ⟨0, false, 0, 0, false, false, false, 0⟩⟩),
  (0x4650509080000000, .halfMov false ⟨2, true, 5, 9, false, false, false, 1⟩ ⟨0, ⟨0, false, 0, 0, false, false, false, 0⟩⟩),
  (0x46D0509880000000, .halfMovi false ⟨2, true, 5, 9, true, false, false, 1⟩ ⟨0, ⟨0, false, 0, 0, false, false, false, 0⟩⟩),
  (0x4750509300000000, .halfFadd false ⟨2, true, 5, 9, false, false, true, 2⟩ ⟨0, ⟨0, false, 0, 0, false, false, false, 0⟩⟩),
  (0x47D0509300000000, .halfFsub false ⟨2, true, 5, 9, false, false, true, 2⟩ ⟨0, ⟨0, false, 0, 0, false, false, false, 0⟩⟩),
  (0x4850509300000000, .halfFmul false ⟨2, true, 5, 9, false, false, true, 2⟩ ⟨0, ⟨0, false, 0, 0, false, false, false, 0⟩⟩),
  (0x48D0509100000000, .halfFmin false ⟨2, true, 5, 9, false, false, false, 2⟩ ⟨0, ⟨0, false, 0, 0, false, false, false, 0⟩⟩),
  (0x4950509100000000, .halfFmax false ⟨2, true, 5, 9, false, false, false, 2⟩ ⟨0, ⟨0, false, 0, 0, false, false, false, 0⟩⟩),
  (0x49D0509100000000, .halfFamax false ⟨2, true, 5, 9, false, false, false, 2⟩ ⟨0, ⟨0, false, 0, 0, false, false, false, 0⟩⟩),
  (0x4A50509080000000, .halfPopc false ⟨2, true, 5, 9, false, false, false, 1⟩ ⟨0, ⟨0, false, 0, 0, false, false, false, 0⟩⟩),
  (0x4AD0509080000000, .halfClz false ⟨2, true, 5, 9, false, false, false, 1⟩ ⟨0, ⟨0, false, 0, 0, false, false, false, 0⟩⟩),
  (0x4B50509280000000, .halfImul false ⟨2, true, 5, 9, false, false, true, 1⟩ ⟨0, ⟨0, false, 0, 0, false, false, false, 0⟩⟩),
  (0x40A00FD812A0A122, .halfIadd false ⟨1, false, 0, 0xFD, true, false, false, 0⟩ ⟨0x12, ⟨2, true, 5, 9, false, false, false, 2⟩⟩)] = true := by decide

/-! ## Well-formedness: for each check an ill-formed term that it refuses -/

/-- Each term fails its check: trap 0x02 with the specifier and the reason that the spec gives. -/
theorem test_wellFormed_refuses :
    ([ (.iadd (tR (.v 5) (.v 4) (.v 3) (.v 0) .rsvd 0), 0x001),
       (.iadd (tR (.v 5) (.v 4) (.v 3) (.v 0) .f32 0), 0x001),
       (.icmp (tR (.p 2) (.v 4) (.v 3) (.v 0) .i32 7), 0x002),
       (.iadd3 (tI (.v 5) (.v 4) .i32 1 0), 0x003),
       (.iadd (tR (.p 2) (.v 4) (.v 3) (.v 0) .i32 0), 0xC204),
       (.iadd (tR .lane (.v 4) (.v 3) (.v 0) .i32 0), 0xF804),
       (.iadd (tR (.s 5) (.v 4) (.s 3) (.v 0) .i32 0), 0x0404),
       (.iadd (tR (.v 5) (.rsvd 2) (.v 3) (.v 0) .i32 0), 0xFA05),
       (.pand (tR (.p 0) (.p 1) (.p 2) (.v 0) .i32 0), 0xC007),
       (.iadd (tR (.v 6) (.v 5) (.v 2) (.v 0) .i64 0), 0x0508),
       (.iadd (tR (.v 5) (.v 4) (.v 3) (.v 1) .i32 0), 0x009),
       (.nop (tR (.v 0) (.v 0) (.v 0) (.v 0) .rsvd 0), 0x009),
       (.iadd (tR (.v 5) (.v 4) (.v 3) (.v 0) .i32 2), 0x009),
       (.iadd ⟨false, 0, false, .s 5, .s 4, .i32, .reg (.s 3) (.v 0) true 0⟩, 0x00A),
       (.mfsr (tI (.s 12) (.v 0) .i32 0x0E 0), 0x00C),
       (.iaddc (tR (.v 6) (.v 4) (.v 3) (.v 0) .n32 0), 0x010),
       (.trap (tI (.v 0) (.v 0) .i32 32 0), 0x015) ] : List (Instr × Nat)).all
      (fun e => decide (e.1.staticTrap maxHdr = some (2, e.2)) && !e.1.wellFormed) = true := by decide

/-- A register at its class count (R152), and a barrier above the group's LEVEL (R128). -/
theorem test_wellFormed_counts :
    (Instr.iadd (tR (.v 5) (.v 4) (.v 3) (.v 0) .i32 0)).staticTrap { maxHdr with nv := 5 } = some (2, 0x0506)
    ∧ (Instr.iadd (tR (.v 5) (.s 8) (.v 3) (.v 0) .i32 0)).staticTrap { maxHdr with ns := 8 } = some (2, 0x8806)
    ∧ (Instr.bar (tI (.v 0) (.v 0) .i32 0 3)).staticTrap { maxHdr with level := 2 } = some (2, 0x000B)
    ∧ (Instr.setrst (tI (.v 0) (.v 0) .i32 1 0)).staticTrap { maxHdr with rstpol := 1 } = some (2, 0x0013) := by decide

/-- Pair words: the malformed halves, the bank rules with the worked example of R276, and an unassigned half opcode (R263 to R266). -/
theorem test_wellFormed_pairs :
    ([ (.halfIadd false ⟨0, false, 8, 5, false, false, false, 2⟩ ⟨0x00, ⟨0, false, 0, 0, false, false, false, 0⟩⟩, (3, 0x001)),
       (.halfIadd false ⟨0, false, 8, 5, false, false, false, 0⟩ ⟨0x10, ⟨0, false, 13, 6, false, true, false, 2⟩⟩, (3, 0x002)),
       (.halfIadd false ⟨0, false, 8, 5, false, false, false, 0⟩ ⟨0x10, ⟨0, false, 13, 1, false, false, false, 2⟩⟩, (3, 0x103)),
       (.halfIadd false ⟨0, false, 8, 1, false, false, false, 0⟩ ⟨0x10, ⟨0, false, 12, 6, false, false, false, 2⟩⟩, (3, 0x004)),
       (.halfIadd false ⟨0, false, 8, 1, true, false, false, 0⟩ ⟨0x10, ⟨0, false, 8, 6, false, false, false, 2⟩⟩, (3, 0x005)),
       (.halfIadd false ⟨0, false, 8, 1, true, false, false, 0⟩ ⟨0x17, ⟨0, false, 0, 0, false, false, false, 0⟩⟩, (1, 0xC017))
      ] : List (Instr × Nat × Nat)).all (fun e => decide (e.1.staticTrap maxHdr = some e.2) && !e.1.wellFormed) = true := by decide

/-- Words that no instruction has: an unassigned OP, the permanently reserved word, and an unassigned half opcode (R266, R268). -/
theorem test_decode_refuses :
    classify 0x0300000000000000 = .error (.unassignedOpcode 0x018) ∧ classify 0xFFFFFFFFFFFFFFFF = .error .reservedWord
    ∧ classify 0x4BFFFFFF80000000 = .error (.unassignedHalf false 0x17) ∧ decode [0, 0, 0] = .error .tooShort := by decide

/-! ## States -/

/-- A module in which slot 0 of column 0 issues, all 32 lanes active, and the first 2 MiB of column 0 are mapped. -/
def tL : State :=
  let s := State.reset.loaded
  { s with sch.groups := tabMod s.sch.groups 0 (Option.map fun g => { g with hdr := { g.hdr with level := 6, rstpol := 2 } }) }

/-- That module with column 0 changed. -/
def tC (f : Column → Column) : State := tL.modCol 0 f

/-- With no lane enabled under a guard of p1. -/
def tG (w : Full) : Full := { w with g := 1 }

theorem test_issues : tL.Issues 0 0 := ⟨rfl, rfl, rfl⟩

/-! ## Hypotheses met: integer, lane and float words -/

theorem test_meets_IntegerArithmetic : tL.Issues 0 0
    ∧ tL.Clears 0 0 (tR (.v 5) (.v 4) (.v 3) (.v 0) .i32 1) (fmt2 tyZp true [xBit 0]) noPts
    ∧ tL.Clears 0 0 (tI (.s 6) (.s 4) .i64 0xFFFFFF 0) (fmt2 tyZ true []) noPts
    ∧ tL.Clears 0 0 (tR (.v 127) (.v 4) (.s 63) (.v 0) .i8x4 0) (fmt2 tyZp true []) noPts
    ∧ tL.Clears 0 0 (tR (.v 4) .col (.s 10) (.v 4) .i32 0) (fmt3 tyZ []) noPts
    ∧ tL.Clears 0 0 (tR (.v 6) (.v 4) (.v 0) (.v 0) .i8x4 1) (fmt1 [.i32, .i64, .i16x2, .i8x4] [xBit 0]) noPts :=
  ⟨⟨rfl, rfl, rfl⟩, rfl, rfl, rfl, rfl, rfl⟩

theorem test_meets_BitwiseAndShifts : tL.Issues 0 0
    ∧ tL.Clears 0 0 (tI (.v 6) (.v 5) .b32 1 0) (fmt2 tyL true []) noPts
    ∧ tL.Clears 0 0 (tR (.s 0) (.s 4) (.v 0) (.v 0) .n64 0) (fmt1 tyL []) noPts
    ∧ tL.Clears 0 0 (tR (.v 4) .lane (.v 0) (.v 0) .b32 0) (fmt1 tyMov []) noPts
    ∧ tL.Clears 0 0 (tI (.v 7) (.v 6) .b32 32 0) fmtShift noPts
    ∧ tL.Clears 0 0 (tR (.v 126) (.v 6) (.v 5) (.v 0) .i64 0) fmtShift noPts :=
  ⟨⟨rfl, rfl, rfl⟩, rfl, rfl, rfl, rfl, rfl⟩

theorem test_meets_FieldsAndSelection : tL.Issues 0 0
    ∧ tL.Clears 0 0 (tR (.v 6) (.v 4) (.v 3) (.v 0) .b32 0x3F) fmtFsh noPts
    ∧ tL.Clears 0 0 (tR (.v 6) (.v 4) (.v 3) (.v 5) .b32 0) fmtFsh noPts
    ∧ tL.Clears 0 0 (tI (.v 6) (.v 4) .i32 0x504 0) fmtField noPts
    ∧ tL.Clears 0 0 (tR (.v 6) (.v 4) (.v 3) (.v 5) .b32 0) (fmt3 [.b32] []) noPts
    ∧ tL.Clears 0 0 (tR (.v 6) (.v 4) (.v 3) (.v 8) .i32 0) fmtImadw noPts
    ∧ tL.Clears 0 0 (tR (.v 6) (.v 4) (.v 3) (.v 5) .i8x4 1) (fmt3 [.i8x4] [xBit 0]) noPts
    ∧ tL.Clears 0 0 (tR (.v 6) (.v 4) (.v 0) (.v 0) .i32 0x177) fmtCvti noPts
    ∧ tL.Clears 0 0 (tI (.v 2) (.v 0) .i32 0xFFFFFE 0) fmtMovi noPts
    ∧ tL.Clears 0 0 (tI (.s 2) (.v 0) .n64 0xFFFF 3) fmtMovh noPts
    ∧ tL.Clears 0 0 (tI (.v 8) (.v 5) .i32 0 2) fmtIsel noPts :=
  ⟨⟨rfl, rfl, rfl⟩, rfl, rfl, rfl, rfl, rfl, rfl, rfl, rfl, rfl, rfl⟩

theorem test_meets_CarriesAndDivision : tL.Issues 0 0
    ∧ tL.Clears 0 0 (tR (.v 6) (.v 4) (.v 2) (.v 0) .n64 7) fmtCarry noPts
    ∧ tL.Clears 0 0 (tR (.s 6) (.s 4) (.s 3) (.v 0) .i32 0) (fmt2 tyZ true []) noPts :=
  ⟨⟨rfl, rfl, rfl⟩, rfl, rfl⟩

theorem test_meets_PredicatesAndCompares : tL.Issues 0 0
    ∧ tL.Clears 0 0 (tR (.p 2) (.v 4) (.v 3) (.v 0) .i32 6) fmtIcmp noPts
    ∧ tL.Clears 0 0 (tI (.p 2) (.v 0) .i32 1 0) fmtPset noPts
    ∧ tL.Clears 0 0 (tR (.p 7) (.s 4) (.v 0) (.v 0) .i32 0) fmtPset noPts
    ∧ tL.Clears 0 0 (tR (.p 2) (.p 0) (.p 3) (.v 0) .i32 1) fmtP2 noPts
    ∧ tL.Clears 0 0 (tR (.p 2) (.p 1) (.v 0) (.v 0) .i32 0) fmtP1 noPts
    ∧ tL.Clears 0 0 (tR (.s 14) (.p 2) (.v 0) (.v 0) .i32 0) fmtVote noPts
    ∧ tL.Clears 0 0 (tR (.p 4) (.p 2) (.v 0) (.v 0) .i32 3) fmtVote noPts
    ∧ tL.Clears 0 0 (tR (.p 2) (.v 4) (.v 3) (.v 0) .f32 0x30) fmtFcmp noPts
    ∧ tL.Clears 0 0 (tI (.p 2) (.v 4) .f64 0x3FF 0) fmtFclass noPts :=
  ⟨⟨rfl, rfl, rfl⟩, rfl, rfl, rfl, rfl, rfl, rfl, rfl, rfl, rfl⟩

/-- With v4 at the last column of the last package, and s20 at the last offset. -/
def tCol : State := tC fun c => { c with v := [(32 * 4, 150994943)], s := [(20, 0x3FFFFFFFF)] }

theorem test_meets_ColumnAddresses : tCol.Issues 0 0
    ∧ (let w := tR (.v 10) (.v 4) (.s 20) (.v 0) .i32 1
       tCol.Clears 0 0 w fmtMkcol noPts ∧ ∀ l, l < 32 → (tCol.ctxFor 0 0 w).ra false l < 150994944 ∧ (tCol.ctxFor 0 0 w).rb true l < 2 ^ 34)
    ∧ tL.Clears 0 0 (tR (.s 10) (.s 20) (.v 0) (.v 0) .i32 0) fmtColof noPts
    ∧ tL.Clears 0 0 (tR (.v 10) (.v 20) (.v 0) (.v 0) .i32 0) fmtOffof noPts
    ∧ tL.Clears 0 0 (tR (.v 12) (.v 10) (.v 4) (.v 0) .i32 7) fmtLea noPts :=
  ⟨⟨rfl, rfl, rfl⟩, ⟨rfl, by decide⟩, rfl, rfl, rfl⟩

theorem test_meets_LaneMovement : tL.Issues 0 0
    ∧ tL.Clears 0 0 (tI (.v 6) (.v 5) .b32 0x51F 3) fmtShfl noPts
    ∧ tL.Clears 0 0 (tR (.v 6) (.v 4) (.s 5) (.v 0) .n64 0) fmtShfl noPts
    ∧ tL.Clears 0 0 (tR (.s 12) (.v 6) (.v 0) (.v 0) .i32 5) fmtRedc noPts
    ∧ tL.Clears 0 0 (tR (.v 12) (.v 6) (.v 0) (.v 0) .f32 0) fmtRedc noPts
    ∧ tL.Clears 0 0 (tR (.v 9) (.v 6) (.v 0) (.v 0) .i32 8) fmtScanc noPts
    ∧ tL.Clears 0 0 (tI (.s 5) (.v 6) .b32 32 0) fmtUmov noPts
    ∧ (tL.Clears 0 0 (tR (.s 5) (.v 6) (.s 7) (.v 0) .n64 0) fmtUmov noPts
      ∧ (tL.ctxFor 0 0 (tR (.s 5) (.v 6) (.s 7) (.v 0) .n64 0)).rb true 0 ≤ 32) :=
  ⟨⟨rfl, rfl, rfl⟩, rfl, rfl, rfl, rfl, rfl, rfl, rfl, by decide⟩

/-- Slot 0 in its trap handler. -/
def tH : State := tC fun c => c.modSlot 0 fun sp => { sp with hnd := true }

theorem test_meets_SystemRegisters : tL.Issues 0 0
    ∧ tL.Clears 0 0 (tI (.s 12) (.v 0) .i32 13 0) fmtMfsr noPts ∧ (tL.group (tL.col 0).group).isSome = true
    ∧ (let w := tI (.v 0) (.s 12) .i32 2 0
       tL.Clears 0 0 w fmtMtsr (fun x => [x.pt x.w.a true 10]) ∧ (tL.ctxFor 0 0 w).en ≠ 0)
    ∧ (let w := tG (tI (.v 0) (.s 12) .i32 4 0)
       tL.Clears 0 0 w fmtMtsr (fun x => [x.pt x.w.a true 10]) ∧ (tL.ctxFor 0 0 w).en = 0)
    ∧ (let w := tI (.v 0) (.s 12) .i32 5 0
       tH.Issues 0 0 ∧ tH.Clears 0 0 w fmtMtsr (fun x => [x.pt x.w.a true 10]) ∧ (tH.ctxFor 0 0 w).en ≠ 0
        ∧ (tH.ctxFor 0 0 w).sp.hnd = true ∧ w.marker = false ∧ (tH.ctxFor 0 0 w).sp.runLen < 255)
    ∧ tL.Clears 0 0 (tR (.s 13) (.v 0) (.v 0) (.v 0) .i32 1) fmtRdcnt noPts :=
  ⟨⟨rfl, rfl, rfl⟩, rfl, rfl, ⟨rfl, by decide⟩, ⟨rfl, by decide⟩, ⟨⟨rfl, rfl, rfl⟩, rfl, by decide, rfl, rfl, by decide⟩, rfl⟩

theorem test_meets_FloatWords : tL.Issues 0 0
    ∧ tL.Clears 0 0 (tI (.v 7) (.v 6) .f32 3 0xF) (fmtF2 tyFA true (xsF true true true)) noPts
    ∧ tL.Clears 0 0 (tR (.v 10) (.v 2) (.v 4) (.v 6) .f64 0) (fmtF3 tyFA (xsF true true true)) noPts
    ∧ tL.Clears 0 0 (tR (.s 6) (.s 2) (.s 3) (.v 0) .f16x2 4) (fmtF2 tyFA true (xsF false true false)) noPts
    ∧ tL.Clears 0 0 (tR (.v 6) (.v 2) (.v 4) (.v 0) .f64 0xF) (fmtF2 [.f32, .f64] false (xsF true true true)) noPts
    ∧ tL.Clears 0 0 (tR (.v 6) (.v 2) (.v 0) (.v 0) .f32 7) (fmtF1 [.f32, .f64] (xsF true true false)) noPts
    ∧ tL.Clears 0 0 (tR (.v 6) (.v 2) (.v 0) (.v 0) .bf16x2 7) (fmtF1 tyFA (xsF true true false)) noPts
    ∧ tL.Clears 0 0 (tR (.v 6) (.v 2) (.v 0) (.v 0) .f32 0x10) fmtFrnd noPts
    ∧ tL.Clears 0 0 (tI (.v 6) (.v 2) .f16 0xFFFFFF 0) fmtFscl noPts
    ∧ tL.Clears 0 0 (tR (.v 6) (.v 2) (.v 0) (.v 0) .f64 0) fmtFfrx noPts
    ∧ tL.Clears 0 0 (tR (.v 6) (.v 2) (.v 0) (.v 0) .f32 1) fmtFfrx noPts :=
  ⟨⟨rfl, rfl, rfl⟩, rfl, rfl, rfl, rfl, rfl, rfl, rfl, rfl, rfl, rfl⟩

theorem test_meets_FloatConversions : tL.Issues 0 0
    ∧ tL.Clears 0 0 (tR (.v 6) (.v 2) (.v 0) (.v 0) .f32 0x70) fmtF2i noPts
    ∧ tL.Clears 0 0 (tR (.v 1) (.v 1) (.v 0) (.v 0) .f32 0) fmtI2f noPts
    ∧ tL.Clears 0 0 (tR (.v 8) (.v 6) (.v 0) (.v 0) .i32 0x188) fmtFcvt noPts
    ∧ tL.Clears 0 0 (tR (.v 8) (.v 5) (.v 20) (.v 0) .i32 0x90) fmtFcvt noPts
    ∧ tL.Clears 0 0 (tR (.v 8) (.v 3) (.v 4) (.v 0) .e4m3x4 9) fmtFpack noPts
    ∧ tL.Clears 0 0 (tR (.v 8) (.v 3) (.v 0) (.v 0) .e5m2x4 3) fmtFunpk noPts
    ∧ tL.Clears 0 0 (tR (.v 8) (.v 3) (.v 4) (.v 5) .bf16x2 0xF) fmtFdot2 noPts
    ∧ tL.Clears 0 0 (tR (.v 8) (.v 3) (.v 4) (.v 5) .hn4x8 7) fmtHndec noPts :=
  ⟨⟨rfl, rfl, rfl⟩, rfl, rfl, rfl, rfl, rfl, rfl, rfl, rfl⟩

theorem rat_codes : FFmt.f32.rat false 0x3F800000 = some 1 ∧ FFmt.f32.rat false 0xBFC00000 = some (-(3 / 2)) ∧ FFmt.f32.rat true 0 = some 0 := by
  have h1 : (FFmt.f32.read false 0x3F800000).x = .num false 0x800000 0x800000 := by decide
  have h2 : (FFmt.f32.read false 0xBFC00000).x = .num true 0xC00000 0x800000 := by decide
  have h3 : (FFmt.f32.read true 0).x = .num false 0 (2 ^ 149) := by decide
  simp only [FFmt.rat, h1, h2, h3, XR.toRat]
  norm_num

theorem test_meets_RoundingIsCorrect : XR.toRat (.num true 3 2) = some (-(3 / 2))
    ∧ (XR.toRat (FFmt.f32.widen (roundTo .f32 .rne false false (.num true 3 2)).1)).isSome = true
    ∧ FFmt.f32.rat false 0x3F800000 = some 1 ∧ FFmt.f32.rat false 0xBFC00000 = some (-(3 / 2)) ∧ FFmt.f32.rat true 0 = some 0
    ∧ FFmt.f32.hasInf = true ∧ FFmt.f32.widen 0x7FC00000 = .nan ∧ FFmt.f32.widen 0x7F800000 ≠ .nan :=
  ⟨by simp [XR.toRat], rfl, rat_codes.1, rat_codes.2.1, rat_codes.2.2, rfl, by decide, by decide⟩

theorem test_meets_ExactSumsAndProducts :
    (∀ e ∈ ([(true, 3, 2), (false, 0, 1)] : List (Bool × Nat × Nat)), 0 < e.2.2) ∧ XR.toRat (.num true 3 2) = some (-(3 / 2))
    ∧ XR.toRat (.num false 0 1) = some 0
    ∧ FFmt.f32.rat false 0x3F800000 = some 1 ∧ FFmt.f32.rat false 0xBFC00000 = some (-(3 / 2)) ∧ FFmt.f32.rat true 0 = some 0
    ∧ FFmt.f32.widen 0x3F800000 = .num false 0x800000 0x800000
    ∧ (transNum .exp2 .f32 .rne false false 0x800000 0x800000).1 = true ∧ (transNum .log2 .f32 .rne false false 0x800000 0x800000).1 = true
    ∧ (transNum .sin .f32 .rne false false 0x800000 0x800000).1 = true ∧ (transNum .cos .f32 .rne false false 0x800000 0x800000).1 = true
    ∧ FFmt.f32.hasInf = true ∧ FFmt.f32.widen 0x7FC00000 = .nan :=
  ⟨by decide, by simp [XR.toRat], by simp [XR.toRat], rat_codes.1, rat_codes.2.1, rat_codes.2.2, by decide, by decide, by decide, by decide, by decide,
    rfl, by decide⟩

theorem test_meets_PairWords : tL.Issues 0 0
    ∧ tL.PairClears 0 0 true 0x01 ⟨0, false, 8, 1, false, false, false, 0⟩ ⟨0x10, ⟨0, false, 13, 6, false, false, false, 2⟩⟩
    ∧ tL.PairClears 0 0 false 0x00 ⟨0, false, 0, 0, false, false, false, 0⟩ ⟨0x00, ⟨0, false, 0, 0, false, false, false, 0⟩⟩ :=
  ⟨⟨rfl, rfl, rfl⟩, ⟨rfl, rfl, rfl⟩, ⟨rfl, rfl, rfl⟩⟩

/-! ## Hypotheses met: control words -/

/-- With s9 and %ret at a word of column 0. -/
def tT : State := tC fun c => { c with s := [(9, selfAddr 0x20000)], ret := selfAddr 0x30000 }

theorem test_meets_ControlFlow : tT.Issues 0 0 ∧ ((tT.col 0).slot 0).hnd = false
    ∧ tT.Clears 0 0 (tR (.v 0) (.v 0) (.v 0) (.v 0) .i32 0) fmtBare noPts
    ∧ tT.Clears 0 0 (tI (.v 0) (.v 0) .i32 0xFFFFFC 0) fmtDisp noPts
    ∧ (let w := tR (.v 0) (.s 9) (.v 0) (.v 0) .i32 0
       tT.Clears 0 0 w fmtBrx (fun x => [x.pt x.w.a true 2])
        ∧ ∀ l, l < 32 → targetOk 0 (BitVec.ofNat 64 ((tT.ctxFor 0 0 w).ra true l)) = true)
    ∧ tT.Clears 0 0 (tI (.s 0) (.v 0) .i32 12 0) fmtCall noPts
    ∧ (let w := tR (.v 10) (.s 9) (.v 0) (.v 0) .i32 0
       tT.Clears 0 0 w fmtCallx (fun x => [x.pt x.w.a true 2])
        ∧ ∀ l, l < 32 → targetOk 0 (BitVec.ofNat 64 ((tT.ctxFor 0 0 w).ra true l)) = true)
    ∧ (let w := tR (.v 0) (.s 0) (.v 0) (.v 0) .i32 0
       tT.Clears 0 0 w fmtBrx (fun x => [x.pt x.w.a true 2]) ∧ w.a = .s 0 ∧ targetOk 0 (tT.col 0).ret = true)
    ∧ tT.Clears 0 0 (tI (.v 4) (.v 0) .n64 0xFFFFFA 0) fmtLoop (fun x => [x.pt x.w.d (isWide x.w.ty) 2]) :=
  ⟨⟨rfl, rfl, rfl⟩, rfl, rfl, rfl, ⟨rfl, by decide⟩, rfl, ⟨rfl, by decide⟩, ⟨rfl, rfl, rfl⟩, rfl⟩

/-- With j1 naming lanes 0 to 7, and lanes 0 to 3 in slot 0. -/
def tJ : State := tC fun c => ({ c with j := [(1, 0xFF)] }).modSlot 0 fun sp => { sp with mask := 0xF }

/-- With lanes 4 to 7 parked at the word as well. -/
def tP : State :=
  tJ.modCol 0 fun c => { c with parked := ([4, 5, 6, 7] : List Nat).map fun l => ⟨l, (c.slot 0).pc, false, 1⟩ }

/-- The word `join j1`. -/
def tJoin : Full := tR (.v 0) (.j 1) (.v 0) (.v 0) .i32 0

theorem test_meets_RejoinMasks : tJ.Issues 0 0
    ∧ tL.Clears 0 0 (tR (.j 1) (.p 2) (.v 0) (.v 0) .i32 0) fmtJsetMask (fun x => [x.pt x.w.a false 2])
    ∧ tL.Clears 0 0 (tI (.j 7) (.v 0) .i32 0 0) fmtJsetEnabled noPts
    ∧ tL.Clears 0 0 (tR (.j 1) (.s 4) (.v 0) (.v 0) .i32 0) fmtJmov (fun x => [x.ptMask])
    ∧ tL.Clears 0 0 (tR (.p 3) (.j 1) (.v 0) (.v 0) .i32 0) fmtJmov (fun x => [x.ptMask])
    ∧ tL.Clears 0 0 (tR (.s 0) (.j 1) (.v 0) (.v 0) .i32 0) fmtJmov (fun x => [x.ptMask])
    ∧ (let w := tG (tR (.j 0) (.j 1) (.v 0) (.v 0) .i32 0)
       tL.Clears 0 0 w fmtJmov (fun x => [x.ptMask]) ∧ (tL.ctxFor 0 0 w).en = 0)
    ∧ (tJ.Clears 0 0 tJoin fmtJoin noPts ∧ (tJ.ctxFor 0 0 tJoin).sp.hnd = false ∧ (tJ.ctxFor 0 0 tJoin).en ≠ 0
      ∧ ¬ ∀ l, l < 32 → ((tJ.col 0).rdJ 1).getLsbD l = true → (tJ.col 0).live.getLsbD l = true → (tJ.ctxFor 0 0 tJoin).en.getLsbD l = true)
    ∧ (tJ.Clears 0 0 (tG tJoin) fmtJoin noPts ∧ (tJ.ctxFor 0 0 (tG tJoin)).en = 0)
    ∧ (tP.Issues 0 0 ∧ tP.Clears 0 0 tJoin fmtJoin noPts ∧ (tP.ctxFor 0 0 tJoin).en ≠ 0
      ∧ ∀ l, l < 32 → ((tP.col 0).rdJ 1).getLsbD l = true → (tP.col 0).live.getLsbD l = true → (tP.ctxFor 0 0 tJoin).en.getLsbD l = true
        ∨ ∃ p, p ∈ (tP.col 0).parked ∧ p.bar = false ∧ p.pc = (tP.ctxFor 0 0 tJoin).sp.pc ∧ p.lane = l) :=
  ⟨⟨rfl, rfl, rfl⟩, rfl, rfl, rfl, rfl, rfl, ⟨rfl, by decide⟩, ⟨rfl, rfl, by decide, by decide⟩, ⟨rfl, by decide⟩,
    ⟨rfl, rfl, rfl⟩, rfl, by decide, by decide⟩

/-- With a result outstanding for lane 31. -/
def tO : State := tC fun c => { c with results := [⟨0, 0x80000000, [], 0, .reply 0⟩], nextRes := 1 }

/-- In a deterministic group. -/
def tD : State := { tL with sch.groups := tabMod tL.sch.groups 0 (Option.map fun g => { g with hdr := { g.hdr with det := true } }) }

theorem test_meets_YieldNapExit : tL.Issues 0 0
    ∧ tL.Clears 0 0 (tR (.v 0) (.v 0) (.v 0) (.v 0) .i32 0) fmtYield noPts
    ∧ tL.Clears 0 0 (tR (.v 0) (.v 0) (.v 0) (.v 0) .i32 1) fmtYieldPool noPts
    ∧ (let w := tI (.v 0) (.v 0) .i32 0xFFFFFF 0
       tL.Clears 0 0 w fmtDisp noPts ∧ immN w ≠ 0 ∧ (tL.ctxFor 0 0 w).h.det = false ∧ (tL.ctxFor 0 0 w).sp.mask ≠ 0
        ∧ tD.Issues 0 0 ∧ tD.Clears 0 0 w fmtDisp noPts ∧ (tD.ctxFor 0 0 w).h.det = true)
    ∧ (let w := tR (.v 0) (.v 0) (.v 0) (.v 0) .i32 0
       tL.Clears 0 0 w fmtBare noPts ∧ (tL.ctxFor 0 0 w).sp.hnd = false ∧ (tL.ctxFor 0 0 w).en ≠ 0
        ∧ (tL.col 0).outstanding (tL.ctxFor 0 0 w).sp.lanes = false
        ∧ tL.Clears 0 0 (tG w) fmtBare noPts ∧ (tL.ctxFor 0 0 (tG w)).en = 0
        ∧ tO.Issues 0 0 ∧ tO.Clears 0 0 w fmtBare noPts ∧ (tO.ctxFor 0 0 w).en ≠ 0 ∧ (tO.col 0).outstanding (tO.ctxFor 0 0 w).sp.lanes = true)
    ∧ (let w := tI (.v 0) (.v 0) .i32 0xFFFFFF 0
       tL.Clears 0 0 w fmtSetrst noPts ∧ (addrOff (pcAdd (pcNext (tL.ctxFor 0 0 w).sp.pc) (8 * immS w)).toNat : Int) - ((tL.ctxFor 0 0 w).entryOff : Int) = 0)
    ∧ tL.Clears 0 0 (tI (.v 0) (.v 0) .i32 0 1) fmtSetrst noPts :=
  ⟨⟨rfl, rfl, rfl⟩, rfl, rfl, ⟨rfl, by decide, rfl, by decide, ⟨rfl, rfl, rfl⟩, rfl, rfl⟩,
    ⟨rfl, rfl, by decide, rfl, rfl, by decide, ⟨rfl, rfl, rfl⟩, rfl, by decide, by decide⟩, ⟨rfl, by decide⟩, rfl⟩

/-- With the entry of a trap code at a word of column 0. -/
def tV (code : Nat) (s : State) : State := s.poke (8 * code) (selfAddr 0x20000)

/-- In the handler of trap 0x10, taken at a word of column 0, with lane 31 held. -/
def tB : State := tC fun c => c.modSlot 0 fun sp => { sp with
  hnd := true, mask := 0x7FFFFFFF, held := 0x80000000, trap := ⟨selfAddr 0x10000, 0, 0x7FFFFFFF, 0, 0x10⟩ }

theorem test_meets_TrapsAndReturns :
    (let w := tI (.v 0) (.v 0) .i32 31 0
     let s := tV 0x3F tL
     s.Issues 0 0 ∧ s.Clears 0 0 w fmtTrap noPts ∧ (s.ctxFor 0 0 w).en ≠ 0 ∧ (s.ctxFor 0 0 w).sp.hnd = false
      ∧ s.HandlerAt 0 (0x20 + immN w) (selfAddr 0x20000) ∧ s.Clears 0 0 (tG w) fmtTrap noPts ∧ (s.ctxFor 0 0 (tG w)).en = 0)
    ∧ (let w := tR (.v 0) (.v 0) (.v 0) (.v 0) .i32 0
       let s := tV 0x10 tL
       s.Issues 0 0 ∧ s.Clears 0 0 w fmtBare noPts ∧ (s.ctxFor 0 0 w).en ≠ 0 ∧ s.HandlerAt 0 0x10 (selfAddr 0x20000))
    ∧ (let w := tI (.v 0) (.v 0) .i32 0 0
       tB.Issues 0 0 ∧ tB.Clears 0 0 w fmtRtrap noPts ∧ (tB.ctxFor 0 0 w).sp.hnd = true ∧ (tB.ctxFor 0 0 w).en ≠ 0
        ∧ targetOk 0 (tB.ctxFor 0 0 w).sp.trap.tpc = true)
    ∧ (let w := tI (.v 0) (.v 0) .i32 63 1
       tB.Clears 0 0 w fmtRtrapStep noPts ∧ (tB.ctxFor 0 0 w).sp.trap.tcode = 0x10
        ∧ tB.Clears 0 0 (tG w) fmtRtrapStep noPts ∧ (tB.ctxFor 0 0 (tG w)).en = 0) :=
  ⟨⟨⟨rfl, rfl, rfl⟩, rfl, by decide, rfl, ⟨by decide, rfl, _, rfl, rfl, rfl⟩, rfl, by decide⟩,
    ⟨⟨rfl, rfl, rfl⟩, rfl, by decide, ⟨by decide, rfl, _, rfl, rfl, rfl⟩⟩,
    ⟨⟨rfl, rfl, rfl⟩, rfl, rfl, by decide, rfl⟩, rfl, rfl, rfl, by decide⟩

/-- With v4 pending, and with the guard p1 poisoned in lane 3. -/
def tQ : State := tC fun c => c.modSlot 0 fun sp => { sp with pend := [.v 4] }
def tU : State := tC fun c => { c with pp := [(1, 8)] }

theorem test_meets_WordsThatTrap :
    (let s := tV 2 tL
     let w := tR (.v 5) (.v 4) (.v 3) (.v 0) .rsvd 0
     let f := fmt2 tyZp true [xBit 0]
     s.Issues 0 0 ∧ (s.ctxFor 0 0 w).sp.hnd = false ∧ (s.ctxFor 0 0 w).sp.mask ≠ 0
      ∧ check6 (s.ctxFor 0 0 w).h w (f (s.ctxFor 0 0 w).h w) = some (0, 1) ∧ s.HandlerAt 0 2 (selfAddr 0x20000))
    ∧ (let s := tV 4 tQ
       let w := tI (.v 5) (.v 4) .i32 1 0
       let f := fmt2 tyZp true [xBit 0]
       s.Issues 0 0 ∧ check6 (s.ctxFor 0 0 w).h w (f (s.ctxFor 0 0 w).h w) = none
        ∧ firstPending (s.ctxFor 0 0 w).sp.pend (wordRegs w (f (s.ctxFor 0 0 w).h w)) = some 4 ∧ s.HandlerAt 0 4 (selfAddr 0x20000))
    ∧ (let s := tV 9 tU
       let w := tG (tI (.v 5) (.v 4) .i32 1 0)
       let f := fmt2 tyZp true [xBit 0]
       s.Issues 0 0 ∧ check6 (s.ctxFor 0 0 w).h w (f (s.ctxFor 0 0 w).h w) = none
        ∧ firstPending (s.ctxFor 0 0 w).sp.pend (wordRegs w (f (s.ctxFor 0 0 w).h w)) = none
        ∧ (s.ctxFor 0 0 w).c.tokenPending (wordRegs w (f (s.ctxFor 0 0 w).h w)) = false
        ∧ (s.ctxFor 0 0 w).sp.mask &&& (s.ctxFor 0 0 w).c.rdPp w.g.toNat ≠ 0 ∧ s.HandlerAt 0 9 (selfAddr 0x20000))
    ∧ (let s := tV 1 tL
       s.Issues 0 0 ∧ illegalInfo 0x0300000000000000 = some 0x18 ∧ s.HandlerAt 0 1 (selfAddr 0x20000))
    ∧ (let s := tV 9 { tL with pois := [((tL.hbmPlace 0 0x10000).line, true)] }
       s.Issues 0 0 ∧ ((s.col 0).slot 0).hnd = false ∧ ((s.col 0).slot 0).mask ≠ 0 ∧ (s.fetch 0 0).2 = .trap 9 11
        ∧ (s.fetch 0 0).1.HandlerAt 0 9 (selfAddr 0x20000)) :=
  ⟨⟨⟨rfl, rfl, rfl⟩, rfl, by decide, rfl, ⟨by decide, rfl, _, rfl, rfl, rfl⟩⟩,
    ⟨⟨rfl, rfl, rfl⟩, rfl, rfl, ⟨by decide, rfl, _, rfl, rfl, rfl⟩⟩,
    ⟨⟨rfl, rfl, rfl⟩, rfl, rfl, rfl, by decide, ⟨by decide, rfl, _, rfl, rfl, rfl⟩⟩,
    ⟨⟨rfl, rfl, rfl⟩, rfl, ⟨by decide, rfl, _, rfl, rfl, rfl⟩⟩,
    ⟨⟨rfl, rfl, rfl⟩, rfl, by decide, rfl, ⟨by decide, rfl, _, rfl, rfl, rfl⟩⟩⟩

/-- With s8, the address of a load, poisoned. -/
def tSp : State := tV 9 (tC fun c => { c with sp := 0x100 })

theorem test_meets_WordsThatTrap_fetch :
    let s := (tV 8 tL).poke loadTrans 0x7
    let sp := (s.col 0).slot 0
    s.Issues 0 0 ∧ sp.hnd = false ∧ sp.mask ≠ 0 ∧ (∃ info, (s.fetch 0 0).2 = .trap 8 info)
      ∧ ((s.fetch 0 0).1.touchWalk (s.ctxOf 0) 0 (addrOff sp.pc.toNat)).HandlerAt 0 8 (selfAddr 0x20000) :=
  ⟨⟨rfl, rfl, rfl⟩, rfl, by decide, ⟨_, rfl⟩, ⟨by decide, rfl, _, rfl, rfl, rfl⟩⟩

theorem test_meets_WordsThatTrap_points :
    (let w := tI (.v 4) (.s 8) .i32 0x40 4
     let f := fmtMem [1, 3]
     let x := tSp.ctxFor 0 0 w
     tSp.Issues 0 0 ∧ x.sp.hnd = false ∧ x.sp.mask ≠ 0 ∧ check6 x.h w (f x.h w) = none ∧ firstPending x.sp.pend (wordRegs w (f x.h w)) = none
      ∧ x.c.tokenPending (wordRegs w (f x.h w)) = false
      ∧ (([x.ptGuard, x.ptAddr x.w.a true x.addr].find? fun q => q.lanes != 0).map Pt.pt) = some 1 ∧ tSp.HandlerAt 0 9 (selfAddr 0x20000))
    ∧ (let s := tV 2 tL
       let w := tR (.q 1) (.v 4) (.v 0) (.v 0) .rsvd 0
       let b := (s.col 0).binding (numOf w.d)
       (check6 (s.ctxFor 0 0 w).h w (fmtQpush b (s.ctxFor 0 0 w).h w)).isSome = true)
    ∧ (let s := tV 2 tL
       let w := tR (.v 4) (.q 1) (.v 0) (.v 0) .rsvd 0
       let b := (s.col 0).binding (numOf w.a)
       (check6 (s.ctxFor 0 0 w).h w (fmtQpop b (s.ctxFor 0 0 w).h w)).isSome = true) :=
  ⟨⟨⟨rfl, rfl, rfl⟩, rfl, by decide, rfl, rfl, rfl, rfl, ⟨by decide, rfl, _, rfl, rfl, rfl⟩⟩, by decide, by decide⟩

/-! ## Hypotheses met: purses, receipts, barriers -/

/-- A purse of three rows of two fields (v4, v5): row 0 woken, row 1 allocated, row 2 free. -/
def tHdr : PurseHdr := {
  abits := 3, wake := 1, resume := selfAddr 0x20000, nrow := 3, width := 8, alloc := 2, woken := 1, layout := [4, 5] ++ List.replicate 46 0 }

/-- With that purse at the start of column 0's slice, named by t2. -/
def tPurse : PurseAt := ⟨0, 0x20000, 0x3C000, tHdr⟩
def tA : State := (tC fun c => { c with t := [(2, 4)] }).putPurse tPurse

theorem test_meets_PurseRows : tA.Issues 0 0
    ∧ (let w := tR (.t 2) (.v 7) (.v 0) (.v 0) .i32 0
       (tA.ctxFor 0 0 w).en ≠ 0 ∧ (tA.ctxFor 0 0 w).purse w.d = .ok tPurse ∧ tA.Clears 0 0 w fmtPwakeRows (fun x => [x.ptRow]))
    ∧ (let w := tR (.t 2) (.s 9) (.v 0) (.v 0) .f32 0x40C
       (tA.ctxFor 0 0 w).purse w.d = .ok tPurse ∧ tA.Clears 0 0 w fmtPwakeField noPts ∧ xf w 8 3 < tPurse.h.width / 4)
    ∧ (let w := tI (.t 2) (.s 9) .f32 0x841 0
       (tA.ctxFor 0 0 w).purse w.d = .ok tPurse ∧ tA.Clears 0 0 w fmtPxform noPts ∧ immF w 5 0 < tPurse.h.width / 4)
    ∧ (let w := tR (.t 2) (.v 7) (.v 0) (.v 0) .i32 0
       tA.Clears 0 0 w fmtPfreeRows (fun x => [x.ptRow]))
    ∧ (let w := tI (.t 2) (.v 0) .i32 0 1
       (tA.ctxFor 0 0 w).en ≠ 0 ∧ (tA.ctxFor 0 0 w).purse w.d = .ok tPurse ∧ tA.Clears 0 0 w fmtPfreeAll noPts) :=
  ⟨⟨rfl, rfl, rfl⟩, ⟨by decide, rfl, rfl⟩, ⟨rfl, rfl, by decide⟩, ⟨rfl, rfl, by decide⟩, rfl, ⟨by decide, rfl, rfl⟩⟩

theorem test_meets_PurseCounts : tA.Issues 0 0
    ∧ (let w := tR (.s 12) (.t 2) (.v 0) (.v 0) .i32 0
       tA.Clears 0 0 w fmtPcount noPts ∧ (tA.ctxFor 0 0 w).en ≠ 0 ∧ (tA.ctxFor 0 0 w).purse w.a = .ok tPurse
        ∧ tA.Clears 0 0 (tG w) fmtPcount noPts ∧ (tA.ctxFor 0 0 (tG w)).en = 0) :=
  ⟨⟨rfl, rfl, rfl⟩, rfl, by decide, rfl, rfl, by decide⟩

/-- With the image of that purse in memory at offset 0x40000, which s10 holds. -/
def tImage : State :=
  (List.range 16).foldl (fun s i => s.poke (0x40000 + 8 * i) (BitVec.ofNat 64 (tHdr.bits / 2 ^ (64 * i))))
    (tC fun c => ({ c with t := [(2, 4)], s := [(10, selfAddr 0x40000)] }).modSlot 0 fun sp => { sp with mask := 1 })

theorem test_meets_CoroutinesInPurses : tA.Issues 0 0
    ∧ (let w := tI (.p 3) (.t 2) .i32 5 1
       (tA.ctxFor 0 0 w).en ≠ 0 ∧ (tA.ctxFor 0 0 w).sp.hnd = false ∧ (tA.ctxFor 0 0 w).purse w.a = .ok tPurse
        ∧ (tA.ctxFor 0 0 w).layoutBad w.a tPurse = none ∧ tA.Clears 0 0 w fmtSusp noPts)
    ∧ (let w := tI (.p 3) (.t 2) .i32 3 0
       (tA.ctxFor 0 0 w).en ≠ 0 ∧ (tA.ctxFor 0 0 w).purse w.a = .ok tPurse
        ∧ (tA.ctxFor 0 0 w).layoutBad w.a tPurse = none ∧ tA.Clears 0 0 w fmtResume noPts) :=
  ⟨⟨rfl, rfl, rfl⟩, ⟨by decide, rfl, rfl, rfl, rfl⟩, ⟨by decide, rfl, rfl, rfl⟩⟩

theorem test_meets_CoroutinesInPurses_pinit :
    let w := tI (.t 2) (.s 10) .i32 0 0
    let x := tImage.ctxFor 0 0 w
    let f (i : Nat) : DWord := x.imageAddr 0 + BitVec.ofNat 64 (8 * i)
    tImage.Issues 0 0 ∧ x.en ≠ 0 ∧ tImage.Clears 0 0 w fmtPinit (fun x => [x.ptAddr x.w.a true x.imageAddr])
      ∧ x.purseSpot w.d = .ok (0, 0x20000, 0x3C000) ∧ x.check183 (fun _ => f 0) = none ∧ x.checkAlign (fun _ => f 0) 8 = none
      ∧ (∀ i, i < 16 → x.check183 (fun _ => f i) = none) ∧ (∀ i, i < 16 → x.checkOwn x.en (fun _ => f i) 8 .read = none)
      ∧ x.held false 0 0 = false ∧ (∀ a ∈ (tImage.readLanes 0 f 8 (List.range 16)).2, a.pois = false)
      ∧ purseOf (natOf ((tImage.readLanes 0 f 8 (List.range 16)).2.flatMap fun a => bytesOf 8 a.data.toNat)) = tHdr
      ∧ tHdr.ok = true ∧ 0x20000 + tHdr.size ≤ 0x3C000 :=
  ⟨⟨rfl, rfl, rfl⟩, by decide, rfl, rfl, rfl, rfl, by decide, by decide, rfl, by decide, rfl, rfl, by decide⟩

/-- With s9 = 1 and a receipt of phase 0 with one arrival left, at the end of column 0's slice. -/
def tRc (d : DWord) : State := (tC fun c => { c with s := [(9, d)] }).rcptPut 0 (0x20000 + 0x1BFF0) ⟨0, 1, 0, 3⟩ true

theorem test_meets_Receipts :
    let w := tI (.s 9) (.s 0) .i32 0x1BFF0 0
    let good (s : State) (w : Full) : Prop :=
      let x := s.ctxFor 0 0 w
      let reg := s.region 0 (xb w 0)
      x.en ≠ 0 ∧ x.rcptOff.toNat % 16 = 0 ∧ x.rcptOff.toNat + 16 ≤ reg.2 ∧ s.zeroing 0 [(reg.1 + x.rcptOff.toNat, 16)] = false
        ∧ (s.rcptGet 0 (reg.1 + x.rcptOff.toNat)).2 = false
    (let s := tRc 0xFFFFFFF
     s.Issues 0 0 ∧ s.Clears 0 0 w (fmtRcpt true) (fun x => x.ptsRcpt true) ∧ good s w ∧ (s.ctxFor 0 0 w).rdd true 0 < 2 ^ 28)
    ∧ (let s := tRc 0xFFFFFFFF
       s.Clears 0 0 w (fmtRcpt true) (fun x => x.ptsRcpt true) ∧ good s w ∧ (s.ctxFor 0 0 w).rdd true 0 < 2 ^ 32)
    ∧ (let s := tRc 0
       s.Clears 0 0 w (fmtRcpt true) (fun x => x.ptsRcpt true) ∧ good s w
        ∧ (s.ctxFor 0 0 w).rdd true 0 = (s.rcptGet 0 (0x20000 + 0x1BFF0)).1.phase)
    ∧ (let s := tRc 15
       s.Clears 0 0 w (fmtRcpt true) (fun x => x.ptsRcpt true) ∧ good s w
        ∧ (s.ctxFor 0 0 w).rdd true 0 < 16 ∧ (s.ctxFor 0 0 w).rdd true 0 ≠ (s.rcptGet 0 (0x20000 + 0x1BFF0)).1.phase)
    ∧ (tL.Clears 0 0 (tG w) (fmtRcpt true) (fun x => x.ptsRcpt true) ∧ (tL.ctxFor 0 0 (tG w)).en = 0)
    ∧ (let s := tRc 0
       let w := tI (.v 0) (.s 0) .i32 0x1BFF0 0
       s.Clears 0 0 w (fmtRcpt false) (fun x => x.ptsRcpt false) ∧ good s w ∧ 1 ≤ (s.rcptGet 0 (0x20000 + 0x1BFF0)).1.arrv) :=
  ⟨⟨⟨rfl, rfl, rfl⟩, rfl, by decide, by decide⟩, ⟨rfl, by decide, by decide⟩, ⟨rfl, by decide, by decide⟩,
    ⟨rfl, by decide, by decide, by decide⟩, ⟨rfl, by decide⟩, ⟨rfl, by decide, by decide⟩⟩

/-- With the lanes of a mask in slot 0 and the others arrived at barrier 3 of the column. -/
def tBar (m : Mask) : State :=
  tC fun c => ({ c with cbar := [(3, ⟨0, 0xFFFF, false⟩)] }).modSlot 0 fun sp => { sp with mask := m }

theorem test_meets_BarrierWords :
    let w := tI (.v 0) (.v 0) .i32 3 1
    let u := tI (.v 0) (.v 0) .i32 3 2
    let member (s : State) : Prop :=
      let x := s.ctxFor 0 0 w
      let b := tabGet (s.col 0).cbar (barNum w)
      s.Issues 0 0 ∧ s.Clears 0 0 w fmtBar noPts ∧ x.en ≠ 0 ∧ barLevel w = 1 ∧ x.en &&& b.dropped = 0 ∧ x.en &&& b.arrived = 0 ∧ x.sp.hnd = false
    let all (s : State) : Prop :=
      let b := tabGet (s.col 0).cbar (barNum w)
      b.arrived ||| (s.ctxFor 0 0 w).en ||| b.dropped = 0xFFFFFFFF
    (member (tBar 0xFFFF0000) ∧ all (tBar 0xFFFF0000) ∧ ((tBar 0xFFFF0000).col 0).reqs = [])
    ∧ (member (tBar 0x7FFF0000) ∧ ¬ all (tBar 0x7FFF0000))
    ∧ (tL.Clears 0 0 (tG w) fmtBar noPts ∧ (tL.ctxFor 0 0 (tG w)).en = 0 ∧ (tL.ctxFor 0 0 (tG w)).sp.hnd = false)
    ∧ (let s := tBar 0xFFFF
       let x := s.ctxFor 0 0 u
       let b := tabGet (s.col 0).ubar (barKey (barLevel u) (barNum u))
       s.Issues 0 0 ∧ s.Clears 0 0 u fmtBar noPts ∧ x.en ≠ 0 ∧ barLevel u ≠ 1 ∧ b.dropped = false ∧ b.arrived = false ∧ x.en &&& b.lanes = 0
        ∧ (s.col 0).live &&& ~~~(b.lanes ||| x.en) ≠ 0 ∧ b.lanes = 0 ∧ x.sp.hnd = false) :=
  ⟨⟨⟨⟨rfl, rfl, rfl⟩, rfl, by decide, rfl, by decide, by decide, rfl⟩, by decide, rfl⟩,
    ⟨⟨⟨rfl, rfl, rfl⟩, rfl, by decide, rfl, by decide, by decide, rfl⟩, by decide⟩, ⟨rfl, by decide, rfl⟩,
    ⟨⟨rfl, rfl, rfl⟩, rfl, by decide, by decide, rfl, rfl, by decide, by decide, rfl, rfl⟩⟩

/-! ## Hypotheses met: memory -/

theorem test_sound : tL.Sound := ⟨rfl, fun _ => Nat.zero_lt_succ 4⟩

/-- The page that maps the first 2 MiB of column 0. -/
def tPage : Page := ⟨0, false, 2 ^ 21, 0, false, false, true, true, 0x1E00000, 0x1E00000⟩

/-- With s8 at a word of column 0, and s9 at the same word of column 1 of package 0. -/
def tM : State := tC fun c => { c with s := [(8, selfAddr 0x40000), (9, BitVec.ofNat 64 (2 ^ 36 + 0x40000))] }

theorem test_meets_OwnMemoryWords : tM.Issues 0 0
    ∧ (let w := tI (.v 4) (.s 8) .i32 0x40 4
       tM.Clears 0 0 w (fmtMem [1, 3]) (fun x => [x.ptAddr x.w.a true x.addr]) ∧ (tM.ctxFor 0 0 w).en ≠ 0
        ∧ (tM.ctxFor 0 0 w).OwnOk .read (fun _ => tPage) ∧ (tM.ctxFor 0 0 w).held false (memOrd w) (tM.ctxFor 0 0 w).en = false)
    ∧ (let w := tI (.s 5) (.s 8) .i64 0x80 0
       tM.Clears 0 0 w (fmtMem [2, 3]) (fun x => [x.ptAddr x.w.a true x.addr]) ∧ (tM.ctxFor 0 0 w).en ≠ 0
        ∧ (tM.ctxFor 0 0 w).OwnOk .write (fun _ => tPage) ∧ (tM.ctxFor 0 0 w).held true (memOrd w) (tM.ctxFor 0 0 w).en = false
        ∧ tPage.comp = false ∧ tPage.tol = 0 ∧ ∀ j, j < 8 → tM.mirror 0 tPage.tier (tPage.base + 0x40080 + j) = none)
    ∧ (let w := tG (tI (.v 4) (.s 8) .i32 0x40 0)
       tM.Clears 0 0 w (fmtMem [2, 3]) (fun x => [x.ptAddr x.w.a true x.addr]) ∧ (tM.ctxFor 0 0 w).en = 0) :=
  ⟨⟨rfl, rfl, rfl⟩, ⟨rfl, by decide, by unfold Ctx.OwnOk; decide, rfl⟩,
    ⟨rfl, by decide, by unfold Ctx.OwnOk; decide, rfl, rfl, rfl, by decide⟩, ⟨rfl, by decide⟩⟩

theorem test_meets_ScratchpadWords : tM.Issues 0 0
    ∧ (let w := tI (.v 7) (.s 0) .i32 0x1BF80 4
       tM.Clears 0 0 w (fmtMem []) (fun x => [x.ptAddr x.w.a true x.addr]) ∧ (tM.ctxFor 0 0 w).en ≠ 0
        ∧ (tM.ctxFor 0 0 w).checkSpad false = none ∧ (tM.ctxFor 0 0 w).checkSpad true = none)
    ∧ (let w := tG (tI (.v 7) (.s 0) .i32 0x200 2)
       tM.Clears 0 0 w (fmtMem []) (fun x => [x.ptAddr x.w.a true x.addr]) ∧ (tM.ctxFor 0 0 w).en = 0) :=
  ⟨⟨rfl, rfl, rfl⟩, ⟨rfl, by decide, rfl, rfl⟩, ⟨rfl, by decide⟩⟩

/-- An address that names another column than `col` (R182). -/
theorem ownAddr_other {col : Nat} {a : DWord} (h : isSelfAlias a.toNat = false) (h' : addrCol a.toNat ≠ col) : ownAddr col a = false := by
  simp [ownAddr, h, h']

/-- Addresses that name column 1 of some package are remote for column 0. -/
theorem farOk_of {x : Ctx} {f : Nat → DWord} {n : Nat} (hc : x.col = 0)
    (h : ∀ l, l < 32 → isSelfAlias (f l).toNat = false ∧ addrCol (f l).toNat = 1 ∧ addrAp (f l).toNat < 2 ∧ (f l).toNat % n = 0) :
    x.FarOk f n := fun l hl _ =>
  have g := h l hl
  ⟨ownAddr_other g.1 (by rw [g.2.1, hc]; decide), g.2.2.1, by rw [g.2.1]; decide, g.2.2.2⟩

theorem test_meets_RemoteMemoryWords : tM.Issues 0 0 ∧ tM.Sound
    ∧ (let w := tI (.v 4) (.s 8) .i32 0x40 4
       let x := tM.ctxFor 0 0 w
       tM.Clears 0 0 w (fmtMem [1, 3]) (fun x => [x.ptAddr x.w.a true x.addr]) ∧ x.en ≠ 0
        ∧ x.OwnOk .read (fun _ => tPage) ∧ x.OwnOk .write (fun _ => tPage)
        ∧ x.held false (memOrd w) (maskOf (x.lanesFor w.d)) = false ∧ (tM.col 0).sendq = [])
    ∧ (let w := tI (.v 4) (.s 9) .i32 0x40 4
       let x := tM.ctxFor 0 0 w
       let keys := ((x.lanesFor w.d).map fun l => (x.addr l).toNat / 256).eraseDups.map fun b => creditKey (256 * b)
       tM.Clears 0 0 w (fmtMem [1, 3]) (fun x => [x.ptAddr x.w.a true x.addr]) ∧ tM.Clears 0 0 w (fmtMem []) (fun x => [x.ptAddr x.w.a true x.addr])
        ∧ tM.Clears 0 0 w (fmtMem [2, 3]) (fun x => [x.pt x.w.d (decide (memSize w = 8)) 3, x.ptAddr x.w.a true x.addr])
        ∧ x.en ≠ 0 ∧ x.FarOk x.addr (memSize w) ∧ tM.replicas = [] ∧ x.held false (memOrd w) 0 = false ∧ x.held true (memOrd w) 0 = false
        ∧ tM.canRequest 0 keys = true)
    ∧ (let w := tI (.v 0) (.s 8) .i32 0x40 4
       let x := tM.ctxFor 0 0 w
       tM.Clears 0 0 w fmtPref (fun x => [x.ptAddr x.w.a true x.prefAddr])
        ∧ ∀ l, l < 32 → ownAddr 0 (x.prefAddr l) = true ∧ addrAp (x.prefAddr l).toNat < 2) :=
  ⟨⟨rfl, rfl, rfl⟩, ⟨rfl, fun _ => Nat.zero_lt_succ 4⟩, ⟨rfl, by decide, by unfold Ctx.OwnOk; decide, by unfold Ctx.OwnOk; decide, rfl, rfl⟩,
    ⟨rfl, rfl, rfl, by decide, farOk_of rfl (by decide), rfl, rfl, rfl, by decide⟩, ⟨rfl, by decide⟩⟩

/-- With an address in s9, and a replica of its line in column 1 of this module. -/
def tRep (a : DWord) : State :=
  { tC fun c => { c with s := [(9, a)] } with replicas := [⟨0, nCols * addrPkg a.toNat + 1, a.toNat % 2 ^ 36 / 64, 0, false⟩] }

theorem mkAddr_pkg (off : Nat) : addrPkg (mkAddr 1 off).toNat = Config.package.toNat ∧ addrCol (mkAddr 1 off).toNat = 1 := by
  have h := Config.package.isLt
  have e : (mkAddr 1 off).toNat = Config.package.toNat * 2 ^ 52 + 2 ^ 36 + off % 2 ^ 34 := by
    simp only [mkAddr, BitVec.toNat_ofNat]; omega
  rw [e]
  simp only [addrPkg, addrCol]
  omega

/-- The word `ldro.i32 s4, [s9]`. -/
def tLdro : Full := tI (.s 4) (.s 9) .i32 0 0

theorem tRep_addr (a : DWord) (l : Nat) : ((tRep a).ctxFor 0 0 tLdro).addr l = a := by
  have h : ((tRep a).ctxFor 0 0 tLdro).ra true l = a.toNat := rfl
  have h0 : ((tRep a).ctxFor 0 0 tLdro).w = tLdro := rfl
  have h1 : memDisp tLdro = 0 := by decide
  have h2 : memLn tLdro = false := by decide
  simp [Ctx.addr, h, h0, h1, h2]

theorem tRep_cached (a : DWord) (l : Nat) (hc : addrCol a.toNat = 1) :
    ((tRep a).replicas.find? fun r =>
      r.cluster == clusterOf 0 && r.owner == nCols * addrPkg (((tRep a).ctxFor 0 0 tLdro).addr l).toNat + addrCol (((tRep a).ctxFor 0 0 tLdro).addr l).toNat
        && r.line == (((tRep a).ctxFor 0 0 tLdro).addr l).toNat % 2 ^ 36 / 64).isSome = true := by
  simp only [tRep_addr, hc]
  simp [tRep, clusterOf]

/-- A load of that line by a word of its cluster. -/
def tCached : State := tRep (mkAddr 1 0x40000)

theorem test_meets_RemoteMemoryWords_cached :
    let w := tLdro
    let x := tCached.ctxFor 0 0 w
    tCached.Issues 0 0 ∧ tCached.Clears 0 0 w (fmtMem []) (fun x => [x.ptAddr x.w.a true x.addr]) ∧ x.en = 0xFFFFFFFF
      ∧ (∀ l, l ∈ x.lanesFor w.d → (tCached.replicas.find? fun r =>
          r.cluster == clusterOf 0 && r.owner == nCols * addrPkg (x.addr l).toNat + addrCol (x.addr l).toNat
            && r.line == (x.addr l).toNat % 2 ^ 36 / 64).isSome = true)
      ∧ x.held false 0 0 = false ∧ (tCached.col 0).sendq = [] :=
  ⟨⟨rfl, rfl, rfl⟩, rfl, rfl, fun l _ => tRep_cached _ l (mkAddr_pkg _).2, rfl, rfl⟩

theorem test_meets_PageWords : tM.Issues 0 0
    ∧ (let w := tI (.s 12) (.s 8) .i32 0x40 0
       let x := tM.ctxFor 0 0 w
       tM.Clears 0 0 w fmtSurf (fun x => [x.ptAddr x.w.a true x.prefAddr]) ∧ x.en ≠ 0
        ∧ (∀ l, l < 32 → ownAddr 0 (x.prefAddr l) = true ∧ addrAp (x.prefAddr l).toNat < 2)
        ∧ (tM.walk (tM.ctxOf 0) 0 (addrOff (x.prefAddr (lowLane x.en)).toNat)).1 = .page tPage ∧ tPage.tol < 4 ∧ tM.upsets = [])
    ∧ (let s := tC fun c => { c with s := [(8, selfAddr 0x1C0000), (9, 0x40000)] }
       let w := tR (.v 0) (.s 8) (.s 9) (.v 0) .i32 0
       let x := s.ctxFor 0 0 w
       let f (l : Nat) : DWord := BitVec.ofNat 64 (x.ra true l)
       let off := addrOff (f (lowLane x.en)).toNat
       let len := x.rb true (lowLane x.en)
       s.Clears 0 0 w fmtPage Ctx.ptsPage ∧ x.en ≠ 0
        ∧ (∀ l, l < 32 → ownAddr 0 (f l) = true ∧ addrAp (f l).toNat < 2) ∧ off + len ≤ 2 ^ 34 ∧ off % 65536 = 0 ∧ len % 65536 = 0 ∧ len ≠ 0
        ∧ (steps64 off len = [0x1C0000, 0x1D0000, 0x1E0000, 0x1F0000])
        ∧ (∀ o ∈ steps64 off len, (s.walk (s.ctxOf 0) 0 o).1 = .page tPage))
    ∧ (let w := tG (tR (.v 0) (.s 8) (.s 9) (.v 0) .i32 0)
       tM.Clears 0 0 w fmtPage Ctx.ptsPage ∧ (tM.ctxFor 0 0 w).en = 0) :=
  ⟨⟨rfl, rfl, rfl⟩, ⟨rfl, by decide, by decide, rfl, by decide, rfl⟩,
    ⟨rfl, by decide, by decide, by decide, rfl, rfl, by decide, rfl, by decide⟩, ⟨rfl, by decide⟩⟩

/-- With one lane. -/
def tOne (s : State) : State := s.modCol 0 fun c => c.modSlot 0 fun sp => { sp with mask := 2 }

theorem test_meets_AtomicWords : (tOne tM).Issues 0 0
    ∧ (let w := tR (.v 6) (.s 8) (.v 5) (.v 0) .i32 0x80
       let s := tOne tM
       let x := s.ctxFor 0 0 w
       s.Clears 0 0 w fmtAtom (fun x => x.ptsAtom false) ∧ lanesOf x.en = [1] ∧ x.en ≠ 0 ∧ ownAddr 0 (x.targetA 1) = true
        ∧ x.checkAtomic x.targetA (atomSize w) = none ∧ x.own (x.targetA 1) (atomSize w) .atomic = .page tPage
        ∧ x.held true (atomOrd w) (laneBit 1) = false ∧ x.performsLater (atomOrd w) (laneBit 1) = false ∧ (s.col 0).sendq = [])
    ∧ (let w := tR (.s 6) (.s 8) (.s 5) (.s 6) .n64 0x80
       let x := tM.ctxFor 0 0 w
       tM.Clears 0 0 w fmtAcas (fun x => x.ptsAtom true) ∧ x.once false = true ∧ lowLane x.en = 0
        ∧ x.checkAtomic x.targetA (atomSize w) = none)
    ∧ (let w := tR (.v 0) (.s 8) (.s 5) (.v 0) .f32 0x109
       let x := tM.ctxFor 0 0 w
       tM.Clears 0 0 w fmtRed (fun x => x.ptsAtom false) ∧ x.once true = true ∧ lowLane x.en = 0
        ∧ x.checkAtomic x.targetA (atomSize w) = none ∧ x.held true (atomOrd w) (laneBit 0) = false)
    ∧ (let w := tR (.v 6) (.s 9) (.v 5) (.v 6) .i32 0
       let s := tOne tM
       let x := s.ctxFor 0 0 w
       s.Clears 0 0 w fmtAcas (fun x => x.ptsAtom true) ∧ x.en ≠ 0 ∧ x.FarOk x.targetA (atomSize w) ∧ x.held true (atomOrd w) 0 = false
        ∧ ∀ kind cas, s.canRequest 0 ((x.atomPackets kind cas (([1] : List Nat).map fun l =>
          (⟨l, x.targetA l, atomSize w, BitVec.ofNat 64 (x.rb (isWide w.ty) l), BitVec.ofNat 64 (x.rc (isWide w.ty) l), false⟩ : LaneAcc))).map
            fun p => creditKey p.dest.toNat) = true) :=
  ⟨⟨rfl, rfl, rfl⟩, ⟨rfl, rfl, by decide, by decide, rfl, rfl, rfl, rfl, rfl⟩, ⟨rfl, rfl, rfl, rfl⟩, ⟨rfl, rfl, rfl, rfl, rfl⟩,
    ⟨rfl, by decide, farOk_of rfl (by decide), rfl, fun _ cas => by cases cas <;> rfl⟩⟩

theorem test_meets_SemaphoresFencesElection : tM.Issues 0 0 ∧ tM.Sound
    ∧ (let w := tR (.v 0) (.s 8) (.s 21) (.v 0) .i32 1
       let x := tM.ctxFor 0 0 w
       let a := x.targetA (lowLane x.en)
       tM.Clears 0 0 w fmtSemsg (fun x => [x.ptAddr x.w.a true x.targetA, x.pt (opB x.w) true 7]) ∧ x.en ≠ 0 ∧ ownAddr 0 a = true
        ∧ x.checkAtomic x.targetA 8 = none ∧ x.own a 8 .atomic = .page tPage ∧ tM.ctxOf 0 < 16 ∧ x.held true 2 x.en = false
        ∧ x.performsLater 2 x.en = false ∧ (tM.col 0).sendq = [] ∧ tM.accPois 0 tPage a 8 = false
        ∧ ∀ j, j < 8 → tM.mirror 0 tPage.tier (tPage.base + addrOff a.toNat % tPage.size + j) = none)
    ∧ (let w := tR (.v 0) (.s 9) (.s 21) (.v 0) .i32 0
       let x := tM.ctxFor 0 0 w
       tM.Clears 0 0 w fmtSemsg (fun x => [x.ptAddr x.w.a true x.targetA, x.pt (opB x.w) true 7]) ∧ x.en ≠ 0
        ∧ x.FarOk x.targetA 8 ∧ x.held true 2 0 = false ∧ tM.canRequest 0 [creditKey (x.targetA (lowLane x.en)).toNat] = true)
    ∧ (let w := tR (.v 0) (.v 0) (.v 0) (.v 0) .i32 0xC
       let s := tC fun c => { c with reqs := [⟨0, 1, false, false, false, false, none, 0⟩] }
       s.Issues 0 0 ∧ s.Clears 0 0 w fmtFence noPts
        ∧ (∃ r, r ∈ (s.col 0).reqs ∧ r.lanes &&& (s.ctxFor 0 0 w).en ≠ 0 ∧ (xf w 4 3 = 1 → r.write = false))
        ∧ tL.Clears 0 0 w fmtFence noPts ∧ ¬ ∃ r, r ∈ (tL.col 0).reqs ∧ r.lanes &&& (tL.ctxFor 0 0 w).en ≠ 0 ∧ (xf w 4 3 = 1 → r.write = false))
    ∧ tL.Clears 0 0 (tR (.p 7) (.v 0) (.v 0) (.v 0) .i32 0) fmtElect noPts :=
  ⟨⟨rfl, rfl, rfl⟩, ⟨rfl, fun _ => Nat.zero_lt_succ 4⟩, ⟨rfl, by decide, by decide, rfl, rfl, by decide, rfl, rfl, rfl, rfl, by decide⟩,
    ⟨rfl, by decide, farOk_of rfl (by decide), rfl, by decide⟩, ⟨⟨rfl, rfl, rfl⟩, rfl, by decide, rfl, by decide⟩, rfl⟩

/-! ## Hypotheses met: queues, tiles, copies, exchanges, mint, collectives -/

/-- With group 0 changed. -/
def tGr (f : Group → Group) (s : State) : State := { s with sch.groups := tabMod s.sch.groups 0 (Option.map f) }

/-- With queue register q2 bound. -/
def tBind (b : QBind) : State := tC fun c => { c with q := [(2, some b)] }

/-- With 32 slots reserved in the pool of stage 5, and q2 bound to them. -/
def tOut : State := tGr (fun g => { g with outRuns := [{ stage := 5, start := 0, len := 32, filled := 0 }] }) (tBind ⟨3, 5, 0⟩)

theorem length_eraseDups_le : ∀ (n : Nat) (l : List Nat), l.length ≤ n → l.eraseDups.length ≤ l.length
  | _, [], _ => Nat.le_refl _
  | n + 1, a :: l, h => by
    have hf : (l.filter fun b => !b == a).length ≤ l.length := List.length_filter_le ..
    have := length_eraseDups_le n (l.filter fun b => !b == a) (by simp only [List.length_cons] at h; omega)
    simp only [List.eraseDups_cons, List.length_cons]
    omega

theorem canRequest_fresh {s : State} {keys : List Nat} (h : (s.col 0).reqs = []) (h1 : s.coreReqs 0 = []) (h2 : s.tellerKeys 0 = [])
    (hk : keys.length ≤ 256) : s.canRequest 0 keys = true := by
  cases keys with
  | nil => rfl
  | cons k ks =>
    have he : ((k :: ks).eraseDups).length ≤ 256 := le_trans (length_eraseDups_le _ _ (Nat.le_refl _)) hk
    have hs : s.tracked 0 = [] := by simp [State.tracked, h1, h2, coreOf]
    have hu : s.creditsUsed 0 k = 0 := by simp [State.creditsUsed, h1, h2, creditsHeld, coreOf]
    simp only [State.canRequest, hs, hu, h, h1, List.nil_append, List.length_nil, Nat.zero_add]
    simp only [List.length_cons] at hk
    simp_all
    omega

theorem test_meets_QueueWords_push :
    (let s := tBind ⟨0, 0, selfAddr 0⟩
     let w := tR (.q 2) (.v 5) (.v 0) (.v 0) .i32 0
     s.Issues 0 0 ∧ s.Clears 0 0 w (fmtQpush ((s.col 0).binding 2)) (fun x => x.ptsQpush ((s.col 0).binding 2)) ∧ (s.ctxFor 0 0 w).en ≠ 0
      ∧ ((s.col 0).binding (numOf w.d)).kind = 0 ∧ isUni w.a = false ∧ ∀ u, u ∈ (s.col 0).unacked → u.1 ≠ numOf w.d)
    ∧ (let w := tR (.q 2) (.v 112) (.v 0) (.v 0) .i32 0
       let x := tOut.ctxFor 0 0 w
       tOut.Issues 0 0 ∧ tOut.Clears 0 0 w (fmtQpush ((tOut.col 0).binding 2)) (fun x => x.ptsQpush ((tOut.col 0).binding 2)) ∧ x.en ≠ 0
        ∧ tOut.outRun 0 5 = some { stage := 5, start := 0, len := 32, filled := 0 } ∧ numOf w.a + 16 ≤ x.h.nv ∧ (lanesOf x.en).length = 32
        ∧ (tOut.col 0).held x.en true false = false ∧ (∀ keys, keys ≠ [] → keys.length ≤ 8 * 32 → tOut.canRequest 0 keys = true)
        ∧ tOut.group (tOut.col 0).group ≠ none)
    ∧ (let s := (tBind ⟨4, 0, 0⟩).modCol 0 fun c => { c with s := [(24, 0x72)] }
       let w := tR (.q 2) (.s 24) (.v 0) (.v 0) .i32 0
       let x := s.ctxFor 0 0 w
       s.Issues 0 0 ∧ s.Clears 0 0 w (fmtQpush ((s.col 0).binding 2)) (fun x => x.ptsQpush ((s.col 0).binding 2)) ∧ x.en ≠ 0
        ∧ ((s.col 0).binding (numOf w.d)).kind = 4 ∧ isUni w.a = true ∧ s.mintReason 0 x.h x.pushRec = none ∧ s.windowLen 0 < 32) :=
  ⟨⟨⟨rfl, rfl, rfl⟩, rfl, by decide, rfl, rfl, by decide⟩,
    ⟨⟨rfl, rfl, rfl⟩, rfl, by decide, rfl, by decide, rfl, rfl, fun _ _ hk => canRequest_fresh rfl rfl rfl hk, by decide⟩,
    ⟨⟨rfl, rfl, rfl⟩, rfl, by decide, rfl, rfl, rfl, by decide⟩⟩

/-- A packet to column 0 of package 0, through port 0, which is up. -/
theorem test_meets_QueueWords_message :
    let s : State := { tBind ⟨0, 0, 0⟩ with tabs.route := [(0, 1)] }
    let p : Packet := { (default : Packet) with kind := 0x0E, vc := 3, mask := 0xFFFFFFFF, words := List.replicate 32 0 }
    p.dest = ((s.col 0).binding 2).addr ∧ s.cannotLeave p = none := by
  refine ⟨rfl, ?_⟩
  unfold State.cannotLeave
  split
  · rfl
  · rfl

theorem test_meets_QueueWords_pop :
    (let s := (tBind ⟨1, 0, 0⟩).modCol 0 fun c => { c with msgs := [List.replicate 32 7] }
     let w := tR (.v 7) (.q 2) (.v 0) (.v 0) .i32 0
     s.Issues 0 0 ∧ s.Clears 0 0 w (fmtQpop ((s.col 0).binding 2)) noPts ∧ (s.ctxFor 0 0 w).en ≠ 0 ∧ ((s.col 0).binding (numOf w.a)).kind = 1
      ∧ isUni w.d = false ∧ (s.col 0).msgs = [List.replicate 32 7])
    ∧ (let s := tGr (fun g => { g with items := [3] }) (tBind ⟨2, 0, 0⟩)
       let w := tR (.s 56) (.q 2) (.v 0) (.v 0) .i32 0
       let x := s.ctxFor 0 0 w
       s.Issues 0 0 ∧ s.Clears 0 0 w (fmtQpop ((s.col 0).binding 2)) noPts ∧ x.en ≠ 0 ∧ numOf w.d + 8 ≤ x.h.ns
        ∧ (s.groupItems 0)[tabGet (s.col 0).itemCur (numOf w.a)]? = some 3 ∧ (s.col 0).held x.en false false = false
        ∧ ∀ key, s.canRequest 0 [key] = true)
    ∧ (let s := { tBind ⟨5, 0, 0⟩ with compq := [(compKey 0 0, [9])] }
       let w := tR (.s 12) (.q 2) (.v 0) (.v 0) .i32 0
       s.Issues 0 0 ∧ s.Clears 0 0 w (fmtQpop ((s.col 0).binding 2)) noPts ∧ (s.ctxFor 0 0 w).en ≠ 0
        ∧ tabGet s.compq (compKey (s.col 0).group 0) = [9] ∧ tabGet s.mintq 0 = [])
    ∧ tL.Clears 0 0 (tG (tR (.v 7) (.q 2) (.v 0) (.v 0) .i32 0)) (fmtQpop ((tL.col 0).binding 2)) noPts :=
  ⟨⟨⟨rfl, rfl, rfl⟩, rfl, by decide, rfl, rfl, rfl⟩,
    ⟨⟨rfl, rfl, rfl⟩, rfl, by decide, by decide, rfl, rfl, fun _ => canRequest_fresh rfl rfl rfl (by simp)⟩,
    ⟨⟨rfl, rfl, rfl⟩, rfl, by decide, rfl, rfl⟩, rfl⟩

theorem test_meets_QueueWords : tL.Issues 0 0
    ∧ (let w := tI (.q 15) (.s 0) .i32 1 0
       tL.Clears 0 0 w fmtQbind (fun x => [x.pt x.w.a true 10]) ∧ (tL.ctxFor 0 0 w).en ≠ 0
        ∧ (tL.ctxFor 0 0 w).bindReason ((tL.ctxFor 0 0 w).ra true 0) = none)
    ∧ tL.Clears 0 0 (tR (.s 12) (.q 1) (.v 0) (.v 0) .i32 0) (fun _ _ => { d := fS, a := fQ }) noPts
    ∧ (let w := tI (.s 12) (.s 56) .i32 65 0
       tL.Clears 0 0 w fmtSubmit (fun x => (x.w.a :: sExtra x.w.a 8).map fun o => x.pt o true 7) ∧ (tL.ctxFor 0 0 w).en ≠ 0 ∧ (tL.col 0).reqs = []) :=
  ⟨⟨rfl, rfl, rfl⟩, ⟨rfl, by decide, rfl⟩, rfl, ⟨rfl, by decide, rfl⟩⟩

/-- Descriptors: a plain tile of 256 rows, an A tile of i8x4 and a B tile of i8x4, of one slab. -/
def tPlain : TileDesc := BitVec.ofNat 256 (3 + 4 * 2 ^ 72 + 2 ^ 96 + 256 * 2 ^ 128 + 4 * 2 ^ 224)
def tAd : TileDesc := BitVec.ofNat 256 (1 + 9 * 2 ^ 72 + 8 * 2 ^ 80 + 2 ^ 96 + 32 * 2 ^ 128 + 0x2000 * 2 ^ 192 + 32 * 2 ^ 224)
def tBd : TileDesc := BitVec.ofNat 256 (2 + 9 * 2 ^ 72 + 2 ^ 96 + 0x1000 * 2 ^ 160)

theorem test_meets_TileWords :
    (let s := tC fun c => { c with s := (List.range 4).map fun i => (60 + i, BitVec.ofNat 64 (tPlain.toNat / 2 ^ (64 * i))) }
     let w := tR (.t 1) (.s 60) (.v 0) (.v 0) .i32 0
     let d := (s.col 0).rdS 63 ++ (s.col 0).rdS 62 ++ (s.col 0).rdS 61 ++ (s.col 0).rdS 60
     s.Issues 0 0 ∧ s.Clears 0 0 w fmtTdesc (fun x => (x.w.a :: sExtra x.w.a 4).map fun o => x.pt o true 10) ∧ (s.ctxFor 0 0 w).en ≠ 0
      ∧ d = tPlain ∧ tdescOk d = true ∧ tileInside d (s.region 0 (descWin d)).2 = true)
    ∧ (let s := tC fun c => { c with t := [(1, tAd), (3, tPlain)] }
       s.Issues 0 0 ∧ s.Clears 0 0 (tR (.t 1) (.v 0) (.v 0) (.v 0) .i32 0) (fun _ _ => { d := fT }) noPts ∧ descKind (tabGet (s.col 0).t 1) = 1
        ∧ s.Clears 0 0 (tR (.s 12) (.t 1) (.s 20) (.s 22) .i32 3) (fmtTile false) (fun x => x.ptsTile false)
        ∧ ((s.col 0).rdS 12).toNat % 16 = 0
        ∧ s.Clears 0 0 (tR (.s 12) (.t 3) (.s 20) (.s 22) .i32 0) (fmtTile true) (fun x => x.ptsTile true) ∧ descKind (tabGet (s.col 0).t 3) = 3) :=
  ⟨⟨⟨rfl, rfl, rfl⟩, rfl, by decide, rfl, rfl, by decide⟩, ⟨⟨rfl, rfl, rfl⟩, rfl, rfl, rfl, rfl, rfl, rfl⟩⟩

/-- A copy of column 1, which column 0 has not joined yet. -/
def tCopy : CopyOp := {
  core := 0, group := 0, n := 0, multi := false, rcpt := false, srcK := 0, dstK := 1, cv := false, a := 0, b := 0
  slices := [⟨1, 0, 8, 0, 0, 0, 12, false, 0xFFFFFFFF, 0⟩]
  recA := 0, recB := 0, started := false, pos := 0, unacked := [], landed := [], dst := 0, code := 0 }

theorem test_meets_CopyWords :
    (let w := tR (.s 12) (.s 20) (.s 22) (.s 24) .i32 9
     tL.Issues 0 0 ∧ tL.Clears 0 0 w fmtCopy (fun x => x.ptsCopy (xb w 0)) ∧ (tL.ctxFor 0 0 w).en ≠ 0 ∧ xb w 0 = true
      ∧ ((tL.col 0).rdS 12).toNat % 16 = 0 ∧ tL.findCopy 0 0 false 0 = none)
    ∧ (let s := { tL with ops := [(0, some ⟨0, 0, false, .copy tCopy⟩)], nextOp := 1, seqNo := 1 }
       let w := tR (.s 12) (.s 20) (.s 22) (.s 24) .i32 8
       let x := s.ctxFor 0 0 w
       let sl : CopySlice := ⟨0, 0, 8, 0, 0, 0, 12, false, 0xFFFFFFFF, 0⟩
       s.Issues 0 0 ∧ s.Clears 0 0 w fmtCopy (fun x => x.ptsCopy (xb w 0)) ∧ s.findCopy 0 0 false 0 = some (0, tCopy)
        ∧ tabGet s.ops 0 = some ⟨0, 0, false, .copy tCopy⟩ ∧ (∃ q, q ∈ tCopy.slices ∧ q.empty = false)
        ∧ tCopy.sameAs (Joining s x false (xb w 0) (xf w 2 1) (xf w 4 3) (xb w 5) 0 0 sl) = true)
    ∧ (let s := tC fun c => { c with s := [(20, selfAddr 0x40000)] }
       let w := tR (.s 12) (.s 20) (.s 22) (.s 24) .i32 0
       s.Issues 0 0 ∧ s.Clears 0 0 w fmtCopym (fun x => x.ptsCopy true) ∧ (s.ctxFor 0 0 w).en ≠ 0
        ∧ targetCol (some 0) ((s.col 0).rdS 20).toNat = some 0 ∧ addrAp ((s.col 0).rdS 20).toNat < 2 ∧ ((s.col 0).rdS 20).toNat % 32 = 0
        ∧ ((s.col 0).rdS 12).toNat / 2 ^ 32 % 16 = 0) :=
  ⟨⟨⟨rfl, rfl, rfl⟩, rfl, by decide, rfl, rfl, rfl⟩, ⟨⟨rfl, rfl, rfl⟩, rfl, rfl, rfl, by decide, rfl⟩,
    ⟨⟨rfl, rfl, rfl⟩, rfl, by decide, rfl, by decide, rfl, rfl⟩⟩

/-- An exchange at core level that every column of the core has presented: columns 0 to 7, rotated by 7. -/
def tXch : XchOp := ⟨0, 2, 0, [], (List.range 8).map fun c => ⟨c, 2, 0, true, 31, false, 7, 0xFFFFFFFF, List.replicate 64 (0, false), false⟩⟩

theorem test_meets_ExchangeWords :
    let w := tR (.v 5) (.v 4) (.s 9) (.p 3) .b32 (2 + 32 + 31 * 64)
    (tL.Issues 0 0 ∧ tL.Clears 0 0 w fmtXch (fun x => [x.pt x.w.a (isWide x.w.ty) 5, x.pt (opB x.w) false 5])
      ∧ (tL.ctxFor 0 0 w).sp.mask ≠ 0 ∧ (tL.col 0).live &&& ~~~(tL.ctxFor 0 0 w).sp.mask = 0 ∧ tL.findXch 0 2 0 (tL.xchCols 0 2) = none
      ∧ (tL.col 0).demote = none ∧ (tL.col 0).pool = [] ∧ ∀ j, j < 4 → j ≠ 0 → ((tL.col 0).slot j).lanes = 0)
    ∧ (let s : State := { tC (fun c => { c with s := [(9, 7)] }) with ops := [(0, some ⟨0, 0, false, .xch tXch⟩)], nextOp := 1, seqNo := 1 }
       let x := s.ctxFor 0 0 w
       s.Issues 0 0 ∧ s.Clears 0 0 w fmtXch (fun x => [x.pt x.w.a (isWide x.w.ty) 5, x.pt (opB x.w) false 5])
        ∧ s.xchCols 0 2 = [0, 1, 2, 3, 4, 5, 6, 7] ∧ s.findXch 0 2 0 (s.xchCols 0 2) = some (0, tXch)
        ∧ tabGet s.ops 0 = some ⟨0, 0, false, .xch tXch⟩ ∧ tXch.parts = []
        ∧ (∀ d, d ∈ ([0, 1, 2, 3, 4, 5, 6, 7] : List Nat) → ∃ e, e ∈ tXch.ents ∧ e.col = d)
        ∧ (∀ e, e ∈ tXch.ents → ∀ f, f ∈ tXch.ents → e.sameAs f = true)
        ∧ ∀ e, e ∈ tXch.ents → e.col = 0 → e.level = 2 ∧ e.perm = xf w 4 3 ∧ e.lrot = xb w 5 ∧ e.m = xf w 10 6 ∧ e.wide = isWide w.ty ∧ e.k = x.rb false 0) :=
  ⟨⟨⟨rfl, rfl, rfl⟩, rfl, by decide, by decide, rfl, rfl, rfl, by decide⟩,
    ⟨⟨rfl, rfl, rfl⟩, rfl, rfl, rfl, rfl, rfl, by decide, by decide, by decide⟩⟩

/-- A task on accumulator 2 that has not started. -/
def tTask : MintOp := { id := 0, seq := 0, group := 0, col := 0, acc := 2, act := .task 2 0 0 0 0 0 0 0 true false false }

theorem test_meets_MintWords :
    (let s := tC fun c => { c with t := [(1, tAd), (2, tBd)] }
     let w := tR (.a 2) (.t 1) (.t 2) (.s 24) .i32 0
     s.Issues 0 0 ∧ s.Clears 0 0 w fmtMma (fun x => [x.pt (opC x.w) true 9]) ∧ (s.ctxFor 0 0 w).en ≠ 0
      ∧ s.mintReason 0 (s.hdr 0) (s.ctxFor 0 0 w).mmaRec = none ∧ s.windowLen 0 < 32)
    ∧ tL.Clears 0 0 (tR (.a 7) (.v 0) (.v 0) (.v 0) .i32 0) (fun _ _ => { d := fA }) noPts
    ∧ tL.Clears 0 0 (tR (.v 8) (.a 2) (.v 20) (.v 0) .e4m3x4 0x3C) fmtAdrain noPts
    ∧ (let w := tR (.v 8) (.a 2) (.v 0) (.v 0) .f32 0x1F
       tL.Clears 0 0 w fmtAdrain noPts ∧ (tL.ctxFor 0 0 w).en ≠ 0 ∧ xb w 5 = false ∧ tabGet tL.mintq 0 = []
        ∧ ∀ r, r ∈ (tL.col 0).results → r.await ≠ .mint tL.seqNo)
    ∧ (let w := tI (.a 2) (.s 0) .i32 0x1B000 0
       tL.Clears 0 0 w fmtAspill (fun x => [x.ptAddr x.w.a true fun _ => x.spillOff]) ∧ (tL.ctxFor 0 0 w).en ≠ 0
        ∧ (tL.ctxFor 0 0 w).spillOff.toNat % 128 = 0 ∧ (tL.ctxFor 0 0 w).spillOff.toNat + 4096 ≤ (tL.region 0 (xb w 0)).2
        ∧ tL.zeroing 0 [((tL.region 0 (xb w 0)).1 + (tL.ctxFor 0 0 w).spillOff.toNat, 4096)] = false ∧ tL.spadUp = [])
    ∧ tL.Clears 0 0 (tR (.a 2) (.v 0) (.v 0) (.v 0) .i32 0) fmtMwait noPts
    ∧ tL.Clears 0 0 (tR (.v 0) (.v 0) (.v 0) (.v 0) .i32 1) fmtMwait noPts
    ∧ (let s := { tL with mintq := [(0, [tTask])], seqNo := 1 }
       (∃ m, m ∈ tabGet s.mintq 0 ∧ m.seq < s.seqNo ∧ m.done = false ∧ m.group = (s.col 0).group ∧ m.acc = 2)
        ∧ ∀ m, m ∈ tabGet s.mintq 0 → m.isTask = false → s.mintReady 0 m = false) :=
  ⟨⟨⟨rfl, rfl, rfl⟩, rfl, by decide, rfl, by decide⟩, rfl, rfl, ⟨rfl, by decide, rfl, rfl, by decide⟩,
    ⟨rfl, by decide, rfl, by decide, rfl, rfl⟩, rfl, rfl, by decide⟩

/-- With own addresses in v10, the last column of the system in v4, and the peer's last element in v12. -/
def tP2p : State := tC fun c => { c with v :=
  (lanes32.map fun l => (32 * 4 + l, (150994943 : Word))) ++ (lanes32.map fun l => (32 * 10 + l, (0x40000 : Word)))
    ++ (lanes32.map fun l => (32 * 11 + l, (0xFFFFFFF0 : Word))) ++ (lanes32.map fun l => (32 * 12 + l, (0xFFFFFFFC : Word)))
    ++ (lanes32.map fun l => (32 * 13 + l, (3 : Word))) }

/-- A group collective of columns 0 and 1 of the module, by their numbers in package 0. -/
theorem test_meets_CollectiveWords :
    (let w := tR (.v 10) (.v 4) (.v 12) (.v 0) .i32 (8 * 15)
     let x := tP2p.ctxFor 0 0 w
     tP2p.Issues 0 0 ∧ tP2p.Clears 0 0 w fmtClctP2p Ctx.ptsP2p ∧ (tabGet tP2p.handles (16 * 0 + xf w 6 3)).toNat % 8 = 0 ∧ x.en ≠ 0
      ∧ ∀ l, l < 32 → ownAddr 0 (BitVec.ofNat 64 (x.rdd true l)) = true ∧ addrAp (x.rdd true l) < 2 ∧ x.rdd true l % elemSize w.ty = 0
        ∧ x.ra false l < nGlobal ∧ x.rb true l < 2 ^ 36 ∧ addrAp (x.rb true l) < 2 ∧ x.rb true l % elemSize w.ty = 0)
    ∧ (tL.Clears 0 0 (tG (tR (.v 10) (.v 4) (.v 12) (.v 0) .i32 8)) fmtClctP2p Ctx.ptsP2p
      ∧ (tL.ctxFor 0 0 (tG (tR (.v 10) (.v 4) (.v 12) (.v 0) .i32 8))).en = 0)
    ∧ tL.Clears 0 0 (tR (.s 20) (.v 4) (.s 21) (.s 22) .f32 0x1B) fmtClctGroup Ctx.ptsGroup
    ∧ (let w := tR (.v 0) (.v 0) (.v 0) (.s 22) .i32 0x17
       tL.Clears 0 0 w fmtClctRec (fun x => [x.pt (opC x.w) true 8]) ∧ (tL.ctxFor 0 0 w).en ≠ 0 ∧ (tL.ctxFor 0 0 w).rc true 0 < 2 ^ 32
        ∧ tabWf tL.ops = true)
    ∧ (let w := tR (.v 0) (.s 8) (.v 0) (.v 0) .i32 15
       let x := tM.ctxFor 0 0 w
       tM.Clears 0 0 w fmtRepart (fun x => [x.ptAddr x.w.a true x.targetA]) ∧ x.en ≠ 0 ∧ addrAp (x.targetA 0).toNat < 2
        ∧ isSelfAlias (x.targetA 0).toNat = true ∧ (x.targetA 0).toNat % 64 = 0)
    ∧ (let s : State := { tL with handles := [(3, 4)] }
       let w := tI (.s 12) (.v 0) .i32 3 1
       s.Issues 0 0 ∧ s.Clears 0 0 w fmtCstat noPts ∧ (s.ctxFor 0 0 w).en ≠ 0 ∧ xb w 0 = true) :=
  ⟨⟨⟨rfl, rfl, rfl⟩, rfl, rfl, by decide, by decide⟩, ⟨rfl, by decide⟩, rfl, ⟨rfl, by decide, by decide, rfl⟩,
    ⟨rfl, by decide, by decide, rfl, rfl⟩, ⟨⟨rfl, rfl, rfl⟩, rfl, by decide, rfl⟩⟩

theorem test_meets_CurveKeys : tL.Issues 0 0
    ∧ (let w := tR (.v 10) (.v 4) (.v 5) (.v 6) .i32 0
       tL.Clears 0 0 w fmtSfckey (fun x => [x.pt x.w.a false 8, x.pt (opB x.w) false 8] ++ if xb w 0 then [] else [x.pt (opC x.w) false 8]))
    ∧ curveKey true 0x7FFFFFFF 0x7FFFFFFF 0 = curveKey true 0x7FFFFFFF 0x7FFFFFFF 1 :=
  ⟨⟨rfl, rfl, rfl⟩, rfl, by decide⟩

/-! ## Hypotheses met: a group collective of one member -/

/-- With one lane enabled that names a column by its number in the system. -/
def tGrp (v : Word) : State := tC fun c => { c.modSlot 0 (fun sp => { sp with mask := 1 }) with
  v := [(32 * 4, v)], s := [(20, selfAddr 0x40000), (21, selfAddr 0x40000), (22, 8)] }

/-- The word `clct.allr.f32` with the list in v4. -/
def tGrpWord : Full := tR (.s 20) (.v 4) (.s 21) (.s 22) .f32 0x1B

theorem tGrp_check (v : Word) (hv : v.toNat = globalOf 0) :
    ((tGrp v).ctxFor 0 0 tGrpWord).groupCheck [((tGrp v).ctxFor 0 0 tGrpWord).ra false 0] = none := by
  have e : ((tGrp v).ctxFor 0 0 tGrpWord).ra false 0 = v.toNat := rfl
  have hc : ((tGrp v).ctxFor 0 0 tGrpWord).col = 0 := rfl
  have hw : ((tGrp v).ctxFor 0 0 tGrpWord).w = tGrpWord := rfl
  have hz : (maskWhere fun _ => false) = 0 := by decide
  have hd : ((tGrp v).ctxFor 0 0 tGrpWord).rdd true 0 = 0xFFFFFFF000040000 := rfl
  have hb : ((tGrp v).ctxFor 0 0 tGrpWord).rb true 0 = 0xFFFFFFF000040000 := rfl
  have hk : ((tGrp v).ctxFor 0 0 tGrpWord).rc true 0 = 8 := rfl
  have h1 : ((tGrp v).ctxFor 0 0 tGrpWord).check183 (fun _ => BitVec.ofNat 64 0xFFFFFFF000040000) = none := by
    have o : ownAddr 0 (BitVec.ofNat 64 0xFFFFFFF000040000) = true := by decide
    have a : decide (2 ≤ addrAp (BitVec.ofNat 64 0xFFFFFFF000040000).toNat) = false := by decide
    simp only [Ctx.check183, Ctx.bad, hc, o, a, Bool.not_true, Bool.and_false, hz]; rfl
  have h2 : ((tGrp v).ctxFor 0 0 tGrpWord).checkAlign (fun _ => BitVec.ofNat 64 0xFFFFFFF000040000) 4 = none := by
    have o : ((BitVec.ofNat 64 0xFFFFFFF000040000).toNat % 4 != 0) = false := by decide
    simp only [Ctx.checkAlign, Ctx.bad, o, Bool.and_false, hz]; rfl
  have h3 : clctKind tGrpWord = 3 := by decide
  have h4 : elemSize tGrpWord.ty = 4 := rfl
  have h5 : globalOf 0 < nGlobal := by have := Config.package.isLt; simp only [globalOf, nCols, nGlobal]; omega
  rw [e, hv]
  simp only [Ctx.groupCheck, hc, hw, hd, hb, hk, h1, h2, h3, h4]
  have hd1 : ([globalOf 0] : List Nat).eraseDups.length = 1 := by rw [List.eraseDups_cons]; rfl
  simp [Nat.not_le.mpr h5, hd1, fld, buffersClash, usesSrc, usesDst, List.findIdx]
  rfl

theorem test_meets_CollectiveWords_group : ∃ v : Word,
    (tGrp v).Issues 0 0 ∧ (tGrp v).Clears 0 0 tGrpWord fmtClctGroup Ctx.ptsGroup ∧ ((tGrp v).ctxFor 0 0 tGrpWord).en ≠ 0
    ∧ (tabGet (tGrp v).handles (16 * 0 + xf tGrpWord 6 3)).toNat % 8 = 0
    ∧ ((tGrp v).ctxFor 0 0 tGrpWord).groupCheck
        ((lanesOf ((tGrp v).ctxFor 0 0 tGrpWord).en).map fun l => ((tGrp v).ctxFor 0 0 tGrpWord).ra false l) = none :=
  ⟨BitVec.ofNat 32 (globalOf 0), ⟨rfl, rfl, rfl⟩, rfl, fun h => absurd (congrArg (BitVec.getLsbD · 0) h) Bool.noConfusion, rfl,
    tGrp_check _ (by
      have := Config.package.isLt
      simp only [BitVec.toNat_ofNat, globalOf, nCols]; omega)⟩

/-! ## Hypotheses met: power, boot, the host -/

/-- The module in service with its first link up. -/
def tUp : State := { tL with boot := { tL.boot with powered := true, link0 := { up := true }, link1 := { training := true } } }

/-- The package number of another module, and an address there. -/
def otherPkg : Nat := if Config.package.toNat = 0 then 1 else 0
def otherAddr (low : Nat) : DWord := BitVec.ofNat 64 (otherPkg * 2 ^ 52 + low)

theorem otherPkg_ne : otherPkg ≠ Config.package.toNat ∧ otherPkg < 2 := by
  unfold otherPkg; split <;> omega

theorem otherAddr_pkg (low : Nat) (h : low < 2 ^ 52) : addrPkg (otherAddr low).toNat = otherPkg ∧ addrCol (otherAddr low).toNat = low / 2 ^ 36
    ∧ addrOff (otherAddr low).toNat = low % 2 ^ 34 ∧ addrAp (otherAddr low).toNat = low / 2 ^ 34 % 4 ∧ isSelfAlias (otherAddr low).toNat = false := by
  have hp := otherPkg_ne.2
  have e : (otherAddr low).toNat = otherPkg * 2 ^ 52 + low := by
    simp only [otherAddr, BitVec.toNat_ofNat]; omega
  rw [e]
  refine ⟨by simp only [addrPkg]; omega, by simp only [addrCol]; omega, by simp only [addrOff]; omega, by simp only [addrAp]; omega, ?_⟩
  simp [isSelfAlias]; omega

/-- An address of column 0 of this module. -/
theorem addr0 (off : Nat) (h : off < 2 ^ 34) : addrPkg (mkAddr 0 off).toNat = Config.package.toNat ∧ addrCol (mkAddr 0 off).toNat = 0
    ∧ addrOff (mkAddr 0 off).toNat = off ∧ addrAp (mkAddr 0 off).toNat = 0 := by
  have hp := Config.package.isLt
  have e : (mkAddr 0 off).toNat = Config.package.toNat * 2 ^ 52 + off := by
    simp only [mkAddr, BitVec.toNat_ofNat]; omega
  rw [e]
  simp only [addrPkg, addrCol, addrOff, addrAp]
  omega

/-- A request that another module sends to column 0. -/
def tAway : Packet := { (default : Packet) with kind := 0x01, dest := mkAddr 0 0x40000, src := otherAddr 0 }

theorem tAway_foreign (s : State) (h : s.portUp 0 = true) (hj : s.boot.jasper = true) : s.foreign tAway = true ∧ pktHere tAway = true
    ∧ pktCluster tAway = 0 ∧ pktDest tAway = 0 := by
  have a := addr0 0x40000 (by decide)
  have b := otherAddr_pkg 0 (by decide)
  have c := otherPkg_ne.1
  have h1 : pktOurs tAway = false := by rw [pktOurs, tAway, b.1]; simpa using c
  have h2 : pktShape tAway = true := rfl
  have h3 : tAway.port = 0 := rfl
  refine ⟨by rw [State.foreign, h1, h2, h3, h, hj]; rfl, by rw [pktHere, tAway, a.1]; simp, by rw [pktCluster, tAway, a.2.1]; rfl, by rw [pktDest, tAway, a.2.1]⟩

theorem test_meets_PowerAndResetPins : State.reset.boot.powered = false ∧ tL.boot.powered = true ∧ tL.boot.perst0 = false
    ∧ State.reset.boot.perst0 = true := ⟨rfl, rfl, rfl, rfl⟩

/-- Boot STATE n of a module that has power. -/
def tBoot (n : Nat) : State := { State.reset with boot := { ({} : Boot) with
  powered := true, perst0 := false, rom := true, st := n, jasper := true, link0 := { up := true } } }

theorem test_meets_BootSequence : (tBoot 0).boot.rom = true ∧ (tBoot 0).boot.perst0 = false ∧ (tBoot 0).boot.st = 0 ∧ (tBoot 1).boot.st = 1
    ∧ (tBoot 1).boot.link0.up = true ∧ (tBoot 1).imageErr 1 ≠ 0 ∧ (tBoot 2).boot.st = 2 ∧ (tBoot 2).boot.jasper = true ∧ (tBoot 2).boot.link0.up = true
    ∧ (tBoot 3).boot.st = 3 ∧ (tBoot 3).boot.link0.up = true ∧ (tBoot 3).imageErr 2 ≠ 0 ∧ (tBoot 4).boot.st = 4
    ∧ crosses4K (12 * 2 ^ 20 - 1) ([0xFF] : List Byte).length = false ∧ 12 * 2 ^ 20 - 1 + ([0xFF] : List Byte).length ≤ 12 * 2 ^ 20 :=
  ⟨rfl, rfl, rfl, rfl, rfl, by decide, rfl, rfl, rfl, rfl, rfl, by decide, rfl, by decide, by decide⟩

/-- A management record of a kind with another field. -/
def tRec (kind f : Nat) : Rec64 := BitVec.ofNat 512 (kind * 2 ^ 56 + f)

theorem test_meets_PowerManagement :
    (let s : State := { tL with sch := { tL.sch with mgmt := [tRec 0x11 (600 * 2 ^ 192)] } }
     s.sch.mgmt = [tRec 0x11 (600 * 2 ^ 192)] ∧ s.mgmtFree = true ∧ recKind (tRec 0x11 (600 * 2 ^ 192)) = 0x11 ∧ recTrig (tRec 0x11 (600 * 2 ^ 192)) = 0)
    ∧ (let s : State := { tL with pw := { tL.pw with target := [(767, some 2)] } }
       tabGet s.pw.target 767 = some 2 ∧ tabGet s.pw.target 5 = none)
    ∧ (tL.pw.runs 767 = true ∧ tL.clusterBusy 767 = false)
    ∧ (let s : State := { tL with pw := { tL.pw with points := [(0, 4)] }, net := [tAway] }
       s.pw.point 0 = 4 ∧ s.pw.changing 0 = false ∧ s.packetFor 0 = true)
    ∧ (let s : State := { tL with pw := { tL.pw with points := [(0, 4)] } }
       s.pw.point 0 = 4 ∧ s.pw.changing 0 = false ∧ s.foreign tAway = true ∧ pktHere tAway = true ∧ pktCluster tAway = 0 ∧ pktDest tAway < nCols) := by
  refine ⟨⟨rfl, by decide, by decide, by decide⟩, ⟨rfl, rfl⟩, ⟨rfl, rfl⟩, ⟨rfl, rfl, ?_⟩, ⟨rfl, rfl, ?_⟩⟩
  · have h := tAway_foreign tL (by decide) (by decide)
    simp [State.packetFor, h.2.1, h.2.2.1]
  · have h := tAway_foreign { tL with pw := { tL.pw with points := [(0, 4)] } } (by decide) (by decide)
    exact ⟨h.1, h.2.1, h.2.2.1, by rw [h.2.2.2]; decide⟩

theorem test_meets_ThermalAndRefresh : tL.pw.point 767 < 3 ∧ tL.pw.changing 767 = false ∧ tabGet tL.pw.selfRef 1631 = false
    ∧ (let s : State := { tL with pw := { tL.pw with selfRef := [(1631, true)] } }
       tabGet s.pw.selfRef 1631 = true)
    ∧ (let s : State := { tL with upsets := [(4096, some ⟨false, 1, none⟩)] }
       4096 / 2 ^ 22 < nCols ∧ tabGet s.upsets 4096 = some ⟨false, 1, none⟩ ∧ (⟨false, 1, none⟩ : Upset).wrong = none ∧ tabGet s.dirty 4096 = false)
    ∧ (let s : State := { tL with dirty := [(4099, true)] }
       (List.range 4).any (fun i => tabGet s.dirty (4 * 1024 + i)) = true ∧ tabGet s.vault 1024 = none) :=
  ⟨by decide, by decide, by decide, by decide, ⟨by decide, by decide, rfl, by decide⟩, by decide⟩

/-- With segment 0 of window B at column 0 of any package. -/
def tSeg : State := { tUp with tabs := { tUp.tabs with seg := [(0, BitVec.ofNat 64 (4095 * 2 ^ 52 + 1))] } }

theorem segCause_every : segCause (4095 * 2 ^ 52 + 1) = 0 := by
  have h : segCause (4095 * 2 ^ 52 + 1) = if True ∧ (4095 ≠ Config.package.toNat ∧ (4095 : Nat) ≠ 4095) then 2 else 0 := by
    simp [segCause, fld, isSelfAlias, addrPkg, addrCol, addrAp, nCols]
  rw [h]; simp

theorem test_meets_HostWindows : tSeg.linkUp 0 = true ∧ malformedTlp 0x40000 8 = false ∧ tSeg.windowBOpen = true
    ∧ (tSeg.windowB 0x40000 8 .read).1 = 0 ∧ (tSeg.windowB 0x40000 8 .read).2.2.1 = .page tPage
    ∧ (tSeg.windowB 0x40000 8 .write).1 = 0 ∧ (tSeg.windowB 0x40000 8 .write).2.2.1 = .page tPage ∧ tPage.tol = 0 ∧ tPage.comp = false
    ∧ (let s : State := { tL with evq := { tL.evq with tail := 3, head := 1 } }
       s.evq.head ≤ (2 : DWord).toNat ∧ (2 : DWord).toNat ≤ s.evq.tail)
    ∧ tUp.linkUp 0 = true ∧ ctxState (tL.ctxEnt 15) < 2 ∧ ctxState (tL.ctxEnt 15) = 0 ∧ ctxState (BitVec.ofNat 512 (2 ^ 384)) = 1
    ∧ ∀ p, p ∈ tUp.net → pktHere p = true :=
  ⟨by decide, by decide, by decide, segCause_every, by decide, segCause_every, by decide, rfl, rfl, by decide, by decide, by decide, by decide,
    by decide, fun _ h => nomatch h⟩

/-! ## Hypotheses met: records, contexts, launches, failures -/

/-- A launch record with its descriptor at a column, and a collective record of two members. -/
def tLaunch : Rec64 := tRec 1 (2 ^ 192 * (2 ^ 36 + 64))
def tClct : Rec64 := tRec 2 (3 * 2 ^ 328 + 4 * 2 ^ 324 + 2 ^ 352 + 2 ^ 384 + 2 * 2 ^ 400)

theorem natOf_bytesOf (k n : Nat) : natOf (bytesOf k n) = n % 256 ^ k := by
  induction k generalizing n with
  | zero => simp [bytesOf, natOf, Nat.mod_one]
  | succ k ih =>
    simp only [bytesOf, natOf, ih, BitVec.toNat_ofNat]
    have h : n % 256 ^ (k + 1) = n % 256 + 256 * (n / 256 % 256 ^ k) := by rw [Nat.pow_succ', Nat.mod_mul]
    rw [h]

theorem length_bytesOf (k n : Nat) : (bytesOf k n).length = k := by
  induction k generalizing n with
  | zero => rfl
  | succ k ih => simp [bytesOf, ih]

/-- The bytes of a record are that record. -/
theorem recOf_bytesOf (r : Rec64) : (bytesOf 64 r.toNat).length = 64 ∧ recOf (bytesOf 64 r.toNat) = r := by
  refine ⟨length_bytesOf _ _, ?_⟩
  rw [recOf, natOf_bytesOf, show (256 : Nat) ^ 64 = 2 ^ 512 from by norm_num, ← BitVec.toNat_inj, BitVec.toNat_ofNat]
  simp [Nat.mod_eq_of_lt r.isLt]

/-- A switch to context 1. -/
def tSwitchRec : Rec64 := tRec 0x10 (2 ^ 192)

theorem test_meets_RecordSubmission : tUp.linkUp 0 = true ∧ tUp.submitCode false 0 63 (recOf (bytesOf 64 tLaunch.toNat)) = 0
    ∧ tUp.submitCode false 0 64 (recOf (bytesOf 64 tClct.toNat)) = 0 ∧ (bytesOf 64 tClct.toNat).length = 64
    ∧ tUp.submitCode false 0 65 (recOf (bytesOf 64 (tRec 0x11 (3000 * 2 ^ 192)).toNat)) = 0
    ∧ (let s : State := { tUp with tabs.noCtx := true }
       s.submitCode false 0 65 (recOf (bytesOf 64 (tRec 0x10 0).toNat)) = 0 ∧ recKind (tRec 0x10 0) = 0x10 ∧ recTrig (tRec 0x10 0) = 0
        ∧ s.currentAfter ≠ some (fieldNat (tRec 0x10 0) 195 192))
    ∧ tUp.submitCode false 0 0 (recOf (bytesOf 64 (tRec 1 0).toNat)) = 2 ∧ tUp.submitCode false 1 0 (recOf (bytesOf 64 (tRec 3 0).toNat)) ≠ 0
    ∧ crosses4K 4032 64 = false ∧ crosses4K 0 63 = false := by
  simp only [recOf_bytesOf]
  exact ⟨by decide, by decide, by decide, trivial, by decide, ⟨by decide, by decide, by decide, by decide⟩, by decide, by decide, by decide, by decide⟩

/-- With one management record at the head of its queue. -/
def tMg (r : Rec64) : State := { tL with sch := { tL.sch with mgmt := [r] } }

/-- A switch of context 0 to 1, in its first pass. -/
def tSw : Switch := ⟨1, 100, 0, 0, false, [(0, .flush)], false, false, false⟩
def tSwS (p2 : Bool) : State := { tL with sch := { tL.sch with sw := some { tSw with pass2 := p2 } } }

theorem test_meets_ContextManagement : (tMg tSwitchRec).mgmtHead 0x10 = some (tSwitchRec, []) ∧ recTrig tSwitchRec = 0
    ∧ (tMg tSwitchRec).current ≠ some (fieldNat tSwitchRec 195 192) :=
  ⟨by decide, by decide, by decide⟩

/-- In the first pass: a deterministic group between two rotation steps, and a group whose column is frozen. -/
def tSwDet : State :=
  { tSwS false with cores := [(0, { held := some (0, 0, 0), det := true })], sch := { (tSwS false).sch with groups :=
    [(0, some { (default : Group) with cols := [0], hdr := { loadHdr with det := true } })] } }
def tSwFrozen : State :=
  { tSwS false with cols := [(0, some { (default : Column) with frozen := true })], sch := { (tSwS false).sch with groups :=
    [(0, some { (default : Group) with cols := [0] })] } }

theorem test_meets_ContextManagement_first : tSwDet.sch.sw = some tSw ∧ tSwDet.draining tSw = false
    ∧ (tSwDet.preGroups tSw).map (·.1) = [0] ∧ ((tSwDet.preGroups tSw).any fun g => g.2.1.cols.contains 0) = true ∧ (tSwDet.col 0).frozen = false
    ∧ ∀ k ∈ [0], (tSwDet.core k).between = true :=
  ⟨rfl, by decide, by decide, by decide, by decide, by decide⟩

theorem test_meets_ContextManagement_second : tSwFrozen.draining tSw = false ∧ (tSwFrozen.preGroups tSw).map (·.1) = [0]
    ∧ (∀ g ∈ tSwFrozen.preGroups tSw, ∀ c ∈ g.2.1.cols, (tSwFrozen.col c).frozen = true)
    ∧ (∀ g ∈ tSwFrozen.preGroups tSw, tSwFrozen.groupQuiet g.1 g.2.1 g.2.2 = true)
    ∧ (tSwS true).sch.sw = some { tSw with pass2 := true } ∧ ∀ r ∈ (tSwS true).sch.mgmt, recKind r ≠ 0x10 :=
  ⟨by decide, by decide, by decide, by decide, rfl, fun _ h => nomatch h⟩

/-- An abort of context 0, accepted after two records of queue 0 and one collective record. -/
def tAbort : State := { tMg (tRec 0x13 0) with sch := { (tMg (tRec 0x13 0)).sch with aborts := [(0, [2], 1)] } }

theorem test_meets_ContextManagement_abort : tAbort.mgmtHead 0x13 = some (tRec 0x13 0, []) ∧ tAbort.sch.aborts.head? = some (0, [2], 1)
    ∧ tAbort.current = some (fieldNat (tRec 0x13 0) 195 192) :=
  ⟨by decide, rfl, by decide⟩

theorem addr0_self (off : Nat) (h : off < 2 ^ 34) : isSelfAlias (mkAddr 0 off).toNat = false := by
  have hp := Config.package.isLt
  have e : (mkAddr 0 off).toNat = Config.package.toNat * 2 ^ 52 + off := by
    simp only [mkAddr, BitVec.toNat_ofNat]; omega
  rw [e]; simp [isSelfAlias]; omega

/-- The record of a signal to a semaphore. -/
def sigRec (a : DWord) : Rec64 := BitVec.ofNat 512 (0x12 * 2 ^ 56 + a.toNat * 2 ^ 192)

theorem sigRec_fields (a : DWord) : recKind (sigRec a) = 0x12 ∧ fieldNat (sigRec a) 255 192 = a.toNat ∧ recTrig (sigRec a) = 0 := by
  have h := a.isLt
  have e : (sigRec a).toNat = 0x12 * 2 ^ 56 + a.toNat * 2 ^ 192 := by
    rw [sigRec, BitVec.toNat_ofNat, Nat.mod_eq_of_lt]
    omega
  simp only [recKind, recTrig, fieldNat, e, Nat.shiftRight_eq_div_pow]
  omega

/-- To a semaphore of column 0. -/
def tSig : Rec64 := sigRec (mkAddr 0 0x40000)
theorem tSig_fields : recKind tSig = 0x12 ∧ fieldNat tSig 255 192 = (mkAddr 0 0x40000).toNat ∧ recTrig tSig = 0 := sigRec_fields _

theorem tL_resolve : tL.resolve 0 0 0x40000 8 false .atomic = .ok ⟨0, tPage, false, 0x40000⟩ := by decide

theorem tMg_head (r : Rec64) (k : Nat) (h : recKind r = k) (ht : recTrig r = 0) : (tMg r).mgmtHead k = some (r, []) := by
  have e : (tMg r).mgmtHead k
      = if (tMg r).mgmtFree = true ∧ recKind r = k ∧ (recTrig r = 0 ∨ (tMg r).sch.mgmtTrig = .fired) then some (r, []) else none := rfl
  rw [e, if_pos ⟨rfl, h, .inl ht⟩]

theorem no_mgmt (s : State) (h : s.sch.mgmt = []) (ht : s.sch.mgmtTrig = .idle) : ({ s with sch.mgmt := [], sch.mgmtTrig := .idle } : State) = s := by
  rw [← h, ← ht]

theorem tMg_rest (r : Rec64) : (tMg r).popMgmt [] = tL := by
  have e : (tMg r).popMgmt [] = { tL with sch.mgmt := [], sch.mgmtTrig := .idle } := by unfold tMg; generalize tL = s; rfl
  rw [e]; exact no_mgmt tL rfl rfl

theorem signal_ok (s : State) (ctx a off : Nat) (v : DWord) (sp : Span) (ht : targetCol none a = some 0) (ho : addrOff a = off) (hp : addrAp a = 0)
    (hr : s.resolve ctx 0 off 8 false .atomic = .ok sp) (h1 : sp.page.tol = 0) (h2 : (s.readSpan sp 8).2.2 = false) :
    ∃ u, s.signalSem ctx none a v false = (u, .ok ()) := by
  have hr' : s.resolve ctx 0 off 8 ((0 : Nat) == 1) .atomic = .ok sp := hr
  simp only [State.signalSem, ht, ho, hp, hr', h1, h2]
  exact ⟨_, rfl⟩

theorem tSig_col : targetCol none (mkAddr 0 0x40000).toNat = some 0 := by
  have ha := addr0 0x40000 (by decide)
  rw [targetCol, addr0_self 0x40000 (by decide), ha.1, ha.2.1, if_neg Bool.false_ne_true, if_pos ⟨rfl, by decide⟩]

theorem test_meets_ContextManagement_signal : (tMg tSig).mgmtHead 0x12 = some (tSig, []) ∧ (tMg tSig).tabs.noCtx = false
    ∧ (tMg tSig).away (fieldNat tSig 255 192) = false
    ∧ ∃ u, ((tMg tSig).popMgmt []).signalSem (tMg tSig).tabs.curCtx none (fieldNat tSig 255 192) (fieldBits tSig 256 64) false
        = (u, .ok ()) := by
  have ha := addr0 0x40000 (by decide)
  refine ⟨tMg_head _ _ tSig_fields.1 tSig_fields.2.2, rfl, by rw [tSig_fields.2.1]; simp [State.away, ha.1], ?_⟩
  rw [tMg_rest, tSig_fields.2.1]
  exact signal_ok tL _ _ 0x40000 _ ⟨0, tPage, false, 0x40000⟩ tSig_col ha.2.2.1 ha.2.2.2 tL_resolve rfl (by decide)

/-- A launch of one stage of twelve column groups, whose header is checked. -/
def tRun : LaunchRun := { record := tLaunch, stages := [{ groups := 12 }], sr := [{ hdr := some { (loadHdr) with level := 1 } }] }
def tLq (q : LQueue) : State := { tL with sch := { tL.sch with queues := [(0, q)] } }

theorem test_meets_LaunchPipeline :
    (let s := tLq { recs := [tLaunch] }
     s.canStart 0 0 = true ∧ (s.lq 0 0).recs = tLaunch :: [])
    ∧ (let s := tLq { run := some tRun }
       s.current = some 0 ∧ s.schedules = true ∧ s.pw.runs (1 / 6) = true ∧ s.firedFirst 0 = false ∧ s.lowerTakes 0 1 = false ∧ s.pick 0 1 = some (0, 0) ∧ (s.lq 0 0).run = some tRun
        ∧ (tRun.sr.getD 0 {}).hdr = some { loadHdr with level := 1 }
        ∧ s.placeFor (0, 0, 0) (tRun.stages.getD 0 {}) (tRun.sr.getD 0 {}) { loadHdr with level := 1 } 1 = some (8, 8))
    ∧ (let s : State := { tL with cols := [] }
       (s.group 0).isSome = true ∧ s.canFinish 0 ((s.group 0).getD {}) = true)
    ∧ (let g : Group := { (default : Group) with phase := .finished, cols := [8] }
       let s : State := { tLq { run := some tRun } with sch := { (tLq { run := some tRun }).sch with groups := [(0, some g)] } }
       s.group 0 = some g ∧ (s.lq g.ctx g.queue).run = some tRun ∧ g.stage < tRun.sr.length ∧ (tRun.sr.getD g.stage {}).ret = g.index) :=
  ⟨by decide, ⟨by decide, by decide, by decide, by decide, by decide, by decide, by decide, by decide, by decide⟩, ⟨by decide, by decide⟩, ⟨by decide, by decide, by decide, by decide⟩⟩

/-- Column 0 has failed its logic check. -/
def tFail : Recovery := ⟨[(0, 1)], 0, false, false⟩
def tRec1 (c : Bool) : State := { tL with recov := some { tFail with contained := c }, boot := { tL.boot with st := 6 } }

theorem filterMap_one (n : Nat) (h : 0 < n) :
    (List.range n).filterMap (fun g => (([(0, 1)] : List (Nat × Nat)).find? (·.1 == g)).map fun x => (g, x.2)) = [(0, 1)] := by
  cases n with
  | zero => omega
  | succ n =>
    have e : ((fun g => (([(0, 1)] : List (Nat × Nat)).find? (·.1 == g)).map fun x => (g, x.2)) ∘ Nat.succ) = fun _ => none := by
      funext g; simp
    rw [List.range_succ_eq_map, List.filterMap_cons, List.filterMap_map, e]; simp

theorem tRec1_plan (c : Bool) : (tRec1 c).foldPlan [(0, 1)] = some [(0, ⟨2, 1, 1, 1⟩)] := by
  have h : (([(0, 1)] : List (Nat × Nat)).flatMap fun f => ((tRec1 c).runsOn f.1).map fun g => (g, f.2)) = [(0, 1)] := rfl
  unfold State.foldPlan
  simp only [h, filterMap_one nCols (by decide)]
  rfl

/-- A column with one result that awaits a reply. -/
def tWait : State := tC fun c => { c with results := [⟨0, 1, [], 0, .reply 7⟩] }

/-- Sixteen lines of column 0's slice have been in error. -/
def tLines : State := { tL with pw := { tL.pw with badLines := (List.range 16).map fun i => (i, 0) } }

theorem test_meets_FailuresAndRecovery : tL.inService = true ∧ tL.runsOn 36863 ≠ [] ∧ clusterOf 36863 = 767 ∧ stackOf 767 = 23
    ∧ tL.pw.point 767 ≠ 4
    ∧ (let s : State := { tL with pw := { tL.pw with missed := [(767, 1)] } }
       tabGet s.pw.missed 767 = 1)
    ∧ (tWait.runsOn 0).any tWait.watched = true
    ∧ (tRec1 false).recov = some tFail ∧ (tRec1 false).sch.sw = none ∧ (tRec1 false).sch.cuts = [] ∧ (tRec1 false).boot.st ≠ 7
    ∧ ((tRec1 false).foldPlan tFail.failed).isSome = true
    ∧ (tRec1 true).recov = some { tFail with contained := true }
    ∧ (let plan : List (Nat × FoldEnt) := [(0, ⟨2, 1, 1, 1⟩)]
       (tRec1 true).foldPlan [(0, 1)] = some plan ∧ (∀ x ∈ plan, ∀ y ∈ plan, x.2.host = y.1 → x.1 = y.1) ∧ (plan.map (·.1)).Nodup)
    ∧ (let s : State := { tL with tabs := { tL.tabs with cmap := [(0, some ⟨2, 1, 1, 1⟩), (1, some ⟨1, 0, 0, 0⟩)] } }
       (s.fold 1).st = 1 ∧ s.boot.st = 5 ∧ (s.fold (s.fold 1).host).fold ≠ 3 ∧ s.mintq = []) :=
  ⟨by decide, by decide, by decide, by decide, by decide, by decide, by decide, rfl, rfl, rfl, by decide, by rw [show tFail.failed = [(0, 1)] from rfl, tRec1_plan]; rfl, rfl,
    ⟨tRec1_plan true, by decide, by decide⟩, ⟨by decide, rfl, by decide, rfl⟩⟩

theorem test_meets_FailuresAndRecovery_lines : tLines.inService = true ∧ 16 ≤ tLines.badLineCount 0 ∧ tLines.runsOn 0 ≠ [] :=
  ⟨by decide, by decide, by decide⟩

theorem test_meets_LinksPortsAndAttestation : trainedLink (.trained 4 5 true) = some ⟨true, false, 4, 5⟩ ∧ trainedLink .down = some {}
    ∧ (let s : State := { State.reset with boot := { ({} : Boot) with link0 := { training := true } } }
       s.boot.link0.training = true)
    ∧ tUp.boot.link1.training = true ∧ tUp.spdmOn = true ∧ tL.portUp 35 = true ∧ tabGet tL.pw.portRetry 35 < 16
    ∧ (let s : State := { tL with pw := { tL.pw with portRetry := [(0, 16)] } }
       s.portUp 0 = true ∧ tabGet s.pw.portRetry 0 = 16)
    ∧ (∃ a b, linkEnds (.long 0 1) = some (a, b) ∧ tL.linkIsDown a b = false) ∧ (5 ≤ ({ (default : Packet) with vc := 5 } : Packet).vc) :=
  ⟨by decide, by decide, rfl, by decide, by decide, by decide, by decide, ⟨by decide, by decide⟩, ⟨_, _, rfl, by decide⟩, by decide⟩

/-! ## Hypotheses met: packets at their destination -/

/-- A packet alone on its way to column 0 of this module has arrived. -/
theorem arrives_one (s : State) (p : Packet) (kind : Nat) (hk : p.kind.toNat = kind) (hn : s.net = [p]) (hp : p.parked = false)
    (ha : addrPkg p.dest.toNat = Config.package.toNat) (hc : addrCol p.dest.toNat = 0) (hr : s.pw.runs 0 = true) (h7 : s.boot.st ≠ 7) :
    s.Comes p kind := by
  have h1 : pktHere p = true := by simp [pktHere, ha]
  have h2 : pktDest p = 0 := hc
  have h3 : pktCluster p = 0 := by simp [pktCluster, clusterOf, hc]
  have h4 : firstOfFlow [p] p = true := by simp [firstOfFlow, sameFlow, hp]
  exact ⟨by simp [State.arrives, hk, h1, h2, h3, h4, hr, hn, hp, nCols], .inl h7⟩

/-- A request of a kind to the block at 0x40000 of column 0, from column 1. -/
def tPk (kind : Nat) (op : Nat) (accs : List LaneAcc) (words : List Word) : Packet :=
  { (default : Packet) with kind := BitVec.ofNat 8 kind, op := BitVec.ofNat 4 op, dest := mkAddr 0 0x40000, src := mkAddr 1 0, req := 7, accs := accs, words := words }

/-- One lane's word at that block. -/
def tAcc : LaneAcc := ⟨3, mkAddr 0 0x40008, 4, 1, 0, false⟩

def tNet (p : Packet) : State := { tM with net := [p] }

theorem mkAddr_col (col off : Nat) (hc : col < 2 ^ 16) (h : off < 2 ^ 34) : addrPkg (mkAddr col off).toNat = Config.package.toNat
    ∧ addrCol (mkAddr col off).toNat = col ∧ addrOff (mkAddr col off).toNat = off ∧ addrAp (mkAddr col off).toNat = 0 := by
  have hp := Config.package.isLt
  have e : (mkAddr col off).toNat = Config.package.toNat * 2 ^ 52 + col * 2 ^ 36 + off := by
    simp only [mkAddr, BitVec.toNat_ofNat]; omega
  rw [e]
  simp only [addrPkg, addrCol, addrOff, addrAp]
  omega

theorem tM_check (acc : Acc) (h : acc = .read ∨ acc = .write ∨ acc = .atomic) : tM.check 0 0 0x40000 256 false acc = .page tPage := by
  obtain rfl | rfl | rfl := h <;> decide

/-- The check of an access does not look at the packets. -/
theorem check_net (s : State) (n : List Packet) (ctx col off size : Nat) (raw : Bool) (acc : Acc) :
    ({ s with net := n } : State).check ctx col off size raw acc = s.check ctx col off size raw acc := rfl

theorem tNet_served (p : Packet) (kind : Nat) (acc : Acc) (h : acc = .read ∨ acc = .write ∨ acc = .atomic) (hk : p.kind.toNat = kind)
    (hp : p.parked = false) (hd : p.dest = mkAddr 0 0x40000) : (tNet p).Served p kind acc tPage := by
  have a := mkAddr_col 0 0x40000 (by decide) (by decide)
  refine ⟨arrives_one _ _ _ hk rfl hp (by rw [hd]; exact a.1) (by rw [hd]; exact a.2.1) rfl (show (5 : Nat) ≠ 7 by decide), ?_⟩
  have h1 : (tNet p).tabs.curCtx = 0 := rfl
  rw [tNet, check_net, pktDest, hd, a.2.1, a.2.2.1, a.2.2.2]
  exact tM_check acc h

theorem test_meets_RequestsAtTheirOwner :
    (tNet (tPk 0x01 0 [tAcc] [])).Served (tPk 0x01 0 [tAcc] []) 0x01 .read tPage
    ∧ (tNet (tPk 0x05 0 [tAcc] [])).Served (tPk 0x05 0 [tAcc] []) 0x05 .read tPage ∧ tPage.sl = false
    ∧ ((tNet (tPk 0x03 0 [tAcc] [])).Served (tPk 0x03 0 [tAcc] []) 0x03 .write tPage ∧ tPage.tol = 0
      ∧ (tNet (tPk 0x03 0 [tAcc] [])).placeItem (tPk 0x03 0 [tAcc] []) = (tNet (tPk 0x03 0 [tAcc] []), tPk 0x03 0 [tAcc] []))
    ∧ (tNet (tPk 0x0A 2 [tAcc] [])).Served (tPk 0x0A 2 [tAcc] []) 0x0A .atomic tPage ∧ addrAp (tPk 0x0A 2 [tAcc] []).dest.toNat = 0
    ∧ (tNet (tPk 0x0C 0 [tAcc] [])).Served (tPk 0x0C 0 [tAcc] []) 0x0C .atomic tPage
    ∧ (tNet (tPk 0x0D 1 [tAcc] [])).Served (tPk 0x0D 1 [tAcc] []) 0x0D .atomic tPage ∧ (tPk 0x0D 1 [tAcc] []).accs = tAcc :: [] :=
  ⟨tNet_served _ _ _ (.inl rfl) rfl rfl rfl, tNet_served _ _ _ (.inl rfl) rfl rfl rfl, rfl, ⟨tNet_served _ _ _ (.inr (.inl rfl)) rfl rfl rfl, rfl, rfl⟩,
    tNet_served _ _ _ (.inr (.inr rfl)) rfl rfl rfl, (mkAddr_col 0 0x40000 (by decide) (by decide)).2.2.2,
    tNet_served _ _ _ (.inr (.inr rfl)) rfl rfl rfl, tNet_served _ _ _ (.inr (.inr rfl)) rfl rfl rfl, rfl⟩

/-- The line of a sealed page. -/
theorem test_meets_RequestsAtTheirOwner_sealed :
    let s : State := ({ tL with mem := [] } : State).poke 0x1E00000 0x10F
    s.check 0 0 0x40000 256 false .read = .page { tPage with sl := true } := by decide

/-- With one request of column 0 outstanding, and column 1 answering it. -/
def tReq : Req := { (default : Req) with tag := 7, lanes := 8, credit := some (creditKey (mkAddr 1 0).toNat) }
def tAns (p : Packet) : State := { (tC fun c => { c with reqs := [tReq], results := [⟨0, 8, [.vec 4 3 0 false], 0, .reply 7⟩], unacked := [(1, 8, 7)] }) with net := [p] }

theorem tAns_lands (p : Packet) (kind : Nat) (hk : p.kind.toNat = kind) (hp : p.parked = false) (hd : p.dest = mkAddr 0 0x40000)
    (hs : p.src = mkAddr 1 0) (hr : p.req = 7) : (tAns p).Comes p kind ∧ (tAns p).reqOf p = some tReq
      ∧ (tAns p).answered p = true ∧ (tabGet (tAns p).cols (pktDest p)).isSome = true := by
  have a := mkAddr_col 0 0x40000 (by decide) (by decide)
  have b := mkAddr_col 1 0 (by decide) (by decide)
  have e : (tAns p).Comes p kind :=
    arrives_one _ _ _ hk rfl hp (by rw [hd]; exact a.1) (by rw [hd]; exact a.2.1) rfl (show (5 : Nat) ≠ 7 by decide)
  have hq : pktDest p = 0 := by rw [pktDest, hd, a.2.1]
  have ho : pktOurs p = true := by simp [pktOurs, hs, b.1]
  refine ⟨e, ?_, ?_, by rw [hq]; rfl⟩
  · have hreqs : ((tAns p).col 0).reqs = [tReq] := rfl
    rw [State.reqOf, hq, hr, hs, hreqs]
    simp [tReq]
  · have hw : (tAns p).awaitsAck 0 7 = true := rfl
    simp [State.answered, hq, hr, hw, ho]

theorem tAns_late (p : Packet) (kind : Nat) (hk : p.kind.toNat = kind) (hp : p.parked = false) (hd : p.dest = mkAddr 0 0x40000) (hr : p.req = 9) :
    (tAns p).Comes p kind ∧ (tAns p).reqOf p = none ∧ (tAns p).answered p = false := by
  have a := mkAddr_col 0 0x40000 (by decide) (by decide)
  have hq : pktDest p = 0 := by rw [pktDest, hd, a.2.1]
  have h1 : (tReq.tag == 9) = false := rfl
  have hreqs : ((tAns p).col 0).reqs = [tReq] := rfl
  have hu : (tAns p).unackedOf 0 = [(1, 8, 7)] := rfl
  refine ⟨arrives_one _ _ _ hk rfl hp (by rw [hd]; exact a.1) (by rw [hd]; exact a.2.1) rfl (show (5 : Nat) ≠ 7 by decide), ?_, ?_⟩
  · simp only [State.reqOf, hq, hreqs, hr, List.find?_cons, h1, Bool.false_and, List.find?_nil]
  · simp only [State.answered, State.awaitsAck, hq, hr, hu, List.any_cons, List.any_nil, Bool.or_false]
    rfl

/-- A reply to a request that has completed. -/
def tLate (kind : Nat) : Packet := { tPk kind 0 [tAcc] [] with req := 9 }

theorem test_meets_RepliesAtTheirRequester :
    ((tAns (tPk 0x02 0 [tAcc] [])).Comes (tPk 0x02 0 [tAcc] []) 0x02 ∧ (tPk 0x02 0 [tAcc] []).words = []
      ∧ (tAns (tPk 0x02 0 [tAcc] [])).reqOf (tPk 0x02 0 [tAcc] []) = some tReq)
    ∧ ((tAns (tPk 0x0B 0 [tAcc] [])).Comes (tPk 0x0B 0 [tAcc] []) 0x0B ∧ (tAns (tPk 0x0B 0 [tAcc] [])).reqOf (tPk 0x0B 0 [tAcc] []) = some tReq)
    ∧ ((tAns (tPk 0x04 0 [] [])).Comes (tPk 0x04 0 [] []) 0x04 ∧ (tAns (tPk 0x04 0 [] [])).sch.mgmtSent ≠ some (tPk 0x04 0 [] []).req
      ∧ (tAns (tPk 0x04 0 [] [])).sentEnd (tPk 0x04 0 [] []).req = none ∧ (tAns (tPk 0x04 0 [] [])).reqOf (tPk 0x04 0 [] []) = some tReq)
    ∧ (∃ s p, State.Comes s p 0x02 ∧ s.reqOf p = none) ∧ (∃ s p, State.Comes s p 0x0B ∧ s.reqOf p = none) :=
  have h := tAns_lands (tPk 0x02 0 [tAcc] []) 0x02 rfl rfl rfl rfl rfl
  have k := tAns_lands (tPk 0x0B 0 [tAcc] []) 0x0B rfl rfl rfl rfl rfl
  have m := tAns_lands (tPk 0x04 0 [] []) 0x04 rfl rfl rfl rfl rfl
  have n := tAns_late (tLate 0x02) 0x02 rfl rfl rfl rfl
  have o := tAns_late (tLate 0x0B) 0x0B rfl rfl rfl rfl
  ⟨⟨h.1, rfl, h.2.1⟩, ⟨k.1, k.2.1⟩, ⟨m.1, by decide, rfl, m.2.1⟩, ⟨_, _, n.1, n.2.1⟩, ⟨_, _, o.1, o.2.1⟩⟩

/-- A result of all lanes, a split held by NAP, a split that enters its handler. -/
def tRes : Result := ⟨5, 0xFFFFFFFF, [.vec 4 31 7 true, .uni 2 9 false, .prd 1 0 true false], 1, .none⟩
def tResS : State := tC fun c => { c with results := [tRes] }
def tNapS : State := tC fun c => c.modSlot 3 fun sp => { sp with mask := 1, cond := .napping, nap := 0 }
def tTrapS : State := (tC fun c => c.modSlot 1 fun sp => { sp with held := 5, cond := .trapping, trap := { tcode := 2 } }).poke 16 (selfAddr 0x20000)

theorem test_meets_RepliesAtTheirRequester_writeback : (tabGet tResS.cols 0).isSome = true
    ∧ ((tResS.col 0).results.find? fun q => q.id == 5 && q.await == .none) = some tRes ∧ (tResS.col 0).slots.all (fun e => e.2.exiting == 0) = true :=
  ⟨by decide, by decide, by decide⟩

theorem test_meets_RepliesAtTheirRequester_nap : ((tNapS.col 0).slot 3).cond = .napping ∧ ((tNapS.col 0).slot 3).nap ≤ tNapS.cycles 0
    ∧ ((tNapS.col 0).slot 3).exiting = 0 ∧ ((tNapS.col 0).slot 3).lanes ≠ 0 ∧ (tNapS.col 0).demote = none :=
  ⟨by decide, Nat.zero_le _, by decide, by decide, by decide⟩

theorem test_meets_RepliesAtTheirRequester_trap :
    ((tTrapS.col 0).slot 1).cond = .trapping ∧ (tTrapS.col 0).outstanding ((tTrapS.col 0).slot 1).lanes = false
    ∧ tTrapS.faults.any (fun f => f.waiter == .split 0 1) = false
    ∧ addrOff (tTrapS.hdr 0).traptab.toNat + 8 * ((tTrapS.col 0).slot 1).trap.tcode.toNat = 16
    ∧ tTrapS.check (tTrapS.ctxOf 0) 0 16 8 false .read = .page tPage ∧ (tTrapS.pageRead 0 tPage false (16 % tPage.size) 8).2.2 = false
    ∧ targetOk 0 (BitVec.ofNat 64 (natOf (tTrapS.pageRead 0 tPage false (16 % tPage.size) 8).2.1)) = true :=
  ⟨by decide, by decide, by decide, by decide, by decide, by decide, by decide⟩

/-- A message to column 0, with n messages there before it. -/
def tMsg : Packet := tPk 0x0E 0 [] (List.replicate 32 9)
def tBox (n : Nat) (comm : Bool) : State :=
  { (tC fun c => { c with msgs := List.replicate n [] }) with
    net := [tMsg]
    sch := { tL.sch with groups := tabMod tL.sch.groups 0 (Option.map fun g => { g with hdr := { g.hdr with comm := comm } }) } }

theorem tMsg_dest : pktDest tMsg = 0 := (mkAddr_col 0 0x40000 (by decide) (by decide)).2.1

theorem tBox_ready (n : Nat) (comm : Bool) : (tBox n comm).Comes tMsg 0x0E ∧ (tBox n comm).messageReady tMsg = true
    ∧ tMsg.words.length = 32 ∧ (tabGet (tBox n comm).cols (pktDest tMsg)).isSome = true := by
  have a := mkAddr_col 0 0x40000 (by decide) (by decide)
  have hs : pktSrc tMsg = 1 := (mkAddr_col 1 0 (by decide) (by decide)).2.1
  have hu : ((tBox n comm).col 1).unacked = [] := rfl
  refine ⟨arrives_one _ _ _ rfl rfl rfl a.1 a.2.1 rfl (show (5 : Nat) ≠ 7 by decide), ?_, rfl, by rw [tMsg_dest]; rfl⟩
  rw [State.messageReady, hs, hu]; simp

/-- With that message in column 0's return buffer, of queue register q1. -/
def tBounce : State := tC fun c => { c with bounced := [tMsg], unacked := [(1, 8, 7)] }

theorem tBounced_find : (tBounce.col 0).bounced.find? (fun m => (tBounce.col 0).unacked.any fun u => u.1 == 1 && u.2.2 == m.req) = some tMsg := by
  have h : (tBounce.col 0).bounced = [tMsg] := rfl
  have h' : (tBounce.col 0).unacked = [(1, 8, 7)] := rfl
  rw [h, h']; exact List.find?_cons_of_pos rfl

theorem test_meets_MessagesBetweenColumns :
    ((tBox 15 true).Comes tMsg 0x0E ∧ (tBox 15 true).messageReady tMsg = true ∧ tMsg.words.length = 32
      ∧ (tabGet (tBox 15 true).cols (pktDest tMsg)).isSome = true ∧ ((tBox 15 true).hdr (pktDest tMsg)).comm = true
      ∧ ((tBox 15 true).col (pktDest tMsg)).msgs.length < 16)
    ∧ ((tBox 16 true).hdr (pktDest tMsg)).comm = true ∧ 16 ≤ ((tBox 16 true).col (pktDest tMsg)).msgs.length
    ∧ ((tBox 0 false).hdr (pktDest tMsg)).comm = false
    ∧ ((tAns (tPk 0x0F 0 [] [])).Comes (tPk 0x0F 0 [] []) 0x0F ∧ (tAns (tPk 0x0F 0 [] [])).answered (tPk 0x0F 0 [] []) = true
      ∧ (tabGet (tAns (tPk 0x0F 0 [] [])).cols (pktDest (tPk 0x0F 0 [] []))).isSome = true)
    ∧ ((tAns (tPk 0x10 0 [] (List.replicate 32 9))).Comes (tPk 0x10 0 [] (List.replicate 32 9)) 0x10
      ∧ (tAns (tPk 0x10 0 [] (List.replicate 32 9))).answered (tPk 0x10 0 [] (List.replicate 32 9)) = true)
    ∧ (∃ s p, State.Comes s p 0x0F ∧ s.answered p = false) ∧ (∃ s p, State.Comes s p 0x10 ∧ s.answered p = false)
    ∧ (tabGet tBounce.cols 0).isSome = true ∧ (tBounce.col 0).bounced.find? (fun m => (tBounce.col 0).unacked.any fun u => u.1 == 1 && u.2.2 == m.req) = some tMsg := by
  have h := tBox_ready 15 true
  have k := tAns_lands (tPk 0x0F 0 [] []) 0x0F rfl rfl rfl rfl rfl
  have m := tAns_lands (tPk 0x10 0 [] (List.replicate 32 9)) 0x10 rfl rfl rfl rfl rfl
  have n := tAns_late (tLate 0x0F) 0x0F rfl rfl rfl rfl
  have o := tAns_late (tLate 0x10) 0x10 rfl rfl rfl rfl
  exact ⟨⟨h.1, h.2.1, h.2.2.1, h.2.2.2, by rw [tMsg_dest]; decide, by rw [tMsg_dest]; decide⟩, by rw [tMsg_dest]; decide, by rw [tMsg_dest]; decide,
    by rw [tMsg_dest]; decide, ⟨k.1, k.2.2⟩, ⟨m.1, m.2.2.1⟩, ⟨_, _, n.1, n.2.2⟩, ⟨_, _, o.1, o.2.2⟩, rfl, tBounced_find⟩

/-! ## Hypotheses met: engines -/

/-- A surface of n32 elements, 4 by 4, in one global column, from offset 0x80000. -/
def rS (n : Nat) : Rec64 := BitVec.ofNat 512 (n * 2 ^ 66 + (1 * 2 ^ 22 + 1 * 2 ^ 38 + 0x80000 * 2 ^ 94 + 1 * 2 ^ 128 + 1 * 2 ^ 132
  + 4 * 2 ^ 160 + 4 * 2 ^ 184 + 4 * 2 ^ 256 + 16 * 2 ^ 288))

def fS (n : Nat) : Surf := ⟨1, 2, 0, 0, [4, 4, 0, 0], [4, 16, 0, 0], 0, 1, n, 1, 0x80000, 0, 0⟩

theorem rS_toNat (n : Nat) (h : n < 2 ^ 28) : (rS n).toNat = n * 2 ^ 66 + (1 * 2 ^ 22 + 1 * 2 ^ 38 + 0x80000 * 2 ^ 94 + 1 * 2 ^ 128 + 1 * 2 ^ 132
    + 4 * 2 ^ 160 + 4 * 2 ^ 184 + 4 * 2 ^ 256 + 16 * 2 ^ 288) := by
  rw [rS, BitVec.toNat_ofNat, Nat.mod_eq_of_lt]
  omega

theorem rS_surf (n : Nat) (h : n < 2 ^ 28) : surfOf (rS n) = fS n := by
  simp only [surfOf, fS, fieldNat, rS_toNat n h, Nat.shiftRight_eq_div_pow, Surf.mk.injEq, List.cons.injEq]
  refine ⟨?_, ?_, ?_, ?_, ⟨?_, ?_, ?_, ?_, trivial⟩, ⟨?_, ?_, ?_, ?_, trivial⟩, ?_, ?_, ?_, ?_, ?_, ?_, ?_⟩ <;> omega

theorem rS_ok (n : Nat) (h : n < nGlobal) : surfOk (rS n) = true := by
  have h28 : n < 2 ^ 28 := by simp only [nGlobal] at h; omega
  have e := rS_toNat n h28
  have f1 : fieldNat (rS n) 143 141 = 0 := by simp only [fieldNat, e, Nat.shiftRight_eq_div_pow]; omega
  have f2 : fieldNat (rS n) 21 0 = 0 := by simp only [fieldNat, e, Nat.shiftRight_eq_div_pow]; omega
  have f3 : fieldNat (rS n) 139 138 = 0 := by simp only [fieldNat, e, Nat.shiftRight_eq_div_pow]; omega
  have f4 : (rS n).getLsbD 140 = false := by
    simp only [BitVec.getLsbD, Nat.testBit_eq_decide_div_mod_eq, e]; simp only [decide_eq_false_iff_not]; omega
  have f5 : decide ((fS n).bcol + ((fS n).ncol - 1) * (fS n).cstr < nGlobal) = true := by simp [fS, h]
  have f6 : (fS n).maxOff = 0x80000 + 60 := by
    have g : (fS n).maxOff = (fS 0).maxOff := rfl
    rw [g]; decide
  have f7 : (fS n).size = 4 := rfl
  simp only [surfOk, rS_surf n h28, f1, f2, f3, f4, f5, f6, f7]
  have f8 : decide (524288 + 60 < 2 ^ 34) = true := by decide
  rw [f8]
  simp only [fS]
  rfl

theorem globalOf_lt : globalOf 0 < nGlobal := by
  have := Config.package.isLt; simp only [globalOf, nCols, nGlobal]; omega

theorem eRead_own (s : State) (ctx off n : Nat) (sp : Span) (bs : List Byte) (q : Bool)
    (h : s.resolve ctx 0 (addrOff off) n (addrAp off == 1) .read = .ok sp) (hr : s.readSpan sp n = (s, bs, q)) :
    s.eRead ctx (.mem (globalOf 0) off) n = (s, .ok (bs, q)) := by
  have h1 : pkgOf (globalOf 0) = Config.package.toNat := by simp only [pkgOf, globalOf, nCols]; omega
  have h2 : globalOf 0 % nCols = 0 := by simp only [globalOf, nCols]; omega
  simp only [State.eRead, h1, h2, h, hr, ne_eq, not_true_eq_false, if_false]

theorem foldl_same {α β : Type} (f : α → β → α) (l : List β) (s : α) (h : ∀ b, f s b = s) : l.foldl f s = s := by
  induction l with
  | nil => rfl
  | cons b l ih => rw [List.foldl_cons, h, ih]

/-- Reading the page of column 0 where no line is in error or poisoned. -/
theorem read_plain (s : State) (off n : Nat) (hu : s.upsets = []) (hp : s.pois = []) (hf : s.fold 0 = ⟨0, 0, 0, 0⟩) :
    s.readSpan ⟨0, tPage, false, off⟩ n = (s, (List.range n).map fun i => Memory.read s.mem (off + i), false) := by
  have ht : ∀ (p : Place) (o : Nat), s.touchLine p o = s := fun p o => by
    simp only [State.touchLine, hu, tabGet]; rfl
  have hpl : ∀ i, s.pagePlace 0 tPage false (off + i) = ⟨0, false, off + i⟩ := fun i => by
    simp [State.pagePlace, State.place, tPage, Page.stored, State.hbmPlace, hf]
  have ha : ∀ i, (⟨0, false, off + i⟩ : Place).addr = off + i := fun i => by simp [Place.addr]
  have htt : ∀ (c : Nat) (ls : List Nat), s.touchTables c ls = s := fun c ls => foldl_same _ _ _ fun _ => ht _ _
  have hlb : ∀ p : Place, s.lineByte p = s.getByte p := fun p => by
    simp only [State.lineByte, State.wrongLine, hu, tabGet]; rfl
  simp only [State.readSpan, State.pageRead, htt]
  rw [foldl_same _ _ _ fun i => by simp [ht, tPage]]
  have hq : ∀ i, s.pagePois 0 tPage false (off + i) = false := fun i => by
    simp only [State.pagePois, hp]; rfl
  have hb : ∀ i, s.pageByte 0 tPage false (off + i) = Memory.read s.mem (off + i) := fun i => by
    simp only [State.pageByte, hpl]
    simp [tPage, hlb, State.getByte, ha]
  simp only [hq, hb]
  simp only [Prod.mk.injEq, true_and]
  refine ⟨?_, by simp⟩
  apply List.map_congr_left
  intro i hi
  simp only [List.mem_range] at hi
  simp [hi]

/-- Column 0's first 2 MiB are mapped by one entry of context 0, none of its lines is in error, and no page is being unsealed. -/
structure Own (s : State) : Prop where
  trans : ctxTransoff (s.ctxEnt 0) = 0x1E00000
  pois : s.pois = []
  ups : s.upsets = []
  live : s.fold 0 = ⟨0, 0, 0, 0⟩
  entry : s.entryAt 0 0x1E00000 = 15
  quiet : ∀ off, s.unsealing 0 0 off = false

theorem Own.check {s : State} (h : Own s) (off size : Nat) (acc : Acc) (ho : off < 2 ^ 21) (ha : acc ≠ .fetch) :
    s.check 0 0 off size false acc = .page tPage := by
  have hr : ctxTransoff (s.ctxEnt 0) + 8 * (off / 2 ^ 21) = 0x1E00000 := by rw [Nat.div_eq_of_lt ho, h.trans]
  have hp : s.entryPois 0 0x1E00000 = false := by simp only [State.entryPois, h.pois, h.ups, tabGet]; rfl
  have h1 : ¬ (15 % 2 = 0) := by decide
  have h2 : fld 15 1 1 = 1 := by decide
  have hw : (s.walk 0 0 off).1 = .page tPage := by
    simp only [State.walk, hr, hp, h.entry, if_neg h1, if_pos h2]
    rfl
  have hf : decide (acc = .fetch) = false := by simp [ha]
  simp only [State.check, hw, hf, h.quiet]
  cases acc <;> rfl

theorem Own.resolve {s : State} (h : Own s) (off size : Nat) (acc : Acc) (ho : off < 2 ^ 21) (ha : acc ≠ .fetch) :
    s.resolve 0 0 (addrOff off) size (addrAp off == 1) acc = .ok ⟨0, tPage, false, off⟩ := by
  have h1 : addrOff off = off := by simp only [addrOff]; omega
  have h2 : addrAp off = 0 := by simp only [addrAp]; omega
  have h3 : off % tPage.size = off := Nat.mod_eq_of_lt ho
  simp only [State.resolve, h1, h2, Nat.reduceBEq, h.check off size acc ho ha, h3]

theorem Own.eRead {s : State} (h : Own s) (off n : Nat) (ho : off < 2 ^ 21) : s.eRead 0 (.mem (globalOf 0) off) n
    = (s, .ok ((List.range n).map fun i => Memory.read s.mem (off + i), false)) :=
  eRead_own s 0 off n _ _ _ (h.resolve off n .read ho (by decide)) (read_plain s off n h.ups h.pois h.live)

theorem Own.eCheck {s : State} (h : Own s) (off n : Nat) (acc : Acc) (ho : off < 2 ^ 21) (ha : acc ≠ .fetch) :
    s.eCheck 0 (.mem (globalOf 0) off) n acc = .ok () := by
  have h1 : pkgOf (globalOf 0) = Config.package.toNat := by simp only [pkgOf, globalOf, nCols]; omega
  have h2 : globalOf 0 % nCols = 0 := by simp only [globalOf, nCols]; omega
  simp only [State.eCheck, h1, h2, h.resolve off n acc ho ha]
  simp [tPage]

/-- The record r stored at an offset, before the rest of a memory. -/
def recM (off : Nat) (r : Rec64) (m : Memory) : Memory := ((List.range 64).map fun i => (off + i, (bytesOf 64 r.toNat).getD i 0)) ++ m

theorem tabGet_map (l : List Nat) (b : Nat) (f : Nat → Byte) (m : Memory) (k : Nat) :
    tabGet (l.map (fun i => (b + i, f i)) ++ m) k = if b ≤ k ∧ k - b ∈ l then f (k - b) else tabGet m k := by
  induction l with
  | nil => simp
  | cons a l ih =>
    simp only [List.map_cons, List.cons_append, tabGet, ih, List.mem_cons]
    by_cases h : b + a = k
    · have h1 : k - b = a := by omega
      have h2 : b ≤ k := by omega
      simp [h, h1, h2]
    · have h1 : b ≤ k → k - b ≠ a := by omega
      by_cases h2 : b ≤ k
      · simp [h, h2, h1 h2]
      · simp [h, h2]

theorem recM_at (off : Nat) (r : Rec64) (m : Memory) : ((List.range 64).map fun i => Memory.read (recM off r m) (off + i)) = bytesOf 64 r.toNat := by
  have h : ((List.range 64).map fun i => Memory.read (recM off r m) (off + i)) = (List.range 64).map fun i => (bytesOf 64 r.toNat).getD i 0 := by
    refine List.map_congr_left fun i hi => ?_
    rw [Memory.read, recM, tabGet_map]
    have e : off + i - off = i := by omega
    simp only [e, hi, Nat.le_add_right, and_self, if_true]
  rw [h]; rfl

theorem recM_other (off : Nat) (r : Rec64) (m : Memory) (k : Nat) (h : k < off ∨ off + 64 ≤ k) : Memory.read (recM off r m) k = Memory.read m k := by
  rw [Memory.read, recM, tabGet_map, if_neg]
  · rfl
  · simp only [List.mem_range]; omega

theorem Own.record {s : State} (h : Own s) (off : Nat) (r : Rec64) (m : Memory) (ho : off < 2 ^ 21)
    (hm : ∀ i, i < 64 → Memory.read s.mem (off + i) = Memory.read (recM off r m) (off + i)) :
    s.eRecord 0 (globalOf 0) (selfAddr off).toNat = (s, .ok (r, false)) := by
  have hs : (selfAddr off).toNat = 0xFFFFFFF * 2 ^ 36 + off := by
    simp only [selfAddr, BitVec.toNat_ofNat]; omega
  have hl : locOf (globalOf 0) (selfAddr off).toNat = some (.mem (globalOf 0) off) := by
    have h1 : ¬ 2 ≤ addrAp (0xFFFFFFF * 2 ^ 36 + off) := by simp only [addrAp]; omega
    have h2 : isSelfAlias (0xFFFFFFF * 2 ^ 36 + off) = true := by simp [isSelfAlias]; omega
    have h3 : (0xFFFFFFF * 2 ^ 36 + off) % 2 ^ 36 = off := by omega
    rw [hs, locOf, if_neg h1, if_pos h2, h3]
  have hb : ((List.range 64).map fun i => Memory.read s.mem (off + i)) = bytesOf 64 r.toNat := by
    rw [← recM_at off r m]
    exact List.map_congr_left fun i hi => hm i (List.mem_range.mp hi)
  have hn : BitVec.ofNat 512 (natOf (bytesOf 64 r.toNat)) = r := by
    rw [natOf_bytesOf, show (256 : Nat) ^ 64 = 2 ^ 512 from by norm_num, ← BitVec.toNat_inj, BitVec.toNat_ofNat]
    simp [Nat.mod_eq_of_lt r.isLt]
  simp only [State.eRecord, hl, h.eRead off 64 ho, hb, hn]

theorem Own.readSurf {s : State} (h : Own s) (off : Nat) (r : Rec64) (m : Memory) (ho : off < 2 ^ 21) (h64 : (selfAddr off).toNat % 64 = 0)
    (hm : ∀ i, i < 64 → Memory.read s.mem (off + i) = Memory.read (recM off r m) (off + i)) (hok : surfOk r = true) :
    s.readSurf 0 0 (selfAddr off).toNat = (s, .ok r) := by
  rw [State.readSurf, if_neg (by simp [h64]), h.record off r m ho hm]
  simp [hok]

theorem ctxEnt_eng (s : State) (m : Memory) (o : Tab (Option EngOp)) (h : Sched) (c : Nat) :
    ({ s with mem := m, ops := o, sch := h } : State).ctxEnt c = s.ctxEnt c := rfl

/-- Column 0 alone in its group, with a memory and an operation. -/
def tEng (m : Memory) (b : OpBody) : State :=
  { tL with mem := m, ops := [(5, some ⟨0, 0, false, b⟩)], sch := { tL.sch with groups := [(0, some { (default : Group) with cols := [0] })] } }

theorem tEng_own (m : Memory) (b : OpBody) (h : ∀ i, i < 8 → Memory.read m (0x1E00000 + i) = Memory.read tL.mem (0x1E00000 + i))
    (hb : ∀ q, b ≠ .page q) : Own (tEng m b) where
  trans := by rw [tEng, ctxEnt_eng]; decide
  pois := rfl
  ups := rfl
  live := rfl
  entry := by
    have hf : (tEng m b).fold 0 = ⟨0, 0, 0, 0⟩ := rfl
    have e : (tEng m b).entryAt 0 0x1E00000 = natOf ((List.range 8).map fun i => Memory.read tL.mem (0x1E00000 + i)) := by
      refine congrArg natOf (List.map_congr_left fun i hi => ?_)
      have hlb : ∀ p : Place, (tEng m b).lineByte p = (tEng m b).getByte p := fun _ => rfl
      simp only [hlb, State.getByte, State.hbmPlace, hf, Place.addr]
      have e : Memory.read (tEng m b).mem (0x1E00000 + i) = Memory.read tL.mem (0x1E00000 + i) := h i (List.mem_range.mp hi)
      simpa using e
    rw [e]; decide
  quiet := fun off => by
    cases b <;> first | rfl | exact absurd rfl (hb _)

/-! Copies: two elements of a surface into a slice of the scratchpad. -/

def tCopyOp (r : Rec64) (started : Bool) (pos : Nat) (unacked : List (Nat × Nat × Nat)) : CopyOp :=
  { (default : CopyOp) with dstK := 1, slices := [{ (default : CopySlice) with count := 2, off := 0x100, treg := 5, lanes := 1 }], recA := r
                            started := started, pos := pos, unacked := unacked }

theorem mem_packetElems {s : State} {o : CopyOp} {blk : Nat × Nat} {x : CopySlice × Nat} : ∀ {fuel pos : Nat}, x ∈ s.packetElems o blk pos fuel →
    ∃ p, pos ≤ p ∧ copyAt o.slices p = some x
  | 0, _, h => nomatch h
  | fuel + 1, pos, h => by
    rw [State.packetElems] at h
    split at h
    · exact nomatch h
    · rename_i sl e hc
      split at h
      · rcases List.mem_cons.mp h with rfl | h
        · exact ⟨pos, Nat.le_refl _, hc⟩
        · obtain ⟨p, hp, hx⟩ := mem_packetElems h
          exact ⟨p, by omega, hx⟩
      · exact nomatch h

theorem tCopy_at (r : Rec64) (p : Nat) (x : CopySlice × Nat) (h : copyAt (tCopyOp r true 0 []).slices p = some x) :
    p < 2 ∧ x = ((tCopyOp r true 0 []).slices.headD default, p) := by
  have z : (default : CopySlice).first = 0 := rfl
  by_cases h2 : p < 2
  · simp [copyAt, tCopyOp, h2, z] at h ⊢
    exact h.symm
  · simp [copyAt, tCopyOp, h2] at h

theorem tCopy_one {s : State} (o : Own s) (r : Rec64) (hs : surfOf r = fS (globalOf 0)) (p : Nat) (h2 : p < 2) :
    ∃ w, s.copyWrite 0 (tCopyOp r true 0 []) ((tCopyOp r true 0 []).slices.headD default, p) = some w
      ∧ s.eCheck 0 w.1 (tCopyOp r true 0 []).dstSize .write = .ok () := by
  have hl : s.copySrcLoc (tCopyOp r true 0 []) ((tCopyOp r true 0 []).slices.headD default) p = .mem (globalOf 0) (0x80000 + 4 * p) := by
    have : p = 0 ∨ p = 1 := by omega
    simp only [State.copySrcLoc, CopyOp.srcSurf, show (tCopyOp r true 0 []).recA = r from rfl, hs, show (tCopyOp r true 0 []).srcK = 0 from rfl]
    obtain rfl | rfl := this <;> simp [fS, Surf.coords, Surf.readAt, Surf.at_, Surf.split, Surf.blockLen, Surf.gcol, List.range, List.range.loop]
  have hz : (tCopyOp r true 0 []).srcSize = 4 := by
    rw [CopyOp.srcSize, if_pos (show (tCopyOp r true 0 []).srcK = 0 from rfl), CopyOp.srcSurf, show (tCopyOp r true 0 []).recA = r from rfl, hs]
    rfl
  have hd : ∀ sl e, s.copyDst (tCopyOp r true 0 []) sl e = s.copySpad 1 (tCopyOp r true 0 []).dstSize sl.off sl e := fun _ _ => by
    rw [State.copyDst, State.copyDstLocs, if_neg (show ¬ (tCopyOp r true 0 []).dstK = 0 by simp [tCopyOp]), show (tCopyOp r true 0 []).dstK = 1 from rfl]
    rfl
  have hr := o.eRead (0x80000 + 4 * p) 4 (by omega)
  refine ⟨_, by simp only [State.copyWrite, hl, hz, hr, if_true]; rfl, ?_⟩
  simp only [hd, State.copySpad, State.eCheck, if_true]

/-- The state of that copy, and its surface. -/
def tCopyS : State := tEng tL.mem (.copy (tCopyOp (rS (globalOf 0)) true 0 []))

theorem tCopyS_own : Own tCopyS := tEng_own _ _ (fun _ _ => rfl) fun _ => by simp

theorem tCopy_write (blk : Nat × Nat) (n : Nat) (x : CopySlice × Nat) (h : x ∈ tCopyS.packetElems (tCopyOp (rS (globalOf 0)) true 0 []) blk 0 n) :
    ∃ w, tCopyS.copyWrite 0 (tCopyOp (rS (globalOf 0)) true 0 []) x = some w
      ∧ tCopyS.eCheck 0 w.1 (tCopyOp (rS (globalOf 0)) true 0 []).dstSize .write = .ok () := by
  obtain ⟨p, -, hp⟩ := mem_packetElems h
  obtain ⟨h2, rfl⟩ := tCopy_at _ p x hp
  exact tCopy_one tCopyS_own _ (rS_surf _ (by have := globalOf_lt; simp only [nGlobal] at this; omega)) p h2

theorem tEng_sound (m : Memory) (b : OpBody) : (tEng m b).Sound := ⟨rfl, fun _ => Nat.zero_lt_succ 4⟩

theorem tracked_none (m : Memory) (o : CopyOp) (h : o.unacked = []) : (tEng m (.copy o)).tracked 0 = [] := by
  have h1 : (tEng m (.copy o)).coreReqs 0 = [] := rfl
  have h2 : (tEng m (.copy o)).tellerKeys (coreOf 0) = [] := by
    simp [State.tellerKeys, State.tellerCredits, tEng, h]
  rw [State.tracked, h1, h2]; rfl

theorem creditsFree_none (m : Memory) (o : CopyOp) (h : o.unacked = []) : (tEng m (.copy o)).creditsFree 0 [] = true := by
  rw [State.creditsFree, show 8 * 0 = 0 from rfl, tracked_none m o h]; rfl

/-- Teller data of another module for column 0, and an acknowledgement of the packet with tag 7. -/
def tData : Packet := { tPk 0x06 0 [tAcc] [] with src := otherAddr 0 }
def tAck : Packet := tPk 0x07 0 [] []
def tAckS (o : CopyOp) : State := { tEng tL.mem (.copy o) with net := [tAck] }

theorem tAck_comes (o : CopyOp) : (tAckS o).Comes tAck 0x07 := by
  have a := mkAddr_col 0 0x40000 (by decide) (by decide)
  exact arrives_one _ _ _ rfl rfl rfl a.1 a.2.1 rfl (show (5 : Nat) ≠ 7 by decide)

theorem test_meets_CopyEvents :
    (let o : CopyOp := { (default : CopyOp) with dstK := 1, slices := [{ (default : CopySlice) with empty := true }] }
     let s := tEng tL.mem (.copy o)
     tabGet s.ops 5 = some ⟨0, 0, false, .copy o⟩ ∧ s.copyJoined o = true ∧ o.started = false ∧ o.total = 0
      ∧ ∀ sl, sl ∈ o.slices → s.forkDone sl.col sl.lanes sl.bound = true)
    ∧ (let o := tCopyOp (rS (globalOf 0)) true 0 []
       let s := tCopyS
       s.Sound ∧ tabGet s.ops 5 = some ⟨0, 0, false, .copy o⟩ ∧ s.copyJoined o = true ∧ o.started = true ∧ o.multi = false
        ∧ ∃ sl el, copyAt o.slices o.pos = some (sl, el) ∧ (s.copyDst o sl el).credit sl.col = none ∧ s.creditsFree o.core [] = true
          ∧ ∀ x, x ∈ s.packetElems o (s.copyDst o sl el).block o.pos 256 →
            ∃ w, s.copyWrite 0 o x = some w ∧ s.eCheck 0 w.1 o.dstSize .write = .ok ())
    ∧ ((tNet tData).Served tData 0x06 .write tPage ∧ pktOurs tData = false)
    ∧ ((tAckS (tCopyOp 0 true 1 [])).Comes tAck 0x07 ∧ (tAckS (tCopyOp 0 true 1 [])).unackedBy tAck.req = none)
    ∧ (let o := tCopyOp 0 true 1 [(3, 0, 0), (7, 0, 1)]
       (tAckS o).Comes tAck 0x07 ∧ (tAckS o).unackedBy tAck.req = some (5, ⟨0, 0, false, .copy o⟩, o))
    ∧ (let o := tCopyOp 0 true 2 []
       tabGet (tEng tL.mem (.copy o)).ops 5 = some ⟨0, 0, false, .copy o⟩ ∧ o.started = true ∧ o.pos = o.total ∧ o.unacked = [] ∧ o.multi = false
        ∧ ∃ sl, sl ∈ o.slices ∧ sl.treg ≠ 0 ∧ (tabGet (tEng tL.mem (.copy o)).cols sl.col).isSome = true) :=
  ⟨⟨rfl, by decide, rfl, rfl, by decide⟩,
    ⟨tEng_sound _ _, rfl, rfl, rfl, rfl, _, _, rfl, rfl, creditsFree_none _ _ rfl, fun x h => tCopy_write _ _ x h⟩,
    ⟨tNet_served _ _ _ (.inr (.inl rfl)) rfl rfl rfl, by
      have h := otherAddr_pkg 0 (by decide)
      have k := otherPkg_ne.1
      rw [pktOurs, tData, h.1]; simpa using k⟩,
    ⟨tAck_comes _, rfl⟩, ⟨tAck_comes _, rfl⟩, ⟨rfl, rfl, rfl, rfl, rfl, _, List.mem_singleton.mpr rfl, by decide, by decide⟩⟩

/-! Tiles: a plain tile of two rows of two words. -/

def dS : TileDesc := BitVec.ofNat 256 (3 + 1 * 2 ^ 72 + 2 * 2 ^ 96 + 2 * 2 ^ 128 + 8 * 2 ^ 224)

def tTileOp (store : Bool) : TileOp := { (default : TileOp) with store := store, desc := dS, surf := selfAddr 0x40000, treg := 5, lanes := 1 }

def tTileS (r : Rec64) (store : Bool) : State := tEng (recM 0x40000 r tL.mem) (.tile (tTileOp store))

theorem tTileS_own (r : Rec64) (store : Bool) : Own (tTileS r store) :=
  tEng_own _ _ (fun i _ => recM_other _ _ _ _ (.inr (Nat.le_trans (by decide : 0x40000 + 64 ≤ 0x1E00000) (Nat.le_add_right _ _)))) fun _ => by simp

theorem tTile_code (s : State) (o : TileOp) (f : Surf) (hd : o.desc = dS) (hr : o.rcpt = false) (h24 : o.s24 = false) (h1 : f.ty = 1) (h4 : f.size = 4) :
    s.tileCode o f = 0 := by
  have e1 : descTy dS = 1 := by decide
  have e2 : descKind dS = 3 := by decide
  have e3 : 4 * descKs dS % 4 = 0 := by decide
  simp [State.tileCode, hd, hr, h24, h1, h4, e1, e2, e3]

/-- Where the elements of that surface lie. -/
theorem fS_at (n x y : Nat) (hx : x < 4) : (fS n).readAt 0 [x, y, 0, 0] = (n, 0x80000 + 4 * x + 16 * y)
    ∧ (fS n).writeAt [x, y, 0, 0] = [(n, 0x80000 + 4 * x + 16 * y)] := by
  have hs : x / 4 = 0 := Nat.div_eq_of_lt hx
  simp [fS, Surf.readAt, Surf.writeAt, Surf.at_, Surf.split, Surf.blockLen, Surf.gcol, List.range, List.range.loop, hs]
  omega

theorem fS_within (n x y : Nat) (h : (fS n).within x y = true) : x < 4 := by
  simp only [Surf.within, fS, Bool.and_eq_true, decide_eq_true_eq, List.getD_cons_zero] at h
  exact h.1

theorem credit_own (off : Nat) : ELoc.credit 0 (.mem (globalOf 0) off) = none := by simp [ELoc.credit]

theorem creditKeys_own (ls : List ELoc) (h : ∀ l, l ∈ ls → ∃ off, l = .mem (globalOf 0) off) : creditKeys 0 ls = [] := by
  have e : ls.filterMap (ELoc.credit 0) = [] := by
    rw [List.filterMap_eq_nil_iff]
    intro l hl
    obtain ⟨off, rfl⟩ := h l hl
    exact credit_own off
  rw [creditKeys, e]; rfl

/-- No packet of the fill or the store of that surface needs a credit: it lies in the column's own memory. -/
theorem tTile_keys (s : State) (o : TileOp) (r : Rec64) (hc : o.col = 0) (h24 : o.s24 = false) (hr : s.readSurf 0 o.col o.surf.toNat = (s, .ok r))
    (hs : surfOf r = fS (globalOf 0)) : s.tileKeys 0 o = [] := by
  have e : s.fillSurf 0 o = (s, .ok r, none) := by simp only [State.fillSurf, hr, h24]; rfl
  have hl : ∀ x : Nat × Nat, (fS (globalOf 0)).within x.1 x.2 = true →
      (fS (globalOf 0)).readAt 0 [x.1, x.2, 0, 0] = (globalOf 0, 0x80000 + 4 * x.1 + 16 * x.2)
      ∧ (fS (globalOf 0)).writeAt [x.1, x.2, 0, 0] = [(globalOf 0, 0x80000 + 4 * x.1 + 16 * x.2)] :=
    fun x hx => fS_at _ _ _ (fS_within _ _ _ hx)
  simp only [State.tileKeys, e, SurfGot.surf, hs, hc]
  refine creditKeys_own _ fun l hm => ?_
  split at hm
  · simp only [storeLocs, List.mem_flatMap, List.mem_filter, List.mem_map] at hm
    obtain ⟨x, ⟨-, hx⟩, p, hp, rfl⟩ := hm
    rw [(hl x hx).2, List.mem_singleton] at hp
    rw [hp]; exact ⟨_, rfl⟩
  · simp only [fillLocs, h24, Option.bind_none, List.append_nil, Bool.false_eq_true, if_false, List.mem_filterMap, hc] at hm
    obtain ⟨x, -, hx⟩ := hm
    by_cases hw : (fS (globalOf 0)).within x.1 x.2 = true
    · simp only [Surf.wordLoc, hw, if_true, (hl x hw).1, Option.some.injEq] at hx
      exact ⟨_, hx.symm⟩
    · simp [Surf.wordLoc, hw] at hx

theorem tTile_plain (store : Bool) : (tTileS (rS (globalOf 0)) store).PlainTile 5 0 0 (tTileOp store) (rS (globalOf 0)) := by
  have g28 : globalOf 0 < 2 ^ 28 := by have := globalOf_lt; simp only [nGlobal] at this; omega
  have hs : surfOf (rS (globalOf 0)) = fS (globalOf 0) := rS_surf _ g28
  have hk := rS_ok _ globalOf_lt
  generalize rS (globalOf 0) = r at hs hk ⊢
  have hz : (surfOf r).size = 4 := by rw [hs]; rfl
  have hty : (surfOf r).ty = 1 := by rw [hs]; rfl
  have hrd := (tTileS_own r store).readSurf 0x40000 r tL.mem (by decide) (by decide) (fun _ _ => rfl) hk
  refine ⟨rfl, tEng_sound _ _, rfl, rfl, rfl, rfl, by show tdescOk dS = true; decide, by show descKind dS = 3; decide,
    hrd, hz, tTile_code _ _ _ rfl rfl rfl hty hz, rfl, show 5 < 64 by decide, ?_⟩
  rw [tTile_keys _ (tTileOp store) r rfl rfl hrd hs]; rfl

theorem test_meets_TileEvents :
    (let s := tEng tL.mem (.tzero 0 dS)
     tabGet s.ops 5 = some ⟨0, 0, false, .tzero 0 dS⟩ ∧ tdescOk dS = true ∧ s.tasksRead (coreOf 0) 0 (s.tileSpans 0 dS) = false)
    ∧ (∃ r, r = rS (globalOf 0) ∧ (tTileS r false).PlainTile 5 0 0 (tTileOp false) r
      ∧ (tTileS r false).tasksRead (coreOf 0) 0 ((tTileS r false).tileSpans 0 dS) = false
      ∧ ∀ i j, i < descRows dS → j < descKs dS → ∃ v, (tTileS r false).eRead 0
          (.mem ((surfOf r).readAt 0 [j, i, 0, 0]).1 ((surfOf r).readAt 0 [j, i, 0, 0]).2) 4 = (tTileS r false, .ok v))
    ∧ (∃ r, r = rS (globalOf 0) ∧ (tTileS r true).PlainTile 5 0 0 (tTileOp true) r
      ∧ ∀ x y, x < descKs dS → y < descRows dS → ∀ p, p ∈ (surfOf r).writeAt [x, y, 0, 0] → (tTileS r true).eCheck 0 (.mem p.1 p.2) 4 .write = .ok ()) := by
  have g28 : globalOf 0 < 2 ^ 28 := by have := globalOf_lt; simp only [nGlobal] at this; omega
  have hs : surfOf (rS (globalOf 0)) = fS (globalOf 0) := rS_surf _ g28
  have hr : descRows dS = 2 := by decide
  have hk : descKs dS = 2 := by decide
  refine ⟨⟨rfl, by decide, rfl⟩, ⟨_, rfl, tTile_plain false, rfl, fun i j hi hj => ?_⟩, ⟨_, rfl, tTile_plain true, fun x y hx hy p hp => ?_⟩⟩
  · rw [hs, (fS_at _ j i (by omega)).1]
    exact ⟨_, (tTileS_own _ _).eRead _ 4 (by omega)⟩
  · rw [hs, (fS_at _ x y (by omega)).2, List.mem_singleton] at hp
    rw [hp]
    exact (tTileS_own _ _).eCheck _ 4 .write (by omega) (by decide)

/-! Mints, pages, faults. -/

def tTask2 (started : Bool) : MintOp :=
  { id := 0, seq := 0, group := 0, col := 0, acc := 2, act := .task 1 0 1 0 0 tAd tBd 9 false started false, lanes := 0xFFFFFFFF }
def tMint (started : Bool) : State := { tL with mintq := [(0, [tTask2 started])], seqNo := 1 }

theorem test_meets_MintEvents :
    (let s := tMint false
     let m := tTask2 false
     (tabGet s.mintq 0).find? (·.id == m.id) = some m ∧ s.mintReady 0 m = true ∧ s.fillsDone 0 m.seq (s.tileSpans 0 tAd ++ s.tileSpans 0 tBd) = true
      ∧ s.mintsBusy 0 < 2 ∧ s.forkDone m.col m.lanes m.bound = true ∧ s.hasTurn m.col = true ∧ m.tested = false)
    ∧ (tMint false).taskClear 0 (tTask2 false) = true
    ∧ (let s := tMint true
       let m := tTask2 true
       (tabGet s.mintq 0).find? (·.id == m.id) = some m
        ∧ (∀ e, e ∈ tabGet s.mintq 0 → e.isTask = true ∧ e.done = false ∧ ((s.core 0).det = true → m.seq ≤ e.seq))
        ∧ s.spadUp = [] ∧ (tabGet s.compq (compKey m.group 0)).length < 32) :=
  ⟨⟨by decide, by decide, by decide, by decide, rfl, rfl, rfl⟩, by decide, ⟨by decide, by decide, rfl, by decide⟩⟩

def tPg (kind : PageKind) (begun : Bool) (inval acks : List Nat) : PageOp :=
  { (default : PageOp) with kind := kind, off := 0x1C0000, len := 0x10000, begun := begun, inval := inval, acks := acks, lanes := 1 }

/-- A split of column 0 parked on a fault at column `owner`. -/
def tFault (owner : Nat) : FaultEnt := ⟨0, 255, .split 0 2, 0, owner, selfAddr 0x40000, 0, false, []⟩

/-- An UNSEAL whose last invalidate, to a cluster, is on its way, in a machine with a port to package 0. -/
def tUnseal (left acks : List Nat) (begun : Bool) : State :=
  { tEng tL.mem (.page (tPg .unseal begun left acks)) with tabs := { tL.tabs with route := [(0, 1)] } }

theorem test_meets_PageAndFaultEvents_unseal :
    (767 ∈ (tUnseal [] [] false).systemClusters ∧ (tUnseal [] [] false).pw.runs 767 = true)
    ∧ (let s := tUnseal [767] [1] true
       tabGet s.ops 5 = some ⟨0, 0, false, .page (tPg .unseal true [767] [1])⟩ ∧ s.pw.runs 767 = true)
    ∧ (let s := tUnseal [773] [] true
       tabGet s.ops 5 = some ⟨0, 0, false, .page (tPg .unseal true [773] [])⟩ ∧ 768 ≤ 773 ∧ s.routePorts (773 / 768 - 1) ≠ [])
    ∧ (tNet (tPk 0x08 0 [] [])).Comes (tPk 0x08 0 [] []) 0x08
    ∧ ((tPg .unseal true [] [1]).inval = [] ∧ (tPg .unseal true [] [1]).acks = [1])
    ∧ ((tPg .unseal true [767] [1]).inval ≠ [] ∧ 1 ∈ (tPg .unseal true [767] [1]).acks) := by
  have a := mkAddr_col 0 0x40000 (by decide) (by decide)
  exact ⟨⟨List.mem_append_left _ (List.mem_range.mpr (by decide)), rfl⟩, ⟨rfl, rfl⟩, ⟨rfl, by decide, by decide⟩, arrives_one _ _ _ rfl rfl rfl a.1 a.2.1 rfl (show (5 : Nat) ≠ 7 by decide),
    ⟨rfl, rfl⟩, ⟨by decide, by decide⟩⟩

theorem test_meets_PageAndFaultEvents :
    (let q := tPg .seal false [] []
     let s := tEng tL.mem (.page q)
     s.upsets = [] ∧ tabGet s.ops 5 = some ⟨0, 0, false, .page q⟩ ∧ (∀ r, r ∈ (s.col q.col).reqs → r.tag < q.bound → r.lanes &&& q.lanes = 0)
      ∧ steps64 q.off q.len = [0x1C0000] ∧ (s.walk 0 q.col 0x1C0000).1 = .page tPage)
    ∧ (let q := tPg .flush false [] []
       tabGet (tEng tL.mem (.page q)).ops 5 = some ⟨0, 0, false, .page q⟩ ∧ q.kind = .flush
        ∧ 0x1C0000 ∈ steps64 q.off q.len ∧ ((tEng tL.mem (.page q)).stepBlocks 0 q 0x1C0000).isSome = true)
    ∧ (let s : State := { tL with replicas := [⟨3, 1, 0x1000, 0, false⟩] }
       ∃ r, r ∈ s.replicas ∧ r.cluster = 3 ∧ r.line = 0x1000)
    ∧ (let f := tFault 0
       let s : State := { (tC fun c => c.modSlot 2 fun sp => { sp with mask := 4, cond := .faulted }) with faults := [f] }
       (s.faults.find? fun g => g.cluster == f.cluster && g.ent == f.ent) = some f ∧ f.ent < 256 ∧ f.waiter = .split 0 2
        ∧ (tabGet s.cols 0).isSome = true ∧ (s.walk f.ctx f.owner (addrOff f.vaddr.toNat)).1 ≠ .miss ∧ (s.col 0).demote ≠ some 2
        ∧ ((s.col 0).slot 2).lanes ≠ 0)
    ∧ (let f := tFault 9
       let s : State := { tL with faults := [f] }
       (s.faults.find? fun g => g.cluster == f.cluster && g.ent == f.ent) = some f
        ∧ ∃ ls, s.walk f.ctx f.owner (addrOff f.vaddr.toNat) = (.miss, ls)) :=
  ⟨⟨rfl, rfl, by decide, by decide, by decide⟩, ⟨rfl, rfl, by decide, by decide⟩, ⟨_, List.mem_singleton.mpr rfl, rfl, rfl⟩,
    ⟨by decide, by decide, rfl, by decide, by decide, by decide, by decide⟩, ⟨by decide, _, rfl⟩⟩

/-! Collectives: column 0 alone. -/

theorem pkgOf_globalOf : pkgOf (globalOf 0) = Config.package.toNat := by simp only [pkgOf, globalOf, nCols]; omega

def tP2pOp : P2pOp := { (default : P2pOp) with lanes := [(31, 0x40000, globalOf 0, 0x80000)] }
def tClctMem : ClctMem := { (default : ClctMem) with kind := 3, dst := 0x80000, src := 0x40000, count := 1, lanes := 1 }
def tClctOp : ClctOp := ⟨[globalOf 0], 0, none, [tClctMem]⟩

theorem tP2p_own : Own (tEng tL.mem (.p2p tP2pOp)) := tEng_own _ _ (fun _ _ => rfl) fun _ => by simp
theorem tClct_own : Own (tEng tL.mem (.clct tClctOp)) := tEng_own _ _ (fun _ _ => rfl) fun _ => by simp

theorem test_meets_CollectiveEvents_p2p :
    let s := tEng tL.mem (.p2p tP2pOp)
    tabGet s.ops 5 = some ⟨0, 0, false, .p2p tP2pOp⟩ ∧ s.forkDone tP2pOp.col (maskOf (tP2pOp.lanes.map (·.1))) tP2pOp.bound = true
      ∧ (∀ x, x ∈ tP2pOp.lanes → ∀ c a k,
        s.scanP2p 0 tP2pOp.kind (elemSize tP2pOp.ty) (.mem (globalOf tP2pOp.col) x.2.1) (.mem x.2.2.1 x.2.2.2) ≠ .fault c a k)
      ∧ s.Sound ∧ tP2pOp.lanes = [(31, 0x40000, globalOf 0, 0x80000)] ∧ pkgOf (globalOf 0) = Config.package.toNat
      ∧ (∃ v, s.eRead 0 (.mem (globalOf 0) 0x40000) 4 = (s, .ok v)) ∧ s.eCheck 0 (.mem (globalOf 0) 0x40000) 4 .read = .ok ()
      ∧ s.eCheck 0 (.mem (globalOf 0) 0x80000) 4 .write = .ok () := by
  have h1 := tP2p_own.eCheck 0x40000 4 .read (by decide) (by decide)
  have h2 := tP2p_own.eCheck 0x80000 4 .write (by decide) (by decide)
  refine ⟨rfl, rfl, fun x hx c a k => ?_, tEng_sound _ _, rfl, pkgOf_globalOf, ⟨_, tP2p_own.eRead 0x40000 4 (by decide)⟩, h1, h2⟩
  have e : x = (31, 0x40000, globalOf 0, 0x80000) := List.mem_singleton.mp hx
  have h0 : tP2pOp.kind = 0 := rfl
  have hc : tP2pOp.col = 0 := rfl
  have hz : elemSize tP2pOp.ty = 4 := rfl
  rw [e, h0, hc, hz]
  dsimp only
  simp only [State.scanP2p, h1, h2, Scan.and]
  exact fun h => nomatch h

theorem clct_bufs (r : Nat) (h : r < 1) : tClctOp.bufs 0 tClctMem r = (⟨globalOf 0, 0x40000, 1⟩, ⟨globalOf 0, 0x80000, 1⟩) := by
  obtain rfl : r = 0 := by omega
  have hm : tClctOp.mem? (globalOf 0) = some tClctMem := List.find?_cons_of_pos (by show (globalOf 0 == globalOf 0) = true; exact beq_self_eq_true _)
  have hg : tClctOp.members.getD 0 0 = globalOf 0 := rfl
  simp only [ClctOp.bufs, hg, hm]
  rfl

theorem scanBuf_ok (s : State) (h : Own s) (off : Nat) (acc : Acc) (ho : off < 2 ^ 21) (ha : acc ≠ .fetch) :
    s.scanBuf 0 4 ⟨globalOf 0, off, 1⟩ acc .ok = .ok := by
  have h1 : ¬ ((1 : Nat) ≠ 0 ∧ 2 ^ 34 < addrOff off + 4 * 1) := by simp only [addrOff]; omega
  rw [State.scanBuf, if_neg (by simp [pkgOf_globalOf]), if_neg h1]
  have hl : (⟨globalOf 0, off, 1⟩ : ClctBuf).loc 4 0 = .mem (globalOf 0) off := rfl
  show Scan.and .ok (s.eCheck 0 ((⟨globalOf 0, off, 1⟩ : ClctBuf).loc 4 0) 4 acc) acc = .ok
  rw [hl, h.eCheck off 4 acc ho ha]
  rfl

theorem test_meets_CollectiveEvents_group :
    let s := tEng tL.mem (.clct tClctOp)
    tabGet s.ops 5 = some ⟨0, 0, false, .clct tClctOp⟩ ∧ tClctOp.tag = none ∧ tClctOp.mems = [tClctMem] ∧ s.lostMember tClctOp.members = false
      ∧ tClctOp.joinedAll s.tick = true ∧ tClctOp.foreignAgree s.tick = true
      ∧ (∀ p, p ∈ tClctOp.mems → globalOf p.col ∈ tClctOp.members ∧ s.forkDone p.col p.lanes p.bound = true ∧ p.sameAs tClctMem = true
        ∧ buffersClash p.kind tClctOp.members.length (tClctOp.members.getD p.root nGlobal == globalOf p.col) p.src p.dst (p.count * elemSize tClctMem.ty) = false)
      ∧ (List.range tClctOp.members.length).foldl (fun a r =>
          s.scanBuf 0 (elemSize tClctMem.ty) (tClctOp.bufs s.tick tClctMem r).2 .write
            (s.scanBuf 0 (elemSize tClctMem.ty) (tClctOp.bufs s.tick tClctMem r).1 .read a)) Scan.ok = .ok := by
  have hm : tClctOp.mem? (globalOf 0) = some tClctMem := List.find?_cons_of_pos (by show (globalOf 0 == globalOf 0) = true; exact beq_self_eq_true _)
  have hms : tClctOp.members = [globalOf 0] := rfl
  refine ⟨rfl, rfl, rfl, ?_, ?_, ?_, fun p hp => ?_, ?_⟩
  · rw [hms, State.lostMember]; simp [pkgOf_globalOf]
  · simp [ClctOp.joinedAll, hms, hm, pkgOf_globalOf]
  · simp [ClctOp.foreignAgree, hms, pkgOf_globalOf]
  · have e : p = tClctMem := List.mem_singleton.mp hp
    rw [e]
    exact ⟨List.mem_singleton.mpr rfl, rfl, by decide, rfl⟩
  · show (tEng tL.mem (.clct tClctOp)).scanBuf 0 4 (tClctOp.bufs 0 tClctMem 0).2 .write
      ((tEng tL.mem (.clct tClctOp)).scanBuf 0 4 (tClctOp.bufs 0 tClctMem 0).1 .read Scan.ok) = .ok
    rw [clct_bufs 0 (by decide)]
    rw [scanBuf_ok _ tClct_own 0x40000 .read (by decide) (by decide), scanBuf_ok _ tClct_own 0x80000 .write (by decide) (by decide)]

/-! Repartition: a record, and surfaces of four elements of 16 bytes in one column. -/

def rR (n : Nat) : Rec64 := BitVec.ofNat 512 (n * 2 ^ 66 + (1 * 2 ^ 22 + 1 * 2 ^ 38 + 0x80000 * 2 ^ 94 + 13 * 2 ^ 128 + 16 * 2 ^ 160 + 4 * 2 ^ 256))
def fR (n : Nat) : Surf := ⟨13, 1, 0, 0, [16, 0, 0, 0], [4, 0, 0, 0], 0, 1, n, 1, 0x80000, 0, 0⟩

theorem rR_toNat (n : Nat) (h : n < 2 ^ 28) :
    (rR n).toNat = n * 2 ^ 66 + (1 * 2 ^ 22 + 1 * 2 ^ 38 + 0x80000 * 2 ^ 94 + 13 * 2 ^ 128 + 16 * 2 ^ 160 + 4 * 2 ^ 256) := by
  rw [rR, BitVec.toNat_ofNat, Nat.mod_eq_of_lt]
  omega

theorem rR_surf (n : Nat) (h : n < 2 ^ 28) : surfOf (rR n) = fR n := by
  simp only [surfOf, fR, fieldNat, rR_toNat n h, Nat.shiftRight_eq_div_pow, Surf.mk.injEq, List.cons.injEq]
  refine ⟨?_, ?_, ?_, ?_, ⟨?_, ?_, ?_, ?_, trivial⟩, ⟨?_, ?_, ?_, ?_, trivial⟩, ?_, ?_, ?_, ?_, ?_, ?_, ?_⟩ <;> omega

theorem rR_ok (n : Nat) (h : n < nGlobal) : surfOk (rR n) = true := by
  have h28 : n < 2 ^ 28 := by simp only [nGlobal] at h; omega
  have e := rR_toNat n h28
  have f1 : fieldNat (rR n) 143 141 = 0 := by simp only [fieldNat, e, Nat.shiftRight_eq_div_pow]; omega
  have f2 : fieldNat (rR n) 21 0 = 0 := by simp only [fieldNat, e, Nat.shiftRight_eq_div_pow]; omega
  have f3 : fieldNat (rR n) 139 138 = 0 := by simp only [fieldNat, e, Nat.shiftRight_eq_div_pow]; omega
  have f4 : (rR n).getLsbD 140 = false := by
    simp only [BitVec.getLsbD, Nat.testBit_eq_decide_div_mod_eq, e]; simp only [decide_eq_false_iff_not]; omega
  have f5 : decide ((fR n).bcol + ((fR n).ncol - 1) * (fR n).cstr < nGlobal) = true := by simp [fR, h]
  have f6 : (fR n).maxOff = 0x80000 + 60 := by
    have g : (fR n).maxOff = (fR 0).maxOff := rfl
    rw [g]; decide
  have f7 : (fR n).size = 4 := rfl
  simp only [surfOk, rR_surf n h28, f1, f2, f3, f4, f5, f6, f7]
  have f8 : decide (524288 + 60 < 2 ^ 34) = true := by decide
  rw [f8]
  simp only [fR]
  rfl

/-- The record: load, x, y and z at bytes 0, 4, 8, 12; surface records at 0x40040 and 0x40080. -/
def rRec : Rec64 := BitVec.ofNat 512 (0x5A52 + 12 * 2 ^ 240 + 8 * 2 ^ 248 + 4 * 2 ^ 256 + 1 * 2 ^ 280 + 0x1000 * 2 ^ 288 + 0x2000 * 2 ^ 320 + 4 * 2 ^ 352
  + 0xFFFFFFF000040080 * 2 ^ 384 + 0xFFFFFFF000040040 * 2 ^ 448)

def tRepM : Memory := recM 0x40000 rRec (recM 0x40040 (rR (globalOf 0)) (recM 0x40080 (rR (globalOf 0)) tL.mem))
def tRepMem : RepMem := { (default : RepMem) with lanes := 1 }
def tRepOp (off : Nat) : RepOp := { (default : RepOp) with addr := mkAddr 0 off, mems := [tRepMem] }

theorem eRecord_of (s : State) (self a g off : Nat) (r : Rec64) (hl : locOf self a = some (.mem g off))
    (hq : s.eRead 0 (.mem g off) 64 = (s, .ok (bytesOf 64 r.toNat, false))) (hn : BitVec.ofNat 512 (natOf (bytesOf 64 r.toNat)) = r) :
    s.eRecord 0 self a = (s, .ok (r, false)) := by
  simp only [State.eRecord, hl, hq, hn]

theorem Own.recordAt {s : State} (h : Own s) (self off : Nat) (r : Rec64) (m : Memory) (ho : off < 2 ^ 21)
    (hm : ∀ i, i < 64 → Memory.read s.mem (off + i) = Memory.read (recM off r m) (off + i)) :
    s.eRecord 0 self (mkAddr 0 off).toNat = (s, .ok (r, false)) := by
  have ha := addr0 off (by omega)
  have hp := Config.package.isLt
  have hl : locOf self (mkAddr 0 off).toNat = some (.mem (globalOf 0) off) := by
    have e : (mkAddr 0 off).toNat = Config.package.toNat * 2 ^ 52 + off := by
      simp only [mkAddr, BitVec.toNat_ofNat]; omega
    have h3 : (mkAddr 0 off).toNat % 2 ^ 36 = off := by rw [e]; omega
    have hg : addrPkg (mkAddr 0 off).toNat * nCols + addrCol (mkAddr 0 off).toNat = globalOf 0 := by rw [ha.1, ha.2.1]; rfl
    have c1 : ¬ 2 ≤ addrAp (mkAddr 0 off).toNat := by rw [ha.2.2.2]; decide
    have c2 : ¬ isSelfAlias (mkAddr 0 off).toNat = true := by rw [addr0_self off (by omega)]; decide
    have c3 : addrCol (mkAddr 0 off).toNat < nCols := by rw [ha.2.1]; decide
    rw [locOf, if_neg c1, if_neg c2, if_pos c3, hg, h3]
  have hb : ((List.range 64).map fun i => Memory.read s.mem (off + i)) = bytesOf 64 r.toNat := by
    rw [← recM_at off r m]
    exact List.map_congr_left fun i hi => hm i (List.mem_range.mp hi)
  have hn : BitVec.ofNat 512 (natOf (bytesOf 64 r.toNat)) = r := by
    rw [natOf_bytesOf, show (256 : Nat) ^ 64 = 2 ^ 512 from by norm_num, ← BitVec.toNat_inj, BitVec.toNat_ofNat]
    simp [Nat.mod_eq_of_lt r.isLt]
  have hq := h.eRead off 64 ho
  generalize (mkAddr 0 off).toNat = a at hl ⊢
  rw [hb] at hq
  exact eRecord_of s self a _ off r hl hq hn

theorem tRep_own (m : Memory) (o : RepOp) (h : ∀ i, i < 8 → Memory.read m (0x1E00000 + i) = Memory.read tL.mem (0x1E00000 + i)) :
    Own (tEng m (.rep o)) := tEng_own _ _ h fun _ => by simp

theorem tRepM_entry (i : Nat) : Memory.read tRepM (0x1E00000 + i) = Memory.read tL.mem (0x1E00000 + i) := by
  rw [tRepM, recM_other _ _ _ _ (.inr (by omega)), recM_other _ _ _ _ (.inr (by omega)), recM_other _ _ _ _ (.inr (by omega))]

theorem repOk_rRec (i : Rec64) (n : Nat) (hi : surfOf i = fR n) (hk : surfOk i = true) : repOk rRec i i = true := by
  have h1 : repSurfOk (fR n) (repRecOf rRec).es = true := by
    have e : repSurfOk (fR n) (repRecOf rRec).es = repSurfOk (fR 0) (repRecOf rRec).es := rfl
    rw [e]; decide
  have h2 : repCap (fR n) (repRecOf rRec).es = 4 := by
    have e : repCap (fR n) (repRecOf rRec).es = repCap (fR 0) (repRecOf rRec).es := rfl
    rw [e]; decide
  simp only [repOk, hi, hk, h1, h2, beq_self_eq_true, Bool.true_or, Bool.and_true]
  decide

theorem repRead_of (s : State) (a self x y : Nat) (r i : Rec64) (h1 : s.eRecord 0 0 a = (s, .ok (r, false))) (hg : addrPkg a * nCols + addrCol a = self)
    (i1 : (repRecOf r).ins = x) (i2 : (repRecOf r).outs = y) (z1 : x % 64 = 0) (z2 : y % 64 = 0) (h2 : s.eRecord 0 self x = (s, .ok (i, false)))
    (h3 : s.eRecord 0 self y = (s, .ok (i, false))) (hr : repOk r i i = true) : s.repRead 0 a = (s, .got 0 r i i) := by
  have c1 : ¬ (x % 64 ≠ 0) := by simp [z1]
  have c2 : ¬ (y % 64 ≠ 0) := by simp [z2]
  simp only [State.repRead, h1, hg, i1, i2, if_neg c1, if_neg c2, h2, h3, hr, if_true]

theorem test_meets_CollectiveEvents_repart :
    (let s := tEng tRepM (.rep (tRepOp 0x40000))
     tabGet s.ops 5 = some ⟨0, 0, false, .rep (tRepOp 0x40000)⟩ ∧ (tRepOp 0x40000).moved = false ∧ (tRepOp 0x40000).members = []
      ∧ (tRepOp 0x40000).mems = [tRepMem] ∧ s.forkDone tRepMem.col tRepMem.lanes tRepMem.bound = true
      ∧ s.repRead 0 (tRepOp 0x40000).addr.toNat = (s, .got 0 rRec (rR (globalOf 0)) (rR (globalOf 0)))
      ∧ globalOf tRepMem.col ∈ repMembers (rR (globalOf 0))
      ∧ ∀ e, e ∈ s.ops → ∀ g p, e.2 = some g → g.body = .rep p → p.members = [])
    ∧ (let o := { tRepOp 0 with moved := true }
       tabGet (tEng tL.mem (.rep o)).ops 5 = some ⟨0, 0, false, .rep o⟩ ∧ (o.mems.map fun m => 16 * m.col + m.handle).Nodup) := by
  have g28 : globalOf 0 < 2 ^ 28 := by have := globalOf_lt; simp only [nGlobal] at this; omega
  have hs : surfOf (rR (globalOf 0)) = fR (globalOf 0) := rR_surf _ g28
  have hk := rR_ok _ globalOf_lt
  have ho := tRep_own tRepM (tRepOp 0x40000) fun i _ => tRepM_entry i
  have hm : (tEng tRepM (.rep (tRepOp 0x40000))).mem = tRepM := rfl
  refine ⟨⟨rfl, rfl, rfl, rfl, rfl, ?_, ?_, ?_⟩, ⟨rfl, by simp [tRepOp]⟩⟩
  · have ha := addr0 0x40000 (by decide)
    have h1 := ho.recordAt 0 0x40000 rRec (recM 0x40040 (rR (globalOf 0)) (recM 0x40080 (rR (globalOf 0)) tL.mem)) (by decide) fun _ _ => rfl
    have h2 := ho.record 0x40040 (rR (globalOf 0)) (recM 0x40080 (rR (globalOf 0)) tL.mem) (by decide) fun i hi => by
      rw [hm, tRepM, recM_other _ _ _ _ (.inr (by omega))]
    have h3 := ho.record 0x40080 (rR (globalOf 0)) tL.mem (by decide) fun i hi => by
      rw [hm, tRepM, recM_other _ _ _ _ (.inr (by omega)), recM_other _ _ _ _ (.inr (by omega))]
    have i1 : (repRecOf rRec).ins = (selfAddr 0x40040).toNat := by decide
    have i2 : (repRecOf rRec).outs = (selfAddr 0x40080).toNat := by decide
    have hg : addrPkg (mkAddr 0 0x40000).toNat * nCols + addrCol (mkAddr 0 0x40000).toNat = globalOf 0 := by rw [ha.1, ha.2.1]; rfl
    rw [show (tRepOp 0x40000).addr = mkAddr 0 0x40000 from rfl]
    exact repRead_of _ _ _ _ _ _ _ h1 hg i1 i2 (by decide) (by decide) h2 h3 (repOk_rRec _ _ hs hk)
  · rw [repMembers, hs]; exact List.mem_map.mpr ⟨0, List.mem_range.mpr (by decide), by show globalOf 0 + 0 * 1 = globalOf 0; simp only [Nat.zero_mul, Nat.add_zero]⟩
  · intro e he g p h1 h2
    have e' : e = (5, some ⟨0, 0, false, .rep (tRepOp 0x40000)⟩) := List.mem_singleton.mp he
    rw [e'] at h1
    have h3 := congrArg EngOp.body (Option.some.inj h1)
    rw [h2] at h3
    rw [← OpBody.rep.inj h3]; rfl

/-! The checks of every member and the move: one member, with 0 or 5 elements, its output region at 0x80000 or 0x90000. -/

def rQ (n : Nat) : Rec64 := BitVec.ofNat 512 (n * 2 ^ 66 + (1 * 2 ^ 22 + 1 * 2 ^ 38 + 0x90000 * 2 ^ 94 + 13 * 2 ^ 128 + 16 * 2 ^ 160 + 4 * 2 ^ 256))

theorem rQ_surf (n : Nat) (h : n < 2 ^ 28) : surfOf (rQ n) = { fR n with base := 0x90000 } := by
  have e : (rQ n).toNat = n * 2 ^ 66 + (1 * 2 ^ 22 + 1 * 2 ^ 38 + 0x90000 * 2 ^ 94 + 13 * 2 ^ 128 + 16 * 2 ^ 160 + 4 * 2 ^ 256) := by
    rw [rQ, BitVec.toNat_ofNat, Nat.mod_eq_of_lt]
    omega
  simp only [surfOf, fR, fieldNat, e, Nat.shiftRight_eq_div_pow, Surf.mk.injEq, List.cons.injEq]
  refine ⟨?_, ?_, ?_, ?_, ⟨?_, ?_, ?_, ?_, trivial⟩, ⟨?_, ?_, ?_, ?_, trivial⟩, ?_, ?_, ?_, ?_, ?_, ?_, ?_⟩ <;> omega

def tRepAll (outs : Rec64) (joined : Bool) : RepOp :=
  { addr := 5, n := 0, record := rRec, ins := rR (globalOf 0), outs := outs, members := [globalOf 0], mems := if joined then [tRepMem] else [], moved := false }

/-- A machine in which column 0 has named an address first, and its input count is n. -/
def tRepS (o : RepOp) (addr : DWord) (n : Byte) : State := { tEng ((0x2000, n) :: tL.mem) (.rep o) with repAddrs := [(0, [addr])] }

theorem Own.repAddrs {s : State} (h : Own s) (l : Tab (List DWord)) : Own { s with repAddrs := l } := ⟨h.trans, h.pois, h.ups, h.live, h.entry, h.quiet⟩

theorem tRepS_own (o : RepOp) (a : DWord) (n : Byte) : Own (tRepS o a n) :=
  (tEng_own ((0x2000, n) :: tL.mem) (.rep o) (fun i _ => by
    have e : ¬ (0x2000 = 0x1E00000 + i) := by omega
    simp only [Memory.read, tabGet, e, if_false]) fun _ => by simp).repAddrs _

theorem globalOf_mod : globalOf 0 % nCols = 0 := by simp only [globalOf, nCols]; omega

/-- Where each member has issued but one has named another record. -/
theorem test_meets_CollectiveEvents_repart_named :
    let o := tRepAll (rR (globalOf 0)) false
    let s := tRepS o 7 0
    o.moved = false ∧ o.members ≠ [] ∧ s.repReady 0 o = true ∧ ¬ ∀ g, g ∈ o.members → s.repNamed 0 o g = some o.addr := by
  intro o s
  have hn : s.repNamed 0 o (globalOf 0) = some 7 := by
    simp only [State.repNamed, pkgOf_globalOf, globalOf_mod, ne_eq, not_true_eq_false, if_false]
    rfl
  have hm : o.members = [globalOf 0] := rfl
  have ha : (some (7 : DWord) != some o.addr) = true := by decide
  refine ⟨rfl, List.cons_ne_nil _ _, ?_, fun h => ?_⟩
  · simp only [State.repReady, hm, List.all_cons, List.all_nil, List.any_cons, List.any_nil, hn, ha]; rfl
  · have h := h (globalOf 0) (List.mem_singleton.mpr rfl)
    rw [hn] at h; exact absurd h (by decide)

theorem tRepAll_named (outs : Rec64) (n : Byte) : (tRepS (tRepAll outs true) 5 n).repReady 0 (tRepAll outs true) = true
    ∧ ∀ g, g ∈ (tRepAll outs true).members → (tRepS (tRepAll outs true) 5 n).repNamed 0 (tRepAll outs true) g = some (tRepAll outs true).addr := by
  have hm : (tRepAll outs true).members = [globalOf 0] := rfl
  have hn : (tRepS (tRepAll outs true) 5 n).repNamed 0 (tRepAll outs true) (globalOf 0) = some 5 := by
    simp only [State.repNamed, pkgOf_globalOf, globalOf_mod, ne_eq, not_true_eq_false, if_false]
    rfl
  have hl : (tRepAll outs true).locals = [0] := by simp [RepOp.locals, hm, pkgOf_globalOf, globalOf_mod]
  refine ⟨?_, fun g hg => ?_⟩
  · simp only [State.repReady, hm, hl, List.all_cons, List.all_nil, hn]
    simp only [Bool.and_eq_true, Bool.or_eq_true]
    exact ⟨⟨rfl, trivial⟩, .inr ⟨rfl, trivial⟩⟩
  · rw [hm, List.mem_singleton] at hg
    rw [hg, hn]; rfl

theorem scan_words (f : Nat → Acc → Acq Unit) (n : Nat) (accs : List Acc) (h : ∀ i, i < n → ∀ k, k ∈ accs → f i k = .ok ()) :
    (List.range n).foldl (fun a i => accs.foldl (fun a k => Scan.and a (f i k) k) a) Scan.ok = .ok := by
  have go : ∀ (l : List Nat), (∀ i, i ∈ l → i < n) → l.foldl (fun a i => accs.foldl (fun a k => Scan.and a (f i k) k) a) Scan.ok = .ok := by
    intro l
    induction l with
    | nil => exact fun _ => rfl
    | cons i l ih =>
      intro hl
      have h1 : accs.foldl (fun a k => Scan.and a (f i k) k) Scan.ok = .ok := by
        have hi := h i (hl i (List.mem_cons_self ..))
        clear h ih hl
        induction accs with
        | nil => rfl
        | cons k ks ih2 =>
          rw [List.foldl_cons, hi k (List.mem_cons_self ..)]
          exact ih2 fun k hk => hi k (List.mem_cons_of_mem _ hk)
      rw [List.foldl_cons, h1]
      exact ih fun j hj => hl j (List.mem_cons_of_mem _ hj)
  exact go _ fun i hi => List.mem_range.mp hi

/-- The regions of that record: 64 bytes of input at 0x80000, of output at 0x90000, the counts at 0x2000 and 0x1000. -/
theorem tRepAll_regions (outs : Rec64) (b : Nat) (ho : surfOf outs = { fR (globalOf 0) with base := b }) :
    (tRepAll outs true).inR = (0x80000, 64) ∧ (tRepAll outs true).outR = (b, 64) ∧ (tRepAll outs true).inC = (0x2000, 4)
      ∧ (tRepAll outs true).outC = (0x1000, 4) := by
  have g28 : globalOf 0 < 2 ^ 28 := by have := globalOf_lt; simp only [nGlobal] at this; omega
  have hi : surfOf (rR (globalOf 0)) = fR (globalOf 0) := rR_surf _ g28
  have hc : ∀ b, repCap { fR (globalOf 0) with base := b } 1 = 4 := fun b => by simp [repCap, fR]
  have he : (repRecOf rRec).es = 1 := by decide
  have h1 : (repRecOf rRec).incnt = 0x2000 := by decide
  have h2 : (repRecOf rRec).outcnt = 0x1000 := by decide
  have i0 : (tRepAll outs true).ins = rR (globalOf 0) := rfl
  have r0 : (tRepAll outs true).record = rRec := rfl
  have o0 : (tRepAll outs true).outs = outs := rfl
  refine ⟨?_, ?_, ?_, ?_⟩
  · rw [RepOp.inR, i0, r0, hi, he]; simp [repCap, fR]
  · rw [RepOp.outR, o0, r0, ho, he, hc]
  · rw [RepOp.inC, r0, h1]
  · rw [RepOp.outC, r0, h2]

theorem test_meets_CollectiveEvents_repart_overlaps :
    let o := tRepAll (rR (globalOf 0)) true
    (tRepS o 5 0).repReady 0 o = true ∧ (∀ g, g ∈ o.members → (tRepS o 5 0).repNamed 0 o g = some o.addr) ∧ o.overlaps = true := by
  have g28 : globalOf 0 < 2 ^ 28 := by have := globalOf_lt; simp only [nGlobal] at this; omega
  have h := tRepAll_regions (rR (globalOf 0)) 0x80000 (rR_surf _ g28)
  have k := tRepAll_named (rR (globalOf 0)) 0
  refine ⟨k.1, k.2, ?_⟩
  rw [RepOp.overlaps, h.1, h.2.1]; rfl

theorem eGet_of {s : State} {l : ELoc} {n : Nat} {bs : List Byte} (h : s.eRead 0 l n = (s, .ok (bs, false))) : s.eGet 0 l n = (s, natOf bs, false) := by
  simp only [State.eGet, h]

theorem Own.repCount {s : State} (h : Own s) (a v : Nat) (ho : a < 2 ^ 21)
    (hv : natOf ((List.range 4).map fun i => Memory.read s.mem (a + i)) = v) : s.repCount 0 (globalOf 0) (a, 4) = (s, v, false) := by
  rw [← hv]; exact eGet_of (h.eRead a 4 ho)

theorem tRepS_mem (o : RepOp) (a : DWord) (n : Byte) : (tRepS o a n).mem = (0x2000, n) :: tL.mem := rfl

theorem tRep_counts (n : Byte) (hn : n = 0 ∨ n = 5) :
    natOf ((List.range 4).map fun i => Memory.read ((0x2000, n) :: tL.mem) (0x2000 + i)) = n.toNat
      ∧ natOf ((List.range 4).map fun i => Memory.read ((0x2000, n) :: tL.mem) (0x1000 + i)) = 0 := by
  obtain rfl | rfl := hn <;> decide

theorem test_meets_CollectiveEvents_repart_move (n : Byte) (hn : n = 0 ∨ n = 5) :
    let o := tRepAll (rQ (globalOf 0)) true
    let s := tRepS o 5 n
    s.repReady 0 o = true ∧ (∀ g, g ∈ o.members → s.repNamed 0 o g = some o.addr) ∧ o.overlaps = false
      ∧ (∀ g, g ∈ o.members → s.scanMember 0 o g = .ok ∧ s.repCount 0 g o.inC = (s, n.toNat, false) ∧ s.repCount 0 g o.outC = (s, 0, false))
      ∧ repCap (surfOf o.ins) (repRecOf o.record).es = 4 ∧ (repRecOf o.record).cap = 4 := by
  intro o s
  have g28 : globalOf 0 < 2 ^ 28 := by have := globalOf_lt; simp only [nGlobal] at this; omega
  obtain ⟨h1, h2, h3, h4⟩ : o.inR = (0x80000, 64) ∧ o.outR = (0x90000, 64) ∧ o.inC = (0x2000, 4) ∧ o.outC = (0x1000, 4) :=
    tRepAll_regions (rQ (globalOf 0)) 0x90000 (rQ_surf _ g28)
  have k := tRepAll_named (rQ (globalOf 0)) n
  have hmem : s.mem = (0x2000, n) :: tL.mem := tRepS_mem o 5 n
  have w := tRepS_own o 5 n
  refine ⟨k.1, k.2, ?_, fun g hg => ?_, ?_, by decide⟩
  · rw [RepOp.overlaps, h1, h2, h3, h4]; rfl
  · rw [show o.members = [globalOf 0] from rfl, List.mem_singleton] at hg
    rw [hg]
    refine ⟨?_, ?_, ?_⟩
    · have c : ∀ (b m : Nat) (accs : List Acc), b + m < 2 ^ 21 → (∀ k, k ∈ accs → k ≠ .fetch) →
          (List.range (m / 4)).foldl (fun a i => accs.foldl (fun a k => a.and (s.eCheck 0 (.mem (globalOf 0) (b + 4 * i)) 4 k) k) a) Scan.ok = .ok :=
        fun b m accs hb ha => scan_words (fun i k => s.eCheck 0 (.mem (globalOf 0) (b + 4 * i)) 4 k) _ accs fun i hi k hk => w.eCheck _ 4 k (by omega) (ha k hk)
      simp only [State.scanMember, h1, h2, h3, h4]
      rw [c 0x2000 4 [.read, .write] (by decide) (by decide), c 0x1000 4 [.read, .write] (by decide) (by decide),
        c 0x80000 64 [.read, .write] (by decide) (by decide), c 0x90000 64 [.write] (by decide) (by decide)]
    · rw [h3]; exact w.repCount 0x2000 n.toNat (by decide) (by rw [hmem]; exact (tRep_counts n hn).1)
    · rw [h4]; exact w.repCount 0x1000 0 (by decide) (by rw [hmem]; exact (tRep_counts n hn).2)
  · have he : (repRecOf rRec).es = 1 := by decide
    show repCap (surfOf (rR (globalOf 0))) (repRecOf rRec).es = 4
    rw [rR_surf _ g28, he]; simp [repCap, fR]

/-! ## Hypotheses met: the step, the encoder, the memories -/

/-- The word `iadd.i32 v5, v4, v3` where the machine fetches. -/
def tStep : State := State.reset.withFetchWord 64 0x08000A0803000000

theorem test_meets_StepRunsDecoded : tStep.IssuesNow 0 0 ∧ tStep.fetch 0 0 = (tStep, .word 0x08000A0803000000)
    ∧ classify 0x08000A0803000000 = .ok (.iadd ⟨false, 0, false, .v 5, .v 4, .i32, .reg (.v 3) (.v 0) false 0⟩)
    ∧ tStep.Sound ∧ isSelfAlias ((tStep.col 0).slot 0).pc.toNat = true
    ∧ tStep.check (tStep.ctxOf 0) 0 (addrOff ((tStep.col 0).slot 0).pc.toNat) 8 (addrAp ((tStep.col 0).slot 0).pc.toNat == 1) .fetch = .page tPage
    ∧ tStep.accPois 0 tPage ((tStep.col 0).slot 0).pc 8 = false :=
  ⟨⟨rfl, rfl, rfl, rfl, rfl, rfl⟩, by decide, by decide, ⟨rfl, fun _ => Nat.zero_lt_succ 4⟩, by decide, by decide, by decide⟩

theorem test_meets_StepRunsDecoded_refused :
    (let s := State.reset.withFetchWord 64 0x0300000000000000
     s.IssuesNow 0 0 ∧ s.fetch 0 0 = (s, .word 0x0300000000000000) ∧ classify 0x0300000000000000 = .error (.unassignedOpcode 0x018))
    ∧ (let s := tC fun c => c.modSlot 0 fun sp => { sp with pc := selfAddr 0x200000 }
       s.IssuesNow 0 0 ∧ (s.fetch 0 0).2 = .miss) :=
  ⟨⟨⟨rfl, rfl, rfl, rfl, rfl, rfl⟩, by decide, by decide⟩, ⟨⟨rfl, rfl, rfl, rfl, rfl, rfl⟩, by decide⟩⟩

theorem test_meets_StepRunsDecoded_finish :
    let t : State := { tL with sch.queues := [] }
    t.sch.collq = [] ∧ t.sch.queues = [] ∧ t.sch.mgmt = [] ∧ t.mintq = [] ∧ t.dirty.length + 4 * t.vault.length ≤ 1024 :=
  ⟨rfl, rfl, rfl, rfl, by decide⟩

theorem test_meets_DecodeOfEncode : Instr.encodable (.fadd ⟨true, 3, true, .v 6, .v 2, .f32, .reg (.s 63) (.v 0) true 15⟩) = true
    ∧ Instr.encodable (.halfIadd false ⟨1, false, 0, 0xFD, true, false, false, 0⟩ ⟨0x12, ⟨2, true, 5, 9, false, false, false, 2⟩⟩) = true
    ∧ Instr.encodable (.loop ⟨false, 0, false, .s 9, .v 0, .n32, .imm 0xFFFFFA 0⟩) = true := ⟨by decide, by decide, by decide⟩

theorem test_meets_EncodeOfDecode : classify 0x00C11201FFFFFA10 = .ok (.loop ⟨false, 0, false, .s 9, .v 0, .n32, .imm 0xFFFFFA 0⟩)
    ∧ classify 0x0300000000000000 = .error (.unassignedOpcode 0x018) ∧ (illegalInfo 0x0300000000000000).isSome = true :=
  ⟨by decide, by decide, by decide⟩

theorem test_meets_MemoryFormKept : tStep.memWf = true ∧ (∃ t, step tStep = .next t) :=
  ⟨by decide, _, rfl⟩

/-! ## Worked examples of the spec, and single words -/

/-- The state after a word is performed (the state itself where it is not). -/
def tAfter (w : DWord) (s : State) : State :=
  match classify w with
  | .ok i => (match exec i s with
    | .next t => t
    | _ => s)
  | .error _ => s

/-- A vector register with a value per lane. -/
def tVec (n : Nat) (f : Nat → Word) : List (Nat × Word) := (lanes32.map fun l => (32 * n + l, f l)).filter fun e => e.2 ≠ 0

/-- The example of the compaction: v5 holds the lane's number, v6 holds 1 in odd lanes. -/
def tOdd : State := tC fun c => { c with v := tVec 5 (BitVec.ofNat 32) ++ tVec 6 fun l => BitVec.ofNat 32 (l % 2) }

theorem test_mov_lane : ((tAfter 0x0C800BF000006800 tL).col 0).rdV 5 30 = 30 := by decide
theorem test_and_immediate : ((tAfter 0x09E00C0B000001D0 tOdd).col 0).rdV 6 31 = 1 ∧ ((tAfter 0x09E00C0B000001D0 tOdd).col 0).rdV 6 30 = 0 := by decide
theorem test_scanc : ((tAfter 0x1120120C00000008 tOdd).col 0).rdV 9 31 = 15 ∧ ((tAfter 0x1120120C00000008 tOdd).col 0).rdV 9 2 = 1 := by decide
theorem test_redc : ((tAfter 0x1101180C00000000 tOdd).col 0).rdS 12 = 16 := by decide
theorem test_icmp : ((tAfter 0x0C21840D00000002 tOdd).col 0).rdP 2 = 0xAAAAAAAA := by decide
theorem test_vote : ((tAfter 0x90C11D8400000000 (tC fun c => { c with p := [(2, 0xAAAAAAAA)] })).col 0).rdS 14 = 0xAAAAAAAA := by decide

/-- The last word of the packing example: 17.0 ties away, 500.0 saturates. -/
def tPack : State := tC fun c => { c with
  v := tVec 3 (fun _ => 0x41880000) ++ tVec 4 (fun _ => 0x43FA0000) ++ tVec 8 (fun _ => 0xC038) }

theorem test_fpack : ((tAfter 0x9B00100604005009 tPack).col 0).rdV 8 7 = 0x7E59C038 ∧ ((tAfter 0x9B00100604005009 tPack).col 0).fpflags = 0x14 := by decide
theorem test_i2f : ((tAfter 0x1AC0020200002000 (tC fun c => { c with v := tVec 1 fun _ => 1 })).col 0).rdV 1 0 = 0x3F800000 := by decide

/-- The A tile of the TDESC example. -/
def tDesc : State := tC fun c => { c with s := [(16, 1), (17, 0x0000000400080A00), (18, 0x0000100000000020), (19, 0x0000002000001400)] }
def tDescD : TileDesc := tabGet ((tAfter 0x3801C32000000000 tDesc).col 0).t 1

theorem test_tdesc : descKind tDescD = 1 ∧ descTy tDescD = 10 ∧ descP tDescD = 8 ∧ descKs tDescD = 4 ∧ descRows tDescD = 32 ∧ descBase tDescD = 0x1000
    ∧ descExp tDescD = 0x1400 ∧ descStride tDescD = 32 ∧ tileRanges tDescD = [(0x1000, 0x400), (0x1400, 32), (0x1420, 32), (0x1440, 32), (0x1460, 32)] := by
  decide

/-- R40's block. -/
def tBlock : List Byte := bytesOf 4 0x1000 ++ bytesOf 4 0x1003 ++ bytesOf 4 0xFFE ++ (List.replicate 61 (bytesOf 4 0x1000)).flatten

theorem test_compress : compressMode tBlock = 3 ∧ modeSectors 3 = 3 ∧ (compressBlock tBlock).2.take 8 = [0x00, 0x10, 0x00, 0x00, 0x00, 0x03, 0xFE, 0x00] := by
  decide

/-- R223's block: code 15 with b = 96 and S = 2.0. -/
theorem test_hn4 : (hn4Value 15 96 0x40000000).1 = 0x3F40C0C1 := by decide

theorem test_sfckey : curveKey false 5 3 1 = 0x57 := by decide
theorem test_column_20000 : coreOf 20000 = 2500 ∧ clusterOf 20000 = 416 ∧ stackOf 416 / 2 = 6 := by decide

/-- R228's group: 1.5, -0.375, 0, 0, 0, 0, 0, 0.5. -/
theorem test_align_a : (alignA 4 [.num false 3 2, .num true 3 8, .num false 0 1, .num false 0 1, .num false 0 1, .num false 0 1, .num false 0 1,
    .num false 1 2] false).m = [6, -2, 0, 0, 0, 0, 0, 2] := by decide

/-- 0x7FFFFFFF + 1 wraps without .sat and saturates with it. -/
def tMax : State := tC fun c => { c with v := tVec 4 (fun _ => 0x7FFFFFFF) ++ tVec 3 fun _ => 1 }
theorem test_iadd_wraps : ((tAfter 0x08000A0803000000 tMax).col 0).rdV 5 31 = 0x80000000 := by decide

/-- R223's own example: a block of 0.75, -0.375, 0.1, +0 and -0 in a superblock of scale 2.0; step 1 for an infinity. -/
theorem test_hn4Encode : hn4ScaleByte (hn4Max (hn4Block [0x3F400000, 0xBEC00000, 0x3DCCCCCD, 0, 0x80000000] 0)) 0x40000000 = 96
    ∧ [0x3F400000, 0xBEC00000, 0x3DCCCCCD, 0, 0x80000000].map (hn4CodeOf 96 0x40000000) = [15, 2, 9, 8, 7]
    ∧ (hn4Encode [0xFF800000]).1 = 0x7FC00000 := by decide

end Sys2Proof.Tests
end

/-!
SUPPORT. Power, reset pins and firmware download (R27, R57 to R60): what each of these steps answers, and the obligations O1, O2, O60.
-/

namespace Sys2Proof.Machine

/-- Settles O60: every table of the reset state is empty, and an empty table reads as its default. -/
theorem resetState : Obligations.ResetState := by
  unfold Obligations.ResetState
  exact ⟨State.memWf_reset, rfl, rfl, rfl, rfl, rfl, rfl, fun _ => rfl, fun _ => rfl, fun _ _ => ⟨rfl, rfl⟩, fun _ => rfl, fun _ => rfl, rfl, rfl,
    rfl, fun _ => rfl, fun _ _ => rfl⟩

/-! ## Power and the reset pins -/

theorem State.lost_lose (s : State) (powered : Bool) : Lost (s.lose powered) :=
  ⟨rfl, rfl, rfl, rfl, rfl, rfl, rfl, rfl, rfl, rfl, rfl⟩

theorem exec_powerUp {s : State} (h : s.boot.powered = false) : exec .powerUp s = .next { s with boot := { s.boot with
    powered := true, rom := true
    link0 := { s.boot.link0 with training := !s.boot.perst0 }, link1 := { s.boot.link1 with training := !s.boot.perst1 } } } := by
  show execPowerUp s = _
  unfold execPowerUp; rw [h]; rfl

theorem exec_pwrGoodDeassert {s : State} (h : s.boot.powered = true) : exec .pwrGoodDeassert s = .next (s.lose false) := by
  show execPwrGoodDeassert s = _
  unfold execPwrGoodDeassert; rw [h]; rfl

theorem exec_perst0NAssert {s : State} (h : s.boot.perst0 = false) : exec .perst0NAssert s = .next { s.lose s.boot.powered with
    boot := { (s.lose s.boot.powered).boot with perst0 := true, link1 := s.boot.link1 } } := by
  show execPerst0NAssert s = _
  unfold execPerst0NAssert; rw [h]; rfl

theorem exec_perst0NDeassert {s : State} (h : s.boot.perst0 = true) : exec .perst0NDeassert s = .next { s with
    boot := { s.boot with perst0 := false, link0 := { s.boot.link0 with training := s.boot.rom } } } := by
  show execPerst0NDeassert s = _
  unfold execPerst0NDeassert; rw [h]; rfl

/-- Settles O1, by what each of the five pins' steps answers. -/
theorem powerAndResetPins : Obligations.PowerAndResetPins := by
  unfold Obligations.PowerAndResetPins
  refine ⟨fun s h => ?_, fun s h => ?_, fun s h => ?_, fun s h => ?_, fun s a => ?_⟩
  · exact ⟨_, exec_powerUp h, rfl, rfl, rfl, rfl, rfl, rfl⟩
  · exact ⟨_, exec_pwrGoodDeassert h, s.lost_lose false, rfl, rfl⟩
  · exact ⟨_, exec_perst0NAssert h, s.lost_lose s.boot.powered, rfl, rfl, rfl, rfl⟩
  · exact ⟨_, exec_perst0NDeassert h, rfl, rfl, rfl⟩
  · exact ⟨_, rfl, rfl, rfl, rfl, rfl⟩

/-! ## Firmware download -/

theorem exec_bootRomReady {s : State} (hr : s.boot.rom = true) (hp : s.boot.perst0 = false) (hs : s.boot.st = 0) :
    exec .bootRomReady s = .next { s with boot.st := 1 } := by
  show execBootRomReady s = _
  unfold execBootRomReady; rw [hr, hp, hs]; rfl

theorem exec_verifyAndStartJasper {s : State} (hl : s.boot.link0.up = true) : exec .verifyAndStartJasper s = .next (
    if s.boot.st ≠ 1 then { s with boot.err := 6 }
    else if s.imageErr 1 = 0 then s.startJasper else ({ s with boot.err := s.imageErr 1 }).bootEvent (s.imageErr 1) 1) := by
  show execVerifyAndStartJasper s = _
  unfold execVerifyAndStartJasper; rw [hl]
  by_cases h1 : s.boot.st = 1
  · rw [if_neg (by simp), if_neg (not_not.mpr h1), if_neg (not_not.mpr h1)]
    split
    · next h0 => rw [if_pos h0]
    · next h0 => rw [if_neg h0]
  · rw [if_neg (by simp), if_pos h1, if_pos h1]

theorem exec_verifyAndLoadMicrocode {s : State} (hl : s.boot.link0.up = true) (h3 : s.boot.st = 3) : exec .verifyAndLoadMicrocode s = .next (
    if s.imageErr 2 = 0 then { s with boot := { s.boot with st := 4, err := 0, cmd := 2, microM := s.imageM } }
    else ({ s with boot.err := s.imageErr 2 }).bootEvent (s.imageErr 2) 2) := by
  show execVerifyAndLoadMicrocode s = _
  unfold execVerifyAndLoadMicrocode; rw [hl, if_neg (by simp), if_neg (not_not.mpr h3)]
  split
  · next h0 => rw [if_pos h0]
  · next h0 => rw [if_neg h0]

theorem exec_memoryTrainingDone {s : State} (hs : s.boot.st = 2) (hj : s.boot.jasper = true) :
    exec .memoryTrainingDone s = .next { s with boot.st := 3 } := by
  show execMemoryTrainingDone s = _
  unfold execMemoryTrainingDone; rw [if_pos ⟨hs, hj⟩]

theorem exec_microcodeLoadDone {s : State} (hs : s.boot.st = 4) : exec .microcodeLoadDone s = .next { s with
    boot := { s.boot with st := 5, reached5 := true }, tabs := { s.tabs with curCtx := 0, noCtx := true, switching := false } } := by
  show execMicrocodeLoadDone s = _
  unfold execMicrocodeLoadDone; rw [if_pos hs]

theorem exec_stagingWrite {s : State} (off : Nat) (bytes : List Byte) (hl : s.boot.link0.up = true) : exec (.stagingWrite off bytes) s = .next (
    if crosses4K off bytes.length = false ∧ (s.boot.st = 1 ∨ s.boot.st = 3) ∧ off + bytes.length ≤ stagingBytes then
      { s with boot.staging := (List.range bytes.length).foldl (fun t i => tabSet t (off + i) (bytes.getD i 0)) s.boot.staging }
    else s) := by
  show execStagingWrite off bytes s = _
  unfold execStagingWrite; rw [hl, if_neg (by simp)]
  by_cases hc : crosses4K off bytes.length = true
  · rw [if_pos hc, if_neg (by simp [hc])]
  · rw [Bool.not_eq_true] at hc
    rw [if_neg (by simp [hc])]
    by_cases ha : (s.boot.st = 1 ∨ s.boot.st = 3) ∧ off + bytes.length ≤ stagingBytes
    · rw [if_pos ha, if_pos ⟨hc, ha⟩]
    · rw [if_neg ha, if_neg fun h => ha h.2]

/-- A run of consecutive keys written from `off` on reads as written, and every other key as before. -/
theorem tabGet_foldl_range {α : Type} [DecidableEq α] [Inhabited α] (f : Nat → α) (off n : Nat) (t : Tab α) (a : Nat) :
    tabGet ((List.range n).foldl (fun t i => tabSet t (off + i) (f i)) t) a = if off ≤ a ∧ a < off + n then f (a - off) else tabGet t a := by
  induction n with
  | zero => rw [if_neg (by omega)]; rfl
  | succ n ih =>
    rw [List.range_succ, List.foldl_append, List.foldl_cons, List.foldl_nil, tabGet_tabSet, ih]
    by_cases ha : a = off + n
    · rw [if_pos ha, if_pos (by omega), show a - off = n by omega]
    · rw [if_neg ha]; exact if_congr (by omega) rfl rfl

/-- A boot event keeps STATE, ERR and the running firmware. -/
theorem State.boot_bootEvent (s : State) (err cmd : Nat) : (s.bootEvent err cmd).boot.st = s.boot.st ∧ (s.bootEvent err cmd).boot.err = s.boot.err
    ∧ (s.bootEvent err cmd).boot.jasper = s.boot.jasper := by
  unfold State.bootEvent State.postEvent; dsimp only; split <;> exact ⟨rfl, rfl, rfl⟩

/-- Settles O2, by what each step from the boot ROM on answers: a command's outcome is that of its image's checks. -/
theorem bootSequence : Obligations.BootSequence := by
  unfold Obligations.BootSequence
  refine ⟨fun s hr hp hs => ⟨_, exec_bootRomReady hr hp hs, rfl⟩, fun s hl h1 => ⟨_, exec_verifyAndStartJasper hl, ?_⟩,
    fun s hl h1 => ⟨_, exec_verifyAndStartJasper hl, if_pos h1⟩, fun s hs hj => ⟨_, exec_memoryTrainingDone hs hj, rfl⟩,
    fun s hl h3 => ⟨_, exec_verifyAndLoadMicrocode hl h3, ?_⟩, fun s hs => ⟨_, exec_microcodeLoadDone hs, rfl, rfl, rfl⟩,
    fun s off bytes hl hs hc hlen => ⟨_, exec_stagingWrite off bytes hl, ?_⟩, fun s off bytes hl h1 h3 => ?_⟩
  · rw [if_neg (not_not.mpr h1)]
    by_cases h0 : s.imageErr 1 = 0
    · rw [if_pos h0]; exact ⟨h0.symm, fun _ => ⟨rfl, rfl, rfl, rfl, rfl⟩, fun h => absurd h0 h⟩
    · obtain ⟨hst, herr, hj⟩ := State.boot_bootEvent { s with boot.err := s.imageErr 1 } (s.imageErr 1) 1
      rw [if_neg h0]; exact ⟨herr, fun h => absurd h h0, fun _ => ⟨hst.trans h1, hj⟩⟩
  · by_cases h0 : s.imageErr 2 = 0
    · rw [if_pos h0]; exact ⟨h0.symm, fun _ => ⟨rfl, rfl⟩, fun h => absurd h0 h⟩
    · obtain ⟨hst, herr, -⟩ := State.boot_bootEvent { s with boot.err := s.imageErr 2 } (s.imageErr 2) 2
      rw [if_neg h0]; exact ⟨herr, fun h => absurd h h0, fun _ => hst.trans h3⟩
  · rw [if_pos ⟨hc, hs, hlen⟩]
    exact ⟨rfl, fun a => tabGet_foldl_range (fun i => bytes.getD i 0) off bytes.length s.boot.staging a⟩
  · rw [exec_stagingWrite off bytes hl, if_neg]
    rintro ⟨-, hs, -⟩
    exact hs.elim h1 h3

end Sys2Proof.Machine

/-!
SUPPORT. Power limits, operating points and clock gating (R20 to R23): how far one change of a point goes, and the obligation O3.
-/

namespace Sys2Proof.Machine

/-! ## One point at a time -/

/-- An island that starts to change its point between two readings of the power state was not clock-gated, and goes by one point at most. -/
def Power.NearStep (p q : Power) : Prop :=
  ∀ c x, tabGet p.target c = none → tabGet q.target c = some x → p.point c ≠ 4 ∧ x ≤ p.point c + 1 ∧ p.point c ≤ x + 1

theorem Power.nearStep_of_target_eq {p q : Power} (h : q.target = p.target) : p.NearStep q := by
  intro c x hp hq
  rw [h, hp] at hq
  exact absurd hq (by simp)

/-- An island at rest that is not clock-gated has its point as its goal. -/
theorem Power.goal_of_rest {p : Power} {c : Nat} (ht : tabGet p.target c = none) (h4 : p.point c ≠ 4) : p.goal c = p.point c := by
  unfold Power.goal; rw [ht]; exact if_neg h4

/-- What sending an island to a point does to the changes in progress: nothing, or this island now changes to the point. -/
theorem Power.target_setPoint (p : Power) (c x : Nat) : (p.setPoint c x).target = p.target
    ∨ (p.setPoint c x).target = tabSet p.target c (some x) ∧ p.goal c ≠ x ∧ ¬(p.changing c = false ∧ p.point c = 4) := by
  unfold Power.setPoint
  split
  · exact .inl rfl
  · next hg =>
    split
    · exact .inl rfl
    · next hn => exact .inr ⟨rfl, hg, by simpa using hn⟩

theorem Power.nearStep_setPoint (p : Power) (c x : Nat) (hu : x ≤ p.goal c + 1) (hd : p.goal c ≤ x + 1) : p.NearStep (p.setPoint c x) := by
  obtain h | ⟨h, -, hn⟩ := p.target_setPoint c x
  · exact Power.nearStep_of_target_eq h
  · intro d y hp hq
    rw [h, tabGet_tabSet] at hq
    by_cases hdc : d = c
    · subst hdc
      rw [if_pos rfl] at hq
      obtain rfl := Option.some.inj hq
      have h4 : p.point d ≠ 4 := fun h4 => hn ⟨by unfold Power.changing; rw [hp]; rfl, h4⟩
      rw [Power.goal_of_rest hp h4] at hu hd
      exact ⟨h4, hu, hd⟩
    · rw [if_neg hdc, hp] at hq
      exact absurd hq (by simp)

theorem Power.nearStep_lower (p : Power) (c : Nat) : p.NearStep (p.lower c) := by
  unfold Power.lower
  split
  · exact p.nearStep_setPoint c _ (le_refl _) (by omega)
  · exact Power.nearStep_of_target_eq rfl

/-- Sending an island to a point changes neither the samples nor the limits. -/
theorem Power.setPoint_keeps (p : Power) (c x : Nat) :
    p.setPoint c x = { p with before := (p.setPoint c x).before, target := (p.setPoint c x).target } := by
  unfold Power.setPoint; repeat' split
  all_goals rfl

theorem Power.lower_keeps (p : Power) (c : Nat) : p.lower c = { p with before := (p.lower c).before, target := (p.lower c).target } := by
  unfold Power.lower
  split
  · exact p.setPoint_keeps c _
  · rfl

/-- A measurement (R23) keeps the last ten samples and the limits, and moves no island by more than a point. -/
theorem Power.measure_spec (p : Power) (w : Nat) :
    (p.measure w).samples = (w :: p.samples).take 10 ∧ (p.measure w).limit = p.limit ∧ p.NearStep (p.measure w) := by
  unfold Power.measure; dsimp only
  split
  · split
    · next c _ =>
      refine ⟨?_, ?_, Power.nearStep_lower { p with samples := (w :: p.samples).take 10, below := 0 } c⟩
      · rw [Power.lower_keeps]
      · rw [Power.lower_keeps]; rfl
    · exact ⟨rfl, rfl, Power.nearStep_of_target_eq rfl⟩
  · split
    · split
      · exact ⟨rfl, rfl, Power.nearStep_of_target_eq rfl⟩
      · split
        · next c _ _ =>
          refine ⟨?_, ?_, Power.nearStep_setPoint { p with samples := (w :: p.samples).take 10 } c _ (by omega) (by omega)⟩
          · rw [Power.setPoint_keeps]
          · rw [Power.setPoint_keeps]; rfl
        · exact ⟨rfl, rfl, Power.nearStep_of_target_eq rfl⟩
    · exact ⟨rfl, rfl, Power.nearStep_of_target_eq rfl⟩

/-! ## The steps -/

theorem exec_setPowerLimit {s : State} {r : Rec64} {rest : List Rec64} (hq : s.sch.mgmt = r :: rest) (hf : s.mgmtFree = true)
    (hk : recKind r = 0x11) (ht : recTrig r = 0 ∨ s.sch.mgmtTrig = .fired) :
    exec .setPowerLimit s = .next { s.popMgmt rest with pw.hostLimit := fieldNat r 223 192 } := by
  have hh : s.mgmtHead 0x11 = some (r, rest) := by unfold State.mgmtHead; rw [hq]; exact if_pos ⟨hf, hk, ht⟩
  show execSetPowerLimit s = _
  unfold execSetPowerLimit; rw [hh]

theorem exec_boardPowerLimitRequest (s : State) (w : Nat) : exec (.boardPowerLimitRequest w) s =
    .next (if 3000 ≤ w ∧ w ≤ 7500 then { s with pw.boardLimit := w } else s.mgmtEvent 0 3 0 0) := by
  show execBoardPowerLimitRequest w s = _
  unfold execBoardPowerLimitRequest; split <;> rfl

theorem exec_operatingPointChangeDone {s : State} {c p : Nat} (h : tabGet s.pw.target c = some p) : exec (.operatingPointChangeDone c) s =
    .next { s with pw := { s.pw with target := tabSet s.pw.target c none, points := tabSet s.pw.points c p } } := by
  show execOperatingPointChangeDone c s = _
  unfold execOperatingPointChangeDone; rw [h]

theorem exec_clusterClockGate {s : State} {c : Nat} (hc : c < 768) (hr : s.pw.runs c = true) (hb : s.clusterBusy c = false) :
    exec (.clusterClockGate c) s =
      .next { s with pw := { s.pw with before := tabSet s.pw.before c (s.pw.point c), points := tabSet s.pw.points c 4 } } := by
  show execClusterClockGate c s = _
  unfold execClusterClockGate; rw [if_pos ⟨hc, hr, hb⟩]

theorem Power.gated_of {w : Power} {c : Nat} (hc : c < 768) (h4 : w.point c = 4) (hn : w.changing c = false) : w.gated c = true := by
  simp [Power.gated, hc, h4, hn]

theorem exec_clusterWake_work {s : State} {c : Nat} (hg : s.pw.gated c = true) (hp : s.packetFor c = true) :
    exec (.clusterWake (.work c)) s = .next (s.wake c) := by
  show execClusterWake (.work c) s = _
  unfold execClusterWake; simp only [hg, hp, Bool.true_or, Bool.and_self, if_true]

theorem exec_clusterWake_packet {s : State} {p : Packet} (hg : s.pw.gated (pktCluster p) = true) (hf : s.foreign p = true)
    (hh : pktHere p = true) (hd : pktDest p < nCols) :
    exec (.clusterWake (.packet p)) s = .next { s.wake (pktCluster p) with net := s.net ++ [p] } := by
  show execClusterWake (.packet p) s = _
  unfold execClusterWake; simp only [hg, hf, hh, hd, decide_true, Bool.and_self, if_true]

/-- A clock-gated cluster that wakes starts back to the point it had. -/
theorem State.target_wake (s : State) (c : Nat) : tabGet (s.wake c).pw.target c = some (tabGet s.pw.before c) :=
  tabGet_tabSet_same s.pw.target c (some (tabGet s.pw.before c))

/-- Settles O3: a measurement by `Power.measure_spec`, the other steps by what each answers. -/
theorem powerManagement : Obligations.PowerManagement := by
  unfold Obligations.PowerManagement
  refine ⟨fun s r rest hq hf hk ht => ⟨_, exec_setPowerLimit hq hf hk ht, rfl, rfl⟩, fun s w hl hu => ?_, fun s w h => ?_, fun s w => ?_,
    fun s c p h => ⟨_, exec_operatingPointChangeDone h, rfl, tabGet_tabSet_same s.pw.points c p, ?_, fun d hd => ?_⟩,
    fun s c hc hr hb => ⟨_, exec_clusterClockGate hc hr hb, rfl, tabGet_tabSet_same s.pw.points c 4,
      tabGet_tabSet_same s.pw.before c _, ?_⟩,
    fun s c hc h4 hn hp => ⟨_, exec_clusterWake_work (Power.gated_of hc h4 hn) hp, rfl, s.target_wake c⟩,
    fun s c p hc h4 hn hf hh hpc hd => ?_⟩
  · rw [exec_boardPowerLimitRequest, if_pos ⟨hl, hu⟩]
  · refine ⟨_, exec_boardPowerLimitRequest s w, ?_⟩
    rw [if_neg (by omega)]; exact State.postEvent_pw _ _ _ _
  · obtain ⟨hs, hl, hn⟩ := s.pw.measure_spec w
    exact ⟨_, rfl, rfl, hs, hl, hn⟩
  · unfold Power.changing; dsimp only; rw [tabGet_tabSet_same]; rfl
  · exact ⟨tabGet_tabSet_ne s.pw.points p hd, tabGet_tabSet_ne s.pw.target none hd⟩
  · unfold Power.runs Power.point; dsimp only; rw [tabGet_tabSet_same]; simp
  · subst hpc
    exact ⟨_, exec_clusterWake_packet (Power.gated_of hc h4 hn) hf hh hd, rfl, s.target_wake _⟩

end Sys2Proof.Machine

/-!
SUPPORT. Links, ports, fabric links and the SPDM responder (R15, R18, R49, R50, R52, R61): what a lost port or link changes, and the obligation O10.
-/

namespace Sys2Proof.Machine

/-! ## A lost port or link: only packets, the event queue and free values change -/

theorem State.sent_howFar (s : State) (ps : List Packet) : s.Sent (s.howFar ps).1 := rfl

theorem State.sent_swap (s : State) (p q : Packet) : s.Sent (s.swap p q) := rfl

theorem State.sent_gone (s : State) (p : Packet) : s.Sent (s.gone p) := by
  unfold State.gone; split
  · exact s.sent_swap _ _
  · exact s.sent_take p

theorem State.sent_cutOff (s : State) (p : Packet) : s.Sent (s.cutOff p) := by
  have hf : s.Sent { s with freeIx := s.freeIx + 1 } := rfl
  unfold State.cutOff; dsimp only
  refine State.Sent.trans ?_ (State.sent_unreachable _ p 3)
  split
  · exact hf.trans (State.sent_swap _ _ _)
  · exact hf.trans (State.sent_take _ p)

theorem State.sent_reroute (s : State) (cause : Nat) (p : Packet) : s.Sent (s.reroute cause p) := by
  unfold State.reroute; split
  · rfl
  · split
    · exact s.sent_swap _ _
    · exact (s.sent_take p).trans (State.sent_unreachable _ p cause)

theorem State.sent_lostWay (s : State) (cause : Nat) (ps : List Packet) (past : State → Packet → State) (hp : ∀ (s : State) p, s.Sent (past s p)) :
    s.Sent (s.lostWay cause ps past) := by
  unfold State.lostWay; dsimp only
  refine ((s.sent_howFar ps).trans (State.sent_foldl _ (fun s e => ?_) _ _)).trans (State.sent_foldl _ (fun s e => ?_) _ _)
  · split
    · exact hp s e.1
    · split
      · exact s.sent_cutOff e.1
      · rfl
  · split
    · exact s.sent_reroute cause e.1
    · rfl

theorem State.Sent.pw {s t : State} (h : s.Sent t) : t.pw = s.pw := by unfold State.Sent at h; rw [h]
theorem State.Sent.tabs {s t : State} (h : s.Sent t) : t.tabs = s.tabs := by unfold State.Sent at h; rw [h]

/-! ## Routes without a port -/

/-- A port cleared from every entry (R50) is in none. -/
theorem getLsbD_clearPort (route : Tab DWord) (port pkg : Nat) (hp : port < 64) : (tabGet (clearPort route port) pkg).getLsbD port = false := by
  induction route with
  | nil => exact BitVec.getLsbD_zero
  | cons e route ih =>
    unfold clearPort at ih ⊢
    rw [List.filterMap_cons]
    dsimp only
    by_cases hv : setBit e.2 port false = 0
    · rw [if_pos hv]; exact ih
    · rw [if_neg hv, tabGet_cons]
      split
      · rw [getLsbD_setBit _ _ _ _ hp, if_pos rfl]
      · exact ih

theorem State.portUp_of_dead {s : State} {n : Nat} (h : tabGet s.pw.portDead n = true) : s.portUp n = false := by
  simp [State.portUp, h]

theorem State.lt_of_portUp {s : State} {n : Nat} (h : s.portUp n = true) : n < 36 := by
  simp only [State.portUp, Bool.and_eq_true, decide_eq_true_eq] at h
  exact h.1.1

/-! ## The ends of a fabric link -/

/-- A link's two dies are named lower first (R9, R46). -/
theorem linkEnds_ordered {l : AfzilLink} {a b : Nat} (h : linkEnds l = some (a, b)) : a ≤ b := by
  cases l <;> (unfold linkEnds at h; dsimp only at h; split at h)
  case intra.isTrue => obtain ⟨rfl, rfl⟩ := Prod.mk.inj (Option.some.inj h); exact min_le_max
  case long.isTrue => obtain ⟨rfl, rfl⟩ := Prod.mk.inj (Option.some.inj h); exact min_le_max
  case intra.isFalse => cases h
  case long.isFalse => cases h

theorem State.linkIsDown_comm (s : State) (a b : Nat) : s.linkIsDown a b = s.linkIsDown b a := by
  unfold State.linkIsDown; rw [min_comm, max_comm]

theorem State.linkIsDown_of_mem {s : State} {a b : Nat} (hab : a ≤ b) (h : (a, b) ∈ s.pw.linksDown) : s.linkIsDown a b = true := by
  unfold State.linkIsDown; rw [min_eq_left hab, max_eq_right hab]; exact List.contains_iff_mem.mpr h

/-! ## The steps -/

theorem exec_linkTraining_zero {s : State} {o : TrainOutcome} {l : Link} (ho : trainedLink o = some l) (ht : s.boot.link0.training = true) :
    exec (.linkTraining 0 o) s = .next (({ s with boot.link0 := l } : State).postEvent 1 0 (linkDetail o)) := by
  show execLinkTraining 0 o s = _
  unfold execLinkTraining; rw [ho]; exact if_pos ⟨rfl, ht⟩

theorem exec_linkTraining_one {s : State} {o : TrainOutcome} {l : Link} (ho : trainedLink o = some l) (ht : s.boot.link1.training = true) :
    exec (.linkTraining 1 o) s = .next (({ s with boot.link1 := l } : State).postEvent 1 1 (linkDetail o)) := by
  show execLinkTraining 1 o s = _
  unfold execLinkTraining; rw [ho]; dsimp only
  rw [if_neg fun h => absurd h.1 (by decide)]; exact if_pos ⟨rfl, ht⟩

theorem exec_spdmGetCertificate {s : State} (slot : Nat) (h : s.spdmOn = true) :
    exec (.spdmGetCertificate slot) s = .next (s.answer ⟨if slot = 0 then Config.certChain else [], []⟩) := by
  show execSpdmGetCertificate slot s = _
  unfold execSpdmGetCertificate; exact if_pos h

theorem exec_spdmChallenge {s : State} (nonce : List Byte) (h : s.spdmOn = true) : exec (.spdmChallenge nonce) s =
    .next (s.answer ⟨Config.sm3 Config.certChain ++ nonce, Config.sm2Sign (Config.sm3 Config.certChain ++ nonce)⟩) := by
  show execSpdmChallenge nonce s = _
  unfold execSpdmChallenge; exact if_pos h

theorem exec_spdmGetMeasurements {s : State} (i : Nat) (h : s.spdmOn = true) : exec (.spdmGetMeasurements i) s =
    .next (s.answer ⟨s.measurement i, Config.sm2Sign (s.measurement i)⟩) := by
  show execSpdmGetMeasurements i s = _
  unfold execSpdmGetMeasurements; exact if_pos h

/-- The measurement of the firmware that runs, else zeros. -/
theorem State.measurement_two (s : State) : s.measurement 2 =
    if s.boot.jasper = true ∧ 3 ≤ s.boot.st then Config.sm3 s.boot.jasperM else List.replicate 32 0 := by
  unfold State.measurement; simp only [Bool.and_eq_true, decide_eq_true_eq]

theorem exec_corruptedFlitRetry {s : State} (n : Nat) (again : Bool) (hu : s.portUp n = true) (h : again = true → tabGet s.pw.portRetry n < 16) :
    exec (.corruptedFlitRetry ⟨n, again⟩) s =
      .next { s with pw.portRetry := tabMod s.pw.portRetry n fun m => if again then m + 1 else 1 } := by
  show execCorruptedFlitRetry ⟨n, again⟩ s = _
  unfold execCorruptedFlitRetry
  cases again with
  | false => simp [hu]
  | true => simp [hu, h rfl]

/-- The packets that have not left through a port. -/
def State.heldAtPort (s : State) (n : Nat) : List Packet := s.net.filter fun (p : Packet) => !pktHere p && !p.left && p.port == n

/-- The packets whose route goes over a fabric link. -/
def State.heldAtLink (s : State) (a b : Nat) : List Packet :=
  s.net.filter fun (p : Packet) => !p.parked && !p.left && ((s.pktHops p).contains (a, b) || (s.pktHops p).contains (b, a))

/-- The state in which a port has just gone down. -/
def State.deadPort (s : State) (n : Nat) : State :=
  { s with pw := { s.pw with portDead := tabSet s.pw.portDead n true, portRetry := tabSet s.pw.portRetry n 0 }
           tabs.route := clearPort s.tabs.route n }

theorem exec_portDown {s : State} {n : Nat} (hu : s.portUp n = true) (hr : tabGet s.pw.portRetry n = 16) :
    exec (.portDown n) s = .next (((s.deadPort n).postEvent 2 n 1).lostWay 1 (s.heldAtPort n) State.gone) := by
  show execPortDown n s = _
  unfold execPortDown; rw [if_pos (by simp [hu, hr])]; rfl

theorem exec_linkDown {s : State} {l : AfzilLink} {a b : Nat} (he : linkEnds l = some (a, b)) (hu : s.linkIsDown a b = false) :
    exec (.linkDown l) s =
      .next (({ s with pw.linksDown := (a, b) :: s.pw.linksDown }).lostWay 3 (s.heldAtLink a b) fun s _ => s) := by
  show execLinkDown l s = _
  unfold execLinkDown; rw [he]; dsimp only; rw [hu]; rfl

theorem exec_fabricHeaderDiscard {s : State} {p : Packet} (h : 5 ≤ p.vc ∨ 5 ≤ p.npay) :
    exec (.fabricHeaderDiscard p) s = .next ((s.take p).postEvent 6 (pktSrc p) (at_ 1 4)) := by
  have hb : badHeader p = true := by
    unfold badHeader; rw [Bool.or_eq_true, Bool.or_eq_true, decide_eq_true_eq, decide_eq_true_eq]; exact .inl h
  show execFabricHeaderDiscard p s = _
  unfold execFabricHeaderDiscard; exact if_pos hb

/-- Every event takes the next number, whether the queue has room or not (R76). -/
theorem State.seq_postEvent (s : State) (kind src detail : Nat) : (s.postEvent kind src detail).evq.seq = s.evq.seq + 1 := by
  unfold State.postEvent; dsimp only; split <;> rfl

/-- Settles O10: a lost port or link by `State.sent_lostWay`, the other steps by what each answers. -/
theorem linksPortsAndAttestation : Obligations.LinksPortsAndAttestation := by
  unfold Obligations.LinksPortsAndAttestation
  refine ⟨fun s o l ho ht => ⟨_, exec_linkTraining_zero ho ht, rfl⟩, fun s o l ho ht => ⟨_, exec_linkTraining_one ho ht, rfl⟩,
    fun s h => ⟨_, exec_spdmGetCertificate 0 h, rfl⟩, fun s nonce h => ⟨_, _, exec_spdmChallenge nonce h, rfl, rfl⟩,
    fun s i h h1 h4 => ⟨_, _, exec_spdmGetMeasurements i h, rfl, rfl, ?_⟩,
    fun s n hu hr => ⟨_, exec_corruptedFlitRetry n true hu fun _ => hr, rfl, tabGet_tabMod_same s.pw.portRetry n (· + 1)⟩,
    fun s n hu => ⟨_, exec_corruptedFlitRetry n false hu (fun h => nomatch h), rfl, tabGet_tabMod_same s.pw.portRetry n fun _ => 1⟩,
    fun s n hu hr => ⟨_, exec_portDown hu hr, ?_⟩, fun s l a b he hu => ⟨_, exec_linkDown he hu, ?_⟩,
    fun s p h => ⟨_, exec_fabricHeaderDiscard h, ?_, State.seq_postEvent _ _ _ _, State.postEvent_mem _ _ _ _, State.postEvent_cols _ _ _ _⟩⟩
  · obtain rfl | rfl | rfl | rfl : i = 1 ∨ i = 2 ∨ i = 3 ∨ i = 4 := by omega
    · rfl
    · exact s.measurement_two
    · rfl
    · rfl
  · have hs : (s.deadPort n).Sent (((s.deadPort n).postEvent 2 n 1).lostWay 1 (s.heldAtPort n) State.gone) :=
      (State.sent_postEvent _ _ _ _).trans (State.sent_lostWay _ _ _ _ State.sent_gone)
    refine ⟨State.portUp_of_dead ?_, hs.mem, fun pkg => ?_⟩
    · rw [hs.pw]; exact tabGet_tabSet_same s.pw.portDead n true
    · rw [hs.tabs]; exact getLsbD_clearPort _ _ _ (Nat.lt_trans (State.lt_of_portUp hu) (by decide))
  · have hs := State.sent_lostWay { s with pw.linksDown := (a, b) :: s.pw.linksDown } 3 (s.heldAtLink a b) (fun s _ => s) fun _ _ => rfl
    have hd := State.linkIsDown_of_mem (linkEnds_ordered he) (s := ({ s with pw.linksDown := (a, b) :: s.pw.linksDown } : State).lostWay 3
      (s.heldAtLink a b) fun s _ => s) (by rw [hs.pw]; exact List.mem_cons_self)
    exact ⟨hd, (State.linkIsDown_comm _ _ _).trans hd, hs.mem⟩
  · exact State.postEvent_net _ _ _ _

end Sys2Proof.Machine

/-!
SUPPORT. Arrivals (R18, R21, R48, R126) and messages between columns (R397): an arrival that `State.Comes` allows is served as its kind is, and
the obligation O13.
-/

namespace Sys2Proof.Machine

/-! ## Arrivals -/

/-- A packet that can arrive, at a module that is not lost, is served. -/
theorem State.deliver_of_comes {s : State} {p : Packet} {kind : Nat} (h : s.Comes p kind) (name : String) (f : State → Res) :
    s.deliver name kind p f = f s := by
  obtain ⟨ha, hl⟩ := h
  have hh : pktHere p = true := by
    simp only [State.arrives, Bool.and_eq_true] at ha; exact ha.1.1.1.2
  unfold State.deliver
  rw [if_neg fun h => by simp [hh] at h, if_neg, if_pos ha]
  rintro ⟨-, -, h7, hf⟩
  have ho : pktOurs p = true := hl.resolve_left (not_not.mpr h7)
  simp [State.foreign, ho] at hf

/-- A reply that has left the fabric changes only the packets on their way. -/
theorem State.sent_landed (s : State) (p : Packet) : s.Sent (s.landed p) := by
  unfold State.landed; dsimp only; split <;> rfl

theorem State.Sent.col {s t : State} (h : s.Sent t) (c : Nat) : t.col c = s.col c := by unfold State.col; rw [h.cols]

/-! ## A message at its destination -/

theorem exec_message {s : State} {p : Packet} (hc : s.Comes p 0x0E) (hr : s.messageReady p = true) (hw : p.words.length = 32)
    (hd : (tabGet s.cols (pktDest p)).isSome = true) : exec (.message p) s = .next (
      if (s.hdr (pktDest p)).comm = false then ((s.take p).postEvent 6 (pktSrc p) (at_ 4 4)).send (messageReply p 0x0F)
      else if (s.col (pktDest p)).msgs.length < 16 then
        ((s.take p).modCol (pktDest p) fun c => { c with msgs := (s.col (pktDest p)).msgs ++ [p.words] }).send (messageReply p 0x0F)
      else (s.take p).send (messageReply p 0x10)) := by
  show execMessage p s = _
  unfold execMessage
  rw [show kMessage = 0x0E from rfl, State.deliver_of_comes hc, if_neg (by simp [hr, hw])]
  dsimp only
  rw [show (s.take p).cols = s.cols from rfl, if_pos hd, show (s.take p).hdr (pktDest p) = s.hdr (pktDest p) from rfl,
    show (s.take p).col (pktDest p) = s.col (pktDest p) from rfl]
  unfold intoBuffer
  cases hm : (s.hdr (pktDest p)).comm with
  | false => rfl
  | true =>
    by_cases hf : (s.col (pktDest p)).msgs.length < 16
    · simp only [if_pos hf]; rfl
    · simp only [if_neg hf]; rfl

/-! ## Its answer at the sender -/

theorem exec_messageAccepted {s : State} {p : Packet} (hc : s.Comes p 0x0F) : exec (.messageAccepted p) s =
    .next (if s.answered p = true then (s.landed p).ackMessage (pktDest p) p.req else s.landed p) := by
  show execMessageAccepted p s = _
  unfold execMessageAccepted; exact State.deliver_of_comes (kind := kAccepted) hc _ _

theorem exec_messageBounced {s : State} {p : Packet} (hc : s.Comes p 0x10) : exec (.messageBounced p) s =
    .next (if s.answered p = true then (s.landed p).keepBounced p else s.landed p) := by
  show execMessageBounced p s = _
  unfold execMessageBounced; exact State.deliver_of_comes (kind := kBounced) hc _ _

theorem State.ackMessage_resident {s : State} {col : Nat} (h : (tabGet s.cols col).isSome = true) (tag : Nat) :
    s.ackMessage col tag = s.modCol col fun c => { c with unacked := c.unacked.filter (·.2.2 != tag) } := by
  unfold State.ackMessage; exact if_pos h

/-- The message that a bounced packet brings back, as it was sent. -/
def returnedMessage (p : Packet) : Packet :=
  { p with kind := BitVec.ofNat 8 kMessage, dest := p.src, src := p.dest, vc := 3, npay := 2, stat := 0, hops := 0 }

theorem State.keepBounced_resident {s : State} {p : Packet} (h : (tabGet s.cols (pktDest p)).isSome = true) :
    s.keepBounced p = s.modCol (pktDest p) fun c => { c with bounced := c.bounced ++ [returnedMessage p] } := by
  unfold State.keepBounced; exact if_pos h

theorem exec_messageResend {s : State} {col q : Nat} {m : Packet} (hd : (tabGet s.cols col).isSome = true)
    (hf : (s.col col).bounced.find? (fun m => (s.col col).unacked.any fun u => u.1 == q && u.2.2 == m.req) = some m) :
    exec (.messageResend col q) s = .next ((s.modCol col fun c => { c with bounced := c.bounced.erase m }).send m) := by
  show execMessageResend col q s = _
  unfold execMessageResend State.unackedOf; dsimp only
  simp only [if_pos hd, hf]

/-- Settles O13: each arrival by `State.deliver_of_comes` and what its kind's service answers. -/
theorem messagesBetweenColumns : Obligations.MessagesBetweenColumns := by
  unfold Obligations.MessagesBetweenColumns
  refine ⟨fun s p hc hr hw hd hm hf => ?_, fun s p hc hr hw hd hm hf => ?_, fun s p hc hr hw hd hm => ?_, fun s p hc ha hd => ?_,
    fun s p hc ha hd => ?_, fun s p ha => ⟨fun hc => ?_, fun hc => ?_⟩, fun s col q m hd hf => exec_messageResend hd hf⟩
  · have he := exec_message hc hr hw hd
    rw [if_neg (by simp [hm]), if_pos hf] at he
    refine ⟨_, he, ?_, (State.sent_send _ _).mem, rfl⟩
    rw [(State.sent_send _ _).col, State.col_modCol_same]
  · rw [exec_message hc hr hw hd, if_neg (by simp [hm]), if_neg (by omega)]
  · rw [exec_message hc hr hw hd, if_pos hm]
  · have hs := s.sent_landed p
    have he := exec_messageAccepted hc
    rw [if_pos ha, State.ackMessage_resident (by rw [hs.cols]; exact hd)] at he
    refine ⟨_, he, ?_, ?_, hs.mem⟩
    · rw [State.col_modCol_same]
      intro u hu
      simpa using (List.mem_filter.mp hu).2
    · rw [State.col_modCol_same, hs.col]
  · have hs := s.sent_landed p
    have he := exec_messageBounced hc
    rw [if_pos ha, State.keepBounced_resident (by rw [hs.cols]; exact hd)] at he
    refine ⟨_, returnedMessage p, he, ?_, rfl, rfl, rfl, rfl⟩
    rw [State.col_modCol_same, hs.col]
  · rw [exec_messageAccepted hc, if_neg (by simp [ha])]
  · rw [exec_messageBounced hc, if_neg (by simp [ha])]

end Sys2Proof.Machine

/-!
SUPPORT. Replies, written results, naps and trap entries at a column (R18, R137, R291, R305, R358): what the end of a request and the writing of a
result leave as they were, and the obligation O12.
-/

namespace Sys2Proof.Machine

/-! ## What the end of a request keeps: memory, every column's outstanding results and the tags of its requests -/

/-- The tags of a column's requests. -/
def Column.tags (c : Column) : List Nat := c.reqs.map (·.tag)

def Column.KeepsReplies (c c' : Column) : Prop := c'.results = c.results ∧ c'.tags = c.tags

def State.KeepsReplies (s t : State) : Prop := t.mem = s.mem ∧ ∀ c, (s.col c).KeepsReplies (t.col c)

theorem Column.KeepsReplies.trans {a b c : Column} (h : a.KeepsReplies b) (h' : b.KeepsReplies c) : a.KeepsReplies c :=
  ⟨h'.1.trans h.1, h'.2.trans h.2⟩

theorem State.KeepsReplies.refl (s : State) : s.KeepsReplies s := ⟨rfl, fun _ => ⟨rfl, rfl⟩⟩

theorem State.KeepsReplies.trans {s t u : State} (h : s.KeepsReplies t) (h' : t.KeepsReplies u) : s.KeepsReplies u :=
  ⟨h'.1.trans h.1, fun c => (h.2 c).trans (h'.2 c)⟩

theorem State.keepsReplies_foldl {β : Type} (f : State → β → State) (hf : ∀ (s : State) b, s.KeepsReplies (f s b)) (l : List β) (s : State) :
    s.KeepsReplies (l.foldl f s) :=
  foldl_keeps (fun t : State => s.KeepsReplies t) f (fun t b h => h.trans (hf t b)) l s (State.KeepsReplies.refl s)

theorem State.keepsReplies_modCol (s : State) (c : Nat) (f : Column → Column) (hf : ∀ k : Column, k.KeepsReplies (f k)) :
    s.KeepsReplies (s.modCol c f) := by
  refine ⟨rfl, fun d => ?_⟩
  rw [State.col_modCol]
  split
  · next h => rw [h]; exact hf _
  · exact ⟨rfl, rfl⟩

theorem State.Sent.keepsReplies {s t : State} (h : s.Sent t) : s.KeepsReplies t := ⟨h.mem, fun c => by rw [h.col]; exact ⟨rfl, rfl⟩⟩

theorem State.Checked.col {s t : State} (h : s.Checked t) (c : Nat) : t.col c = s.col c := by unfold State.col; rw [h.cols]

theorem Column.KeepsAll.keepsReplies {c c' : Column} (h : c.KeepsAll c') : c.KeepsReplies c' := by
  unfold Column.KeepsAll at h; rw [h]; exact ⟨rfl, rfl⟩

/-! ### Barriers -/

theorem Column.keepsReplies_testCbar (c : Column) (n : Nat) : c.KeepsReplies (c.testCbar n) := by
  unfold Column.testCbar; dsimp only; split <;> exact ⟨rfl, rfl⟩

theorem State.keepsReplies_testUbar (s : State) (col level n : Nat) : s.KeepsReplies (s.testUbar col level n) := by
  unfold State.testUbar; dsimp only; split
  · refine State.keepsReplies_foldl _ (fun s c => ?_) _ s
    exact s.keepsReplies_modCol c _ fun _ => ⟨rfl, rfl⟩
  · exact State.KeepsReplies.refl s

theorem State.keepsReplies_fillGroup (s : State) (col : Nat) : s.KeepsReplies (s.fillGroup col) :=
  State.keepsReplies_foldl _ (fun s c => by
    split
    · exact State.KeepsReplies.refl s
    · exact s.keepsReplies_modCol c _ fun k => k.keepsAll_fill.keepsReplies) _ s

theorem State.keepsReplies_testBars (s : State) (col : Nat) : s.KeepsReplies (s.testBars col) := by
  have hc : ∀ k : Column, k.KeepsReplies ((List.range 16).foldl Column.testCbar k) := fun k =>
    foldl_keeps (fun c : Column => k.KeepsReplies c) _ (fun c n h => h.trans (c.keepsReplies_testCbar n)) _ k ⟨rfl, rfl⟩
  unfold State.testBars; dsimp only
  refine ((s.keepsReplies_modCol col _ hc).trans (State.keepsReplies_foldl _ (fun s x => ?_) _ _)).trans (State.keepsReplies_fillGroup _ col)
  split
  · exact s.keepsReplies_testUbar col x.1 x.2
  · exact State.KeepsReplies.refl s

/-! ### Sending what waits -/

theorem State.keepsReplies_pumpList (ps : List Packet) (s : State) (col : Nat) : s.KeepsReplies (s.pumpList col ps) := by
  induction ps generalizing s with
  | nil => exact State.KeepsReplies.refl s
  | cons p ps ih =>
    unfold State.pumpList; dsimp only
    split
    · refine State.KeepsReplies.trans (State.KeepsReplies.trans ?_ (State.sent_send _ _).keepsReplies) (ih _)
      refine s.keepsReplies_modCol col _ fun k => ⟨rfl, ?_⟩
      unfold Column.tags
      rw [List.map_map]
      refine List.map_congr_left fun r _ => ?_
      rw [Function.comp_apply]; split <;> rfl
    · exact State.KeepsReplies.refl s

theorem State.keepsReplies_pump (s : State) (col : Nat) : s.KeepsReplies (s.pump col) := by
  unfold State.pump; split
  · exact State.KeepsReplies.refl s
  · exact State.keepsReplies_pumpList _ s col

theorem State.keepsReplies_pumpCore (s : State) (col : Nat) : s.KeepsReplies (s.pumpCore col) :=
  State.keepsReplies_foldl _ (fun s i => by
    dsimp only; split
    · exact s.keepsReplies_pump _
    · exact State.KeepsReplies.refl s) _ s

/-! ## The end of a request -/

/-- A request that is complete is gone from its column; outstanding results and memory are as they were. -/
theorem State.complete_spec (s : State) (col tag : Nat) : (∀ q ∈ ((s.complete col tag).col col).reqs, q.tag ≠ tag)
    ∧ ((s.complete col tag).col col).results = (s.col col).results ∧ (s.complete col tag).mem = s.mem := by
  unfold State.complete; dsimp only
  set u := s.modCol col _ with hu
  have hk : u.KeepsReplies ((if (u.col col).barGates.length = (s.col col).barGates.length then u else u.testBars col).pumpCore col) := by
    refine State.KeepsReplies.trans ?_ (State.keepsReplies_pumpCore _ col)
    split
    · exact State.KeepsReplies.refl u
    · exact u.keepsReplies_testBars col
  obtain ⟨hm, hc⟩ := hk
  obtain ⟨hr, ht⟩ := hc col
  refine ⟨fun q hq => ?_, ?_, hm⟩
  · have hq' : q.tag ∈ (u.col col).tags := ht ▸ List.mem_map_of_mem hq
    rw [hu, State.col_modCol_same] at hq'
    obtain ⟨r, hr, hrq⟩ := List.mem_map.mp hq'
    rw [← hrq]
    simpa using (List.mem_filter.mp hr).2
  · rw [hr, hu, State.col_modCol_same]

theorem State.reqOf_landed (s : State) (p : Packet) : (s.landed p).reqOf p = s.reqOf p := by
  unfold State.reqOf; rw [(s.sent_landed p).col]

theorem State.landReply_some {s : State} {p : Packet} {r : Req} (h : s.reqOf p = some r) : s.landReply p =
    ((s.landed p).modCol (pktDest p) fun c => c.fillReply p.req p.ty p.accs).complete (pktDest p) p.req := by
  unfold State.landReply; dsimp only; rw [s.reqOf_landed, h]

theorem State.landReply_none {s : State} {p : Packet} (h : s.reqOf p = none) : s.landReply p = s.landed p := by
  unfold State.landReply; dsimp only; rw [s.reqOf_landed, h]

/-- A reply that answers a request fills the result that awaits it, and the request is gone. -/
theorem State.landReply_spec {s : State} {p : Packet} {r : Req} (h : s.reqOf p = some r) :
    (∀ q ∈ ((s.landReply p).col (pktDest p)).reqs, q.tag ≠ p.req)
      ∧ ((s.landReply p).col (pktDest p)).results = ((s.col (pktDest p)).fillReply p.req p.ty p.accs).results ∧ (s.landReply p).mem = s.mem := by
  have hs := s.sent_landed p
  rw [State.landReply_some h]
  obtain ⟨hq, hr, hm⟩ := ((s.landed p).modCol (pktDest p) fun c => c.fillReply p.req p.ty p.accs).complete_spec (pktDest p) p.req
  refine ⟨hq, ?_, hm.trans hs.mem⟩
  rw [hr, State.col_modCol_same, hs.col]

theorem exec_readReply {s : State} {p : Packet} (hc : s.Comes p 0x02) (h : p.words = [] ∨ s.reqOf p = none) :
    exec (.readReply p) s = .next (s.landReply p) := by
  show execReadReply p s = _
  unfold execReadReply
  rw [show kReadReply = 0x02 from rfl, State.deliver_of_comes hc]
  exact congrArg _ (if_pos (h.imp_right fun h => by rw [h]; rfl))

theorem exec_atomicReply {s : State} {p : Packet} (hc : s.Comes p 0x0B) : exec (.atomicReply p) s = .next (s.landReply p) := by
  show execAtomicReply p s = _
  unfold execAtomicReply; exact State.deliver_of_comes (kind := kAtomicReply) hc _ _

theorem exec_writeAcknowledgement {s : State} {p : Packet} {r : Req} (hc : s.Comes p 0x04) (hm : s.sch.mgmtSent ≠ some p.req)
    (he : s.sentEnd p.req = none) (hr : s.reqOf p = some r) :
    exec (.writeAcknowledgement p) s = .next ((s.landed p).complete (pktDest p) p.req) := by
  have hs : (s.landed p).sch = s.sch := by have h := s.sent_landed p; unfold State.Sent at h; rw [h]
  have he' : (s.landed p).sentEnd p.req = none := by unfold State.sentEnd at he ⊢; rw [hs]; exact he
  show execWriteAcknowledgement p s = _
  unfold execWriteAcknowledgement
  rw [show kWriteAck = 0x04 from rfl, State.deliver_of_comes hc]
  dsimp only
  rw [hs, if_neg hm, he', s.reqOf_landed, hr]; rfl

/-! ## Written results -/

/-- No split of a column has lanes that are leaving it. -/
def Column.NoneExits (c : Column) : Prop := ∀ k, (c.slot k).exiting = 0

theorem Column.noneExits_of_all {c : Column} (h : c.slots.all (fun e => e.2.exiting == 0) = true) : c.NoneExits := by
  intro k
  unfold Column.slot
  generalize c.slots = l at h
  induction l with
  | nil => rfl
  | cons e l ih =>
    obtain ⟨he, hl⟩ := Bool.and_eq_true_iff.mp (List.all_cons ▸ h)
    rw [tabGet_cons]
    split
    · exact eq_of_beq he
    · exact ih hl

theorem Column.NoneExits.setSlot {c : Column} (h : c.NoneExits) (k : Nat) (sp : Split) (hs : sp.exiting = 0) : (c.setSlot k sp).NoneExits := by
  intro j
  rw [Column.slot_setSlot]
  split
  · exact hs
  · exact h j

theorem Column.NoneExits.demoteNow {c : Column} (h : c.NoneExits) (k : Nat) : (c.demoteNow k).NoneExits := by
  unfold Column.demoteNow; dsimp only; split
  · exact h.setSlot k {} rfl
  · exact h

theorem Column.NoneExits.fillOne {c : Column} (h : c.NoneExits) : c.fillOne.NoneExits := by
  unfold Column.fillOne; split
  · exact h.setSlot _ _ rfl
  · exact h

theorem Column.NoneExits.fill {c : Column} (h : c.NoneExits) : c.fill.NoneExits := h.fillOne.fillOne.fillOne.fillOne

/-- A split whose results are written is ready, and the slots that this frees are filled. -/
def Column.readied (c : Column) (k : Nat) : Column := ((c.modSlot k fun sp => { sp with cond := .ready }).demoteNow k).fill

theorem Column.keepsAll_readied (c : Column) (k : Nat) : c.KeepsAll (c.readied k) :=
  ((c.keepsAll_modSlot k _).trans (Column.keepsAll_demoteNow _ k)).trans (Column.keepsAll_fill _)

theorem Column.NoneExits.readied {c : Column} (h : c.NoneExits) (k : Nat) : (c.readied k).NoneExits :=
  ((h.setSlot k { c.slot k with cond := .ready } (h k)).demoteNow k).fill

/-- Where no lanes leave, a parked split that holds lanes and whose results are written is readied, and any other stays. -/
theorem State.settle_eq {s : State} {col k : Nat} (h : ((s.col col).slot k).exiting = 0) : s.settle col k =
    if ((s.col col).slot k).cond = .parked ∧ (s.col col).outstanding ((s.col col).slot k).lanes = false ∧ ((s.col col).slot k).lanes ≠ 0 then
      s.modCol col fun c => c.readied k
    else s := by
  have hz : ∀ m : Mask, m &&& ~~~(0 : Mask) = m := fun _ => BitVec.and_allOnes
  unfold State.settle; dsimp only
  rw [h, hz, if_neg (not_not.mpr rfl)]
  by_cases h1 : ((s.col col).slot k).cond = .parked ∧ (s.col col).outstanding ((s.col col).slot k).lanes = false
  · rw [if_pos h1]
    by_cases h2 : ((s.col col).slot k).lanes = 0
    · rw [if_pos h2, if_neg fun h => h.2.2 h2]
    · rw [if_neg h2, if_pos ⟨h1.1, h1.2, h2⟩]; rfl
  · rw [if_neg h1, if_neg fun h => h1 ⟨h.1, h.2.1⟩]

/-- Settling the splits of a column where no lanes leave changes its splits, pool and counts alone. -/
theorem State.settleAll_spec {s : State} {col : Nat} (h : (s.col col).NoneExits) :
    (s.col col).KeepsAll ((s.settleAll col).col col) ∧ (s.settleAll col).mem = s.mem := by
  have hstep : ∀ (t : State) (k : Nat), ((s.col col).KeepsAll (t.col col) ∧ t.mem = s.mem ∧ (t.col col).NoneExits) →
      let u := if (tabGet t.cols col).isSome then t.settle col k else t
      (s.col col).KeepsAll (u.col col) ∧ u.mem = s.mem ∧ (u.col col).NoneExits := by
    intro t k ht
    obtain ⟨hk, hm, hn⟩ := ht
    dsimp only
    split
    · rw [State.settle_eq (hn k)]
      split
      · rw [State.col_modCol_same]
        exact ⟨hk.trans (Column.keepsAll_readied _ k), hm, hn.readied k⟩
      · exact ⟨hk, hm, hn⟩
    · exact ⟨hk, hm, hn⟩
  obtain ⟨hk, hm, -⟩ := foldl_keeps (fun t : State => (s.col col).KeepsAll (t.col col) ∧ t.mem = s.mem ∧ (t.col col).NoneExits) _ hstep slots4 s
    ⟨Column.KeepsAll.refl _, rfl, h⟩
  exact ⟨hk, hm⟩

/-- A column after a result is written (R137). -/
def Column.resultWritten (c : Column) (r : Result) (id : Nat) : Column :=
  { c.applyWrites r.writes with fpflags := c.fpflags ||| r.flags, results := c.results.filter fun q => q.id != id }

theorem exec_resultWriteback {s : State} {col id : Nat} {c : Column} {r : Result} (hc : tabGet s.cols col = some c)
    (hr : (c.results.find? fun q => q.id == id && q.await == .none) = some r) :
    exec (.resultWriteback col id) s = .next ((s.setCol col (c.resultWritten r id)).settleAll col) := by
  show execResultWriteback col id s = _
  unfold execResultWriteback; rw [hc]; dsimp only; rw [hr]; rfl

theorem Column.noneExits_resultWritten {c : Column} (h : c.NoneExits) (r : Result) (id : Nat) : (c.resultWritten r id).NoneExits :=
  fun k => ((congrArg Split.exiting ((c.onlyRegs_applyWrites r.writes).slot k)).trans (h k) :)

theorem State.col_of_some {s : State} {col : Nat} {c : Column} (h : tabGet s.cols col = some c) : s.col col = c := by
  unfold State.col; rw [h]; rfl

/-! ## Naps and trap entries -/

/-- A slot that holds a split stays as it is while free slots are filled. -/
theorem Column.slot_fillOne_of_used {c : Column} {k : Nat} (h : c.used k = true) : c.fillOne.slot k = c.slot k := by
  unfold Column.fillOne; split
  · next j js pc hf _ =>
    have hj : c.used j = false := by
      have : j ∈ c.freeSlots := hf ▸ List.mem_cons_self
      simpa using (List.mem_filter.mp this).2
    have hkj : k ≠ j := fun e => by rw [e, hj] at h; exact absurd h (by decide)
    exact (Column.slot_setSlot _ _ _ _).trans (if_neg hkj)
  · rfl

theorem Column.slot_fill_of_used {c : Column} {k : Nat} (h : c.used k = true) : c.fill.slot k = c.slot k := by
  have step : ∀ d : Column, d.slot k = c.slot k → d.fillOne.slot k = c.slot k := fun d hd =>
    (Column.slot_fillOne_of_used (by unfold Column.used at h ⊢; rw [hd]; exact h)).trans hd
  exact step _ (step _ (step _ (step c rfl)))

theorem Column.demoteNow_none {c : Column} (h : c.demote = none) (k : Nat) : c.demoteNow k = c := by
  unfold Column.demoteNow; exact if_neg fun e => by rw [h] at e; exact absurd e.1 (by simp)

/-- A split that holds lanes and is not to be demoted is ready in its slot, and else as it was. -/
theorem Column.slot_readied {c : Column} {k : Nat} (hl : (c.slot k).lanes ≠ 0) (hd : c.demote = none) :
    (c.readied k).slot k = { c.slot k with cond := .ready } := by
  unfold Column.readied
  rw [Column.demoteNow_none (show (c.modSlot k _).demote = none from hd), Column.slot_fill_of_used]
  · exact Column.slot_setSlot_same _ _ _
  · unfold Column.used Column.modSlot; rw [Column.slot_setSlot_same]; exact bne_iff_ne.mpr hl

/-- A column in which the nap of a split has ended. -/
def Column.napEnded (c : Column) (k : Nat) : Column := c.modSlot k fun sp => { sp with cond := .parked, nap := 0 }

theorem exec_napExpiry {s : State} {col k : Nat} {c : Column} (hc : tabGet s.cols col = some c) (hn : (c.slot k).cond = .napping)
    (ht : (c.slot k).nap ≤ s.cycles col) : exec (.napExpiry col k) s = .next ((s.modCol col fun c => c.napEnded k).settle col k) := by
  show execNapExpiry col k s = _
  unfold execNapExpiry; rw [hc]; exact if_pos ⟨hn, ht⟩

theorem Column.slot_napEnded (c : Column) (k : Nat) : (c.napEnded k).slot k = { c.slot k with cond := .parked, nap := 0 } :=
  Column.slot_setSlot_same _ _ _

/-- A nap that ends (R291) leaves its split ready, or parked until its results are written. -/
theorem State.settle_napEnded {s : State} {col k : Nat} (hx : ((s.col col).slot k).exiting = 0) (hl : ((s.col col).slot k).lanes ≠ 0)
    (hd : (s.col col).demote = none) :
    (((s.modCol col fun c => c.napEnded k).settle col k).col col).slot k =
        { (s.col col).slot k with cond := (s.col col).restCond ((s.col col).slot k).lanes, nap := 0 }
      ∧ ((s.modCol col fun c => c.napEnded k).settle col k).mem = s.mem := by
  have hu : (s.modCol col fun c => c.napEnded k).col col = (s.col col).napEnded k := State.col_modCol_same _ _ _
  have ho : ((s.col col).napEnded k).outstanding = (s.col col).outstanding := rfl
  rw [State.settle_eq (by rw [hu, Column.slot_napEnded]; exact hx), hu, Column.slot_napEnded, ho]
  unfold Column.restCond
  cases hr : (s.col col).outstanding ((s.col col).slot k).lanes with
  | true =>
    rw [if_neg fun h => by have h2 := h.2.1; exact absurd (hr.symm.trans h2) (by decide), hu, Column.slot_napEnded]
    exact ⟨rfl, rfl⟩
  | false =>
    rw [if_pos ⟨rfl, hr, hl⟩, State.col_modCol_same, hu, Column.slot_readied (c := (s.col col).napEnded k) (by rw [Column.slot_napEnded]; exact hl) hd,
      Column.slot_napEnded]
    exact ⟨rfl, rfl⟩

/-- A split whose trap table entry is read without poison, and holds the address of a handler, enters it (R305). -/
theorem State.slot_enterTrap {s : State} {col k off : Nat} {pg : Page}
    (hoff : off = addrOff (s.hdr col).traptab.toNat + 8 * ((s.col col).slot k).trap.tcode.toNat)
    (hp : s.check (s.ctxOf col) col off 8 false .read = .page pg) (hq : (s.pageRead col pg false (off % pg.size) 8).2.2 = false)
    (ht : targetOk col (BitVec.ofNat 64 (natOf (s.pageRead col pg false (off % pg.size) 8).2.1)) = true) :
    ((s.enterTrap col k).col col).slot k = { (s.col col).slot k with
      pc := pcOf (BitVec.ofNat 64 (natOf (s.pageRead col pg false (off % pg.size) 8).2.1)), hnd := true, cond := .ready } := by
  subst hoff
  unfold State.enterTrap; dsimp only
  rw [hp]; dsimp only
  rw [if_neg (by simp [hq, ht]), State.col_modCol_same, (s.checked_pageRead _ _ _ _ _).col]
  exact Column.slot_setSlot_same _ _ _

theorem exec_trapEntry {s : State} {col k : Nat} {c : Column} (hc : tabGet s.cols col = some c) (ht : (c.slot k).cond = .trapping)
    (ho : c.outstanding (c.slot k).lanes = false) (hf : s.faults.any (fun f => f.waiter == .split col k) = false) :
    exec (.trapEntry col k) s = .next (s.enterTrap col k) := by
  show execTrapEntry col k s = _
  unfold execTrapEntry; rw [hc]; exact if_pos ⟨ht, ho, hf⟩

/-- Settles O12: the end of a request by `State.complete_spec`, a written result by `State.settleAll_spec`, an ended nap by `State.settle_eq`, the entry
into a handler by the read of its table entry. -/
theorem repliesAtTheirRequester : Obligations.RepliesAtTheirRequester := by
  unfold Obligations.RepliesAtTheirRequester
  refine ⟨fun s p r hc hw hr => ⟨_, exec_readReply hc (.inl hw), State.landReply_spec hr⟩,
    fun s p r hc hr => ⟨_, exec_atomicReply hc, State.landReply_spec hr⟩, fun s p r hc hm he hr => ⟨_, exec_writeAcknowledgement hc hm he hr, ?_⟩,
    fun s p hr => ⟨fun hc => ?_, fun hc => ?_⟩, fun s col id c r hc hr hx => ⟨_, exec_resultWriteback hc hr, ?_⟩,
    fun s col k c hc _ hn ht hx hl hd => ⟨_, exec_napExpiry hc hn ht, ?_⟩, fun s col k c pg hc ht ho hf hp hq htg => ⟨_, exec_trapEntry hc ht ho hf, ?_⟩⟩
  · obtain ⟨hq, -, hm⟩ := (s.landed p).complete_spec (pktDest p) p.req
    exact ⟨hq, hm.trans (s.sent_landed p).mem⟩
  · rw [exec_readReply hc (.inr hr), State.landReply_none hr]
  · rw [exec_atomicReply hc, State.landReply_none hr]
  · obtain ⟨hk, hm⟩ := State.settleAll_spec (s := s.setCol col (c.resultWritten r id)) (col := col) (by
      rw [State.col_setCol_same]; exact Column.noneExits_resultWritten (Column.noneExits_of_all hx) r id)
    rw [State.col_setCol_same] at hk
    generalize ((s.setCol col (c.resultWritten r id)).settleAll col).col col = c' at hk ⊢
    unfold Column.KeepsAll at hk
    rw [hk]
    refine ⟨rfl, rfl, rfl, rfl, fun q hq => ?_, hm⟩
    simpa using (List.mem_filter.mp hq).2
  · obtain rfl := State.col_of_some hc
    obtain ⟨hs, hm⟩ := State.settle_napEnded hx hl hd
    rw [hs]; exact ⟨rfl, rfl, hm⟩
  · obtain rfl := State.col_of_some hc
    rw [State.slot_enterTrap rfl hp hq htg]
    exact ⟨rfl, rfl, rfl, rfl⟩

end Sys2Proof.Machine

/-!
SUPPORT. The refutations of O4 and O5. Both turn on a vault block of more than the 256 bytes of a block (R39, R40): both statements speak of every
state, the type of states admits such a block, and one that no mode compresses is written back byte for byte, past its end. A statement restricted to
states whose vault blocks hold 256 bytes is not touched by them.
-/

namespace Sys2Proof.Machine

/-! ## Stored bytes replaced -/

/-- Replacing stored bytes changes memory and marks lines dirty. -/
theorem State.putBytes_keeps (bs : List Byte) (s : State) (p : Place) :
    s.putBytes p bs = { s with mem := (s.putBytes p bs).mem, dirty := (s.putBytes p bs).dirty } := by
  induction bs generalizing s p with
  | nil => rfl
  | cons b bs ih => unfold State.putBytes; rw [ih]; rfl

/-- A run of bytes put at a place reads there as put, and every other byte as before. -/
theorem State.read_putBytes (bs : List Byte) (s : State) (p : Place) (a : Nat) : Memory.read (s.putBytes p bs).mem a =
    if p.addr ≤ a ∧ a < p.addr + bs.length then bs.getD (a - p.addr) 0 else Memory.read s.mem a := by
  induction bs generalizing s p with
  | nil => rw [if_neg (by simp)]; rfl
  | cons b bs ih =>
    have hn : ({ p with off := p.off + 1 } : Place).addr = p.addr + 1 := by unfold Place.addr; dsimp only; omega
    unfold State.putBytes
    rw [ih, hn, show (s.putByte p b).mem = Memory.write s.mem p.addr b from rfl, Memory.read_write, List.length_cons]
    by_cases ha : a = p.addr
    · rw [if_neg (by omega), if_pos ha, if_pos (by omega), ha, Nat.sub_self, List.getD_cons_zero]
    · rw [if_neg ha]
      by_cases hl : p.addr + 1 ≤ a ∧ a < p.addr + 1 + bs.length
      · rw [if_pos hl, if_pos (by omega), show a - p.addr = a - (p.addr + 1) + 1 by omega, List.getD_cons_succ]
      · rw [if_neg hl, if_neg (by omega)]

/-! ## Blocks written back -/

/-- Cleaning a block changes dirty marks and errors of its lines after its write-back. -/
theorem State.mem_cleanBlock (s : State) (p : Place) : (s.cleanBlock p).mem = (s.writeBackBlock p).mem := by
  unfold State.cleanBlock; dsimp only
  refine foldl_keeps (fun t : State => t.mem = (s.writeBackBlock p).mem) _ (fun t i h => ?_) _ _ rfl
  split <;> exact h

theorem State.tabs_mirrorBlock (s : State) (p : Place) (mode : Nat) (st : List Byte) : (s.mirrorBlock p mode st).tabs = s.tabs := by
  unfold State.mirrorBlock; split
  · rfl
  · dsimp only; rw [State.putBytes_keeps]

theorem State.tabs_writeBackBlock (s : State) (p : Place) : (s.writeBackBlock p).tabs = s.tabs := by
  unfold State.writeBackBlock; dsimp only; split
  · rfl
  · rw [State.tabs_mirrorBlock, State.putBytes_keeps]

theorem State.mirrorBlock_none {s : State} {p : Place} (h : s.mirror p.col p.tier p.off = none) (mode : Nat) (st : List Byte) :
    s.mirrorBlock p mode st = s := by
  unfold State.mirrorBlock; rw [h]

/-- A vault block that no mode compresses is stored from the block's start on, all the bytes that the vault holds. -/
theorem State.mem_writeBackBlock_plain {s : State} {p : Place} {bs : List Byte} (hv : tabGet s.vault (p.addr / 256) = some bs)
    (hm : compressMode bs = 0) (hn : s.mirror p.col p.tier (p.off / 256 * 256) = none) :
    (s.writeBackBlock p).mem = (s.putBytes { p with off := p.off / 256 * 256 } bs).mem := by
  have hc : compressBlock bs = (0, bs) := by unfold compressBlock; simp only [hm]
  unfold State.writeBackBlock; dsimp only
  rw [hv]; dsimp only
  rw [hc]; dsimp only
  rw [State.mirrorBlock_none]
  rw [State.putBytes_keeps]; exact hn

/-- 257 bytes: a block and one byte more, of words that no mode compresses. -/
def overlongBlock : List Byte := List.replicate 7 0 ++ List.replicate 250 1

theorem compressMode_overlongBlock : compressMode overlongBlock = 0 := by decide

theorem length_overlongBlock : overlongBlock.length = 257 := by
  unfold overlongBlock; rw [List.length_append, List.length_replicate, List.length_replicate]

theorem overlongBlock_last : overlongBlock.getD 256 0 = 1 := by
  unfold overlongBlock
  rw [List.getD_append_right _ _ _ _ (by rw [List.length_replicate]; decide), List.length_replicate, List.getD_replicate _ (by decide)]

/-- A module whose vault holds an overlong block 16 dirty. -/
def overlongState : State := { dirty := [(64, true)], vault := [(16, some overlongBlock)] }

/-- Where no column is folded, every slice lies at its own column. -/
theorem State.place_of_noFold {s : State} (h : s.tabs.cmap = []) (col : Nat) (tier : Bool) (off : Nat) : s.place col tier off = ⟨col, tier, off⟩ := by
  have hf : s.fold col = ⟨0, 0, 0, col⟩ := by unfold State.fold; rw [h]; rfl
  unfold State.place State.hbmPlace; rw [hf]
  cases tier <;> rfl

/-- Without an active context no offset is mirrored. -/
theorem State.mirror_of_noRange {s : State} (h : s.tabs.ctx = []) (col : Nat) (tier : Bool) (off : Nat) : s.mirror col tier off = none := by
  have hr : s.inTransRange off = false := by
    have h0 : ctxState (default : Rec64) = 0 := by decide
    unfold State.inTransRange State.ctxEnt; rw [h]
    exact List.any_eq_false.mpr fun c _ => by simp [h0]
  unfold State.mirror; rw [hr]; simp

/-- Where block 16 is overlong and nothing is mirrored, its write-back changes the first byte of block 17. -/
theorem State.read_next_overlong {s : State} (hv : tabGet s.vault 16 = some overlongBlock) (hc : s.tabs.ctx = []) :
    Memory.read (s.writeBackBlock (placeOf (256 * 16))).mem (256 * 17) = 1 := by
  have ha : (placeOf (256 * 16)).addr / 256 = 16 := by decide
  rw [State.mem_writeBackBlock_plain (ha ▸ hv) compressMode_overlongBlock (State.mirror_of_noRange hc _ _ _), State.read_putBytes,
    show Place.addr _ = 4096 by decide, length_overlongBlock, if_pos (by decide)]
  exact overlongBlock_last

/-- Refutes O4: the write-back of a vault block of 257 bytes changes the first byte after its block, in a module where nothing is mirrored. -/
theorem not_thermalAndRefresh : ¬ Obligations.ThermalAndRefresh := by
  unfold Obligations.ThermalAndRefresh
  rintro ⟨-, -, -, -, -, -, h⟩
  obtain ⟨t, he, -, -, hm, -⟩ := h overlongState 16 (by decide)
  have ht : t = overlongState.cleanBlock (placeOf (256 * 16)) := (Host.Outcome.next.inj he).symm
  have hone : Memory.read t.mem (256 * 17) = 1 := by
    rw [ht, State.mem_cleanBlock]; exact State.read_next_overlong rfl rfl
  have hzero := hm (256 * 17) (by decide) (by rw [State.mirror_of_noRange rfl]; simp)
  exact absurd (hone.symm.trans hzero) (by decide)

/-! ## A host write through the raw aperture -/

/-- The segment entry: valid, this module, column 0, aperture 1, offset 0. -/
def rawSegment : DWord := 0xFFF0000400000001

/-- A module in service: window B's segment 0 leads to column 0, aperture 1; the root entry of context 0 maps a compressed page that may be written,
at the slice's start; the vault holds an overlong block 16. -/
def overlongPage : State :=
  { boot := { link0 := { up := true }, st := 5, reached5 := true }, tabs := { seg := [(0, rawSegment)], noCtx := false }
    mem := [(0, 0x27)], vault := [(16, some overlongBlock)] }

def compressedPage : Page := ⟨0, false, 2 ^ 21, 0, true, false, true, false, 0, 0⟩

theorem segCause_rawSegment : segCause rawSegment.toNat = 0 := by
  unfold segCause
  rw [if_neg (by decide), if_neg (by decide), if_neg fun h => h.2 (by decide), if_neg (by decide), if_neg (by decide)]

/-- What a window B access resolves to in a current context. -/
theorem State.windowB_current {s : State} {off e a : Nat} (hn : s.tabs.noCtx = false) (he : (tabGet s.tabs.seg (off / 2 ^ 22)).toNat = e)
    (ha : e / 2 ^ 22 * 2 ^ 22 + off % 2 ^ 22 = a) (len : Nat) (acc : Acc) : s.windowB off len acc =
      (segCause e, a, s.check s.tabs.curCtx (addrCol a) (addrOff a) len (addrAp a == 1) acc, off / 2 ^ 22) := by
  subst he ha
  unfold State.windowB; dsimp only; rw [hn]; rfl

theorem windowB_overlongPage : overlongPage.windowB 4096 1 .write = (0, 0xFFF0000400001000, .page compressedPage, 0) := by
  have hc : overlongPage.check 0 0 4096 1 true .write = .page compressedPage := by decide
  rw [State.windowB_current (e := rawSegment.toNat) (a := 0xFFF0000400001000) rfl (by decide) (by decide), segCause_rawSegment,
    show addrCol 0xFFF0000400001000 = 0 by decide, show addrOff 0xFFF0000400001000 = 4096 by decide,
    show (addrAp 0xFFF0000400001000 == 1) = true by decide, show overlongPage.tabs.curCtx = 0 from rfl, hc]
  rfl

/-- A store of a few bytes within a block is one piece. -/
theorem Span.pieces_one {sp : Span} {bs : List Byte} (h : bs.length ≤ 256 - sp.po % 256) (poi : Bool) (n : Nat) :
    sp.pieces poi (n + 1) bs = [(sp, bs, poi)] := by
  unfold Span.pieces; exact if_pos h

theorem exec_windowBWrite {s : State} {link off a sg : Nat} {bytes : List Byte} {p : Page} (hl : s.linkUp link = true)
    (hm : malformedTlp off bytes.length = false) (ho : s.windowBOpen = true)
    (hw : s.windowB off bytes.length .write = (0, a, .page p, sg)) (ht : p.tol = 0) : exec (.windowBWrite link off bytes) s =
      .next (s.writeSpans ((⟨addrCol a, p, addrAp a == 1, addrOff a % p.size⟩ : Span).pieces false 17 bytes)) := by
  show execWindowBWrite link off bytes s = _
  unfold execWindowBWrite
  rw [hl, hm, ho, hw]
  simp [ht]

/-- Where no line is in error, a store reads no line before it writes. -/
theorem State.mem_writeSpans_one {s : State} (h : s.upsets = []) (sp : Span) (bs : List Byte) (poi : Bool) :
    (s.writeSpans [(sp, bs, poi)]).mem = (s.pageWrite sp.col sp.page sp.raw sp.po bs).mem := by
  have hf : ∀ cells ws, s.fillSpans cells ws = s := fun cells ws => by unfold State.fillSpans; rw [h]; rfl
  unfold State.writeSpans; dsimp only; rw [hf]; rfl

/-- A byte stored at a place without a mirror changes that byte alone. -/
theorem State.read_storeByte {s : State} {col off : Nat} {tier : Bool} (hm : s.mirror col tier off = none) (b : Byte) (a : Nat) :
    Memory.read (s.storeByte col tier off b).mem a = if a = (s.place col tier off).addr then b else Memory.read s.mem a := by
  have h1 : ((s.putByte (s.place col tier off) b).mirror col tier off) = none := hm
  unfold State.storeByte; dsimp only; rw [h1]
  exact Memory.read_write _ _ _ _

/-- Through the raw aperture a compressed page's block is written back before a byte of it is stored (R40). -/
theorem State.pageWrite_raw_one {p : Page} (hc : p.comp = true) (s : State) (col po : Nat) (b : Byte) :
    s.pageWrite col p true po [b] = (s.writeBackBlock (s.pagePlace col p true po)).storeByte col p.tier (p.base + po) b := by
  unfold State.pageWrite; dsimp only
  rw [if_neg (by simp), if_neg (by simp), if_pos hc]; rfl

/-- What the host's access at offset 4096 of the window resolves to. -/
def hostSpan : Span := ⟨0, compressedPage, true, 4096⟩

theorem hostSpan_eq : (⟨addrCol 0xFFF0000400001000, compressedPage, addrAp 0xFFF0000400001000 == 1,
    addrOff 0xFFF0000400001000 % compressedPage.size⟩ : Span) = hostSpan := by decide

/-- A byte stored there reaches no byte of block 17. -/
theorem hostSpan_reaches : ¬ overlongPage.reaches hostSpan [(0 : Byte)].length (256 * 17) := by
  have hm : ∀ c t o, overlongPage.mirror c t o = none := fun c t o => State.mirror_of_noRange rfl c t o
  rintro (⟨-, -, i, hi, h⟩ | ⟨-, i, hi, h⟩)
  · obtain rfl : i = 0 := Nat.lt_one_iff.mp hi
    rcases h with h | ⟨m, hs, -⟩
    · exact absurd h (by decide)
    · rw [hm] at hs; cases hs
  · obtain rfl : i = 0 := Nat.lt_one_iff.mp hi
    rcases h with h | ⟨m, hs, -⟩
    · exact absurd h (by decide)
    · rw [hm] at hs; cases hs

/-- The byte after the block once the host's byte is stored. -/
theorem read_hostSpan_next : Memory.read (overlongPage.pageWrite 0 compressedPage true 4096 [0]).mem (256 * 17) = 1 := by
  have hp : overlongPage.pagePlace 0 compressedPage true 4096 = placeOf (256 * 16) := (State.place_of_noFold rfl _ _ _).trans (by decide)
  have hb : (overlongPage.writeBackBlock (placeOf (256 * 16))).tabs = overlongPage.tabs := State.tabs_writeBackBlock _ _
  rw [State.pageWrite_raw_one rfl, hp, State.read_storeByte (State.mirror_of_noRange (by rw [hb]; rfl) _ _ _),
    State.place_of_noFold (by rw [hb]; rfl), if_neg (by decide)]
  exact State.read_next_overlong rfl rfl

/-- Refutes O5: a byte that window B stores through the raw aperture of a compressed page, whose block the vault holds with 257 bytes, changes the first
byte after the block, which the store does not reach. -/
theorem not_hostWindows : ¬ Obligations.HostWindows := by
  unfold Obligations.HostWindows
  rintro ⟨-, h, -⟩
  have hw := windowB_overlongPage
  obtain ⟨t, he, -, hf, -⟩ := h overlongPage 0 4096 [0] compressedPage rfl (by decide) rfl (congrArg Prod.fst hw)
    (congrArg (fun w => w.2.2.1) hw) rfl
  rw [show (overlongPage.windowB 4096 [(0 : Byte)].length .write).2.1 = 0xFFF0000400001000 from congrArg (fun w => w.2.1) hw, hostSpan_eq] at hf
  have ht : t = overlongPage.writeSpans [(hostSpan, [0], false)] := by
    have e := exec_windowBWrite (bytes := [0]) (link := 0) rfl (by decide) rfl hw rfl
    rw [hostSpan_eq, Span.pieces_one (by decide)] at e
    exact Host.Outcome.next.inj (he.symm.trans e)
  have hone : Memory.read t.mem (256 * 17) = 1 := by
    rw [ht, State.mem_writeSpans_one rfl]
    exact read_hostSpan_next
  have hzero := hf (256 * 17) (fun hr => hostSpan_reaches hr) (by decide)
  exact absurd (hone.symm.trans hzero) (by decide)

end Sys2Proof.Machine

/-!
SUPPORT. What submission and context management are about, and what leaves it alone (R65 to R68, R73, R75, R97, R103, R104, R467): the obligations
O6 and O7.
-/

namespace Sys2Proof.Machine

/-! ## The ledger -/

/-- What the host has submitted and how its contexts stand: its replies, the context table and the register CURRENT, the replicas of sealed lines, the
queues of the three ports (of a launch queue the records and the count accepted), the switch in progress and the groups. -/
structure Ledger where
  replies : List HostReply
  ctx : Tab Rec64
  curCtx : Nat
  noCtx : Bool
  switching : Bool
  replicas : List Replica
  mgmt : List Rec64
  collq : List SubRec
  recs : Nat → List Rec64 × Nat
  sw : Option Switch
  stopped : Bool
  groups : Tab (Option Group)

def LQueue.entry (q : LQueue) : List Rec64 × Nat := (q.recs, q.accepted)

def State.ledger (s : State) : Ledger :=
  ⟨s.boot.replies, s.tabs.ctx, s.tabs.curCtx, s.tabs.noCtx, s.tabs.switching, s.replicas, s.sch.mgmt, s.sch.collq,
    fun k => (tabGet s.sch.queues k).entry, s.sch.sw, s.sch.stopped, s.sch.groups⟩

theorem State.ledger_foldl {β : Type} (f : State → β → State) (hf : ∀ (s : State) b, (f s b).ledger = s.ledger) (l : List β) (s : State) :
    (l.foldl f s).ledger = s.ledger :=
  foldl_keeps (fun t : State => t.ledger = s.ledger) f (fun t b h => (hf t b).trans h) l s rfl

theorem State.entry_of_ledger {s t : State} (h : t.ledger = s.ledger) (c q : Nat) : (t.lq c q).entry = (s.lq c q).entry :=
  congrFun (congrArg Ledger.recs h) (qKey c q)

theorem State.recs_of_ledger {s t : State} (h : t.ledger = s.ledger) (c q : Nat) : (t.lq c q).recs = (s.lq c q).recs :=
  congrArg Prod.fst (State.entry_of_ledger h c q)

section
variable {s t : State}

theorem State.replies_of_ledger (h : t.ledger = s.ledger) : t.boot.replies = s.boot.replies := congrArg Ledger.replies h
theorem State.collq_of_ledger (h : t.ledger = s.ledger) : t.sch.collq = s.sch.collq := congrArg Ledger.collq h
theorem State.mgmt_of_ledger (h : t.ledger = s.ledger) : t.sch.mgmt = s.sch.mgmt := congrArg Ledger.mgmt h
theorem State.stopped_of_ledger (h : t.ledger = s.ledger) : t.sch.stopped = s.sch.stopped := congrArg Ledger.stopped h
theorem State.switching_of_ledger (h : t.ledger = s.ledger) : t.tabs.switching = s.tabs.switching := congrArg Ledger.switching h
theorem State.groups_of_ledger (h : t.ledger = s.ledger) : t.sch.groups = s.sch.groups := congrArg Ledger.groups h

end

/-! ## Events, logs and reads -/

@[simp] theorem State.ledger_postEvent (s : State) (kind src detail : Nat) : (s.postEvent kind src detail).ledger = s.ledger := by
  unfold State.postEvent; dsimp only; split <;> rfl

@[simp] theorem State.ledger_mgmtEvent (s : State) (src cause why loc : Nat) : (s.mgmtEvent src cause why loc).ledger = s.ledger :=
  s.ledger_postEvent _ _ _

/-- An error log entry changes the logs and their overflow marks only. -/
theorem HostTabs.logError_keeps (t : HostTabs) (now : Nat) (p : Place) (owner kind sym : Nat) :
    ∃ l o, t.logError now p owner kind sym = { t with logs := l, logOvf := o } := by
  unfold HostTabs.logError; dsimp only; split
  · exact ⟨_, _, rfl⟩
  · split
    · exact ⟨_, _, rfl⟩
    · split <;> exact ⟨_, _, rfl⟩

@[simp] theorem State.ledger_logLine (s : State) (p : Place) (owner kind sym : Nat) : (s.logLine p owner kind sym).ledger = s.ledger := by
  have h : ({ s with tabs := s.tabs.logError s.nowUs p owner kind sym } : State).ledger = s.ledger := by
    obtain ⟨l, o, e⟩ := s.tabs.logError_keeps s.nowUs p owner kind sym
    rw [e]; rfl
  unfold State.logLine; dsimp only; split
  · rw [State.ledger_postEvent]; split <;> exact h
  · exact h

@[simp] theorem State.ledger_touchLine (s : State) (p : Place) (owner : Nat) : (s.touchLine p owner).ledger = s.ledger := by
  unfold State.touchLine; dsimp only; split
  · rfl
  · split
    · rfl
    · split <;> rw [State.ledger_logLine] <;> rfl

@[simp] theorem State.ledger_touchTables (s : State) (col : Nat) (ls : List Nat) : (s.touchTables col ls).ledger = s.ledger :=
  State.ledger_foldl _ (fun _ _ => State.ledger_touchLine _ _ _) _ _

@[simp] theorem State.ledger_touchWalk (s : State) (ctx col off : Nat) : (s.touchWalk ctx col off).ledger = s.ledger := by
  unfold State.touchWalk; split
  · rfl
  · exact s.ledger_touchTables _ _

@[simp] theorem State.ledger_touchMode (s : State) (p : Place) (owner : Nat) : (s.touchMode p owner).ledger = s.ledger := by
  unfold State.touchMode; dsimp only; split
  · rw [State.ledger_logLine]; rfl
  · rfl

@[simp] theorem State.ledger_touchBlock (s : State) (p : Place) (owner : Nat) : (s.touchBlock p owner).ledger = s.ledger := by
  unfold State.touchBlock; dsimp only; split
  · rfl
  · exact State.ledger_foldl _ (fun _ _ => State.ledger_touchLine _ _ _) _ _

@[simp] theorem State.ledger_readSpan (s : State) (sp : Span) (size : Nat) : (s.readSpan sp size).1.ledger = s.ledger := by
  unfold State.readSpan State.pageRead; dsimp only
  refine (State.ledger_foldl _ (fun t i => ?_) _ _).trans (s.ledger_touchTables _ _)
  split
  · split
    · rw [State.ledger_touchLine, State.ledger_touchMode]
    · rw [State.ledger_touchBlock, State.ledger_touchMode]
  · exact State.ledger_touchLine _ _ _

@[simp] theorem State.ledger_scrubSpad (s : State) (core reader : Nat) : (s.scrubSpad core reader).ledger = s.ledger := by
  unfold State.scrubSpad; dsimp only; split
  · rfl
  · refine State.ledger_foldl _ (fun t e => ?_) _ s
    split
    · rfl
    · exact State.ledger_postEvent _ _ _ _

/-! ## Writes -/

@[simp] theorem State.ledger_takeWrong (s : State) (p : Place) : (s.takeWrong p).ledger = s.ledger := by
  unfold State.takeWrong; split <;> rfl

@[simp] theorem State.ledger_fillLine (s : State) (p : Place) (owner : Nat) : (s.fillLine p owner).ledger = s.ledger :=
  (State.ledger_takeWrong _ _).trans (s.ledger_touchLine _ _)

@[simp] theorem State.ledger_fillBoth (s : State) (p : Place) (owner : Nat) : (s.fillBoth p owner).ledger = s.ledger := by
  unfold State.fillBoth; dsimp only; split <;> simp only [State.ledger_fillLine]

@[simp] theorem State.ledger_putBytes (s : State) (p : Place) (bs : List Byte) : (s.putBytes p bs).ledger = s.ledger := by
  rw [State.putBytes_keeps]; rfl

@[simp] theorem State.ledger_mirrorBlock (s : State) (p : Place) (mode : Nat) (st : List Byte) : (s.mirrorBlock p mode st).ledger = s.ledger := by
  unfold State.mirrorBlock; split
  · rfl
  · exact s.ledger_putBytes _ _

@[simp] theorem State.ledger_writeBackBlock (s : State) (p : Place) : (s.writeBackBlock p).ledger = s.ledger := by
  unfold State.writeBackBlock; dsimp only; split
  · rfl
  · exact (State.ledger_mirrorBlock _ _ _ _).trans (s.ledger_putBytes _ _)

@[simp] theorem State.ledger_cleanBlock (s : State) (p : Place) : (s.cleanBlock p).ledger = s.ledger := by
  unfold State.cleanBlock; dsimp only
  refine (State.ledger_foldl _ (fun t i => ?_) _ _).trans (s.ledger_writeBackBlock p)
  split <;> rfl

@[simp] theorem State.ledger_storeByte (s : State) (col : Nat) (tier : Bool) (off : Nat) (b : Byte) : (s.storeByte col tier off b).ledger = s.ledger := by
  unfold State.storeByte; dsimp only; split <;> rfl

@[simp] theorem State.ledger_pageWrite (s : State) (col : Nat) (p : Page) (raw : Bool) (po : Nat) (bs : List Byte) :
    (s.pageWrite col p raw po bs).ledger = s.ledger := by
  have bytes (t : State) (n : Nat) (off : Nat → Nat) (b : Nat → Byte) :
      ((List.range n).foldl (fun s i => s.storeByte col p.tier (off i) (b i)) t).ledger = t.ledger :=
    State.ledger_foldl _ (fun _ _ => State.ledger_storeByte _ _ _ _ _) _ _
  unfold State.pageWrite; dsimp only; split
  · exact State.ledger_foldl _ (fun t i => bytes t _ _ _) _ _
  · split
    · exact s.ledger_touchMode _ _
    · refine (bytes _ _ _ _).trans ?_
      split
      · exact s.ledger_writeBackBlock _
      · rfl

@[simp] theorem State.ledger_fillSpans (s : State) (cells : List (Nat × Nat × Bool)) (ws : List (Span × List Byte × Bool)) :
    (s.fillSpans cells ws).ledger = s.ledger := by
  unfold State.fillSpans; dsimp only; split
  · rfl
  · refine (State.ledger_foldl _ (fun t w => State.ledger_foldl _ (fun t i => ?_) _ _) _ _).trans
      (State.ledger_foldl _ (fun t w => t.ledger_touchTables _ _) _ _)
    split
    · exact t.ledger_touchBlock _ _
    · split
      · rfl
      · exact t.ledger_fillBoth _ _

@[simp] theorem State.ledger_writeSpans (s : State) (ws : List (Span × List Byte × Bool)) : (s.writeSpans ws).ledger = s.ledger := by
  unfold State.writeSpans; dsimp only
  exact (State.ledger_foldl (fun (s : State) (w : Span × List Byte × Bool) => s.pageWrite w.1.col w.1.page w.1.raw w.1.po w.2.1)
    (fun t w => t.ledger_pageWrite _ _ _ _ _) ws (s.fillSpans _ ws)).trans (s.ledger_fillSpans _ _)

@[simp] theorem State.ledger_writeRange (s : State) (ctx : Nat) (self : Option Nat) (a : Nat) (bs : List Byte) (poi : Bool) :
    (s.writeRange ctx self a bs poi).1.ledger = s.ledger := by
  unfold State.writeRange; split
  · rfl
  · split
    · rfl
    · split
      · rfl
      · exact s.ledger_touchWalk _ _ _
      · split
        · rfl
        · exact s.ledger_writeSpans _

/-! ## Scratchpad and save area -/

@[simp] theorem State.ledger_spadSetAll (ws : List (Word × Bool)) (s : State) (core a : Nat) : (s.spadSetAll core a ws).ledger = s.ledger := by
  induction ws generalizing s a with
  | nil => rfl
  | cons w ws ih => exact (ih _ _).trans rfl

@[simp] theorem State.ledger_touchTier (s : State) (col off n : Nat) : (s.touchTier col off n).ledger = s.ledger := by
  unfold State.touchTier; split
  · rfl
  · exact State.ledger_foldl _ (fun _ _ => State.ledger_touchLine _ _ _) _ _

@[simp] theorem State.ledger_imageIn (s : State) (col off core a n : Nat) : (s.imageIn col off core a n).ledger = s.ledger := by
  unfold State.imageIn; exact (State.ledger_spadSetAll _ _ _ _).trans (s.ledger_touchTier _ _ _)

@[simp] theorem State.ledger_tierBytes (s : State) (col off : Nat) (bs : List Byte) : (s.tierBytes col off bs).ledger = s.ledger :=
  State.ledger_foldl (fun (s : State) (i : Nat) => s.storeByte col true (off + i) (bs.getD i 0))
    (fun _ _ => State.ledger_storeByte _ _ _ _ _) (List.range bs.length) s

@[simp] theorem State.ledger_imageOut (s : State) (col off core a n : Nat) : (s.imageOut col off core a n).ledger = s.ledger := by
  unfold State.imageOut; dsimp only
  refine (State.ledger_foldl _ (fun t i => ?_) _ _).trans (s.ledger_tierBytes _ _ _)
  rfl

@[simp] theorem State.ledger_saveColumn (s : State) (ctx col : Nat) (h : KHdr) (how : Nat) : (s.saveColumn ctx col h how).ledger = s.ledger := by
  have parts (l : List (Nat × List Byte)) (o : Nat) : (l.foldl (fun (s : State) p => s.tierBytes col (o + p.1) p.2) s).ledger = s.ledger :=
    State.ledger_foldl _ (fun t p => t.ledger_tierBytes _ _ _) _ _
  unfold State.saveColumn; dsimp only; split
  · exact parts _ _
  · exact (State.ledger_imageOut _ _ _ _ _ _).trans (parts _ _)

@[simp] theorem State.ledger_saveWindow (s : State) (ctx core : Nat) : (s.saveWindow ctx core).ledger = s.ledger := s.ledger_imageOut _ _ _ _ _

/-! ## Triggers (R97 to R99) -/

/-- A launch queue changed but for its records and their count. -/
theorem State.ledger_modLq (s : State) (c q : Nat) (f : LQueue → LQueue) (h : (f (s.lq c q)).entry = (s.lq c q).entry) :
    (s.modLq c q f).ledger = s.ledger := by
  have e : ∀ k, (tabGet (s.modLq c q f).sch.queues k).entry = (tabGet s.sch.queues k).entry := fun k => by
    unfold State.modLq State.setLq; dsimp only
    rw [tabGet_tabSet]; split
    · next hk => rw [h, hk]; rfl
    · rfl
  unfold State.ledger; rw [funext e]; rfl

@[simp] theorem State.ledger_setTrig (s : State) (ctx port : Nat) (t : TrigSt) : (s.setTrig ctx port t).ledger = s.ledger := by
  unfold State.setTrig; split
  · rfl
  · split
    · rfl
    · exact s.ledger_modLq _ _ _ rfl

@[simp] theorem State.ledger_fire (s : State) (ctx port : Nat) : (s.fire ctx port).ledger = s.ledger := by
  unfold State.fire; dsimp only; split
  · exact s.ledger_setTrig _ _ _
  · exact s.ledger_setTrig _ _ _

@[simp] theorem State.ledger_touchSem (s : State) (ctx addr : Nat) : (s.touchSem ctx addr).ledger = s.ledger := by
  unfold State.touchSem; split
  · exact s.ledger_readSpan _ _
  · rfl

/-- Arming a record changes triggers alone. -/
@[simp] theorem State.ledger_arm (s : State) (ctx port : Nat) : (s.arm ctx port).ledger = s.ledger := by
  unfold State.arm; split
  · rfl
  · next c r t _ =>
    split
    · rfl
    · have hs : (if recTrig r = 2 then s.touchSem c (recTrigAddr r) else s).ledger = s.ledger := by
        split
        · exact s.ledger_touchSem _ _
        · rfl
      dsimp only
      generalize (if recTrig r = 2 then s.touchSem c (recTrigAddr r) else s) = u at *
      split
      · exact (u.ledger_setTrig _ _ _).trans hs
      · split
        · exact (u.ledger_fire _ _).trans hs
        · exact (State.ledger_setTrig _ _ _ _).trans hs

@[simp] theorem State.ledger_armWaiting (s : State) : s.armWaiting.ledger = s.ledger :=
  State.ledger_foldl (fun (s : State) (h : Nat × Nat) => s.arm h.1 h.2) (fun t h => t.ledger_arm h.1 h.2) s.waitingHeads s

@[simp] theorem State.ledger_recheck (s : State) (f : TrigEnt → Bool) : (s.recheck f).ledger = s.ledger := by
  unfold State.recheck; dsimp only; split
  · rfl
  · exact (State.ledger_armWaiting _).trans 
      (State.ledger_foldl (fun (s : State) (e : TrigEnt) => s.fire e.ctx e.port) (fun t e => t.ledger_fire e.ctx e.port) _ _)

@[simp] theorem State.ledger_signalSem (s : State) (ctx : Nat) (self : Option Nat) (a : Nat) (v : DWord) (set : Bool) :
    (s.signalSem ctx self a v set).1.ledger = s.ledger := by
  unfold State.signalSem; split
  · rfl
  · split
    · rfl
    · exact s.ledger_touchWalk _ _ _
    · next sp _ =>
      split
      · rfl
      · have h := s.ledger_readSpan sp 8
        dsimp only; split
        · exact h
        · exact (State.ledger_recheck _ _).trans ((State.ledger_writeSpans _ _).trans h)

end Sys2Proof.Machine
namespace Sys2Proof.Machine

/-! ## Submission (R65 to R68, R73, R432) -/

theorem State.lq_modLq_same (s : State) (c q : Nat) (f : LQueue → LQueue) : (s.modLq c q f).lq c q = f (s.lq c q) := tabGet_tabSet_same _ _ _

/-- A write of 64 bytes at offset 0 of a port is a submission (R65). -/
theorem State.dmwr_record (s : State) (link : Nat) {port : Nat} {bytes : List Byte} (hp : port < 66) (hb : bytes.length = 64) :
    s.dmwr link port ⟨0, bytes⟩ = s.hostSubmit link port (recOf bytes) := by
  unfold State.dmwr; dsimp only
  rw [hb, if_neg (by decide), if_neg (by omega)]

/-- Another write to window A that stays within 4 KiB is an Unsupported Request (R65, R66). -/
theorem State.dmwr_unsupported (s : State) (link : Nat) {port off : Nat} {bytes : List Byte} (hc : crosses4K off bytes.length = false)
    (h : 66 ≤ port ∨ off ≠ 0 ∨ bytes.length ≠ 64) : s.dmwr link port ⟨off, bytes⟩ = s.reply .ur := by
  unfold State.dmwr; dsimp only
  rw [hc, if_neg Bool.false_ne_true, if_pos h]

theorem State.hostSubmit_accepted {s : State} {link port : Nat} {r : Rec64} (h : s.submitCode false link port r = 0) :
    s.hostSubmit link port r = (s.enqueue (recCtx r) port r).reply .sc := by
  unfold State.hostSubmit; rw [h]; rfl

/-- The state after a refusal: its code is the port's last one (R66). -/
def State.refused (s : State) (port : Nat) (r : Rec64) (code : Nat) : State :=
  { s with tabs.lastRef := tabSet s.tabs.lastRef (16 * port + if port < 64 then recCtx r else 0) (BitVec.ofNat 8 code) }

theorem State.hostSubmit_refused {s : State} {link port : Nat} {r : Rec64} (h : s.submitCode false link port r ≠ 0) :
    s.hostSubmit link port r = (s.refused port r (s.submitCode false link port r)).reply .rrs := by
  unfold State.hostSubmit; split
  · next h0 => exact absurd h0 h
  · rfl

theorem State.lastRef_refused (s : State) {port : Nat} (r : Rec64) {code : Nat} (hp : port < 64) (hc : code < 2 ^ 8) :
    (tabGet (s.refused port r code).tabs.lastRef (16 * port + recCtx r)).toNat = code := by
  unfold State.refused; dsimp only
  rw [if_pos hp, tabGet_tabSet_same, BitVec.toNat_ofNat, Nat.mod_eq_of_lt hc]

theorem State.submitCode_lt (s : State) (device : Bool) (link port : Nat) (r : Rec64) : s.submitCode device link port r < 2 ^ 8 := by
  unfold State.submitCode; dsimp only
  repeat' split
  all_goals decide

theorem exec_submitLaunchRecord {s : State} {link port : Nat} (hl : s.linkUp link = true) (hp : port < 128) (w : PortWrite) :
    exec (.submitLaunchRecord link port w) s = .next (s.dmwr link port w) := by
  show execSubmitLaunchRecord link port w s = _
  unfold execSubmitLaunchRecord; rw [hl, if_pos (by simpa using hp)]

theorem exec_submitCollectiveRecord {s : State} {link : Nat} (hl : s.linkUp link = true) (w : PortWrite) :
    exec (.submitCollectiveRecord link w) s = .next (s.dmwr link 64 w) := by
  show execSubmitCollectiveRecord link w s = _
  unfold execSubmitCollectiveRecord; rw [if_pos hl]

theorem exec_submitManagementRecord {s : State} {link : Nat} (hl : s.linkUp link = true) (w : PortWrite) :
    exec (.submitManagementRecord link w) s = .next (s.dmwr link 65 w) := by
  show execSubmitManagementRecord link w s = _
  unfold execSubmitManagementRecord; rw [if_pos hl]

/-! ### Records accepted -/

theorem State.enqueue_launch (s : State) (ctx : Nat) {port : Nat} (r : Rec64) (hp : port < 64) :
    ((s.enqueue ctx port r).lq ctx port).recs = (s.lq ctx port).recs ++ [r] ∧ (s.enqueue ctx port r).boot.replies = s.boot.replies := by
  unfold State.enqueue; rw [if_pos hp]
  have h := State.ledger_arm (s.modLq ctx port fun q => { q with recs := q.recs ++ [r], accepted := q.accepted + 1 }) ctx port
  exact ⟨by rw [State.recs_of_ledger h, State.lq_modLq_same], (State.replies_of_ledger h).trans rfl⟩

theorem State.enqueue_collective (s : State) (ctx : Nat) (r : Rec64) :
    (s.enqueue ctx 64 r).sch.collq = s.sch.collq ++ [⟨ctx, r, s.sch.collNum⟩] ∧ (s.enqueue ctx 64 r).boot.replies = s.boot.replies := by
  unfold State.enqueue; rw [if_neg (by decide), if_pos rfl]
  have h := State.ledger_arm { s with sch.collq := s.sch.collq ++ [SubRec.mk ctx r s.sch.collNum], sch.collNum := s.sch.collNum + 1 } ctx 64
  exact ⟨(State.collq_of_ledger h).trans rfl, (State.replies_of_ledger h).trans rfl⟩

theorem State.putCtxState_keeps (s : State) (c st : Nat) : ∃ x, s.putCtxState c st = { s with tabs := { s.tabs with ctx := x } } := ⟨_, rfl⟩

/-- Dispatch stops and CURRENT[4] is set (R75). -/
def State.stopDispatch (s : State) : State := { s with tabs.switching := true, sch.stopped := true }

theorem State.cut_eq (s : State) (new : Nat) : s.cut new = (if ctxState (s.ctxEnt new) = 2 then s else s.putCtxState new 3).stopDispatch := rfl

/-- What a cut changes (R75): the context table, CURRENT[4] and the stop of dispatch. -/
theorem State.cut_keeps (s : State) (new : Nat) :
    ∃ x, s.cut new = { s with tabs := { s.tabs with ctx := x, switching := true }, sch := { s.sch with stopped := true } } := by
  rw [State.cut_eq]; split
  · exact ⟨_, rfl⟩
  · obtain ⟨x, e⟩ := s.putCtxState_keeps new 3
    rw [e]; exact ⟨x, rfl⟩

/-- What the acceptance of a management record does by itself changes no queue and answers nothing. -/
theorem State.mgmt_acceptMgmt (s : State) (r : Rec64) :
    (s.acceptMgmt r).sch.mgmt = s.sch.mgmt ∧ (s.acceptMgmt r).boot.replies = s.boot.replies := by
  unfold State.acceptMgmt; dsimp only; split
  · split
    · exact ⟨rfl, rfl⟩
    · obtain ⟨x, e⟩ := State.cut_keeps { s with sch.cuts := s.sch.cuts ++ [s.tick] } (fieldNat r 195 192)
      rw [e]; exact ⟨rfl, rfl⟩
  · split <;> exact ⟨rfl, rfl⟩

/-- The acceptance of a switch to a context that will not be current is its cut (R75). -/
theorem State.acceptMgmt_switch {s : State} {r : Rec64} (hk : recKind r = 0x10) (ht : recTrig r = 0)
    (hc : s.currentAfter ≠ some (fieldNat r 195 192)) : (s.acceptMgmt r).tabs.switching = true ∧ (s.acceptMgmt r).sch.stopped = true := by
  unfold State.acceptMgmt; dsimp only
  obtain ⟨x, e⟩ := State.cut_keeps { s with sch.cuts := s.sch.cuts ++ [s.tick] } (fieldNat r 195 192)
  rw [if_pos ⟨hk, ht⟩, if_neg hc, e]; exact ⟨rfl, rfl⟩

theorem State.enqueue_management (s : State) (ctx : Nat) (r : Rec64) :
    (s.enqueue ctx 65 r).ledger = ({ s.acceptMgmt r with sch.mgmt := (s.acceptMgmt r).sch.mgmt ++ [r] } : State).ledger := by
  unfold State.enqueue; rw [if_neg (by decide), if_neg (by decide)]
  exact State.ledger_arm _ _ _

/-- Settles O6: each port's queue as the acceptance or the refusal of a record leaves it; what arming the queue's head then does leaves the ledger. -/
theorem recordSubmission : Obligations.RecordSubmission := by
  unfold Obligations.RecordSubmission
  refine ⟨fun s link port bytes hl hp hb => ⟨fun h => ?_, fun h => ?_⟩, fun s link bytes hl hb h => ?_, fun s link bytes hl hb h => ?_,
    fun s link port off bytes hl hp hc h => ?_⟩
  · obtain ⟨hrecs, hrep⟩ := s.enqueue_launch (recCtx (recOf bytes)) (recOf bytes) hp
    refine ⟨_, exec_submitLaunchRecord hl (by omega) _, ?_⟩
    rw [s.dmwr_record link (by omega) hb, State.hostSubmit_accepted h]
    exact ⟨hrecs, congrArg (· ++ [HostReply.sc]) hrep⟩
  · refine ⟨_, exec_submitLaunchRecord hl (by omega) _, ?_⟩
    rw [s.dmwr_record link (by omega) hb, State.hostSubmit_refused h]
    exact ⟨rfl, rfl, s.lastRef_refused _ hp (s.submitCode_lt _ _ _ _)⟩
  · obtain ⟨hq, hrep⟩ := s.enqueue_collective (recCtx (recOf bytes)) (recOf bytes)
    refine ⟨_, exec_submitCollectiveRecord hl _, ?_⟩
    rw [s.dmwr_record link (by decide) hb, State.hostSubmit_accepted h]
    exact ⟨hq, congrArg (· ++ [HostReply.sc]) hrep⟩
  · obtain ⟨hm, hrep⟩ := s.mgmt_acceptMgmt (recOf bytes)
    have hq := s.enqueue_management (recCtx (recOf bytes)) (recOf bytes)
    refine ⟨_, exec_submitManagementRecord hl _, ?_⟩
    rw [s.dmwr_record link (by decide) hb, State.hostSubmit_accepted h]
    refine ⟨(State.mgmt_of_ledger hq).trans (congrArg (· ++ [_]) hm),
      congrArg (· ++ [HostReply.sc]) ((State.replies_of_ledger hq).trans hrep), fun hk ht hc => ?_⟩
    obtain ⟨hsw, hst⟩ := State.acceptMgmt_switch hk ht hc
    exact ⟨(State.switching_of_ledger hq).trans hsw, (State.stopped_of_ledger hq).trans hst⟩
  · rw [exec_submitLaunchRecord hl hp, s.dmwr_unsupported link hc h]; rfl

end Sys2Proof.Machine
/-!
SUPPORT. Context switches, signals and aborts (R73, R75, R103, R104, R148, R464, R467): the obligation O7.
-/

namespace Sys2Proof.Machine

/-! ## Faults, and packets to other modules -/

@[simp] theorem State.ledger_dropFaults (s : State) (f : Waiter → Bool) : (s.dropFaults f).ledger = s.ledger := rfl

@[simp] theorem State.ledger_postFault (s : State) (e : FaultEnt) : (s.postFault e).ledger = s.ledger := by
  unfold State.postFault; dsimp only; split
  · exact s.ledger_postEvent _ _ _
  · rfl

@[simp] theorem State.ledger_parkFault (s : State) (w : Waiter) (ctx col off : Nat) (acc : Acc) : (s.parkFault w ctx col off acc).ledger = s.ledger := by
  unfold State.parkFault; split
  · rfl
  · split
    · rfl
    · exact (State.ledger_postFault _ _).trans (s.ledger_touchWalk _ _ _)

@[simp] theorem State.ledger_launchPkt (s : State) (p : Packet) : (s.launchPkt p).ledger = s.ledger := by
  unfold State.launchPkt; split <;> rfl

@[simp] theorem State.ledger_forget (s : State) (p : Packet) : (s.forget p).ledger = s.ledger := by
  unfold State.forget; split
  · rfl
  · exact State.ledger_foldl _ (fun t a => by rfl) _ _

@[simp] theorem State.ledger_unreachable (s : State) (p : Packet) (cause : Nat) : (s.unreachable p cause).ledger = s.ledger := by
  have h : ((s.forget p).postEvent 5 (pktSrc p) (cause + at_ p.dest.toNat 64)).ledger = s.ledger := by simp
  unfold State.unreachable; dsimp only
  generalize (s.forget p).postEvent 5 (pktSrc p) (cause + at_ p.dest.toNat 64) = u at *
  split
  · exact h
  · exact (State.ledger_launchPkt _ _).trans h

@[simp] theorem State.ledger_send (s : State) (p : Packet) : (s.send p).ledger = s.ledger := by
  unfold State.send; split
  · exact s.ledger_unreachable _ _
  · split
    · rfl
    · exact s.ledger_unreachable _ _

/-! ## The end of a launch (R71, R464) -/

@[simp] theorem State.ledger_endWait (s : State) (ctx queue k : Nat) (c : BitVec 128) (col off : Nat) (acc : Acc) :
    (s.endWait ctx queue k c col off acc).ledger = s.ledger :=
  (State.ledger_parkFault _ _ _ _ _ _).trans (s.ledger_modLq _ _ _ rfl)

@[simp] theorem State.ledger_endEvent (s : State) (ctx queue : Nat) (r : Rec64) (c : BitVec 128) : (s.endEvent ctx queue r c).ledger = s.ledger := by
  have h : (if bitOf (recFlags r) 1 then s.postEvent 12 (qKey ctx queue) c.toNat else s).ledger = s.ledger := by
    split
    · exact s.ledger_postEvent _ _ _
    · rfl
  unfold State.endEvent
  generalize (if bitOf (recFlags r) 1 then s.postEvent 12 (qKey ctx queue) c.toNat else s) = u at *
  exact (State.ledger_arm _ _ _).trans ((State.ledger_modLq _ _ _ _ rfl).trans h)

@[simp] theorem State.ledger_endSend (s : State) (ctx queue k : Nat) (c : BitVec 128) (kind op a : Nat) (accs : List LaneAcc) :
    (s.endSend ctx queue k c kind op a accs).ledger = s.ledger :=
  (State.ledger_modLq _ _ _ _ rfl).trans (State.ledger_send _ _)

@[simp] theorem State.ledger_endSem (s : State) (ctx queue : Nat) (r : Rec64) (c : BitVec 128) : (s.endSem ctx queue r c).ledger = s.ledger := by
  unfold State.endSem; dsimp only; split
  · exact s.ledger_endEvent _ _ _ _
  · split
    · exact s.ledger_endSend _ _ _ _ _ _ _ _
    · have h := s.ledger_signalSem ctx none (fieldNat r 447 384) (fieldBits r 448 64) false
      split <;> simp_all

@[simp] theorem State.ledger_countEnd (s : State) (ctx queue : Nat) : (s.countEnd ctx queue).ledger = s.ledger :=
  (State.ledger_recheck _ _).trans (s.ledger_modLq _ _ _ rfl)

@[simp] theorem State.ledger_endRecord (s : State) (ctx queue : Nat) (r : Rec64) (c : BitVec 128) : (s.endRecord ctx queue r c).ledger = s.ledger := by
  unfold State.endRecord; dsimp only; split
  · rw [State.ledger_endSem, State.ledger_countEnd]; split <;> rfl
  · split
    · exact s.ledger_endSend _ _ _ _ _ _ _ _
    · have h := s.ledger_writeRange ctx none (fieldNat r 383 320) (bytesOf 16 c.toNat) false
      split <;> simp_all

@[simp] theorem State.ledger_endLaunch (s : State) (ctx queue status stage fail : Nat) : (s.endLaunch ctx queue status stage fail).ledger = s.ledger := by
  unfold State.endLaunch; split
  · rfl
  · dsimp only; split
    · exact s.ledger_endRecord _ _ _ _
    · exact s.ledger_modLq _ _ _ rfl
    · rfl

@[simp] theorem State.ledger_endDoomed (l : List (Rec64 × BitVec 128)) (s : State) (ctx queue : Nat) : (s.endDoomed ctx queue l).ledger = s.ledger := by
  induction l generalizing s with
  | nil => exact s.ledger_modLq _ _ _ rfl
  | cons e l ih =>
    unfold State.endDoomed; split
    · exact s.ledger_modLq _ _ _ rfl
    · rw [ih, State.ledger_endRecord]; exact s.ledger_modLq _ _ _ rfl

@[simp] theorem State.ledger_endNext (s : State) (ctx queue : Nat) : (s.endNext ctx queue).ledger = s.ledger := by
  unfold State.endNext; split
  · exact State.ledger_endDoomed _ _ _ _
  · rfl

/-! ## Groups discarded, operations ended (R122, R426, R433, R467) -/

@[simp] theorem State.ledger_freeCores (s : State) (cores : List Nat) : (s.freeCores cores).ledger = s.ledger := by
  refine State.ledger_foldl _ (fun t k => ?_) _ _
  split <;> rfl

/-- A ledger with a group's entry set. -/
def Ledger.setGroup (l : Ledger) (g : Nat) (v : Option Group) : Ledger := { l with groups := tabSet l.groups g v }

theorem State.ledger_setGroup (s : State) (g : Nat) (v : Option Group) : (s.setGroup g v).ledger = s.ledger.setGroup g v := rfl

@[simp] theorem State.ledger_evict (s : State) (g : Nat) (gr : Group) : (s.evict g gr).ledger = s.ledger := rfl

/-- A discarded group is listed no more, and nothing else of the ledger changes. -/
theorem State.ledger_discardGroup (s : State) (g : Nat) (gr : Group) : (s.discardGroup g gr).ledger = s.ledger.setGroup g none := by
  unfold State.discardGroup; split
  · rfl
  · rw [State.ledger_freeCores]; rfl

@[simp] theorem State.ledger_endRec (s : State) (o : ClctOp) : (s.endRec o).ledger = s.ledger := by
  unfold State.endRec; split
  · rfl
  · dsimp only; split <;> rfl

@[simp] theorem State.ledger_abortOps (s : State) (f : EngOp → Bool) : (s.abortOps f).ledger = s.ledger := by
  have handles (l : List (Nat × EngOp)) : (l.foldl (fun (s : State) (e : Nat × EngOp) =>
      e.2.body.joined.foldl (fun s m => s.setHandle m.1 m.2 (statusWord 3 0 0 0)) s) s).ledger = s.ledger :=
    State.ledger_foldl _ (fun t e => State.ledger_foldl _ (fun t m => by rfl) _ _) _ _
  unfold State.abortOps; dsimp only
  refine (State.ledger_foldl _ (fun t e => ?_) _ _).trans ((State.ledger_dropFaults _ _).trans (handles _))
  split
  · exact t.ledger_endRec _
  · rfl

end Sys2Proof.Machine
namespace Sys2Proof.Machine

/-! ## A context aborted (R73, R467) -/

theorem mem_of_tabGet_some {α : Type} {t : Tab (Option α)} {k : Nat} {v : α} (h : tabGet t k = some v) : (k, some v) ∈ t := by
  induction t with
  | nil => cases h
  | cons e t ih =>
    obtain ⟨k', v'⟩ := e
    rw [tabGet_cons] at h
    split at h
    · next hk => rw [hk, h]; exact List.mem_cons_self
    · exact List.mem_cons_of_mem _ (ih h)

/-- A group's entry is listed. -/
theorem State.mem_groupList {s : State} {g : Nat} {gr : Group} (h : s.group g = some gr) : (g, gr) ∈ s.groupList :=
  List.mem_filterMap.mpr ⟨(g, some gr), mem_of_tabGet_some h, rfl⟩

/-- Some groups' entries cleared. -/
def clearGroups (l : List (Nat × Group)) (t : Tab (Option Group)) : Tab (Option Group) := l.foldl (fun t e => tabSet t e.1 none) t

/-- An entry that stays when some groups' entries are cleared is none of theirs. -/
theorem tabGet_clearGroups {l : List (Nat × Group)} {t : Tab (Option Group)} {g : Nat} {gr : Group} (h : tabGet (clearGroups l t) g = some gr) :
    tabGet t g = some gr ∧ ∀ e ∈ l, e.1 ≠ g := by
  induction l generalizing t with
  | nil => exact ⟨h, fun e he => nomatch he⟩
  | cons a l ih =>
    obtain ⟨ht, hl⟩ := ih h
    rw [tabGet_tabSet] at ht
    split at ht
    · cases ht
    · next hg => exact ⟨ht, List.forall_mem_cons.mpr ⟨fun e => hg e.symm, hl⟩⟩

theorem State.ledger_discardGroups (l : List (Nat × Group)) (s : State) :
    (l.foldl (fun s g => s.discardGroup g.1 g.2) s).ledger = { s.ledger with groups := clearGroups l s.sch.groups } := by
  induction l generalizing s with
  | nil => rfl
  | cons a l ih =>
    have h := s.ledger_discardGroup a.1 a.2
    rw [List.foldl_cons, ih, h, State.groups_of_ledger (s := s.setGroup a.1 none) h]; rfl

/-- The records of a queue that stay when the first `n` accepted end. -/
def keptRecs (n : Nat) (e : List Rec64 × Nat) : List Rec64 × Nat := (e.1.drop (n - (e.2 - e.1.length)), e.2)

/-- One queue's turn as a context's launches end (R467). -/
def State.endQueue (ctx status fail : Nat) (upto : Nat → Nat) (s : State) (q : Nat) : State :=
  let lq := s.lq ctx q
  let n := upto q - (lq.accepted - lq.recs.length)
  let old := (lq.recs.take n).map fun r => (r, completion (recTag r) status 0 fail)
  let s := s.modLq ctx q fun x => { x with recs := x.recs.drop n, trig := if n = 0 then x.trig else .idle, doomed := x.doomed ++ old }
  (if lq.accepted - lq.recs.length ≤ upto q then s.endLaunch ctx q status 0 fail else s).endNext ctx q

theorem State.endAll_eq (s : State) (ctx status fail : Nat) (upto : Nat → Nat) :
    s.endAll ctx status fail upto = (List.range 64).foldl (State.endQueue ctx status fail upto) s := rfl

/-- A launch queue's entry changed. -/
theorem State.ledger_modLq_entry (s : State) (c q : Nat) (f : LQueue → LQueue) :
    (s.modLq c q f).ledger = { s.ledger with recs := Function.update s.ledger.recs (qKey c q) (f (s.lq c q)).entry } := by
  have e : ∀ k, (tabGet (s.modLq c q f).sch.queues k).entry = Function.update s.ledger.recs (qKey c q) (f (s.lq c q)).entry k := fun k => by
    unfold State.modLq State.setLq; dsimp only
    rw [tabGet_tabSet, Function.update_apply]; split <;> rfl
  unfold State.ledger at e ⊢; rw [funext e]; rfl

theorem State.ledger_endQueue (ctx status fail : Nat) (upto : Nat → Nat) (s : State) (q : Nat) : (State.endQueue ctx status fail upto s q).ledger =
    { s.ledger with recs := Function.update s.ledger.recs (qKey ctx q) (keptRecs (upto q) (s.lq ctx q).entry) } := by
  unfold State.endQueue
  extract_lets lq n old u
  have hu : u.ledger = _ := s.ledger_modLq_entry ctx q _
  rw [State.ledger_endNext]
  split
  · rw [State.ledger_endLaunch, hu]; rfl
  · rw [hu]; rfl

/-- The ends of a context's launches change the records of queues alone: of queue q the first `upto q` accepted leave. -/
theorem State.endAll_spec (s : State) (ctx status fail : Nat) (upto : Nat → Nat) :
    ∃ recs, (s.endAll ctx status fail upto).ledger = { s.ledger with recs := recs }
      ∧ ∀ q, q < 64 → recs (qKey ctx q) = keptRecs (upto q) (s.lq ctx q).entry := by
  have step (n : Nat) (hn : n ≤ 64) : ∃ recs, ((List.range n).foldl (State.endQueue ctx status fail upto) s).ledger = { s.ledger with recs := recs }
      ∧ ∀ q, q < 64 → recs (qKey ctx q) = if q < n then keptRecs (upto q) (s.lq ctx q).entry else (s.lq ctx q).entry := by
    induction n with
    | zero => exact ⟨s.ledger.recs, rfl, fun q _ => rfl⟩
    | succ n ih =>
      obtain ⟨recs, h, hr⟩ := ih (by omega)
      rw [List.range_succ, List.foldl_append, List.foldl_cons, List.foldl_nil]
      generalize (List.range n).foldl (State.endQueue ctx status fail upto) s = u at h ⊢
      have hl : (u.lq ctx n).entry = (s.lq ctx n).entry :=
        (congrFun (congrArg Ledger.recs h) (qKey ctx n)).trans ((hr n (by omega)).trans (if_neg (lt_irrefl n)))
      refine ⟨_, (State.ledger_endQueue ctx status fail upto u n).trans (by rw [h]), fun q hq => ?_⟩
      rw [Function.update_apply, hl]
      by_cases hqn : q = n
      · subst hqn; rw [if_pos rfl, if_pos (by omega)]
      · rw [if_neg (by unfold qKey; omega)]
        have hlt : q < n ↔ q < n + 1 := by omega
        exact (hr q hq).trans (if_congr hlt rfl rfl)
  obtain ⟨recs, h, hr⟩ := step 64 le_rfl
  exact ⟨recs, h, fun q hq => (hr q hq).trans (if_pos hq)⟩

@[simp] theorem State.ledger_freeTrigs (s : State) (ctx : Nat) (keep : Nat → Bool) : (s.freeTrigs ctx keep).ledger = s.ledger := rfl

theorem State.ledger_collq (s : State) (q r : List SubRec) (t : TrigSt) :
    ({ s with sch := { s.sch with collq := q, collRun := r, collTrig := t } } : State).ledger = { s.ledger with collq := q } := rfl

/-- What ending a context's launches, collectives and triggers leaves of the ledger (R467): every other group, the collective records not ended, the
launch records accepted later. -/
theorem State.discardContext_spec (s : State) (ctx status fail : Nat) (upto : Nat → Nat) (coll : Nat) :
    ∃ recs, (s.discardContext ctx status fail upto coll).ledger = { s.ledger with
        groups := clearGroups (s.groupList.filter fun g => g.2.ctx == ctx) s.sch.groups
        collq := s.sch.collq.filter fun c => !(c.ctx == ctx && decide (c.num < coll)), recs := recs }
      ∧ ∀ q, q < 64 → recs (qKey ctx q) = keptRecs (upto q) (s.lq ctx q).entry := by
  unfold State.discardContext
  extract_lets later old s1 s2 sch s3 s4 s5 s6
  have h1 : s1.ledger = _ := s.ledger_discardGroups _
  have h2 : s2.ledger = s1.ledger := s1.ledger_abortOps _
  have hq : s2.sch.collq = s.sch.collq := (State.collq_of_ledger h2).trans (congrArg Ledger.collq h1)
  have h5 : s5.ledger = { s.ledger with
      groups := clearGroups (s.groupList.filter fun g => g.2.ctx == ctx) s.sch.groups, collq := s.sch.collq.filter fun c => !old c } := by
    rw [State.ledger_dropFaults, State.ledger_freeTrigs, State.ledger_collq, h2, hq, h1]
  obtain ⟨recs, h6, hr⟩ := s5.endAll_spec ctx status fail upto
  refine ⟨recs, ?_, fun q hlt => (hr q hlt).trans (congrArg _ (congrFun (congrArg Ledger.recs h5) (qKey ctx q)))⟩
  rw [State.ledger_armWaiting, State.ledger_arm, show s6.ledger = _ from h6, h5]

theorem State.ctxEnt_putCtxState (s : State) (c st : Nat) : (s.putCtxState c st).ctxEnt c = setCtxState (s.ctxEnt c) st := by
  unfold State.ctxEnt State.putCtxState; dsimp only; exact tabGet_tabSet_same _ _ _

theorem ctxState_setCtxState (e : Rec64) {st : Nat} (h : st < 256) : ctxState (setCtxState e st) = st := by
  unfold ctxState setCtxState fieldNat at_
  simp only [BitVec.toNat_ofNat, Nat.shiftLeft_eq, Nat.shiftRight_eq_div_pow]
  omega

theorem State.ctxState_putCtxState (s : State) (c : Nat) {st : Nat} (h : st < 256) : ctxState ((s.putCtxState c st).ctxEnt c) = st := by
  rw [State.ctxEnt_putCtxState, ctxState_setCtxState _ h]

/-- The abort record at the head of the queue, with what its acceptance fixed, is taken. -/
def State.popAbort (s : State) (rest : List Rec64) : State := { s.popMgmt rest with sch.aborts := s.sch.aborts.tail }

/-- No context is current. -/
def State.noneCurrent (s : State) : State := { s with tabs := { s.tabs with noCtx := true } }

theorem State.ctxEnt_noneCurrent (s : State) (c : Nat) : s.noneCurrent.ctxEnt c = s.ctxEnt c := rfl

/-- An abort ends what was accepted before it; a context that was current is it no more, and none is (R467). -/
theorem exec_abortContext {s : State} {r : Rec64} {rest : List Rec64} {c0 : Nat} {ups : List Nat} {coll : Nat}
    (h : s.mgmtHead 0x13 = some (r, rest)) (ha : s.sch.aborts.head? = some (c0, ups, coll)) :
    exec .abortContext s = .next (if s.current = some (fieldNat r 195 192)
      then (((s.popAbort rest).discardContext (fieldNat r 195 192) 3 0 (fun q => ups.getD q 0) coll).putCtxState (fieldNat r 195 192) 1).noneCurrent
      else (s.popAbort rest).discardContext (fieldNat r 195 192) 3 0 (fun q => ups.getD q 0) coll) := by
  rw [show exec .abortContext s = execAbortContext s from rfl]
  unfold execAbortContext; rw [h, ha]
  dsimp -zeta only [Option.map_some, Option.getD_some]
  extract_lets +onlyGivenNames ctx p sch u cur d
  have hu : s.popAbort rest = u := rfl
  have hd : u.discardContext (fieldNat r 195 192) 3 0 (fun q => ups.getD q 0) coll = d := rfl
  rw [hu, hd]
  by_cases hc : s.current = some ctx
  · rw [if_pos hc, if_pos (show cur = true from beq_iff_eq.mpr hc)]; rfl
  · rw [if_neg hc, if_neg (show ¬ cur = true from fun e => hc (beq_iff_eq.mp e))]

/-- The groups, queues and records that an abort leaves (R467). -/
theorem abortContext_leaves {s : State} {r : Rec64} {rest : List Rec64} {c0 : Nat} {ups : List Nat} {coll : Nat}
    (h : s.mgmtHead 0x13 = some (r, rest)) (ha : s.sch.aborts.head? = some (c0, ups, coll)) :
    let ctx := fieldNat r 195 192
    ∃ t, exec .abortContext s = .next t ∧ t.sch.mgmt = rest
      ∧ (∀ q, q < 64 → (t.lq ctx q).recs = (s.lq ctx q).recs.drop (ups.getD q 0 - ((s.lq ctx q).accepted - (s.lq ctx q).recs.length)))
      ∧ (∀ g gr, t.group g = some gr → s.group g = some gr ∧ gr.ctx ≠ ctx)
      ∧ t.sch.collq = s.sch.collq.filter (fun x => !(x.ctx == ctx && decide (x.num < coll)))
      ∧ (s.current = some ctx → t.tabs.noCtx = true ∧ ctxState (t.ctxEnt ctx) = 1) := by
  intro ctx
  refine ⟨_, exec_abortContext h ha, ?_⟩
  obtain ⟨recs, hl, hr⟩ := (s.popAbort rest).discardContext_spec ctx 3 0 (fun q => ups.getD q 0) coll
  generalize (s.popAbort rest).discardContext ctx 3 0 (fun q => ups.getD q 0) coll = d at hl
  have hs : (if s.current = some ctx then (d.putCtxState ctx 1).noneCurrent else d).sch = d.sch := by
    obtain ⟨x, hx⟩ := d.putCtxState_keeps ctx 1
    split
    · rw [hx]; rfl
    · rfl
  have hc (hc : s.current = some ctx) : (if s.current = some ctx then (d.putCtxState ctx 1).noneCurrent else d).tabs.noCtx = true
      ∧ ctxState ((if s.current = some ctx then (d.putCtxState ctx 1).noneCurrent else d).ctxEnt ctx) = 1 := by
    rw [if_pos hc, State.ctxEnt_noneCurrent, d.ctxState_putCtxState ctx (by decide)]
    exact ⟨rfl, rfl⟩
  generalize (if s.current = some ctx then (d.putCtxState ctx 1).noneCurrent else d) = t at hs hc
  refine ⟨hs ▸ congrArg Ledger.mgmt hl, fun q hq => ?_, fun g gr hg => ?_, hs ▸ congrArg Ledger.collq hl, hc⟩
  · have e : (d.lq ctx q).entry = recs (qKey ctx q) := congrFun (congrArg Ledger.recs hl) (qKey ctx q)
    unfold State.lq at e ⊢
    rw [hs]
    exact congrArg Prod.fst (e.trans (hr q hq))
  · have hd : tabGet d.sch.groups g = some gr := hs ▸ hg
    rw [show d.sch.groups = _ from congrArg Ledger.groups hl] at hd
    obtain ⟨hg, hne⟩ := tabGet_clearGroups hd
    exact ⟨hg, fun hx => hne (g, gr) (List.mem_filter.mpr ⟨State.mem_groupList hg, beq_iff_eq.mpr hx⟩) rfl⟩

end Sys2Proof.Machine
namespace Sys2Proof.Machine

/-! ## Switches and signals (R73, R75, R104, R464) -/

/-- The switch record at the head of the queue is taken, with the cut that its acceptance was. -/
def State.popSwitch (s : State) (r : Rec64) (rest : List Rec64) : State :=
  if recTrig r = 0 then { s.popMgmt rest with sch.cuts := (s.popMgmt rest).sch.cuts.tail } else s.popMgmt rest

theorem State.popSwitch_keeps (s : State) (r : Rec64) (rest : List Rec64) :
    ∃ x, s.popSwitch r rest = { s with sch := { s.sch with mgmt := rest, mgmtTrig := .idle, cuts := x } } := by
  unfold State.popSwitch; split <;> exact ⟨_, rfl⟩

/-- The switch that a record starts: its context, its cut, and the option of every resident group. -/
def State.newSwitch (s u : State) (r : Rec64) : Switch :=
  let us := u.units.map fun x => (x, u.chooseOpt (fieldNat r 255 224) x)
  ⟨fieldNat r 195 192, fieldNat r 255 224, if recTrig r = 0 then s.sch.cuts.headD s.tick else s.tick, u.tabs.curCtx, u.tabs.noCtx,
    us.flatMap fun x => x.1.map fun g => (g.1, x.2.1), false, true, us.all (·.2.2)⟩

theorem exec_switchContext {s : State} {r : Rec64} {rest : List Rec64} (h : s.mgmtHead 0x10 = some (r, rest))
    (ht : recTrig r = 0 ∨ s.recov = none) (hc : s.current ≠ some (fieldNat r 195 192)) :
    exec .switchContext s = .next { (s.popSwitch r rest).cut (fieldNat r 195 192) with
      sch := { ((s.popSwitch r rest).cut (fieldNat r 195 192)).sch with sw := some (s.newSwitch (s.popSwitch r rest) r) } } := by
  have hn : ¬ (recTrig r ≠ 0 ∧ s.recov.isSome = true) := by
    rintro ⟨h0, h1⟩
    rcases ht with ht | ht
    · exact h0 ht
    · rw [ht] at h1; cases h1
  have hcur : (s.popSwitch r rest).current = s.current := by
    obtain ⟨x, hx⟩ := s.popSwitch_keeps r rest
    rw [hx]; rfl
  rw [show exec .switchContext s = execSwitchContext s from rfl]
  unfold execSwitchContext; rw [h]
  dsimp -zeta only
  rw [if_neg hn]
  extract_lets +onlyGivenNames new cut p sch q us plan w
  have hq : s.popSwitch r rest = q := rfl
  rw [hq] at hcur ⊢
  rw [if_neg (by rw [hcur]; exact hc)]
  rfl

theorem State.ctxEnt_stopDispatch (s : State) (c : Nat) : s.stopDispatch.ctxEnt c = s.ctxEnt c := rfl

theorem State.ctxState_cut {s : State} {new : Nat} (h : ctxState (s.ctxEnt new) ≠ 2) : ctxState ((s.cut new).ctxEnt new) = 3 := by
  rw [State.cut_eq, if_neg h, State.ctxEnt_stopDispatch, s.ctxState_putCtxState new (by decide)]

theorem State.ctxEnt_popSwitch (s : State) (r : Rec64) (rest : List Rec64) (c : Nat) : (s.popSwitch r rest).ctxEnt c = s.ctxEnt c := by
  obtain ⟨x, hx⟩ := s.popSwitch_keeps r rest
  rw [hx]; rfl

/-- How a switch starts (R75): its context in STATE 3, dispatch stopped, columns and memory as they were. -/
theorem switchContext_starts {s : State} {r : Rec64} {rest : List Rec64} (h : s.mgmtHead 0x10 = some (r, rest))
    (ht : recTrig r = 0 ∨ s.recov = none) (hc : s.current ≠ some (fieldNat r 195 192)) :
    ∃ t w, exec .switchContext s = .next t ∧ t.sch.sw = some w ∧ w.newCtx = fieldNat r 195 192 ∧ w.pass2 = false
      ∧ w.cut = (if recTrig r = 0 then s.sch.cuts.headD s.tick else s.tick)
      ∧ t.sch.mgmt = rest ∧ t.sch.stopped = true ∧ t.tabs.switching = true
      ∧ (ctxState (s.ctxEnt w.newCtx) ≠ 2 → ctxState (t.ctxEnt w.newCtx) = 3) ∧ t.cols = s.cols ∧ t.mem = s.mem := by
  refine ⟨_, s.newSwitch (s.popSwitch r rest) r, exec_switchContext h ht hc, rfl, rfl, rfl, rfl, ?_⟩
  have hst (hn : ctxState (s.ctxEnt (fieldNat r 195 192)) ≠ 2) :=
    State.ctxState_cut (s := s.popSwitch r rest) (new := fieldNat r 195 192) (by rw [State.ctxEnt_popSwitch]; exact hn)
  obtain ⟨x, hx⟩ := s.popSwitch_keeps r rest
  obtain ⟨y, hy⟩ := (s.popSwitch r rest).cut_keeps (fieldNat r 195 192)
  rw [hy] at hst ⊢
  rw [hx] at hst ⊢
  exact ⟨rfl, rfl, rfl, hst, rfl, rfl⟩

/-! ### The completion of a switch -/

@[simp] theorem State.ledger_writeBackAll (s : State) : s.writeBackAll.ledger = s.ledger :=
  State.ledger_foldl (fun (s : State) b => s.cleanBlock (placeOf (256 * b))) (fun t _ => t.ledger_cleanBlock _) s.heldBlocks s

@[simp] theorem State.ledger_restoreColumn (s : State) (gid : Nat) (g : Group) (how : PreOpt) (idx col : Nat) :
    (s.restoreColumn gid g how idx col).ledger = s.ledger := by
  have h := s.ledger_touchTier col (s.saveoff g.ctx) (2 ^ 16)
  unfold State.restoreColumn
  cases how with
  | save => exact (State.ledger_imageIn _ _ _ _ _ _).trans h
  | flush => exact h
  | drain => exact h

/-- Restoring the saved groups of a context changes their entries alone of the ledger. -/
theorem State.ledger_restoreGroups (s : State) (ctx : Nat) : ∃ x, (s.restoreGroups ctx).ledger = { s.ledger with groups := x } := by
  unfold State.restoreGroups
  refine foldl_keeps (fun t : State => ∃ x, t.ledger = { s.ledger with groups := x }) _ (fun t x ht => ?_) _ _ ⟨_, rfl⟩
  obtain ⟨y, hy⟩ := ht
  extract_lets +onlyGivenNames g o colOn rot u v
  have hu : u.ledger = t.ledger := by
    refine State.ledger_foldl _ (fun t k => ?_) _ _
    split
    · rfl
    · extract_lets k0 a b
      split
      · exact (State.ledger_imageIn _ _ _ _ _ _).trans rfl
      · rfl
  refine ⟨tabSet y x.1 (some { g with phase := .running, keep := [] }), ?_⟩
  refine (State.ledger_foldl _ (fun t y => State.ledger_restoreColumn _ _ _ _ _ _) _ _).trans ?_
  rw [show v.ledger = u.ledger.setGroup x.1 _ from u.ledger_setGroup _ _, hu, hy]; rfl

/-- With no switch queued no cut is due. -/
theorem State.cutDue_of_no_switch {s : State} (h : ∀ r ∈ s.sch.mgmt, recKind r ≠ 0x10) : s.cutDue = false := by
  unfold State.cutDue
  refine List.foldlRecOn (motive := fun x : Option Nat × Bool => x.2 = false) s.sch.mgmt _ rfl fun x hx r hr => ?_
  dsimp only
  rw [if_neg (h r hr)]
  split
  · exact hx
  · exact hx

/-- A context becomes the current one, and the switch to it ends. -/
def State.enterCtx (s : State) (new : Nat) : State :=
  { s with tabs := { s.tabs with curCtx := new, noCtx := false }, sch := { s.sch with sw := none } }

/-- Dispatch resumes unless the cut of a queued switch has been made. -/
def State.resume (s : State) : State := { s with tabs := { s.tabs with switching := s.cutDue }, sch := { s.sch with stopped := s.cutDue } }

/-- The context table as a completed switch leaves it: the old context is not current, the new one is. -/
def State.ctxSwitched (s : State) (w : Switch) : State := (if w.noneCur then s else s.putCtxState w.old 1).putCtxState w.newCtx 2

theorem State.ctxSwitched_keeps (s : State) (w : Switch) : ∃ x, s.ctxSwitched w = { s with tabs := { s.tabs with ctx := x } } := by
  unfold State.ctxSwitched
  split
  · exact s.putCtxState_keeps _ _
  · obtain ⟨x, hx⟩ := s.putCtxState_keeps w.old 1
    obtain ⟨y, hy⟩ := (s.putCtxState w.old 1).putCtxState_keeps w.newCtx 2
    rw [hy, hx]; exact ⟨y, rfl⟩

theorem exec_switchContextComplete {s : State} {w : Switch} (h : s.sch.sw = some w) (hp : w.pass2 = true) : exec .switchContextComplete s =
    .next ((((({ s.writeBackAll with replicas := [] } : State).ctxSwitched w).enterCtx w.newCtx).resume.restoreGroups w.newCtx).switchEvent w false) := by
  rw [show exec .switchContextComplete s = execSwitchContextComplete s from rfl]
  unfold execSwitchContextComplete; rw [h]
  dsimp -zeta only
  rw [hp, if_neg (by decide)]
  extract_lets +onlyGivenNames src b d0 d tabs sch e tabs' sch' f g
  have hb : ({ src with replicas := [] } : State) = b := rfl
  have hd : b.ctxSwitched w = d := rfl
  have he : d.enterCtx w.newCtx = e := rfl
  have hf : e.resume = f := rfl
  have hg : f.restoreGroups w.newCtx = g := rfl
  rw [hb, hd, he, hf, hg]

theorem State.ctxState_ctxSwitched (s : State) (w : Switch) : ctxState ((s.ctxSwitched w).ctxEnt w.newCtx) = 2 := by
  unfold State.ctxSwitched; exact State.ctxState_putCtxState _ _ (by decide)

theorem State.mgmt_ctxSwitched (s : State) (w : Switch) : (s.ctxSwitched w).sch.mgmt = s.sch.mgmt := by
  obtain ⟨x, hx⟩ := s.ctxSwitched_keeps w
  rw [hx]

theorem State.replicas_ctxSwitched (s : State) (w : Switch) : (s.ctxSwitched w).replicas = s.replicas := by
  obtain ⟨x, hx⟩ := s.ctxSwitched_keeps w
  rw [hx]

/-- What is left once a context is the current one, dispatch may resume and its saved groups are back. -/
theorem State.enterCtx_leaves (s : State) (new : Nat) (w : Switch) :
    let t := ((s.enterCtx new).resume.restoreGroups new).switchEvent w false
    t.tabs.curCtx = new ∧ t.tabs.noCtx = false ∧ t.tabs.switching = t.sch.stopped
      ∧ ((∀ r ∈ s.sch.mgmt, recKind r ≠ 0x10) → t.sch.stopped = false)
      ∧ t.sch.sw = none ∧ t.replicas = s.replicas ∧ t.ctxEnt new = s.ctxEnt new := by
  intro t
  obtain ⟨y, hy⟩ := (s.enterCtx new).resume.ledger_restoreGroups new
  have hl : t.ledger = { (s.enterCtx new).resume.ledger with groups := y } := (State.ledger_postEvent _ _ _ _).trans hy
  clear_value t
  have hstop : t.sch.stopped = (s.enterCtx new).cutDue := congrArg Ledger.stopped hl
  refine ⟨congrArg Ledger.curCtx hl, congrArg Ledger.noCtx hl, (congrArg Ledger.switching hl).trans hstop.symm,
    fun hno => hstop.trans (State.cutDue_of_no_switch hno), congrArg Ledger.sw hl, congrArg Ledger.replicas hl, ?_⟩
  have hx : t.tabs.ctx = s.tabs.ctx := congrArg Ledger.ctx hl
  unfold State.ctxEnt; rw [hx]

/-- What the completion of a switch leaves (R75, R99). -/
theorem switchContextComplete_leaves {s : State} {w : Switch} (h : s.sch.sw = some w) (hp : w.pass2 = true) :
    ∃ t, exec .switchContextComplete s = .next t ∧ t.tabs.curCtx = w.newCtx ∧ t.tabs.noCtx = false ∧ t.tabs.switching = t.sch.stopped
      ∧ ((∀ r ∈ s.sch.mgmt, recKind r ≠ 0x10) → t.sch.stopped = false)
      ∧ t.sch.sw = none ∧ t.replicas = [] ∧ ctxState (t.ctxEnt w.newCtx) = 2 := by
  obtain ⟨hcur, hno, hsw, hstop, hnone, hrep, hent⟩ :=
    State.enterCtx_leaves (({ s.writeBackAll with replicas := [] } : State).ctxSwitched w) w.newCtx w
  refine ⟨_, exec_switchContextComplete h hp, hcur, hno, hsw, fun hq => hstop ?_, hnone, ?_, ?_⟩
  · rw [State.mgmt_ctxSwitched, State.mgmt_of_ledger s.ledger_writeBackAll]; exact hq
  · rw [hrep, State.replicas_ctxSwitched]
  · rw [hent, State.ctxState_ctxSwitched]

/-- A signal to a semaphore of this module that is performed leaves the queue with its record (R73, R464). -/
theorem exec_signalSemaphore {s u : State} {r : Rec64} {rest : List Rec64} (h : s.mgmtHead 0x12 = some (r, rest)) (hn : s.tabs.noCtx = false)
    (ha : s.away (fieldNat r 255 192) = false)
    (hs : (s.popMgmt rest).signalSem s.tabs.curCtx none (fieldNat r 255 192) (fieldBits r 256 64) false = (u, .ok ())) :
    exec .signalSemaphore s = .next { u with sch.mgmtExec := none } := by
  have hr : (s.popMgmt rest).runSignal r = { u with sch.mgmtExec := none } := by
    unfold State.runSignal
    extract_lets +onlyGivenNames a
    rw [if_neg (show ¬ (s.popMgmt rest).away a = true from fun e => Bool.false_ne_true (ha.symm.trans e)),
      if_neg (show ¬ (s.popMgmt rest).tabs.noCtx = true from fun e => Bool.false_ne_true (hn.symm.trans e)),
      show (s.popMgmt rest).tabs.curCtx = s.tabs.curCtx from rfl, hs]
  rw [show exec .signalSemaphore s = execSignalSemaphore s from rfl]
  unfold execSignalSemaphore; rw [h, ← hr]

end Sys2Proof.Machine
namespace Sys2Proof.Machine

/-! ## Engine operations withdrawn from a flushed group (R104, R372, R423)

What a withdrawn copy or tile operation does (its receipts, its token, its event) leaves the ledger as it is. -/

/-! ### Receipts and completions -/

@[simp] theorem State.ledger_modCol (s : State) (c : Nat) (f : Column → Column) : (s.modCol c f).ledger = s.ledger := rfl

@[simp] theorem State.ledger_rcptPut (s : State) (core a : Nat) (r : Rcpt) (clear : Bool) : (s.rcptPut core a r clear).ledger = s.ledger :=
  s.ledger_spadSetAll _ _ _

@[simp] theorem State.ledger_wakeWaits (s : State) (core a phase : Nat) : (s.wakeWaits core a phase).ledger = s.ledger := by
  refine State.ledger_foldl _ (fun t i => ?_) _ _
  dsimp only; split <;> rfl

@[simp] theorem State.ledger_passTasks (s : State) (core a phase : Nat) : (s.passTasks core a phase).ledger = s.ledger := by
  unfold State.passTasks; dsimp only; split <;> rfl

@[simp] theorem State.ledger_rcptUpdate (s : State) (core a : Nat) (f : Rcpt → Rcpt) : (s.rcptUpdate core a f).ledger = s.ledger := by
  unfold State.rcptUpdate; dsimp only; split
  · rw [State.ledger_recheck, State.ledger_passTasks, State.ledger_wakeWaits, State.ledger_rcptPut]
  · exact s.ledger_rcptPut _ _ _ _

@[simp] theorem State.ledger_landSectors (s : State) (core a n : Nat) : (s.landSectors core a n).ledger = s.ledger := by
  unfold State.landSectors; split
  · rfl
  · exact s.ledger_rcptUpdate _ _ _

@[simp] theorem State.ledger_landCopy (s : State) (old new : Tab Nat) (last : Bool) : (s.landCopy old new last).ledger = s.ledger :=
  State.ledger_foldl _ (fun t _ => t.ledger_landSectors _ _ _) _ _

@[simp] theorem State.ledger_arriveAt (s : State) (o : CopyOp) (k : Nat) : (s.arriveAt o k).ledger = s.ledger := by
  unfold State.arriveAt; split
  · rfl
  · split
    · exact s.ledger_postEvent _ _ _
    · exact s.ledger_rcptUpdate _ _ _

@[simp] theorem State.ledger_arriveCopym (s : State) (o : CopyOp) (f : Nat → Bool) : (s.arriveCopym o f).ledger = s.ledger :=
  State.ledger_foldl _ (fun t _ => t.ledger_arriveAt _ _) _ _

@[simp] theorem State.ledger_writeToken (s : State) (col treg id v : Nat) : (s.writeToken col treg id v).ledger = s.ledger := by
  unfold State.writeToken; split <;> rfl

/-! ### Copies -/

@[simp] theorem State.ledger_plannedLanding (s : State) (o : CopyOp) (ra rb : Option Rec64) : (s.plannedLanding o ra rb).1.ledger = s.ledger := by
  unfold State.plannedLanding
  split
  · rfl
  · split
    · rfl
    · split
      · split <;> rfl
      · cases ra <;> rfl

@[simp] theorem State.ledger_failCopy (s : State) (id : Nat) (o : CopyOp) (code : Nat) (ra rb : Option Rec64) :
    (s.failCopy id o code ra rb).1.ledger = s.ledger := by
  have hp := (s.dropTeller id).ledger_plannedLanding o ra rb
  unfold State.failCopy; dsimp only
  split
  · split
    · rw [State.ledger_arriveCopym, State.ledger_postEvent, State.ledger_landCopy]; exact hp
    · rw [State.ledger_postEvent, State.ledger_landCopy]; exact hp
  · rfl

@[simp] theorem State.ledger_eRead (s : State) (ctx : Nat) (l : ELoc) (n : Nat) : (s.eRead ctx l n).1.ledger = s.ledger := by
  unfold State.eRead; split
  · exact s.ledger_scrubSpad _ _
  · split
    · split <;> rfl
    · split
      · rfl
      · rfl
      · exact s.ledger_readSpan _ _

@[simp] theorem State.ledger_eRecord (s : State) (ctx self a : Nat) : (s.eRecord ctx self a).1.ledger = s.ledger := by
  unfold State.eRecord; split
  · rfl
  · next l _ =>
    have h := s.ledger_eRead ctx l 64
    split <;> (next e => rw [e] at h; exact h)

@[simp] theorem State.ledger_readSurf (s : State) (ctx self a : Nat) : (s.readSurf ctx self a).1.ledger = s.ledger := by
  unfold State.readSurf; split
  · rfl
  · have h := s.ledger_eRecord ctx (globalOf self) a
    split <;> (next e => rw [e] at h; exact h)

@[simp] theorem State.ledger_copyRecords (s : State) (ctx : Nat) (o : CopyOp) : (s.copyRecords ctx o).1.ledger = s.ledger := by
  unfold State.copyRecords; dsimp only
  split <;> split <;> simp

/-! ### Tile operations -/

@[simp] theorem State.ledger_storeBytes (s : State) (o : TileOp) (r : Option Rec64) : (s.storeBytes o r).1.ledger = s.ledger := by
  cases r <;> rfl

@[simp] theorem State.ledger_endTile (s : State) (id : Nat) (o : TileOp) (bytes code : Nat) : (s.endTile id o bytes code).ledger = s.ledger := by
  unfold State.endTile; dsimp only
  split
  · have hl (k a n : Nat) (p : Bool) : (if p then (s.setOp id none).landSectors k a n else s.setOp id none).ledger = s.ledger := by
      split
      · exact State.ledger_landSectors _ _ _ _
      · rfl
    split
    · exact hl _ _ _ _
    · exact (State.ledger_postEvent _ _ _ _).trans (hl _ _ _ _)
  · split
    · rfl
    · exact State.ledger_writeToken _ _ _ _ _

@[simp] theorem State.ledger_withdraw (s : State) (id : Nat) (o : EngOp) : (s.withdraw id o).ledger = s.ledger := by
  unfold State.withdraw
  split
  · dsimp only
    refine (State.ledger_foldl _ (fun t sl => ?_) _ _).trans ((State.ledger_failCopy _ _ _ _ _ _).trans ?_)
    · split
      · rfl
      · exact t.ledger_writeToken _ _ _ _
    · split
      · rfl
      · exact s.ledger_copyRecords _ _
  · split
    · dsimp only
      rw [State.ledger_endTile, State.ledger_storeBytes, State.ledger_readSurf]
    · exact s.ledger_endTile _ _ _ _
  · rfl

/-! ## Groups saved (R101, R103, R104) -/

/-- Saving or flushing a group changes its entry alone of the ledger. -/
theorem State.ledger_saveGroup (s : State) (gid : Nat) (g : Group) (o : PreOpt) :
    ∃ keep, (s.saveGroup gid g o).ledger = s.ledger.setGroup gid (some { g with phase := .saved o, keep := keep }) := by
  unfold State.saveGroup
  extract_lets +onlyGivenNames how mine s1 s2 s3 held0 held keep s4 s5 s6
  have h1 : s1.ledger = s.ledger := by
    unfold s1; split
    · exact State.ledger_foldl _ (fun t e => t.ledger_withdraw _ _) _ _
    · rfl
  have h2 : s2.ledger = s1.ledger := State.ledger_foldl _ (fun t c => t.ledger_saveColumn _ _ _ _) _ _
  have h3 : s3.ledger = s2.ledger := by
    unfold s3; split
    · rfl
    · exact State.ledger_foldl _ (fun t k => t.ledger_saveWindow _ _) _ _
  have h4 : s4.ledger = s3.ledger := by
    unfold s4; split <;> rfl
  have h6 : s6.ledger = s.ledger := h4.trans (h3.trans (h2.trans h1))
  refine ⟨keep, ?_⟩
  rw [State.ledger_freeCores, State.ledger_setGroup, h6]

/-- A group is out of its slots, saved or flushed. -/
def State.isSaved (s : State) (k : Nat) : Prop := ∃ g o, s.group k = some g ∧ g.phase = .saved o

theorem State.groups_saveGroup (s : State) (gid : Nat) (g : Group) (o : PreOpt) :
    ∃ keep, (s.saveGroup gid g o).sch.groups = tabSet s.sch.groups gid (some { g with phase := .saved o, keep := keep }) := by
  obtain ⟨keep, h⟩ := s.ledger_saveGroup gid g o
  exact ⟨keep, congrArg Ledger.groups h⟩

theorem State.isSaved_saveGroup_same (s : State) (k : Nat) (g : Group) (o : PreOpt) : (s.saveGroup k g o).isSaved k := by
  obtain ⟨keep, h⟩ := s.groups_saveGroup k g o
  refine ⟨{ g with phase := .saved o, keep := keep }, o, ?_, rfl⟩
  unfold State.group
  rw [h, tabGet_tabSet_same]

theorem State.isSaved_saveGroup {s : State} {k : Nat} (h : s.isSaved k) (k' : Nat) (g : Group) (o : PreOpt) : (s.saveGroup k' g o).isSaved k := by
  by_cases hk : k = k'
  · subst hk; exact s.isSaved_saveGroup_same k g o
  · obtain ⟨keep, hl⟩ := s.groups_saveGroup k' g o
    obtain ⟨g', o', hg, hp⟩ := h
    refine ⟨g', o', ?_, hp⟩
    unfold State.group at hg ⊢
    rw [hl, tabGet_tabSet_ne _ _ hk, hg]

/-- The groups that a second pass saves. -/
def State.saveGroups (s : State) (gs : List (Nat × Group × PreOpt)) : State := gs.foldl (fun s g => s.saveGroup g.1 g.2.1 g.2.2) s

theorem State.isSaved_saveGroups {gs : List (Nat × Group × PreOpt)} {s : State} {k : Nat} (h : s.isSaved k) : (s.saveGroups gs).isSaved k :=
  foldl_keeps (fun t : State => t.isSaved k) _ (fun _ g ht => State.isSaved_saveGroup ht g.1 g.2.1 g.2.2) gs s h

theorem State.isSaved_of_mem_saveGroups {gs : List (Nat × Group × PreOpt)} {s : State} {g : Nat × Group × PreOpt} (h : g ∈ gs) :
    (s.saveGroups gs).isSaved g.1 := by
  induction gs generalizing s with
  | nil => cases h
  | cons a gs ih =>
    rcases List.mem_cons.mp h with rfl | h
    · exact State.isSaved_saveGroups (gs := gs) (s.isSaved_saveGroup_same g.1 g.2.1 g.2.2)
    · exact ih h

/-! ## Columns stopped (R103, R148) -/

theorem Column.frozen_halt (c : Column) (parked : Nat → Bool) : (c.halt parked).frozen = true := by
  refine foldl_keeps (fun c : Column => c.frozen = true) _ (fun c k hc => ?_) _ _ rfl
  dsimp only
  split
  · exact hc
  · split
    · split
      · exact hc
      · exact hc
    · exact hc

/-- Some columns stopped for a pre-emption. -/
def State.haltAll (s : State) (cols : List Nat) : State := cols.foldl (fun s c => s.modCol c (Column.halt · fun k => s.waits (.split c k))) s

theorem State.mem_haltAll (s : State) (cols : List Nat) : (s.haltAll cols).mem = s.mem :=
  foldl_keeps (fun t : State => t.mem = s.mem) (fun s c => s.modCol c (Column.halt · fun k => s.waits (.split c k))) (fun _ _ ht => ht) cols s rfl

theorem State.frozen_modCol_halt {s : State} {k : Nat} (h : (s.col k).frozen = true) (c : Nat) (parked : Nat → Bool) :
    ((s.modCol c (Column.halt · parked)).col k).frozen = true := by
  rw [State.col_modCol]
  split
  · exact Column.frozen_halt _ _
  · exact h

theorem State.frozen_haltAll_of_frozen {s : State} {k : Nat} (h : (s.col k).frozen = true) (cols : List Nat) : ((s.haltAll cols).col k).frozen = true :=
  foldl_keeps (fun t : State => (t.col k).frozen = true) (fun s c => s.modCol c (Column.halt · fun k => s.waits (.split c k)))
    (fun _ c ht => State.frozen_modCol_halt ht c _) cols s h

theorem State.frozen_haltAll {cols : List Nat} {s : State} {c : Nat} (h : c ∈ cols) : ((s.haltAll cols).col c).frozen = true := by
  induction cols generalizing s with
  | nil => cases h
  | cons a cols ih =>
    rcases List.mem_cons.mp h with rfl | h
    · have hc : ((s.modCol c (Column.halt · fun k => s.waits (.split c k))).col c).frozen = true := by
        rw [State.col_modCol_same]; exact Column.frozen_halt _ _
      exact State.frozen_haltAll_of_frozen hc cols
    · exact ih h

/-! ## The second pass of a pre-emption (R103, R148) -/

/-- The columns that a second pass stops. -/
def State.preCols (s : State) (w : Switch) : List Nat := (s.preGroups w).flatMap fun g => g.2.1.cols

theorem State.mem_preCols {s : State} {w : Switch} {c : Nat} : c ∈ s.preCols w ↔ ∃ g ∈ s.preGroups w, c ∈ g.2.1.cols := List.mem_flatMap

/-- While a column of the groups to be saved runs, the second pass of a switch, its drained groups ended, stops them all. -/
theorem exec_preemptionSecondPass_stop {s : State} {w : Switch} (h : s.sch.sw = some w) (hp : w.pass2 = false) (hd : s.draining w = false)
    (hrun : ∃ c ∈ s.preCols w, (s.col c).frozen = false) (hmay : ∀ g ∈ s.preGroups w, s.mayStop g.2.1 = true) :
    ∃ x y, exec .preemptionSecondPass s = .next { s.haltAll (s.preCols w) with faults := x, run := y } := by
  have hany : ((s.preCols w).any fun c => !(s.col c).frozen) = true := by simpa using hrun
  have hnone : ¬ ((s.preGroups w).any fun g => !s.mayStop g.2.1) = true := by simpa using hmay
  rw [show exec .preemptionSecondPass s = execPreemptionSecondPass s from rfl]
  unfold execPreemptionSecondPass; rw [h]
  dsimp -zeta only
  rw [hp, hd, if_neg (by decide)]
  extract_lets +onlyGivenNames gs cols
  rw [if_pos (show (cols.any fun c => !(s.col c).frozen) = true from hany), if_neg (show ¬ (gs.any fun g => !s.mayStop g.2.1) = true from hnone)]
  exact ⟨_, _, rfl⟩

/-- Once they stand and what they await is done, the second pass saves them. -/
theorem exec_preemptionSecondPass_save {s : State} {w : Switch} (h : s.sch.sw = some w) (hp : w.pass2 = false) (hd : s.draining w = false)
    (hstand : ∀ c ∈ s.preCols w, (s.col c).frozen = true) (hquiet : ∀ g ∈ s.preGroups w, s.groupQuiet g.1 g.2.1 g.2.2 = true) :
    ∃ b, exec .preemptionSecondPass s =
      .next { s.saveGroups (s.preGroups w) with sch := { (s.saveGroups (s.preGroups w)).sch with sw := some { w with pass2 := true, metB := b } } } := by
  have hnone : ¬ ((s.preCols w).any fun c => !(s.col c).frozen) = true := by simpa using hstand
  have hall : ((s.preGroups w).all fun g => s.groupQuiet g.1 g.2.1 g.2.2) = true := List.all_eq_true.mpr hquiet
  rw [show exec .preemptionSecondPass s = execPreemptionSecondPass s from rfl]
  unfold execPreemptionSecondPass; rw [h]
  dsimp -zeta only
  rw [hp, hd, if_neg (by decide)]
  extract_lets +onlyGivenNames gs cols
  rw [if_neg (show ¬ (cols.any fun c => !(s.col c).frozen) = true from hnone),
    if_pos (show (gs.all fun g => s.groupQuiet g.1 g.2.1 g.2.2) = true from hall)]
  exact ⟨_, rfl⟩

/-- The first step of the second pass stops every column that is to be saved (R103, R148). -/
theorem preemptionSecondPass_stops {s : State} {w : Switch} (h : s.sch.sw = some w) (hp : w.pass2 = false) (hd : s.draining w = false)
    (hrun : ∃ g c, g ∈ s.preGroups w ∧ c ∈ g.2.1.cols ∧ (s.col c).frozen = false)
    (hdet : ∀ g ∈ s.preGroups w, g.2.1.hdr.det = true → ∀ k ∈ g.2.1.cores, (s.core k).between = true) :
    ∃ t, exec .preemptionSecondPass s = .next t ∧ (∀ g ∈ s.preGroups w, ∀ c ∈ g.2.1.cols, (t.col c).frozen = true) ∧ t.mem = s.mem := by
  obtain ⟨g, c, hg, hc, hf⟩ := hrun
  have hmay (g) (hg : g ∈ s.preGroups w) : s.mayStop g.2.1 = true := by
    unfold State.mayStop
    cases hh : g.2.1.hdr.det
    · rfl
    · exact List.all_eq_true.mpr (hdet g hg hh)
  obtain ⟨x, y, he⟩ := exec_preemptionSecondPass_stop h hp hd ⟨c, State.mem_preCols.mpr ⟨g, hg, hc⟩, hf⟩ hmay
  exact ⟨_, he, fun g hg c hc => State.frozen_haltAll (State.mem_preCols.mpr ⟨g, hg, hc⟩), s.mem_haltAll _⟩

/-- Its second step saves them. -/
theorem preemptionSecondPass_saves {s : State} {w : Switch} (h : s.sch.sw = some w) (hp : w.pass2 = false) (hd : s.draining w = false)
    (hstand : ∀ g ∈ s.preGroups w, ∀ c ∈ g.2.1.cols, (s.col c).frozen = true)
    (hquiet : ∀ g ∈ s.preGroups w, s.groupQuiet g.1 g.2.1 g.2.2 = true) :
    ∃ t, exec .preemptionSecondPass s = .next t ∧ (∃ w', t.sch.sw = some w' ∧ w'.pass2 = true)
      ∧ ∀ g ∈ s.preGroups w, ∃ g' o, t.group g.1 = some g' ∧ g'.phase = .saved o := by
  have hcols (c) (hc : c ∈ s.preCols w) : (s.col c).frozen = true := by
    obtain ⟨g, hg, hc⟩ := State.mem_preCols.mp hc
    exact hstand g hg c hc
  obtain ⟨b, he⟩ := exec_preemptionSecondPass_save h hp hd hcols hquiet
  exact ⟨_, he, ⟨_, rfl, rfl⟩, fun g hg => State.isSaved_of_mem_saveGroups (s := s) hg⟩

/-- Settles O7: each management operation's equation, with what it keeps of the host's tables and of the scheduler's. -/
theorem contextManagement : Obligations.ContextManagement := by
  unfold Obligations.ContextManagement
  refine ⟨fun s r rest h ht hc => switchContext_starts h ht hc, fun s w h hp hd hrun hdet => preemptionSecondPass_stops h hp hd hrun hdet,
    fun s w h hp hd hstand hquiet => preemptionSecondPass_saves h hp hd hstand hquiet, fun s w h hp => switchContextComplete_leaves h hp,
    fun s u r rest h hn ha hs => exec_signalSemaphore h hn ha hs, fun s r rest c0 ups coll h ha => abortContext_leaves h ha⟩

end Sys2Proof.Machine

/-!
SUPPORT. What the scheduler's reads and writes, the firing of triggers and the end of a launch leave alone (R35, R71, R97, R464): columns, and the
progress of the launches that still run.
-/

namespace Sys2Proof.Machine

/-! ## Accesses to memory -/

/-- Everything but memory and what its accesses find is as it was: stored bytes, poison, dirty marks, errors, modes and vault blocks, the logs with
the count of bad lines, the event queue with its interrupts. -/
def State.Accessed (s t : State) : Prop :=
  t = { s with tabs := t.tabs, evq := t.evq, boot := t.boot, pw := t.pw, mem := t.mem, pois := t.pois, dirty := t.dirty, upsets := t.upsets
               modes := t.modes, vault := t.vault }

theorem State.Accessed.trans {s t u : State} (h : s.Accessed t) (h' : t.Accessed u) : s.Accessed u := by
  unfold State.Accessed at *; rw [h']; rw [h]

theorem State.accessed_foldl {β : Type} (f : State → β → State) (hf : ∀ (s : State) b, s.Accessed (f s b)) (l : List β) (s : State) :
    s.Accessed (l.foldl f s) :=
  foldl_keeps (fun t : State => s.Accessed t) f (fun t b h => h.trans (hf t b)) l s rfl

/-! ### Reads -/

theorem State.accessed_logLine (s : State) (p : Place) (owner kind sym : Nat) : s.Accessed (s.logLine p owner kind sym) := by
  unfold State.Accessed; rw [State.logLine_keeps]

theorem State.accessed_touchLine (s : State) (p : Place) (owner : Nat) : s.Accessed (s.touchLine p owner) := by
  unfold State.touchLine; dsimp only; split
  · rfl
  · split
    · rfl
    · split
      · exact State.Accessed.trans (t := { s with upsets := _ }) rfl (State.accessed_logLine _ _ _ _ _)
      · exact State.Accessed.trans (t := { s with upsets := _, pois := _ }) rfl (State.accessed_logLine _ _ _ _ _)

theorem State.accessed_touchTables (s : State) (col : Nat) (ls : List Nat) : s.Accessed (s.touchTables col ls) :=
  State.accessed_foldl _ (fun _ _ => State.accessed_touchLine _ _ _) _ _

theorem State.accessed_touchWalk (s : State) (ctx col off : Nat) : s.Accessed (s.touchWalk ctx col off) := by
  unfold State.touchWalk; split
  · rfl
  · exact s.accessed_touchTables _ _

theorem State.accessed_touchMode (s : State) (p : Place) (owner : Nat) : s.Accessed (s.touchMode p owner) := by
  unfold State.touchMode; dsimp only; split
  · exact State.Accessed.trans (t := { s with modes := _, pois := _ }) rfl (State.accessed_logLine _ _ _ _ _)
  · rfl

theorem State.accessed_touchBlock (s : State) (p : Place) (owner : Nat) : s.Accessed (s.touchBlock p owner) := by
  unfold State.touchBlock; dsimp only; split
  · rfl
  · exact State.accessed_foldl _ (fun _ _ => State.accessed_touchLine _ _ _) _ _

theorem State.accessed_readSpan (s : State) (sp : Span) (size : Nat) : s.Accessed (s.readSpan sp size).1 := by
  unfold State.readSpan State.pageRead; dsimp only
  refine (s.accessed_touchTables _ _).trans (State.accessed_foldl _ (fun t i => ?_) _ _)
  split
  · split
    · exact (State.accessed_touchMode _ _ _).trans (State.accessed_touchLine _ _ _)
    · exact (State.accessed_touchMode _ _ _).trans (State.accessed_touchBlock _ _ _)
  · exact State.accessed_touchLine _ _ _

/-! ### Writes -/

theorem State.accessed_takeWrong (s : State) (p : Place) : s.Accessed (s.takeWrong p) := by
  unfold State.takeWrong; split <;> rfl

theorem State.accessed_fillLine (s : State) (p : Place) (owner : Nat) : s.Accessed (s.fillLine p owner) :=
  (s.accessed_touchLine _ _).trans (State.accessed_takeWrong _ _)

theorem State.accessed_fillBoth (s : State) (p : Place) (owner : Nat) : s.Accessed (s.fillBoth p owner) := by
  unfold State.fillBoth; dsimp only; split
  · exact (s.accessed_fillLine _ _).trans (State.accessed_fillLine _ _ _)
  · exact s.accessed_fillLine _ _

theorem State.accessed_putBytes (s : State) (p : Place) (bs : List Byte) : s.Accessed (s.putBytes p bs) := by
  unfold State.Accessed; rw [State.putBytes_keeps]

theorem State.accessed_mirrorBlock (s : State) (p : Place) (mode : Nat) (st : List Byte) : s.Accessed (s.mirrorBlock p mode st) := by
  unfold State.mirrorBlock; split
  · rfl
  · exact (s.accessed_putBytes _ _).trans rfl

theorem State.accessed_writeBackBlock (s : State) (p : Place) : s.Accessed (s.writeBackBlock p) := by
  unfold State.writeBackBlock; dsimp only; split
  · rfl
  · refine State.Accessed.trans ?_ (State.accessed_mirrorBlock _ _ _ _)
    exact (s.accessed_putBytes _ _).trans rfl

theorem State.accessed_storeByte (s : State) (col : Nat) (tier : Bool) (off : Nat) (b : Byte) : s.Accessed (s.storeByte col tier off b) := by
  unfold State.storeByte; dsimp only; split <;> rfl

theorem State.accessed_pageWrite (s : State) (col : Nat) (p : Page) (raw : Bool) (po : Nat) (bs : List Byte) :
    s.Accessed (s.pageWrite col p raw po bs) := by
  have bytes (t : State) (n : Nat) (off : Nat → Nat) (b : Nat → Byte) :
      t.Accessed ((List.range n).foldl (fun s i => s.storeByte col p.tier (off i) (b i)) t) :=
    State.accessed_foldl _ (fun _ _ => State.accessed_storeByte _ _ _ _ _) _ _
  unfold State.pageWrite; dsimp only; split
  · exact State.accessed_foldl _ (fun t i => bytes t _ _ _) _ _
  · split
    · exact (s.accessed_touchMode _ _).trans rfl
    · refine State.Accessed.trans ?_ (bytes _ _ _ _)
      split
      · exact s.accessed_writeBackBlock _
      · rfl

theorem State.accessed_fillSpans (s : State) (cells : List (Nat × Nat × Bool)) (ws : List (Span × List Byte × Bool)) :
    s.Accessed (s.fillSpans cells ws) := by
  unfold State.fillSpans; dsimp only; split
  · rfl
  · refine (State.accessed_foldl _ (fun t w => t.accessed_touchTables _ _) _ _).trans
      (State.accessed_foldl _ (fun t w => State.accessed_foldl _ (fun t i => ?_) _ _) _ _)
    split
    · exact t.accessed_touchBlock _ _
    · split
      · rfl
      · exact t.accessed_fillBoth _ _

theorem State.accessed_writeSpans (s : State) (ws : List (Span × List Byte × Bool)) : s.Accessed (s.writeSpans ws) := by
  unfold State.writeSpans; dsimp only
  exact ((s.accessed_fillSpans _ ws).trans
    (State.accessed_foldl (fun (s : State) (w : Span × List Byte × Bool) => s.pageWrite w.1.col w.1.page w.1.raw w.1.po w.2.1)
      (fun t w => t.accessed_pageWrite _ _ _ _ _) ws (s.fillSpans _ ws))).trans rfl

theorem State.accessed_writeRange (s : State) (ctx : Nat) (self : Option Nat) (a : Nat) (bs : List Byte) (poi : Bool) :
    s.Accessed (s.writeRange ctx self a bs poi).1 := by
  unfold State.writeRange; split
  · rfl
  · split
    · rfl
    · split
      · rfl
      · exact s.accessed_touchWalk _ _ _
      · split
        · rfl
        · exact s.accessed_writeSpans _

/-! ## Columns, and launches under way -/

/-- How far the stages of a queue's launch have come, while it runs. -/
def LQueue.stageRuns (q : LQueue) : Option (List StageRun) := q.run.map (·.sr)

/-- The columns are as they were, no launch has started, and one that still runs has come as far as it had. -/
structure State.KeepsStages (s t : State) : Prop where
  cols : t.cols = s.cols
  runs : ∀ k rs, (tabGet t.sch.queues k).stageRuns = some rs → (tabGet s.sch.queues k).stageRuns = some rs

theorem State.KeepsStages.trans {s t u : State} (h : s.KeepsStages t) (h' : t.KeepsStages u) : s.KeepsStages u :=
  ⟨h'.cols.trans h.cols, fun k rs hr => h.runs k rs (h'.runs k rs hr)⟩

theorem State.keepsStages_of {s t : State} (hc : t.cols = s.cols) (hq : t.sch.queues = s.sch.queues) : s.KeepsStages t :=
  ⟨hc, fun k rs hr => by rw [← hq]; exact hr⟩

theorem State.KeepsStages.refl (s : State) : s.KeepsStages s := State.keepsStages_of rfl rfl

theorem State.keepsStages_foldl {β : Type} (f : State → β → State) (hf : ∀ (s : State) b, s.KeepsStages (f s b)) (l : List β) (s : State) :
    s.KeepsStages (l.foldl f s) :=
  foldl_keeps (fun t : State => s.KeepsStages t) f (fun t b h => h.trans (hf t b)) l s (.refl s)

theorem State.Accessed.keepsStages {s t : State} (h : s.Accessed t) : s.KeepsStages t := by
  unfold State.Accessed at h; rw [h]; exact State.keepsStages_of rfl rfl

theorem State.Sent.keepsStages {s t : State} (h : s.Sent t) : s.KeepsStages t := by
  unfold State.Sent at h; rw [h]; exact State.keepsStages_of rfl rfl

/-- A launch queue changed, whose launch stands as it stood, or runs no more. -/
theorem State.keepsStages_modLq (s : State) (ctx q : Nat) (f : LQueue → LQueue)
    (h : ∀ rs, (f (s.lq ctx q)).stageRuns = some rs → (s.lq ctx q).stageRuns = some rs) : s.KeepsStages (s.modLq ctx q f) := by
  refine ⟨rfl, fun k rs hr => ?_⟩
  unfold State.modLq State.setLq at hr; dsimp only at hr
  rw [tabGet_tabSet] at hr; split at hr
  · next hk => rw [hk]; exact h rs hr
  · exact hr

/-- Notes that the end of a launch makes in it leave its stages. -/
theorem LQueue.stageRuns_map (q : LQueue) (f : LaunchRun → LaunchRun) (h : ∀ l, (f l).sr = l.sr) :
    ({ q with run := q.run.map f } : LQueue).stageRuns = q.stageRuns := by
  unfold LQueue.stageRuns; dsimp only
  rw [Option.map_map]; exact congrArg (q.run.map ·) (funext h)

theorem State.keepsStages_mapRun (s : State) (ctx q : Nat) (f : LaunchRun → LaunchRun) (h : ∀ l, (f l).sr = l.sr) :
    s.KeepsStages (s.modLq ctx q fun x => { x with run := x.run.map f }) :=
  s.keepsStages_modLq _ _ _ fun _ hr => ((s.lq ctx q).stageRuns_map f h) ▸ hr

/-! ### Triggers (R97) -/

theorem State.keepsStages_setTrig (s : State) (ctx port : Nat) (t : TrigSt) : s.KeepsStages (s.setTrig ctx port t) := by
  unfold State.setTrig; split
  · exact State.keepsStages_of rfl rfl
  · split
    · exact State.keepsStages_of rfl rfl
    · exact s.keepsStages_modLq _ _ _ fun _ h => h

theorem State.keepsStages_fire (s : State) (ctx port : Nat) : s.KeepsStages (s.fire ctx port) := by
  unfold State.fire; dsimp only; split
  · exact s.keepsStages_setTrig _ _ _
  · exact (s.keepsStages_setTrig _ _ _).trans (State.keepsStages_of rfl rfl)

theorem State.keepsStages_touchSem (s : State) (ctx addr : Nat) : s.KeepsStages (s.touchSem ctx addr) := by
  unfold State.touchSem; split
  · exact (s.accessed_readSpan _ _).keepsStages
  · exact .refl s

theorem State.keepsStages_arm (s : State) (ctx port : Nat) : s.KeepsStages (s.arm ctx port) := by
  unfold State.arm; split
  · exact .refl s
  · next c r t _ =>
    split
    · exact .refl s
    · have hs : s.KeepsStages (if recTrig r = 2 then s.touchSem c (recTrigAddr r) else s) := by
        split
        · exact s.keepsStages_touchSem _ _
        · exact .refl s
      dsimp only
      generalize (if recTrig r = 2 then s.touchSem c (recTrigAddr r) else s) = u at *
      split
      · exact hs.trans (u.keepsStages_setTrig _ _ _)
      · split
        · exact hs.trans (u.keepsStages_fire _ _)
        · refine hs.trans (State.KeepsStages.trans ?_ (State.keepsStages_setTrig _ _ _ _))
          exact State.keepsStages_of rfl rfl

theorem State.keepsStages_armWaiting (s : State) : s.KeepsStages s.armWaiting :=
  State.keepsStages_foldl (fun (s : State) (h : Nat × Nat) => s.arm h.1 h.2) (fun t h => t.keepsStages_arm h.1 h.2) s.waitingHeads s

theorem State.keepsStages_recheck (s : State) (f : TrigEnt → Bool) : s.KeepsStages (s.recheck f) := by
  unfold State.recheck; dsimp only; split
  · exact .refl s
  · refine State.KeepsStages.trans ?_ (State.keepsStages_armWaiting _)
    refine State.KeepsStages.trans ?_
      (State.keepsStages_foldl (fun (s : State) (e : TrigEnt) => s.fire e.ctx e.port) (fun t e => t.keepsStages_fire e.ctx e.port) _ _)
    exact State.keepsStages_of rfl rfl

theorem State.keepsStages_signalSem (s : State) (ctx : Nat) (self : Option Nat) (a : Nat) (v : DWord) (set : Bool) :
    s.KeepsStages (s.signalSem ctx self a v set).1 := by
  unfold State.signalSem; split
  · exact .refl s
  · split
    · exact .refl s
    · exact (s.accessed_touchWalk _ _ _).keepsStages
    · next sp _ =>
      split
      · exact .refl s
      · have h := (s.accessed_readSpan sp 8).keepsStages
        dsimp only; split
        · exact h
        · exact (h.trans (State.accessed_writeSpans _ _).keepsStages).trans (State.keepsStages_recheck _ _)

/-! ### Events and faults -/

theorem State.keepsStages_postEvent (s : State) (kind src detail : Nat) : s.KeepsStages (s.postEvent kind src detail) :=
  (s.sent_postEvent _ _ _).keepsStages

theorem State.keepsStages_postFault (s : State) (e : FaultEnt) : s.KeepsStages (s.postFault e) := by
  unfold State.postFault; dsimp only; split
  · exact (s.keepsStages_postEvent _ _ _).trans (State.keepsStages_of rfl rfl)
  · exact .refl s

theorem State.keepsStages_parkFault (s : State) (w : Waiter) (ctx col off : Nat) (acc : Acc) : s.KeepsStages (s.parkFault w ctx col off acc) := by
  unfold State.parkFault; split
  · exact .refl s
  · split
    · exact .refl s
    · refine (s.accessed_touchWalk ctx col (addrOff off)).keepsStages.trans (State.KeepsStages.trans ?_ (State.keepsStages_postFault _ _))
      exact State.keepsStages_of rfl rfl

/-! ### The end of a launch (R71, R464) -/

theorem State.keepsStages_endWait (s : State) (ctx queue k : Nat) (c : BitVec 128) (col off : Nat) (acc : Acc) :
    s.KeepsStages (s.endWait ctx queue k c col off acc) := by
  refine State.KeepsStages.trans ?_ (State.keepsStages_parkFault _ _ _ _ _ _)
  exact s.keepsStages_mapRun _ _ _ fun _ => rfl

theorem State.keepsStages_endEvent (s : State) (ctx queue : Nat) (r : Rec64) (c : BitVec 128) : s.KeepsStages (s.endEvent ctx queue r c) := by
  have h : s.KeepsStages (if bitOf (recFlags r) 1 then s.postEvent 12 (qKey ctx queue) c.toNat else s) := by
    split
    · exact s.keepsStages_postEvent _ _ _
    · exact .refl s
  unfold State.endEvent
  generalize (if bitOf (recFlags r) 1 then s.postEvent 12 (qKey ctx queue) c.toNat else s) = u at *
  refine h.trans (State.KeepsStages.trans (State.KeepsStages.trans ?_ (State.keepsStages_modLq _ _ _ _ ?_)) (State.keepsStages_arm _ _ _))
  · exact State.keepsStages_of rfl rfl
  · exact fun _ h => by cases h

theorem State.keepsStages_endSend (s : State) (ctx queue k : Nat) (c : BitVec 128) (kind op a : Nat) (accs : List LaneAcc) :
    s.KeepsStages (s.endSend ctx queue k c kind op a accs) := by
  have h : s.KeepsStages (s.sendAway kind .n64 op a accs).1 :=
    State.KeepsStages.trans (t := { s with nextTag := s.nextTag + 1 }) (State.keepsStages_of rfl rfl) (State.sent_send _ _).keepsStages
  unfold State.endSend
  exact h.trans (State.keepsStages_mapRun _ _ _ _ fun _ => rfl)

theorem State.keepsStages_endSem (s : State) (ctx queue : Nat) (r : Rec64) (c : BitVec 128) : s.KeepsStages (s.endSem ctx queue r c) := by
  unfold State.endSem; dsimp only; split
  · exact s.keepsStages_endEvent _ _ _ _
  · split
    · exact s.keepsStages_endSend _ _ _ _ _ _ _ _
    · have h := s.keepsStages_signalSem ctx none (fieldNat r 447 384) (fieldBits r 448 64) false
      split <;> (rename_i e; rw [e] at h)
      · exact h.trans (State.keepsStages_endEvent _ _ _ _ _)
      · exact (h.trans (State.keepsStages_postEvent _ _ _ _)).trans (State.keepsStages_endEvent _ _ _ _ _)
      · exact h.trans (State.keepsStages_endWait _ _ _ _ _ _ _ _)

theorem State.keepsStages_countEnd (s : State) (ctx queue : Nat) : s.KeepsStages (s.countEnd ctx queue) :=
  (s.keepsStages_modLq _ _ _ fun _ h => h).trans (State.keepsStages_recheck _ _)

theorem State.keepsStages_countedEnd (s : State) (ctx queue : Nat) (r : Rec64) (c : BitVec 128) :
    s.KeepsStages ((s.countEnd ctx queue).endSem ctx queue r c) :=
  (s.keepsStages_countEnd _ _).trans (State.keepsStages_endSem _ _ _ _ _)

theorem State.keepsStages_endRecord (s : State) (ctx queue : Nat) (r : Rec64) (c : BitVec 128) : s.KeepsStages (s.endRecord ctx queue r c) := by
  unfold State.endRecord; dsimp only; split
  · refine State.KeepsStages.trans ?_ (State.keepsStages_countedEnd _ _ _ _ _)
    split
    · exact .refl s
    · exact State.keepsStages_of rfl rfl
  · split
    · exact s.keepsStages_endSend _ _ _ _ _ _ _ _
    · have h := (s.accessed_writeRange ctx none (fieldNat r 383 320) (bytesOf 16 c.toNat) false).keepsStages
      split <;> (rename_i e; rw [e] at h)
      · exact h.trans (State.keepsStages_countedEnd _ _ _ _ _)
      · exact (h.trans (State.keepsStages_postEvent _ _ _ _)).trans (State.keepsStages_countedEnd _ _ _ _ _)
      · exact h.trans (State.keepsStages_endWait _ _ _ _ _ _ _ _)

theorem State.keepsStages_endLaunch (s : State) (ctx queue status stage fail : Nat) : s.KeepsStages (s.endLaunch ctx queue status stage fail) := by
  unfold State.endLaunch; split
  · exact .refl s
  · next l hl =>
    dsimp only; split
    · exact s.keepsStages_endRecord _ _ _ _
    · exact s.keepsStages_modLq _ _ _ fun rs h => by
        unfold LQueue.stageRuns; rw [hl]; exact h
    · exact .refl s

theorem State.keepsStages_endFailing (s : State) (ctx q : Nat) : s.KeepsStages (s.endFailing ctx q) := by
  unfold State.endFailing; split
  · split
    · split
      · exact .refl s
      · exact (State.keepsStages_foldl (fun (s : State) (g : Nat × Group) => s.setGroup g.1 none)
          (fun t g => State.keepsStages_of rfl rfl) _ s).trans (State.keepsStages_endLaunch _ _ _ _ _ _)
    · exact .refl s
  · exact .refl s

theorem State.keepsStages_endIfDone (s : State) (ctx q : Nat) : s.KeepsStages (s.endIfDone ctx q) := by
  unfold State.endIfDone; split
  · split
    · exact s.keepsStages_endLaunch _ _ _ _ _
    · exact .refl s
  · exact .refl s

end Sys2Proof.Machine

/-!
SUPPORT. Launch pipelines (R77, R81, R91, R92, R131, R151, R292): the start of a launch, the dispatch, finish and retirement of its groups, and the
obligation O8.
-/

namespace Sys2Proof.Machine

/-! ## The start of a launch (R77, R81, R100) -/

@[simp] theorem State.ledger_readRange (s : State) (ctx : Nat) (self : Option Nat) (a size : Nat) : (s.readRange ctx self a size).1.ledger = s.ledger := by
  unfold State.readRange; split
  · split <;> rfl
  · split
    · rfl
    · split
      · rfl
      · exact s.ledger_touchWalk _ _ _
      · exact s.ledger_readSpan _ _

@[simp] theorem State.ledger_readAcross (s : State) (ctx : Nat) (self : Option Nat) (a size : Nat) :
    (s.readAcross ctx self a size).1.ledger = s.ledger := by
  unfold State.readAcross; dsimp only; split
  · exact s.ledger_readRange _ _ _ _
  · have h := s.ledger_readRange ctx self a (65536 - a % 65536)
    split
    · next u bs p e =>
      rw [e] at h
      have h' := u.ledger_readRange ctx self (a + (65536 - a % 65536)) (size - (65536 - a % 65536))
      split
      · next e' => rw [e'] at h'; exact h'.trans h
      · exact h'.trans h
    · exact h

theorem State.ledger_readStages (ctx pipe n : Nat) (s : State) (k : Nat) (acc : List Rec64) : (s.readStages ctx pipe n k acc).1.ledger = s.ledger := by
  induction n generalizing s k acc with
  | zero => rfl
  | succ n ih =>
    have h := s.ledger_readRange ctx none (pipe + 64 * (k + 1)) 64
    unfold State.readStages
    split <;> (rename_i e; rw [e] at h)
    · exact h
    · exact h
    · split
      · exact h
      · exact (ih _ _ _).trans h

theorem State.ledger_firstBadStage (ctx n : Nat) (rs : List Rec64) (sts : List StageDesc) (s : State) (k : Nat) :
    (s.firstBadStage ctx rs sts n k).1.ledger = s.ledger := by
  induction n generalizing s k with
  | zero => rfl
  | succ n ih =>
    have h := s.ledger_readAcross ctx none (headerAddr (sts.getD k {}).entry) 64
    unfold State.firstBadStage; dsimp only; split
    · rfl
    · split
      · exact ih _ _
      · split <;> (rename_i e; rw [e] at h)
        · exact h
        · exact (ih _ _).trans h
        · split
          · exact h
          · exact (ih _ _).trans h

theorem State.ledger_parkLaunch (s : State) (ctx queue col off : Nat) : (s.parkLaunch ctx queue col off).ledger = s.ledger := by
  unfold State.parkLaunch; dsimp only
  rw [State.ledger_modLq _ _ _ _ (by rfl), State.ledger_parkFault]

/-- Reading and checking a descriptor leaves the queues' records as they are: a launch that fails the check, or waits on a fault, is the started one. -/
theorem State.ledger_readDescriptor (s : State) (ctx queue : Nat) (r : Rec64) : (s.readDescriptor ctx queue r).ledger = s.ledger := by
  have hpipe := s.ledger_readRange ctx none (fieldNat r 255 192) 64
  unfold State.readDescriptor; dsimp only; split
  · exact s.ledger_endLaunch _ _ _ _ _
  · split <;> (rename_i e; rw [e] at hpipe)
    · exact (State.ledger_parkLaunch _ _ _ _ _).trans hpipe
    · exact (State.ledger_endLaunch _ _ _ _ _ _).trans hpipe
    · next u bs poi =>
      split
      · exact (State.ledger_endLaunch _ _ _ _ _ _).trans hpipe
      · have hstages := (State.ledger_readStages ctx (fieldNat r 255 192) (fld (natOf bs) 19 16) u 0 []).trans hpipe
        split <;> (rename_i e; rw [e] at hstages)
        · exact (State.ledger_parkLaunch _ _ _ _ _).trans hstages
        · exact (State.ledger_endLaunch _ _ _ _ _ _).trans hstages
        · next v rs =>
          have hbad := (State.ledger_firstBadStage ctx (fld (natOf bs) 19 16) rs (rs.map stageOf) v 0).trans hstages
          split <;> (rename_i e; rw [e] at hbad)
          · exact (State.ledger_parkLaunch _ _ _ _ _).trans hbad
          · exact (State.ledger_endLaunch _ _ _ _ _ _).trans hbad
          · split
            · exact (State.ledger_parkLaunch _ _ _ _ _).trans hbad
            · exact (State.ledger_modLq _ _ _ _ rfl).trans hbad

/-- A record that starts is its queue's launch, and its descriptor is read. -/
theorem exec_launchStart {s : State} {ctx queue : Nat} {r : Rec64} {rest : List Rec64} (h : s.canStart ctx queue = true)
    (hr : (s.lq ctx queue).recs = r :: rest) : exec (.launchStart ctx queue) s =
      .next (({ s.setLq ctx queue { s.lq ctx queue with recs := rest, trig := .idle, run := some { record := r } } with
        sch.firedOrder := s.sch.firedOrder.erase (ctx, queue) } : State).readDescriptor ctx queue r) := by
  rw [show exec (.launchStart ctx queue) s = execLaunchStart ctx queue s from rfl]
  unfold execLaunchStart; dsimp only
  rw [if_pos h, hr]; rfl

/-- A head record that can start leaves its queue, and its descriptor is read (R77, R81). -/
theorem launchStart_starts {s : State} {ctx queue : Nat} {r : Rec64} {rest : List Rec64} (h : s.canStart ctx queue = true)
    (hr : (s.lq ctx queue).recs = r :: rest) : ∃ t, exec (.launchStart ctx queue) s = .next t ∧ (t.lq ctx queue).recs = rest
      ∧ t = ({ s.setLq ctx queue { s.lq ctx queue with recs := rest, trig := .idle, run := some { record := r } } with
        sch.firedOrder := s.sch.firedOrder.erase (ctx, queue) } : State).readDescriptor ctx queue r := by
  refine ⟨_, exec_launchStart h hr, ?_, rfl⟩
  rw [State.recs_of_ledger (State.ledger_readDescriptor _ _ _ _)]
  exact congrArg LQueue.recs (tabGet_tabSet_same _ _ _)

/-! ## Dispatch (R91, R131, R151, R155) -/

/-- A column at dispatch: all lanes live in slot 0 at the entry point, and every rejoin mask full. -/
theorem freshColumn_spec (gid : Nat) (g : Group) (i c : Nat) : (freshColumn gid g i c).group = gid ∧ (freshColumn gid g i c).live = 0xFFFFFFFF
    ∧ ((freshColumn gid g i c).slot 0).mask = 0xFFFFFFFF ∧ ((freshColumn gid g i c).slot 0).pc = entryPc c g.entry
    ∧ ((freshColumn gid g i c).slot 0).cond = .ready ∧ ∀ j, j < 8 → (freshColumn gid g i c).rdJ j = 0xFFFFFFFF := by
  have hs : (freshColumn gid g i c).slot 0 = { pc := entryPc c g.entry, mask := 0xFFFFFFFF } := tabGet_tabSet_same _ _ _
  rw [hs]
  refine ⟨rfl, rfl, rfl, rfl, rfl, fun j hj => ?_⟩
  have h := tabGet_foldl_range (fun _ => (0xFFFFFFFF : Mask)) 0 8 [] j
  simp only [Nat.zero_add] at h
  exact h.trans (if_pos ⟨Nat.zero_le j, hj⟩)

/-- A column takes its part in a group: it is as at dispatch, and its scratchpad region is zero. -/
def State.placeColumn (gid : Nat) (g : Group) (s : State) (x : Nat × Nat) : State :=
  (s.setCol x.2 (freshColumn gid g x.1 x.2)).spadZero (coreOf x.2) ((s.setCol x.2 (freshColumn gid g x.1 x.2)).region x.2 false).1
    ((s.setCol x.2 (freshColumn gid g x.1 x.2)).region x.2 false).2

theorem State.cols_placeColumn (gid : Nat) (g : Group) (s : State) (x : Nat × Nat) :
    (s.placeColumn gid g x).cols = tabSet s.cols x.2 (some (freshColumn gid g x.1 x.2)) := rfl

/-- A column holds its part in a group as at dispatch. -/
def State.Sits (gid : Nat) (g : Group) (c : Nat) (s : State) : Prop := ∃ i, tabGet s.cols c = some (freshColumn gid g i c)

theorem State.sits_placeColumn_same (gid : Nat) (g : Group) (s : State) (x : Nat × Nat) : (s.placeColumn gid g x).Sits gid g x.2 :=
  ⟨x.1, by rw [State.cols_placeColumn, tabGet_tabSet_same]⟩

theorem State.sits_placeColumn {gid : Nat} {g : Group} {c : Nat} {s : State} (h : s.Sits gid g c) (x : Nat × Nat) :
    (s.placeColumn gid g x).Sits gid g c := by
  by_cases hx : c = x.2
  · rw [hx]; exact s.sits_placeColumn_same gid g x
  · obtain ⟨i, hi⟩ := h
    exact ⟨i, by rw [State.cols_placeColumn, tabGet_tabSet_ne _ _ hx, hi]⟩

theorem State.sits_of_mem {gid : Nat} {g : Group} {c : Nat} {xs : List (Nat × Nat)} (h : c ∈ xs.map Prod.snd) (s : State) :
    (xs.foldl (State.placeColumn gid g) s).Sits gid g c := by
  induction xs generalizing s with
  | nil => cases h
  | cons x xs ih =>
    rcases List.mem_cons.mp h with rfl | h
    · exact foldl_keeps (State.Sits gid g x.2) _ (fun _ y ht => State.sits_placeColumn ht y) xs _ (s.sits_placeColumn_same gid g x)
    · exact ih h _

/-- The columns that a group is placed in are its own. -/
theorem State.map_snd_groupIdx (s : State) (g : Group) : (s.groupIdx g).map Prod.snd = g.cols := by
  unfold State.groupIdx; dsimp only
  rw [List.map_snd_zip]; simp

/-- A group's cores are taken, it is listed, and its columns take their parts in it. -/
theorem State.placeGroup_eq (s : State) (gid : Nat) (g : Group) :
    let u := (g.cores.foldl (fun s k => s.takeCore k (g.ctx, g.queue, g.stage) g.hdr) s).setGroup gid (some g)
    s.placeGroup gid g = (u.groupIdx g).foldl (State.placeColumn gid g) u := rfl

theorem State.nextGroup_takeCore (s : State) (core : Nat) (key : Nat × Nat × Nat) (h : KHdr) :
    (s.takeCore core key h).sch.nextGroup = s.sch.nextGroup := by
  unfold State.takeCore; split <;> rfl

theorem State.nextGroup_placeGroup (s : State) (gid : Nat) (g : Group) : (s.placeGroup gid g).sch.nextGroup = s.sch.nextGroup := by
  have hcores := foldl_keeps (fun t : State => t.sch.nextGroup = s.sch.nextGroup) (fun s k => s.takeCore k (g.ctx, g.queue, g.stage) g.hdr)
    (fun t k ht => (t.nextGroup_takeCore _ _ _).trans ht) g.cores s rfl
  rw [State.placeGroup_eq]
  exact foldl_keeps (fun t : State => t.sch.nextGroup = s.sch.nextGroup) (State.placeColumn gid g) (fun _ _ ht => ht) _ _ hcores

theorem State.sits_placeGroup {g : Group} {c : Nat} (h : c ∈ g.cols) (s : State) (gid : Nat) : (s.placeGroup gid g).Sits gid g c := by
  rw [State.placeGroup_eq]
  exact State.sits_of_mem (by rw [State.map_snd_groupIdx]; exact h) _

/-- A dispatch places a group, under the next number, in its slot's columns. -/
theorem State.dispatch_places (s : State) (ctx q k : Nat) (l : LaunchRun) (h : KHdr) (sl ix : Nat) : ∃ (u : State) (g : Group),
    s.dispatch ctx q k l h sl ix = u.placeGroup s.sch.nextGroup g ∧ u.sch.nextGroup = s.sch.nextGroup + 1 ∧ g.cols = slotCols h sl
      ∧ g.entry = (l.stages.getD k {}).entry := by
  unfold State.dispatch; dsimp only
  split <;> exact ⟨_, _, rfl, rfl, rfl, rfl⟩

section
variable {s : State} {core ctx q k sl ix : Nat} {l : LaunchRun} {h : KHdr} (hc : s.current = some ctx) (hs : s.schedules = true)
  (hr : s.pw.runs (core / 6) = true) (hf : s.firedFirst ctx = false) (hl : s.lowerTakes ctx core = false) (hp : s.pick ctx core = some (q, k))
  (hq : (s.lq ctx q).run = some l) (hh : (l.sr.getD k {}).hdr = some h)
  (hpl : s.placeFor (ctx, q, k) (l.stages.getD k {}) (l.sr.getD k {}) h core = some (sl, ix))
include hc hs hr hf hl hp hq hh hpl

/-- A dispatch moves the rotation pointers of the cluster and of the launch. -/
theorem exec_groupDispatch : exec (.groupDispatch core) s = .next (({ s with
    sch.rotQ := tabSet s.sch.rotQ (core / 6) ((q + 1) % 64) } : State).dispatch ctx q k { l with srot := (k + 1) % 8 } h sl ix) := by
  rw [show exec (.groupDispatch core) s = execGroupDispatch core s from rfl]
  unfold execGroupDispatch; rw [hc]; dsimp only
  rw [hs, hr, hf, hl, if_neg (by decide), hp]; dsimp only
  rw [hq]; dsimp only
  rw [hh]; dsimp only
  rw [hpl]

/-- A core that may take a group of its stage dispatches it into the slot's columns (R91, R131). -/
theorem groupDispatch_places : ∃ t, exec (.groupDispatch core) s = .next t ∧ t.sch.nextGroup = s.sch.nextGroup + 1
    ∧ ∀ c ∈ slotCols h sl, (tabGet t.cols c).isSome = true ∧ (t.col c).group = s.sch.nextGroup ∧ (t.col c).live = 0xFFFFFFFF
      ∧ ((t.col c).slot 0).mask = 0xFFFFFFFF ∧ ((t.col c).slot 0).pc = entryPc c (l.stages.getD k {}).entry
      ∧ ((t.col c).slot 0).cond = .ready ∧ (∀ j, j < 8 → (t.col c).rdJ j = 0xFFFFFFFF) := by
  have he := exec_groupDispatch hc hs hr hf hl hp hq hh hpl
  obtain ⟨u, g, hd, hn, hcols, hentry⟩ := State.dispatch_places { s with sch.rotQ := tabSet s.sch.rotQ (core / 6) ((q + 1) % 64) } ctx q k
    { l with srot := (k + 1) % 8 } h sl ix
  rw [hd] at he
  refine ⟨_, he, (u.nextGroup_placeGroup _ _).trans hn, fun c hmem => ?_⟩
  obtain ⟨i, hi⟩ := u.sits_placeGroup (hcols ▸ hmem) s.sch.nextGroup
  rw [State.col_of_some hi, ← show g.entry = (l.stages.getD k {}).entry from hentry]
  exact ⟨Option.isSome_of_eq_some hi, freshColumn_spec _ _ _ _⟩

end

/-! ## Finish (R92, R292) -/

theorem State.cols_freeCores (s : State) (cores : List Nat) : (s.freeCores cores).cols = s.cols := by
  refine foldl_keeps (fun t : State => t.cols = s.cols) _ (fun t k ht => ?_) cores s rfl
  split
  · exact ht
  · exact ht

/-- The columns of an evicted group hold none. -/
theorem State.tabGet_evict {g : Group} {c : Nat} (h : c ∈ g.cols) (s : State) (gid : Nat) : tabGet (s.evict gid g).cols c = none := by
  rw [show (s.evict gid g).cols = s.cols.filter (fun e => !g.cols.contains e.1) from rfl]
  induction s.cols with
  | nil => rfl
  | cons e t ih =>
    by_cases he : e.1 ∈ g.cols
    · rw [List.filter_cons_of_neg (by simpa using he)]; exact ih
    · rw [List.filter_cons_of_pos (by simpa using he), tabGet_cons, if_neg fun h' : e.1 = c => he (h' ▸ h)]; exact ih

/-- A group that can finish is evicted; a launch whose header check failed, and that waited for it, then ends (R72). -/
theorem exec_groupFinish {s : State} {gid : Nat} {g : Group} (h : s.group gid = some g) (hf : s.canFinish gid g = true) :
    ∃ u : State, exec (.groupFinish gid) s = .next (u.endFailing g.ctx g.queue) ∧ u.cols = (s.evict gid g).cols := by
  rw [show exec (.groupFinish gid) s = execGroupFinish gid s from rfl]
  unfold execGroupFinish; rw [h]
  dsimp -zeta only
  rw [hf, if_neg (by decide)]
  extract_lets s1 s2 s3 _ s4
  refine ⟨s4, rfl, Eq.trans ?_ (s1.cols_freeCores g.cores)⟩
  unfold s4; split <;> rfl

/-- A group that can finish leaves its columns (R92, R292). -/
theorem groupFinish_leaves {s : State} {gid : Nat} {g : Group} (h : s.group gid = some g) (hf : s.canFinish gid g = true) :
    ∃ t, exec (.groupFinish gid) s = .next t ∧ ∀ c ∈ g.cols, tabGet t.cols c = none := by
  obtain ⟨u, he, hu⟩ := exec_groupFinish h hf
  refine ⟨_, he, fun c hc => ?_⟩
  rw [(u.keepsStages_endFailing _ _).cols, hu]
  exact s.tabGet_evict hc gid

/-! ## Retirement (R88, R89, R92) -/

theorem LaunchRun.getD_modStage {l : LaunchRun} {k : Nat} (h : k < l.sr.length) (f : StageRun → StageRun) :
    (l.modStage k f).sr.getD k {} = f (l.sr.getD k {}) := by
  unfold LaunchRun.modStage; dsimp only
  rw [List.getD_eq_getElem?_getD, List.getElem?_set_self h]; rfl

theorem LaunchRun.getD_modStage_ne {l : LaunchRun} {k j : Nat} (h : j ≠ k) (f : StageRun → StageRun) :
    (l.modStage k f).sr.getD j {} = l.sr.getD j {} := by
  unfold LaunchRun.modStage; dsimp only
  rw [List.getD_eq_getElem?_getD, List.getElem?_set_ne h.symm, ← List.getD_eq_getElem?_getD]

theorem LaunchRun.length_modStage (l : LaunchRun) (k : Nat) (f : StageRun → StageRun) : (l.modStage k f).sr.length = l.sr.length :=
  List.length_set

/-- The launch has stage `j`, which has retired `n` groups. -/
def LaunchRun.Retired (j n : Nat) (l : LaunchRun) : Prop := j < l.sr.length ∧ (l.sr.getD j {}).ret = n

/-- A change of a stage that leaves its count of retired groups leaves every stage's. -/
theorem LaunchRun.Retired.modStage {j n : Nat} {l : LaunchRun} (h : l.Retired j n) (k : Nat) {f : StageRun → StageRun} (hf : ∀ r, (f r).ret = r.ret) :
    (l.modStage k f).Retired j n := by
  obtain ⟨hj, hn⟩ := h
  refine ⟨(l.length_modStage k f).symm ▸ hj, ?_⟩
  by_cases hk : j = k
  · subst hk; rw [LaunchRun.getD_modStage hj, hf, hn]
  · rw [LaunchRun.getD_modStage_ne hk, hn]

/-- The end of a launch that is done leaves the ledger. -/
theorem State.ledger_endIfDone (s : State) (ctx q : Nat) : (s.endIfDone ctx q).ledger = s.ledger := by
  unfold State.endIfDone; split
  · split
    · exact s.ledger_endLaunch _ _ _ _ _
    · rfl
  · rfl

section
variable {s : State} {gid : Nat} {g : Group} {l : LaunchRun} (h : s.group gid = some g) (hl : (s.lq g.ctx g.queue).run = some l)
  (hp : g.phase = .finished) (hk : g.stage < l.sr.length) (hr : (l.sr.getD g.stage {}).ret = g.index)
include h hl hp hk hr

/-- A finished group whose index is next retires, before a launch that is done ends: its stage has retired one group more. -/
theorem exec_groupRetirement : ∃ l' : LaunchRun, exec (.groupRetirement gid) s =
      .next (((s.modLq g.ctx g.queue fun q => { q with run := some l' }).setGroup gid none).endIfDone g.ctx g.queue)
      ∧ (l'.sr.getD g.stage {}).ret = g.index + 1 := by
  rw [show exec (.groupRetirement gid) s = execGroupRetirement gid s from rfl]
  unfold execGroupRetirement; rw [h]; dsimp -zeta only
  rw [hl]; dsimp -zeta only
  rw [if_neg (not_or.mpr ⟨not_not.mpr hp, not_not.mpr hr⟩)]
  extract_lets +onlyGivenNames l1 l2
  have h1 : l1.Retired g.stage g.index := by
    refine foldl_keeps (LaunchRun.Retired g.stage g.index) _ (fun l o ha => ha.modStage o.stage ?_) g.outRuns l ⟨hk, hr⟩
    exact fun _ => rfl
  refine ⟨l2, rfl, ?_⟩
  unfold l2; rw [LaunchRun.getD_modStage h1.1]
  exact congrArg (· + 1) h1.2

/-- A finished group whose index is next is gone, and its stage has retired one more while the launch goes on (R92). -/
theorem groupRetirement_retires : ∃ t, exec (.groupRetirement gid) s = .next t ∧ t.group gid = none
    ∧ ∀ l', (t.lq g.ctx g.queue).run = some l' → (l'.sr.getD g.stage {}).ret = g.index + 1 := by
  obtain ⟨l2, he, hret⟩ := exec_groupRetirement h hl hp hk hr
  have hlq := s.lq_modLq_same g.ctx g.queue fun q => { q with run := some l2 }
  refine ⟨_, he, ?_, fun l' hl' => ?_⟩
  · unfold State.group
    rw [State.groups_of_ledger (State.ledger_endIfDone _ _ _)]
    exact tabGet_tabSet_same s.sch.groups gid none
  · have hruns := (State.keepsStages_endIfDone _ g.ctx g.queue).runs (qKey g.ctx g.queue) l'.sr (congrArg (Option.map LaunchRun.sr) hl')
    have hsr : some l2.sr = some l'.sr := (congrArg LQueue.stageRuns hlq).symm.trans hruns
    rw [← Option.some.inj hsr]; exact hret

end

/-- Settles O8: each step's equation; what a launch's end then does leaves the columns, the groups and the stages of the launches that run. -/
theorem launchPipeline : Obligations.LaunchPipeline := by
  unfold Obligations.LaunchPipeline
  exact ⟨fun s ctx queue r rest h hr => launchStart_starts h hr,
    fun s core ctx q k sl ix l h hc hs hr hf hl hp hq hh hpl => groupDispatch_places hc hs hr hf hl hp hq hh hpl,
    fun s gid g h hf => groupFinish_leaves h hf, fun s gid g l h hl hp hk hr => groupRetirement_retires h hl hp hk hr⟩

end Sys2Proof.Machine

/-!
SUPPORT. The mint (R117, R205, R225, R227, R228, R417 to R419): what starts a task, what its completion leaves, and the value of an element; the obligation O52.
-/

namespace Sys2Proof.Machine

/-! ## The start of a task (R205, R417) -/

/-- Conditions 1 and 2 of R417 for a task. -/
theorem State.taskClear_task {s : State} {core : Nat} {m : MintOp} {op povr ks wrec wph : Nat} {a b : TileDesc} {tag : DWord} {nq st fin : Bool}
    (ha : m.act = .task op povr ks wrec wph a b tag nq st fin) : s.taskClear core m =
      (s.mintReady core m && s.fillsDone core m.seq (if op < 2 then s.tileSpans m.col a ++ s.tileSpans m.col b else [])) := by
  unfold State.taskClear; rw [ha]

/-- The test of a task that has not started: the first time conditions 1 and 2 hold, its receipt's phase is compared (R417). -/
theorem State.testTask_waiting {s : State} {core : Nat} {m : MintOp} {op povr ks wrec wph : Nat} {a b : TileDesc} {tag : DWord} {nq fin : Bool}
    (ha : m.act = .task op povr ks wrec wph a b tag nq false fin) (hc : s.taskClear core m = true) : s.testTask core m =
      if m.tested then m else { m with tested := true, passed := wrec == 0 || (s.rcptGet core (16 * wrec)).1.phase == wph } := by
  unfold State.testTask; rw [ha]; dsimp only
  rw [hc, Bool.not_true, Bool.or_false]

/-- A task whose test passes now, or has passed before, has passed it. -/
theorem State.testTask_passed {s : State} {core : Nat} {m : MintOp} {op povr ks wrec wph : Nat} {a b : TileDesc} {tag : DWord} {nq fin : Bool}
    (ha : m.act = .task op povr ks wrec wph a b tag nq false fin) (hc : s.taskClear core m = true)
    (hp : if m.tested then m.passed = true else wrec = 0 ∨ (s.rcptGet core (16 * wrec)).1.phase = wph) :
    s.testTask core m = { m with tested := true, passed := true } := by
  rw [State.testTask_waiting ha hc]
  by_cases ht : m.tested = true
  · rw [if_pos ht] at hp ⊢
    exact congrArg₂ (fun x y : Bool => { m with tested := x, passed := y }) ht hp
  · rw [if_neg ht] at hp ⊢
    have hb : (wrec == 0 || (s.rcptGet core (16 * wrec)).1.phase == wph) = true := by simpa using hp
    rw [hb]

/-- The test looks at the tasks before, the fills and the receipt, not at whether it has been made. -/
theorem State.taskClear_tested (s : State) (core : Nat) (m : MintOp) (x y : Bool) :
    s.taskClear core { m with tested := x, passed := y } = s.taskClear core m := rfl

/-- A task that meets the five conditions starts (R117, R205, R417). -/
theorem mintTaskStart_starts {s : State} {core op povr ks wrec wph : Nat} {a b : TileDesc} {tag : DWord} {nq : Bool} {m : MintOp}
    (hf : (tabGet s.mintq core).find? (·.id == m.id) = some m) (ha : m.act = .task op povr ks wrec wph a b tag nq false false)
    (hc : s.taskClear core m = true) (hb : s.mintsBusy core < 2) (hk : s.forkDone m.col m.lanes m.bound = true) (ht : s.hasTurn m.col = true)
    (hp : if m.tested then m.passed = true else wrec = 0 ∨ (s.rcptGet core (16 * wrec)).1.phase = wph) :
    exec (.mintTaskStart core m.id) s = .next
      (s.setMint core { m with act := .task op povr ks wrec wph a b tag nq true false, tested := true, passed := true }) := by
  rw [show exec (.mintTaskStart core m.id) s = execMintTaskStart core m.id s from rfl]
  unfold execMintTaskStart; rw [hf]; dsimp only; rw [ha]; dsimp only
  rw [State.testTask_passed ha hc hp, State.taskClear_tested, hc]; dsimp only
  rw [hk, ht, decide_eq_true hb]; rfl

/-! ## The completion of a task (R418, R419) -/

/-- No entry of a queue is finished. -/
theorem State.postTags_open {core : Nat} {q : List MintOp} (hq : ∀ e ∈ q, e.done = false) (s : State) : s.postTags core q = s := by
  induction q with
  | nil => rfl
  | cons e q ih =>
    obtain ⟨he, hq⟩ := List.forall_mem_cons.mp hq
    unfold State.postTags
    split
    · next ha => unfold MintOp.done at he; rw [ha] at he; cases he
    · exact ih hq

/-- Entries that are not finished post nothing: the finished ones behind them do. -/
theorem State.postTags_append {core : Nat} {q : List MintOp} (hq : ∀ e ∈ q, e.done = false) (s : State) (r : List MintOp) :
    s.postTags core (q ++ r) = s.postTags core r := by
  induction q with
  | nil => rfl
  | cons e q ih =>
    obtain ⟨he, hq⟩ := List.forall_mem_cons.mp hq
    rw [List.cons_append]
    conv_lhs => unfold State.postTags
    split
    · next ha => unfold MintOp.done at he; rw [ha] at he; cases he
    · exact ih hq

/-- A queue of tasks goes on by itself only. -/
theorem State.mintGoOn_tasks {s : State} {core : Nat} (h : ∀ e ∈ tabGet s.mintq core, e.isTask = true) : s.mintGoOn core = s := by
  unfold State.mintGoOn
  cases (tabGet s.mintq core).length with
  | zero => rfl
  | succ n =>
    unfold State.settleMint
    rw [List.find?_eq_none.mpr fun e he => by simp [h e he]]

/-- Writing some elements of an accumulator. -/
def State.accSetAll (s : State) (g core a : Nat) (f : Nat × Nat → Word × Bool) (es : List (Nat × Nat)) : State :=
  es.foldl (fun s e => s.accSet g core a e.1 e.2 (f e).1 (f e).2) s

theorem State.foldl_accSet (s : State) (g core a : Nat) (f : Nat × Nat → Word × Bool) (es : List (Nat × Nat)) :
    (es.map fun e => (e, f e)).foldl (fun (s : State) x => s.accSet g core a x.1.1 x.1.2 x.2.1 x.2.2) s = s.accSetAll g core a f es :=
  List.foldl_map

theorem State.accSetAll_only (s : State) (g core a : Nat) (f : Nat × Nat → Word × Bool) (es : List (Nat × Nat)) :
    s.accSetAll g core a f es = { s with acc := (s.accSetAll g core a f es).acc, accP := (s.accSetAll g core a f es).accP } :=
  foldl_keeps (fun t : State => t = { s with acc := t.acc, accP := t.accP }) _
    (fun t e h => by unfold State.accSet; dsimp only; rw [h]) es s rfl

/-- The elements of an accumulator have distinct keys. -/
theorem accKey_inj {g core a i n i' n' : Nat} (hn : n < 32) (hn' : n' < 32) (h : accKey g core a i n = accKey g core a i' n') : i = i' ∧ n = n' := by
  unfold accKey at h; omega

/-- Elements written read as written, the others as before. -/
theorem State.accGet_accSetAll (g core a : Nat) (f : Nat × Nat → Word × Bool) {i n : Nat} (hn : n < 32) (es : List (Nat × Nat))
    (hes : ∀ e ∈ es, e.2 < 32) (s : State) :
    (s.accSetAll g core a f es).accGet g core a i n = if (i, n) ∈ es then f (i, n) else s.accGet g core a i n := by
  induction es generalizing s with
  | nil => rfl
  | cons e es ih =>
    obtain ⟨he, hes⟩ := List.forall_mem_cons.mp hes
    rw [show s.accSetAll g core a f (e :: es) = (s.accSet g core a e.1 e.2 (f e).1 (f e).2).accSetAll g core a f es from rfl, ih hes,
      State.accGet_accSet]
    by_cases hi : (i, n) ∈ es
    · rw [if_pos hi, if_pos (List.mem_cons_of_mem _ hi)]
    · rw [if_neg hi]
      by_cases hk : accKey g core a i n = accKey g core a e.1 e.2
      · obtain ⟨h1, h2⟩ := accKey_inj hn he hk
        have hie : (i, n) = e := Prod.ext h1 h2
        rw [if_pos hk, if_pos (hie ▸ List.mem_cons_self), hie]
      · rw [if_neg hk, if_neg]
        rw [List.mem_cons, not_or]
        exact ⟨fun hie => hk (by rw [← hie]), hi⟩

/-- Words of the accumulators that are no element written stay. -/
theorem State.acc_accSetAll_ne (g core a : Nat) (f : Nat × Nat → Word × Bool) {key : Nat} (es : List (Nat × Nat))
    (hk : ∀ e ∈ es, key ≠ accKey g core a e.1 e.2) (s : State) :
    tabGet (s.accSetAll g core a f es).acc key = tabGet s.acc key ∧ tabGet (s.accSetAll g core a f es).accP key = tabGet s.accP key := by
  induction es generalizing s with
  | nil => exact ⟨rfl, rfl⟩
  | cons e es ih =>
    obtain ⟨he, hk⟩ := List.forall_mem_cons.mp hk
    obtain ⟨h1, h2⟩ := ih hk (s.accSet g core a e.1 e.2 (f e).1 (f e).2)
    exact ⟨h1.trans (tabGet_tabSet_ne s.acc _ he), h2.trans (tabGet_tabSet_ne s.accP _ he)⟩

theorem mem_accElems {e : Nat × Nat} : e ∈ accElems ↔ e.1 < 32 ∧ e.2 < 32 := by
  obtain ⟨i, n⟩ := e
  simp only [accElems, List.mem_flatMap, List.mem_map, mem_lanes32, Prod.mk.injEq]
  exact ⟨fun ⟨_, hi, _, hn, e1, e2⟩ => e1 ▸ e2 ▸ ⟨hi, hn⟩, fun ⟨hi, hn⟩ => ⟨i, hi, n, hn, rfl, rfl⟩⟩

/-- All 1,024 elements of an accumulator hold what f gives, and nothing else has changed. -/
def State.AccWritten (s u : State) (g core a : Nat) (f : Nat × Nat → Word × Bool) : Prop :=
  u = { s with acc := u.acc, accP := u.accP }
    ∧ (∀ i n, i < 32 → n < 32 → u.accGet g core a i n = f (i, n))
    ∧ ∀ key, (∀ i n, i < 32 → n < 32 → key ≠ accKey g core a i n) → tabGet u.acc key = tabGet s.acc key ∧ tabGet u.accP key = tabGet s.accP key

theorem State.accWritten_accSetAll (s : State) (g core a : Nat) (f : Nat × Nat → Word × Bool) :
    s.AccWritten (s.accSetAll g core a f accElems) g core a f := by
  refine ⟨s.accSetAll_only g core a f accElems, fun i n hi hn => ?_, fun key hk => ?_⟩
  · rw [State.accGet_accSetAll g core a f hn accElems (fun e he => (mem_accElems.mp he).2), if_pos (mem_accElems.mpr ⟨hi, hn⟩)]
  · exact State.acc_accSetAll_ne g core a f accElems (fun e he => hk _ _ (mem_accElems.mp he).1 (mem_accElems.mp he).2) s

/-- The queue without an entry. -/
def withoutTask (task : Nat) (q : List MintOp) : List MintOp := q.filter fun e => e.id != task

/-- A core's scratchpad without an error is read as it stands. -/
theorem State.scrubSpad_clean {s : State} (h : s.spadUp = []) (core reader : Nat) : s.scrubSpad core reader = s := by
  unfold State.scrubSpad; rw [h]; rfl

/-- An entry that has just finished posts its TAG where room is, and leaves the queue (R419). -/
theorem State.postTags_finished {u : State} {core : Nat} {q : List MintOp} (hq : ∀ e ∈ q, e.done = false) {m : MintOp} {op povr ks wrec wph : Nat}
    {a b : TileDesc} {tag : DWord} {nq st : Bool} (ha : m.act = .task op povr ks wrec wph a b tag nq st true)
    (hroom : (tabGet u.compq (compKey m.group core)).length < 32) : u.postTags core (q ++ [m]) =
      { u with compq := tabMod u.compq (compKey m.group core) (· ++ [tag]), mintq := tabMod u.mintq core (withoutTask m.id) } := by
  rw [State.postTags_append hq]
  unfold State.postTags; rw [ha]; dsimp only
  rw [if_pos hroom]; rfl

/-- A queue that an entry has left holds the others. -/
theorem withoutTask_append (q : List MintOp) (m : MintOp) : withoutTask m.id (withoutTask m.id q ++ [m]) = withoutTask m.id q := by
  unfold withoutTask; simp

/-- The entries of a core's queue are tasks under way. -/
def State.AllTasks (s : State) (core : Nat) : Prop := ∀ e ∈ tabGet s.mintq core, e.isTask = true ∧ e.done = false

theorem State.AllTasks.without {s : State} {core : Nat} (h : s.AllTasks core) (task : Nat) :
    ∀ e ∈ withoutTask task (tabGet s.mintq core), e.isTask = true ∧ e.done = false := fun e he => h e (List.mem_filter.mp he).1

/-- A task without a TAG leaves the queue (R419). -/
theorem State.leaves_quietly {u : State} {core : Nat} (h : u.AllTasks core) (task : Nat) :
    let u1 : State := { u with mintq := tabMod u.mintq core (withoutTask task) }
    (u1.postTags core (tabGet u1.mintq core)).mintGoOn core = u1 := by
  intro u1
  have hq : tabGet u1.mintq core = withoutTask task (tabGet u.mintq core) := tabGet_tabMod_same _ _ _
  have hw := h.without task
  rw [State.postTags_open fun e he => (hw e (hq ▸ he)).2]
  exact State.mintGoOn_tasks fun e he => (hw e (hq ▸ he)).1

/-- A task with a TAG leaves the queue too where room is for it (R419). -/
theorem State.leaves_tagged {u : State} {core : Nat} (h : u.AllTasks core) {m : MintOp} {op povr ks wrec wph : Nat} {a b : TileDesc} {tag : DWord}
    {nq st : Bool} (ha : m.act = .task op povr ks wrec wph a b tag nq st true) (hroom : (tabGet u.compq (compKey m.group core)).length < 32) :
    let u1 : State := { u with mintq := tabMod u.mintq core fun q => withoutTask m.id q ++ [m] }
    (u1.postTags core (tabGet u1.mintq core)).mintGoOn core =
      { u1 with compq := tabMod u.compq (compKey m.group core) (· ++ [tag]), mintq := tabMod u1.mintq core (withoutTask m.id) }
    ∧ tabGet (tabMod u1.mintq core (withoutTask m.id)) core = withoutTask m.id (tabGet u.mintq core) := by
  intro u1
  have hq : tabGet u1.mintq core = withoutTask m.id (tabGet u.mintq core) ++ [m] :=
    tabGet_tabMod_same u.mintq core fun q => withoutTask m.id q ++ [m]
  have hq' : tabGet (tabMod u1.mintq core (withoutTask m.id)) core = withoutTask m.id (tabGet u.mintq core) := by
    rw [tabGet_tabMod_same, hq, withoutTask_append]
  have hw := h.without m.id
  refine ⟨?_, hq'⟩
  rw [hq, State.postTags_finished (u := u1) (fun e he => (hw e he).2) ha hroom]
  exact State.mintGoOn_tasks fun e he => (hw e (hq' ▸ he)).1

section
variable {s : State} {core op povr ks wrec wph : Nat} {a b : TileDesc} {tag : DWord} {nq : Bool} {m : MintOp}
  (hf : (tabGet s.mintq core).find? (·.id == m.id) = some m) (ha : m.act = .task op povr ks wrec wph a b tag nq true false)
  (hq : ∀ e, e ∈ tabGet s.mintq core → e.isTask = true ∧ e.done = false ∧ ((s.core core).det = true → m.seq ≤ e.seq)) (hup : s.spadUp = [])
  (hroom : nq = false → (tabGet s.compq (compKey m.group core)).length < 32)
include hf ha hq hup hroom

/-- A started task whose turn it is completes: its elements are written, it has left the queue, and its TAG is posted (R418, R419). -/
theorem mintTaskCompletion_completes : ∃ u mq, s.AccWritten u m.group core m.acc (fun e => s.mintElem core m op povr ks a b e.1 e.2)
    ∧ tabGet mq core = withoutTask m.id (tabGet s.mintq core) ∧ exec (.mintTaskCompletion core m.id) s = .next
      { u with mintq := mq, compq := if nq then s.compq else tabMod s.compq (compKey m.group core) (· ++ [tag]) } := by
  have hturn : ((s.core core).det && (tabGet s.mintq core).any fun e => e.isTask && decide (e.seq < m.seq) && !e.done) = false := by
    by_cases hd : (s.core core).det = true
    · rw [hd, Bool.true_and, List.any_eq_false]
      intro e he
      have hle := (hq e he).2.2 hd
      simp [Nat.not_lt.mpr hle]
    · simp [hd]
  rw [show exec (.mintTaskCompletion core m.id) s = execMintTaskCompletion core m.id s from rfl]
  unfold execMintTaskCompletion; rw [hf]; dsimp only; rw [ha]; dsimp only
  rw [hturn, State.scrubSpad_clean hup, State.foldl_accSet, if_neg Bool.false_ne_true]
  have hu := s.accWritten_accSetAll m.group core m.acc fun e => s.mintElem core m op povr ks a b e.1 e.2
  generalize s.accSetAll m.group core m.acc (fun e => s.mintElem core m op povr ks a b e.1 e.2) accElems = u at hu ⊢
  have hmq : u.mintq = s.mintq := (congrArg State.mintq hu.1).trans rfl
  have hcq : u.compq = s.compq := (congrArg State.compq hu.1).trans rfl
  have hall : u.AllTasks core := fun e he => ⟨(hq e (hmq ▸ he)).1, (hq e (hmq ▸ he)).2.1⟩
  rw [← hmq, ← hcq]
  cases nq with
  | true => exact ⟨u, _, hu, tabGet_tabMod_same _ _ _, congrArg _ (State.leaves_quietly hall m.id)⟩
  | false =>
    obtain ⟨h1, h2⟩ := State.leaves_tagged (m := { m with act := .task op povr ks wrec wph a b tag false true true }) hall rfl
      (by rw [hcq]; exact hroom rfl)
    exact ⟨u, _, hu, h2, congrArg _ h1⟩

/-- The completion of a task: all 1,024 elements, its place in the queue and its TAG, and nothing else. -/
theorem mintTaskCompletion_writes : ∃ t, exec (.mintTaskCompletion core m.id) s = .next t
    ∧ t = { s with acc := t.acc, accP := t.accP, mintq := t.mintq, compq := t.compq }
    ∧ (∀ i n, i < 32 → n < 32 → t.accGet m.group core m.acc i n = s.mintElem core m op povr ks a b i n)
    ∧ (∀ key, (∀ i n, i < 32 → n < 32 → key ≠ accKey m.group core m.acc i n) →
      tabGet t.acc key = tabGet s.acc key ∧ tabGet t.accP key = tabGet s.accP key)
    ∧ tabGet t.mintq core = (tabGet s.mintq core).filter (fun e => e.id != m.id)
    ∧ ∀ key, tabGet t.compq key = tabGet s.compq key ++ (if key = compKey m.group core ∧ nq = false then [tag] else []) := by
  obtain ⟨u, mq, ⟨hu, hin, hout⟩, hmq, he⟩ := mintTaskCompletion_completes hf ha hq hup hroom
  refine ⟨_, he, by rw [hu], hin, hout, hmq, fun key => ?_⟩
  cases nq with
  | true => simp
  | false =>
    show tabGet (tabMod s.compq (compKey m.group core) (· ++ [tag])) key = _
    rw [tabGet_tabMod]
    by_cases hkey : key = compKey m.group core
    · rw [if_pos hkey, if_pos ⟨hkey, rfl⟩, hkey]
    · rw [if_neg hkey, if_neg fun h => hkey h.1, List.append_nil]

end

/-! ## The value of an element (R227, R228) -/

/-- The sum of the products of a slab. -/
def slabSum (ga : Group8) (mb : List Int) : Int := ((List.range 8).map fun k => ga.m.getD k 0 * mb.getD k 0).sum

theorem foldl_products (x y : Nat → Int) (l : List Nat) (v : Int) :
    l.foldl (fun (v : Int) k => v + x k * y k) v = v + (l.map fun k => x k * y k).sum := by
  induction l generalizing v with
  | nil => simp
  | cons k l ih => rw [List.foldl_cons, ih, List.map_cons, List.sum_cons, add_assoc]

/-- wrapW is the number reduced modulo 2^w. -/
theorem wrapW_cast (w : Nat) (i : Int) : (wrapW w i : Int) = i % (2 ^ w : Nat) := by
  unfold wrapW
  exact Int.toNat_of_nonneg (Int.emod_nonneg _ (by positivity))

/-- On integer tiles the slabs add their products modulo 2^32 (R228). -/
theorem mintSlabs_int (a : Nat → Group8) (b : Nat → Bool × List Int × XR × Bool) (p fuel : Nat) : ∀ sl acc : Nat,
    (mintSlabs a b true true p sl acc fuel : Int) % 2 ^ 32 =
      ((acc : Int) + ((List.range' sl fuel).map fun j => slabSum (a j) (b j).2.1).sum) % 2 ^ 32 := by
  induction fuel with
  | zero => intro sl acc; simp [mintSlabs]
  | succ fuel ih =>
    intro sl acc
    unfold mintSlabs
    simp only [Bool.and_self, if_true]
    rw [ih, foldl_products, wrapW_cast, List.range'_succ, List.map_cons, List.sum_cons]
    push_cast
    rw [Int.emod_add_emod, zero_add, ← add_assoc]; rfl

section
variable (s : State) (core : Nat) (m : MintOp) (op povr ks : Nat) (da db : TileDesc) (i n : Nat)

/-- The accumulator element that a task starts from: zero for the form that clears first. -/
def State.mintOld : Word × Bool := if op = 1 then (0, false) else s.accGet m.group core m.acc i n

/-- The slabs of A and B that an element of a task multiplies. -/
def State.mintA (sl : Nat) : Group8 :=
  s.aSlab core (s.region m.col (descWin da)).1 da (intTile (descTy da) && intTile (descTy db)) (if povr = 0 then descP da else povr) i sl
def State.mintB (sl : Nat) : Bool × List Int × XR × Bool := s.bSlab core (s.region m.col (descWin db)).1 db n sl

/-- The clear task leaves zero (R415). -/
theorem State.mintElem_clear : s.mintElem core m 2 povr ks da db i n = (0, false) := rfl

theorem State.mintElem_task (h : op ≠ 2) : s.mintElem core m op povr ks da db i n =
    (BitVec.ofNat 32 (mintSlabs (s.mintA core m povr da db i) (s.mintB core m db n) (intTile (descTy da)) (intTile (descTy db))
        (if povr = 0 then descP da else povr) 0 (s.mintOld core m op i n).1.toNat ks),
      (s.mintOld core m op i n).2 || (List.range ks).any fun sl => (s.mintA core m povr da db i sl).pois || (s.mintB core m db n sl).2.2.2) := by
  unfold State.mintElem; rw [if_neg h]; rfl

/-- An element is poisoned by its old value and by every slab it reads (R110, R228). -/
theorem State.mintElem_pois (h : op ≠ 2) : (s.mintElem core m op povr ks da db i n).2 = true ↔
    (s.mintOld core m op i n).2 = true
      ∨ ∃ sl, sl < ks ∧ ((s.mintA core m povr da db i sl).pois = true ∨ (s.mintB core m db n sl).2.2.2 = true) := by
  rw [State.mintElem_task s core m op povr ks da db i n h]
  simp only [Bool.or_eq_true, List.any_eq_true, List.mem_range]

/-- On integer tiles the sum of the products is added to the old element modulo 2^32 (R228). -/
theorem State.mintElem_int (h : op ≠ 2) (ha : intTile (descTy da) = true) (hb : intTile (descTy db) = true) :
    ((s.mintElem core m op povr ks da db i n).1.toNat : Int) % 2 ^ 32 = (((s.mintOld core m op i n).1.toNat : Int)
      + ((List.range ks).map fun sl => slabSum (s.mintA core m povr da db i sl) (s.mintB core m db n sl).2.1).sum) % 2 ^ 32 := by
  rw [State.mintElem_task s core m op povr ks da db i n h, ha, hb, List.range_eq_range', ← mintSlabs_int]
  rw [BitVec.toNat_ofNat]
  push_cast
  exact Int.emod_emod_of_dvd _ (dvd_refl _)

end

/-- Settles O52: a task that meets the conditions starts; a test is made once; a task that completes leaves its elements and its TAG; and the elements. -/
theorem mintEvents : Obligations.MintEvents := by
  unfold Obligations.MintEvents
  refine ⟨fun s core op povr ks wrec wph a b tag nq m hf ha hr hd hb hk ht hp => ?_, fun s core m hc ht op povr ks wrec wph a b tag nq fin ha => ?_,
    fun s core op povr ks wrec wph a b tag nq m hf ha hq hup hroom => mintTaskCompletion_writes hf ha hq hup hroom,
    fun s core m op povr ks da db i n => ?_⟩
  · have hc : s.taskClear core m = true := by rw [State.taskClear_task ha, hr, hd, Bool.and_self]
    exact ⟨_, mintTaskStart_starts hf ha hc hb hk ht hp, rfl, tabGet_tabMod_same _ _ _, fun c hc => tabGet_tabMod_ne _ _ hc⟩
  · rw [State.testTask_waiting ha hc, ht, if_neg Bool.false_ne_true]
  · exact ⟨fun h => by rw [h]; exact s.mintElem_clear core m povr ks da db i n, s.mintElem_pois core m op povr ks da db i n,
      s.mintElem_int core m op povr ks da db i n⟩

end Sys2Proof.Machine

/-!
SUPPORT. Loads and stores of a core's scratchpad (R110, R111, R164, R165, R352, R353, R357); the obligation O38.
-/

namespace Sys2Proof.Machine

/-! ## Values of a load (R353) -/

/-- The accesses of a load find that of a lane. -/
theorem find_lane {ls : List Nat} {g : Nat → LaneAcc} (hg : ∀ l, (g l).lane = l) {l : Nat} (hl : l ∈ ls) :
    (ls.map g).find? (·.lane == l) = some (g l) := by
  rw [List.find?_map]
  have h : ls.find? ((fun a : LaneAcc => a.lane == l) ∘ g) = some l := by
    cases hf : ls.find? ((fun a : LaneAcc => a.lane == l) ∘ g) with
    | none => exact absurd (List.find?_eq_none.mp hf l hl) (by simp [hg])
    | some k =>
      have hk := List.find?_some hf
      rw [Function.comp_apply, hg, beq_iff_eq] at hk
      rw [hk]
  rw [h]; rfl

/-- The value with which a vector write of a load is filled. -/
def fillVec (ty : Ty) (accs : List LaneAcc) (w : RWrite) : RWrite :=
  match w with
  | .vec n l q b => match accs.find? (·.lane == l) with
    | some a => .vec n l (BitVec.ofNat 32 (if a.size = 8 ∧ n % 2 = 1 then extLoad ty a.size (a.data.toNat % 2 ^ (8 * a.size)) / 2 ^ 32
        else extLoad ty a.size (a.data.toNat % 2 ^ (8 * a.size)))) a.pois
    | none => .vec n l q b
  | w => w

theorem fillWrites_vec (ty : Ty) (accs : List LaneAcc) (ws : List RWrite) (hw : ∀ w ∈ ws, ∃ n l q b, w = .vec n l q b) :
    fillWrites ty accs ws = ws.map (fillVec ty accs) := by
  unfold fillWrites; dsimp only
  rw [← List.zipIdx_map_fst 0 ws, List.map_map, List.zipIdx_map_fst 0 ws]
  refine List.map_congr_left fun x hx => ?_
  obtain ⟨n, l, q, b, h⟩ := hw x.1 (List.fst_mem_of_mem_zipIdx hx)
  rw [Function.comp_apply, h]; rfl

section
variable {ty : Ty} {n : Nat} {g : Nat → LaneAcc} (hg : ∀ l, (g l).lane = l ∧ (g l).size = n)
include hg

/-- A load into a vector register writes each lane's value; the high word of a pair goes to the odd register. -/
theorem fillWrites_v {m : BitVec 7} (hm : n = 8 → m.toNat % 2 = 0) (ls : List Nat) :
    fillWrites ty (ls.map g) (ls.flatMap fun l => wrOne (.v m) (decide (n = 8)) false l 0 false) =
      ls.flatMap fun l => wrOne (.v m) (decide (n = 8)) (ty == .i32) l (extLoad ty n ((g l).data.toNat % 2 ^ (8 * n))) (g l).pois := by
  rw [fillWrites_vec]
  · rw [List.map_flatMap]
    refine List.flatMap_congr fun l hl => ?_
    have hf := find_lane (fun l => (hg l).1) hl
    by_cases h8 : n = 8
    · have h1 : ¬(m.toNat % 2 = 1) := by rw [hm h8]; decide
      have h2 : (m.toNat + 1) % 2 = 1 := by have := hm h8; omega
      simp [wrOne, h8, fillVec, hf, (hg l).2, h1, h2]
    · simp [wrOne, h8, fillVec, hf, (hg l).2]
  · intro w hw
    obtain ⟨l, -, hw⟩ := List.mem_flatMap.mp hw
    by_cases h8 : n = 8
    · simp only [wrOne, h8, decide_true, if_true, List.mem_cons, List.not_mem_nil, or_false] at hw
      rcases hw with hw | hw <;> exact ⟨_, _, _, _, hw⟩
    · simp only [wrOne, h8, decide_false, Bool.false_eq_true, if_false, List.mem_cons, List.not_mem_nil, or_false] at hw
      exact ⟨_, _, _, _, hw⟩

/-- A load into a uniform register writes the value of its one access. -/
theorem fillWrites_s (m : BitVec 6) (l : Nat) :
    fillWrites ty [g l] (wrOne (.s m) (decide (n = 8)) false l 0 false) =
      wrOne (.s m) (decide (n = 8)) (ty == .i32) l (extLoad ty n ((g l).data.toNat % 2 ^ (8 * n))) (g l).pois := by
  simp [fillWrites, wrOne, (hg l).2]

end

/-- The result of a load of n bytes in each lane that computes: its writes are those of the values loaded. -/
theorem Ctx.fill_slots {x : Ctx} {g : Nat → LaneAcc} (hg : ∀ l, (g l).lane = l ∧ (g l).size = memSize x.w)
    (hd : (∃ m, x.w.d = .v m ∧ (memSize x.w = 8 → m.toNat % 2 = 0)) ∨ ∃ m, x.w.d = .s m) (f : Nat → Nat × Bool × FpFlags)
    (hf : ∀ l ∈ x.lanesFor x.w.d, f l = (extLoad x.w.ty (memSize x.w) ((g l).data.toNat % 2 ^ (8 * memSize x.w)), (g l).pois, 0)) :
    fillWrites x.w.ty ((x.lanesFor x.w.d).map g) (x.slots (x.lanesFor x.w.d))
      = (x.map x.w.d (decide (memSize x.w = 8)) (x.w.ty == .i32) f).1 := by
  rw [Ctx.map_writes, List.flatMap_congr fun l hl => by rw [hf l hl]]
  unfold Ctx.slots
  rcases hd with ⟨m, hd, hm⟩ | ⟨m, hd⟩
  · rw [hd]; exact fillWrites_v hg hm _
  · rw [hd]
    rw [show x.lanesFor (.s m) = if x.en = 0 then [] else [lowLane x.en] from rfl]
    split
    · rfl
    · simpa using fillWrites_s hg m (lowLane x.en)

/-! ## Bytes of the scratchpad (R164, R357) -/

/-- The bytes and word lengths that a memory word may have. -/
def AccSize (n : Nat) : Prop := n = 1 ∨ n = 2 ∨ n = 4 ∨ n = 8

theorem accSize_memSize (w : Full) : AccSize (memSize w) := by
  unfold memSize AccSize tySize; split
  · exact .inl rfl
  · split
    · exact .inr (.inl rfl)
    · split
      · simp
      · split <;> simp

theorem AccSize.le {n : Nat} (h : AccSize n) : n ≤ 8 := by
  unfold AccSize at h; omega

theorem spadKey_inj {core a b : Nat} : spadKey core a = spadKey core b ↔ a / 4 = b / 4 := by
  unfold spadKey; omega

/-- A byte of a number. -/
def byteAt (v j : Nat) : Nat := v / 256 ^ j % 256

theorem pow_256 (j : Nat) : (256 : Nat) ^ j = 2 ^ (8 * j) := (pow_mul 2 8 j).symm

theorem testBit_byteAt (v j i : Nat) : (byteAt v j).testBit i = (decide (i < 8) && v.testBit (8 * j + i)) := by
  unfold byteAt
  rw [pow_256, show (256 : Nat) = 2 ^ 8 from rfl, Nat.testBit_mod_two_pow, Nat.testBit_div_two_pow,
    Nat.add_comm]

theorem State.spadByte_eq (s : State) (core b : Nat) : s.spadByte core b = byteAt (s.spadGet core b).1.toNat (b % 4) := by
  unfold State.spadByte byteAt; rw [pow_256]

/-- A word with n of its bytes replaced from byte k on. -/
def mergeBytes (old v n k : Nat) : Nat :=
  (old &&& (2 ^ 32 - 1 - (2 ^ (8 * n) - 1) * 2 ^ (8 * k))) ||| (v % 2 ^ (8 * n)) * 2 ^ (8 * k)

/-- The bytes replaced are those of the value, the others stay. -/
theorem byteAt_mergeBytes {old v n k j : Nat} (hn : k + n ≤ 4) (hj : j < 4) : byteAt (BitVec.ofNat 32 (mergeBytes old v n k)).toNat j =
    if k ≤ j ∧ j < k + n then byteAt v (j - k) else byteAt old j := by
  have hm : (2 ^ (8 * n) - 1) * 2 ^ (8 * k) < 2 ^ 32 := by
    calc (2 ^ (8 * n) - 1) * 2 ^ (8 * k) < 2 ^ (8 * n) * 2 ^ (8 * k) :=
          Nat.mul_lt_mul_of_pos_right (Nat.sub_lt (by positivity) (by decide)) (by positivity)
      _ = 2 ^ (8 * n + 8 * k) := (pow_add _ _ _).symm
      _ ≤ 2 ^ 32 := Nat.pow_le_pow_right (by decide) (by omega)
  refine Nat.eq_of_testBit_eq fun i => ?_
  rw [apply_ite (fun x => Nat.testBit x i)]
  simp only [testBit_byteAt, BitVec.toNat_ofNat, Nat.testBit_mod_two_pow, mergeBytes, Nat.testBit_or, Nat.testBit_and, Nat.testBit_mul_two_pow,
    Nat.sub_sub, Nat.add_comm 1, Nat.testBit_two_pow_sub_succ hm, Nat.testBit_two_pow_sub_one]
  by_cases hi : i < 8
  · have h32 : 8 * j + i < 32 := by omega
    by_cases hk : k ≤ j
    · have hk' : 8 * k ≤ 8 * j + i := by omega
      by_cases hjn : j < k + n
      · have h1 : 8 * j + i - 8 * k < 8 * n := by omega
        have h2 : 8 * (j - k) + i = 8 * j + i - 8 * k := by omega
        simp [hi, h32, hk, hk', hjn, h1, h2]
      · have h1 : ¬(8 * j + i - 8 * k < 8 * n) := by omega
        simp [hi, h32, hk, hk', hjn, h1]
    · have hk' : ¬(8 * k ≤ 8 * j + i) := by omega
      simp [hi, h32, hk, hk']
  · simp [hi]

/-- A store of n bytes at an address reaches a byte, and touches its word. -/
def StoreHits (a n b : Nat) : Prop := a ≤ b ∧ b < a + n
def StoreTouches (a n b : Nat) : Prop := a / 4 ≤ b / 4 ∧ b / 4 ≤ (a + n - 1) / 4

/-- Nothing changes but the scratchpads. -/
def State.SpadOnly (s t : State) : Prop := t = { s with spad := t.spad, spadP := t.spadP }

theorem State.SpadOnly.trans {s t u : State} (h : s.SpadOnly t) (h' : t.SpadOnly u) : s.SpadOnly u := by
  unfold State.SpadOnly at *; rw [h']; rw [h]

theorem State.spadOnly_spadWrite (s : State) (core a n v : Nat) (q : Bool) : s.SpadOnly (s.spadWrite core a n v q) := by
  unfold State.spadWrite; split <;> rfl

/-- What a store of n aligned bytes does to the scratchpad of a core. -/
structure State.SpadPut (s t : State) (core a n v : Nat) (q : Bool) : Prop where
  byte_hit : ∀ b, StoreHits a n b → t.spadByte core b = byteAt v (b - a)
  byte_else : ∀ b, ¬ StoreHits a n b → t.spadByte core b = s.spadByte core b
  pois_touch : ∀ b, StoreTouches a n b → (t.spadGet core b).2 = q
  word_else : ∀ key, (∀ b, StoreTouches a n b → key ≠ spadKey core b) → tabGet t.spad key = tabGet s.spad key ∧ tabGet t.spadP key = tabGet s.spadP key

/-- Byte b of a core after a word of it is set. -/
theorem State.spadByte_spadSet (s : State) (core a b : Nat) (w : Word) (q : Bool) :
    (s.spadSet core a w q).spadByte core b = if b / 4 = a / 4 then byteAt w.toNat (b % 4) else s.spadByte core b := by
  rw [State.spadByte_eq, State.spadGet_spadSet, State.spadByte_eq]
  by_cases h : b / 4 = a / 4
  · rw [if_pos h, if_pos (spadKey_inj.mpr h)]
  · rw [if_neg h, if_neg fun e => h (spadKey_inj.mp e)]

/-- Bytes, halves and words: the bytes of one word are merged. -/
theorem State.spadWrite_small {core a n v : Nat} {q : Bool} (s : State) (hn : n = 1 ∨ n = 2 ∨ n = 4) (ha : a % n = 0) :
    s.SpadPut (s.spadWrite core a n v q) core a n v q := by
  have h8 : n ≠ 8 := by omega
  have hfit : a % 4 + n ≤ 4 := by rcases hn with rfl | rfl | rfl <;> omega
  have hw : ∀ b, StoreTouches a n b ↔ b / 4 = a / 4 := fun b => by unfold StoreTouches; omega
  rw [show s.spadWrite core a n v q = s.spadSet core a (BitVec.ofNat 32 (mergeBytes (s.spadGet core a).1.toNat v n (a % 4))) q by
    unfold State.spadWrite; rw [if_neg h8]; rfl]
  refine ⟨fun b hb => ?_, fun b hb => ?_, fun b hb => ?_, fun key hk => ?_⟩
  · obtain ⟨h1, h2⟩ := hb
    rw [State.spadByte_spadSet, if_pos (by omega), byteAt_mergeBytes hfit (by omega), if_pos (by omega)]
    congr 1; omega
  · rw [State.spadByte_spadSet]
    split
    · next h =>
      rw [byteAt_mergeBytes hfit (by omega), if_neg (by unfold StoreHits at hb; omega), State.spadByte_eq]
      unfold State.spadGet; rw [spadKey_inj.mpr h]
    · rfl
  · rw [State.spadGet_spadSet, if_pos (spadKey_inj.mpr ((hw b).mp hb))]
  · have hka := hk a ((hw a).mpr rfl)
    exact ⟨tabGet_tabSet_ne s.spad _ hka, tabGet_tabSet_ne s.spadP _ hka⟩

/-- Double words: two words are set. -/
theorem State.spadWrite_wide {core a v : Nat} {q : Bool} (s : State) (ha : a % 8 = 0) : s.SpadPut (s.spadWrite core a 8 v q) core a 8 v q := by
  have hlo : ∀ j, j < 4 → byteAt (BitVec.ofNat 32 v).toNat j = byteAt v j := fun j hj => by
    refine Nat.eq_of_testBit_eq fun i => ?_
    rw [testBit_byteAt, testBit_byteAt, BitVec.toNat_ofNat, Nat.testBit_mod_two_pow]
    by_cases hi : i < 8
    · simp [hi, show 8 * j + i < 32 by omega]
    · simp [hi]
  have hhi : ∀ j, j < 4 → byteAt (BitVec.ofNat 32 (v / 2 ^ 32)).toNat j = byteAt v (j + 4) := fun j hj => by
    refine Nat.eq_of_testBit_eq fun i => ?_
    rw [testBit_byteAt, testBit_byteAt, BitVec.toNat_ofNat, Nat.testBit_mod_two_pow, Nat.testBit_div_two_pow]
    by_cases hi : i < 8
    · simp only [hi, show 8 * j + i < 32 by omega, decide_true, Bool.true_and]; congr 1; omega
    · simp [hi]
  have hw : ∀ b, StoreTouches a 8 b ↔ b / 4 = a / 4 ∨ b / 4 = (a + 4) / 4 := fun b => by unfold StoreTouches; omega
  rw [show s.spadWrite core a 8 v q = (s.spadSet core a (BitVec.ofNat 32 v) q).spadSet core (a + 4) (BitVec.ofNat 32 (v / 2 ^ 32)) q from rfl]
  refine ⟨fun b hb => ?_, fun b hb => ?_, fun b hb => ?_, fun key hk => ?_⟩
  · obtain ⟨h1, h2⟩ := hb
    rw [State.spadByte_spadSet, State.spadByte_spadSet]
    by_cases h : b / 4 = (a + 4) / 4
    · rw [if_pos h, hhi _ (by omega)]; congr 1; omega
    · rw [if_neg h, if_pos (by omega), hlo _ (by omega)]; congr 1; omega
  · unfold StoreHits at hb
    rw [State.spadByte_spadSet, State.spadByte_spadSet, if_neg (by omega), if_neg (by omega)]
  · rw [State.spadGet_spadSet, State.spadGet_spadSet]
    rcases (hw b).mp hb with h | h
    · rw [if_pos (spadKey_inj.mpr h)]; split <;> rfl
    · rw [if_pos (spadKey_inj.mpr h)]
  · have h1 := hk a ((hw a).mpr (.inl rfl))
    have h2 := hk (a + 4) ((hw _).mpr (.inr rfl))
    exact ⟨(tabGet_tabSet_ne _ _ h2).trans (tabGet_tabSet_ne s.spad _ h1), (tabGet_tabSet_ne _ _ h2).trans (tabGet_tabSet_ne s.spadP _ h1)⟩

/-- A store of aligned bytes. -/
theorem State.spadPut_spadWrite {core a n v : Nat} {q : Bool} (s : State) (hn : AccSize n) (ha : a % n = 0) :
    s.SpadPut (s.spadWrite core a n v q) core a n v q := by
  rcases hn with h | h | h | h
  · exact s.spadWrite_small (.inl h) ha
  · exact s.spadWrite_small (.inr (.inl h)) ha
  · exact s.spadWrite_small (.inr (.inr h)) ha
  · subst h; exact s.spadWrite_wide ha

/-! ## One store's lanes (R110, R357) -/

section
variable (core n : Nat) (a v : Nat → Nat) (q : Nat → Bool)

/-- The stores of some lanes, in order. -/
def State.spadLanes (s : State) (ls : List Nat) : State := ls.foldl (fun s l => s.spadWrite core (a l) n (v l) (q l)) s

/-- A store to the scratchpad changes nothing else. -/
theorem State.spadOnly_spadLanes (ls : List Nat) (s : State) : s.SpadOnly (s.spadLanes core n a v q ls) :=
  foldl_keeps (fun t : State => s.SpadOnly t) _ (fun t l h => h.trans (t.spadOnly_spadWrite core (a l) n (v l) (q l))) ls s rfl

variable {core n a v q} (hn : AccSize n)
include hn

/-- A byte that no lane reaches stays. -/
theorem State.spadLanes_byte_else (ls : List Nat) (ha : ∀ l ∈ ls, a l % n = 0) {b : Nat} (hb : ∀ l ∈ ls, ¬ StoreHits (a l) n b) (s : State) :
    (s.spadLanes core n a v q ls).spadByte core b = s.spadByte core b := by
  induction ls generalizing s with
  | nil => rfl
  | cons l ls ih =>
    obtain ⟨hal, ha⟩ := List.forall_mem_cons.mp ha
    obtain ⟨hbl, hb⟩ := List.forall_mem_cons.mp hb
    exact (ih ha hb _).trans ((s.spadPut_spadWrite hn hal).byte_else b hbl)

/-- A byte holds what the last lane that reaches it writes. -/
theorem State.spadLanes_byte_last (ls : List Nat) (hs : ls.Pairwise (· < ·)) (ha : ∀ l ∈ ls, a l % n = 0) {l b : Nat} (hl : l ∈ ls)
    (hb : StoreHits (a l) n b) (hlast : ∀ m, m ∈ ls → l < m → ¬ StoreHits (a m) n b) (s : State) :
    (s.spadLanes core n a v q ls).spadByte core b = byteAt (v l) (b - a l) := by
  induction ls generalizing s with
  | nil => cases hl
  | cons k ls ih =>
    obtain ⟨hak, ha'⟩ := List.forall_mem_cons.mp ha
    obtain ⟨hk, hs'⟩ := List.pairwise_cons.mp hs
    rcases List.mem_cons.mp hl with rfl | hl
    · exact (State.spadLanes_byte_else hn ls ha' (fun m hm => hlast m (List.mem_cons_of_mem _ hm) (hk m hm)) _).trans
        ((s.spadPut_spadWrite hn hak).byte_hit b hb)
    · exact ih hs' ha' hl (fun m hm => hlast m (List.mem_cons_of_mem _ hm)) _

/-- Words that no lane touches stay. -/
theorem State.spadLanes_word_else (ls : List Nat) (ha : ∀ l ∈ ls, a l % n = 0) {key : Nat}
    (hk : ∀ l b, l ∈ ls → StoreTouches (a l) n b → key ≠ spadKey core b) (s : State) :
    tabGet (s.spadLanes core n a v q ls).spad key = tabGet s.spad key ∧ tabGet (s.spadLanes core n a v q ls).spadP key = tabGet s.spadP key := by
  induction ls generalizing s with
  | nil => exact ⟨rfl, rfl⟩
  | cons l ls ih =>
    obtain ⟨hal, ha⟩ := List.forall_mem_cons.mp ha
    obtain ⟨h1, h2⟩ := ih ha (fun m b hm => hk m b (List.mem_cons_of_mem _ hm)) (s.spadWrite core (a l) n (v l) (q l))
    obtain ⟨h3, h4⟩ := (s.spadPut_spadWrite hn hal (q := q l) (v := v l) (core := core)).word_else key fun b => hk l b List.mem_cons_self
    exact ⟨h1.trans h3, h2.trans h4⟩

/-- A word that some lane touches and no poisoned one is not poisoned. -/
theorem State.spadLanes_clean (ls : List Nat) (ha : ∀ l ∈ ls, a l % n = 0) {b : Nat} (hq : ∀ l ∈ ls, StoreTouches (a l) n b → q l = false) (s : State)
    (ht : (∃ l, l ∈ ls ∧ StoreTouches (a l) n b) ∨ (s.spadGet core b).2 = false) : ((s.spadLanes core n a v q ls).spadGet core b).2 = false := by
  induction ls generalizing s with
  | nil =>
    rcases ht with ⟨l, hl, -⟩ | h
    · cases hl
    · exact h
  | cons l ls ih =>
    obtain ⟨hal, ha⟩ := List.forall_mem_cons.mp ha
    obtain ⟨hql, hq⟩ := List.forall_mem_cons.mp hq
    have hp := s.spadPut_spadWrite hn hal (q := q l) (v := v l) (core := core)
    refine ih ha hq _ ?_
    by_cases hl : StoreTouches (a l) n b
    · exact .inr ((hp.pois_touch b hl).trans (hql hl))
    · rcases ht with ⟨k, hk, hkt⟩ | h
      · rcases List.mem_cons.mp hk with rfl | hk
        · exact absurd hkt hl
        · exact .inl ⟨k, hk, hkt⟩
      · refine .inr (((hp.word_else (spadKey core b) fun b' hb' e => hl ?_).2).trans h)
        unfold StoreTouches at hb' ⊢
        rw [spadKey_inj.mp e]; exact hb'

end

/-- Marking words as poisoned. -/
theorem tabGet_foldl_mark (core key : Nat) (is : List Nat) (t : Tab Bool) :
    tabGet (is.foldl (fun t i => tabSet t (spadKey core i) true) t) key = true ↔ (∃ i ∈ is, key = spadKey core i) ∨ tabGet t key = true := by
  induction is generalizing t with
  | nil => simp
  | cons i is ih =>
    rw [List.foldl_cons, ih, tabGet_tabSet, List.exists_mem_cons_iff]
    by_cases hi : key = spadKey core i
    · simp [hi]
    · simp [hi]

/-- The words that an aligned store touches are those that it marks. -/
theorem touches_iff_word {a n b : Nat} (hn : AccSize n) (ha : a % n = 0) : StoreTouches a n b ↔ ∃ i, i < (n + 3) / 4 ∧ b / 4 = (a + 4 * i) / 4 := by
  unfold StoreTouches
  rcases hn with rfl | rfl | rfl | rfl
  · exact ⟨fun h => ⟨0, by omega⟩, fun ⟨i, h⟩ => by omega⟩
  · exact ⟨fun h => ⟨0, by omega⟩, fun ⟨i, h⟩ => by omega⟩
  · exact ⟨fun h => ⟨0, by omega⟩, fun ⟨i, h⟩ => by omega⟩
  · exact ⟨fun h => ⟨b / 4 - a / 4, by omega⟩, fun ⟨i, h⟩ => by omega⟩

/-- The stores of a word's lanes to the scratchpad of a core, as a whole. -/
structure State.SpadStored (s t : State) (core n : Nat) (a v : Nat → Nat) (q : Nat → Bool) (ls : List Nat) : Prop where
  only : s.SpadOnly t
  byte_last : ∀ l b, l ∈ ls → StoreHits (a l) n b → (∀ m, m ∈ ls → l < m → ¬ StoreHits (a m) n b) → t.spadByte core b = byteAt (v l) (b - a l)
  byte_else : ∀ b, (∀ l, l ∈ ls → ¬ StoreHits (a l) n b) → t.spadByte core b = s.spadByte core b
  pois : ∀ l b, l ∈ ls → StoreTouches (a l) n b → ((t.spadGet core b).2 = true ↔ ∃ m, m ∈ ls ∧ StoreTouches (a m) n b ∧ q m = true)
  word_else : ∀ key, (∀ l b, l ∈ ls → StoreTouches (a l) n b → key ≠ spadKey core b) →
    tabGet t.spad key = tabGet s.spad key ∧ tabGet t.spadP key = tabGet s.spadP key

/-- One store of aligned lanes, in ascending order. -/
theorem State.spadStored_spadWrites (s : State) {core base n : Nat} {f : Nat → LaneAcc} (hn : AccSize n) (ls : List Nat) (hs : ls.Pairwise (· < ·))
    (hf : ∀ l, (f l).size = n) (ha : ∀ l ∈ ls, (base + (f l).addr.toNat) % n = 0) :
    s.SpadStored (s.spadWrites core base (ls.map f)) core n (fun l => base + (f l).addr.toNat) (fun l => (f l).data.toNat) (fun l => (f l).pois) ls := by
  have e : (ls.map f).foldl (fun (s : State) a => s.spadWrite core (base + a.addr.toNat) a.size a.data.toNat a.pois) s =
      s.spadLanes core n (fun l => base + (f l).addr.toNat) (fun l => (f l).data.toNat) (fun l => (f l).pois) ls := by
    rw [List.foldl_map]; simp only [hf]; rfl
  have hmark : ∀ key, tabGet (s.spadWrites core base (ls.map f)).spadP key = true ↔
      (∃ l b, l ∈ ls ∧ StoreTouches (base + (f l).addr.toNat) n b ∧ (f l).pois = true ∧ key = spadKey core b)
      ∨ tabGet (s.spadLanes core n (fun l => base + (f l).addr.toNat) (fun l => (f l).data.toNat) (fun l => (f l).pois) ls).spadP key = true := by
    intro key
    unfold State.spadWrites; dsimp only
    rw [e, tabGet_foldl_mark]
    refine or_congr_left ?_
    simp only [List.mem_flatMap, List.mem_map]
    constructor
    · rintro ⟨i, ⟨-, ⟨l, hl, rfl⟩, hi⟩, hk⟩
      by_cases hp : (f l).pois = true
      · rw [if_pos hp, hf, List.mem_map] at hi
        obtain ⟨j, hj, rfl⟩ := hi
        exact ⟨l, _, hl, (touches_iff_word hn (ha l hl)).mpr ⟨j, List.mem_range.mp hj, rfl⟩, hp, hk⟩
      · rw [if_neg hp] at hi; cases hi
    · rintro ⟨l, b, hl, ht, hp, hk⟩
      obtain ⟨j, hj, hb⟩ := (touches_iff_word hn (ha l hl)).mp ht
      refine ⟨base + (f l).addr.toNat + 4 * j, ⟨f l, ⟨l, hl, rfl⟩, ?_⟩, hk.trans (spadKey_inj.mpr hb)⟩
      rw [if_pos hp, hf, List.mem_map]
      exact ⟨j, List.mem_range.mpr hj, rfl⟩
  have hspad : (s.spadWrites core base (ls.map f)).spad =
      (s.spadLanes core n (fun l => base + (f l).addr.toNat) (fun l => (f l).data.toNat) (fun l => (f l).pois) ls).spad := by
    unfold State.spadWrites; dsimp only; rw [e]
  have hbyte : ∀ b, (s.spadWrites core base (ls.map f)).spadByte core b =
      (s.spadLanes core n (fun l => base + (f l).addr.toNat) (fun l => (f l).data.toNat) (fun l => (f l).pois) ls).spadByte core b := fun b => by
    unfold State.spadByte State.spadGet; rw [hspad]
  refine ⟨?_, fun l b hl hb hlast => ?_, fun b hb => ?_, fun l b hl ht => ?_, fun key hk => ?_⟩
  · refine (State.spadOnly_spadLanes core n (fun l => base + (f l).addr.toNat) (fun l => (f l).data.toNat) (fun l => (f l).pois) ls s).trans ?_
    unfold State.spadWrites; dsimp only; rw [e]; rfl
  · exact (hbyte b).trans (State.spadLanes_byte_last hn ls hs ha hl hb hlast s)
  · exact (hbyte b).trans (State.spadLanes_byte_else hn ls ha hb s)
  · refine (hmark _).trans ⟨?_, fun ⟨m, hm, hmt, hp⟩ => .inl ⟨m, b, hm, hmt, hp, rfl⟩⟩
    rintro (⟨m, b', hm, ht', hq, hb'⟩ | h)
    · refine ⟨m, hm, ?_, hq⟩
      unfold StoreTouches at ht' ⊢
      rw [spadKey_inj.mp hb']; exact ht'
    · by_contra hne
      have hq : ∀ m ∈ ls, StoreTouches (base + (f m).addr.toNat) n b → (f m).pois = false := fun m hm hmt =>
        Bool.eq_false_iff.mpr fun hp => hne ⟨m, hm, hmt, hp⟩
      exact Bool.noConfusion ((State.spadLanes_clean (v := fun l => (f l).data.toNat) hn ls ha hq s (.inl ⟨l, hl, ht⟩)).symm.trans h)
  · obtain ⟨h1, h2⟩ := State.spadLanes_word_else (v := fun l => (f l).data.toNat) (q := fun l => (f l).pois) hn ls ha hk s
    refine ⟨(congrArg (tabGet · key) hspad).trans h1, Bool.eq_iff_iff.mpr ?_⟩
    rw [hmark, h2, or_iff_right]
    rintro ⟨l, b, hl, ht, -, hb⟩
    exact hk l b hl ht hb

/-! ## The bytes that a load reads (R352, R357) -/

theorem byteAt_div (v k j : Nat) : byteAt (v / 2 ^ (8 * k)) j = byteAt v (k + j) := by
  refine Nat.eq_of_testBit_eq fun i => ?_
  rw [testBit_byteAt, testBit_byteAt, Nat.testBit_div_two_pow]
  congr 2; ring

theorem byteAt_pair (lo : Word) (hi j : Nat) : byteAt (lo.toNat + 2 ^ 32 * hi) j = if j < 4 then byteAt lo.toNat j else byteAt hi (j - 4) := by
  refine Nat.eq_of_testBit_eq fun i => ?_
  rw [apply_ite (fun x => Nat.testBit x i)]
  simp only [testBit_byteAt]
  by_cases hb : i < 8
  · rw [Nat.add_comm lo.toNat, Nat.testBit_two_pow_mul_add _ lo.isLt]
    by_cases hj : j < 4
    · rw [if_pos hj, if_pos (by omega)]
    · rw [if_neg hj, if_neg (by omega)]; congr 2; omega
  · simp [hb]

/-- The bytes of a number make up the number. -/
theorem natOf_byteAt (n v : Nat) : natOf ((List.range n).map fun j => BitVec.ofNat 8 (byteAt v j)) = v % 2 ^ (8 * n) := by
  induction n generalizing v with
  | zero => simp [natOf, Nat.mod_one]
  | succ n ih =>
    have hs : ∀ j, byteAt v (j + 1) = byteAt (v / 2 ^ (8 * 1)) j := fun j => by rw [byteAt_div, Nat.add_comm]
    rw [List.range_succ_eq_map, List.map_cons, List.map_map]
    simp only [Function.comp_def, Nat.succ_eq_add_one, hs]
    rw [natOf, ih, show 8 * (n + 1) = 8 * 1 + 8 * n by ring, pow_add, Nat.mod_mul]
    simp [byteAt]

/-- An aligned read of the scratchpad: its bytes, and the poison of the words that hold them. -/
theorem State.spadRead_aligned (s : State) {core a n : Nat} (hn : AccSize n) (ha : a % n = 0) : s.spadRead core a n =
    (natOf ((List.range n).map fun j => BitVec.ofNat 8 (s.spadByte core (a + j))),
      (s.spadGet core a).2 || (decide (n = 8) && (s.spadGet core (a + 4)).2)) := by
  let hi : Word × Bool := if n = 8 then s.spadGet core (a + 4) else (0, false)
  have hbyte : ∀ j, j < n → s.spadByte core (a + j) = byteAt (((s.spadGet core a).1.toNat + 2 ^ 32 * hi.1.toNat) / 2 ^ (8 * (a % 4))) j := fun j hj => by
    rw [byteAt_div, byteAt_pair, State.spadByte_eq]
    unfold State.spadGet
    by_cases hlo : a % 4 + j < 4
    · rw [if_pos hlo, spadKey_inj.mpr (show (a + j) / 4 = a / 4 by omega)]; congr 1; omega
    · have h8 : n = 8 := by rcases hn with rfl | rfl | rfl | rfl <;> omega
      subst h8
      rw [if_neg hlo, spadKey_inj.mpr (show (a + j) / 4 = (a + 4) / 4 by omega)]
      show _ = byteAt (tabGet s.spad (spadKey core (a + 4))).toNat _
      congr 1; omega
  refine Prod.ext ?_ ?_
  · show (((s.spadGet core a).1.toNat + 2 ^ 32 * hi.1.toNat) / 2 ^ (8 * (a % 4)) % 2 ^ (8 * n)) = _
    rw [← natOf_byteAt, List.map_congr_left fun j hj => by rw [← hbyte j (List.mem_range.mp hj)]]
  · unfold State.spadRead; dsimp only
    by_cases h8 : n = 8 <;> simp [h8]

/-! ## Lanes of a mask -/

theorem getLsbD_laneBit {l k : Nat} (hk : k < 32) : (laneBit l).getLsbD k = decide (l = k) := by
  unfold laneBit; rw [BitVec.getLsbD_ofNat, Nat.testBit_two_pow]; simp [hk]

/-- A mask made of lanes holds them. -/
theorem getLsbD_maskOf (ls : List Nat) {k : Nat} (hk : k < 32) : (maskOf ls).getLsbD k = true ↔ k ∈ ls := by
  have h : ∀ m : Mask, (ls.foldl (fun m l => m ||| laneBit l) m).getLsbD k = true ↔ m.getLsbD k = true ∨ k ∈ ls := by
    induction ls with
    | nil => simp
    | cons l ls ih =>
      intro m
      rw [List.foldl_cons, ih, BitVec.getLsbD_or, getLsbD_laneBit hk, Bool.or_eq_true, decide_eq_true_eq, List.mem_cons, or_assoc, eq_comm (a := l)]
  rw [maskOf, h]; simp

theorem getLsbD_maskWhere (f : Nat → Bool) {k : Nat} (hk : k < 32) : (maskWhere f).getLsbD k = true ↔ f k = true := by
  unfold maskWhere; rw [getLsbD_maskOf _ hk, List.mem_filter, mem_lanes32]; exact and_iff_right hk

/-- Where no enabled lane meets a condition, each fails it. -/
theorem Ctx.bad_eq_zero {x : Ctx} {p : Nat → Bool} (h : x.bad p = 0) {l : Nat} (hl : l ∈ lanesOf x.en) : p l = false := by
  obtain ⟨h32, hon⟩ := mem_lanesOf.mp hl
  by_contra hp
  have hb : (x.bad p).getLsbD l = true := by
    refine (getLsbD_maskWhere _ h32).mpr ?_
    rw [Bool.not_eq_false] at hp
    show (x.en.getLsbD l && p l) = true
    rw [hon, hp]; rfl
  rw [h] at hb; simp at hb

/-- The lanes that compute are enabled lanes, in ascending order. -/
theorem Ctx.lanesFor_enabled {x : Ctx} {d : Opnd} {l : Nat} (hl : l ∈ x.lanesFor d) : l ∈ lanesOf x.en := by
  unfold Ctx.lanesFor at hl
  split at hl
  · split at hl
    · cases hl
    · next he =>
      rw [List.mem_singleton.mp hl]
      have hne : lanesOf x.en ≠ [] := fun h => he (lanesOf_eq_nil.mp h)
      unfold lowLane
      cases hx : lanesOf x.en with
      | nil => exact absurd hx hne
      | cons a t => exact List.mem_cons_self
  · exact hl

theorem pairwise_lanesOf (m : Mask) : (lanesOf m).Pairwise (· < ·) := List.Pairwise.filter _ (by decide)

theorem Ctx.pairwise_lanesFor (x : Ctx) (d : Opnd) : (x.lanesFor d).Pairwise (· < ·) := by
  unfold Ctx.lanesFor
  split
  · split
    · exact List.Pairwise.nil
    · exact List.pairwise_singleton _ _
  · exact pairwise_lanesOf _

/-! ## Checks that a scratchpad word has passed (R164, R165, R352) -/

/-- A word that checks 6 to 8 let pass has the fields that its instruction accepts. -/
theorem Ctx.check6_of_clear {x : Ctx} {f : Fmt} {pts : List Pt} (h : x.early f pts = none) : check6 x.h x.w f = none := by
  unfold Ctx.early at h
  cases hc : check6 x.h x.w f with
  | none => rfl
  | some p => rw [hc] at h; cases h

/-- A vector or uniform register that a field accepts; a pair begins at an even register (R153). -/
theorem checkOpnd_fVS {h : KHdr} {wide : Bool} {o : Opnd} (hc : checkOpnd h (fVS.w wide) o = none) :
    (∃ m, o = .v m ∧ (wide = true → m.toNat % 2 = 0)) ∨ ∃ m, o = .s m := by
  unfold checkOpnd at hc
  rw [if_neg (by simp [fVS, Fld.w])] at hc
  cases o with
  | v m =>
    refine .inl ⟨m, rfl, fun hw => ?_⟩
    subst hw
    by_contra hodd
    have h1 : m.toNat % 2 = 1 := by omega
    simp only [opndKind] at hc
    split at hc
    · cases hc
    · split at hc
      · cases hc
      · simp [fVS, Fld.w, numOf, h1] at hc
  | s m => exact .inr ⟨m, rfl⟩
  | _ => simp [opndKind, fVS, Fld.w] at hc

/-- The destination of a memory word that checks 6 to 8 let pass. -/
theorem fmtMem_dest {h : KHdr} {w : Full} {ords : List Nat} (hc : check6 h w (fmtMem ords h w) = none) :
    (∃ m, w.d = .v m ∧ (memSize w = 8 → m.toNat % 2 = 0)) ∨ ∃ m, w.d = .s m := by
  have hd : checkOpnd h (fVS.w (isWide w.ty)) w.d = none := by
    unfold check6 at hc
    cases hd : checkOpnd h (fmtMem ords h w).d w.d with
    | none => exact hd
    | some p => rw [hd] at hc; cases hc
  refine (checkOpnd_fVS hd).imp_left fun ⟨m, hm, hw⟩ => ⟨m, hm, fun h8 => hw ?_⟩
  unfold memSize tySize at h8
  split at h8
  · cases h8
  · split at h8
    · cases h8
    · split at h8
      · assumption
      · split at h8 <;> cases h8

/-- A slice and the window begin at a multiple of 8 bytes (R165). -/
theorem State.region_aligned (s : State) (col : Nat) (win : Bool) : (s.region col win).1 % 8 = 0 := by
  unfold State.region; dsimp only
  cases win
  · have h : ∀ k, winBytes k % 8 = 0 ∧ sliceBytes k % 8 = 0 := fun k => by
      unfold sliceBytes winBytes; split <;> decide
    obtain ⟨h1, h2⟩ := h (tabGet s.cores (coreOf col)).win
    simp only [Bool.false_eq_true, if_false]
    rw [Nat.add_mod, Nat.mul_mod, h1, h2, Nat.mul_zero]
  · rfl

/-- The accesses of a scratchpad word that its checks let pass are aligned. -/
theorem Ctx.checkSpad_aligned {x : Ctx} {win : Bool} (h : x.checkSpad win = none) {l : Nat} (hl : l ∈ lanesOf x.en) :
    ((x.s.region x.col win).1 + (x.addr l).toNat) % memSize x.w = 0 := by
  have hal : (x.addr l).toNat % memSize x.w = 0 := by
    unfold Ctx.checkSpad Ctx.checkAlign at h
    dsimp only at h
    split at h
    · cases h
    · split at h
      · cases h
      · next hn =>
        split at hn
        · cases hn
        · next hz => simpa using Ctx.bad_eq_zero (not_not.mp hz) hl
  have hr := x.s.region_aligned x.col win
  rcases accSize_memSize x.w with hn | hn | hn | hn <;> rw [hn] at hal ⊢ <;> omega

/-! ## Loads (R140, R353, R357) -/

theorem wrOne_ne_nil {d : Opnd} (hd : (∃ m, d = .v m) ∨ ∃ m, d = .s m) (wide sgn : Bool) (l v : Nat) (q : Bool) : wrOne d wide sgn l v q ≠ [] := by
  rcases hd with ⟨m, rfl⟩ | ⟨m, rfl⟩
  · cases wide <;> exact List.cons_ne_nil _ _
  · exact List.cons_ne_nil _ _

/-- A computation without flags raises none. -/
theorem Ctx.map_flags_zero (x : Ctx) (d : Opnd) (wide sgn : Bool) (f : Nat → Nat × Bool × FpFlags) (hf : ∀ l, (f l).2.2 = 0) :
    (x.map d wide sgn f).2 = 0 := by
  rw [Ctx.map_flags]
  exact foldl_keeps (fun m : FpFlags => m = 0) _ (fun m l h => by rw [h, hf]; rfl) _ _ rfl

/-- Where a lane is enabled and the destination takes a result, something is written. -/
theorem Ctx.map_ne_nil {x : Ctx} {d : Opnd} (hd : (∃ m, d = .v m) ∨ ∃ m, d = .s m) (hen : x.en ≠ 0) (wide sgn : Bool)
    (f : Nat → Nat × Bool × FpFlags) : (x.map d wide sgn f).1 ≠ [] := by
  rw [Ctx.map_writes]
  have hne : x.lanesFor d ≠ [] := by
    unfold Ctx.lanesFor; rw [if_neg hen]; split
    · exact List.cons_ne_nil _ _
    · exact fun h => hen (lanesOf_eq_nil.mp h)
  cases hl : x.lanesFor d with
  | nil => exact absurd hl hne
  | cons l ls =>
    rw [List.flatMap_cons]
    exact fun h => wrOne_ne_nil hd _ _ _ _ _ (List.append_eq_nil_iff.mp h).1

/-- A word's own write list, where it is not empty, is an outstanding result. -/
theorem Ctx.var_eq {x : Ctx} {r : List RWrite × FpFlags} (h : r.1 ≠ []) :
    x.var r = .go (x.s.setCol x.col (x.c.addResult x.k r.1 r.2 .none (regsOf r.1))) none false := by
  unfold Ctx.var Ctx.varOf; rw [if_neg fun e => h e.1]

/-- What a scratchpad load puts into a lane. -/
def Ctx.spadValue (x : Ctx) (win : Bool) (l : Nat) : Nat × Bool × FpFlags :=
  let a := (x.s.region x.col win).1 + (x.addr l).toNat
  (extLoad x.w.ty (memSize x.w) (natOf ((List.range (memSize x.w)).map fun j => BitVec.ofNat 8 (x.s.spadByte (coreOf x.col) (a + j)))),
    (x.s.spadGet (coreOf x.col) a).2 || (decide (memSize x.w = 8) && (x.s.spadGet (coreOf x.col) (a + 4)).2), 0)

/-- A load that its checks let pass is a variable-latency word with the values of the scratchpad. -/
theorem Ctx.spadLoad_eq {x : Ctx} {win : Bool} (hen : x.en ≠ 0) (hok : x.checkSpad win = none)
    (hd : (∃ m, x.w.d = .v m ∧ (memSize x.w = 8 → m.toNat % 2 = 0)) ∨ ∃ m, x.w.d = .s m) :
    x.spadLoad win = x.var (x.map x.w.d (decide (memSize x.w = 8)) (x.w.ty == .i32) (x.spadValue win)) := by
  rw [Ctx.var_eq (Ctx.map_ne_nil (hd.imp_left fun ⟨m, h, _⟩ => ⟨m, h⟩) hen _ _ _), Ctx.map_flags_zero x _ _ _ _ fun _ => rfl]
  unfold Ctx.spadLoad
  rw [if_neg hen, hok]; dsimp only
  rw [Ctx.fill_slots (fun _ => ⟨rfl, rfl⟩) hd (x.spadValue win)]
  intro l hl
  have hn := accSize_memSize x.w
  have hr := x.s.spadRead_aligned (core := coreOf x.col) hn (Ctx.checkSpad_aligned hok (Ctx.lanesFor_enabled hl))
  have hlt : (x.s.spadRead (coreOf x.col) ((x.s.region x.col win).1 + (x.addr l).toNat) (memSize x.w)).1 < 2 ^ (8 * memSize x.w) :=
    Nat.mod_lt _ (by positivity)
  have h64 : 2 ^ (8 * memSize x.w) ≤ 2 ^ 64 := Nat.pow_le_pow_right (by decide) (by have := hn.le; omega)
  rw [BitVec.toNat_ofNat, Nat.mod_eq_of_lt (hlt.trans_le h64), Nat.mod_eq_of_lt hlt, hr]
  rfl

/-- A scratchpad load is a variable-latency word (R137, R140, R357). -/
theorem State.yieldsLater_spadLoad {s : State} {i : Instr} {w : Full} {col k : Nat} {win : Bool} (hi : s.Issues col k)
    (hc : s.Clears col k w (fmtMem []) fun x => [x.ptAddr x.w.a true x.addr]) (hen : (s.ctxFor col k w).en ≠ 0)
    (hok : (s.ctxFor col k w).checkSpad win = none)
    (he : exec i s = .next (s.perform col k w.marker ((s.ctxFor col k w).spadLoad win))) :
    s.YieldsLater i col k w (decide (memSize w = 8)) (w.ty == .i32) (fun l => ((s.ctxFor col k w).spadValue win l).1)
      (fun l => ((s.ctxFor col k w).spadValue win l).2.1) 0 := by
  have hd := fmtMem_dest (Ctx.check6_of_clear hc)
  rw [Ctx.spadLoad_eq hen hok hd] at he
  have hy := State.yieldsLater_var hi w (decide (memSize w = 8)) (w.ty == .i32) ((s.ctxFor col k w).spadValue win)
    (fun l => wrOne_ne_nil (hd.imp_left fun ⟨m, h, _⟩ => ⟨m, h⟩) _ _ _ _ _) he
  rwa [Ctx.map_flags_zero _ _ _ _ _ fun _ => rfl] at hy

/-! ## Stores (R110, R357) -/

/-- A word whose own effect is on the scratchpad alone is performed as one without effect is. -/
theorem State.performed_spad {s u : State} {col k : Nat} (hi : s.Issues col k) (marker : Bool) (hu : s.SpadOnly u) :
    u.Performed (s.perform col k marker (.go u none false)) col k marker
      ∧ (s.col col).KeepsAll ((s.perform col k marker (.go u none false)).col col) := by
  obtain ⟨hrun, hres, hstep⟩ := hi
  have hcols : u.cols = s.cols := (congrArg State.cols hu).trans rfl
  have hcol : u.col col = s.col col := by unfold State.col; rw [hcols]
  have hiu : u.Issues col k := ⟨((congrArg State.run hu).trans rfl).trans hrun, hcols ▸ hres, hcol ▸ hstep⟩
  have h := State.performed_same hiu marker
  rw [State.perform_go hiu.2.2, ← State.perform_go hstep, hcol] at h
  exact h

/-- The accesses of a store in its lanes. -/
def Ctx.storeAt (x : Ctx) (l : Nat) : LaneAcc :=
  ⟨l, x.addr l, memSize x.w, BitVec.ofNat 64 (x.rdd (decide (memSize x.w = 8)) l), 0, x.qd (decide (memSize x.w = 8)) l⟩

/-- The low eight bytes of a number are kept in 64 bits. -/
theorem byteAt_word64 (v : Nat) {j : Nat} (hj : j < 8) : byteAt (BitVec.ofNat 64 v).toNat j = byteAt v j := by
  refine Nat.eq_of_testBit_eq fun i => ?_
  rw [testBit_byteAt, testBit_byteAt, BitVec.toNat_ofNat, Nat.testBit_mod_two_pow]
  by_cases hi : i < 8
  · simp [hi, show 8 * j + i < 64 by omega]
  · simp [hi]

/-- The scratchpad after a store that its checks let pass. -/
theorem Ctx.spadStore_eq {x : Ctx} {win : Bool} (hen : x.en ≠ 0) (hok : x.checkSpad win = none) : ∃ u, x.spadStore win = .go u none false
    ∧ x.s.SpadStored u (coreOf x.col) (memSize x.w) (fun l => (x.s.region x.col win).1 + (x.addr l).toNat)
        (fun l => (BitVec.ofNat 64 (x.rdd (decide (memSize x.w = 8)) l)).toNat) (x.qd (decide (memSize x.w = 8))) (x.lanesFor x.w.d) := by
  refine ⟨_, ?_, x.s.spadStored_spadWrites (f := x.storeAt) (accSize_memSize x.w) _ (x.pairwise_lanesFor _) (fun _ => rfl)
    fun _ hl => Ctx.checkSpad_aligned hok (Ctx.lanesFor_enabled hl)⟩
  unfold Ctx.spadStore
  rw [if_neg hen, hok]; rfl

/-- A scratchpad store is performed, and its lanes' bytes and poison are stored (R110, R357). -/
theorem State.stores_spadStore {s : State} {i : Instr} {w : Full} {col k : Nat} {win : Bool} (hi : s.Issues col k)
    (hen : (s.ctxFor col k w).en ≠ 0) (hok : (s.ctxFor col k w).checkSpad win = none)
    (he : exec i s = .next (s.perform col k w.marker ((s.ctxFor col k w).spadStore win))) :
    ∃ t, exec i s = .next t ∧ (s.col col).KeepsAll (t.col col) ∧ (t.col col).retired = ((s.col col).retired + 1) % 2 ^ 48
      ∧ (∀ d, d ≠ col → tabGet t.cols d = tabGet s.cols d)
      ∧ t = { s with spad := t.spad, spadP := t.spadP, faults := t.faults, cols := t.cols, cores := t.cores, run := t.run }
      ∧ ∃ u, t.spad = u.spad ∧ t.spadP = u.spadP ∧ s.SpadStored u (coreOf col) (memSize w)
          (fun l => (s.region col win).1 + ((s.ctxFor col k w).addr l).toNat)
          (fun l => (BitVec.ofNat 64 ((s.ctxFor col k w).rdd (decide (memSize w = 8)) l)).toNat)
          ((s.ctxFor col k w).qd (decide (memSize w = 8))) ((s.ctxFor col k w).lanesFor w.d) := by
  obtain ⟨u, heq, hs⟩ := Ctx.spadStore_eq hen hok
  replace hs : s.SpadStored u (coreOf col) (memSize w) _ _ _ _ := hs
  rw [heq] at he
  obtain ⟨⟨⟨hframe, -, hoth⟩, hret, -⟩, hkeep⟩ := State.performed_spad hi w.marker hs.only
  generalize s.perform col k w.marker (.go u none false) = t at he hframe hoth hret hkeep
  have hu := hs.only
  have hcols : u.cols = s.cols := (congrArg State.cols hu).trans rfl
  have hcol : u.col col = s.col col := by unfold State.col; rw [hcols]
  refine ⟨t, he, hkeep, hcol ▸ hret, fun d hd => hcols ▸ hoth d hd, ?_, u, (congrArg State.spad hframe).trans rfl,
    (congrArg State.spadP hframe).trans rfl, hs⟩
  unfold State.SpadOnly at hu
  rw [hframe]; rw [hu]

/-- A scratchpad word without an enabled lane has no effect. -/
theorem State.passes_spad {s : State} {i : Instr} {w : Full} {col k : Nat} {e : Eff} (hi : s.Issues col k)
    (he : exec i s = .next (s.perform col k w.marker e)) (hgo : e = .go s none false) : s.Passes i col k w.marker := by
  subst hgo
  obtain ⟨hp, hk⟩ := State.performed_same hi w.marker
  exact ⟨_, he, hp, hk⟩

/-- Settles O38: loads by the bytes and poison that the scratchpad holds, stores by what their lanes leave in it. -/
theorem scratchpadWords : Obligations.ScratchpadWords := by
  unfold Obligations.ScratchpadWords
  intro s w col k hi hc x c n ls core loads stores
  have hload : ∀ (i : Instr) (win : Bool), exec i s = .next (s.perform col k w.marker (x.spadLoad win)) → loads i win := fun i win he =>
    ⟨fun hen => State.passes_spad hi he (if_pos hen), fun hen hok => State.yieldsLater_spadLoad hi hc hen hok he⟩
  have hstore : ∀ (i : Instr) (win : Bool), exec i s = .next (s.perform col k w.marker (x.spadStore win)) → stores i win := fun i win he => by
    refine ⟨fun hen => State.passes_spad hi he (if_pos hen), fun hen hok => ?_⟩
    obtain ⟨t, het, hkeep, hret, hoth, hframe, u, hspad, hspadP, hu⟩ := State.stores_spadStore hi hen hok he
    have hbyte : ∀ b, t.spadByte core b = u.spadByte core b := fun b => by unfold State.spadByte State.spadGet; rw [hspad]
    refine ⟨t, het, hkeep, hret, hoth, hframe, fun l b hl hb hlast => ?_, fun b hb => (hbyte b).trans (hu.byte_else b hb), fun l b hl ht => ?_,
      fun key hk => ?_⟩
    · have hj : b - ((s.region col win).1 + (x.addr l).toNat) < 8 :=
        (Nat.sub_lt_left_of_lt_add hb.1 hb.2).trans_le (accSize_memSize w).le
      rw [hbyte, hu.byte_last l b hl hb hlast, byteAt_word64 _ hj]; rfl
    · rw [show (t.spadGet core b).2 = (u.spadGet core b).2 from congrArg (tabGet · _) hspadP]
      exact hu.pois l b hl ht
    · rw [hspad, hspadP]
      exact hu.word_else key hk
  exact ⟨hload _ false (State.word_clear hi.1 hc _), hload _ true (State.word_clear hi.1 hc _), hstore _ false (State.word_clear hi.1 hc _),
    hstore _ true (State.word_clear hi.1 hc _)⟩

end Sys2Proof.Machine

/-!
SUPPORT. The checks that stop a word before its effect (R111, R112, R140, R147, R187, R266, R268, R269, R275, R276); the obligation O31.
-/

namespace Sys2Proof.Machine

/-! ## A read does not depend on the faults that wait -/

/-- The same machine with other waiting faults. -/
def State.withFaults (s : State) (fs : List FaultEnt) : State := { s with faults := fs }

section
variable (s : State) (fs : List FaultEnt)

theorem State.check_withFaults (ctx col off size : Nat) (raw : Bool) (acc : Acc) :
    (s.withFaults fs).check ctx col off size raw acc = s.check ctx col off size raw acc := rfl

theorem State.postEvent_withFaults (k src d : Nat) : (s.withFaults fs).postEvent k src d = (s.postEvent k src d).withFaults fs := by
  unfold State.postEvent State.withFaults; dsimp only; split <;> rfl

theorem State.logLine_withFaults (p : Place) (owner kind sym : Nat) :
    (s.withFaults fs).logLine p owner kind sym = (s.logLine p owner kind sym).withFaults fs := by
  unfold State.logLine; dsimp only
  rw [show (s.withFaults fs).tabs = s.tabs from rfl, show (s.withFaults fs).nowUs = s.nowUs from rfl]
  generalize s.tabs.logError _ _ _ _ _ = x
  by_cases hk : kind = 2 ∨ kind = 4
  · rw [if_pos hk, if_pos hk, ← State.postEvent_withFaults]
    cases p.tier <;> rfl
  · rw [if_neg hk, if_neg hk]; rfl

theorem State.touchLine_withFaults (p : Place) (owner : Nat) : (s.withFaults fs).touchLine p owner = (s.touchLine p owner).withFaults fs := by
  unfold State.touchLine; dsimp only
  rw [show (s.withFaults fs).upsets = s.upsets from rfl, show (s.withFaults fs).dirty = s.dirty from rfl]
  cases tabGet s.upsets p.line with
  | none => rfl
  | some u =>
    dsimp only
    by_cases hd : (tabGet s.dirty p.line || u.wrong.isSome) = true
    · rw [if_pos hd, if_pos hd]
    · rw [if_neg hd, if_neg hd]
      by_cases hc : u.corr = true
      · rw [if_pos hc, if_pos hc]; exact State.logLine_withFaults { s with upsets := tabSet s.upsets p.line none } fs p owner 1 u.sym
      · rw [if_neg hc, if_neg hc]; exact State.logLine_withFaults { s with upsets := tabSet s.upsets p.line none, pois := tabSet s.pois p.line true } fs p owner 2 u.sym

theorem State.foldl_withFaults {β : Type} (f : State → β → State) (hf : ∀ (u : State) b, f (u.withFaults fs) b = (f u b).withFaults fs) (l : List β) :
    l.foldl f (s.withFaults fs) = (l.foldl f s).withFaults fs := by
  induction l generalizing s with
  | nil => rfl
  | cons b l ih => rw [List.foldl_cons, hf, ih, List.foldl_cons]

theorem State.touchTables_withFaults (col : Nat) (ls : List Nat) : (s.withFaults fs).touchTables col ls = (s.touchTables col ls).withFaults fs :=
  s.foldl_withFaults fs _ (fun u _ => u.touchLine_withFaults fs _ _) ls

theorem State.touchMode_withFaults (p : Place) (owner : Nat) : (s.withFaults fs).touchMode p owner = (s.touchMode p owner).withFaults fs := by
  unfold State.touchMode; dsimp only
  rw [show (s.withFaults fs).modes = s.modes from rfl, show (s.withFaults fs).vault = s.vault from rfl]
  by_cases h : 5 ≤ tabGet s.modes (p.addr / 256) ∧ tabGet s.vault (p.addr / 256) = none
  · rw [if_pos h, if_pos h]; exact State.logLine_withFaults { s with modes := _, pois := _ } fs _ _ _ _
  · rw [if_neg h, if_neg h]

theorem State.touchBlock_withFaults (p : Place) (owner : Nat) : (s.withFaults fs).touchBlock p owner = (s.touchBlock p owner).withFaults fs := by
  unfold State.touchBlock; dsimp only
  rw [show (s.withFaults fs).vault = s.vault from rfl, show (s.withFaults fs).modes = s.modes from rfl]
  cases tabGet s.vault (p.addr / 256) with
  | some _ => rfl
  | none => exact s.foldl_withFaults fs _ (fun u _ => u.touchLine_withFaults fs _ _) _

theorem State.pageRead_withFaults (col : Nat) (p : Page) (raw : Bool) (po size : Nat) : (s.withFaults fs).pageRead col p raw po size =
    ((s.pageRead col p raw po size).1.withFaults fs, (s.pageRead col p raw po size).2) := by
  unfold State.pageRead; dsimp only
  rw [show (s.withFaults fs).tableLines col p = s.tableLines col p from rfl, State.touchTables_withFaults, State.foldl_withFaults]
  · rfl
  · intro u i
    rw [show (u.withFaults fs).pagePlace col p raw (po + i) = u.pagePlace col p raw (po + i) from rfl]
    split
    · rw [State.touchMode_withFaults]
      split
      · exact State.touchLine_withFaults _ fs _ _
      · exact State.touchBlock_withFaults _ fs _ _
    · exact u.touchLine_withFaults fs _ _

/-- A trap's handler is found whatever faults wait. -/
theorem State.handlerAt_withFaults {col code : Nat} {h : DWord} (hh : s.HandlerAt col code h) : (s.withFaults fs).HandlerAt col code h := by
  obtain ⟨ht, hok, p, hp, hq, hv⟩ := hh
  refine ⟨ht, hok, p, hp, ?_, ?_⟩
  · rw [State.pageRead_withFaults]; exact hq
  · rw [State.pageRead_withFaults]; exact hv

end

/-! ## A word that traps (R147, R149, R274) -/

/-- Taking a trap is seen in the column and memory alone. -/
theorem State.TakesTrap.of_same {s s' t : State} {col k code : Nat} {m : Mask} {a : DWord} {info : Nat} {pc h : DWord}
    (ht : s'.TakesTrap t col k code m a info pc h) (hm : s'.mem = s.mem) (hc : s'.col col = s.col col) :
    s.TakesTrap t col k code m a info pc h := by
  unfold State.TakesTrap at *
  rw [← hm, ← hc]; exact ht

/-- The state in which the trap of a word is taken: a trap 0x08 at the column's own address has read the entries of its walk (R35). -/
def State.walked (s : State) (col code : Nat) (a : DWord) : State :=
  if code = 0x08 ∧ targetCol (some col) a.toNat = some col then s.touchWalk (s.ctxOf col) col (addrOff a.toNat) else s

theorem State.touchWalk_withIssue (s : State) (a : Tab (Option Column)) (b : Tab CoreSt) (r : Option (Nat × Nat)) (ctx col off : Nat) :
    (s.withIssue a b r).touchWalk ctx col off = (s.touchWalk ctx col off).withIssue a b r := by
  unfold State.touchWalk
  rw [State.walk_withIssue, show (s.withIssue a b r).upsets = s.upsets from rfl]
  split
  · rfl
  · exact State.touchTables_withIssue _ _ _ _ _ _

theorem State.accessed_walked (s : State) (col code : Nat) (a : DWord) : s.Accessed (s.walked col code a) := by
  unfold State.walked; split
  · exact s.accessed_touchWalk _ _ _
  · rfl

theorem State.mem_walked (s : State) (col code : Nat) (a : DWord) : (s.walked col code a).mem = s.mem := by
  unfold State.walked State.touchWalk; split
  · split
    · rfl
    · exact s.mem_touchTables _ _
  · rfl

/-- A column of the same group with other columns: the header and context of the group stay. -/
theorem State.ctxOf_withIssue {s : State} {a : Tab (Option Column)} (b : Tab CoreSt) (r : Option (Nat × Nat)) {col : Nat}
    (hg : ((s.withIssue a b r).col col).group = (s.col col).group) :
    (s.withIssue a b r).hdr col = s.hdr col ∧ (s.withIssue a b r).ctxOf col = s.ctxOf col := by
  unfold State.hdr State.ctxOf State.group; rw [hg]; exact ⟨rfl, rfl⟩

/-- The word that traps is counted before its walk is read: the order does not matter. -/
theorem State.walked_counted (s : State) (col k code : Nat) (a : DWord) : (s.modCol col fun c => c.countWord k).walked col code a =
    (s.walked col code a).withIssue (s.modCol col fun c => c.countWord k).cols s.cores s.run := by
  have hg : ((s.modCol col fun c => c.countWord k).col col).group = (s.col col).group := by rw [State.col_modCol_same]; rfl
  have hctx : (s.modCol col fun c => c.countWord k).ctxOf col = s.ctxOf col := (State.ctxOf_withIssue s.cores s.run hg).2
  unfold State.walked
  split
  · rw [hctx]; exact s.touchWalk_withIssue _ _ _ _ _ _
  · rfl

/-- What a word that traps leaves, in a column that is not stepping: it is counted, and the trap is taken with the faults on which it waited gone. -/
theorem State.perform_trap {s : State} {col k code : Nat} {m : Mask} {a : DWord} {info : Nat} {pc : DWord} (marker : Bool)
    (hstep : (s.col col).stepping = false) (h10 : code ≠ 0x10) : ∃ fs, s.perform col k marker (.trap code m a info pc) =
      (((s.walked col code a).withIssue (s.modCol col fun c => c.countWord k).cols s.cores s.run).withFaults fs).raiseTrap col k code m a info pc := by
  refine ⟨((s.modCol col fun c => c.countWord k).walked col code a).faults.filter fun e => !(e.waiter == .split col k), ?_⟩
  unfold State.perform; dsimp only
  rw [hstep, if_neg Bool.false_ne_true, if_neg h10, ← State.walked_counted]
  rfl

/-- A word that traps outside a handler, in a column that is not stepping, is counted, and its trap is taken. -/
theorem State.perform_trapped {s : State} {col k code : Nat} {m : Mask} {a : DWord} {info : Nat} {pc h : DWord} (marker : Bool)
    (hstep : (s.col col).stepping = false) (hn : ((s.col col).slot k).hnd = false) (hm : m ≠ 0) (hc : code < 256) (h10 : code ≠ 0x10)
    (hh : (s.walked col code a).HandlerAt col code h) :
    s.Trapped (s.perform col k marker (.trap code m a info pc)) col k code m a info pc h := by
  obtain ⟨fs, he⟩ := State.perform_trap (k := k) (m := m) (a := a) (info := info) (pc := pc) marker hstep h10
  have hcnt : (s.modCol col fun c => c.countWord k).col col = (s.col col).countWord k := State.col_modCol_same _ _ _
  have hwcol : (s.walked col code a).col col = s.col col := by
    unfold State.col; rw [show (s.walked col code a).cols = s.cols from (congrArg State.cols (s.accessed_walked col code a)).trans rfl]
  have hg : (((s.walked col code a).withIssue (s.modCol col fun c => c.countWord k).cols s.cores s.run).col col).group
      = ((s.walked col code a).col col).group := by rw [hwcol]; exact (congrArg Column.group hcnt).trans rfl
  obtain ⟨hhdr, hctx⟩ := State.ctxOf_withIssue _ _ hg
  have hh' := State.handlerAt_withFaults _ fs (State.handlerAt_withIssue _ _ _ _ _ _ _ hhdr hctx hh)
  rw [he]
  refine (State.raiseTrap_takes (k := k) ?_ hm hh' hc).of_same (s.mem_walked col code a) rfl
  show (((s.modCol col fun c => c.countWord k).col col).slot k).hnd = false
  rw [hcnt, Column.slot_countWord]; exact hn

/-! ## Checks 6 to 8 (R112, R140, R269) -/

/-- What checks 6 to 8 stop is all that a word does. -/
def State.StopsEarly (s : State) (i : Instr) (w : Full) (col k : Nat) (f : Fmt) (pts : List Pt) : Prop :=
  ∀ e, (s.ctxFor col k w).early f pts = some e → exec i s = .next (s.perform col k w.marker e)

/-- The lanes of several operands together. -/
theorem getLsbD_foldl_lanes (pts : List Pt) (m : Mask) (l : Nat) :
    (pts.foldl (fun m q => m ||| q.lanes) m).getLsbD l = true ↔ m.getLsbD l = true ∨ ∃ q, q ∈ pts ∧ q.lanes.getLsbD l = true := by
  induction pts generalizing m with
  | nil => simp
  | cons q pts ih => rw [List.foldl_cons, ih, BitVec.getLsbD_or, Bool.or_eq_true, or_assoc]; simp

/-- No lane of the union is left where an operand has lanes. -/
theorem foldl_lanes_ne_zero {pts : List Pt} {p : Pt} (hp : (pts.find? fun q => q.lanes != 0) = some p) :
    pts.foldl (fun m q => m ||| q.lanes) (0 : Mask) ≠ 0 := by
  intro h0
  have hl : p.lanes ≠ 0 := by simpa using List.find?_some hp
  refine hl (BitVec.eq_of_getLsbD_eq fun l _ => ?_)
  have hf := (getLsbD_foldl_lanes pts 0 l).not.mp (by rw [h0]; simp)
  have := not_exists.mp (not_or.mp hf).2 p
  simpa [List.mem_of_find?_eq_some hp] using this

/-- The trap of check 8. -/
theorem Ctx.contain_eq {x : Ctx} {pts : List Pt} {p : Pt} (hp : (pts.find? fun q => q.lanes != 0) = some p) : x.contain pts =
    some (.trap 9 (pts.foldl (fun m q => m ||| q.lanes) 0) (if p.pt = 1 then p.addr (lowLane p.lanes) else 0) (256 * p.spec + p.pt) x.sp.pc) := by
  unfold Ctx.contain; rw [hp]; rfl

section
variable {x : Ctx} {f : Fmt} {pts : List Pt}

/-- Check 6 comes first. -/
theorem Ctx.early_of_check6 {spec reason : Nat} (h : check6 x.h x.w f = some (spec, reason)) :
    x.early f pts = some (.trap 2 x.sp.mask 0 (256 * spec + reason) x.sp.pc) := by
  unfold Ctx.early; rw [h]; rfl

/-- Then check 7. -/
theorem Ctx.early_of_pending {spec : Nat} (h : check6 x.h x.w f = none) (hp : firstPending x.sp.pend (wordRegs x.w f) = some spec) :
    x.early f pts = some (.trap 4 x.sp.mask 0 (256 * spec) x.sp.pc) := by
  unfold Ctx.early; rw [h]; dsimp only; rw [hp]; rfl

/-- Then check 8. -/
theorem Ctx.early_of_contain (h : check6 x.h x.w f = none) (hp : firstPending x.sp.pend (wordRegs x.w f) = none)
    (ht : x.c.tokenPending (wordRegs x.w f) = false) : x.early f pts = x.contain (x.ptGuard :: pts) := by
  unfold Ctx.early; rw [h]; dsimp only; rw [hp]; dsimp only; rw [ht, if_neg Bool.false_ne_true]

end

/-- Codes other than 0x08 read no walk. -/
theorem State.walked_of_ne {s : State} {col code : Nat} {a : DWord} (h : code ≠ 8) : s.walked col code a = s := by
  unfold State.walked; rw [if_neg fun e => h e.1]

section
variable {s : State} {i : Instr} {w : Full} {col k : Nat} {f : Fmt} {pts : List Pt} (hi : s.Issues col k)
  (hn : ((s.col col).slot k).hnd = false)
include hi hn

/-- An early trap of a word outside a handler is taken. -/
theorem State.StopsEarly.trapped (he : s.StopsEarly i w col k f pts) {code : Nat} {m : Mask} {a : DWord} {info : Nat} {h : DWord}
    (hx : (s.ctxFor col k w).early f pts = some (.trap code m a info (s.ctxFor col k w).sp.pc)) (hm : m ≠ 0) (h8 : code ≠ 8) (hc : code < 0x10)
    (hh : s.HandlerAt col code h) : ∃ t, exec i s = .next t ∧ s.Trapped t col k code m a info (s.ctxFor col k w).sp.pc h :=
  ⟨_, he _ hx, State.perform_trapped _ hi.2.2 hn hm (hc.trans (by decide)) hc.ne (by rw [State.walked_of_ne h8]; exact hh)⟩

/-- The first check that a word fails is its trap (R269). -/
theorem State.StopsEarly.trapsFirst (hm : ((s.col col).slot k).mask ≠ 0) (he : s.StopsEarly i w col k f pts) : TrapsFirst s i w col k f pts := by
  refine ⟨fun spec reason h h6 hh => ?_, fun spec h h6 h7 hh => ?_, fun p h h6 h7 h7' hp hh => ?_⟩
  · exact he.trapped hi hn (Ctx.early_of_check6 h6) hm (by decide) (by decide) hh
  · exact he.trapped hi hn (Ctx.early_of_pending h6 h7) hm (by decide) (by decide) hh
  · have hx := (Ctx.early_of_contain (pts := pts) h6 h7 h7').trans (Ctx.contain_eq hp)
    obtain ⟨t, het, ht⟩ := he.trapped hi hn hx (foldl_lanes_ne_zero hp) (by decide) (by decide) hh
    exact ⟨t, _, het, fun l _ => (getLsbD_foldl_lanes _ 0 l).trans (by simp), ht⟩

end

/-- A word executed in the split that issues does no more than the checks that stop it. -/
theorem State.stopsEarly_word {s : State} {i : Instr} {w : Full} {col k : Nat} {f : KHdr → Full → Fmt} {pts : Ctx → List Pt} (hi : s.Issues col k)
    (body : Ctx → Eff) (he : exec i s = s.word w f pts body) : s.StopsEarly i w col k (f (s.hdr col) w) (pts (s.ctxFor col k w)) :=
  fun _ hx => he.trans (State.word_stopped hi.1 hx body)

/-- The same for a word whose body answers the state of its effect. -/
theorem State.stopsEarly_wordSt {s : State} {i : Instr} {w : Full} {col k : Nat} {f : KHdr → Full → Fmt} {pts : Ctx → List Pt} (hi : s.Issues col k)
    (body : Ctx → State × Eff) (he : exec i s = s.wordSt w f pts body) : s.StopsEarly i w col k (f (s.hdr col) w) (pts (s.ctxFor col k w)) :=
  fun e hx => he.trans (by
    unfold State.wordSt; rw [hi.1]; dsimp only
    rw [show (s.ctxFor col k w).h = s.hdr col from rfl, hx])

/-- An instruction is a word form: every word of it is executed by one of the two templates, with the form's fields and operands at containment points. -/
def FormOf (e : FormRow) (i : Full → Instr) : Prop :=
  (∀ w s, ∃ body, exec (i w) s = s.word w e.2.1 e.2.2 body) ∨ ∀ w s, ∃ body, exec (i w) s = s.wordSt w e.2.1 e.2.2 body

theorem FormOf.stopsEarly {e : FormRow} {i : Full → Instr} (h : FormOf e i) {s : State} {col k : Nat} (hi : s.Issues col k) (w : Full) :
    s.StopsEarly (i w) w col k (e.2.1 (s.hdr col) w) (e.2.2 (s.ctxFor col k w)) := by
  rcases h with h | h
  · obtain ⟨body, hb⟩ := h w s; exact State.stopsEarly_word hi body hb
  · obtain ⟨body, hb⟩ := h w s; exact State.stopsEarly_wordSt hi body hb

theorem formOf_fullForms0 : ∀ e ∈ fullForms0, ∀ i ∈ e.1, FormOf e i := by
  unfold fullForms0
  simp only [List.forall_mem_cons, List.not_mem_nil, false_imp_iff, implies_true, and_true]
  and_intros
  all_goals exact .inl fun w s => ⟨_, rfl⟩

theorem formOf_fullForms1 : ∀ e ∈ fullForms1, ∀ i ∈ e.1, FormOf e i := by
  unfold fullForms1
  simp only [List.forall_mem_cons, List.not_mem_nil, false_imp_iff, implies_true, and_true]
  and_intros
  case _ : FormOf _ .xch => exact .inr fun w s => ⟨_, rfl⟩
  all_goals exact .inl fun w s => ⟨_, rfl⟩

/-- Every 64-bit word form but QPUSH and QPOP is executed by a template. -/
theorem formOf_fullForms {e : FormRow} (he : e ∈ fullForms) {i : Full → Instr} (hi : i ∈ e.1) : FormOf e i :=
  (List.mem_append.mp he).elim (fun h => formOf_fullForms0 e h i hi) fun h => formOf_fullForms1 e h i hi

theorem State.bindingOf_eq {s : State} {col k : Nat} (h : s.run = some (col, k)) (o : Opnd) : s.bindingOf o = (s.col col).binding (numOf o) := by
  unfold State.bindingOf; rw [h]

/-- QPUSH and QPOP: what they accept depends on the binding of the queue register that they name. -/
theorem State.stopsEarly_qpush {s : State} {col k : Nat} (hi : s.Issues col k) (w : Full) :
    let b := (s.col col).binding (numOf w.d)
    s.StopsEarly (.qpush w) w col k (fmtQpush b (s.hdr col) w) ((s.ctxFor col k w).ptsQpush b) := by
  dsimp only
  rw [← State.bindingOf_eq hi.1 w.d]
  exact State.stopsEarly_word (f := fmtQpush (s.bindingOf w.d)) (pts := fun x => x.ptsQpush (s.bindingOf w.d)) hi _ rfl

theorem State.stopsEarly_qpop {s : State} {col k : Nat} (hi : s.Issues col k) (w : Full) :
    s.StopsEarly (.qpop w) w col k (fmtQpop ((s.col col).binding (numOf w.a)) (s.hdr col) w) [] := by
  rw [← State.bindingOf_eq hi.1 w.a]
  exact State.stopsEarly_word (f := fmtQpop (s.bindingOf w.a)) (pts := noPts) hi _ rfl

/-! ## Unassigned words and the fetch (R187, R266, R268, R269) -/

/-- An unassigned word traps over the active lanes. -/
theorem exec_unassigned {s : State} {word : DWord} {col k info : Nat} (hr : s.run = some (col, k)) (hw : illegalInfo word = some info) :
    exec (.unassignedOpcodeWord word) s =
      .next (s.perform col k false (.trap 1 ((s.col col).slot k).mask 0 info ((s.col col).slot k).pc)) := by
  rw [show exec (.unassignedOpcodeWord word) s = execUnassignedOpcodeWord word s from rfl]
  unfold execUnassignedOpcodeWord; rw [hr, hw]

/-- A fetch that fails traps over the active lanes, from the state in which the word's lines have been read. -/
theorem exec_fetchFault {s : State} {col k code info : Nat} (hr : s.run = some (col, k)) (hf : (s.fetch col k).2 = .trap code info) :
    exec .instructionFetchFault s = .next ((s.fetch col k).1.perform col k false
      (.trap code ((s.col col).slot k).mask ((s.col col).slot k).pc info ((s.col col).slot k).pc)) := by
  rw [show exec .instructionFetchFault s = execInstructionFetchFault s from rfl]
  unfold execInstructionFetchFault; rw [hr]; dsimp only
  rw [show s.fetch col k = ((s.fetch col k).1, .trap code info) from Prod.ext rfl hf]

/-- What the fetch reads changes no column, and no stored byte. -/
theorem State.fetch_keeps (s : State) (col k : Nat) : (s.fetch col k).1.mem = s.mem ∧ (s.fetch col k).1.cols = s.cols := by
  unfold State.fetch; dsimp only
  split
  · exact ⟨rfl, rfl⟩
  · split
    · exact ⟨rfl, rfl⟩
    · exact ⟨rfl, rfl⟩
    · exact ⟨rfl, rfl⟩
    · next p _ =>
      have h := s.accessed_readSpan ⟨col, p, addrAp ((s.col col).slot k).pc.toNat == 1, addrOff ((s.col col).slot k).pc.toNat % p.size⟩ 8
      exact ⟨s.mem_pageRead _ _ _ _ _, (congrArg State.cols h).trans rfl⟩

/-- The trap of a fetch: a PC outside the column escapes it; a page that is forbidden or sealed and a poisoned word trap with the PC as the address of its own column. -/
theorem State.fetch_trap {s : State} {col k code info : Nat} (hf : (s.fetch col k).2 = .trap code info) :
    code < 0x10 ∧ (code = 8 → isSelfAlias ((s.col col).slot k).pc.toNat = true ∧ (s.fetch col k).1 = s) := by
  unfold State.fetch at hf ⊢; dsimp only at hf ⊢
  split at hf
  · cases hf; exact ⟨by decide, fun h => absurd h (by decide)⟩
  · next hself =>
    rw [if_neg hself]
    split at hf
    · cases hf
    · cases hf; exact ⟨by decide, fun _ => ⟨by simpa using hself, rfl⟩⟩
    · cases hf; exact ⟨by decide, fun h => absurd h (by decide)⟩
    · dsimp only at hf
      split at hf
      · cases hf; exact ⟨by decide, fun h => absurd h (by decide)⟩
      · cases hf

/-- The trap of a fetch is taken, with the PC in %taddr (R269). -/
theorem State.fetchFault_trapped {s : State} {col k code info : Nat} {h : DWord} (hi : s.Issues col k) (hn : ((s.col col).slot k).hnd = false)
    (hm : ((s.col col).slot k).mask ≠ 0) (hf : (s.fetch col k).2 = .trap code info)
    (hh : (if code = 8 then (s.fetch col k).1.touchWalk (s.ctxOf col) col (addrOff ((s.col col).slot k).pc.toNat)
      else (s.fetch col k).1).HandlerAt col code h) : ∃ t, exec .instructionFetchFault s = .next t
        ∧ s.Trapped t col k code ((s.col col).slot k).mask ((s.col col).slot k).pc info ((s.col col).slot k).pc h := by
  obtain ⟨h16, h8⟩ := State.fetch_trap hf
  obtain ⟨hmem, hcols⟩ := s.fetch_keeps col k
  have hcol : (s.fetch col k).1.col col = s.col col := by unfold State.col; rw [hcols]
  have hwalk : (s.fetch col k).1.walked col code ((s.col col).slot k).pc =
      if code = 8 then (s.fetch col k).1.touchWalk (s.ctxOf col) col (addrOff ((s.col col).slot k).pc.toNat) else (s.fetch col k).1 := by
    by_cases hc : code = 8
    · obtain ⟨hself, hsame⟩ := h8 hc
      rw [if_pos hc, hsame]
      unfold State.walked; rw [if_pos ⟨hc, if_pos hself⟩]
    · rw [if_neg hc, State.walked_of_ne hc]
  refine ⟨_, exec_fetchFault hi.1 hf, ?_⟩
  have ht := State.perform_trapped (s := (s.fetch col k).1) (k := k) (m := ((s.col col).slot k).mask) (info := info) (pc := ((s.col col).slot k).pc)
    false (by rw [hcol]; exact hi.2.2) (by rw [hcol]; exact hn) hm (h16.trans (by decide)) h16.ne (hwalk ▸ hh)
  exact State.TakesTrap.of_same ht hmem (by rw [State.col_modCol_same, State.col_modCol_same, hcol])

/-- Settles O31: every word form is executed by a template whose checks 6 to 8 come before its effect, and their trap is taken; an unassigned word and a
failed fetch trap at once. -/
theorem wordsThatTrap : Obligations.WordsThatTrap := by
  unfold Obligations.WordsThatTrap
  refine ⟨fun s w col k hi => ?_, fun s word col k info h hi hn hm hw hh => ?_, fun s col k code info h hi => ?_⟩
  · intro x hn hm
    exact ⟨fun e he i hie => ((formOf_fullForms he hie).stopsEarly hi w).trapsFirst hi hn hm,
      (State.stopsEarly_qpush hi w).trapsFirst hi hn hm, (State.stopsEarly_qpop hi w).trapsFirst hi hn hm⟩
  · exact ⟨_, exec_unassigned hi.1 hw,
      State.perform_trapped false hi.2.2 hn hm (by decide) (by decide) (by rw [State.walked_of_ne (by decide)]; exact hh)⟩
  · intro sp u hn hm hf hh
    exact State.fetchFault_trapped hi hn hm hf hh

end Sys2Proof.Machine

/-!
SUPPORT. Failures and recovery (R107, R113 to R126): what a failure stops, what a lost channel loses, containment, folds and turns; the obligation O9.
-/

namespace Sys2Proof.Machine

/-! ## STATE and the column map -/

/-- The module's STATE and its column map: what a recovery decides by. -/
def State.standing (s : State) : Nat × Tab (Option FoldEnt) := (s.boot.st, s.tabs.cmap)

section
variable {s t : State}

theorem State.st_of_standing (h : t.standing = s.standing) : t.boot.st = s.boot.st := congrArg Prod.fst h
theorem State.cmap_of_standing (h : t.standing = s.standing) : t.tabs.cmap = s.tabs.cmap := congrArg Prod.snd h

theorem State.foldPlan_of_cmap (h : t.tabs.cmap = s.tabs.cmap) (failed : List (Nat × Nat)) : t.foldPlan failed = s.foldPlan failed := by
  have hf : t.fold = s.fold := funext fun c => by unfold State.fold; rw [h]
  unfold State.foldPlan State.runsOn; rw [hf]

end

theorem State.standing_foldl {β : Type} (f : State → β → State) (hf : ∀ (s : State) b, (f s b).standing = s.standing) (l : List β) (s : State) :
    (l.foldl f s).standing = s.standing :=
  foldl_keeps (fun t : State => t.standing = s.standing) f (fun t b h => (hf t b).trans h) l s rfl

/-! ### Events, logs and reads -/

@[simp] theorem State.standing_postEvent (s : State) (kind src detail : Nat) : (s.postEvent kind src detail).standing = s.standing := by
  unfold State.postEvent; dsimp only; split <;> rfl

@[simp] theorem State.standing_mgmtEvent (s : State) (src cause why loc : Nat) : (s.mgmtEvent src cause why loc).standing = s.standing :=
  s.standing_postEvent _ _ _

@[simp] theorem State.standing_logLine (s : State) (p : Place) (owner kind sym : Nat) : (s.logLine p owner kind sym).standing = s.standing := by
  have h : ({ s with tabs := s.tabs.logError s.nowUs p owner kind sym } : State).standing = s.standing := by
    obtain ⟨l, o, e⟩ := s.tabs.logError_keeps s.nowUs p owner kind sym
    rw [e]; rfl
  unfold State.logLine; dsimp only; split
  · rw [State.standing_postEvent]; split <;> exact h
  · exact h

@[simp] theorem State.standing_touchLine (s : State) (p : Place) (owner : Nat) : (s.touchLine p owner).standing = s.standing := by
  unfold State.touchLine; dsimp only; split
  · rfl
  · split
    · rfl
    · split <;> rw [State.standing_logLine] <;> rfl

@[simp] theorem State.standing_touchTables (s : State) (col : Nat) (ls : List Nat) : (s.touchTables col ls).standing = s.standing :=
  State.standing_foldl _ (fun _ _ => State.standing_touchLine _ _ _) _ _

@[simp] theorem State.standing_touchWalk (s : State) (ctx col off : Nat) : (s.touchWalk ctx col off).standing = s.standing := by
  unfold State.touchWalk; split
  · rfl
  · exact s.standing_touchTables _ _

@[simp] theorem State.standing_touchMode (s : State) (p : Place) (owner : Nat) : (s.touchMode p owner).standing = s.standing := by
  unfold State.touchMode; dsimp only; split
  · rw [State.standing_logLine]; rfl
  · rfl

@[simp] theorem State.standing_touchBlock (s : State) (p : Place) (owner : Nat) : (s.touchBlock p owner).standing = s.standing := by
  unfold State.touchBlock; dsimp only; split
  · rfl
  · exact State.standing_foldl _ (fun _ _ => State.standing_touchLine _ _ _) _ _

@[simp] theorem State.standing_readSpan (s : State) (sp : Span) (size : Nat) : (s.readSpan sp size).1.standing = s.standing := by
  unfold State.readSpan State.pageRead; dsimp only
  refine (State.standing_foldl _ (fun t i => ?_) _ _).trans (s.standing_touchTables _ _)
  split
  · split <;> simp
  · exact State.standing_touchLine _ _ _

/-! ### Writes -/

@[simp] theorem State.standing_fillLine (s : State) (p : Place) (owner : Nat) : (s.fillLine p owner).standing = s.standing := by
  have wrong (t : State) (q : Place) : (t.takeWrong q).standing = t.standing := by unfold State.takeWrong; split <;> rfl
  exact (wrong (s.touchLine p owner) p).trans (s.standing_touchLine p owner)

@[simp] theorem State.standing_fillBoth (s : State) (p : Place) (owner : Nat) : (s.fillBoth p owner).standing = s.standing := by
  unfold State.fillBoth; dsimp only; split <;> simp only [State.standing_fillLine]

@[simp] theorem State.standing_putBytes (s : State) (p : Place) (bs : List Byte) : (s.putBytes p bs).standing = s.standing := by
  rw [State.putBytes_keeps]; rfl

theorem State.standing_mirrorBlock (s : State) (p : Place) (mode : Nat) (st : List Byte) : (s.mirrorBlock p mode st).standing = s.standing := by
  unfold State.mirrorBlock; split
  · rfl
  · exact s.standing_putBytes _ _

@[simp] theorem State.standing_writeBackBlock (s : State) (p : Place) : (s.writeBackBlock p).standing = s.standing := by
  unfold State.writeBackBlock; dsimp only; split
  · rfl
  · exact (State.standing_mirrorBlock _ _ _ _).trans (s.standing_putBytes _ _)

theorem State.standing_cleanBlock (s : State) (p : Place) : (s.cleanBlock p).standing = s.standing := by
  unfold State.cleanBlock; dsimp only
  refine (State.standing_foldl _ (fun t i => ?_) _ _).trans (s.standing_writeBackBlock p)
  split <;> rfl

@[simp] theorem State.standing_writeBackAll (s : State) : s.writeBackAll.standing = s.standing :=
  State.standing_foldl (fun (s : State) (b : Nat) => s.cleanBlock (placeOf (256 * b))) (fun t _ => t.standing_cleanBlock _) s.heldBlocks s

theorem State.standing_storeByte (s : State) (col : Nat) (tier : Bool) (off : Nat) (b : Byte) :
    (s.storeByte col tier off b).standing = s.standing := by
  unfold State.storeByte; dsimp only; split <;> rfl

@[simp] theorem State.standing_pageWrite (s : State) (col : Nat) (p : Page) (raw : Bool) (po : Nat) (bs : List Byte) :
    (s.pageWrite col p raw po bs).standing = s.standing := by
  have bytes (t : State) (n : Nat) (off : Nat → Nat) (b : Nat → Byte) :
      ((List.range n).foldl (fun s i => s.storeByte col p.tier (off i) (b i)) t).standing = t.standing :=
    State.standing_foldl _ (fun _ _ => State.standing_storeByte _ _ _ _ _) _ _
  unfold State.pageWrite; dsimp only; split
  · exact State.standing_foldl _ (fun t i => bytes t _ _ _) _ _
  · split
    · exact s.standing_touchMode _ _
    · refine (bytes _ _ _ _).trans ?_
      split
      · exact s.standing_writeBackBlock _
      · rfl

theorem State.standing_fillSpans (s : State) (cells : List (Nat × Nat × Bool)) (ws : List (Span × List Byte × Bool)) :
    (s.fillSpans cells ws).standing = s.standing := by
  unfold State.fillSpans; dsimp only; split
  · rfl
  · refine (State.standing_foldl _ (fun t w => State.standing_foldl _ (fun t i => ?_) _ _) _ _).trans
      (State.standing_foldl _ (fun t w => t.standing_touchTables _ _) _ _)
    split
    · exact t.standing_touchBlock _ _
    · split
      · rfl
      · exact t.standing_fillBoth _ _

@[simp] theorem State.standing_writeSpans (s : State) (ws : List (Span × List Byte × Bool)) : (s.writeSpans ws).standing = s.standing := by
  unfold State.writeSpans; dsimp only
  exact (State.standing_foldl (fun (s : State) (w : Span × List Byte × Bool) => s.pageWrite w.1.col w.1.page w.1.raw w.1.po w.2.1)
    (fun t w => t.standing_pageWrite _ _ _ _ _) ws (s.fillSpans _ ws)).trans (s.standing_fillSpans _ ws)

@[simp] theorem State.standing_writeRange (s : State) (ctx : Nat) (self : Option Nat) (a : Nat) (bs : List Byte) (poi : Bool) :
    (s.writeRange ctx self a bs poi).1.standing = s.standing := by
  unfold State.writeRange; split
  · rfl
  · split
    · rfl
    · split
      · rfl
      · exact s.standing_touchWalk _ _ _
      · split
        · rfl
        · exact s.standing_writeSpans _

/-! ### Triggers (R97) -/

@[simp] theorem State.standing_setTrig (s : State) (ctx port : Nat) (t : TrigSt) : (s.setTrig ctx port t).standing = s.standing := by
  unfold State.setTrig; split
  · rfl
  · split <;> rfl

@[simp] theorem State.standing_fire (s : State) (ctx port : Nat) : (s.fire ctx port).standing = s.standing := by
  unfold State.fire; dsimp only; split
  · exact s.standing_setTrig _ _ _
  · exact s.standing_setTrig _ _ _

@[simp] theorem State.standing_arm (s : State) (ctx port : Nat) : (s.arm ctx port).standing = s.standing := by
  unfold State.arm; split
  · rfl
  · next c r t _ =>
    split
    · rfl
    · have hs : (if recTrig r = 2 then s.touchSem c (recTrigAddr r) else s).standing = s.standing := by
        unfold State.touchSem; split
        · split
          · exact s.standing_readSpan _ _
          · rfl
        · rfl
      dsimp only
      generalize (if recTrig r = 2 then s.touchSem c (recTrigAddr r) else s) = u at *
      split
      · exact (u.standing_setTrig _ _ _).trans hs
      · split
        · exact (u.standing_fire _ _).trans hs
        · exact (State.standing_setTrig _ _ _ _).trans hs

@[simp] theorem State.standing_armWaiting (s : State) : s.armWaiting.standing = s.standing :=
  State.standing_foldl (fun (s : State) (h : Nat × Nat) => s.arm h.1 h.2) (fun t h => t.standing_arm h.1 h.2) s.waitingHeads s

@[simp] theorem State.standing_recheck (s : State) (f : TrigEnt → Bool) : (s.recheck f).standing = s.standing := by
  unfold State.recheck; dsimp only; split
  · rfl
  · exact (State.standing_armWaiting _).trans
      (State.standing_foldl (fun (s : State) (e : TrigEnt) => s.fire e.ctx e.port) (fun t e => t.standing_fire e.ctx e.port) _ _)

@[simp] theorem State.standing_signalSem (s : State) (ctx : Nat) (self : Option Nat) (a : Nat) (v : DWord) (set : Bool) :
    (s.signalSem ctx self a v set).1.standing = s.standing := by
  unfold State.signalSem; split
  · rfl
  · split
    · rfl
    · exact s.standing_touchWalk _ _ _
    · split
      · rfl
      · dsimp only; split <;> simp

/-! ### Faults, and packets to other modules -/

@[simp] theorem State.standing_parkFault (s : State) (w : Waiter) (ctx col off : Nat) (acc : Acc) :
    (s.parkFault w ctx col off acc).standing = s.standing := by
  have post (t : State) (e : FaultEnt) : (t.postFault e).standing = t.standing := by
    unfold State.postFault; dsimp only; split
    · exact t.standing_postEvent _ _ _
    · rfl
  unfold State.parkFault; split
  · rfl
  · split
    · rfl
    · exact (post _ _).trans (s.standing_touchWalk _ _ _)

theorem State.standing_launchPkt (s : State) (p : Packet) : (s.launchPkt p).standing = s.standing := by
  unfold State.launchPkt; split <;> rfl

@[simp] theorem State.standing_forget (s : State) (p : Packet) : (s.forget p).standing = s.standing := by
  unfold State.forget; split
  · rfl
  · exact State.standing_foldl _ (fun t a => by rfl) _ _

@[simp] theorem State.standing_unreachable (s : State) (p : Packet) (cause : Nat) : (s.unreachable p cause).standing = s.standing := by
  have h : ((s.forget p).postEvent 5 (pktSrc p) (cause + at_ p.dest.toNat 64)).standing = s.standing := by simp
  unfold State.unreachable; dsimp only
  generalize (s.forget p).postEvent 5 (pktSrc p) (cause + at_ p.dest.toNat 64) = u at *
  split
  · exact h
  · exact (State.standing_launchPkt _ _).trans h

@[simp] theorem State.standing_send (s : State) (p : Packet) : (s.send p).standing = s.standing := by
  unfold State.send; split
  · exact s.standing_unreachable _ _
  · split
    · rfl
    · exact s.standing_unreachable _ _

/-! ### The end of a launch (R71, R464) -/

@[simp] theorem State.standing_endWait (s : State) (ctx queue k : Nat) (c : BitVec 128) (col off : Nat) (acc : Acc) :
    (s.endWait ctx queue k c col off acc).standing = s.standing :=
  State.standing_parkFault _ _ _ _ _ _

@[simp] theorem State.standing_endEvent (s : State) (ctx queue : Nat) (r : Rec64) (c : BitVec 128) :
    (s.endEvent ctx queue r c).standing = s.standing := by
  unfold State.endEvent
  refine (State.standing_arm _ _ _).trans ?_
  split
  · exact s.standing_postEvent 12 (qKey ctx queue) c.toNat
  · rfl

@[simp] theorem State.standing_endSend (s : State) (ctx queue k : Nat) (c : BitVec 128) (kind op a : Nat) (accs : List LaneAcc) :
    (s.endSend ctx queue k c kind op a accs).standing = s.standing :=
  State.standing_send _ _

@[simp] theorem State.standing_endSem (s : State) (ctx queue : Nat) (r : Rec64) (c : BitVec 128) : (s.endSem ctx queue r c).standing = s.standing := by
  unfold State.endSem; dsimp only; split
  · exact s.standing_endEvent _ _ _ _
  · split
    · exact s.standing_endSend _ _ _ _ _ _ _ _
    · have h := s.standing_signalSem ctx none (fieldNat r 447 384) (fieldBits r 448 64) false
      split <;> simp_all

@[simp] theorem State.standing_countEnd (s : State) (ctx queue : Nat) : (s.countEnd ctx queue).standing = s.standing :=
  State.standing_recheck _ _

@[simp] theorem State.standing_endRecord (s : State) (ctx queue : Nat) (r : Rec64) (c : BitVec 128) :
    (s.endRecord ctx queue r c).standing = s.standing := by
  unfold State.endRecord; dsimp only; split
  · rw [State.standing_endSem, State.standing_countEnd]; split <;> rfl
  · split
    · exact s.standing_endSend _ _ _ _ _ _ _ _
    · have h := s.standing_writeRange ctx none (fieldNat r 383 320) (bytesOf 16 c.toNat) false
      split <;> simp_all

@[simp] theorem State.standing_endLaunch (s : State) (ctx queue status stage fail : Nat) :
    (s.endLaunch ctx queue status stage fail).standing = s.standing := by
  unfold State.endLaunch; split
  · rfl
  · dsimp only; split
    · exact s.standing_endRecord _ _ _ _
    · rfl
    · rfl

theorem State.standing_endDoomed (l : List (Rec64 × BitVec 128)) (s : State) (ctx queue : Nat) :
    (s.endDoomed ctx queue l).standing = s.standing := by
  induction l generalizing s with
  | nil => rfl
  | cons e l ih =>
    unfold State.endDoomed; split
    · rfl
    · rw [ih, State.standing_endRecord]; rfl

theorem State.standing_endQueue (ctx status fail : Nat) (upto : Nat → Nat) (s : State) (q : Nat) :
    (State.endQueue ctx status fail upto s q).standing = s.standing := by
  have next (t : State) : (t.endNext ctx q).standing = t.standing := by
    unfold State.endNext; split
    · exact State.standing_endDoomed _ _ _ _
    · rfl
  unfold State.endQueue
  refine (next _).trans ?_
  split
  · exact State.standing_endLaunch _ _ _ _ _ _
  · rfl

@[simp] theorem State.standing_endAll (s : State) (ctx status fail : Nat) (upto : Nat → Nat) :
    (s.endAll ctx status fail upto).standing = s.standing :=
  State.standing_foldl (State.endQueue ctx status fail upto) (fun t q => State.standing_endQueue ctx status fail upto t q) (List.range 64) s

/-! ### Groups discarded, operations ended (R122, R426, R433) -/

theorem State.standing_discardGroup (s : State) (g : Nat) (gr : Group) : (s.discardGroup g gr).standing = s.standing := by
  unfold State.discardGroup; split
  · rfl
  · refine State.standing_foldl _ (fun t k => ?_) _ _
    split <;> rfl

@[simp] theorem State.standing_abortOps (s : State) (f : EngOp → Bool) : (s.abortOps f).standing = s.standing := by
  have handles (l : List (Nat × EngOp)) : (l.foldl (fun (s : State) (e : Nat × EngOp) =>
      e.2.body.joined.foldl (fun s m => s.setHandle m.1 m.2 (statusWord 3 0 0 0)) s) s).standing = s.standing :=
    State.standing_foldl _ (fun t e => State.standing_foldl _ (fun t m => by rfl) _ _) _ _
  have ends (t : State) (o : ClctOp) : (t.endRec o).standing = t.standing := by
    unfold State.endRec; split
    · rfl
    · dsimp only; split <;> rfl
  unfold State.abortOps; dsimp only
  refine (State.standing_foldl _ (fun t e => ?_) _ _).trans (handles _)
  split
  · exact ends t _
  · rfl

/-- Ending a context's launches and discarding its groups leaves the STATE and the column map. -/
theorem State.standing_discardContext (s : State) (ctx status fail : Nat) (upto : Nat → Nat) (coll : Nat) :
    (s.discardContext ctx status fail upto coll).standing = s.standing := by
  have groups (l : List (Nat × Group)) : (l.foldl (fun s g => s.discardGroup g.1 g.2) s).standing = s.standing :=
    State.standing_foldl _ (fun t g => t.standing_discardGroup g.1 g.2) l s
  unfold State.discardContext
  extract_lets later old s1 s2 sch s3 s4 s5 s6
  have h5 : s5.standing = s1.standing := s1.standing_abortOps _
  rw [State.standing_armWaiting, State.standing_arm, show s6.standing = s5.standing from s5.standing_endAll _ _ _ _, h5]
  exact groups _


/-! ## A failure detected (R107, R121) -/

/-- Columns, and the run that a word issues in, may have stopped; everything else is as it was. -/
def State.Stopped (s t : State) : Prop := t = { s with cols := t.cols, run := t.run }

theorem State.Stopped.trans {s t u : State} (h : s.Stopped t) (h' : t.Stopped u) : s.Stopped u := by
  unfold State.Stopped at *; rw [h']; rw [h]

/-- A run that a column issues in ends. -/
def State.endRunOf (s : State) (c : Nat) : State :=
  match s.run with
  | some (d, _) => if d = c then { s with run := none } else s
  | none => s

theorem State.freeze_eq (s : State) (c : Nat) : s.freeze c =
    (if (tabGet s.cols c).isSome then s.modCol c (Column.halt · fun _ => true) else s).endRunOf c := rfl

theorem State.endRunOf_eq (s : State) (c : Nat) : s.endRunOf c = { s with run := (s.endRunOf c).run } := by
  unfold State.endRunOf; split
  · split <;> rfl
  · rfl

theorem State.cols_freeze (s : State) (c : Nat) : (s.freeze c).cols =
    (if (tabGet s.cols c).isSome then s.modCol c (Column.halt · fun _ => true) else s).cols := by
  rw [State.freeze_eq, State.endRunOf_eq]

theorem State.stopped_freeze (s : State) (c : Nat) : s.Stopped (s.freeze c) := by
  have h : s.Stopped (if (tabGet s.cols c).isSome then s.modCol c (Column.halt · fun _ => true) else s) := by split <;> rfl
  refine h.trans ?_
  rw [State.freeze_eq]
  unfold State.Stopped; rw [State.endRunOf_eq]

theorem State.stopped_freezeAll (l : List Nat) (s : State) : s.Stopped (l.foldl State.freeze s) :=
  foldl_keeps (fun t : State => s.Stopped t) State.freeze (fun t c h => h.trans (t.stopped_freeze c)) l s rfl

/-- A column that runs still runs when one has stopped. -/
theorem State.isSome_freeze {s : State} {g : Nat} (h : (tabGet s.cols g).isSome = true) (c : Nat) :
    (tabGet (s.freeze c).cols g).isSome = true := by
  rw [State.cols_freeze]
  split
  · rw [State.modCol_cols, tabGet_tabSet]; split
    · rfl
    · exact h
  · exact h

theorem State.frozen_freeze {s : State} {g : Nat} (h : (s.col g).frozen = true) (c : Nat) : ((s.freeze c).col g).frozen = true := by
  unfold State.col; rw [State.cols_freeze]
  split
  · exact State.frozen_modCol_halt h c _
  · exact h

theorem State.frozen_freeze_same {s : State} {g : Nat} (h : (tabGet s.cols g).isSome = true) : ((s.freeze g).col g).frozen = true := by
  have e : (s.freeze g).col g = (s.modCol g (Column.halt · fun _ => true)).col g := by unfold State.col; rw [State.cols_freeze, if_pos h]
  rw [e, State.col_modCol_same]
  exact Column.frozen_halt _ _

theorem State.frozen_freezeAll {l : List Nat} {s : State} {g : Nat} (hg : g ∈ l) (h : (tabGet s.cols g).isSome = true) :
    ((l.foldl State.freeze s).col g).frozen = true := by
  induction l generalizing s with
  | nil => cases hg
  | cons a l ih =>
    rcases List.mem_cons.mp hg with rfl | hg
    · exact foldl_keeps (fun t : State => (t.col g).frozen = true) State.freeze (fun _ c ht => State.frozen_freeze ht c) l _
        (State.frozen_freeze_same h)
    · exact ih hg (State.isSome_freeze h a)

/-- The recovery that a failure starts, or that it joins and restarts at contain (R119, R121). -/
def Recovery.joined (o : Option Recovery) (fs : List (Nat × Nat)) (first : Nat × Nat) (lost : Bool) : Recovery :=
  match o with
  | some r => { r with failed := r.failed ++ fs.filter (fun f => !r.failed.contains f), contained := false, lost := r.lost || lost }
  | none => ⟨fs, (fs.headD first).1, false, lost⟩

theorem Recovery.contained_joined (o : Option Recovery) (fs : List (Nat × Nat)) (first : Nat × Nat) (lost : Bool) :
    (Recovery.joined o fs first lost).contained = false := by
  cases o <;> rfl

theorem Recovery.lost_joined (o : Option Recovery) (fs : List (Nat × Nat)) (first : Nat × Nat) :
    (Recovery.joined o fs first true).lost = true := by
  cases o
  · rfl
  · exact Bool.or_true _

theorem Recovery.mem_joined {fs : List (Nat × Nat)} {f : Nat × Nat} (h : f ∈ fs) (o : Option Recovery) (first : Nat × Nat) (lost : Bool) :
    f ∈ (Recovery.joined o fs first lost).failed := by
  cases o with
  | none => exact h
  | some r =>
    refine List.mem_append.mpr ?_
    by_cases hf : f ∈ r.failed
    · exact .inl hf
    · exact .inr (List.mem_filter.mpr ⟨h, by simpa using hf⟩)

/-- The columns that run something, with the cause of their failure. -/
def State.failing (s : State) (cols : List Nat) (cause : Nat) : List (Nat × Nat) :=
  (cols.filter fun c => s.runsOn c != []).map fun c => (c, cause)

theorem State.mem_failing {s : State} {cols : List Nat} {c : Nat} (hc : c ∈ cols) (hr : s.runsOn c ≠ []) (cause : Nat) :
    (c, cause) ∈ s.failing cols cause :=
  List.mem_map.mpr ⟨c, List.mem_filter.mpr ⟨hc, bne_iff_ne.mpr hr⟩, rfl⟩

theorem State.detect_eq {s : State} {cols : List Nat} {cause : Nat} {lost : Bool} (h : s.failing cols cause ≠ [] ∨ lost = true) :
    s.detect cols cause lost = ((s.failing cols cause).flatMap fun f => s.runsOn f.1).foldl State.freeze
      { s with recov := some (Recovery.joined s.recov (s.failing cols cause) (cols.headD 0, cause) lost), boot := { s.boot with st := 6 } } := by
  have hne : ¬ ((s.failing cols cause).isEmpty && !lost) = true := by
    rcases h with h | rfl
    · cases hf : s.failing cols cause with
      | nil => exact absurd hf h
      | cons _ _ => exact Bool.false_ne_true
    · rw [Bool.not_true, Bool.and_false]; exact Bool.false_ne_true
  unfold State.detect
  exact if_neg hne

/-- A failure detected: STATE 6, a recovery that is still to contain it; memory as it was. -/
theorem State.detect_starts {s : State} {cols : List Nat} {cause : Nat} {lost : Bool} (h : s.failing cols cause ≠ [] ∨ lost = true) :
    (s.detect cols cause lost).boot.st = 6 ∧ (s.detect cols cause lost).mem = s.mem
      ∧ (s.detect cols cause lost).recov = some (Recovery.joined s.recov (s.failing cols cause) (cols.headD 0, cause) lost) := by
  rw [State.detect_eq h]
  generalize hu : ({ s with recov := some (Recovery.joined s.recov (s.failing cols cause) (cols.headD 0, cause) lost)
                            boot := { s.boot with st := 6 } } : State) = u
  have hk := u.stopped_freezeAll ((s.failing cols cause).flatMap fun f => s.runsOn f.1)
  unfold State.Stopped at hk
  rw [hk, ← hu]
  exact ⟨rfl, rfl, rfl⟩

/-- A source of R107 for a column that runs something: the recovery names it with its cause. -/
theorem State.detect_names {s : State} {cols : List Nat} {c : Nat} (hc : c ∈ cols) (hr : s.runsOn c ≠ []) (cause : Nat) (lost : Bool) :
    ∃ r, (s.detect cols cause lost).boot.st = 6 ∧ (s.detect cols cause lost).recov = some r ∧ (c, cause) ∈ r.failed
      ∧ r.contained = false ∧ (s.detect cols cause lost).mem = s.mem := by
  have hm := State.mem_failing hc hr cause
  obtain ⟨hst, hmem, hrec⟩ := State.detect_starts (lost := lost) (.inl (List.ne_nil_of_mem hm))
  exact ⟨_, hst, hrec, Recovery.mem_joined hm _ _ _, Recovery.contained_joined _ _ _ _, hmem⟩

/-- The logical columns that a failed column runs stop. -/
theorem State.detect_freezes {s : State} {cols : List Nat} {c g : Nat} (hc : c ∈ cols) (hg : g ∈ s.runsOn c)
    (h : (tabGet s.cols g).isSome = true) (cause : Nat) (lost : Bool) : ((s.detect cols cause lost).col g).frozen = true := by
  have hm := State.mem_failing hc (List.ne_nil_of_mem hg) cause
  rw [State.detect_eq (.inl (List.ne_nil_of_mem hm))]
  exact State.frozen_freezeAll (List.mem_flatMap.mpr ⟨(c, cause), hm, hg⟩) h

theorem mem_clusterCols {cls : List Nat} {c : Nat} : c ∈ clusterCols cls ↔ clusterOf c ∈ cls := by
  unfold clusterCols clusterOf
  simp only [List.mem_flatMap, List.mem_map, List.mem_range]
  constructor
  · rintro ⟨k, hk, i, hi, rfl⟩
    rwa [show (48 * k + i) / 48 = k by omega]
  · exact fun h => ⟨c / 48, h, c % 48, by omega, by omega⟩

theorem mem_stackClusters {k n : Nat} (h : stackOf k = n) : k ∈ stackClusters n := by
  have hn : k / 32 = n := by
    unfold stackOf dieOfCluster meshY at h
    split at h <;> omega
  exact List.mem_map.mpr ⟨k % 32, List.mem_range.mpr (by omega), by omega⟩

theorem exec_logicCheckerError {s : State} {c : Nat} (h : s.inService = true) (hc : c < nCols) (shared : Bool) :
    exec (.logicCheckerError c shared) s =
      .next (s.detect (if shared then (List.range 8).map fun i => c / 8 * 8 + i else [c]) 1 false) := by
  rw [show exec (.logicCheckerError c shared) s = execLogicCheckerError c shared s from rfl]
  unfold execLogicCheckerError
  rw [if_pos (by rw [h, decide_eq_true hc]; rfl)]

theorem mem_coreCols {c d : Nat} (h : d / 8 = c / 8) : d ∈ (List.range 8).map fun i => c / 8 * 8 + i :=
  List.mem_map.mpr ⟨d % 8, List.mem_range.mpr (by omega), by omega⟩

/-- What a failed slice fails: the columns of a cluster, of a stack's clusters, or one. -/
def State.sliceFails (s : State) : SliceCause → List Nat → Prop
  | .channelDown k, l => k < 768 ∧ l = clusterCols [k]
  | .stackDown t, l => t < 24 ∧ l = clusterCols (stackClusters t)
  | .badLines c, l => (c < nCols ∧ 16 ≤ s.badLineCount c) ∧ l = [c]

theorem exec_sliceFailure {s : State} {x : SliceCause} {l : List Nat} (h : s.inService = true) (hl : s.sliceFails x l) :
    exec (.sliceFailure x) s = .next (s.detect l 2 false) := by
  rw [show exec (.sliceFailure x) s = execSliceFailure x s from rfl]
  unfold execSliceFailure
  rw [if_neg (by rw [h]; exact Bool.false_ne_true)]
  cases x <;> (obtain ⟨hx, rfl⟩ := hl; exact if_pos hx)

theorem sliceFailure_names {s : State} {x : SliceCause} {l : List Nat} {c : Nat} (h : s.inService = true) (hl : s.sliceFails x l) (hc : c ∈ l)
    (hr : s.runsOn c ≠ []) : ∃ t r, exec (.sliceFailure x) s = .next t ∧ t.boot.st = 6 ∧ t.recov = some r ∧ (c, 2) ∈ r.failed := by
  obtain ⟨r, hst, hrec, hm, -, -⟩ := State.detect_names hc hr 2 false
  exact ⟨_, r, exec_sliceFailure h hl, hst, hrec, hm⟩

theorem exec_watchdogExpiry {s : State} {c : Nat} (h : s.inService = true) (hc : c < nCols) (hw : (s.runsOn c).any s.watched = true) :
    exec (.watchdogExpiry c) s = .next (s.detect [c] 3 false) := by
  rw [show exec (.watchdogExpiry c) s = execWatchdogExpiry c s from rfl]
  unfold execWatchdogExpiry
  rw [if_pos (by rw [h, hw, decide_eq_true hc]; rfl)]

/-! ## Polls (R22, R114) -/

theorem exec_heartbeatPoll_answered {s : State} {k : Nat} (h : s.inService = true) (hk : k < 768) :
    exec (.heartbeatPoll k true) s = .next { s with pw := { s.pw with missed := tabSet s.pw.missed k 0 } } := by
  rw [show exec (.heartbeatPoll k true) s = execHeartbeatPoll k true s from rfl]
  unfold execHeartbeatPoll
  rw [if_pos (by rw [h, decide_eq_true hk]; rfl)]; rfl

/-- The state that a missed poll leaves, before its cluster is found to have failed. -/
def State.missPoll (s : State) (k : Nat) : State := { s with pw := { s.pw with missed := tabSet s.pw.missed k (tabGet s.pw.missed k + 1) } }

theorem exec_heartbeatPoll_secondMiss {s : State} {k : Nat} (h : s.inService = true) (hk : k < 768) (hp : s.pw.point k ≠ 4)
    (hm : tabGet s.pw.missed k = 1) : exec (.heartbeatPoll k false) s = .next ((s.missPoll k).detect (clusterCols [k]) 4 true) := by
  rw [show exec (.heartbeatPoll k false) s = execHeartbeatPoll k false s from rfl]
  unfold execHeartbeatPoll
  rw [if_pos (by rw [h, decide_eq_true hk]; rfl), if_neg (by simpa using hp)]
  dsimp only
  rw [if_pos (by rw [hm])]; rfl

/-! ## Module loss (R13, R114, R126) -/

theorem tabGet_map_self {α : Type} [Inhabited α] (f : Nat → α) {l : List Nat} {c : Nat} (h : c ∈ l) : tabGet (l.map fun c => (c, f c)) c = f c := by
  induction l with
  | nil => cases h
  | cons a l ih =>
    rw [List.map_cons, tabGet_cons]
    split
    · next hac => rw [hac]
    · next hac =>
      rcases List.mem_cons.mp h with rfl | h
      · exact absurd rfl hac
      · exact ih h

theorem State.cmap_moduleLoss (s : State) (first cause : Nat) : (s.moduleLoss first cause).tabs.cmap =
    (List.range nCols).map fun c => (c, some { (s.postEvent 10 first (3 + at_ cause 4)).fold c with st := 3 }) := by
  unfold State.moduleLoss; dsimp only

/-- In a lost module every column map entry is lost. -/
theorem State.fold_moduleLoss (s : State) (first cause : Nat) {c : Nat} (hc : c < nCols) : ((s.moduleLoss first cause).fold c).st = 3 := by
  have hm : tabGet (s.moduleLoss first cause).tabs.cmap c =
      some { (s.postEvent 10 first (3 + at_ cause 4)).fold c with st := 3 } :=
    (congrArg (tabGet · c) (s.cmap_moduleLoss first cause)).trans (tabGet_map_self _ (List.mem_range.mpr hc))
  unfold State.fold; rw [hm]

theorem State.mem_moduleLoss (s : State) (first cause : Nat) : (s.moduleLoss first cause).mem = s.mem := by
  unfold State.moduleLoss; dsimp only; rw [State.postEvent_keeps]

theorem State.sch_moduleLoss (s : State) (first cause : Nat) : (s.moduleLoss first cause).sch = s.sch := by
  unfold State.moduleLoss; dsimp only; rw [State.postEvent_keeps]

theorem tabGet_tabClear {α : Type} [Inhabited α] (t : Tab α) (lo n k : Nat) :
    tabGet (tabClear t lo n) k = if lo ≤ k ∧ k < lo + n then default else tabGet t k := by
  unfold tabClear
  induction t with
  | nil => exact (ite_self _).symm
  | cons e t ih =>
    obtain ⟨k', v⟩ := e
    rw [List.filter_cons, tabGet_cons]
    split
    · next hout =>
      have hout : k' < lo ∨ lo + n ≤ k' := by simpa using hout
      rw [tabGet_cons, ih]
      by_cases hk : k' = k
      · rw [if_pos hk, if_neg (by omega), if_pos hk]
      · rw [if_neg hk, if_neg hk]
    · next hin =>
      have hin : lo ≤ k' ∧ k' < lo + n := by simpa using hin
      rw [ih]
      by_cases hk : k' = k
      · rw [if_pos (hk ▸ hin), if_pos (hk ▸ hin)]
      · rw [if_neg hk]

theorem State.read_clearMem (s : State) (key n a : Nat) :
    Memory.read (s.clearMem key n).mem a = if key ≤ a ∧ a < key + n then 0 else Memory.read s.mem a :=
  tabGet_tabClear s.mem key n a

/-- The second-tier slices of some columns emptied. -/
def State.clearTiers (s : State) (cs : List Nat) : State :=
  cs.foldl (fun s c => s.clearMem (Place.addr ⟨c, true, 0⟩) (2 ^ 27)) s

theorem State.read_clearTiers {cs : List Nat} {s : State} {c o : Nat} (hc : c ∈ cs) (ho : o < 2 ^ 27) :
    Memory.read (s.clearTiers cs).mem (⟨c, true, o⟩ : Place).addr = 0 := by
  have keeps (t : State) (d : Nat) (h : Memory.read t.mem (⟨c, true, o⟩ : Place).addr = 0) :
      Memory.read (t.clearMem (Place.addr ⟨d, true, 0⟩) (2 ^ 27)).mem (⟨c, true, o⟩ : Place).addr = 0 := by
    rw [State.read_clearMem, h, ite_self]
  unfold State.clearTiers
  induction cs generalizing s with
  | nil => cases hc
  | cons a cs ih =>
    rcases List.mem_cons.mp hc with rfl | hc
    · refine foldl_keeps (fun t : State => Memory.read t.mem (⟨c, true, o⟩ : Place).addr = 0) _ keeps cs _ ?_
      rw [State.read_clearMem]
      refine if_pos ?_
      unfold Place.addr; dsimp only
      rw [if_pos rfl]; omega
    · exact ih hc

/-- The columns that a second-tier channel serves: those of the eight clusters of one row of its die (R12). -/
def channelCols (ch : Nat) : List Nat := clusterCols ((List.range 8).map fun x => 64 * (ch / 8) + 8 * (ch % 8) + x)

theorem mem_channelCols {ch c : Nat} (h : clusterOf c / 8 = 8 * (ch / 8) + ch % 8) : c ∈ channelCols ch :=
  mem_clusterCols.mpr (List.mem_map.mpr ⟨clusterOf c % 8, List.mem_range.mpr (by omega), by omega⟩)

theorem exec_secondTierChannelDown {s : State} {ch : Nat} (h : s.inService = true) (hc : ch < 96) : ∃ first,
    exec (.secondTierChannelDown ch) s = .next (((s.detect (channelCols ch) 5 true).clearTiers (channelCols ch)).moduleLoss first 5) := by
  rw [show exec (.secondTierChannelDown ch) s = execSecondTierChannelDown ch s from rfl]
  unfold execSecondTierChannelDown
  rw [if_pos (by rw [h, decide_eq_true hc]; rfl)]
  exact ⟨_, rfl⟩

/-! ## Contain (R122) -/

/-- The current context's launches, groups and operations ended, its packets dropped. -/
def State.endCurrent (s : State) : State :=
  match s.current with
  | none => s
  | some ctx =>
    let cols := s.groupList.flatMap fun (g : Nat × Group) => if g.2.ctx == ctx && g.2.phase == GPhase.running then g.2.cols else []
    (s.dropArriving cols).discardContext ctx 4 1 (fun q => (s.lq ctx q).accepted) s.sch.collNum

theorem State.standing_endCurrent (s : State) : s.endCurrent.standing = s.standing := by
  unfold State.endCurrent; split
  · rfl
  · exact State.standing_discardContext _ _ _ _ _ _

/-- No group of the current context is left. -/
theorem State.group_endCurrent {s : State} {ctx g : Nat} {gr : Group} (hc : s.current = some ctx) (hg : s.endCurrent.group g = some gr) :
    gr.ctx ≠ ctx := by
  intro hx
  unfold State.endCurrent at hg; rw [hc] at hg; dsimp only at hg
  generalize (s.groupList.flatMap fun (g : Nat × Group) => if g.2.ctx == ctx && g.2.phase == GPhase.running then g.2.cols else []) = cols at hg
  obtain ⟨recs, hl, -⟩ := (s.dropArriving cols).discardContext_spec ctx 4 1 (fun q => (s.lq ctx q).accepted) s.sch.collNum
  unfold State.group at hg
  generalize (s.dropArriving cols).discardContext ctx 4 1 (fun q => (s.lq ctx q).accepted) s.sch.collNum = d at hg hl
  rw [show d.sch.groups = _ from congrArg Ledger.groups hl] at hg
  obtain ⟨hs, hne⟩ := tabGet_clearGroups hg
  exact hne (g, gr) (List.mem_filter.mpr ⟨State.mem_groupList hs, beq_iff_eq.mpr hx⟩) rfl

theorem State.groups_writeBackAll (s : State) : s.writeBackAll.sch.groups = s.sch.groups :=
  State.groups_of_ledger (State.ledger_foldl (fun (s : State) (b : Nat) => s.cleanBlock (placeOf (256 * b)))
    (fun t _ => t.ledger_cleanBlock _) s.heldBlocks s)

/-- The failure contained: the current context ended, the vaults written back. -/
def State.containedBy (s : State) (r : Recovery) : State := { s.endCurrent.writeBackAll with recov := some { r with contained := true } }

theorem State.standing_containedBy (s : State) (r : Recovery) : (s.containedBy r).standing = s.standing :=
  (State.standing_writeBackAll _).trans s.standing_endCurrent

theorem State.groups_containedBy (s : State) (r : Recovery) : (s.containedBy r).sch.groups = s.endCurrent.sch.groups := State.groups_writeBackAll _

/-- The cause of the recovery's first failed column, for its event (R125). -/
def Recovery.cause (r : Recovery) : Nat := ((r.failed.find? (·.1 == r.first)).getD (0, 4)).2

/-- How contain goes on: not in a lost module, with a module loss, or with the fold. -/
def State.afterContain (s : State) (r : Recovery) : State :=
  if s.boot.st = 7 then { s with recov := none }
  else if r.lost || (s.foldPlan r.failed).isNone then { s.moduleLoss r.first r.cause with recov := none }
  else s.postEvent 10 r.first (1 + at_ r.cause 4)

theorem exec_contain {s : State} {r : Recovery} (hr : s.recov = some r) (hc : r.contained = false) (hw : s.sch.sw = none) (hq : s.sch.cuts = []) :
    exec .contain s = .next ((s.containedBy r).afterContain r) := by
  rw [show exec .contain s = execContain s from rfl]
  unfold execContain; rw [hr]
  refine (if_neg (by rw [hc, hw, hq]; exact Bool.false_ne_true)).trans ?_
  extract_lets s1 s2 s3 cause
  have hu : s.containedBy r = s3 := rfl
  rw [hu]; unfold State.afterContain
  by_cases h7 : s3.boot.st = 7
  · rw [if_pos h7, if_pos h7]
  · rw [if_neg h7, if_neg h7, apply_ite Host.Outcome.next]; rfl

theorem State.afterContain_lost {s : State} {r : Recovery} (h7 : s.boot.st ≠ 7) (h : r.lost = true ∨ s.foldPlan r.failed = none) :
    s.afterContain r = { s.moduleLoss r.first r.cause with recov := none } := by
  unfold State.afterContain
  rw [if_neg h7, if_pos]
  rcases h with h | h
  · rw [h]; rfl
  · rw [h, Option.isNone_none, Bool.or_true]

theorem State.afterContain_folds {s : State} {r : Recovery} (h7 : s.boot.st ≠ 7) (hl : r.lost = false) (h : (s.foldPlan r.failed).isSome = true) :
    s.afterContain r = s.postEvent 10 r.first (1 + at_ r.cause 4) := by
  unfold State.afterContain
  rw [if_neg h7, if_neg]
  rw [hl, Bool.false_or, Option.isNone_iff_eq_none]
  exact Option.isSome_iff_ne_none.mp h

theorem State.groups_afterContain (s : State) (r : Recovery) : (s.afterContain r).sch.groups = s.sch.groups := by
  unfold State.afterContain; split
  · rfl
  · split
    · exact congrArg Sched.groups (s.sch_moduleLoss _ _)
    · exact State.groups_of_ledger (s.ledger_postEvent _ _ _)

/-- A contained failure stops the scheduler: the recovery is contained, or the module lost. -/
theorem State.schedules_afterContain {s : State} {r : Recovery} (hr : s.recov = some { r with contained := true }) :
    (s.afterContain r).schedules = false := by
  have lost (t : State) (h : t.boot.st = 7) : t.schedules = false := by
    unfold State.schedules; rw [h, show ((7 : Nat) != 7) = false from rfl, Bool.and_false, Bool.false_and]
  unfold State.afterContain; split
  · next h7 => exact lost _ h7
  · split
    · exact lost _ rfl
    · unfold State.schedules
      rw [State.postEvent_recov, hr]
      exact Bool.and_false _

/-! ## Fold and remap (R114, R116) -/

/-- One planned entry put in the column map, with that of its host. -/
def State.putFold (s : State) (x : Nat × FoldEnt) : State :=
  let m := tabSet s.tabs.cmap x.1 (some x.2)
  let m := if x.2.host = x.1 then m else tabSet m x.2.host (some ⟨1, 0, 0, x.1⟩)
  { s with tabs := { s.tabs with cmap := m }, foldTurn := tabSet s.foldTurn x.2.host false }

theorem State.cmap_putFold_same (s : State) (x : Nat × FoldEnt) : tabGet (s.putFold x).tabs.cmap x.1 = some x.2 := by
  unfold State.putFold; dsimp only; split
  · exact tabGet_tabSet_same _ _ _
  · next hne => rw [tabGet_tabSet_ne _ _ (Ne.symm hne), tabGet_tabSet_same]

theorem State.cmap_putFold_ne (s : State) (x : Nat × FoldEnt) {k : Nat} (hk : x.1 ≠ k) (hh : x.2.host ≠ k) :
    tabGet (s.putFold x).tabs.cmap k = tabGet s.tabs.cmap k := by
  unfold State.putFold; dsimp only; split
  · exact tabGet_tabSet_ne _ _ hk.symm
  · rw [tabGet_tabSet_ne _ _ hh.symm, tabGet_tabSet_ne _ _ hk.symm]

theorem State.cmap_putFolds_ne {l : List (Nat × FoldEnt)} {k : Nat} (h : ∀ x ∈ l, x.1 ≠ k ∧ x.2.host ≠ k) (s : State) :
    tabGet (l.foldl State.putFold s).tabs.cmap k = tabGet s.tabs.cmap k := by
  induction l generalizing s with
  | nil => rfl
  | cons a l ih =>
    obtain ⟨⟨hk, hh⟩, hl⟩ := List.forall_mem_cons.mp h
    rw [List.foldl_cons, ih hl, State.cmap_putFold_ne s a hk hh]

/-- Where the folded columns are distinct and none hosts another's guest, each has its planned entry. -/
theorem State.cmap_putFolds {l : List (Nat × FoldEnt)} (hh : ∀ x ∈ l, ∀ y ∈ l, x.2.host = y.1 → x.1 = y.1) (hn : (l.map (·.1)).Nodup)
    {x : Nat × FoldEnt} (hx : x ∈ l) (s : State) : tabGet (l.foldl State.putFold s).tabs.cmap x.1 = some x.2 := by
  induction l generalizing s with
  | nil => cases hx
  | cons a l ih =>
    obtain ⟨ha, hn⟩ := List.nodup_cons.mp hn
    rw [List.foldl_cons]
    rcases List.mem_cons.mp hx with rfl | hx
    · have other (y : Nat × FoldEnt) (hy : y ∈ l) : y.1 ≠ x.1 := fun e => ha (List.mem_map.mpr ⟨y, hy, e⟩)
      rw [State.cmap_putFolds_ne fun y hy => ⟨other y hy, fun e =>
        other y hy (hh y (List.mem_cons_of_mem _ hy) x List.mem_cons_self e)⟩]
      exact s.cmap_putFold_same x
    · exact ih (fun y hy z hz => hh y (List.mem_cons_of_mem _ hy) z (List.mem_cons_of_mem _ hz)) hn hx _

/-- The fold events of a plan, and the recovery's own (R125). -/
def State.foldEvents (s : State) (plan : List (Nat × FoldEnt)) (r : Recovery) : State :=
  (plan.foldl (fun s x => s.postEvent 9 x.1 (x.2.fold + at_ x.2.cause 4 + at_ x.2.host 8)) s).postEvent 10 r.first
    (2 + at_ ((r.failed.find? (·.1 == r.first)).getD (0, 0)).2 4)

theorem State.standing_foldEvents (s : State) (plan : List (Nat × FoldEnt)) (r : Recovery) : (s.foldEvents plan r).standing = s.standing :=
  (State.standing_postEvent _ _ _ _).trans
    (State.standing_foldl (fun (s : State) (x : Nat × FoldEnt) => s.postEvent 9 x.1 (x.2.fold + at_ x.2.cause 4 + at_ x.2.host 8))
      (fun t _ => t.standing_postEvent _ _ _) plan s)

theorem exec_foldAndRemap {s : State} {r : Recovery} {plan : List (Nat × FoldEnt)} (hr : s.recov = some r) (hc : r.contained = true)
    (hp : s.foldPlan r.failed = some plan) : exec .foldAndRemap s = .next
      { (plan.foldl State.putFold (s.rehome plan)).foldEvents plan r with
        boot := { ((plan.foldl State.putFold (s.rehome plan)).foldEvents plan r).boot with st := 5 }, recov := none } := by
  rw [show exec .foldAndRemap s = execFoldAndRemap s from rfl]
  unfold execFoldAndRemap; rw [hr]; dsimp only
  rw [if_neg (by rw [hc]; exact Bool.false_ne_true), hp]; rfl

/-! ## Turns of a host and its guest (R117) -/

theorem State.Accessed.foldTurn {s t : State} (h : s.Accessed t) : t.foldTurn = s.foldTurn := (congrArg State.foldTurn h).trans rfl

theorem State.foldTurn_foldl {β : Type} (f : State → β → State) (hf : ∀ (s : State) b, (f s b).foldTurn = s.foldTurn) (l : List β) (s : State) :
    (l.foldl f s).foldTurn = s.foldTurn :=
  foldl_keeps (fun t : State => t.foldTurn = s.foldTurn) f (fun t b h => (hf t b).trans h) l s rfl

theorem State.foldTurn_tierBytes (s : State) (col off : Nat) (bs : List Byte) : (s.tierBytes col off bs).foldTurn = s.foldTurn :=
  (State.accessed_foldl (fun (s : State) (i : Nat) => s.storeByte col true (off + i) (bs.getD i 0))
    (fun t _ => t.accessed_storeByte _ _ _ _) (List.range bs.length) s).foldTurn

theorem State.foldTurn_imageOut (s : State) (col off core a n : Nat) : (s.imageOut col off core a n).foldTurn = s.foldTurn := by
  unfold State.imageOut; dsimp only
  exact (State.foldTurn_foldl _ (fun _ _ => by rfl) _ _).trans (s.foldTurn_tierBytes _ _ _)

theorem State.foldTurn_touchTier (s : State) (col off n : Nat) : (s.touchTier col off n).foldTurn = s.foldTurn := by
  unfold State.touchTier; split
  · rfl
  · exact (State.accessed_foldl _ (fun t _ => t.accessed_touchLine _ _) _ s).foldTurn

theorem State.foldTurn_imageErrors (s : State) (col off core a n : Nat) : (s.imageErrors col off core a n).foldTurn = s.foldTurn := by
  unfold State.imageErrors; dsimp only
  exact (State.foldTurn_foldl _ (fun _ _ => by rfl) _ _).trans (s.foldTurn_touchTier _ _ _)

theorem State.foldTurn_saveColumn (s : State) (ctx col : Nat) (h : KHdr) (how : Nat) : (s.saveColumn ctx col h how).foldTurn = s.foldTurn := by
  have parts (l : List (Nat × List Byte)) (o : Nat) : (l.foldl (fun (s : State) p => s.tierBytes col (o + p.1) p.2) s).foldTurn = s.foldTurn :=
    State.foldTurn_foldl _ (fun t p => t.foldTurn_tierBytes _ _ _) _ _
  unfold State.saveColumn; dsimp only; split
  · exact parts _ _
  · exact (State.foldTurn_imageOut _ _ _ _ _ _).trans (parts _ _)

theorem State.foldTurn_leaveTurn (s : State) (col : Nat) : (s.leaveTurn col).foldTurn = s.foldTurn := by
  unfold State.leaveTurn; split
  · rfl
  · exact State.foldTurn_saveColumn _ _ _ _ _

theorem State.foldTurn_enterTurn (s : State) (col : Nat) : (s.enterTurn col).foldTurn = s.foldTurn := by
  unfold State.enterTurn; split
  · rfl
  · exact (State.foldTurn_imageErrors _ _ _ _ _ _).trans (s.foldTurn_touchTier _ _ _)

/-- A host and its guest change turns: the images of one written, those of the other taken back. -/
def State.swapTurn (s : State) (h leaves enters : Nat) : State :=
  let s := (s.leaveTurn leaves).enterTurn enters
  { s with foldTurn := tabSet s.foldTurn h (!tabGet s.foldTurn h) }

theorem State.turn_swapTurn (s : State) (h leaves enters : Nat) : tabGet (s.swapTurn h leaves enters).foldTurn h = !tabGet s.foldTurn h := by
  have hk : ((s.leaveTurn leaves).enterTurn enters).foldTurn = s.foldTurn :=
    (State.foldTurn_enterTurn _ _).trans (s.foldTurn_leaveTurn _)
  unfold State.swapTurn; dsimp only
  rw [hk, tabGet_tabSet_same]

/-- Outside a core fold one column changes turns, once no task of the column that leaves runs. -/
theorem exec_foldTurn {s : State} {h : Nat} (h1 : (s.fold h).st = 1) (h5 : s.boot.st = 5) (hf : (s.fold (s.fold h).host).fold ≠ 3)
    (hm : ∀ e ∈ s.mintq, ∀ m ∈ e.2, m.running = true → m.col ≠ if tabGet s.foldTurn h then (s.fold h).host else h) :
    exec (.foldTurn h) s = .next (s.swapTurn h (if tabGet s.foldTurn h then (s.fold h).host else h)
      (if tabGet s.foldTurn h then h else (s.fold h).host)) := by
  have hset : s.turnSet h = [h] := if_neg hf
  have hcore : ((s.fold (s.fold h).host).fold == 3) = false := beq_eq_false_iff_ne.mpr hf
  rw [show exec (.foldTurn h) s = execFoldTurn h s from rfl]
  unfold execFoldTurn
  rw [if_neg (by rw [h1, h5]; decide), hset, hcore]
  dsimp only [List.map_cons, List.map_nil, List.foldl_cons, List.foldl_nil]
  rw [if_neg]
  · rfl
  · intro hany
    obtain ⟨e, he, hand⟩ := List.any_eq_true.mp hany
    obtain ⟨m, hmem, hrun⟩ := List.any_eq_true.mp (Bool.and_eq_true_iff.mp hand).2
    obtain ⟨hr, hl⟩ := Bool.and_eq_true_iff.mp hrun
    exact hm e he m hmem hr (List.mem_singleton.mp (List.contains_iff_mem.mp ((Bool.false_or _).symm.trans hl)))

/-! ## The obligation O9 -/

/-- Settles O9: a failure's column is named in the recovery and its logical columns stop; contain, fold and turn are each an equation of `exec`, and
what ends a context leaves the STATE and the column map by which contain decides. -/
theorem failuresAndRecovery : Obligations.FailuresAndRecovery := by
  unfold Obligations.FailuresAndRecovery
  refine ⟨fun s c h hc hr => ?_, fun s c h hc hr => ?_, fun s k c h hk hc hr => ?_, fun s n c h hn hc _ hr => ?_, fun s c h hc hb hr => ?_,
    fun s ch h hc => ?_, fun s k h hk => ?_, fun s k h hk hp hm => ?_, fun s c h hc hw => ?_, fun s r hr hc hw hq => ?_,
    fun s r plan hr hc hp hh hn => ?_, fun s h h1 h5 hf hm => ?_⟩
  · obtain ⟨r, hst, hrec, hm, hcon, hmem⟩ := State.detect_names (List.mem_singleton_self c) hr 1 false
    exact ⟨_, r, exec_logicCheckerError h hc false, hst, hrec, hm, hcon, hmem,
      fun g hg hsome => State.detect_freezes (List.mem_singleton_self c) hg hsome 1 false⟩
  · have hm := State.mem_failing (mem_coreCols rfl) hr 1
    obtain ⟨hst, -, hrec⟩ := State.detect_starts (lost := false) (.inl (List.ne_nil_of_mem hm))
    exact ⟨_, _, exec_logicCheckerError h hc true, hst, hrec,
      fun d hd hdr => Recovery.mem_joined (State.mem_failing (mem_coreCols hd) hdr 1) _ _ _⟩
  · exact sliceFailure_names h ⟨hk, rfl⟩ (mem_clusterCols.mpr (List.mem_singleton.mpr hc)) hr
  · exact sliceFailure_names h ⟨hn, rfl⟩ (mem_clusterCols.mpr (mem_stackClusters hc)) hr
  · exact sliceFailure_names h ⟨⟨hc, hb⟩, rfl⟩ (List.mem_singleton_self c) hr
  · obtain ⟨first, he⟩ := exec_secondTierChannelDown h hc
    refine ⟨_, he, rfl, rfl, fun c hc => State.fold_moduleLoss _ _ _ hc, fun c o hcl ho => ?_⟩
    rw [State.mem_moduleLoss]
    exact State.read_clearTiers (mem_channelCols hcl) ho
  · exact ⟨_, exec_heartbeatPoll_answered h hk, rfl, tabGet_tabSet_same s.pw.missed k 0⟩
  · obtain ⟨hst, -, hrec⟩ := State.detect_starts (s := s.missPoll k) (cols := clusterCols [k]) (cause := 4) (lost := true) (.inr rfl)
    exact ⟨_, _, exec_heartbeatPoll_secondMiss h hk hp hm, hst, hrec, Recovery.lost_joined _ _ _⟩
  · have hr : s.runsOn c ≠ [] := fun e => by rw [e] at hw; cases hw
    obtain ⟨r, hst, hrec, hm, -, -⟩ := State.detect_names (List.mem_singleton_self c) hr 3 false
    exact ⟨_, r, exec_watchdogExpiry h hc hw, hst, hrec, hm⟩
  · have hstand := s.standing_containedBy r
    have hst := State.st_of_standing hstand
    have hplan := State.foldPlan_of_cmap (State.cmap_of_standing hstand) r.failed
    refine ⟨_, exec_contain hr hc hw hq, State.schedules_afterContain rfl, fun ctx g gr hcur hg => ?_, fun h7 hl hsome => ?_, fun h7 hlost => ?_⟩
    · refine State.group_endCurrent hcur (g := g) ?_
      unfold State.group at hg ⊢
      rwa [State.groups_afterContain, State.groups_containedBy] at hg
    · rw [State.afterContain_folds (hst.trans_ne h7) hl ((congrArg Option.isSome hplan).trans hsome), State.postEvent_recov]; rfl
    · rw [State.afterContain_lost (hst.trans_ne h7) (hlost.imp_right hplan.trans)]
      exact ⟨rfl, rfl⟩
  · refine ⟨_, exec_foldAndRemap hr hc hp, rfl, rfl, fun x hx => ?_⟩
    have hcm := State.cmap_of_standing ((plan.foldl State.putFold (s.rehome plan)).standing_foldEvents plan r)
    unfold State.fold; dsimp only
    rw [hcm, State.cmap_putFolds hh hn hx]
  · exact ⟨_, exec_foldTurn h1 h5 hf hm, State.turn_swapTurn _ _ _ _⟩

end Sys2Proof.Machine

/-!
SUPPORT. Fields that check 6 lets pass (R152, R256, R269), and words with a carry or a division (R314, R316): the obligation O17.
-/

namespace Sys2Proof.Machine

/-! ## Fields that check 6 lets pass -/

theorem firstOf_eq_none {α : Type} {l : List (Option α)} : firstOf l = none ↔ ∀ o ∈ l, o = none := by
  induction l with
  | nil => simp [firstOf]
  | cons o l ih => cases o <;> simp [firstOf, ih]

section
variable {h : KHdr} {w : Full} {f : Fmt}

theorem checkD_of_check6 (hc : check6 h w f = none) : checkOpnd h f.d w.d = none := by
  unfold check6 at hc
  exact firstOf_eq_none.mp hc _ (by simp)

theorem checkA_of_check6 (hc : check6 h w f = none) : checkOpnd h f.a w.a = none := by
  unfold check6 at hc
  exact firstOf_eq_none.mp hc _ (by simp)

/-- The instruction takes the word's form. -/
theorem form_of_check6 (hc : check6 h w f = none) : (if isImm w then f.i else f.r) = true := by
  unfold check6 at hc
  have hf := firstOf_eq_none.mp hc (if (if isImm w then f.i else f.r) then none else some (0, 3)) (by simp)
  by_contra hn
  rw [if_neg hn] at hf; cases hf

/-- Nothing is wrong with the remaining fields. -/
theorem more_of_check6 (hc : check6 h w f = none) : f.more = none := by
  have hok := form_of_check6 hc
  unfold check6 at hc
  have hm := firstOf_eq_none.mp hc (if (if isImm w then f.i else f.r) then f.more else none) (by simp)
  rwa [if_pos hok] at hm

theorem checkB_of_check6 (hc : check6 h w f = none) (hi : isImm w = false) : checkOpnd h f.b (opB w) = none := by
  unfold check6 at hc
  have hb := firstOf_eq_none.mp hc (if isImm w then none else checkOpnd h f.b (opB w)) (by simp)
  rwa [hi, if_neg Bool.false_ne_true] at hb

theorem checkC_of_check6 (hc : check6 h w f = none) (hi : isImm w = false) : checkOpnd h f.c (opC w) = none := by
  unfold check6 at hc
  have hb := firstOf_eq_none.mp hc (if isImm w then none else checkOpnd h f.c (opC w)) (by simp)
  rwa [hi, if_neg Bool.false_ne_true] at hb

/-- An operand that a field accepts is of one of its classes. -/
theorem opndKind_of_checkOpnd {fl : Fld} {o : Opnd} (hc : checkOpnd h fl o = none) (hk : fl.ks ≠ []) : ∃ kd ∈ fl.ks, opndKind o = some kd := by
  unfold checkOpnd at hc
  rw [if_neg hk] at hc
  cases ho : opndKind o with
  | none => rw [ho] at hc; cases hc
  | some kd =>
    rw [ho] at hc; dsimp only at hc
    refine ⟨kd, ?_, rfl⟩
    by_contra hn
    have hcond : (!fl.ks.contains kd) = true := by simpa using hn
    rw [if_pos hcond] at hc; cases hc

/-- Where only one class is accepted, the operand is of it. -/
theorem opndKind_of_one {fl : Fld} {o : Opnd} {kd : OKind} (hc : checkOpnd h fl o = none) (hk : fl.ks = [kd]) : opndKind o = some kd := by
  obtain ⟨k, hm, ho⟩ := opndKind_of_checkOpnd hc (by rw [hk]; simp)
  rw [hk, List.mem_singleton] at hm
  rw [ho, hm]

end

/-- The operand of a class is a register of it. -/
theorem eq_v_of_kind {o : Opnd} (h : opndKind o = some .v) : ∃ m, o = .v m := by
  cases o with
  | v m => exact ⟨m, rfl⟩
  | _ => cases h

theorem eq_s_of_kind {o : Opnd} (h : opndKind o = some .s) : ∃ m, o = .s m := by
  cases o with
  | s m => exact ⟨m, rfl⟩
  | _ => cases h

theorem State.Clears.check6 {s : State} {col k : Nat} {w : Full} {f : KHdr → Full → Fmt} {pts : Ctx → List Pt} (h : s.Clears col k w f pts) :
    check6 (s.hdr col) w (f (s.hdr col) w) = none := Ctx.check6_of_clear h

/-! ## Wrapped integers (R210) -/

theorem two_pow_cast (w : Nat) : ((2 ^ w : Nat) : Int) = 2 ^ w := by push_cast; rfl

/-- Reduction modulo 2^w is what an exact result becomes within w bits. -/
theorem fits_wrapW (w : Nat) (sg : Bool) (i : Int) : Fits false w sg i (wrapW w i) := by
  have hpos : (0 : Int) < ((2 ^ w : Nat) : Int) := by positivity
  have h0 := Int.emod_nonneg i hpos.ne'
  have hlt := Int.emod_lt_of_pos i hpos
  refine ⟨?_, ?_⟩
  · unfold wrapW; omega
  · unfold wrapW
    rw [if_neg Bool.false_ne_true, Int.toNat_of_nonneg h0, two_pow_cast, Int.emod_emod_of_dvd _ dvd_rfl]

/-- All ones. -/
theorem wrapW_neg_one (w : Nat) : wrapW w (-1) = 2 ^ w - 1 := by
  have hpos : 0 < 2 ^ w := by positivity
  have h : (-1 : Int) % ((2 ^ w : Nat) : Int) = ((2 ^ w : Nat) : Int) - 1 := by
    rw [Int.emod_eq_iff (by omega)]
    exact ⟨by omega, by omega, ⟨1, by ring⟩⟩
  unfold wrapW; rw [h]; omega

/-! ## Carries (R314) -/

/-- The writes of a word with a carry in some lanes. -/
def carryWrites (m : BitVec 7) (wd : Bool) (p : Nat) (val : Nat → Nat) (cout poi : Nat → Bool) (ls : List Nat) : List RWrite :=
  ls.flatMap fun l => wrOne (.v m) wd false l (val l) (poi l) ++ [RWrite.prd p l (cout l) (poi l)]

/-- A lane's result and its carry: the vector destination and the predicate, in that lane. -/
theorem Column.regs_carryWrites (m : BitVec 7) (wd : Bool) {p : Nat} (hp : p ≠ 0) (val : Nat → Nat) (cout poi : Nat → Bool) (ls : List Nat)
    (hls : ∀ l ∈ ls, l < 32) (c : Column) : c.Regs (c.applyWrites (carryWrites m wd p val cout poi ls))
      (fun n l => if l ∉ ls then none else if n = m.toNat then some (BitVec.ofNat 32 (val l), poi l)
        else if wd = true ∧ n = m.toNat + 1 then some (BitVec.ofNat 32 (val l / 2 ^ 32), poi l) else none)
      (fun _ => none) (fun n l => if n = p ∧ l ∈ ls then some (cout l, poi l) else none) := by
  induction ls generalizing c with
  | nil => exact ⟨fun n l _ => by simp [carryWrites, Column.applyWrites], fun n _ => rfl, fun n l _ => by simp [carryWrites, Column.applyWrites]⟩
  | cons a ls ih =>
    have hw : c.applyWrites (carryWrites m wd p val cout poi (a :: ls)) =
        ((c.applyWrites (wrOne (.v m) wd false a (val a) (poi a))).wrP p a (cout a) (poi a)).applyWrites (carryWrites m wd p val cout poi ls) := by
      unfold carryWrites
      rw [List.flatMap_cons, Column.applyWrites_append, Column.applyWrites_append]; rfl
    have h := ih (fun l hl => hls l (List.mem_cons_of_mem _ hl))
      ((c.applyWrites (wrOne (.v m) wd false a (val a) (poi a))).wrP p a (cout a) (poi a))
    obtain ⟨hv, hs, hpr⟩ := h
    rw [hw]
    refine ⟨fun n l hl => ?_, fun n hn => ?_, fun n l hl => ?_⟩
    · rw [hv n l hl, Column.rdV_wrP, Column.rdVp_wrP, Column.vec_wrOne _ _ _ _ _ _ _ (hls a List.mem_cons_self) _ _ hl]
      by_cases hm : l ∈ ls
      · by_cases h1 : n = m.toNat <;> by_cases h2 : n = m.toNat + 1 <;> cases wd <;> simp_all
      · by_cases hla : l = a
        · subst hla; by_cases h1 : n = m.toNat <;> by_cases h2 : n = m.toNat + 1 <;> cases wd <;> simp_all
        · simp [hm, hla]
    · obtain ⟨h1, h2, -, -⟩ := c.other_wrOne_v m wd false a (val a) (poi a) n
      rw [hs n hn, Column.rdS_wrP, Column.rdSp_wrP, h1, h2]
    · obtain ⟨-, -, h1, h2⟩ := c.other_wrOne_v m wd false a (val a) (poi a) n
      rw [hpr n l hl, Column.rdP_wrP _ _ _ _ _ _ _ hl, Column.rdPp_wrP _ _ _ _ _ _ _ hl, h1, h2]
      by_cases hn : n = p
      · by_cases hm : l ∈ ls
        · simp [hn, hm]
        · by_cases hla : l = a
          · subst hla; simp [hn, hp, hm]
          · simp [hn, hm, hla]
      · simp [hn]

/-- A fixed-latency word that writes some registers and raises no flag completes. -/
theorem State.performed_fixed {s : State} {i : Instr} {col k : Nat} (hi : s.Issues col k) (w : Full) (ws : List RWrite)
    (h : exec i s = .next (s.perform col k w.marker ((s.ctxFor col k w).fixed (ws, 0)))) :
    ∃ t, exec i s = .next t ∧ s.Performed t col k w.marker ∧ (s.col col).Keeps (t.col col) ∧ (t.col col).fpflags = (s.col col).fpflags
      ∧ ((s.col col).applyWrites ws).KeepsAll (t.col col) := by
  have ho := (s.col col).onlyRegs_applyWrites ws
  have e : (s.ctxFor col k w).fixed (ws, 0) = .go (s.setCol col ((s.col col).applyWrites ws)) none false := by
    have hz : ((s.col col).applyWrites ws).fpflags ||| (0 : FpFlags) = ((s.col col).applyWrites ws).fpflags := BitVec.or_zero
    show Eff.go (s.setCol col { (s.col col).applyWrites ws with fpflags := ((s.col col).applyWrites ws).fpflags ||| (0 : FpFlags) }) none false = _
    rw [hz]
  rw [e] at h
  unfold Column.OnlyRegs at ho
  obtain ⟨hp, hk⟩ := State.performed_setCol hi w.marker ((s.col col).applyWrites ws) ((congrArg Column.mec ho).trans rfl)
    ((congrArg Column.pool ho).trans rfl) ((congrArg Column.retired ho).trans rfl) (by rw [Column.OnlyRegs.slot ho k])
    (fun j _ => Column.OnlyRegs.slot ho j)
  refine ⟨_, h, hp, ?_, (congrArg Column.fpflags (show _ = _ from hk)).trans ((congrArg Column.fpflags ho).trans rfl), hk⟩
  generalize (s.perform col k w.marker (.go (s.setCol col ((s.col col).applyWrites ws)) none false)).col col = c2 at *
  generalize (s.col col).applyWrites ws = c1 at *
  unfold Column.Keeps
  unfold Column.KeepsAll at hk
  rw [hk]; rw [ho]

/-- A lane's sum or difference with the carry of its predicate, and the poison of all that it reads. -/
def Ctx.carrySum (x : Ctx) (f : Int → Int → Int → Int) (l : Nat) : Int :=
  f (x.ra (isWide x.w.ty) l) (x.rbi (isWide x.w.ty) l) (if (x.c.rdP (xf x.w 2 0)).getLsbD l then 1 else 0)

def Ctx.carryPois (x : Ctx) (l : Nat) : Bool :=
  x.qa (isWide x.w.ty) l || x.qb (isWide x.w.ty) l || (x.c.rdPp (xf x.w 2 0)).getLsbD l

theorem Ctx.carry_eq (x : Ctx) {m : BitVec 7} (hd : x.w.d = .v m) (f : Int → Int → Int → Int) :
    x.carry f = x.fixed (carryWrites m (isWide x.w.ty) (xf x.w 2 0) (fun l => wrapW (elemBits x.w.ty) (x.carrySum f l))
      (fun l => decide (x.carrySum f l < 0 ∨ ((2 ^ elemBits x.w.ty : Nat) : Int) ≤ x.carrySum f l)) x.carryPois (lanesOf x.en), 0) := by
  unfold Ctx.carry carryWrites
  rw [hd]; rfl

/-- A vector destination in terms of the enabled lanes. -/
theorem vecDest_v (m : BitVec 7) (wide : Bool) (en : Mask) (val : Nat → Nat) (poi : Nat → Bool) (n : Nat) {l : Nat} (hl : l < 32) :
    vecDest (.v m) wide en val poi n l = if l ∉ lanesOf en then none else if n = m.toNat then some (BitVec.ofNat 32 (val l), poi l)
      else if wide = true ∧ n = m.toNat + 1 then some (BitVec.ofNat 32 (val l / 2 ^ 32), poi l) else none := by
  unfold vecDest; dsimp only
  cases he : en.getLsbD l with
  | false => rw [if_pos rfl, if_pos fun h => by rw [(mem_lanesOf.mp h).2] at he; cases he]
  | true => rw [if_neg (by decide), if_neg (not_not.mpr (mem_lanesOf.mpr ⟨hl, he⟩))]

/-- IADDC and ISUBB, by the writes of the lanes' results and carries. -/
theorem State.carries_of_exec {s : State} {i : Instr} {col k : Nat} {w : Full} (hi : s.Issues col k) (hc : s.Clears col k w fmtCarry noPts)
    (f : Int → Int → Int → Int) (h : exec i s = s.word w fmtCarry noPts fun x => x.carry f) : Carries s i col k w f := by
  obtain ⟨m, hm⟩ := eq_v_of_kind (opndKind_of_one (checkD_of_check6 hc.check6) (kd := .v) rfl)
  have hp : xf w 2 0 ≠ 0 := fun h0 => by
    have hmore := more_of_check6 hc.check6
    simp [fmtCarry, h0] at hmore
  rw [State.word_clear hi.1 hc, Ctx.carry_eq _ hm] at h
  obtain ⟨t, he, hpf, hkp, hfl, hka⟩ := State.performed_fixed hi w _ h
  refine ⟨t, _, he, hpf, hkp, hfl, ?_, fun l _ => fits_wrapW _ _ _⟩
  have hr := (s.col col).regs_carryWrites m (isWide w.ty) hp (fun l => wrapW (elemBits w.ty) ((s.ctxFor col k w).carrySum f l))
    (fun l => decide ((s.ctxFor col k w).carrySum f l < 0 ∨ ((2 ^ elemBits w.ty : Nat) : Int) ≤ (s.ctxFor col k w).carrySum f l))
    (s.ctxFor col k w).carryPois (lanesOf (s.ctxFor col k w).en) (fun l hl => (mem_lanesOf.mp hl).1)
  refine (hr.after hka).congr (fun n l hl => ?_) (fun _ => rfl) (fun n l hl => ?_)
  · rw [hm]; exact (vecDest_v m _ _ (fun l => wrapW (elemBits w.ty) ((s.ctxFor col k w).carrySum f l)) (s.ctxFor col k w).carryPois n hl).symm
  · simp only [mem_lanesOf, hl, true_and, two_pow_cast]; rfl

/-! ## Division (R316) -/

/-- IDIV and IREM complete their issue with the wrapped value of each lane. -/
theorem State.divides_of_exec {s : State} {i : Instr} {col k : Nat} {w : Full} (hi : s.Issues col k)
    (hc : s.Clears col k w (fmt2 tyZ true []) noPts) (f : Nat → Int → Int → Int)
    (h : exec i s = s.word w (fmt2 tyZ true []) noPts fun x => x.divide f) :
    s.YieldsLater i col k w (isWide w.ty) (w.ty == .i32)
      (fun l => wrapW (elemBits w.ty) (f (elemBits w.ty) (readInt (elemBits w.ty) (isSigned w.ty) ((s.ctxFor col k w).ra (isWide w.ty) l))
        (readInt (elemBits w.ty) (isSigned w.ty) ((s.ctxFor col k w).rbi (isWide w.ty) l))))
      (fun l => (s.ctxFor col k w).qa (isWide w.ty) l || (s.ctxFor col k w).qb (isWide w.ty) l) 0 := by
  rw [State.word_clear hi.1 hc] at h
  have hd : (∃ m, w.d = .v m) ∨ ∃ m, w.d = .s m :=
    (checkOpnd_fVS (checkD_of_check6 hc.check6)).imp_left fun ⟨m, hm, _⟩ => ⟨m, hm⟩
  have hy := State.yieldsLater_var hi w _ _ _ (fun l => wrOne_ne_nil hd _ _ _ _ _) h
  rwa [Ctx.map_flags_zero _ _ _ _ _ fun _ => rfl] at hy

/-- Settles O17: the carries lane by lane, and division by what its wrapped quotient and remainder are. -/
theorem carriesAndDivision : Obligations.CarriesAndDivision := by
  unfold Obligations.CarriesAndDivision
  intro s w col k hi
  dsimp only
  refine ⟨fun hc => ⟨State.carries_of_exec hi hc _ rfl, State.carries_of_exec hi hc _ rfl⟩, fun hc => ⟨?_, ?_⟩⟩
  · refine ⟨_, State.divides_of_exec hi hc (fun _ a b => if b = 0 then -1 else Int.tdiv a b) rfl, fun l _ => ⟨fun hb => ?_, fun hb => ?_⟩⟩
    · rw [if_pos hb, wrapW_neg_one]
    · rw [if_neg hb]; exact fits_wrapW _ _ _
  · refine ⟨_, State.divides_of_exec hi hc (fun _ a b => if b = 0 then a else Int.tmod a b) rfl, fun l _ => ⟨fun hb => ?_, fun hb => ?_⟩⟩
    · rw [if_pos hb]; exact fits_wrapW _ _ _
    · rw [if_neg hb, Int.tmod_def]; exact fits_wrapW _ _ _

end Sys2Proof.Machine

/-!
SUPPORT. The Morton and Hilbert keys of SFCKEY (R434): the obligation O49.
-/

namespace Sys2Proof.Machine

/-! ## The Morton key -/

/-- The three bits of a level, x lowest. -/
def mortonDigit (x y z i : Nat) : Nat := x / 2 ^ i % 2 + 2 * (y / 2 ^ i % 2) + 4 * (z / 2 ^ i % 2)

/-- The Morton key of the levels below n. -/
def mortonUpTo (x y z : Nat) : Nat → Nat
  | 0 => 0
  | n + 1 => 2 ^ (3 * n) * mortonDigit x y z n + mortonUpTo x y z n

theorem mortonKey_eq (x y z : Nat) : mortonKey x y z = mortonUpTo x y z 21 := by
  have h : ∀ n, (List.range n).foldl (fun k i =>
      k + x / 2 ^ i % 2 * 2 ^ (3 * i) + y / 2 ^ i % 2 * 2 ^ (3 * i + 1) + z / 2 ^ i % 2 * 2 ^ (3 * i + 2)) 0 = mortonUpTo x y z n := by
    intro n
    induction n with
    | zero => rfl
    | succ n ih =>
      rw [List.range_succ, List.foldl_append, ih, List.foldl_cons, List.foldl_nil, mortonUpTo, mortonDigit]
      ring
  exact h 21

theorem mortonDigit_lt (x y z i : Nat) : mortonDigit x y z i < 8 := by unfold mortonDigit; omega

theorem mortonUpTo_lt (x y z n : Nat) : mortonUpTo x y z n < 2 ^ (3 * n) := by
  induction n with
  | zero => simp [mortonUpTo]
  | succ n ih =>
    have hd := mortonDigit_lt x y z n
    have hs : 2 ^ (3 * (n + 1)) = 2 ^ (3 * n) * 8 := by rw [Nat.mul_succ, Nat.pow_add]
    rw [mortonUpTo, hs]
    calc 2 ^ (3 * n) * mortonDigit x y z n + mortonUpTo x y z n
        < 2 ^ (3 * n) * mortonDigit x y z n + 2 ^ (3 * n) := by omega
      _ = 2 ^ (3 * n) * (mortonDigit x y z n + 1) := by ring
      _ ≤ 2 ^ (3 * n) * 8 := Nat.mul_le_mul_left _ hd

theorem mortonKey_lt (x y z : Nat) : mortonKey x y z < 2 ^ 63 := by
  rw [mortonKey_eq]; exact mortonUpTo_lt x y z 21

/-- Bit j of level i of the key is bit j of the level's digit. -/
theorem testBit_mortonUpTo (x y z : Nat) {n i j : Nat} (hi : i < n) (hj : j < 3) :
    (mortonUpTo x y z n).testBit (3 * i + j) = (mortonDigit x y z i).testBit j := by
  induction n with
  | zero => omega
  | succ n ih =>
    rw [mortonUpTo, Nat.testBit_two_pow_mul_add _ (mortonUpTo_lt x y z n)]
    by_cases hin : i = n
    · rw [hin, if_neg (by omega), Nat.add_sub_cancel_left]
    · rw [if_pos (by omega), ih (by omega)]

theorem testBit_mortonDigit (x y z i : Nat) : (mortonDigit x y z i).testBit 0 = x.testBit i
    ∧ (mortonDigit x y z i).testBit 1 = y.testBit i ∧ (mortonDigit x y z i).testBit 2 = z.testBit i := by
  have hb : ∀ v : Nat, v.testBit i = decide (v / 2 ^ i % 2 = 1) := fun v => Nat.testBit_eq_decide_div_mod_eq
  rw [hb, hb, hb, Nat.testBit_eq_decide_div_mod_eq, Nat.testBit_eq_decide_div_mod_eq, Nat.testBit_eq_decide_div_mod_eq]
  unfold mortonDigit
  refine ⟨decide_eq_decide.mpr ?_, decide_eq_decide.mpr ?_, decide_eq_decide.mpr ?_⟩ <;> omega

/-- The Morton key interleaves bits 20 to 0 of x, y and z. -/
theorem testBit_mortonKey (x y z : Nat) {i : Nat} (hi : i < 21) : (mortonKey x y z).testBit (3 * i) = x.testBit i
    ∧ (mortonKey x y z).testBit (3 * i + 1) = y.testBit i ∧ (mortonKey x y z).testBit (3 * i + 2) = z.testBit i := by
  obtain ⟨hx, hy, hz⟩ := testBit_mortonDigit x y z i
  rw [mortonKey_eq]
  exact ⟨(testBit_mortonUpTo x y z hi (j := 0) (by decide)).trans hx, (testBit_mortonUpTo x y z hi (by decide)).trans hy,
    (testBit_mortonUpTo x y z hi (by decide)).trans hz⟩

/-! ## The Hilbert key -/

theorem hilbertDigit_lt (rx ry : Bool) : hilbertDigit rx ry < 4 := by cases rx <;> cases ry <;> decide

theorem hilbertDigit_inj {rx ry rx' ry' : Bool} (h : hilbertDigit rx ry = hilbertDigit rx' ry') : rx = rx' ∧ ry = ry' := by
  revert rx ry rx' ry'; decide

/-- The point at which the levels below go on, in the quadrant (rx, ry). -/
def hilbertTurn (rx ry : Bool) (x y : Nat) : Nat × Nat :=
  if ry then (x, y) else if rx then (2 ^ 31 - 1 - y, 2 ^ 31 - 1 - x) else (y, x)

/-- One level of the Hilbert key: its digit, then the levels below at the turned point. -/
theorem hilbertGo_succ (n x y key : Nat) : hilbertGo (n + 1) x y key =
    hilbertGo n (hilbertTurn (x.testBit n) (y.testBit n) x y).1 (hilbertTurn (x.testBit n) (y.testBit n) x y).2
      (key + 4 ^ n * hilbertDigit (x.testBit n) (y.testBit n)) := by
  have h4 : 2 ^ n * 2 ^ n = 4 ^ n := by rw [← Nat.mul_pow]
  rw [hilbertGo, h4]
  unfold hilbertTurn
  cases y.testBit n <;> cases x.testBit n <;> rfl

/-- What the levels below add does not depend on the key so far, and stays below 4^n. -/
theorem hilbertGo_add (n x y key : Nat) : hilbertGo n x y key = key + hilbertGo n x y 0 := by
  induction n generalizing x y key with
  | zero => rfl
  | succ n ih => rw [hilbertGo_succ, ih, hilbertGo_succ n x y 0, ih _ _ (0 + _)]; omega

theorem hilbertGo_lt (n x y : Nat) : hilbertGo n x y 0 < 4 ^ n := by
  induction n generalizing x y with
  | zero => exact Nat.one_pos
  | succ n ih =>
    rw [hilbertGo_succ, hilbertGo_add, Nat.zero_add, Nat.pow_succ]
    have hd := hilbertDigit_lt (x.testBit n) (y.testBit n)
    calc 4 ^ n * hilbertDigit (x.testBit n) (y.testBit n) + hilbertGo n _ _ 0
        < 4 ^ n * hilbertDigit (x.testBit n) (y.testBit n) + 4 ^ n := Nat.add_lt_add_left (ih _ _) _
      _ = 4 ^ n * (hilbertDigit (x.testBit n) (y.testBit n) + 1) := by ring
      _ ≤ 4 ^ n * 4 := Nat.mul_le_mul_left _ hd

theorem hilbertTurn_lt (rx ry : Bool) {x y : Nat} (hx : x < 2 ^ 31) (hy : y < 2 ^ 31) :
    (hilbertTurn rx ry x y).1 < 2 ^ 31 ∧ (hilbertTurn rx ry x y).2 < 2 ^ 31 := by
  unfold hilbertTurn
  cases ry <;> cases rx <;> simp only [if_true, Bool.false_eq_true, if_false] <;> constructor <;> omega

/-- Two points agree in their bits below n. -/
def SameBits (n x x' : Nat) : Prop := ∀ i, i < n → x.testBit i = x'.testBit i

/-- The complement of a coordinate has the complements of its bits. -/
theorem sameBits_complement {n x x' : Nat} (hn : n ≤ 31) (hx : x < 2 ^ 31) (hx' : x' < 2 ^ 31)
    (h : SameBits n (2 ^ 31 - 1 - x) (2 ^ 31 - 1 - x')) : SameBits n x x' := by
  intro i hi
  have hb := h i hi
  rw [Nat.sub_sub, Nat.sub_sub, Nat.add_comm 1, Nat.add_comm 1, Nat.testBit_two_pow_sub_succ hx, Nat.testBit_two_pow_sub_succ hx',
    decide_eq_true (by omega : i < 31)] at hb
  simpa using hb

/-- Points turned in one quadrant agree below only where they agreed before. -/
theorem sameBits_of_hilbertTurn {rx ry : Bool} {n x y x' y' : Nat} (hn : n ≤ 31) (hx : x < 2 ^ 31) (hy : y < 2 ^ 31) (hx' : x' < 2 ^ 31)
    (hy' : y' < 2 ^ 31) (h1 : SameBits n (hilbertTurn rx ry x y).1 (hilbertTurn rx ry x' y').1)
    (h2 : SameBits n (hilbertTurn rx ry x y).2 (hilbertTurn rx ry x' y').2) : SameBits n x x' ∧ SameBits n y y' := by
  unfold hilbertTurn at h1 h2
  cases ry with
  | true => exact ⟨h1, h2⟩
  | false =>
    cases rx with
    | true => exact ⟨sameBits_complement hn hx hx' h2, sameBits_complement hn hy hy' h1⟩
    | false => exact ⟨h2, h1⟩

theorem SameBits.succ {n x x' : Nat} (h : SameBits n x x') (hn : x.testBit n = x'.testBit n) : SameBits (n + 1) x x' := fun i hi => by
  obtain hl | rfl := Nat.lt_succ_iff_lt_or_eq.mp hi
  · exact h i hl
  · exact hn

/-- Two points with the same digits on every level below n agree in their bits below n. -/
theorem sameBits_of_hilbertGo {n : Nat} (hn : n ≤ 31) {x y x' y' : Nat} (hx : x < 2 ^ 31) (hy : y < 2 ^ 31) (hx' : x' < 2 ^ 31) (hy' : y' < 2 ^ 31)
    (h : hilbertGo n x y 0 = hilbertGo n x' y' 0) : SameBits n x x' ∧ SameBits n y y' := by
  induction n generalizing x y x' y' with
  | zero => exact ⟨fun i hi => absurd hi (Nat.not_lt_zero i), fun i hi => absurd hi (Nat.not_lt_zero i)⟩
  | succ n ih =>
    rw [hilbertGo_succ, hilbertGo_add, hilbertGo_succ n x' y', hilbertGo_add n (hilbertTurn (x'.testBit n) (y'.testBit n) x' y').1,
      Nat.zero_add, Nat.zero_add] at h
    have hlt := hilbertGo_lt n (hilbertTurn (x.testBit n) (y.testBit n) x y).1 (hilbertTurn (x.testBit n) (y.testBit n) x y).2
    have hlt' := hilbertGo_lt n (hilbertTurn (x'.testBit n) (y'.testBit n) x' y').1 (hilbertTurn (x'.testBit n) (y'.testBit n) x' y').2
    have hdig : hilbertDigit (x.testBit n) (y.testBit n) = hilbertDigit (x'.testBit n) (y'.testBit n) := by
      have := congrArg (· / 4 ^ n) h
      simpa [Nat.mul_add_div (Nat.pow_pos (n := n) (by decide : 0 < 4)), Nat.div_eq_of_lt hlt, Nat.div_eq_of_lt hlt'] using this
    obtain ⟨hrx, hry⟩ := hilbertDigit_inj hdig
    rw [hrx, hry] at h
    obtain ⟨t1, t2⟩ := hilbertTurn_lt (x'.testBit n) (y'.testBit n) hx hy
    obtain ⟨t1', t2'⟩ := hilbertTurn_lt (x'.testBit n) (y'.testBit n) hx' hy'
    obtain ⟨h1, h2⟩ := ih (by omega) t1 t2 t1' t2' (Nat.add_left_cancel h)
    obtain ⟨hsx, hsy⟩ := sameBits_of_hilbertTurn (by omega) hx hy hx' hy' h1 h2
    exact ⟨hsx.succ hrx, hsy.succ hry⟩

theorem eq_of_sameBits {n x x' : Nat} (hx : x < 2 ^ n) (hx' : x' < 2 ^ n) (h : SameBits n x x') : x = x' := by
  refine Nat.eq_of_testBit_eq fun i => ?_
  by_cases hi : i < n
  · exact h i hi
  · have hp : 2 ^ n ≤ 2 ^ i := Nat.pow_le_pow_right (by decide) (by omega)
    rw [Nat.testBit_lt_two_pow (hx.trans_le hp), Nat.testBit_lt_two_pow (hx'.trans_le hp)]

theorem hilbertKey_lt (x y : Nat) : hilbertKey x y < 2 ^ 62 := (hilbertGo_lt 31 _ _).trans_eq (by norm_num)

/-- The curve passes every point once. -/
theorem hilbertKey_inj {x y x' y' : Nat} (hx : x < 2 ^ 31) (hy : y < 2 ^ 31) (hx' : x' < 2 ^ 31) (hy' : y' < 2 ^ 31)
    (h : hilbertKey x y = hilbertKey x' y') : x = x' ∧ y = y' := by
  unfold hilbertKey at h
  rw [Nat.mod_eq_of_lt hx, Nat.mod_eq_of_lt hy, Nat.mod_eq_of_lt hx', Nat.mod_eq_of_lt hy'] at h
  obtain ⟨h1, h2⟩ := sameBits_of_hilbertGo le_rfl hx hy hx' hy' h
  exact ⟨eq_of_sameBits hx hx' h1, eq_of_sameBits hy hy' h2⟩

/-! ## The word -/

theorem State.yields_sfckey {s : State} {w : Full} {col k : Nat} (hi : s.Issues col k) (hc : s.Clears col k w fmtSfckey fun x =>
    [x.pt x.w.a false 8, x.pt (opB x.w) false 8] ++ if xb w 0 then [] else [x.pt (opC x.w) false 8]) :
    s.Yields (.sfckey w) col k w true false (fun l => curveKey (xb w 0) ((s.ctxFor col k w).ra false l) ((s.ctxFor col k w).rb false l)
      ((s.ctxFor col k w).rc false l)) (fun _ => false) 0 := by
  have hy := State.yields_fixed (i := .sfckey w) hi w true false (fun l => (curveKey (xb w 0) ((s.ctxFor col k w).ra false l)
    ((s.ctxFor col k w).rb false l) ((s.ctxFor col k w).rc false l), false, 0)) (State.word_clear hi.1 hc _)
  rwa [Ctx.map_flags_zero _ _ _ _ _ fun _ => rfl] at hy

theorem curveKey_morton (x y z : Nat) : curveKey false x y z = mortonKey x y z := if_neg Bool.false_ne_true

theorem curveKey_hilbert (x y z : Nat) : curveKey true x y z = hilbertKey x y := if_pos rfl

/-- Settles O49: the keys by their digits, level by level. -/
theorem curveKeys : Obligations.CurveKeys := by
  unfold Obligations.CurveKeys
  simp only [curveKey_morton, curveKey_hilbert]
  exact ⟨fun s w col k hi hc => State.yields_sfckey hi hc, fun x y z => ⟨mortonKey_lt x y z, fun i hi => testBit_mortonKey x y z hi⟩,
    fun x y z x' y' z' => ⟨hilbertKey_lt x y, hilbertKey_inj⟩⟩

end Sys2Proof.Machine

/-!
SUPPORT. Where lanes stand (R130 to R134, R142): what the operations on splits and pool leave standing where it stood, and the ends of a run (R136).
-/

namespace Sys2Proof.Machine

/-! ## Lanes of a column -/

/-- Every lane stands where it stood. -/
def Column.StaysPut (c c' : Column) : Prop := ∀ l pc, l < 32 → c.LaneAt l pc → c'.LaneAt l pc

theorem Column.StaysPut.refl (c : Column) : c.StaysPut c := fun _ _ _ h => h

theorem Column.StaysPut.trans {a b c : Column} (h : a.StaysPut b) (h' : b.StaysPut c) : a.StaysPut c := fun l pc hl ha => h' l pc hl (h l pc hl ha)

/-- The lanes of slot k go where f says, every other lane stands where it stood. -/
def Column.LanesGo (c c' : Column) (k : Nat) (f : Nat → DWord) : Prop :=
  ∀ l, l < 32 → ((c.slot k).mask.getLsbD l = true → c'.LaneAt l (f l))
    ∧ ∀ pc, (c.slot k).mask.getLsbD l = false → c.LaneAt l pc → c'.LaneAt l pc

theorem Column.LanesGo.stays {a b c : Column} {k : Nat} {f : Nat → DWord} (h : a.LanesGo b k f) (h' : b.StaysPut c) : a.LanesGo c k f :=
  fun l hl => ⟨fun hm => h' l _ hl ((h l hl).1 hm), fun pc hm hp => h' l pc hl ((h l hl).2 pc hm hp)⟩

theorem Column.laneAt_of_pool {c : Column} {e : PoolLane} (h : e ∈ c.pool) : c.LaneAt e.lane e.pc := .inr ⟨e, h, rfl, rfl⟩

/-- Where a lane stands depends on slots and pool alone. -/
theorem Column.staysPut_of_eq {c c' : Column} (hs : c'.slots = c.slots) (hp : c'.pool = c.pool) : c.StaysPut c' := by
  have hslot : ∀ k, c'.slot k = c.slot k := fun k => by unfold Column.slot; rw [hs]
  intro l pc _ h
  unfold Column.LaneAt at h ⊢
  simp only [hslot, hp]; exact h

/-- A slot is written: the lanes that were not in it stand where they stood. -/
theorem Column.laneAt_setSlot_other {c : Column} {k l : Nat} {pc : DWord} (sp : Split) (hm : (c.slot k).mask.getLsbD l = false) (h : c.LaneAt l pc) :
    (c.setSlot k sp).LaneAt l pc := by
  rcases h with ⟨j, hj, hpc⟩ | h
  · have hjk : j ≠ k := fun e => by rw [e, hm] at hj; cases hj
    have hs : (c.setSlot k sp).slot j = c.slot j := by rw [Column.slot_setSlot, if_neg hjk]
    exact .inl ⟨j, by rw [hs]; exact hj, by rw [hs]; exact hpc⟩
  · exact .inr h

theorem Column.laneAt_setSlot_same {c : Column} {k l : Nat} {sp : Split} (h : sp.mask.getLsbD l = true) : (c.setSlot k sp).LaneAt l sp.pc :=
  .inl ⟨k, by rw [Column.slot_setSlot_same]; exact h, by rw [Column.slot_setSlot_same]⟩

/-- A slot whose lanes stay in it at its PC. -/
theorem Column.staysPut_setSlot {c : Column} {k : Nat} {sp : Split} (hm : ∀ l, (c.slot k).mask.getLsbD l = true → sp.mask.getLsbD l = true)
    (hp : sp.pc = (c.slot k).pc) : c.StaysPut (c.setSlot k sp) := by
  intro l pc _ h
  by_cases hl : (c.slot k).mask.getLsbD l = true
  · rcases h with ⟨j, hj, hpc⟩ | h
    · by_cases hjk : j = k
      · subst hjk
        rw [← hpc, ← hp]; exact Column.laneAt_setSlot_same (hm l hl)
      · have hs : (c.setSlot k sp).slot j = c.slot j := by rw [Column.slot_setSlot, if_neg hjk]
        exact .inl ⟨j, by rw [hs]; exact hj, by rw [hs]; exact hpc⟩
    · exact .inr h
  · exact Column.laneAt_setSlot_other sp (by simpa using hl) h

theorem Column.staysPut_modSlot {c : Column} {k : Nat} {f : Split → Split} (hm : (f (c.slot k)).mask = (c.slot k).mask)
    (hp : (f (c.slot k)).pc = (c.slot k).pc) : c.StaysPut (c.modSlot k f) :=
  Column.staysPut_setSlot (fun l h => by rw [hm]; exact h) hp

/-- A slot that holds no lane is written. -/
theorem Column.staysPut_setSlot_free {c : Column} {k : Nat} (hm : (c.slot k).mask = 0) (sp : Split) : c.StaysPut (c.setSlot k sp) :=
  fun _ _ _ h => Column.laneAt_setSlot_other sp (by rw [hm]; exact BitVec.getLsbD_zero) h

theorem Split.mask_of_lanes_zero {sp : Split} (h : sp.lanes = 0) : sp.mask = 0 := (BitVec.or_eq_zero_iff.mp h).1

/-- A free slot holds no lane. -/
theorem Column.mask_of_free {c : Column} {k : Nat} (h : k ∈ c.freeSlots) : (c.slot k).mask = 0 := by
  unfold Column.freeSlots Column.used at h
  exact Split.mask_of_lanes_zero (by simpa using (List.mem_filter.mp h).2)

theorem mem_poolLanesAt {pool : List PoolLane} {pc : DWord} {l : Nat} (hl : l < 32) :
    (poolLanesAt pool pc).getLsbD l = true ↔ ∃ e ∈ pool, e.lane = l ∧ e.pc = pc := by
  unfold poolLanesAt
  rw [getLsbD_maskOf _ hl]; simp only [List.mem_map, List.mem_filter, beq_iff_eq]
  exact ⟨fun ⟨e, ⟨he, hp⟩, hle⟩ => ⟨e, he, hle, hp⟩, fun ⟨e, he, hle, hp⟩ => ⟨e, ⟨he, hp⟩, hle⟩⟩

/-- Another slot is written. -/
theorem Column.laneAt_setSlot_ne {c : Column} {j k l : Nat} (hjk : j ≠ k) (sp : Split) (hj : (c.slot j).mask.getLsbD l = true) :
    (c.setSlot k sp).LaneAt l (c.slot j).pc := by
  have hs : (c.setSlot k sp).slot j = c.slot j := by rw [Column.slot_setSlot, if_neg hjk]
  exact .inl ⟨j, by rw [hs]; exact hj, by rw [hs]⟩

/-- The pool lanes at a PC leave the pool for a slot at that PC that keeps its own. -/
theorem Column.staysPut_unpool {c : Column} {k : Nat} {sp : Split} (hk : c.StaysPut (c.setSlot k sp))
    (hm : ∀ l, l < 32 → (poolLanesAt c.pool sp.pc).getLsbD l = true → sp.mask.getLsbD l = true) :
    c.StaysPut { c.setSlot k sp with pool := c.pool.filter (·.pc != sp.pc) } := by
  intro l pc hl h
  rcases hk l pc hl h with h | ⟨e, he, rfl, rfl⟩
  · exact .inl h
  · by_cases hpc : e.pc = sp.pc
    · have hsl : sp.mask.getLsbD e.lane = true := hm _ hl ((mem_poolLanesAt hl).mpr ⟨e, he, rfl, hpc⟩)
      have hslot : (c.setSlot k sp).slot k = sp := Column.slot_setSlot_same c k sp
      exact .inl ⟨k, (congrArg (fun s : Split => s.mask.getLsbD e.lane) hslot).trans hsl, (congrArg Split.pc hslot).trans hpc.symm⟩
    · exact .inr ⟨e, List.mem_filter.mpr ⟨he, by simpa using hpc⟩, rfl, rfl⟩

theorem Column.staysPut_fillOne (c : Column) : c.StaysPut c.fillOne := by
  unfold Column.fillOne
  split
  · next k ks pc hf _ =>
    have hfree := Column.mask_of_free (c := c) (k := k) (by rw [hf]; exact List.mem_cons_self)
    exact Column.staysPut_unpool (sp := { pc := pc, mask := poolLanesAt c.pool pc, cond := c.restCond (poolLanesAt c.pool pc) })
      (Column.staysPut_setSlot_free hfree _) fun l _ h => h
  · exact .refl c

theorem Column.staysPut_fill (c : Column) : c.StaysPut c.fill :=
  (((staysPut_fillOne c).trans (staysPut_fillOne _)).trans (staysPut_fillOne _)).trans (staysPut_fillOne _)

theorem getLsbD_or_left {a b : Mask} {l : Nat} (h : a.getLsbD l = true) : (a ||| b).getLsbD l = true := by
  rw [BitVec.getLsbD_or, h]; rfl

theorem getLsbD_or_right {a b : Mask} {l : Nat} (h : b.getLsbD l = true) : (a ||| b).getLsbD l = true := by
  rw [BitVec.getLsbD_or, h, Bool.or_true]

theorem Column.staysPut_mergePool (c : Column) (i : Nat) : c.StaysPut (c.mergePool i) := by
  unfold Column.mergePool; dsimp only
  split
  · exact Column.staysPut_unpool (sp := { c.slot i with mask := (c.slot i).mask ||| poolLanesAt c.pool (c.slot i).pc
                                                        cond := c.restCond (poolLanesAt c.pool (c.slot i).pc), wcnt := 0 })
      (Column.staysPut_setSlot (fun _ h => getLsbD_or_left h) rfl) fun _ _ h => getLsbD_or_right h
  · exact .refl c

/-- A slot takes the lanes of another at its PC. -/
theorem Column.staysPut_join {c : Column} {i j : Nat} (hij : i ≠ j) {sp : Split} (hpc : (c.slot i).pc = (c.slot j).pc) (hsp : sp.pc = (c.slot i).pc)
    (hm : sp.mask = (c.slot i).mask ||| (c.slot j).mask) : c.StaysPut ((c.setSlot i sp).setSlot j {}) := by
  have hsi : (c.setSlot i sp).slot i = sp := Column.slot_setSlot_same c i sp
  have hi : ∀ l, sp.mask.getLsbD l = true → ((c.setSlot i sp).setSlot j {}).LaneAt l sp.pc := fun l h => by
    have hl := Column.laneAt_setSlot_ne (c := c.setSlot i sp) (l := l) hij {} (by rw [hsi]; exact h)
    rwa [hsi] at hl
  rintro l pc hl (⟨m, hmask, rfl⟩ | h)
  · by_cases hmj : m = j
    · subst hmj
      rw [← hpc, ← hsp]; exact hi l (hm ▸ getLsbD_or_right hmask)
    · by_cases hmi : m = i
      · subst hmi
        rw [← hsp]; exact hi l (hm ▸ getLsbD_or_left hmask)
      · have hsm : (c.setSlot i sp).slot m = c.slot m := by rw [Column.slot_setSlot, if_neg hmi]
        have hlm := Column.laneAt_setSlot_ne (c := c.setSlot i sp) (l := l) hmj {} (by rw [hsm]; exact hmask)
        rwa [hsm] at hlm
  · exact .inr h

/-- Two slots at one PC become one. -/
theorem Column.staysPut_mergePair (c : Column) {i j : Nat} (hij : i ≠ j) : c.StaysPut (c.mergePair i j) := by
  unfold Column.mergePair; dsimp only
  split
  · next hc =>
    have hpc : (c.slot i).pc = (c.slot j).pc := by simp only [Bool.and_eq_true, beq_iff_eq] at hc; exact hc.2
    have hput := Column.staysPut_join hij hpc (sp := { c.slot i with mask := (c.slot i).mask ||| (c.slot j).mask, wcnt := 0, cond := .ready }) rfl rfl
    split
    · exact hput.trans (Column.staysPut_of_eq rfl rfl)
    · exact hput
  · exact .refl c

theorem Column.staysPut_foldl {β : Type} (f : Column → β → Column) (l : List β) (hf : ∀ b ∈ l, ∀ c : Column, c.StaysPut (f c b)) (c : Column) :
    c.StaysPut (l.foldl f c) := by
  induction l generalizing c with
  | nil => exact .refl c
  | cons b l ih => exact (hf b List.mem_cons_self c).trans (ih (fun b hb => hf b (List.mem_cons_of_mem _ hb)) _)

theorem Column.staysPut_merge (c : Column) : c.StaysPut c.merge := by
  have hne : ∀ p ∈ ([(0, 1), (0, 2), (0, 3), (1, 2), (1, 3), (2, 3)] : List (Nat × Nat)), p.1 ≠ p.2 := by decide
  unfold Column.merge; dsimp only
  exact (Column.staysPut_foldl (fun (c : Column) (p : Nat × Nat) => c.mergePair p.1 p.2) _ (fun p hp c => c.staysPut_mergePair (hne p hp)) c).trans
    (Column.staysPut_foldl Column.mergePool slots4 (fun i _ c => c.staysPut_mergePool i) _)

theorem Column.staysPut_chooseDemote (c : Column) : c.StaysPut c.chooseDemote := by
  unfold Column.chooseDemote
  split
  · split
    · exact Column.staysPut_of_eq rfl rfl
    · exact .refl c
  · exact .refl c

theorem mem_toPool {c : Column} {m : Mask} {pc : DWord} {l : Nat} (hl : l < 32) (hm : m.getLsbD l = true) : (c.toPool m pc).LaneAt l pc :=
  Column.laneAt_of_pool (e := ⟨l, pc, c.mec⟩)
    (List.mem_append_right _ (List.mem_map.mpr ⟨l, mem_lanesOf.mpr ⟨hl, hm⟩, rfl⟩))

theorem Column.staysPut_toPool (c : Column) (m : Mask) (pc : DWord) : c.StaysPut (c.toPool m pc) := by
  rintro l pc' _ (h | ⟨e, he, h⟩)
  · exact .inl h
  · exact .inr ⟨e, List.mem_append_left _ he, h⟩

/-- The lanes of a slot enter the pool at their PC. -/
theorem Column.staysPut_intoPool (c : Column) (k : Nat) : c.StaysPut ((c.toPool (c.slot k).mask (c.slot k).pc).setSlot k {}) := by
  rintro l pc hl (⟨j, hj, rfl⟩ | ⟨e, he, h⟩)
  · by_cases hjk : j = k
    · subst hjk
      exact Column.laneAt_of_pool (c := (c.toPool (c.slot j).mask (c.slot j).pc).setSlot j {}) (e := ⟨l, (c.slot j).pc, c.mec⟩)
        (List.mem_append_right _ (List.mem_map.mpr ⟨l, mem_lanesOf.mpr ⟨hl, hj⟩, rfl⟩))
    · exact Column.laneAt_setSlot_ne (c := c.toPool (c.slot k).mask (c.slot k).pc) hjk {} hj
  · exact .inr ⟨e, List.mem_append_left _ he, h⟩

theorem Column.staysPut_demoteNow (c : Column) (k : Nat) : c.StaysPut (c.demoteNow k) := by
  unfold Column.demoteNow; dsimp only
  split
  · exact (c.staysPut_intoPool k).trans (Column.staysPut_of_eq rfl rfl)
  · exact .refl c

/-- What a marker event does after it is counted moves no lane. -/
theorem Column.staysPut_marked (c : Column) (k : Nat) : c.StaysPut (c.marked k) :=
  (((c.staysPut_demoteNow k).trans (Column.staysPut_merge _)).trans (Column.staysPut_fill _)).trans (Column.staysPut_chooseDemote _)

theorem Column.marker_eq (c : Column) (k : Nat) : c.marker k = ({ c with mec := c.mec + 1 } : Column).marked k := rfl

theorem Column.staysPut_mec (c : Column) (n : Nat) : c.StaysPut { c with mec := n } := Column.staysPut_of_eq rfl rfl

theorem Column.staysPut_marker (c : Column) (k : Nat) : c.StaysPut (c.marker k) := by
  rw [Column.marker_eq]; exact (c.staysPut_mec _).trans (Column.staysPut_marked _ k)

theorem Column.staysPut_endRun (c : Column) (k : Nat) (cond : SplitCond) : c.StaysPut (c.endRun k cond) :=
  (Column.staysPut_modSlot rfl rfl).trans (Column.staysPut_marker _ k)

theorem Column.keepsAll_marked (c : Column) (k : Nat) : c.KeepsAll (c.marked k) :=
  (((c.keepsAll_demoteNow k).trans (Column.keepsAll_merge _)).trans (Column.keepsAll_fill _)).trans (Column.keepsAll_chooseDemote _)

theorem Column.retired_marked (c : Column) (k : Nat) : (c.marked k).retired = c.retired := by
  unfold Column.marked
  rw [(Column.mec_chooseDemote _).2, (Column.mec_fill _).2, (Column.mec_merge _).2, (Column.mec_demoteNow _ k).2]

/-! ### Groups placed (R132) -/

theorem Column.keepsAll_placeGroups (c : Column) (gs : List (DWord × Mask)) : c.KeepsAll (c.placeGroups gs) :=
  Column.keepsAll_foldl _ (fun c g => by split <;> rfl) gs c

theorem Column.retired_placeGroups (c : Column) (gs : List (DWord × Mask)) : (c.placeGroups gs).retired = c.retired :=
  (Column.mec_foldl (fun (c : Column) (g : DWord × Mask) => match c.freeSlots with
    | k :: _ => c.setSlot k { pc := g.1, mask := g.2, cond := c.restCond g.2 }
    | [] => c.toPool g.2 g.1) (fun c g => by split <;> exact ⟨rfl, rfl⟩) gs c).2

/-- One group is placed, and nothing else moves. -/
theorem Column.placeGroups_cons (c : Column) (g : DWord × Mask) (gs : List (DWord × Mask)) : ∃ c', c.placeGroups (g :: gs) = c'.placeGroups gs
    ∧ c.StaysPut c' ∧ ∀ l, l < 32 → g.2.getLsbD l = true → c'.LaneAt l g.1 := by
  unfold Column.placeGroups
  rw [List.foldl_cons]
  refine ⟨_, rfl, ?_⟩
  split
  · next k ks hf =>
    exact ⟨Column.staysPut_setSlot_free (Column.mask_of_free (by rw [hf]; exact List.mem_cons_self)) _,
      fun l _ hm => Column.laneAt_setSlot_same (sp := { pc := g.1, mask := g.2, cond := c.restCond g.2 }) hm⟩
  · exact ⟨c.staysPut_toPool _ _, fun l hl hm => mem_toPool hl hm⟩

theorem Column.placeGroups_spec (gs : List (DWord × Mask)) (c : Column) : c.StaysPut (c.placeGroups gs)
    ∧ ∀ g ∈ gs, ∀ l, l < 32 → g.2.getLsbD l = true → (c.placeGroups gs).LaneAt l g.1 := by
  induction gs generalizing c with
  | nil => exact ⟨.refl c, fun g hg => absurd hg List.not_mem_nil⟩
  | cons g gs ih =>
    obtain ⟨c', he, hput, hg⟩ := c.placeGroups_cons g gs
    obtain ⟨hput', hgs⟩ := ih c'
    rw [he]
    refine ⟨hput.trans hput', fun g' hg' l hl hm => ?_⟩
    obtain rfl | hmem := List.mem_cons.mp hg'
    · exact hput' l _ hl (hg l hl hm)
    · exact hgs g' hmem l hl hm

/-! ### Words counted -/

theorem Column.staysPut_countWord (c : Column) (k : Nat) : c.StaysPut (c.countWord k) :=
  .trans (b := { c with retired := (c.retired + 1) % 2 ^ 48 }) (Column.staysPut_of_eq rfl rfl) (Column.staysPut_modSlot rfl rfl)

/-- What lanes do from the counted word on, they do from the word on. -/
theorem Column.LanesGo.of_countWord {c c' : Column} {k : Nat} {f : Nat → DWord} (h : (c.countWord k).LanesGo c' k f) : c.LanesGo c' k f := by
  intro l hl
  have hm : ((c.countWord k).slot k).mask = (c.slot k).mask := by rw [Column.slot_countWord]
  obtain ⟨h1, h2⟩ := h l hl
  rw [hm] at h1 h2
  exact ⟨h1, fun pc hn hp => h2 pc hn (c.staysPut_countWord k l pc hl hp)⟩

/-- Slot k moves to another PC. -/
theorem Column.lanesGo_setSlot (c : Column) (k : Nat) (sp : Split) (hm : sp.mask = (c.slot k).mask) : c.LanesGo (c.setSlot k sp) k fun _ => sp.pc :=
  fun _ _ => ⟨fun h => Column.laneAt_setSlot_same (hm ▸ h), fun _ hn h => Column.laneAt_setSlot_other sp hn h⟩

/-! ## Words that place their lanes -/

/-- Only a column changed, and the faults on which its split waited are gone. -/
theorem State.onlyColumn_dropFaults {s t : State} {col k : Nat} (h : s.Touches t col) (hf : t.faults = s.faults) :
    s.OnlyColumn (t.dropFaults fun f => f == .split col k) col k := by
  obtain ⟨he, hc⟩ := h
  refine ⟨?_, ?_, hc⟩
  · unfold State.dropFaults
    rw [he]
  · show t.faults.filter _ = _
    rw [hf]

theorem State.perform_placed {s : State} {col k : Nat} (h : (s.col col).stepping = false) (marker : Bool) (t : State) :
    s.perform col k marker (.placed t) = t.dropFaults fun f => f == .split col k := by
  unfold State.perform; dsimp only
  rw [h]; simp only [Bool.false_and, Bool.false_eq_true, if_false]

theorem State.advance_stop (u : State) (col k : Nat) (marker : Bool) : u.advance col k marker none true =
    (u.setCol col ((u.col col).setSlot k { (u.col col).slot k with pc := pcNext ((u.col col).slot k).pc })).endRun col k
      ((u.col col).restCond ((u.col col).slot k).mask) := rfl

/-- The run of a split ends after a word that changed only its column. -/
theorem State.onlyColumn_endRun {s u : State} {col k : Nat} (h : s.Touches u col) (hf : u.faults = s.faults.filter fun f => !(f.waiter == .split col k))
    (cond : SplitCond) : s.OnlyColumn (u.endRun col k cond) col k := by
  have ht := h.trans (u.touches_endRun col k cond)
  exact ⟨ht.1, (u.faults_endRun col k cond).trans hf, ht.2⟩

theorem State.runEnds_endRun {s u : State} {col : Nat} (h : u.cores = s.cores) (k : Nat) (cond : SplitCond) : s.RunEnds (u.endRun col k cond) col k :=
  ⟨u.run_endRun col k cond, by rw [State.cores_endRun, h]⟩

theorem State.placed_of {s t : State} {col k : Nat} {f : Nat → DWord} {c' : Column} (h : s.OnlyColumn t col k) (hcol : t.col col = c')
    (hret : c'.retired = ((s.col col).retired + 1) % 2 ^ 48) (hgo : (s.col col).LanesGo c' k f) : s.Placed t col k f :=
  ⟨h, by rw [hcol, hret], fun l hl => by rw [hcol]; exact hgo l hl⟩

/-- The column of a counted word whose split moves on. -/
def Column.wentOn (c : Column) (k : Nat) : Column :=
  (c.countWord k).setSlot k { (c.countWord k).slot k with pc := pcNext ((c.countWord k).slot k).pc }

theorem Column.keepsAll_wentOn (c : Column) (k : Nat) : c.KeepsAll (c.wentOn k) :=
  (c.keepsAll_countWord k).trans (Column.keepsAll_setSlot _ k _)

theorem Column.retired_wentOn (c : Column) (k : Nat) : (c.wentOn k).retired = (c.retired + 1) % 2 ^ 48 :=
  (Column.setSlot_retired _ k _).trans (c.retired_countWord k)

theorem Column.lanesGo_wentOn (c : Column) (k : Nat) : c.LanesGo (c.wentOn k) k fun _ => pcNext (c.slot k).pc := by
  have hgo := (c.countWord k).lanesGo_setSlot k { (c.countWord k).slot k with pc := pcNext ((c.countWord k).slot k).pc } rfl
  have hpc : ((c.countWord k).slot k).pc = (c.slot k).pc := by rw [Column.slot_countWord]
  refine Column.LanesGo.of_countWord ?_
  rw [← hpc]; exact hgo

theorem State.perform_go_stop {s : State} {col k : Nat} (hi : s.Issues col k) (marker : Bool) : ∃ cond, s.perform col k marker (.go s none true) =
    ((s.counted col k).setCol col ((s.col col).wentOn k)).endRun col k cond := by
  rw [State.perform_go hi.2.2, State.advance_stop, State.col_counted]
  exact ⟨_, rfl⟩

/-- A word that ends its run has changed only its column, and placed its lanes as the column before the run's end says. -/
theorem State.placed_endRun {s u : State} {col k : Nat} {c1 : Column} {f : Nat → DWord} (hu : s.Touches u col)
    (hf : u.faults = s.faults.filter fun f => !(f.waiter == .split col k)) (hcr : u.cores = s.cores) (hcol : u.col col = c1)
    (hret : c1.retired = ((s.col col).retired + 1) % 2 ^ 48) (hgo : (s.col col).LanesGo c1 k f) (cond : SplitCond) :
    s.Placed (u.endRun col k cond) col k f ∧ s.RunEnds (u.endRun col k cond) col k ∧ c1.KeepsAll ((u.endRun col k cond).col col) := by
  have hc := u.col_endRun col k cond
  rw [hcol] at hc
  refine ⟨State.placed_of (State.onlyColumn_endRun hu hf cond) hc ?_ (hgo.stays (Column.staysPut_endRun _ k cond)), State.runEnds_endRun hcr k cond, ?_⟩
  · rw [(Column.mec_endRun _ k cond).2, hret]
  · rw [hc]; exact Column.keepsAll_endRun _ k cond

/-- The same for a column written into the counted state. -/
theorem State.placed_setCol_endRun {s : State} {col k : Nat} {c1 : Column} {f : Nat → DWord} (hret : c1.retired = ((s.col col).retired + 1) % 2 ^ 48)
    (hgo : (s.col col).LanesGo c1 k f) (cond : SplitCond) :
    s.Placed (((s.counted col k).setCol col c1).endRun col k cond) col k f ∧ s.RunEnds (((s.counted col k).setCol col c1).endRun col k cond) col k
      ∧ c1.KeepsAll ((((s.counted col k).setCol col c1).endRun col k cond).col col) :=
  State.placed_endRun ((s.touches_counted col k).trans (State.touches_setCol _ col _)) (s.faults_counted col k) rfl (State.col_setCol_same _ _ _)
    hret hgo cond

/-- What a word answers that passes checks 6 to 8. -/
theorem State.word_answers {s : State} {w : Full} {col k : Nat} {f : KHdr → Full → Fmt} {pts : Ctx → List Pt} (hi : s.Issues col k)
    (hc : s.Clears col k w f pts) {body : Ctx → Eff} {e : Eff} (hb : body (s.ctxFor col k w) = e) :
    s.word w f pts body = .next (s.perform col k w.marker e) := by
  rw [State.word_clear hi.1 hc, hb]

/-- What a word does that ends its run: every lane of the split stands at the next word (R136). -/
def State.Ends (s : State) (i : Instr) (col k : Nat) : Prop :=
  ∃ t, exec i s = .next t ∧ s.Placed t col k (fun _ => pcNext ((s.col col).slot k).pc) ∧ s.RunEnds t col k ∧ (s.col col).KeepsAll (t.col col)

theorem State.ends_go {s : State} {i : Instr} {col k : Nat} (hi : s.Issues col k) {marker : Bool}
    (h : exec i s = .next (s.perform col k marker (.go s none true))) : s.Ends i col k := by
  obtain ⟨cond, he⟩ := State.perform_go_stop hi marker
  obtain ⟨hp, hr, hk⟩ := State.placed_setCol_endRun ((s.col col).retired_wentOn k) ((s.col col).lanesGo_wentOn k) cond
  rw [he] at h
  exact ⟨_, h, hp, hr, ((s.col col).keepsAll_wentOn k).trans hk⟩

end Sys2Proof.Machine

/-!
SUPPORT. Words that end a run with a column of their own (R136): YIELD.pool and NAP (R290, R291).
-/

namespace Sys2Proof.Machine

/-! ## Words that end a run with a column of their own -/

/-- A run's end, and the pipe freed, of a word that has written its column itself (R136). -/
theorem State.placed_endPipe {s : State} {col k : Nat} {c1 : Column} {f : Nat → DWord} (u : State) (hu : s.Touches u col) (hf : u.faults = s.faults)
    (hcr : u.cores = s.cores) (hcol : u.col col = c1) (hret : c1.retired = ((s.col col).retired + 1) % 2 ^ 48) (hgo : (s.col col).LanesGo c1 k f) :
    s.Placed ((u.endPipe col k).dropFaults fun f => f == .split col k) col k f
      ∧ s.RunEnds ((u.endPipe col k).dropFaults fun f => f == .split col k) col k := by
  have ho := State.onlyColumn_dropFaults (k := k) (hu.trans (u.touches_endPipe col k)) hf
  refine ⟨State.placed_of ho hcol hret hgo, rfl, ?_⟩
  rw [← hcr]; rfl

/-- What a word that has written its column itself answers. -/
theorem State.exec_placed {s : State} {i : Instr} {w : Full} {col k : Nat} {f : KHdr → Full → Fmt} {pts : Ctx → List Pt} (hi : s.Issues col k)
    (hc : s.Clears col k w f pts) (body : Ctx → Eff) (he : exec i s = s.word w f pts body) {t : State}
    (hb : body (s.ctxFor col k w) = .placed t) : exec i s = .next (t.dropFaults fun f => f == .split col k) := by
  rw [he, State.word_clear hi.1 hc, hb, State.perform_placed hi.2.2]

/-- A run's end after a column of its own, in a condition. -/
theorem State.placed_ownEndRun {s : State} {col k : Nat} {c1 : Column} {f : Nat → DWord} (hret : c1.retired = ((s.col col).retired + 1) % 2 ^ 48)
    (hgo : (s.col col).LanesGo c1 k f) (cond : SplitCond) :
    s.Placed (((s.setCol col c1).endRun col k cond).dropFaults fun f => f == .split col k) col k f
      ∧ s.RunEnds (((s.setCol col c1).endRun col k cond).dropFaults fun f => f == .split col k) col k
      ∧ (((s.setCol col c1).endRun col k cond).dropFaults fun f => f == .split col k).col col = c1.endRun k cond := by
  have hcol : ((s.setCol col c1).modCol col fun c => c.endRun k cond).col col = c1.endRun k cond := by
    rw [State.col_modCol_same, State.col_setCol_same]
  have h := State.placed_endPipe (k := k) ((s.setCol col c1).modCol col fun c => c.endRun k cond)
    ((s.touches_setCol col c1).trans (State.touches_modCol _ col _)) rfl rfl hcol (((c1.mec_endRun k cond).2).trans hret)
    (hgo.stays (c1.staysPut_endRun k cond))
  exact ⟨h.1, h.2, hcol⟩

/-! ## YIELD.pool and NAP (R290, R291) -/

/-- The lanes of a slot without some. -/
theorem getLsbD_without {a m : Mask} {l : Nat} (ha : a.getLsbD l = true) (hm : m.getLsbD l = false) : (a &&& ~~~m).getLsbD l = true := by
  rw [BitVec.getLsbD_and, BitVec.getLsbD_not, ha, hm, decide_eq_true (BitVec.lt_of_getLsbD ha)]; rfl

/-- A split leaves no lane behind, or goes on with the lanes that are left. -/
theorem Column.unslot_eq (c : Column) (k : Nat) (m : Mask) : ∃ d sp dm, c.unslot k m = { d.setSlot k sp with demote := dm }
    ∧ d.slots = c.slots ∧ d.pool = c.pool ∧ c.KeepsAll d ∧ d.retired = c.retired
    ∧ ((c.slot k).mask &&& ~~~m ≠ 0 → sp.mask = (c.slot k).mask &&& ~~~m ∧ sp.pc = pcNext (c.slot k).pc) := by
  unfold Column.unslot; dsimp only
  split
  · next h0 => exact ⟨{ c with mec := c.mec + 1 }, {}, _, rfl, rfl, rfl, rfl, rfl, fun h => absurd h0.1 h⟩
  · exact ⟨{ c with mec := c.mec + 1 }, _, c.demote, rfl, rfl, rfl, rfl, rfl, fun _ => ⟨rfl, rfl⟩⟩

theorem Column.keepsAll_setDemote (c : Column) (dm : Option Nat) : c.KeepsAll { c with demote := dm } := rfl

theorem Column.staysPut_setDemote (c : Column) (dm : Option Nat) : c.StaysPut { c with demote := dm } := Column.staysPut_of_eq rfl rfl

theorem Column.keepsAll_unslot (c : Column) (k : Nat) (m : Mask) : c.KeepsAll (c.unslot k m) := by
  obtain ⟨d, sp, dm, he, -, -, hk, -⟩ := c.unslot_eq k m
  rw [he]; exact (hk.trans (d.keepsAll_setSlot k sp)).trans (Column.keepsAll_setDemote _ dm)

theorem Column.retired_unslot (c : Column) (k : Nat) (m : Mask) : (c.unslot k m).retired = c.retired := by
  obtain ⟨d, sp, dm, he, -, -, -, hr, -⟩ := c.unslot_eq k m
  rw [he]; exact (d.setSlot_retired k sp).trans hr

/-- Lanes leave a slot: the others stand at the next word, and no other lane moves. -/
theorem Column.unslot_spec (c : Column) (k : Nat) (m : Mask) :
    (∀ l, l < 32 → (c.slot k).mask.getLsbD l = true → m.getLsbD l = false → (c.unslot k m).LaneAt l (pcNext (c.slot k).pc))
      ∧ ∀ l pc, l < 32 → (c.slot k).mask.getLsbD l = false → c.LaneAt l pc → (c.unslot k m).LaneAt l pc := by
  obtain ⟨d, sp, dm, he, hs, hp, -, -, hsp⟩ := c.unslot_eq k m
  have hslot : d.slot k = c.slot k := by unfold Column.slot; rw [hs]
  have hput := (d.setSlot k sp).staysPut_setDemote dm
  rw [he]
  refine ⟨fun l h32 hl hm => ?_, fun l pc h32 hl h => ?_⟩
  · have hleft := getLsbD_without hl hm
    obtain ⟨hmask, hpc⟩ := hsp fun h0 => by rw [h0] at hleft; simp at hleft
    rw [← hpc]
    exact hput l _ h32 (Column.laneAt_setSlot_same (hmask ▸ hleft))
  · exact hput l _ h32 (Column.laneAt_setSlot_other sp (hslot ▸ hl) (Column.staysPut_of_eq hs hp l pc h32 h))

/-- YIELD.pool: the enabled lanes enter the pool at the next word, the others stay in the slot at it. -/
theorem Column.yieldPool_spec (c : Column) (k : Nat) (m : Mask) : c.LanesGo (c.yieldPool k m) k (fun _ => pcNext (c.slot k).pc)
    ∧ c.KeepsAll (c.yieldPool k m) ∧ (c.yieldPool k m).retired = c.retired := by
  unfold Column.yieldPool
  set d := c.unslot k m with hd
  obtain ⟨hleft, hother⟩ := c.unslot_spec k m
  have hkeep := c.keepsAll_unslot k m
  have hret := c.retired_unslot k m
  rw [← hd] at hleft hother hkeep hret
  have hput : (d.toPool m (pcNext (c.slot k).pc)).StaysPut (((d.toPool m (pcNext (c.slot k).pc)).fill).marked k) :=
    (Column.staysPut_fill _).trans (Column.staysPut_marked _ k)
  refine ⟨Column.LanesGo.stays (fun l hl => ⟨fun hm => ?_, fun pc hm h => ?_⟩) hput, ?_, ?_⟩
  · cases hml : m.getLsbD l with
    | true => exact mem_toPool hl hml
    | false => exact d.staysPut_toPool _ _ l _ hl (hleft l hl hm hml)
  · exact d.staysPut_toPool _ _ l pc hl (hother l pc hl hm h)
  · have hpool : d.KeepsAll (d.toPool m (pcNext (c.slot k).pc)) := rfl
    exact ((hkeep.trans hpool).trans (Column.keepsAll_fill _)).trans (Column.keepsAll_marked _ k)
  · rw [Column.retired_marked, (Column.mec_fill _).2, ← hret]; rfl

theorem State.ends_yieldPool {s : State} {w : Full} {col k : Nat} (hi : s.Issues col k) (hc : s.Clears col k w fmtYieldPool noPts) :
    s.Ends (.yieldPool w) col k := by
  by_cases h0 : (s.col col).pool = [] ∨ (s.ctxFor col k w).en = 0
  · exact State.ends_go hi (marker := w.marker) (State.word_answers hi hc (if_pos h0))
  · obtain ⟨hgo, hkeep, hret⟩ := ((s.col col).countWord k).yieldPool_spec k (s.ctxFor col k w).en
    have hpc : (((s.col col).countWord k).slot k).pc = ((s.col col).slot k).pc := by rw [Column.slot_countWord]
    rw [hpc] at hgo
    have hcol : ((s.setCol col ((s.col col).countWord k)).modCol col fun c => c.yieldPool k (s.ctxFor col k w).en).col col
        = ((s.col col).countWord k).yieldPool k (s.ctxFor col k w).en := by rw [State.col_modCol_same, State.col_setCol_same]
    obtain ⟨hp, hr⟩ := State.placed_endPipe (k := k) ((s.setCol col ((s.col col).countWord k)).modCol col fun c => c.yieldPool k (s.ctxFor col k w).en)
      ((s.touches_setCol col _).trans (State.touches_modCol _ col _)) rfl rfl hcol (hret.trans ((s.col col).retired_countWord k)) hgo.of_countWord
    exact ⟨_, State.exec_placed hi hc _ rfl (if_neg h0), hp, hr, (((s.col col).keepsAll_countWord k).trans hkeep).trans
      (congrArg ((((s.col col).countWord k).yieldPool k (s.ctxFor col k w).en).KeepsAll) hcol ▸ Column.KeepsAll.refl _)⟩

theorem Column.slot_modSlot_same (c : Column) (k : Nat) (f : Split → Split) : (c.modSlot k f).slot k = f (c.slot k) := Column.slot_setSlot_same c k _

/-- The counted column of a word whose split goes to the next word with other fields of its slot changed. -/
def Column.movedOn (c : Column) (k : Nat) (f : Split → Split) : Column := (c.countWord k).modSlot k fun sp => { f sp with pc := pcNext sp.pc, mask := sp.mask }

theorem Column.keepsAll_movedOn (c : Column) (k : Nat) (f : Split → Split) : c.KeepsAll (c.movedOn k f) :=
  (c.keepsAll_countWord k).trans (Column.keepsAll_modSlot _ k _)

theorem Column.retired_movedOn (c : Column) (k : Nat) (f : Split → Split) : (c.movedOn k f).retired = (c.retired + 1) % 2 ^ 48 := by
  unfold Column.movedOn; rw [Column.modSlot_retired, Column.retired_countWord]

theorem Column.slot_movedOn (c : Column) (k : Nat) (f : Split → Split) : (c.movedOn k f).slot k =
    { f ((c.countWord k).slot k) with pc := pcNext (c.slot k).pc, mask := (c.slot k).mask } := by
  unfold Column.movedOn
  rw [Column.slot_modSlot_same]
  have hpc : ((c.countWord k).slot k).pc = (c.slot k).pc := by rw [Column.slot_countWord]
  have hm : ((c.countWord k).slot k).mask = (c.slot k).mask := by rw [Column.slot_countWord]
  rw [hpc, hm]

theorem Column.lanesGo_movedOn (c : Column) (k : Nat) (f : Split → Split) : c.LanesGo (c.movedOn k f) k fun _ => pcNext (c.slot k).pc := by
  have hpc : ((c.countWord k).slot k).pc = (c.slot k).pc := by rw [Column.slot_countWord]
  have hgo := (c.countWord k).lanesGo_setSlot k { f ((c.countWord k).slot k) with
    pc := pcNext ((c.countWord k).slot k).pc, mask := ((c.countWord k).slot k).mask } rfl
  refine Column.LanesGo.of_countWord ?_
  rw [← hpc]; exact hgo

/-- A split that ends its run and is not ready keeps its slot but for its condition. -/
theorem Column.rests_endRun (c : Column) (k : Nat) (cond : SplitCond) (hc : cond ≠ .ready ∧ cond ≠ .waiting) (hm : (c.slot k).mask ≠ 0) :
    ((c.endRun k cond).slot k).cond = cond ∧ ((c.endRun k cond).slot k).pc = (c.slot k).pc ∧ ((c.endRun k cond).slot k).mask = (c.slot k).mask
      ∧ ((c.endRun k cond).slot k).held = (c.slot k).held ∧ ((c.endRun k cond).slot k).nap = (c.slot k).nap
      ∧ ((c.endRun k cond).slot k).exiting = (c.slot k).exiting := by
  rw [Column.slot_endRun c k cond hc fun h => hm (Split.mask_of_lanes_zero h)]
  exact ⟨rfl, rfl, rfl, rfl, rfl, rfl⟩

/-- NAP with cycles to wait: the split stands at the next word, and does not issue until they have passed. -/
theorem State.naps {s : State} {w : Full} {col k : Nat} (hi : s.Issues col k) (hc : s.Clears col k w fmtDisp noPts) (h0 : immN w ≠ 0)
    (hd : (s.hdr col).det = false) (hm : ((s.col col).slot k).mask ≠ 0) : ∃ t, exec (.nap w) s = .next t ∧ s.OnlyColumn t col k ∧ s.RunEnds t col k
      ∧ (s.col col).KeepsAll (t.col col) ∧ ((t.col col).slot k).cond = .napping ∧ ((t.col col).slot k).pc = pcNext ((s.col col).slot k).pc
      ∧ ((t.col col).slot k).mask = ((s.col col).slot k).mask ∧ ((t.col col).slot k).nap = s.cycles col + immN w := by
  have hn : ¬(immN w = 0 ∨ (s.ctxFor col k w).h.det = true) := fun h => h.elim h0 fun h => by
    rw [show (s.ctxFor col k w).h.det = (s.hdr col).det from rfl, hd] at h; cases h
  generalize hf : (fun sp : Split => { sp with nap := s.cycles col + immN w }) = f
  have he : exec (.nap w) s = .next (((s.setCol col ((s.col col).movedOn k f)).endRun col k .napping).dropFaults fun f => f == .split col k) :=
    State.exec_placed hi hc _ rfl ((if_neg hn).trans (by rw [← hf]; rfl))
  have hslot := (s.col col).slot_movedOn k f
  have hmask : (((s.col col).movedOn k f).slot k).mask = ((s.col col).slot k).mask := by rw [hslot]
  have hpc : (((s.col col).movedOn k f).slot k).pc = pcNext ((s.col col).slot k).pc := by rw [hslot]
  have hnap : (((s.col col).movedOn k f).slot k).nap = s.cycles col + immN w := by rw [hslot, ← hf]
  obtain ⟨hc', hp', hm', -, hn', -⟩ := ((s.col col).movedOn k f).rests_endRun k .napping (by decide) (by rw [hmask]; exact hm)
  obtain ⟨hp, hr, hcol⟩ := State.placed_ownEndRun ((s.col col).retired_movedOn k f) ((s.col col).lanesGo_movedOn k f) .napping
  refine ⟨_, he, hp.1, hr, ?_⟩
  rw [hcol, hc', hp', hm', hn']
  exact ⟨((s.col col).keepsAll_movedOn k f).trans (Column.keepsAll_endRun _ k .napping), rfl, hpc, hmask, hnap⟩

end Sys2Proof.Machine

/-!
SUPPORT. Exit and restart labels (R129, R292, R303): what leaves a column with its lanes, and the obligation O29.
-/

namespace Sys2Proof.Machine

/-! ## Lanes that exit (R129, R292) -/

/-- A column keeps its registers, live lanes and rejoin masks, its count and its results, and everything but its splits, pool, parked lanes and barriers. -/
def Column.KeepsLive (c c' : Column) : Prop :=
  c' = { c with
    slots := c'.slots, pool := c'.pool, mec := c'.mec, demote := c'.demote, parked := c'.parked, cbar := c'.cbar, ubar := c'.ubar
    barGates := c'.barGates }

theorem Column.KeepsLive.refl (c : Column) : c.KeepsLive c := rfl

theorem Column.KeepsLive.trans {a b c : Column} (h : a.KeepsLive b) (h' : b.KeepsLive c) : a.KeepsLive c := by
  unfold Column.KeepsLive at *; rw [h']; rw [h]

theorem Column.KeepsAll.keepsLive {c c' : Column} (h : c.KeepsAll c') (hr : c'.retired = c.retired) : c.KeepsLive c' := by
  unfold Column.KeepsLive; unfold Column.KeepsAll at h; rw [h, hr]

theorem Column.keepsLive_foldl {β : Type} (f : Column → β → Column) (hf : ∀ (c : Column) b, c.KeepsLive (f c b)) (l : List β) (c : Column) :
    c.KeepsLive (l.foldl f c) :=
  foldl_keeps (fun c' : Column => c.KeepsLive c') f (fun c' b h => h.trans (hf c' b)) l c (.refl c)

theorem Column.keepsLive_releaseBar (c : Column) (key : Nat) : c.KeepsLive (c.releaseBar key) := rfl

theorem Column.keepsLive_setCbar (c : Column) (b : Tab CBar) : c.KeepsLive { c with cbar := b } := rfl

theorem Column.keepsLive_setUbar (c : Column) (b : Tab UBar) : c.KeepsLive { c with ubar := b } := rfl

theorem Column.keepsLive_testCbar (c : Column) (n : Nat) : c.KeepsLive (c.testCbar n) := by
  unfold Column.testCbar; dsimp only
  split
  · exact (c.keepsLive_setCbar _).trans (Column.keepsLive_releaseBar _ _)
  · exact .refl c

theorem Column.keepsLive_fill (c : Column) : c.KeepsLive c.fill := c.keepsAll_fill.keepsLive c.mec_fill.2

theorem Column.keepsLive_testJoins (c : Column) : c.KeepsLive c.testJoins :=
  Column.keepsLive_foldl _ (fun c x => by
    dsimp only
    split
    · rfl
    · exact .refl c) _ c

theorem Column.keepsLive_gate (c : Column) (key : Option Nat) (m : Mask) (bound : Nat) : c.KeepsLive (c.gate key m bound) := by
  unfold Column.gate; split <;> rfl

/-- The column with some lanes gone. -/
def Column.without (c : Column) (m : Mask) : Column :=
  { c with live := c.live &&& ~~~m, j := (List.range 8).foldl (fun t n => tabMod t n fun x => x &&& ~~~m) c.j }

theorem Column.KeepsLive.without {c c' : Column} (h : c.KeepsLive c') (m : Mask) : (c.without m).KeepsLive (c'.without m) := by
  unfold Column.KeepsLive Column.without at *; rw [h]

theorem Column.keepsLive_removeLanes (c : Column) (m : Mask) : (c.without m).KeepsLive (c.removeLanes m) := by
  unfold Column.removeLanes
  have h := (c.without m).keepsLive_setCbar ((List.range 16).foldl (fun t n => tabMod t n fun b =>
      { b with arrived := b.arrived ||| (m &&& ~~~b.dropped), dropped := b.dropped ||| m }) c.cbar)
  exact (h.trans (Column.keepsLive_testJoins _)).trans (Column.keepsLive_foldl Column.testCbar Column.keepsLive_testCbar _ _)

/-- Nothing but columns changes, and each keeps its registers, live lanes and results. -/
def State.KeepsLive (s t : State) : Prop := t = { s with cols := t.cols } ∧ ∀ c, (s.col c).KeepsLive (t.col c)

theorem State.KeepsLive.refl (s : State) : s.KeepsLive s := ⟨rfl, fun _ => .refl _⟩

theorem State.KeepsLive.trans {s t u : State} (h : s.KeepsLive t) (h' : t.KeepsLive u) : s.KeepsLive u := by
  refine ⟨?_, fun c => (h.2 c).trans (h'.2 c)⟩
  have e := h'.1; rw [h.1] at e; exact e

theorem State.keepsLive_foldl {β : Type} (f : State → β → State) (hf : ∀ (s : State) b, s.KeepsLive (f s b)) (l : List β) (s : State) :
    s.KeepsLive (l.foldl f s) :=
  foldl_keeps (fun t : State => s.KeepsLive t) f (fun t b h => h.trans (hf t b)) l s (.refl s)

theorem State.keepsLive_setCol {s : State} {c : Nat} {v : Column} (h : (s.col c).KeepsLive v) : s.KeepsLive (s.setCol c v) := by
  refine ⟨rfl, fun d => ?_⟩
  rw [State.col_setCol]
  split
  · next hd => rw [hd]; exact h
  · exact .refl _

theorem State.keepsLive_modCol (s : State) (c : Nat) {f : Column → Column} (hf : (s.col c).KeepsLive (f (s.col c))) : s.KeepsLive (s.modCol c f) :=
  State.keepsLive_setCol hf

theorem State.keepsLive_testUbar (s : State) (col level n : Nat) : s.KeepsLive (s.testUbar col level n) := by
  unfold State.testUbar; dsimp only
  split
  · exact State.keepsLive_foldl _ (fun s c => s.keepsLive_modCol c ((Column.keepsLive_setUbar _ _).trans (Column.keepsLive_releaseBar _ _))) _ s
  · exact .refl s

theorem State.keepsLive_arriveUbar (s : State) (col level n : Nat) : s.KeepsLive (s.arriveUbar col level n) := by
  unfold State.arriveUbar; dsimp only
  split
  · exact (State.keepsLive_setCol (Column.keepsLive_setUbar _ _)).trans (State.keepsLive_testUbar _ _ _ _)
  · exact .refl s

theorem State.keepsLive_fillGroup (s : State) (col : Nat) : s.KeepsLive (s.fillGroup col) :=
  State.keepsLive_foldl _ (fun s c => by
    split
    · exact .refl s
    · exact s.keepsLive_modCol c (Column.keepsLive_fill _)) _ s

theorem Column.keepsLive_setSlot (c : Column) (k : Nat) (sp : Split) : c.KeepsLive (c.setSlot k sp) := rfl

theorem Column.keepsLive_setDemote (c : Column) (dm : Option Nat) : c.KeepsLive { c with demote := dm } := rfl

/-- Lanes leave a slot, which is free when it holds no others. -/
def Column.freed (c : Column) (k : Nat) : Column :=
  if c.used k then c else { c.setSlot k {} with demote := if c.demote = some k then none else c.demote }

theorem Column.keepsLive_freed (c : Column) (k : Nat) : c.KeepsLive (c.freed k) := by
  unfold Column.freed
  split
  · exact .refl c
  · exact (c.keepsLive_setSlot k {}).trans (Column.keepsLive_setDemote _ _)

/-- The last lane's exit drops the column from the barriers above column level. -/
def Column.droppedIfEmpty (c : Column) : Column := if c.live = 0 then c.dropUbars else c

theorem Column.keepsLive_droppedIfEmpty (c : Column) : c.KeepsLive c.droppedIfEmpty := by
  unfold Column.droppedIfEmpty
  split
  · exact c.keepsLive_setUbar _
  · exact .refl c

/-- What an exit does to its own column before the barriers are tested. -/
def Column.exited (c : Column) (k : Nat) (m : Mask) (bound : Nat) : Column :=
  ((((c.modSlot k fun sp => { sp with mask := sp.mask &&& ~~~m, exiting := 0 }).freed k).gate none m bound).removeLanes m).droppedIfEmpty

theorem Column.keepsLive_exited (c : Column) (k : Nat) (m : Mask) (bound : Nat) : (c.without m).KeepsLive (c.exited k m bound) := by
  have h1 : c.KeepsLive (c.modSlot k fun sp => { sp with mask := sp.mask &&& ~~~m, exiting := 0 }) := c.keepsLive_setSlot k _
  have h2 := (h1.trans (Column.keepsLive_freed _ k)).trans (Column.keepsLive_gate _ none m bound)
  exact ((h2.without m).trans (Column.keepsLive_removeLanes _ m)).trans (Column.keepsLive_droppedIfEmpty _)

/-- Lanes exit: only columns change, and only the exiting lanes leave the live lanes and rejoin masks. -/
theorem State.keepsLive_exitLanes (s : State) (col k : Nat) (m : Mask) :
    (s.modCol col fun c => c.exited k m s.nextTag).KeepsLive (s.exitLanes col k m) := by
  unfold State.exitLanes
  refine .trans ?_ (State.keepsLive_fillGroup _ _)
  exact State.keepsLive_foldl _ (fun s x => by
    dsimp only
    split
    · exact (State.keepsLive_arriveUbar _ _ _ _).trans (State.keepsLive_testUbar _ _ _ _)
    · exact .refl s) _ _

theorem tabGet_foldl_tabMod {α : Type} [DecidableEq α] [Inhabited α] (f : α → α) (n : Nat) (t : Tab α) (k : Nat) :
    tabGet ((List.range n).foldl (fun t i => tabMod t i f) t) k = if k < n then f (tabGet t k) else tabGet t k := by
  induction n with
  | zero => rw [if_neg (Nat.not_lt_zero k)]; rfl
  | succ n ih =>
    rw [List.range_succ, List.foldl_append, List.foldl_cons, List.foldl_nil, tabGet_tabMod, ih]
    by_cases hk : k = n
    · subst hk; rw [if_pos rfl, if_pos (by omega), ih, if_neg (by omega)]
    · rw [if_neg hk]; exact if_congr (by omega) rfl rfl

theorem Column.rdJ_without (c : Column) (m : Mask) {n : Nat} (hn : n < 8) : (c.without m).rdJ n = c.rdJ n &&& ~~~m :=
  (tabGet_foldl_tabMod (fun x => x &&& ~~~m) 8 c.j n).trans (if_pos hn)

/-- Columns with the same registers read the same. -/
theorem Column.KeepsLive.regs {c c' : Column} (h : c.KeepsLive c') : c.Regs c' (fun _ _ => none) (fun _ => none) (fun _ _ => none) := by
  unfold Column.KeepsLive at h
  exact ⟨fun n l _ => (congrArg (fun c : Column => (c.rdV n l, c.rdVp n l)) h).trans rfl,
    fun n _ => (congrArg (fun c : Column => (c.rdS n, c.rdSp n)) h).trans rfl,
    fun n l _ => (congrArg (fun c : Column => ((c.rdP n).getLsbD l, (c.rdPp n).getLsbD l)) h).trans rfl⟩

theorem Column.regs_without (c : Column) (m : Mask) : c.Regs (c.without m) (fun _ _ => none) (fun _ => none) (fun _ _ => none) :=
  ⟨fun _ _ _ => rfl, fun _ _ => rfl, fun _ _ _ => rfl⟩

theorem Column.Regs.none_trans {a b c : Column} (h : a.Regs b (fun _ _ => none) (fun _ => none) (fun _ _ => none))
    (h' : b.Regs c (fun _ _ => none) (fun _ => none) (fun _ _ => none)) : a.Regs c (fun _ _ => none) (fun _ => none) (fun _ _ => none) :=
  ⟨fun n l hl => (h'.1 n l hl).trans (h.1 n l hl), fun n hn => (h'.2.1 n hn).trans (h.2.1 n hn), fun n l hl => (h'.2.2 n l hl).trans (h.2.2 n l hl)⟩

/-- What stays of a column whose lanes have exited. -/
theorem Column.KeepsLive.exited_spec {c c' : Column} {m : Mask} (h : (c.without m).KeepsLive c') : c'.live = c.live &&& ~~~m ∧ c'.retired = c.retired
    ∧ (∀ n, n < 8 → c'.rdJ n = c.rdJ n &&& ~~~m) ∧ c.Regs c' (fun _ _ => none) (fun _ => none) (fun _ _ => none) := by
  have hr := (c.regs_without m).none_trans h.regs
  unfold Column.KeepsLive at h
  exact ⟨(congrArg Column.live h).trans rfl, (congrArg Column.retired h).trans rfl,
    fun n hn => ((congrArg (fun c : Column => c.rdJ n) h).trans rfl).trans (c.rdJ_without m hn), hr⟩

/-! ## EXIT (R292) -/

/-- The state of an EXIT whose split has ended its run. -/
def State.exitRun (s : State) (col k : Nat) (m : Mask) : State :=
  (s.setCol col ((s.col col).movedOn k fun sp => { sp with exiting := m })).endRun col k .parked

theorem State.exec_exit {s : State} {w : Full} {col k : Nat} (hi : s.Issues col k) (hc : s.Clears col k w fmtBare noPts)
    (hn : ((s.col col).slot k).hnd = false) (he : (s.ctxFor col k w).en ≠ 0) : exec (.exit w) s =
      .next ((((s.exitRun col k (s.ctxFor col k w).en).settle col k).modCol col fun c => c.merge.fill).dropFaults fun f => f == .split col k) := by
  have hb : ¬((s.ctxFor col k w).sp.hnd = true) := fun h => by
    rw [show (s.ctxFor col k w).sp.hnd = ((s.col col).slot k).hnd from rfl, hn] at h; cases h
  exact State.exec_placed hi hc _ rfl ((if_neg hb).trans ((if_neg he).trans rfl))

theorem Ctx.mask_of_enabled {s : State} {col k : Nat} {w : Full} (he : (s.ctxFor col k w).en ≠ 0) : ((s.col col).slot k).mask ≠ 0 := fun h => by
  have h0 : (s.ctxFor col k w).en = ((s.col col).slot k).mask &&& (s.col col).guard w.g.toNat w.gn := rfl
  rw [h] at h0
  exact he (h0.trans BitVec.zero_and)

/-- The split of an EXIT that has ended its run: parked, with its lanes. -/
theorem State.exitRun_spec (s : State) (col k : Nat) {m : Mask} (hm : ((s.col col).slot k).mask ≠ 0) :
    s.Touches (s.exitRun col k m) col ∧ (s.exitRun col k m).faults = s.faults ∧ s.RunEnds (s.exitRun col k m) col k
      ∧ (s.col col).KeepsAll ((s.exitRun col k m).col col) ∧ ((s.exitRun col k m).col col).retired = ((s.col col).retired + 1) % 2 ^ 48
      ∧ (((s.exitRun col k m).col col).slot k).cond = .parked ∧ (((s.exitRun col k m).col col).slot k).exiting = m
      ∧ (((s.exitRun col k m).col col).slot k).lanes = ((s.col col).slot k).lanes := by
  unfold State.exitRun
  generalize hf : (fun sp : Split => { sp with exiting := m }) = f
  have hslot := (s.col col).slot_movedOn k f
  have hmask : (((s.col col).movedOn k f).slot k).mask = ((s.col col).slot k).mask := by rw [hslot]
  have hheld : (((s.col col).movedOn k f).slot k).held = ((s.col col).slot k).held := by rw [hslot, ← hf]; dsimp only; rw [Column.slot_countWord]
  have hex : (((s.col col).movedOn k f).slot k).exiting = m := by rw [hslot, ← hf]
  obtain ⟨hc', -, hm', hh', -, hx'⟩ := ((s.col col).movedOn k f).rests_endRun k .parked (by decide) (by rw [hmask]; exact hm)
  have hcol := (s.setCol col ((s.col col).movedOn k f)).col_endRun col k .parked
  rw [State.col_setCol_same] at hcol
  refine ⟨(s.touches_setCol col _).trans (State.touches_endRun _ col k .parked), State.faults_endRun _ _ _ _,
    State.runEnds_endRun (u := s.setCol col ((s.col col).movedOn k f)) (State.setCol_cores _ _ _) k .parked, ?_⟩
  rw [hcol, (Column.mec_endRun _ k .parked).2, Column.retired_movedOn]
  refine ⟨((s.col col).keepsAll_movedOn k f).trans (Column.keepsAll_endRun _ k .parked), rfl, hc', hx'.trans hex, ?_⟩
  unfold Split.lanes
  rw [hm', hh', hmask, hheld]

/-- EXIT with results outstanding: the split is parked until they are written, its enabled lanes to leave then (R137, R292). -/
theorem State.exit_parks {s : State} {w : Full} {col k : Nat} (hi : s.Issues col k) (hc : s.Clears col k w fmtBare noPts)
    (hn : ((s.col col).slot k).hnd = false) (he : (s.ctxFor col k w).en ≠ 0) (ho : (s.col col).outstanding ((s.col col).slot k).lanes = true) :
    ∃ t, exec (.exit w) s = .next t ∧ s.OnlyColumn t col k ∧ s.RunEnds t col k ∧ (s.col col).KeepsAll (t.col col)
      ∧ ((t.col col).slot k).cond = .parked ∧ ((t.col col).slot k).exiting = (s.ctxFor col k w).en := by
  have hm := Ctx.mask_of_enabled he
  refine ⟨_, State.exec_exit hi hc hn he, ?_⟩
  obtain ⟨ht, hf, hr, hk, -, hcond, hex, hl⟩ := s.exitRun_spec col k (m := (s.ctxFor col k w).en) hm
  generalize hu : s.exitRun col k (s.ctxFor col k w).en = u at *
  have hout : (u.col col).outstanding ((u.col col).slot k).lanes = true := by
    rw [hl]; unfold Column.outstanding at ho ⊢
    rwa [show (u.col col).results = (s.col col).results from (congrArg Column.results (show _ = _ from hk)).trans rfl]
  have hset : u.settle col k = u := by
    unfold State.settle; dsimp only
    rw [if_neg fun h => by rw [hout] at h; cases h.2]
  have hstay : ((u.col col).slot k).Stays := ⟨by unfold Split.rests; rw [hcond]; rfl, by rw [hl]; exact fun h => hm (Split.mask_of_lanes_zero h)⟩
  have hmerge := Column.slot_merge hstay
  have hfill := (Column.slot_fill (show ((u.col col).merge.slot k).Stays by rw [hmerge]; exact hstay)).trans hmerge
  rw [hset]
  refine ⟨State.onlyColumn_dropFaults (ht.trans (u.touches_modCol col _)) hf, hr, ?_⟩
  rw [State.col_dropFaults, State.col_modCol_same, hfill]
  exact ⟨hk.trans ((Column.keepsAll_merge _).trans (Column.keepsAll_fill _)), hcond, hex⟩

/-- The exit of a parked split whose results are written: only the exiting lanes leave. -/
theorem State.settle_exits {u : State} {col k : Nat} (hcond : ((u.col col).slot k).cond = .parked)
    (ho : (u.col col).outstanding ((u.col col).slot k).lanes = false) (hx : ((u.col col).slot k).exiting ≠ 0) :
    (u.settle col k) = { u with cols := (u.settle col k).cols }
      ∧ ((u.col col).without ((u.col col).slot k).exiting).KeepsLive ((u.settle col k).col col) := by
  have hex := u.keepsLive_exitLanes col k ((u.col col).slot k).exiting
  have hcol := (u.col col).keepsLive_exited k ((u.col col).slot k).exiting u.nextTag
  have hv : ((u.col col).without ((u.col col).slot k).exiting).KeepsLive ((u.exitLanes col k ((u.col col).slot k).exiting).col col) := by
    have h2 := hex.2 col
    rw [State.col_modCol_same] at h2
    exact hcol.trans h2
  have hs : u.exitLanes col k ((u.col col).slot k).exiting = { u with cols := (u.exitLanes col k ((u.col col).slot k).exiting).cols } := hex.1
  unfold State.settle; dsimp only
  rw [if_pos ⟨hcond, ho⟩, if_pos hx]
  split
  · exact ⟨hs, hv⟩
  · have hready := (u.exitLanes col k ((u.col col).slot k).exiting).keepsLive_modCol col (f := fun c => c.readied k)
      ((Column.keepsAll_readied _ k).keepsLive (by
        unfold Column.readied
        rw [(Column.mec_fill _).2, (Column.mec_demoteNow _ k).2, Column.modSlot_retired]))
    exact ⟨(hex.trans hready).1, hv.trans (hready.2 col)⟩

/-- EXIT without results outstanding: the enabled lanes leave the column (R292). -/
theorem State.exit_leaves {s : State} {w : Full} {col k : Nat} (hi : s.Issues col k) (hc : s.Clears col k w fmtBare noPts)
    (hn : ((s.col col).slot k).hnd = false) (he : (s.ctxFor col k w).en ≠ 0) (ho : (s.col col).outstanding ((s.col col).slot k).lanes = false) :
    ∃ t, exec (.exit w) s = .next t ∧ t.mem = s.mem ∧ t.run = none
      ∧ t = { s with faults := t.faults, cols := t.cols, cores := t.cores, run := t.run }
      ∧ (t.col col).live = (s.col col).live &&& ~~~(s.ctxFor col k w).en ∧ (t.col col).retired = ((s.col col).retired + 1) % 2 ^ 48
      ∧ (∀ n, n < 8 → (t.col col).rdJ n = (s.col col).rdJ n &&& ~~~(s.ctxFor col k w).en)
      ∧ (s.col col).Regs (t.col col) (fun _ _ => none) (fun _ => none) (fun _ _ => none) := by
  have hm := Ctx.mask_of_enabled he
  refine ⟨_, State.exec_exit hi hc hn he, ?_⟩
  obtain ⟨ht, -, hr, hk, hret, hcond, hex, hl⟩ := s.exitRun_spec col k (m := (s.ctxFor col k w).en) hm
  generalize hu : s.exitRun col k (s.ctxFor col k w).en = u at *
  have hout : (u.col col).outstanding ((u.col col).slot k).lanes = false := by
    rw [hl]; unfold Column.outstanding at ho ⊢
    rwa [show (u.col col).results = (s.col col).results from (congrArg Column.results (show _ = _ from hk)).trans rfl]
  obtain ⟨hs, hv⟩ := State.settle_exits hcond hout (by rw [hex]; exact he)
  rw [hex] at hv
  generalize u.settle col k = v at *
  have hkeep : ((u.col col).without (s.ctxFor col k w).en).KeepsLive ((v.col col).merge.fill) :=
    (hv.trans ((Column.keepsAll_merge _).keepsLive (Column.mec_merge _).2)).trans (Column.keepsLive_fill _)
  obtain ⟨hlive, hretd, hj, hregs⟩ := hkeep.exited_spec
  rw [State.col_dropFaults, State.col_modCol_same]
  have hvs : v = { s with faults := v.faults, cols := v.cols, cores := v.cores, run := v.run } := by
    rw [hs, ht.1]
  refine ⟨(congrArg State.mem hvs).trans rfl, ?_, ?_, ?_, ?_, ?_, ?_⟩
  · exact ((congrArg State.run hs).trans rfl).trans hr.1
  · exact (congrArg (fun v : State => (v.modCol col fun c => c.merge.fill).dropFaults fun f => f == .split col k) hvs).trans rfl
  · rw [hlive, show (u.col col).live = (s.col col).live from (congrArg Column.live (show _ = _ from hk)).trans rfl]
  · rw [hretd, hret]
  · intro n h8
    rw [hj n h8, show (u.col col).rdJ n = (s.col col).rdJ n from (congrArg (fun c : Column => c.rdJ n) (show _ = _ from hk)).trans rfl]
  · exact ((Column.Regs.refl _).after hk).none_trans hregs

/-! ## Restart labels (R303) -/

theorem toNat_ofInt_of_range {d : Int} (h0 : 0 ≤ d) (h1 : d ≤ 0xFFFFFFF8) : (BitVec.ofInt 32 d).toNat = d.toNat := by
  rw [BitVec.toNat_ofInt, Int.emod_eq_of_lt h0 (by omega)]

/-- A word that writes %rst. -/
theorem State.sets_rst {s : State} {i : Instr} {w : Full} {col k : Nat} (hi : s.Issues col k) (v : Word)
    (h : exec i s = .next (s.perform col k w.marker ((s.ctxFor col k w).setRst v))) : ∃ t, exec i s = .next t ∧ s.Performed t col k w.marker
      ∧ ({ s.col col with rst := (t.col col).rst } : Column).KeepsAll (t.col col)
      ∧ (t.col col).rst.toNat = if (s.ctxFor col k w).en = 0 then (s.col col).rst.toNat else v.toNat := by
  by_cases he : (s.ctxFor col k w).en = 0
  · have e : (s.ctxFor col k w).setRst v = .go s none false := if_pos he
    obtain ⟨hp, hk⟩ := State.performed_same hi w.marker
    have hr := congrArg Column.rst (show _ = _ from hk)
    rw [e] at h
    refine ⟨_, h, hp, ?_, ?_⟩
    · rw [hr]; exact hk
    · rw [hr, if_pos he]
  · have e : (s.ctxFor col k w).setRst v = .go (s.setCol col { s.col col with rst := v }) none false := if_neg he
    obtain ⟨hp, hk⟩ := State.performed_setCol hi w.marker { s.col col with rst := v } rfl rfl rfl rfl (fun _ _ => rfl)
    have hr := congrArg Column.rst (show _ = _ from hk)
    rw [e] at h
    refine ⟨_, h, hp, ?_, ?_⟩
    · rw [hr]; exact hk
    · rw [hr, if_neg he]

/-- Settles O29: YIELD and NAP by how a run ends, EXIT by what leaves the column, SETRST by the register it writes. -/
theorem yieldNapExit : Obligations.YieldNapExit := by
  unfold Obligations.YieldNapExit
  intro s w col k hi
  dsimp only
  refine ⟨fun hc => State.ends_go hi (State.word_clear hi.1 hc _), fun hc => State.ends_yieldPool hi hc, fun hc => ⟨fun hn => ?_, fun h0 hd hm => ?_⟩,
    fun hc hn => ⟨fun he => ?_, fun he ho => State.exit_parks hi hc hn he ho, fun he ho => State.exit_leaves hi hc hn he ho⟩, fun hc => ⟨fun h0 h1 => ?_, ?_⟩⟩
  · exact State.ends_go hi (State.word_answers hi hc (if_pos hn))
  · exact State.naps hi hc h0 hd hm
  · have hnd : ¬((s.ctxFor col k w).sp.hnd = true) := fun h => by rw [hn] at h; cases h
    exact State.ends_go hi (marker := w.marker) (State.word_answers hi hc ((if_neg hnd).trans (if_pos he)))
  · obtain ⟨t, ht, hp, hk, hr⟩ := State.sets_rst hi (i := .setrst w) _ (State.word_answers hi hc (if_neg (not_or.mpr ⟨Int.not_lt.mpr h0, Int.not_lt.mpr h1⟩)))
    exact ⟨t, ht, hp, hk, hr.trans (if_congr Iff.rfl rfl (toNat_ofInt_of_range h0 h1))⟩
  · exact State.sets_rst hi (i := .setrstClr w) (w := w) 0xFFFFFFFF (State.word_clear hi.1 hc _)

end Sys2Proof.Machine

/-!
SUPPORT. Traps by a word and the return from one (R149, R150, R305 to R309): the stop of a breakpoint, and the obligation O30.
-/

namespace Sys2Proof.Machine

/-! ## A column that stops (R150) -/

/-- A handler that is entered changes its slot alone. -/
theorem State.stop_enterTrap {s : State} {col k : Nat} {h : DWord} (hh : s.HandlerAt col ((s.col col).slot k).trap.tcode.toNat h) :
    ((s.enterTrap col k).col col).stop = (s.col col).stop := by
  obtain ⟨-, htg, p, hp, hpoi, hval⟩ := hh
  unfold State.enterTrap; dsimp only
  rw [hp]; dsimp only
  rw [if_neg (by simp [hpoi, hval, htg]), State.col_modCol_same, (s.checked_pageRead _ _ _ _ _).col]
  exact Column.modSlot_stop _ k _

/-- A trap that is taken leaves the column's stop as it is. -/
theorem State.stop_raiseTrap {s : State} {col k code : Nat} {m : Mask} {a : DWord} {info : Nat} {pc h : DWord}
    (hn : ((s.col col).slot k).hnd = false) (hm : m ≠ 0) (hh : s.HandlerAt col code h) (hc : code < 256) :
    ((s.raiseTrap col k code m a info pc).col col).stop = (s.col col).stop := by
  unfold State.raiseTrap; dsimp only
  rw [if_neg (by rw [hn]; simp only [Bool.false_or, beq_iff_eq]; exact hh.1)]
  generalize hX : ({ (s.col col).slot k with trap := ⟨pc, a, m, BitVec.ofNat 16 info, BitVec.ofNat 8 code⟩, mask := m
                                             held := ((s.col col).slot k).lanes &&& ~~~m, exiting := 0 } : Split) = X
  have hXl : X.lanes ≠ 0 := fun e => hm (by rw [← Split.mask_of_lanes_zero e, ← hX])
  have hXt : X.trap.tcode.toNat = code := by
    rw [← hX]; exact Nat.mod_eq_of_lt hc
  have hcol := (s.modCol col fun c => c.setSlot k X).col_endRun col k .trapping
  have hcols := ((s.touches_modCol col fun c => c.setSlot k X).trans (State.touches_endRun _ col k .trapping)).1
  have hfl : ((s.modCol col fun c => c.setSlot k X).endRun col k .trapping).faults = s.faults := rfl
  rw [hfl] at hcols
  rw [State.col_modCol_same] at hcol
  generalize (s.modCol col fun c => c.setSlot k X).endRun col k .trapping = u at *
  have hu : u = s.withIssue u.cols u.cores u.run := hcols
  have hkeep : (s.col col).KeepsAll (u.col col) := by rw [hcol]; exact (Column.keepsAll_setSlot _ _ _).trans (Column.keepsAll_endRun _ _ _)
  have hstop : (u.col col).stop = (s.col col).stop := (congrArg Column.stop (show _ = _ from hkeep)).trans rfl
  split
  · exact hstop
  · have hslot : ((u.col col).slot k).trap.tcode.toNat = code := by
      rw [hcol, Column.slot_endRun _ _ _ (by decide) (by rw [Column.slot_setSlot_same]; exact hXl), Column.slot_setSlot_same]
      exact hXt
    have hgr : (u.col col).group = (s.col col).group := (congrArg Column.group (show _ = _ from hkeep)).trans rfl
    have hgr' : ((s.withIssue u.cols u.cores u.run).col col).group = (s.col col).group := by rw [← hu]; exact hgr
    obtain ⟨hhdr, hctx⟩ := State.ctxOf_withIssue _ _ hgr'
    have hh' := State.handlerAt_withIssue s u.cols u.cores u.run col code h hhdr hctx hh
    rw [← hu, ← hslot] at hh'
    exact (State.stop_enterTrap hh').trans hstop

theorem Column.keepsAll_mec (c : Column) (n : Nat) : c.KeepsAll { c with mec := n } := rfl

theorem Column.stopOthers_spec (c : Column) (k : Nat) : c.KeepsAll (c.stopOthers k) ∧ (c.stopOthers k).retired = c.retired
    ∧ (c.stopOthers k).slot k = c.slot k := by
  unfold Column.stopOthers
  refine foldl_keeps (fun d : Column => c.KeepsAll d ∧ d.retired = c.retired ∧ d.slot k = c.slot k) _ (fun d i ⟨hk, hr, hs⟩ => ?_) slots4 c ⟨.refl c, rfl, rfl⟩
  split
  · next h =>
    refine ⟨(hk.trans (d.keepsAll_mec _)).trans (Column.keepsAll_modSlot _ i _), ?_, ?_⟩
    · rw [Column.modSlot_retired]; exact hr
    · unfold Column.modSlot
      rw [Column.slot_setSlot, if_neg (Ne.symm h.1)]; exact hs
  · exact ⟨hk, hr, hs⟩

theorem Column.slotLanes_countWord (c : Column) (k : Nat) : (c.countWord k).slotLanes = c.slotLanes := by
  have hl : ∀ i, ((c.countWord k).slot i).lanes = (c.slot i).lanes := fun i => by
    by_cases h : i = k
    · subst h; rw [Column.slot_countWord]; rfl
    · rw [Column.slot_countWord_ne c k h]
  unfold Column.slotLanes
  simp only [hl]

/-- A trap taken in a state that differs in what a stop changes. -/
theorem State.TakesTrap.of_stopped {s v t : State} {col k code : Nat} {m : Mask} {a : DWord} {info : Nat} {pc h : DWord}
    (hv : v.TakesTrap t col k code m a info pc h) (hm : v.mem = s.mem) (hk : ({ s.col col with stop := (v.col col).stop } : Column).KeepsAll (v.col col))
    (hr : (v.col col).retired = (s.col col).retired) (hs : (v.col col).slot k = (s.col col).slot k) : s.TakesTrap t col k code m a info pc h := by
  have hregs : ((v.col col).v, (v.col col).vp, (v.col col).s, (v.col col).sp, (v.col col).p, (v.col col).pp, (v.col col).fpflags, (v.col col).live)
      = ((s.col col).v, (s.col col).vp, (s.col col).s, (s.col col).sp, (s.col col).p, (s.col col).pp, (s.col col).fpflags, (s.col col).live) :=
    (congrArg (fun c : Column => (c.v, c.vp, c.s, c.sp, c.p, c.pp, c.fpflags, c.live)) (show _ = _ from hk)).trans rfl
  have hout : (v.col col).outstanding ((s.col col).slot k).lanes = (s.col col).outstanding ((s.col col).slot k).lanes := by
    unfold Column.outstanding; rw [show (v.col col).results = (s.col col).results from (congrArg Column.results (show _ = _ from hk)).trans rfl]
  unfold State.TakesTrap at hv ⊢
  dsimp only at hv ⊢
  rw [hs, hm, hr, hregs, hout] at hv
  exact hv

/-- The state in which the trap of a breakpoint is taken: its column has stopped. -/
def State.stopped (s : State) (col k : Nat) : State :=
  { s.modCol col fun c => { c.stopOthers k with stop := some ⟨k, none, c.slotLanes⟩ } with
    cores := tabMod s.cores (coreOf col) fun r =>
      let clr (x : Option (Nat × Nat)) := match x with
        | some (c', j) => if c' = col ∧ j ≠ k then none else some (c', j)
        | none => none
      { r with curA := clr r.curA, curB := clr r.curB } }

theorem State.stopTrap_eq {s : State} {col k code : Nat} {m : Mask} {pc : DWord} (hn : ((s.col col).slot k).hnd = false) (ht : (s.hdr col).traptab ≠ 0) :
    s.stopTrap col k code m pc = (s.stopped col k).raiseTrap col k code m 0 0 pc := by
  unfold State.stopTrap; dsimp only
  rw [if_neg (by rw [hn]; simp only [Bool.false_or, beq_iff_eq]; exact ht)]
  rfl

theorem State.col_stopped (s : State) (col k : Nat) :
    (s.stopped col k).col col = { (s.col col).stopOthers k with stop := some ⟨k, none, (s.col col).slotLanes⟩ } :=
  State.col_modCol_same s col fun c => { c.stopOthers k with stop := some ⟨k, none, c.slotLanes⟩ }

/-- A breakpoint's trap is taken, and its column has stopped with the lanes in its slots. -/
theorem State.stopTrap_takes {s : State} {col k code : Nat} {m : Mask} {pc h : DWord} (hn : ((s.col col).slot k).hnd = false) (hm : m ≠ 0)
    (hh : s.HandlerAt col code h) (hc : code < 256) : s.TakesTrap (s.stopTrap col k code m pc) col k code m 0 0 pc h
      ∧ ((s.stopTrap col k code m pc).col col).stop = some ⟨k, none, (s.col col).slotLanes⟩ := by
  obtain ⟨hk, hr, hs⟩ := (s.col col).stopOthers_spec k
  have hcol := s.col_stopped col k
  have hslot : ((s.stopped col k).col col).slot k = (s.col col).slot k := by rw [hcol]; exact hs
  have hn' : (((s.stopped col k).col col).slot k).hnd = false := by rw [hslot]; exact hn
  have hgr : ((s.withIssue (s.stopped col k).cols (s.stopped col k).cores s.run).col col).group = (s.col col).group :=
    (congrArg Column.group hcol).trans ((congrArg Column.group (show _ = _ from hk)).trans rfl)
  obtain ⟨hhdr, hctx⟩ := State.ctxOf_withIssue _ _ hgr
  have hh' : (s.stopped col k).HandlerAt col code h := State.handlerAt_withIssue s _ _ _ col code h hhdr hctx hh
  rw [State.stopTrap_eq hn hh.1]
  refine ⟨(State.raiseTrap_takes hn' hm hh' hc).of_stopped rfl ?_ ?_ hslot, ?_⟩
  · rw [hcol]; unfold Column.KeepsAll at hk ⊢
    rw [hk]
  · rw [hcol]; exact hr
  · rw [State.stop_raiseTrap hn' hm hh' hc, hcol]

theorem State.perform_breakpoint {s : State} {col k : Nat} {m : Mask} {a : DWord} {info : Nat} {pc : DWord} (marker : Bool)
    (hstep : (s.col col).stepping = false) : s.perform col k marker (.trap 0x10 m a info pc) = (s.counted col k).stopTrap col k 0x10 m pc := by
  unfold State.perform; dsimp only
  rw [hstep, if_neg Bool.false_ne_true, if_pos rfl]
  rfl

/-- A breakpoint outside a handler is counted, its trap is taken, and the column stops (R150). -/
theorem State.perform_stopped {s : State} {col k : Nat} {m : Mask} {pc h : DWord} (marker : Bool) (hstep : (s.col col).stepping = false)
    (hn : ((s.col col).slot k).hnd = false) (hm : m ≠ 0) (hh : s.HandlerAt col 0x10 h) :
    s.Trapped (s.perform col k marker (.trap 0x10 m 0 0 pc)) col k 0x10 m 0 0 pc h
      ∧ ((s.perform col k marker (.trap 0x10 m 0 0 pc)).col col).stop = some ⟨k, none, (s.col col).slotLanes⟩ := by
  have hcol := s.col_counted col k
  have hgr : ((s.withIssue (s.counted col k).cols s.cores s.run).col col).group = (s.col col).group := (congrArg Column.group hcol).trans rfl
  obtain ⟨hhdr, hctx⟩ := State.ctxOf_withIssue _ _ hgr
  have hh' : (s.counted col k).HandlerAt col 0x10 h :=
    State.handlerAt_withFaults _ (s.counted col k).faults (State.handlerAt_withIssue s _ _ _ col 0x10 h hhdr hctx hh)
  have hn' : (((s.counted col k).col col).slot k).hnd = false := by rw [hcol, Column.slot_countWord]; exact hn
  rw [State.perform_breakpoint marker hstep]
  obtain ⟨ht, hst⟩ := State.stopTrap_takes (pc := pc) hn' hm hh' (by decide)
  refine ⟨ht.of_same rfl rfl, ?_⟩
  rw [hst, hcol, Column.slotLanes_countWord]

/-! ## The return from a trap (R309) -/

/-- Every lane of a split that leaves its handler, held ones too, stands at %tpc. -/
theorem Column.laneAt_leaveTrap {c : Column} {k l : Nat} (hl : (c.slot k).lanes.getLsbD l = true) : (c.leaveTrap k).LaneAt l (pcOf (c.slot k).trap.tpc) :=
  Column.laneAt_setSlot_same (sp := { c.slot k with mask := (c.slot k).lanes, held := 0, pc := pcOf (c.slot k).trap.tpc, hnd := false }) hl

/-- The column of a counted word whose split leaves its handler. -/
def Column.returned (c : Column) (k : Nat) (stop : Option StopSt) : Column := ({ c.countWord k with stop := stop } : Column).leaveTrap k

theorem Column.keepsAll_stop {c c' : Column} (h : c.KeepsAll c') (stop : Option StopSt) : ({ c with stop := stop } : Column).KeepsAll { c' with stop := stop } := by
  unfold Column.KeepsAll at h ⊢; rw [h]

theorem Column.slot_stop (c : Column) (stop : Option StopSt) (k : Nat) : ({ c with stop := stop } : Column).slot k = c.slot k := rfl

theorem Column.returned_spec (c : Column) (k : Nat) (stop : Option StopSt) : (c.returned k stop).retired = (c.retired + 1) % 2 ^ 48
    ∧ ({ c with stop := stop } : Column).KeepsAll (c.returned k stop)
    ∧ ∀ l, (c.slot k).lanes.getLsbD l = true → (c.returned k stop).LaneAt l (pcOf (c.slot k).trap.tpc) := by
  unfold Column.returned
  refine ⟨?_, (Column.keepsAll_stop (c.keepsAll_countWord k) stop).trans (Column.keepsAll_modSlot _ k _), fun l hl => ?_⟩
  · unfold Column.leaveTrap
    rw [Column.modSlot_retired]; exact c.retired_countWord k
  · have hs : ({ c.countWord k with stop := stop } : Column).slot k = (c.countWord k).slot k := Column.slot_stop _ stop k
    have ht : (({ c.countWord k with stop := stop } : Column).slot k).trap = (c.slot k).trap := by rw [hs, Column.slot_countWord]
    have h := Column.laneAt_leaveTrap (c := { c.countWord k with stop := stop }) (k := k) (l := l) (by rw [hs, Column.slot_countWord]; exact hl)
    rwa [ht] at h

theorem Ctx.leave_placed (x : Ctx) (stop : Option StopSt) (ht : targetOk x.col x.sp.trap.tpc = true) : x.leave stop =
    .placed ((x.s.setCol x.col (x.c.returned x.k stop)).endRun x.col x.k ((x.c.returned x.k stop).restCond ((x.c.returned x.k stop).slot x.k).mask)) := by
  unfold Ctx.leave Column.returned
  rw [if_pos ht]

/-- A word with which the split leaves its handler. -/
theorem State.leaves {s : State} {i : Instr} {w : Full} {col k : Nat} {f : KHdr → Full → Fmt} {pts : Ctx → List Pt} (hi : s.Issues col k)
    (hc : s.Clears col k w f pts) (body : Ctx → Eff) (he : exec i s = s.word w f pts body) (stop : Option StopSt)
    (hb : body (s.ctxFor col k w) = (s.ctxFor col k w).leave stop) (ht : targetOk col ((s.col col).slot k).trap.tpc = true) :
    ∃ t, exec i s = .next t ∧ s.OnlyColumn t col k ∧ s.RunEnds t col k
      ∧ (∀ l, l < 32 → ((s.col col).slot k).lanes.getLsbD l = true → (t.col col).LaneAt l (pcOf ((s.col col).slot k).trap.tpc))
      ∧ (t.col col).retired = ((s.col col).retired + 1) % 2 ^ 48 ∧ ({ s.col col with stop := stop } : Column).KeepsAll (t.col col) := by
  obtain ⟨hret, hkeep, hlanes⟩ := (s.col col).returned_spec k stop
  have hex := State.exec_placed hi hc body he (hb.trans (Ctx.leave_placed (s.ctxFor col k w) stop ht))
  rw [show (s.ctxFor col k w).c.returned (s.ctxFor col k w).k stop = (s.col col).returned k stop from rfl] at hex
  generalize ((s.col col).returned k stop).restCond _ = cond at hex
  have hcol : (((s.setCol col ((s.col col).returned k stop)).endRun col k cond).dropFaults fun f => f == .split col k).col col
      = ((s.col col).returned k stop).endRun k cond := by
    rw [State.col_dropFaults, State.col_endRun, State.col_setCol_same]
  refine ⟨_, hex, State.onlyColumn_dropFaults ((s.touches_setCol col _).trans (State.touches_endRun _ col k cond)) (State.faults_endRun _ _ _ _),
    State.runEnds_endRun (u := s.setCol col ((s.col col).returned k stop)) (State.setCol_cores _ _ _) k cond, fun l h32 hl => ?_, ?_, ?_⟩
  · exact hcol ▸ Column.staysPut_endRun _ k cond l _ h32 (hlanes l hl)
  · exact (congrArg Column.retired hcol).trans ((Column.mec_endRun _ k cond).2.trans hret)
  · exact hcol ▸ hkeep.trans (Column.keepsAll_endRun _ k cond)

theorem stopCode_iff {c : Byte} : stopCode c = true ↔ c = 0x10 ∨ c = 0x11 := by
  unfold stopCode; rw [Bool.or_eq_true, beq_iff_eq, beq_iff_eq]

theorem trap_number_lt {h : KHdr} {w : Full} (hc : check6 h w (fmtTrap h w) = none) : immN w < 32 := by
  have hm := more_of_check6 hc
  by_contra hlt
  exact absurd ((if_pos (by omega : 31 < immN w)).symm.trans hm) nofun

/-- A word without an enabled lane that answers that it goes on. -/
theorem State.passes_go {s : State} {i : Instr} {col k : Nat} (hi : s.Issues col k) {marker : Bool}
    (h : exec i s = .next (s.perform col k marker (.go s none false))) : s.Passes i col k marker :=
  ⟨_, h, State.performed_same hi marker⟩

/-- Settles O30: TRAP and BKPT by the trap taken after the counted word, RTRAP by the lanes of the split that leaves its handler. -/
theorem trapsAndReturns : Obligations.TrapsAndReturns := by
  unfold Obligations.TrapsAndReturns
  intro s w col k hi
  dsimp only
  refine ⟨fun hc => ⟨fun he => ?_, fun h he hn hh => ?_⟩, fun hc => ⟨fun he => ?_, fun h he hn hh => ?_⟩, fun hc hn => ⟨fun he => ?_, fun he ht => ?_⟩,
    fun hc hn h10 => ⟨fun he => ?_, fun he ht => ?_⟩⟩
  · exact State.passes_go hi (State.word_answers hi hc (if_pos he))
  · have h31 := trap_number_lt hc.check6
    have h8 : s.walked col (0x20 + immN w) 0 = s := State.walked_of_ne (by omega)
    have ht := State.perform_trapped (a := 0) (info := 0) (pc := pcNext (s.ctxFor col k w).sp.pc) w.marker hi.2.2 hn he (by omega) (by omega) (h8.symm ▸ hh)
    exact ⟨_, State.word_answers hi hc (if_neg he), ht⟩
  · exact State.passes_go hi (State.word_answers hi hc (if_pos he))
  · exact ⟨_, State.word_answers hi hc (if_neg he), State.perform_stopped w.marker hi.2.2 hn (Ctx.mask_of_enabled he) hh⟩
  · exact State.passes_go hi (State.word_answers hi hc ((if_neg (by rw [hn]; decide)).trans (if_pos he)))
  · refine State.leaves hi hc _ rfl _ ((if_neg (by rw [hn]; decide)).trans ((if_neg he).trans ?_)) ht
    exact congrArg _ (if_congr stopCode_iff rfl rfl)
  · have hcode : ¬((!stopCode (s.ctxFor col k w).sp.trap.tcode) = true) := by rw [stopCode_iff.mpr h10]; decide
    exact State.passes_go hi (State.word_answers hi hc ((if_neg (by rw [hn]; decide)).trans ((if_neg hcode).trans (if_pos he))))
  · have hcode : ¬((!stopCode (s.ctxFor col k w).sp.trap.tcode) = true) := by rw [stopCode_iff.mpr h10]; decide
    exact State.leaves hi hc _ rfl _ ((if_neg (by rw [hn]; decide)).trans ((if_neg hcode).trans (if_neg he))) ht

end Sys2Proof.Machine

/-!
SUPPORT. Rejoin masks (R130, R135, R287 to R289): what JOIN does to the lanes of its split and those parked at it, and the obligation O28.
-/

namespace Sys2Proof.Machine

/-! ## Masks written and moved (R287, R289) -/

theorem getLsbD_noLane (l : Nat) : (0 : Mask).getLsbD l = false := BitVec.getLsbD_zero

theorem Column.rdPp_wrPm (c : Column) (n m : Nat) (x q : Mask) : (c.wrPm n x q).rdPp m = if m = 0 then 0 else if m = n then q else c.rdPp m := by
  unfold Column.rdPp Column.wrPm
  by_cases hm : m = 0
  · simp [hm]
  · by_cases hn : n = 0
    · subst hn; simp [hm]
    · simp [hm, hn, tabGet_tabSet]

/-- A whole predicate is written (R287). -/
theorem Column.regs_pm (c : Column) (n : Nat) (x : Mask) : c.Regs (c.wrPm n x 0) (fun _ _ => none) (fun _ => none)
    (fun r l => if r = n ∧ r ≠ 0 then some (x.getLsbD l, false) else none) := by
  have hvs : ∀ m l, ((c.wrPm n x 0).rdV m l, (c.wrPm n x 0).rdVp m l, (c.wrPm n x 0).rdS m, (c.wrPm n x 0).rdSp m)
      = (c.rdV m l, c.rdVp m l, c.rdS m, c.rdSp m) := fun m l => by unfold Column.wrPm; split <;> rfl
  refine ⟨fun m l _ => ?_, fun m _ => ?_, fun m l _ => ?_⟩
  · have h := hvs m l
    simp only [Prod.mk.injEq] at h
    rw [h.1, h.2.1]; rfl
  · have h := hvs m 0
    simp only [Prod.mk.injEq] at h
    rw [h.2.2.1, h.2.2.2]; rfl
  · show (_, _) = Option.getD (if m = n ∧ m ≠ 0 then some (x.getLsbD l, false) else none) (_, _)
    rw [Column.rdP_wrPm, Column.rdPp_wrPm]
    by_cases h0 : m = 0
    · subst h0; rw [if_pos rfl, if_pos rfl, if_neg fun h => h.2 rfl]; rfl
    · rw [if_neg h0, if_neg h0]
      by_cases hn : m = n
      · rw [if_pos hn, if_pos hn, if_pos ⟨hn, h0⟩, getLsbD_noLane]; rfl
      · rw [if_neg hn, if_neg hn, if_neg fun h => hn h.1]; rfl

theorem Column.keepsAll_setJ {c c' : Column} {n : Nat} {m : Mask} (h : (c.wrJ n m).KeepsAll c') :
    ({ c with j := c'.j } : Column).KeepsAll c' ∧ ∀ i, c'.rdJ i = if i = n then m else c.rdJ i := by
  have hj : ∀ i, c'.rdJ i = (c.wrJ n m).rdJ i := fun i => (congrArg (fun c : Column => c.rdJ i) (show _ = _ from h)).trans rfl
  refine ⟨?_, fun i => (hj i).trans (c.rdJ_wrJ n i m)⟩
  unfold Column.KeepsAll at h ⊢
  rw [h]; rfl

/-- A word that writes a rejoin mask. -/
theorem State.sets_j {s : State} {i : Instr} {col k : Nat} (hi : s.Issues col k) {marker : Bool} (n : Nat) (m : Mask) (en : Mask)
    (h : exec i s = .next (s.perform col k marker (if en = 0 then .go s none false
      else .go (s.setCol col ((s.col col).wrJ n (m &&& (s.col col).live))) none false))) : ∃ t, exec i s = .next t ∧ s.Performed t col k marker
      ∧ ({ s.col col with j := (t.col col).j } : Column).KeepsAll (t.col col)
      ∧ ∀ r, (t.col col).rdJ r = if en ≠ 0 ∧ r = n then m &&& (s.col col).live else (s.col col).rdJ r := by
  by_cases he : en = 0
  · rw [if_pos he] at h
    obtain ⟨hp, hk⟩ := State.performed_same hi marker
    refine ⟨_, h, hp, ?_, fun r => ?_⟩
    · rw [show ((s.perform col k marker (.go s none false)).col col).j = (s.col col).j from (congrArg Column.j (show _ = _ from hk)).trans rfl]
      exact hk
    · rw [if_neg fun h => h.1 he]
      exact (congrArg (fun c : Column => c.rdJ r) (show _ = _ from hk)).trans rfl
  · rw [if_neg he] at h
    obtain ⟨hp, hk⟩ := State.performed_setCol hi marker ((s.col col).wrJ n (m &&& (s.col col).live)) rfl rfl rfl rfl (fun _ _ => rfl)
    obtain ⟨hkeep, hj⟩ := Column.keepsAll_setJ hk
    exact ⟨_, h, hp, hkeep, fun r => (hj r).trans (if_congr ⟨fun hr => ⟨he, hr⟩, fun hr => hr.2⟩ rfl rfl)⟩

/-! ## JOIN (R288) -/

/-- A column but for its parked lanes. -/
theorem Column.keepsAll_parked {c c' : Column} {ps : List ParkedLane} (h : ({ c with parked := ps } : Column).KeepsAll c') :
    ({ c with parked := c'.parked } : Column).KeepsAll c' ∧ c'.parked = ps := by
  have hp : c'.parked = ps := (congrArg Column.parked (show _ = _ from h)).trans rfl
  exact ⟨by rw [hp]; exact h, hp⟩

theorem Column.mem_joined {c : Column} {pc : DWord} {l : Nat} (hl : l < 32) :
    (c.joined pc).getLsbD l = true ↔ ∃ p, p ∈ c.parked ∧ p.bar = false ∧ p.pc = pc ∧ p.lane = l := by
  unfold Column.joined
  rw [getLsbD_maskOf _ hl]
  simp only [List.mem_map, List.mem_filter, Bool.and_eq_true, Bool.not_eq_true', beq_iff_eq]
  exact ⟨fun ⟨p, ⟨hp, hb, hpc⟩, hl⟩ => ⟨p, hp, hb, hpc, hl⟩, fun ⟨p, hp, hb, hpc, hl⟩ => ⟨p, ⟨hp, hb, hpc⟩, hl⟩⟩

/-- The lanes parked elsewhere than at the JOIN word at a PC. -/
def Column.unjoined (c : Column) (pc : DWord) : List ParkedLane := c.parked.filter fun p => !(!p.bar && p.pc == pc)

theorem Column.mem_unjoined {c : Column} {pc : DWord} {p : ParkedLane} : p ∈ c.unjoined pc ↔ p ∈ c.parked ∧ (p.bar = true ∨ p.pc ≠ pc) := by
  unfold Column.unjoined
  rw [List.mem_filter]
  simp only [Bool.not_and, Bool.not_not, Bool.or_eq_true, Bool.not_eq_true', beq_eq_false_iff_ne]

/-- What JOIN tests: no live lane of its mask is still to come. -/
theorem Column.join_test (c : Column) (j : Nat) (en : Mask) (pc : DWord) : c.rdJ j &&& c.live &&& ~~~(en ||| c.joined pc) = 0 ↔
    ∀ l, l < 32 → (c.rdJ j).getLsbD l = true → c.live.getLsbD l = true →
      en.getLsbD l = true ∨ ∃ p, p ∈ c.parked ∧ p.bar = false ∧ p.pc = pc ∧ p.lane = l := by
  have hbit : ∀ l, l < 32 → ((c.rdJ j &&& c.live &&& ~~~(en ||| c.joined pc)).getLsbD l = true ↔
      (c.rdJ j).getLsbD l = true ∧ c.live.getLsbD l = true ∧ ¬(en.getLsbD l = true ∨ (c.joined pc).getLsbD l = true)) := fun l hl => by
    rw [BitVec.getLsbD_and, BitVec.getLsbD_and, BitVec.getLsbD_not, BitVec.getLsbD_or, decide_eq_true hl]
    simp only [Bool.true_and, Bool.and_eq_true, Bool.not_eq_true', Bool.or_eq_false_iff, not_or, Bool.not_eq_true, and_assoc]
  constructor
  · intro h0 l hl hj hlive
    rw [← Column.mem_joined hl]
    by_contra hn
    have := (hbit l hl).mpr ⟨hj, hlive, hn⟩
    rw [h0, getLsbD_noLane] at this
    cases this
  · intro h
    refine BitVec.eq_of_getLsbD_eq fun l hl => ?_
    rw [getLsbD_noLane]
    by_contra hn
    obtain ⟨hj, hlive, hnot⟩ := (hbit l hl).mp (Bool.eq_true_of_not_eq_false hn)
    exact hnot ((h l hl hj hlive).imp id (Column.mem_joined hl).mpr)

/-- The group that keeps the slot: that of the split's lowest lane. -/
def firstGroup (old : Mask) (gs : List Mask) : Mask :=
  match gs.filter fun m => m.getLsbD (lowLane old) with
  | m :: _ => m
  | [] => gs.headD 0

theorem mem_firstGroup (old : Mask) {gs : List Mask} (hg : gs ≠ []) : firstGroup old gs ∈ gs := by
  unfold firstGroup
  split
  · next m ms hf => exact (List.mem_filter.mp (by rw [hf]; exact List.mem_cons_self : m ∈ gs.filter fun m => m.getLsbD (lowLane old))).1
  · cases gs with
    | nil => exact absurd rfl hg
    | cons g gs => exact List.mem_cons_self

/-- The slot of a split whose first group goes on in it. -/
def Column.groupSlot (c : Column) (k : Nat) (first : Mask) : Split :=
  { c.slot k with pc := pcNext (c.slot k).pc, mask := first, wcnt := 0, runLen := 0, pend := [], cond := c.restCond first }

theorem Column.regroup_of_first (c : Column) (k : Nat) (old : Mask) (gs : List Mask) (hne : firstGroup old (gs.filter (· != 0)) ≠ 0) :
    c.regroup k old gs = ((({ c with mec := c.mec + 1 } : Column).setSlot k (c.groupSlot k (firstGroup old (gs.filter (· != 0))))).placeGroups
      (((gs.filter (· != 0)).filter (· != firstGroup old (gs.filter (· != 0)))).map fun m => (pcNext (c.slot k).pc, m))).marked k := by
  unfold Column.regroup
  exact congrArg (fun d : Column => (d.placeGroups (((gs.filter (· != 0)).filter (· != firstGroup old (gs.filter (· != 0)))).map
    fun m => (pcNext (c.slot k).pc, m))).marked k) (if_neg fun h => hne h.1)

/-- The groups of a split go on at the next word: one keeps the slot, the others are placed. -/
theorem Column.regroup_eq (c : Column) (k : Nat) (old : Mask) {gs : List Mask} (hg : gs.filter (· != 0) ≠ []) : ∃ d sp,
    c.regroup k old gs = (((d.setSlot k sp).placeGroups (((gs.filter (· != 0)).filter (· != sp.mask)).map fun m => (pcNext (c.slot k).pc, m))).marked k)
      ∧ d.slots = c.slots ∧ d.pool = c.pool ∧ c.KeepsAll d ∧ d.retired = c.retired ∧ sp.pc = pcNext (c.slot k).pc := by
  have hne : firstGroup old (gs.filter (· != 0)) ≠ 0 := by simpa using (List.mem_filter.mp (mem_firstGroup old hg)).2
  exact ⟨_, _, c.regroup_of_first k old gs hne, rfl, rfl, c.keepsAll_mec _, rfl, rfl⟩

/-- Every group stands at the next word, and no lane outside the split moves. -/
theorem Column.regroup_spec (c : Column) (k : Nat) (old : Mask) {gs : List Mask} (hg : gs.filter (· != 0) ≠ []) :
    (∀ g ∈ gs, ∀ l, l < 32 → g.getLsbD l = true → (c.regroup k old gs).LaneAt l (pcNext (c.slot k).pc))
      ∧ (∀ l pc, l < 32 → (c.slot k).mask.getLsbD l = false → c.LaneAt l pc → (c.regroup k old gs).LaneAt l pc)
      ∧ c.KeepsAll (c.regroup k old gs) ∧ (c.regroup k old gs).retired = c.retired := by
  obtain ⟨d, sp, he, hs, hp, hk, hr, hpc⟩ := c.regroup_eq k old hg
  have hslot : d.slot k = c.slot k := by unfold Column.slot; rw [hs]
  obtain ⟨hput, hgroups⟩ := Column.placeGroups_spec (((gs.filter (· != 0)).filter (· != sp.mask)).map fun m => (pcNext (c.slot k).pc, m)) (d.setSlot k sp)
  rw [he]
  refine ⟨fun g hmem l hl hgl => Column.staysPut_marked _ k l _ hl ?_, fun l pc hl hm h => Column.staysPut_marked _ k l _ hl (hput l pc hl ?_), ?_, ?_⟩
  · by_cases hf : g = sp.mask
    · exact hput l _ hl (hpc ▸ Column.laneAt_setSlot_same (hf ▸ hgl))
    · have hg0 : g ≠ 0 := fun h0 => by rw [h0, getLsbD_noLane] at hgl; cases hgl
      exact hgroups _ (List.mem_map.mpr ⟨g, List.mem_filter.mpr ⟨List.mem_filter.mpr ⟨hmem, by simpa using hg0⟩, by simpa using hf⟩, rfl⟩) l hl hgl
  · exact Column.laneAt_setSlot_other sp (hslot ▸ hm) (Column.staysPut_of_eq hs hp l pc hl h)
  · exact ((hk.trans (d.keepsAll_setSlot k sp)).trans (Column.keepsAll_placeGroups _ _)).trans (Column.keepsAll_marked _ k)
  · rw [Column.retired_marked, Column.retired_placeGroups, Column.setSlot_retired, hr]

theorem Column.LanesGo.of_stays {a b c : Column} {k : Nat} {f : Nat → DWord} (h : b.LanesGo c k f) (hm : (b.slot k).mask = (a.slot k).mask)
    (hp : a.StaysPut b) : a.LanesGo c k f := by
  intro l hl
  obtain ⟨h1, h2⟩ := h l hl
  rw [hm] at h1 h2
  exact ⟨h1, fun pc hn ha => h2 pc hn (hp l pc hl ha)⟩

/-- A word that has written its column itself, with the faults on which it waited gone. -/
theorem State.placed_drop {s u : State} {col k : Nat} {c1 : Column} {f : Nat → DWord} (hu : s.Touches u col) (hf : u.faults = s.faults)
    (hcol : u.col col = c1) (hret : c1.retired = ((s.col col).retired + 1) % 2 ^ 48) (hgo : (s.col col).LanesGo c1 k f) :
    s.Placed (u.dropFaults fun f => f == .split col k) col k f ∧ (u.dropFaults fun f => f == .split col k).col col = c1 :=
  have hc := (u.col_dropFaults (fun f => f == .split col k) col).trans hcol
  ⟨State.placed_of (State.onlyColumn_dropFaults hu hf) hc hret hgo, hc⟩

/-- A word that has written its column and goes on: its lanes stand at the next word, whether its run ends or not. -/
theorem State.placed_advance {s : State} {col k : Nat} (marker : Bool) {c1 : Column} (hret : c1.retired = ((s.col col).retired + 1) % 2 ^ 48)
    (hput : (s.col col).StaysPut c1) (hm : (c1.slot k).mask = ((s.col col).slot k).mask) (hpc : (c1.slot k).pc = ((s.col col).slot k).pc) :
    s.Placed (((s.setCol col c1).advance col k marker none false).dropFaults fun f => f == .split col k) col k (fun _ => pcNext ((s.col col).slot k).pc)
      ∧ c1.KeepsAll ((((s.setCol col c1).advance col k marker none false).dropFaults fun f => f == .split col k).col col) := by
  have hgo : (s.col col).LanesGo (c1.setSlot k { c1.slot k with pc := pcNext (c1.slot k).pc }) k fun _ => pcNext ((s.col col).slot k).pc := by
    have h := (c1.lanesGo_setSlot k { c1.slot k with pc := pcNext (c1.slot k).pc } rfl).of_stays hm hput
    rw [← hpc]; exact h
  have hkeep := c1.keepsAll_setSlot k { c1.slot k with pc := pcNext (c1.slot k).pc }
  have hret' := (c1.setSlot_retired k { c1.slot k with pc := pcNext (c1.slot k).pc }).trans hret
  rw [State.advance_on, State.col_setCol_same]
  generalize c1.setSlot k { c1.slot k with pc := pcNext (c1.slot k).pc } = c2 at *
  have hu := (s.touches_setCol col c1).trans (State.touches_setCol _ col c2)
  split
  · have hcol := (((s.setCol col c1).setCol col c2).col_endRun col k (c1.restCond (c1.slot k).mask))
    rw [State.col_setCol_same] at hcol
    obtain ⟨hp, hc⟩ := State.placed_drop (k := k) (hu.trans (State.touches_endRun _ col k (c1.restCond (c1.slot k).mask))) (State.faults_endRun _ _ _ _) hcol
      ((c2.mec_endRun k _).2.trans hret') (hgo.stays (c2.staysPut_endRun k _))
    exact ⟨hp, hc.symm ▸ hkeep.trans (c2.keepsAll_endRun k _)⟩
  · obtain ⟨hp, hc⟩ := State.placed_drop (k := k) hu rfl ((s.setCol col c1).col_setCol_same col c2) hret' hgo
    exact ⟨hp, hc.symm ▸ hkeep⟩

theorem Column.mask_countWord (c : Column) (k : Nat) : ((c.countWord k).slot k).mask = (c.slot k).mask := by rw [Column.slot_countWord]

theorem Column.pc_countWord (c : Column) (k : Nat) : ((c.countWord k).slot k).pc = (c.slot k).pc := by rw [Column.slot_countWord]

/-- The column of a JOIN that passes with no lane parked at it. -/
def Column.joinsAlone (c : Column) (k : Nat) : Column := (c.countWord k).modSlot k fun sp => { sp with wcnt := 0 }

theorem Column.joinsAlone_spec (c : Column) (k : Nat) : (c.joinsAlone k).retired = (c.retired + 1) % 2 ^ 48 ∧ c.StaysPut (c.joinsAlone k)
    ∧ ((c.joinsAlone k).slot k).mask = (c.slot k).mask ∧ ((c.joinsAlone k).slot k).pc = (c.slot k).pc ∧ c.KeepsAll (c.joinsAlone k) := by
  unfold Column.joinsAlone
  refine ⟨?_, (c.staysPut_countWord k).trans (Column.staysPut_modSlot rfl rfl), ?_, ?_, (c.keepsAll_countWord k).trans (Column.keepsAll_modSlot _ k _)⟩
  · rw [Column.modSlot_retired, Column.retired_countWord]
  · rw [Column.slot_modSlot_same]; exact c.mask_countWord k
  · rw [Column.slot_modSlot_same]; exact c.pc_countWord k

theorem Column.retired_parked (c : Column) (ps : List ParkedLane) : ({ c with parked := ps } : Column).retired = c.retired := rfl

theorem Column.slot_parked (c : Column) (ps : List ParkedLane) (k : Nat) : ({ c with parked := ps } : Column).slot k = c.slot k := rfl

theorem Column.keepsAll_setParked {c c' : Column} (h : c.KeepsAll c') (ps : List ParkedLane) :
    ({ c with parked := ps } : Column).KeepsAll { c' with parked := ps } := by
  unfold Column.KeepsAll at h ⊢; rw [h]

/-- The column of a JOIN that passes with the lanes parked at it. -/
def Column.joinsAll (c : Column) (k : Nat) (en here : Mask) (ps : List ParkedLane) : Column :=
  (({ c with parked := ps } : Column).countWord k).regroup k (c.slot k).mask [en ||| here, (c.slot k).mask &&& ~~~en]

theorem Column.joinsAll_spec (c : Column) (k : Nat) {en : Mask} (here : Mask) (ps : List ParkedLane) (he : en ≠ 0) :
    c.LanesGo (c.joinsAll k en here ps) k (fun _ => pcNext (c.slot k).pc)
      ∧ (∀ l, l < 32 → here.getLsbD l = true → (c.joinsAll k en here ps).LaneAt l (pcNext (c.slot k).pc))
      ∧ ({ c with parked := ps } : Column).KeepsAll (c.joinsAll k en here ps) ∧ (c.joinsAll k en here ps).retired = (c.retired + 1) % 2 ^ 48 := by
  unfold Column.joinsAll
  have hput : c.StaysPut (({ c with parked := ps } : Column).countWord k) := (Column.staysPut_of_eq rfl rfl).trans (Column.staysPut_countWord _ k)
  have hmask := (({ c with parked := ps } : Column).mask_countWord k).trans (congrArg Split.mask (c.slot_parked ps k))
  have hpc := (({ c with parked := ps } : Column).pc_countWord k).trans (congrArg Split.pc (c.slot_parked ps k))
  have hkeep := ({ c with parked := ps } : Column).keepsAll_countWord k
  have hret := (({ c with parked := ps } : Column).retired_countWord k).trans (congrArg (fun n => (n + 1) % 2 ^ 48) (c.retired_parked ps))
  generalize ({ c with parked := ps } : Column).countWord k = d at *
  have hne : [en ||| here, (c.slot k).mask &&& ~~~en].filter (· != 0) ≠ [] :=
    List.ne_nil_of_mem (List.mem_filter.mpr ⟨List.mem_cons_self, by simpa using fun h0 => absurd h0 he⟩)
  obtain ⟨hgroup, hother, hk, hr⟩ := d.regroup_spec k (c.slot k).mask hne
  rw [hpc] at hgroup
  rw [hmask] at hother
  refine ⟨fun l hl => ⟨fun hm => ?_, fun pc hm h => hother l pc hl hm (hput l pc hl h)⟩, fun l hl hh => ?_, hkeep.trans hk, hr.trans hret⟩
  · cases hel : en.getLsbD l with
    | true => exact hgroup _ List.mem_cons_self l hl (getLsbD_or_left hel)
    | false => exact hgroup _ (List.mem_cons_of_mem _ List.mem_cons_self) l hl (getLsbD_without hm hel)
  · exact hgroup _ List.mem_cons_self l hl (getLsbD_or_right hh)

/-- The lanes that park at a word. -/
def parkedOf (m : Mask) (pc : DWord) (bar : Bool) (id : Nat) : List ParkedLane := (lanesOf m).map fun l => ⟨l, pc, bar, id⟩

/-- Lanes of a split park: the others stand at the next word, and no other lane moves. -/
theorem Column.parkAt_spec (c : Column) (k : Nat) (m : Mask) (bar : Bool) (id : Nat) :
    (∀ l, l < 32 → (c.slot k).mask.getLsbD l = true → m.getLsbD l = false → (c.parkAt k m bar id).LaneAt l (pcNext (c.slot k).pc))
      ∧ (∀ l pc, l < 32 → (c.slot k).mask.getLsbD l = false → c.LaneAt l pc → (c.parkAt k m bar id).LaneAt l pc)
      ∧ ({ c with parked := c.parked ++ parkedOf m (c.slot k).pc bar id } : Column).KeepsAll (c.parkAt k m bar id)
      ∧ (c.parkAt k m bar id).retired = c.retired := by
  obtain ⟨hleft, hother⟩ := ({ c with parked := c.parked ++ parkedOf m (c.slot k).pc bar id } : Column).unslot_spec k m
  exact ⟨hleft, fun l pc hl hm h => hother l pc hl hm (Column.staysPut_of_eq rfl rfl l pc hl h), Column.keepsAll_unslot _ k m, Column.retired_unslot _ k m⟩

/-- The column of a JOIN at which the enabled lanes park. -/
def Column.joinParks (c : Column) (k : Nat) (m : Mask) (id : Nat) : Column := ((c.countWord k).parkAt k m false id).marked k

theorem Column.joinParks_spec (c : Column) (k : Nat) (m : Mask) (id : Nat) :
    (∀ l, l < 32 → (c.slot k).mask.getLsbD l = true → m.getLsbD l = false → (c.joinParks k m id).LaneAt l (pcNext (c.slot k).pc))
      ∧ ({ c with parked := c.parked ++ parkedOf m (c.slot k).pc false id } : Column).KeepsAll (c.joinParks k m id) := by
  obtain ⟨hleft, -, hkeep, -⟩ := (c.countWord k).parkAt_spec k m false id
  rw [c.pc_countWord, c.mask_countWord] at hleft
  rw [c.pc_countWord, show (c.countWord k).parked = c.parked from rfl] at hkeep
  unfold Column.joinParks
  exact ⟨fun l hl hm hn => Column.staysPut_marked _ k l _ hl (hleft l hl hm hn),
    ((Column.keepsAll_setParked (c.keepsAll_countWord k) _).trans hkeep).trans (Column.keepsAll_marked _ k)⟩

/-- The state of a word that has counted its column, moved its lanes and ended its run (R136). -/
def State.rewritten (s : State) (col k : Nat) (d : Column) (f : Column → Column) : State :=
  (((s.setCol col d).modCol col f).endPipe col k).dropFaults fun f => f == .split col k

theorem State.col_rewritten (s : State) (col k : Nat) (d : Column) (f : Column → Column) : (s.rewritten col k d f).col col = f d :=
  ((State.col_dropFaults _ _ col).trans ((State.col_endPipe _ col k col).trans (State.col_modCol_same _ col f))).trans
    (congrArg f (State.col_setCol_same s col d))

theorem State.onlyColumn_rewritten (s : State) (col k : Nat) (d : Column) (f : Column → Column) : s.OnlyColumn (s.rewritten col k d f) col k
    ∧ s.RunEnds (s.rewritten col k d f) col k :=
  ⟨State.onlyColumn_dropFaults (((s.touches_setCol col d).trans (State.touches_modCol _ col f)).trans (State.touches_endPipe _ col k)) rfl, rfl, rfl⟩

theorem State.exec_join_alone {s : State} {w : Full} {col k : Nat} (hi : s.Issues col k) (hc : s.Clears col k w fmtJoin noPts)
    (hn : ((s.col col).slot k).hnd = false) (he : (s.ctxFor col k w).en ≠ 0)
    (ha : (s.col col).rdJ (numOf w.a) &&& (s.col col).live &&& ~~~((s.ctxFor col k w).en ||| (s.col col).joined ((s.col col).slot k).pc) = 0)
    (h0 : (s.col col).joined ((s.col col).slot k).pc = 0) :
    exec (.join w) s = .next (((s.setCol col ((s.col col).joinsAlone k)).advance col k w.marker none false).dropFaults fun f => f == .split col k) :=
  State.exec_placed hi hc _ rfl ((if_neg fun h => Bool.false_ne_true (hn.symm.trans h)).trans ((if_neg he).trans ((if_pos ha).trans (if_pos h0))))

theorem State.exec_join_all {s : State} {w : Full} {col k : Nat} (hi : s.Issues col k) (hc : s.Clears col k w fmtJoin noPts)
    (hn : ((s.col col).slot k).hnd = false) (he : (s.ctxFor col k w).en ≠ 0)
    (ha : (s.col col).rdJ (numOf w.a) &&& (s.col col).live &&& ~~~((s.ctxFor col k w).en ||| (s.col col).joined ((s.col col).slot k).pc) = 0)
    (h0 : (s.col col).joined ((s.col col).slot k).pc ≠ 0) :
    exec (.join w) s = .next (s.rewritten col k (({ s.col col with parked := (s.col col).unjoined ((s.col col).slot k).pc } : Column).countWord k) fun c =>
      c.regroup k ((s.col col).slot k).mask [(s.ctxFor col k w).en ||| (s.col col).joined ((s.col col).slot k).pc,
        ((s.col col).slot k).mask &&& ~~~(s.ctxFor col k w).en]) :=
  State.exec_placed hi hc _ rfl ((if_neg fun h => Bool.false_ne_true (hn.symm.trans h)).trans ((if_neg he).trans ((if_pos ha).trans (if_neg h0))))

theorem State.exec_join_parks {s : State} {w : Full} {col k : Nat} (hi : s.Issues col k) (hc : s.Clears col k w fmtJoin noPts)
    (hn : ((s.col col).slot k).hnd = false) (he : (s.ctxFor col k w).en ≠ 0)
    (ha : (s.col col).rdJ (numOf w.a) &&& (s.col col).live &&& ~~~((s.ctxFor col k w).en ||| (s.col col).joined ((s.col col).slot k).pc) ≠ 0) :
    exec (.join w) s = .next (s.rewritten col k ((s.col col).countWord k) fun c => (c.parkAt k (s.ctxFor col k w).en false (numOf w.a)).marked k) :=
  State.exec_placed hi hc _ rfl ((if_neg fun h => Bool.false_ne_true (hn.symm.trans h)).trans ((if_neg he).trans (if_neg ha)))

/-- JOIN once every live lane of its mask has reached it. -/
theorem State.join_passes {s : State} {w : Full} {col k : Nat} (hi : s.Issues col k) (hc : s.Clears col k w fmtJoin noPts)
    (hn : ((s.col col).slot k).hnd = false) (he : (s.ctxFor col k w).en ≠ 0)
    (ha : (s.col col).rdJ (numOf w.a) &&& (s.col col).live &&& ~~~((s.ctxFor col k w).en ||| (s.col col).joined ((s.col col).slot k).pc) = 0) :
    ∃ t, exec (.join w) s = .next t ∧ s.Placed t col k (fun _ => pcNext ((s.col col).slot k).pc)
      ∧ (∀ l, l < 32 → ((s.col col).joined ((s.col col).slot k).pc).getLsbD l = true → (t.col col).LaneAt l (pcNext ((s.col col).slot k).pc))
      ∧ (∀ p, p ∈ (t.col col).parked → p.lane < 32 → p.bar = true ∨ p.pc ≠ ((s.col col).slot k).pc)
      ∧ ({ s.col col with parked := (t.col col).parked } : Column).KeepsAll (t.col col) := by
  by_cases h0 : (s.col col).joined ((s.col col).slot k).pc = 0
  · obtain ⟨hret, hput, hm, hpc, hkeep⟩ := (s.col col).joinsAlone_spec k
    obtain ⟨hp, hk⟩ := State.placed_advance w.marker hret hput hm hpc
    obtain ⟨hkp, hpk⟩ := Column.keepsAll_parked (c := s.col col) (hkeep.trans hk)
    refine ⟨_, State.exec_join_alone hi hc hn he ha h0, hp, fun l _ hl => ?_, fun p hmem hl => ?_, hkp⟩
    · rw [h0, getLsbD_noLane] at hl; cases hl
    · rw [hpk] at hmem
      by_contra hno
      obtain ⟨hb, hpp⟩ := not_or.mp hno
      have hin := (Column.mem_joined (c := s.col col) hl).mpr ⟨p, hmem, Bool.eq_false_of_not_eq_true hb, not_not.mp hpp, rfl⟩
      rw [h0, getLsbD_noLane] at hin; cases hin
  · obtain ⟨hgo, hhere, hkeep, hret⟩ := (s.col col).joinsAll_spec k ((s.col col).joined ((s.col col).slot k).pc)
      ((s.col col).unjoined ((s.col col).slot k).pc) he
    refine ⟨_, State.exec_join_all hi hc hn he ha h0, ?_⟩
    have hcol := s.col_rewritten col k (({ s.col col with parked := (s.col col).unjoined ((s.col col).slot k).pc } : Column).countWord k) fun c =>
      c.regroup k ((s.col col).slot k).mask [(s.ctxFor col k w).en ||| (s.col col).joined ((s.col col).slot k).pc,
        ((s.col col).slot k).mask &&& ~~~(s.ctxFor col k w).en]
    obtain ⟨ho, -⟩ := s.onlyColumn_rewritten col k (({ s.col col with parked := (s.col col).unjoined ((s.col col).slot k).pc } : Column).countWord k) fun c =>
      c.regroup k ((s.col col).slot k).mask [(s.ctxFor col k w).en ||| (s.col col).joined ((s.col col).slot k).pc,
        ((s.col col).slot k).mask &&& ~~~(s.ctxFor col k w).en]
    generalize s.rewritten col k _ _ = t at *
    have hcol' : t.col col = (s.col col).joinsAll k (s.ctxFor col k w).en ((s.col col).joined ((s.col col).slot k).pc)
      ((s.col col).unjoined ((s.col col).slot k).pc) := hcol
    obtain ⟨hk, hpk⟩ := Column.keepsAll_parked (hcol'.symm ▸ hkeep)
    refine ⟨State.placed_of ho hcol' hret hgo, fun l h32 hl => hcol'.symm ▸ hhere l h32 hl, fun p hmem _ => ?_, hk⟩
    rw [hpk] at hmem
    exact (Column.mem_unjoined.mp hmem).2

/-- JOIN while a live lane of its mask has not reached it: the enabled lanes park (R288). -/
theorem State.join_parks {s : State} {w : Full} {col k : Nat} (hi : s.Issues col k) (hc : s.Clears col k w fmtJoin noPts)
    (hn : ((s.col col).slot k).hnd = false) (he : (s.ctxFor col k w).en ≠ 0)
    (ha : (s.col col).rdJ (numOf w.a) &&& (s.col col).live &&& ~~~((s.ctxFor col k w).en ||| (s.col col).joined ((s.col col).slot k).pc) ≠ 0) :
    ∃ t, exec (.join w) s = .next t ∧ s.OnlyColumn t col k ∧ s.RunEnds t col k
      ∧ (t.col col).parked = (s.col col).parked ++ parkedOf (s.ctxFor col k w).en ((s.col col).slot k).pc false (numOf w.a)
      ∧ (∀ l, l < 32 → ((s.col col).slot k).mask.getLsbD l = true → (s.ctxFor col k w).en.getLsbD l = false →
        (t.col col).LaneAt l (pcNext ((s.col col).slot k).pc))
      ∧ ({ s.col col with parked := (t.col col).parked } : Column).KeepsAll (t.col col) := by
  obtain ⟨hleft, hkeep⟩ := (s.col col).joinParks_spec k (s.ctxFor col k w).en (numOf w.a)
  have hcol : _ = (s.col col).joinParks k (s.ctxFor col k w).en (numOf w.a) := s.col_rewritten col k ((s.col col).countWord k) fun c =>
    (c.parkAt k (s.ctxFor col k w).en false (numOf w.a)).marked k
  obtain ⟨ho, hr⟩ := s.onlyColumn_rewritten col k ((s.col col).countWord k) fun c => (c.parkAt k (s.ctxFor col k w).en false (numOf w.a)).marked k
  rw [← hcol] at hleft hkeep
  obtain ⟨hk, hpk⟩ := Column.keepsAll_parked hkeep
  exact ⟨_, State.exec_join_parks hi hc hn he ha, ho, hr, hpk, hleft, hk⟩

theorem Column.keeps_of_keepsAll {c d c' : Column} (h : c.Keeps d) (h' : d.KeepsAll c') : c.Keeps c' := by
  unfold Column.Keeps Column.KeepsAll at *; rw [h']; rw [h]

/-- A word that writes whole registers of its column. -/
theorem State.writes_column {s : State} {i : Instr} {col k : Nat} (hi : s.Issues col k) {marker : Bool} {d : Column} {fv : Nat → Nat → Option (Word × Bool)}
    {fs : Nat → Option (DWord × Bool)} {fp : Nat → Nat → Option (Bool × Bool)}
    (h : exec i s = .next (s.perform col k marker (.go (s.setCol col d) none false)))
    (hk : (s.col col).Keeps d) (hd : (d.slots, d.pool, d.mec, d.retired, d.fpflags) =
      ((s.col col).slots, (s.col col).pool, (s.col col).mec, (s.col col).retired, (s.col col).fpflags))
    (hr : (s.col col).Regs d fv fs fp) : ∃ t, exec i s = .next t ∧ s.Performed t col k marker ∧ (s.col col).Keeps (t.col col)
      ∧ (t.col col).fpflags = (s.col col).fpflags ∧ (s.col col).Regs (t.col col) fv fs fp := by
  simp only [Prod.mk.injEq] at hd
  obtain ⟨hs, hp, hm, hret, hf⟩ := hd
  have hslot : ∀ j, d.slot j = (s.col col).slot j := fun j => by unfold Column.slot; rw [hs]
  obtain ⟨hpf, hka⟩ := State.performed_setCol hi marker d hm hp hret (by rw [hslot]) fun j _ => hslot j
  exact ⟨_, h, hpf, Column.keeps_of_keepsAll hk hka, ((congrArg Column.fpflags (show _ = _ from hka)).trans rfl).trans hf, hr.after hka⟩

theorem Column.keeps_wrPm (c : Column) (n : Nat) (m q : Mask) : c.Keeps (c.wrPm n m q) ∧
    ((c.wrPm n m q).slots, (c.wrPm n m q).pool, (c.wrPm n m q).mec, (c.wrPm n m q).retired, (c.wrPm n m q).fpflags) =
      (c.slots, c.pool, c.mec, c.retired, c.fpflags) := by
  unfold Column.wrPm; split <;> exact ⟨rfl, rfl⟩

theorem Column.keeps_wrS (c : Column) (n : Nat) (x : DWord) (q : Bool) : c.Keeps (c.wrS n x q) ∧
    ((c.wrS n x q).slots, (c.wrS n x q).pool, (c.wrS n x q).mec, (c.wrS n x q).retired, (c.wrS n x q).fpflags) =
      (c.slots, c.pool, c.mec, c.retired, c.fpflags) := by
  unfold Column.wrS; split <;> exact ⟨rfl, rfl⟩

/-- What JMOV writes. -/
def Column.moveMask (c : Column) (d : Opnd) (m : Mask) : Column :=
  match d with
  | .j n => c.wrJ n.toNat (m &&& c.live)
  | .p n => c.wrPm n.toNat m 0
  | .s n => c.wrS n.toNat (m.setWidth 64) false
  | _ => c

theorem State.exec_jmov {s : State} {w : Full} {col k : Nat} (hi : s.Issues col k) (hc : s.Clears col k w fmtJmov fun x => [x.ptMask])
    (he : (s.ctxFor col k w).en ≠ 0) {c' : Column} (hd : (s.col col).moveMask w.d ((s.col col).rdMask w.a) = c') :
    exec (.jmov w) s = .next (s.perform col k w.marker (.go (s.setCol col c') none false)) := by
  subst hd
  exact State.word_answers hi hc (if_neg he)

theorem State.exec_jmov_idle {s : State} {w : Full} {col k : Nat} (hi : s.Issues col k) (hc : s.Clears col k w fmtJmov fun x => [x.ptMask])
    (he : (s.ctxFor col k w).en = 0) : exec (.jmov w) s = .next (s.perform col k w.marker (.go s none false)) :=
  State.word_answers hi hc (if_pos he)

/-- JMOV to a rejoin mask, a predicate and a uniform register. -/
theorem State.jmov_writes {s : State} {w : Full} {col k : Nat} (hi : s.Issues col k) (hc : s.Clears col k w fmtJmov fun x => [x.ptMask])
    {src : Mask} (hs : (s.col col).rdMask w.a = src) :
    (∀ n, w.d = .j n → ∃ t, exec (.jmov w) s = .next t ∧ s.Performed t col k w.marker ∧ ({ s.col col with j := (t.col col).j } : Column).KeepsAll (t.col col)
      ∧ ∀ r, (t.col col).rdJ r = if (s.ctxFor col k w).en ≠ 0 ∧ r = numOf w.d then src &&& (s.col col).live else (s.col col).rdJ r)
    ∧ (∀ n, (s.ctxFor col k w).en ≠ 0 → w.d = .p n → ∃ t, exec (.jmov w) s = .next t ∧ s.Performed t col k w.marker ∧ (s.col col).Keeps (t.col col)
      ∧ (t.col col).fpflags = (s.col col).fpflags ∧ (s.col col).Regs (t.col col) (fun _ _ => none) (fun _ => none)
        (fun r l => if r = n.toNat ∧ r ≠ 0 then some (src.getLsbD l, false) else none))
    ∧ (∀ n, (s.ctxFor col k w).en ≠ 0 → w.d = .s n → ∃ t, exec (.jmov w) s = .next t ∧ s.Performed t col k w.marker ∧ (s.col col).Keeps (t.col col)
      ∧ (t.col col).fpflags = (s.col col).fpflags ∧ (s.col col).Regs (t.col col) (fun _ _ => none)
        (fun r => if r = n.toNat ∧ r ≠ 0 then some (src.setWidth 64, false) else none) (fun _ _ => none)) := by
  refine ⟨fun n hd => ?_, fun n he hd => ?_, fun n he hd => ?_⟩
  · refine State.sets_j hi (numOf w.d) src (s.ctxFor col k w).en (marker := w.marker) ?_
    by_cases he : (s.ctxFor col k w).en = 0
    · rw [if_pos he]; exact State.exec_jmov_idle hi hc he
    · rw [if_neg he]; exact State.exec_jmov hi hc he (by rw [hs, hd]; rfl)
  · have hw : (s.col col).moveMask w.d ((s.col col).rdMask w.a) = (s.col col).wrPm n.toNat src 0 := by rw [hs, hd]; rfl
    exact State.writes_column hi (State.exec_jmov hi hc he hw) ((s.col col).keeps_wrPm _ _ _).1 ((s.col col).keeps_wrPm _ _ _).2 ((s.col col).regs_pm _ _)
  · have hw : (s.col col).moveMask w.d ((s.col col).rdMask w.a) = (s.col col).wrS n.toNat (src.setWidth 64) false := by rw [hs, hd]; rfl
    exact State.writes_column hi (State.exec_jmov hi hc he hw) ((s.col col).keeps_wrS _ _ _).1 ((s.col col).keeps_wrS _ _ _).2 ((s.col col).regs_s n _ _)

/-- Settles O28: the masks by the column that is written, JOIN by its two ways to pass and by the lanes that park. -/
theorem rejoinMasks : Obligations.RejoinMasks := by
  unfold Obligations.RejoinMasks
  intro s w col k hi
  dsimp only
  refine ⟨fun hc => State.sets_j hi _ _ _ (State.word_clear hi.1 hc _), fun hc => State.sets_j hi _ _ _ (State.word_clear hi.1 hc _), fun hc => ?_, fun hc hn => ?_⟩
  · exact ⟨fun he => State.passes_go hi (State.exec_jmov_idle hi hc he), State.jmov_writes hi hc (by unfold Column.rdMask; cases w.a <;> rfl)⟩
  · have htest := (s.col col).join_test (numOf w.a) (s.ctxFor col k w).en ((s.col col).slot k).pc
    refine ⟨fun he => ?_, fun he ha => ?_, fun he ha => State.join_parks hi hc hn he fun h => ha (htest.mp h)⟩
    · exact State.passes_go hi (State.word_answers hi hc ((if_neg fun h => Bool.false_ne_true (hn.symm.trans h)).trans (if_pos he)))
    · obtain ⟨t, ht, hp, hhere, hrest, hk⟩ := State.join_passes hi hc hn he (htest.mpr ha)
      exact ⟨t, ht, hp, fun l hl hh => hhere l hl ((Column.mem_joined hl).mpr hh), hrest, hk⟩

end Sys2Proof.Machine

/-!
SUPPORT. Tile words at issue (R141, R205, R406 to R411): the operation that each puts into the machine, and the obligation O44.
-/

namespace Sys2Proof.Machine

/-! ## Words that leave a given state -/

/-- A word that goes on from a state which is s' but for its column's place in the table. -/
theorem State.does_go {s s' u : State} {i : Instr} {col k : Nat} {marker : Bool} (hi : s.Issues col k)
    (h : exec i s = .next (s.perform col k marker (.go u none false))) (hu : s'.Touches u col) (hf : u.faults = s'.faults) (hcr : u.cores = s'.cores)
    (hrn : u.run = s'.run) (hcol : u.col col = s'.col col) : s.Does i col k marker s' := by
  have hslot : ∀ c : Column, ((c.countWord k).slot k).runLen = (c.slot k).runLen + 1 ∧ ((c.countWord k).slot k).pc = (c.slot k).pc
      ∧ ((c.countWord k).slot k).mask = (c.slot k).mask ∧ ((c.countWord k).slot k).held = (c.slot k).held
      ∧ ((c.countWord k).slot k).trap = (c.slot k).trap := fun c => by rw [Column.slot_countWord]; exact ⟨rfl, rfl, rfl, rfl, rfl⟩
  obtain ⟨hlen, hrest⟩ := hslot (s'.col col)
  rw [State.perform_go hi.2.2] at h
  exact ⟨_, h, State.performed_on marker hlen hrest (fun j hj => Column.slot_countWord_ne _ k hj) (Column.retired_countWord _ k) rfl rfl
    (Column.keepsAll_countWord _ k) (hu.trans (u.touches_counted col k)) ((u.faults_counted col k).trans (by rw [hf])) hcr hrn
    ((u.col_counted col k).trans (congrArg (fun c : Column => c.countWord k) hcol))⟩

/-- A word that goes on from the state s' itself. -/
theorem State.does_exactly {s s' : State} {i : Instr} {col k : Nat} {marker : Bool} (hi : s.Issues col k)
    (h : exec i s = .next (s.perform col k marker (.go s' none false))) : s.Does i col k marker s' :=
  State.does_go hi h ⟨rfl, fun _ _ => rfl⟩ rfl rfl rfl rfl

/-- The column of a token register that is pending for an operation (R141). -/
def Column.token (c : Column) (treg op : Nat) : Column := if treg = 0 then c else { c with tokens := c.tokens ++ [(treg, op)] }

theorem State.does_token {s v : State} {i : Instr} {col k : Nat} {marker : Bool} (hi : s.Issues col k) (treg op : Nat)
    (h : exec i s = .next (s.perform col k marker (.go (v.setCol col ((v.col col).token treg op)) none false))) :
    s.Does i col k marker (v.Token col treg op) := by
  unfold State.Token Column.token at *
  by_cases ht : treg = 0
  · rw [if_pos ht] at h ⊢
    exact State.does_go hi h (v.touches_setCol col _) rfl rfl rfl (State.col_setCol_same v col _)
  · rw [if_neg ht] at h ⊢
    exact State.does_exactly hi h

/-! ## TDESC and TZERO (R406, R407) -/

theorem bnot_ne_true {b : Bool} (h : b = true) : ¬((!b) = true) := by rw [h]; decide

theorem foldl_range_four (f g : Nat → Nat) : (List.range 4).foldl (fun v i => v + f i * g i) 0 = f 0 * g 0 + f 1 * g 1 + f 2 * g 2 + f 3 * g 3 := by
  rw [show List.range 4 = [0, 1, 2, 3] from rfl, List.foldl_cons, List.foldl_cons, List.foldl_cons, List.foldl_cons, List.foldl_nil, Nat.zero_add]

theorem toNat_append_four (a3 a2 a1 a0 : DWord) : (a3 ++ a2 ++ a1 ++ a0).toNat =
    a0.toNat * 2 ^ (64 * 0) + a1.toNat * 2 ^ (64 * 1) + a2.toNat * 2 ^ (64 * 2) + a3.toNat * 2 ^ (64 * 3) := by
  rw [BitVec.toNat_append, BitVec.toNat_append, BitVec.toNat_append, ← Nat.shiftLeft_add_eq_or_of_lt a0.isLt,
    ← Nat.shiftLeft_add_eq_or_of_lt a1.isLt, ← Nat.shiftLeft_add_eq_or_of_lt a2.isLt, Nat.shiftLeft_eq, Nat.shiftLeft_eq, Nat.shiftLeft_eq]
  ring

/-- Four registers are one value of 256 bits. -/
theorem Column.sGroup_four (c : Column) (o : Opnd) : BitVec.ofNat 256 (c.sGroup o 4) =
    c.rdS (numOf o + 3) ++ c.rdS (numOf o + 2) ++ c.rdS (numOf o + 1) ++ c.rdS (numOf o) := by
  have hg : c.sGroup o 4 = (c.rdS (numOf o + 3) ++ c.rdS (numOf o + 2) ++ c.rdS (numOf o + 1) ++ c.rdS (numOf o)).toNat :=
    (foldl_range_four (fun i => (c.rdS (numOf o + i)).toNat) fun i => 2 ^ (64 * i)).trans (toNat_append_four _ _ _ _).symm
  rw [hg]
  exact (BitVec.ofNat_toNat 256 _).trans (BitVec.setWidth_eq _)

theorem fillKind_iff {d : TileDesc} : fillKind d = true ↔ descKind d = 1 ∨ descKind d = 2 ∨ descKind d = 3 := by
  unfold fillKind
  rw [Bool.and_eq_true, decide_eq_true_eq, decide_eq_true_eq]
  omega

section
variable {s : State} {w : Full} {col k : Nat} (hi : s.Issues col k)
include hi

theorem State.does_tdesc (hc : s.Clears col k w fmtTdesc fun x => (x.w.a :: sExtra x.w.a 4).map fun o => x.pt o true 10) {d : TileDesc}
    (hd : BitVec.ofNat 256 ((s.col col).sGroup w.a 4) = d) (he : (s.ctxFor col k w).en ≠ 0) (hok : tdescOk d = true)
    (hin : tileInside d (s.region col (descWin d)).2 = true) :
    s.Does (.tdesc w) col k w.marker (s.modCol col fun c => { c with t := tabSet c.t (numOf w.d) d }) := by
  subst hd
  exact State.does_exactly hi (State.word_answers hi hc ((if_neg he).trans ((if_neg (bnot_ne_true hok)).trans (if_neg (bnot_ne_true hin)))))

theorem State.does_tzero (hc : s.Clears col k w (fun _ _ => { d := fT }) noPts) (he : (s.ctxFor col k w).en ≠ 0)
    (hk : fillKind (tabGet (s.col col).t (numOf w.d)) = true) :
    s.Does (.tzero w) col k w.marker (s.Starting col (.tzero col (tabGet (s.col col).t (numOf w.d)))) :=
  State.does_exactly hi (State.word_answers hi hc ((if_neg he).trans (if_neg (bnot_ne_true hk))))

end

/-! ## TFILL and TSTORE (R405, R411) -/

/-- A 64-bit read of a uniform register. -/
theorem Column.rd_uniform (c : Column) {o : Opnd} (ho : opndKind o = some .s) (l : Nat) : c.rd o true l = (c.rdS (numOf o)).toNat := by
  obtain ⟨n, rfl⟩ := eq_s_of_kind ho
  rfl

/-- The operation of a fill or a store. -/
def Ctx.tileOp (x : Ctx) (store : Bool) : TileOp :=
  ⟨x.col, store, tabGet x.c.t (numOf x.w.a), xb x.w 0, !store && xb x.w 1, BitVec.ofNat 64 (x.rb true 0),
    if !store && xb x.w 1 then x.c.rdS (numOf (opB x.w) + 1) else 0, BitVec.ofNat 64 (x.rc true 0), BitVec.ofNat 64 (x.c.rd x.w.d true 0),
    if xb x.w 0 then 0 else numOf x.w.d, x.en, x.s.nextTag⟩

section
variable {s : State} {w : Full} {col k : Nat} {store : Bool} (hc : s.Clears col k w (fmtTile store) fun x => x.ptsTile store)
include hc

/-- D, B and C of a fill or a store are uniform registers. -/
theorem State.Clears.tile_operands : opndKind w.d = some .s ∧ opndKind (opB w) = some .s ∧ opndKind (opC w) = some .s := by
  have hform := form_of_check6 hc.check6
  have hi : isImm w = false := by
    by_contra hn
    rw [Bool.eq_true_of_not_eq_false hn, if_pos rfl] at hform
    exact absurd hform (show ¬(fmtTile store (s.hdr col) w).i = true from Bool.false_ne_true)
  exact ⟨opndKind_of_one (checkD_of_check6 hc.check6) rfl, opndKind_of_one (checkB_of_check6 hc.check6 hi) rfl,
    opndKind_of_one (checkC_of_check6 hc.check6 hi) rfl⟩

theorem State.Clears.tileOp_eq : (s.ctxFor col k w).tileOp store = {
    col := col, store := store, desc := tabGet (s.col col).t (numOf w.a), rcpt := xb w 0, s24 := !store && xb w 1, surf := (s.col col).rdS (numOf (opB w))
    metaA := if !store && xb w 1 then (s.col col).rdS (numOf (opB w) + 1) else 0, org := (s.col col).rdS (numOf (opC w))
    d := (s.col col).rdS (numOf w.d), treg := if xb w 0 then 0 else numOf w.d, lanes := (s.ctxFor col k w).en, bound := s.nextTag } := by
  obtain ⟨hd, hb, hcc⟩ := hc.tile_operands
  have h1 : (s.ctxFor col k w).rb true 0 = ((s.col col).rdS (numOf (opB w))).toNat := (s.col col).rd_uniform hb 0
  have h2 : (s.ctxFor col k w).rc true 0 = ((s.col col).rdS (numOf (opC w))).toNat := (s.col col).rd_uniform hcc 0
  have h3 : (s.ctxFor col k w).c.rd (s.ctxFor col k w).w.d true 0 = ((s.col col).rdS (numOf w.d)).toNat := (s.col col).rd_uniform hd 0
  unfold Ctx.tileOp
  rw [h1, h2, h3, BitVec.ofNat_toNat, BitVec.ofNat_toNat, BitVec.ofNat_toNat, BitVec.setWidth_eq, BitVec.setWidth_eq, BitVec.setWidth_eq]
  rfl

/-- What a fill or a store answers at issue. -/
theorem State.Clears.tileWord_eq (he : (s.ctxFor col k w).en ≠ 0) (hk : fillKind (tabGet (s.col col).t (numOf w.a)) = true)
    (h24 : (!store && xb w 1) = true → descKind (tabGet (s.col col).t (numOf w.a)) ≠ 3)
    (hr : xb w 0 = true → ((s.col col).rdS (numOf w.d)).toNat % 16 = 0) : (s.ctxFor col k w).tileWord store =
      .go ((s.Starting col (.tile ((s.ctxFor col k w).tileOp store))).setCol col
        ((s.col col).token ((s.ctxFor col k w).tileOp store).treg s.nextOp)) none false := by
  have h3 : (s.ctxFor col k w).c.rd (s.ctxFor col k w).w.d true 0 = ((s.col col).rdS (numOf w.d)).toNat := (s.col col).rd_uniform hc.tile_operands.1 0
  have hkind : ¬((!fillKind (tabGet (s.col col).t (numOf w.a)) || ((!store && xb w 1) && descKind (tabGet (s.col col).t (numOf w.a)) == 3)) = true) := by
    rw [hk, Bool.not_true, Bool.false_or, Bool.and_eq_true, beq_iff_eq]
    exact fun h => h24 h.1 h.2
  have hrcpt : ¬((xb w 0 && (s.ctxFor col k w).c.rd (s.ctxFor col k w).w.d true 0 % 16 != 0) = true) := by
    rw [h3, Bool.and_eq_true, bne_iff_ne]
    exact fun h => h.2 (hr h.1)
  exact (if_neg he).trans ((if_neg hkind).trans (if_neg hrcpt))

/-- A fill or a store is one engine operation more, and its token register is pending. -/
theorem State.does_tile (hi : s.Issues col k) {i : Instr} (hex : exec i s = s.word w (fmtTile store) (fun x => x.ptsTile store) fun x => x.tileWord store)
    (he : (s.ctxFor col k w).en ≠ 0) (hk : fillKind (tabGet (s.col col).t (numOf w.a)) = true)
    (h24 : (!store && xb w 1) = true → descKind (tabGet (s.col col).t (numOf w.a)) ≠ 3)
    (hr : xb w 0 = true → ((s.col col).rdS (numOf w.d)).toNat % 16 = 0) :
    s.Does i col k w.marker ((s.Starting col (.tile ((s.ctxFor col k w).tileOp store))).Token col ((s.ctxFor col k w).tileOp store).treg s.nextOp) :=
  State.does_token hi _ _ (hex.trans (State.word_answers hi hc (hc.tileWord_eq he hk h24 hr)))

end

/-- Settles O44: each word's effect at issue is the state that the statement names, and the word goes on from it. -/
theorem tileWords : Obligations.TileWords := by
  unfold Obligations.TileWords
  intro s w col k hi
  dsimp only
  refine ⟨fun hc => ⟨fun he => ?_, fun he hok hin => State.does_tdesc hi hc ((s.col col).sGroup_four w.a) he hok hin⟩,
    fun hc => ⟨fun he => ?_, fun he hk => State.does_tzero hi hc he (fillKind_iff.mpr hk)⟩, fun store hc => ⟨fun he => ?_, fun he hk h24 hr => ?_⟩⟩
  · exact State.passes_go hi (State.word_answers hi hc (if_pos he))
  · exact State.passes_go hi (State.word_answers hi hc (if_pos he))
  · have hex : exec (if store then .tstore w else .tfill w) s = s.word w (fmtTile store) (fun x => x.ptsTile store) fun x => x.tileWord store := by
      cases store <;> rfl
    exact State.passes_go hi (hex.trans (State.word_answers hi hc (if_pos he)))
  · have hex : exec (if store then .tstore w else .tfill w) s = s.word w (fmtTile store) (fun x => x.ptsTile store) fun x => x.tileWord store := by
      cases store <;> rfl
    have hd := State.does_tile hc hi hex he (fillKind_iff.mpr hk) h24 hr
    rw [hc.tileOp_eq] at hd
    exact hd

end Sys2Proof.Machine

/-!
SUPPORT. Copies that words join (R141, R205, R368 to R373): the first word of a copy and the words that add a slice, and the obligation O45.
-/

namespace Sys2Proof.Machine

/-! ## The column of a word that joins -/

theorem State.does_joined {s : State} {i : Instr} {col k : Nat} {marker : Bool} (hi : s.Issues col k) (v : State) (f : Column → Column) (treg id : Nat)
    (h : exec i s = .next (s.perform col k marker (.go (v.setCol col ((f (v.col col)).token treg id)) none false))) :
    s.Does i col k marker ((v.modCol col f).Token col treg id) := by
  unfold State.Token Column.token at *
  by_cases ht : treg = 0
  · rw [if_pos ht] at h ⊢
    exact State.does_exactly hi h
  · rw [if_neg ht] at h ⊢
    refine State.does_go hi h ⟨rfl, fun c hc => ?_⟩ rfl rfl rfl ?_
    · rw [(v.touches_setCol col _).2 c hc, (State.touches_modCol _ col _).2 c hc, (v.touches_modCol col f).2 c hc]
    · rw [State.col_setCol_same, State.col_modCol_same, State.col_modCol_same]

/-- The column counts one join more of a kind. -/
def Column.joinsMore (c : Column) (kind n : Nat) : Column := { c with joinCnt := tabSet c.joinCnt kind (n + 1) }

theorem Column.token_joinsMore (c : Column) (kind n treg id : Nat) : (c.joinsMore kind n).token treg id =
    { c with joinCnt := tabSet c.joinCnt kind (n + 1), tokens := if treg = 0 then c.tokens else c.tokens ++ [(treg, id)] } := by
  unfold Column.token Column.joinsMore
  by_cases ht : treg = 0
  · rw [if_pos ht, if_pos ht]
  · rw [if_neg ht, if_neg ht]

/-! ## A word joins (R369) -/

/-- The operands of a joining word with its core, group and number. -/
def Ctx.numbered (x : Ctx) (o : CopyOp) : CopyOp :=
  { o with core := coreOf x.col, group := x.c.group, n := tabGet x.c.joinCnt (if o.multi then 1 else 0) }

theorem Ctx.joinCopy_first (x : Ctx) (o : CopyOp)
    (h : x.s.findCopy (coreOf x.col) x.c.group o.multi (tabGet x.c.joinCnt (if o.multi then 1 else 0)) = none) :
    x.joinCopy o = .go (({ x.s with nextOp := x.s.nextOp + 1, seqNo := x.s.seqNo + 1 }.setOp x.s.nextOp
      (some ⟨x.s.seqNo, x.s.ctxOf x.col, false, .copy (x.numbered o)⟩)).setCol x.col
        ((x.c.joinsMore (if o.multi then 1 else 0) (x.numbered o).n).token (o.slices.headD default).treg x.s.nextOp)) none false := by
  rw [Column.token_joinsMore]
  unfold Ctx.joinCopy
  simp only [h]
  rfl

theorem Ctx.joinCopy_more (x : Ctx) (o : CopyOp) {id sq cx : Nat} {su : Bool} {p : CopyOp}
    (h : x.s.findCopy (coreOf x.col) x.c.group o.multi (tabGet x.c.joinCnt (if o.multi then 1 else 0)) = some (id, p))
    (hop : x.s.op id = some ⟨sq, cx, su, .copy p⟩) (hne : p.allEmpty = false)
    (hs : (o.slices.headD default).empty = true ∨ p.sameAs (x.numbered o) = true) :
    x.joinCopy o = .go ((x.s.setOp id (some ⟨sq, cx, su, .copy { p with slices := p.slices ++ [o.slices.headD default] }⟩)).setCol x.col
        ((x.c.joinsMore (if o.multi then 1 else 0) (x.numbered o).n).token (o.slices.headD default).treg id)) none false := by
  have hbad : ¬((!(o.slices.headD default).empty && !p.allEmpty && !p.sameAs (x.numbered o)) = true) := by
    intro hb
    simp only [Bool.and_eq_true, Bool.not_eq_true'] at hb
    obtain ⟨⟨he, -⟩, hd⟩ := hb
    rcases hs with h | h
    · rw [he] at h; cases h
    · rw [hd] at h; cases h
  rw [Column.token_joinsMore]
  unfold Ctx.joinCopy
  simp only [h, hop]
  refine (if_neg hbad).trans ?_
  rw [hne]; rfl

/-- A word that answers with a join, for its column, joins as R369 has it. -/
theorem State.joins_of {s : State} {i : Instr} {w : Full} {col k : Nat} (hi : s.Issues col k) (o : CopyOp) (sl : CopySlice) (hsl : o.slices = [sl])
    (h : exec i s = .next (s.perform col k w.marker ((s.ctxFor col k w).joinCopy o))) :
    Joins s i col k w.marker ((s.ctxFor col k w).numbered o) sl := by
  have hhead : o.slices.headD default = sl := by rw [hsl]; rfl
  unfold Joins
  dsimp only
  refine ⟨fun hn => ?_, fun id sq cx su p hf hop hne hs => ?_⟩
  · rw [Ctx.joinCopy_first _ o hn, hhead] at h
    exact State.does_joined hi _ _ _ _ h
  · have hall : p.allEmpty = false := by
      obtain ⟨q, hq, he⟩ := hne
      refine Bool.eq_false_iff.mpr fun hall => ?_
      rw [List.all_eq_true.mp hall q hq] at he; cases he
    rw [Ctx.joinCopy_more _ o hf hop hall (by rw [hhead]; exact hs), hhead] at h
    exact State.does_joined hi _ _ _ _ h

/-! ## COPY and COPYM (R368, R373) -/

/-- Four uniform operands of a word without an immediate. -/
theorem State.Clears.four_uniform {s : State} {col k : Nat} {w : Full} {f : KHdr → Full → Fmt} {pts : Ctx → List Pt} (hc : s.Clears col k w f pts)
    (hf : (f (s.hdr col) w).d = fS ∧ (f (s.hdr col) w).a = fS ∧ (f (s.hdr col) w).b = fS ∧ (f (s.hdr col) w).c = fS ∧ (f (s.hdr col) w).i = false) :
    (s.ctxFor col k w).rdd true 0 = ((s.col col).rdS (numOf w.d)).toNat ∧ (s.ctxFor col k w).ra true 0 = ((s.col col).rdS (numOf w.a)).toNat
      ∧ (s.ctxFor col k w).rb true 0 = ((s.col col).rdS (numOf (opB w))).toNat ∧ (s.ctxFor col k w).rc true 0 = ((s.col col).rdS (numOf (opC w))).toNat := by
  obtain ⟨hfd, hfa, hfb, hfc, hfi⟩ := hf
  have hform := form_of_check6 hc.check6
  have hi : isImm w = false := by
    by_contra hn
    rw [Bool.eq_true_of_not_eq_false hn, if_pos rfl, hfi] at hform; cases hform
  exact ⟨(s.col col).rd_uniform (opndKind_of_one (hfd ▸ checkD_of_check6 hc.check6) rfl) 0,
    (s.col col).rd_uniform (opndKind_of_one (hfa ▸ checkA_of_check6 hc.check6) rfl) 0,
    (s.col col).rd_uniform (opndKind_of_one (hfb ▸ checkB_of_check6 hc.check6 hi) rfl) 0,
    (s.col col).rd_uniform (opndKind_of_one (hfc ▸ checkC_of_check6 hc.check6 hi) rfl) 0⟩

theorem ofNat_toNat_self (x : DWord) : BitVec.ofNat 64 x.toNat = x := (BitVec.ofNat_toNat 64 x).trans (BitVec.setWidth_eq x)

/-- What COPY joins with. -/
def Ctx.copyOf (x : Ctx) (rc : Bool) (d a b : DWord) (e treg : Nat) : CopyOp :=
  { (default : CopyOp) with
    multi := false, rcpt := rc, srcK := copySrc x.w, dstK := copyDst x.w, cv := xb x.w 5, a := a, b := b
    slices := [x.slice (e % 2 ^ 32) (if x.en = 0 then 0 else e / 2 ^ 32) b a d treg] }

theorem State.exec_copy {s : State} {w : Full} {col k : Nat} (hi : s.Issues col k) (hc : s.Clears col k w fmtCopy fun x => x.ptsCopy (xb w 0))
    (hr : (s.ctxFor col k w).en ≠ 0 → xb w 0 = true → ((s.col col).rdS (numOf w.d)).toNat % 16 = 0) : exec (.copy w) s =
      .next (s.perform col k w.marker ((s.ctxFor col k w).joinCopy ((s.ctxFor col k w).copyOf (xb w 0) ((s.col col).rdS (numOf w.d))
        ((s.col col).rdS (numOf w.a)) ((s.col col).rdS (numOf (opB w))) ((s.col col).rdS (numOf (opC w))).toNat (if xb w 0 then 0 else numOf w.d)))) := by
  obtain ⟨hd, ha, hb, he⟩ := hc.four_uniform ⟨rfl, rfl, rfl, rfl, rfl⟩
  have hrc : ¬((xb w 0 && (s.ctxFor col k w).en != 0 && ((s.col col).rdS (numOf w.d)).toNat % 16 != 0) = true) := by
    intro h
    simp only [Bool.and_eq_true, bne_iff_ne] at h
    exact h.2 (hr h.1.2 h.1.1)
  refine State.word_answers hi hc ?_
  dsimp only
  rw [hd, ha, hb, he, ofNat_toNat_self, ofNat_toNat_self, ofNat_toNat_self]
  exact if_neg hrc

/-- The upper half of a register. -/
theorem fld_high (x : DWord) : fld x.toNat 63 32 = x.toNat / 2 ^ 32 := by
  unfold fld
  rw [Nat.shiftRight_eq_div_pow, Nat.mod_eq_of_lt (by have := x.isLt; omega)]

theorem fld_low (n : Nat) : fld n 23 0 = n % 2 ^ 24 := rfl

theorem fld_mid (n : Nat) : fld n 47 24 = n / 2 ^ 24 % 2 ^ 24 := by
  unfold fld
  rw [Nat.shiftRight_eq_div_pow]

/-- What COPYM joins with. -/
def Ctx.copymOf (x : Ctx) (d a : DWord) (b : Nat) (c : DWord) : CopyOp :=
  { (default : CopyOp) with
    multi := true, rcpt := true, srcK := 0, dstK := 0, cv := false, a := d, b := c, slices := [x.slice (fld b 23 0) (if x.en = 0 then 0 else fld b 47 24) 0 a d 0] }

theorem State.exec_copym {s : State} {w : Full} {col k : Nat} (hi : s.Issues col k) (hc : s.Clears col k w fmtCopym fun x => x.ptsCopy true)
    (hr : (s.ctxFor col k w).en ≠ 0 → targetCol (some col) ((s.col col).rdS (numOf w.a)).toNat = some col ∧ addrAp ((s.col col).rdS (numOf w.a)).toNat < 2
      ∧ ((s.col col).rdS (numOf w.a)).toNat % 32 = 0 ∧ ((s.col col).rdS (numOf w.d)).toNat / 2 ^ 32 % 16 = 0) : exec (.copym w) s =
      .next (s.perform col k w.marker ((s.ctxFor col k w).joinCopy ((s.ctxFor col k w).copymOf ((s.col col).rdS (numOf w.d))
        ((s.col col).rdS (numOf w.a)) ((s.col col).rdS (numOf (opB w))).toNat ((s.col col).rdS (numOf (opC w)))))) := by
  obtain ⟨hd, ha, hb, he⟩ := hc.four_uniform ⟨rfl, rfl, rfl, rfl, rfl⟩
  refine State.word_answers hi hc ?_
  dsimp only
  rw [hd, ha, hb, he, ofNat_toNat_self, ofNat_toNat_self, ofNat_toNat_self]
  by_cases h0 : (s.ctxFor col k w).en = 0
  · exact if_pos h0
  · obtain ⟨ht, hap, h32, hoff⟩ := hr h0
    have hrc : fld ((s.col col).rdS (numOf w.d)).toNat 63 32 % 16 = 0 := by
      rw [fld_high]; exact hoff
    exact (if_neg h0).trans ((if_neg (not_not.mpr ht)).trans ((if_neg (Nat.not_le.mpr hap)).trans ((if_neg (not_not.mpr h32)).trans (if_neg (not_not.mpr hrc)))))

theorem default_records : (default : CopyOp).recA = 0 ∧ (default : CopyOp).recB = 0 := ⟨BitVec.zero_eq, BitVec.zero_eq⟩

theorem Ctx.numbered_eq (s : State) (col k : Nat) (w : Full) (multi rcpt cv : Bool) (srcK dstK : Nat) (a b : DWord) (sl : CopySlice) :
    (s.ctxFor col k w).numbered { (default : CopyOp) with
      multi := multi, rcpt := rcpt, srcK := srcK, dstK := dstK, cv := cv, a := a, b := b, slices := [sl] } =
      Joining s (s.ctxFor col k w) multi rcpt srcK dstK cv a b sl := by
  unfold Ctx.numbered Joining
  simp only [default_records.1, default_records.2]
  rfl

/-- Settles O45: both words answer with a join, and a join is the first of its copy or adds its slice. -/
theorem copyWords : Obligations.CopyWords := by
  unfold Obligations.CopyWords
  intro s w col k hi
  dsimp only
  refine ⟨fun hc hr => ?_, fun hc hr => ?_⟩
  · have h := State.joins_of hi _ _ rfl (State.exec_copy hi hc hr)
    unfold Ctx.copyOf at h
    rw [Ctx.numbered_eq] at h
    exact h
  · have h := State.joins_of hi _ _ rfl (State.exec_copym hi hc hr)
    unfold Ctx.copymOf at h
    rw [Ctx.numbered_eq, fld_low, fld_mid] at h
    exact h

end Sys2Proof.Machine

/-!
SUPPORT. Column barriers (R127 to R129, R389): what their completion leaves, where the lanes that it releases stand, and words that go on from it.
-/

namespace Sys2Proof.Machine

/-! ## Lanes outside a slot -/

/-- A lane stands at a PC in another slot than k or in the pool. -/
def Column.OffAt (c : Column) (k l : Nat) (pc : DWord) : Prop :=
  (∃ j, j ≠ k ∧ (c.slot j).mask.getLsbD l = true ∧ (c.slot j).pc = pc) ∨ ∃ e, e ∈ c.pool ∧ e.lane = l ∧ e.pc = pc

/-- It stands there whatever slot k becomes. -/
theorem Column.OffAt.laneAt_setSlot {c : Column} {k l : Nat} {pc : DWord} (h : c.OffAt k l pc) (sp : Split) : (c.setSlot k sp).LaneAt l pc := by
  rcases h with ⟨j, hj, hm, rfl⟩ | h
  · exact Column.laneAt_setSlot_ne hj sp hm
  · exact .inr h

theorem Column.OffAt.of_eq {c c' : Column} {k l : Nat} {pc : DWord} (h : c.OffAt k l pc) (hs : ∀ j, j ≠ k → c'.slot j = c.slot j) (hp : c'.pool = c.pool) :
    c'.OffAt k l pc := by
  rcases h with ⟨j, hj, hm, hpc⟩ | h
  · exact .inl ⟨j, hj, by rw [hs j hj]; exact hm, by rw [hs j hj]; exact hpc⟩
  · exact .inr (hp.symm ▸ h)

/-- The pool lanes at a PC leave the pool for a free slot. -/
theorem Column.offAt_unpool {c : Column} {j k : Nat} {sp : Split} (hj : (c.slot j).mask = 0) (hjk : j ≠ k)
    (hm : ∀ l, l < 32 → (poolLanesAt c.pool sp.pc).getLsbD l = true → sp.mask.getLsbD l = true) {l : Nat} {pc : DWord} (hl : l < 32)
    (h : c.OffAt k l pc) : ({ c.setSlot j sp with pool := c.pool.filter (·.pc != sp.pc) } : Column).OffAt k l pc := by
  rcases h with ⟨m, hmk, hmask, rfl⟩ | ⟨e, he, rfl, rfl⟩
  · have hmj : m ≠ j := fun e => by rw [e, hj, getLsbD_noLane] at hmask; cases hmask
    have hs : (c.setSlot j sp).slot m = c.slot m := by rw [Column.slot_setSlot, if_neg hmj]
    exact .inl ⟨m, hmk, (congrArg (fun s : Split => s.mask.getLsbD l) hs).trans hmask, congrArg Split.pc hs⟩
  · by_cases hpc : e.pc = sp.pc
    · have hs : (c.setSlot j sp).slot j = sp := Column.slot_setSlot_same c j sp
      exact .inl ⟨j, hjk, (congrArg (fun s : Split => s.mask.getLsbD e.lane) hs).trans (hm _ hl ((mem_poolLanesAt hl).mpr ⟨e, he, rfl, hpc⟩)),
        (congrArg Split.pc hs).trans hpc.symm⟩
    · exact .inr ⟨e, List.mem_filter.mpr ⟨he, by simpa using hpc⟩, rfl, rfl⟩

/-- A slot that holds lanes is not filled, and the lanes outside it stand where they stood. -/
theorem Column.fillOne_used {c : Column} {k : Nat} (hk : (c.slot k).lanes ≠ 0) : c.fillOne.slot k = c.slot k
    ∧ ∀ l pc, l < 32 → c.OffAt k l pc → c.fillOne.OffAt k l pc := by
  unfold Column.fillOne
  split
  · next j js pc hf _ =>
    have hj : j ∈ c.freeSlots := by rw [hf]; exact List.mem_cons_self
    have hjk : j ≠ k := fun e => by
      subst e
      unfold Column.freeSlots Column.used at hj
      exact hk (by simpa using (List.mem_filter.mp hj).2)
    refine ⟨?_, fun l pc' hl h => Column.offAt_unpool (sp := { pc := pc, mask := poolLanesAt c.pool pc, cond := c.restCond (poolLanesAt c.pool pc) })
      (Column.mask_of_free hj) hjk (fun _ _ h => h) hl h⟩
    show (c.setSlot j _).slot k = _
    rw [Column.slot_setSlot, if_neg (Ne.symm hjk)]
  · exact ⟨rfl, fun l pc _ h => h⟩

theorem Column.fill_used {c : Column} {k : Nat} (hk : (c.slot k).lanes ≠ 0) : c.fill.slot k = c.slot k
    ∧ ∀ l pc, l < 32 → c.OffAt k l pc → c.fill.OffAt k l pc := by
  have hstep : ∀ d : Column, d.slot k = c.slot k ∧ (∀ l pc, l < 32 → c.OffAt k l pc → d.OffAt k l pc) →
      d.fillOne.slot k = c.slot k ∧ ∀ l pc, l < 32 → c.OffAt k l pc → d.fillOne.OffAt k l pc := fun d ⟨hs, ho⟩ => by
    obtain ⟨hs', ho'⟩ := Column.fillOne_used (c := d) (k := k) (by rw [hs]; exact hk)
    exact ⟨hs'.trans hs, fun l pc hl h => ho' l pc hl (ho l pc hl h)⟩
  exact hstep _ (hstep _ (hstep _ (hstep c ⟨rfl, fun _ _ _ h => h⟩)))

/-! ## Free slots taken after a test (R133) -/

theorem State.fillNew_same {s before : State} {col : Nat} (h : ∀ d, (s.col d).pool = (before.col d).pool) : s.fillNew before col = s := by
  unfold State.fillNew
  refine foldl_keeps (fun t => t = s) _ (fun t c ht => ?_) (s.groupCols col) s rfl
  subst ht
  rw [if_pos (h c)]

/-- Only the column whose pool has changed takes its free slots. -/
theorem State.fillNew_spec {s before : State} {col : Nat} (h : ∀ d, d ≠ col → (s.col d).pool = (before.col d).pool) :
    s.Touches (s.fillNew before col) col ∧ (s.fillNew before col).faults = s.faults ∧ (s.fillNew before col).cores = s.cores
      ∧ (s.fillNew before col).run = s.run
      ∧ ∀ P : Column → Prop, (∀ c, P c → P c.fill) → P (s.col col) → P ((s.fillNew before col).col col) := by
  unfold State.fillNew
  refine (foldl_keeps (fun t : State => (s.Touches t col ∧ t.faults = s.faults ∧ t.cores = s.cores ∧ t.run = s.run
      ∧ ∀ P : Column → Prop, (∀ c, P c → P c.fill) → P (s.col col) → P (t.col col)) ∧ ∀ d, d ≠ col → t.col d = s.col d) _
    (fun t c ⟨⟨ht, hf, hc, hr, hP⟩, ho⟩ => ?_) (s.groupCols col) s ⟨⟨⟨rfl, fun _ _ => rfl⟩, rfl, rfl, rfl, fun _ _ hp => hp⟩, fun _ _ => rfl⟩).1
  split
  · exact ⟨⟨ht, hf, hc, hr, hP⟩, ho⟩
  · next hne =>
    by_cases hcol : c = col
    · subst hcol
      refine ⟨⟨ht.trans (t.touches_modCol c _), hf, hc, hr, fun P hfill hp => ?_⟩, fun d hd => ?_⟩
      · rw [State.col_modCol_same]; exact hfill _ (hP P hfill hp)
      · rw [← ho d hd]; rw [State.col_modCol, if_neg hd]
    · exact absurd ((congrArg Column.pool (ho c hcol)).trans (h c hcol)) hne

/-! ## Words that go on from a changed column -/

/-- The last part of a word that goes on, from the counted state u and its column: every lane of the split is at the next word, whether its run ends or not,
and the lanes outside it stand where they stood. -/
theorem State.placed_on {s u : State} {col k : Nat} {c1 : Column} (marker : Bool) (hu : s.Touches u col)
    (hf : u.faults = s.faults.filter fun f => !(f.waiter == .split col k)) (hcol : u.col col = c1) (hret : c1.retired = ((s.col col).retired + 1) % 2 ^ 48)
    (hput : (s.col col).StaysPut c1) (hm : (c1.slot k).mask = ((s.col col).slot k).mask) (hpc : (c1.slot k).pc = ((s.col col).slot k).pc) :
    s.Placed (u.advance col k marker none false) col k (fun _ => pcNext ((s.col col).slot k).pc) ∧ c1.KeepsAll ((u.advance col k marker none false).col col)
      ∧ ∀ l pc, l < 32 → c1.OffAt k l pc → ((u.advance col k marker none false).col col).LaneAt l pc := by
  have hgo : (s.col col).LanesGo (c1.setSlot k { c1.slot k with pc := pcNext (c1.slot k).pc }) k fun _ => pcNext ((s.col col).slot k).pc := by
    have h := (c1.lanesGo_setSlot k { c1.slot k with pc := pcNext (c1.slot k).pc } rfl).of_stays hm hput
    rw [← hpc]; exact h
  have hkeep := c1.keepsAll_setSlot k { c1.slot k with pc := pcNext (c1.slot k).pc }
  have hret' := (c1.setSlot_retired k { c1.slot k with pc := pcNext (c1.slot k).pc }).trans hret
  have hoff : ∀ l pc, c1.OffAt k l pc → (c1.setSlot k { c1.slot k with pc := pcNext (c1.slot k).pc }).LaneAt l pc := fun l pc h => h.laneAt_setSlot _
  rw [State.advance_on, hcol]
  generalize c1.setSlot k { c1.slot k with pc := pcNext (c1.slot k).pc } = c2 at *
  have hu2 := hu.trans (u.touches_setCol col c2)
  split
  · have he := (u.setCol col c2).col_endRun col k (c1.restCond (c1.slot k).mask)
    rw [State.col_setCol_same] at he
    exact ⟨State.placed_of (State.onlyColumn_endRun hu2 hf _) he ((c2.mec_endRun k _).2.trans hret') (hgo.stays (c2.staysPut_endRun k _)),
      he.symm ▸ hkeep.trans (c2.keepsAll_endRun k _), fun l pc hl h => he.symm ▸ Column.staysPut_endRun c2 k _ l pc hl (hoff l pc h)⟩
  · have hc2 := u.col_setCol_same col c2
    exact ⟨State.placed_of ⟨hu2.1, hf, hu2.2⟩ hc2 hret' hgo, hc2.symm ▸ hkeep, fun l pc hl h => hc2.symm ▸ hoff l pc h⟩

theorem Column.OffAt.countWord {c : Column} {k l : Nat} {pc : DWord} (h : c.OffAt k l pc) : (c.countWord k).OffAt k l pc :=
  h.of_eq (fun _ hj => c.slot_countWord_ne k hj) rfl

/-- A word that goes on from a state whose column has moved lanes outside its split. -/
theorem State.placed_go {s v : State} {col k : Nat} (hi : s.Issues col k) (marker : Bool) (ht : s.Touches v col) (hf : v.faults = s.faults)
    (hr : (v.col col).retired = (s.col col).retired) (hs : (v.col col).slot k = (s.col col).slot k) (hput : (s.col col).StaysPut (v.col col)) :
    s.Placed (s.perform col k marker (.go v none false)) col k (fun _ => pcNext ((s.col col).slot k).pc)
      ∧ (v.col col).KeepsAll ((s.perform col k marker (.go v none false)).col col)
      ∧ ∀ l pc, l < 32 → (v.col col).OffAt k l pc → ((s.perform col k marker (.go v none false)).col col).LaneAt l pc := by
  have hret : ((v.col col).countWord k).retired = ((s.col col).retired + 1) % 2 ^ 48 :=
    (Column.retired_countWord _ k).trans (congrArg (fun n => (n + 1) % 2 ^ 48) hr)
  rw [State.perform_go hi.2.2]
  obtain ⟨hp, hk, ho⟩ := State.placed_on marker (ht.trans (v.touches_counted col k)) ((v.faults_counted col k).trans (by rw [hf])) (v.col_counted col k) hret
    (hput.trans (Column.staysPut_countWord _ k)) ((Column.mask_countWord _ k).trans (congrArg Split.mask hs))
    ((Column.pc_countWord _ k).trans (congrArg Split.pc hs))
  exact ⟨hp, ((v.col col).keepsAll_countWord k).trans hk, fun l pc hl h => ho l pc hl h.countWord⟩

/-! ## Arrivals and completion at a column barrier (R389) -/

/-- A barrier whose phase is complete: its arrivals are cleared, and the lanes parked at it are in the pool. -/
def Column.completes (c : Column) (n : Nat) : Column :=
  ({ c with cbar := tabSet c.cbar n { tabGet c.cbar n with arrived := 0, phase := !(tabGet c.cbar n).phase } } : Column).releaseBar (barKey 1 n)

theorem Column.testCbar_full {c : Column} {n : Nat} (ha : (tabGet c.cbar n).arrived ≠ 0)
    (hf : (tabGet c.cbar n).arrived ||| (tabGet c.cbar n).dropped = 0xFFFFFFFF) (hr : c.reqs = []) : c.testCbar n = c.completes n := by
  have hg : c.gated (barKey 1 n) = false := by
    unfold Column.gated
    rw [hr]; simp
  exact if_pos ⟨ha, hf, hg⟩

theorem Column.testCbar_open {c : Column} {n : Nat} (h : ¬((tabGet c.cbar n).arrived ≠ 0 ∧ (tabGet c.cbar n).arrived ||| (tabGet c.cbar n).dropped = 0xFFFFFFFF)) :
    c.testCbar n = c :=
  if_neg fun hh => h ⟨hh.1, hh.2.1⟩

/-- What completion leaves of the barrier, and where the lanes parked at it are. -/
def Column.Completed (c c' : Column) (n : Nat) : Prop :=
  tabGet c'.cbar n = ⟨(tabGet c.cbar n).dropped, 0, !(tabGet c.cbar n).phase⟩ ∧ (∀ p, p ∈ c'.parked → p.bar = true → p.id ≠ barKey 1 n)
    ∧ c.StaysPut c' ∧ c'.retired = c.retired
    ∧ ∀ p, p ∈ c.parked → p.bar = true → p.id = barKey 1 n → p.lane < 32 → c'.LaneAt p.lane (pcNext p.pc)

/-- The same, with the lanes outside a slot that keeps its lanes. -/
def Column.CompletedOff (c c' : Column) (k n : Nat) : Prop :=
  c.Completed c' n ∧ c'.slot k = c.slot k ∧ ∀ p, p ∈ c.parked → p.bar = true → p.id = barKey 1 n → p.lane < 32 → c'.OffAt k p.lane (pcNext p.pc)

theorem Column.mem_pool_releaseBar {c : Column} {key : Nat} {p : ParkedLane} (hp : p ∈ c.parked) (hb : p.bar = true) (hk : p.id = key) :
    (⟨p.lane, pcNext p.pc, c.mec⟩ : PoolLane) ∈ (c.releaseBar key).pool :=
  List.mem_append_right _ (List.mem_map.mpr ⟨p, List.mem_filter.mpr ⟨hp, by rw [hb, hk]; simp⟩, rfl⟩)

theorem Column.staysPut_releaseBar (c : Column) (key : Nat) : c.StaysPut (c.releaseBar key) := by
  rintro l pc _ (h | ⟨e, he, h⟩)
  · exact .inl h
  · exact .inr ⟨e, List.mem_append_left _ he, h⟩

theorem Column.completedOff_completes (c : Column) (k n : Nat) : c.CompletedOff (c.completes n) k n := by
  unfold Column.completes
  generalize hd : ({ c with cbar := tabSet c.cbar n { tabGet c.cbar n with arrived := 0, phase := !(tabGet c.cbar n).phase } } : Column) = d
  have hput : c.StaysPut d := by rw [← hd]; exact Column.staysPut_of_eq rfl rfl
  have hpk : d.parked = c.parked := by rw [← hd]
  have hret : d.retired = c.retired := by rw [← hd]
  have hslot : d.slot k = c.slot k := by rw [← hd]; rfl
  have hbar : tabGet d.cbar n = ⟨(tabGet c.cbar n).dropped, 0, !(tabGet c.cbar n).phase⟩ := by rw [← hd]; exact tabGet_tabSet_same _ _ _
  have hpool := fun (p : ParkedLane) (hp : p ∈ c.parked) (hb : p.bar = true) (hi : p.id = barKey 1 n) =>
    Column.mem_pool_releaseBar (c := d) (by rw [hpk]; exact hp) hb hi
  refine ⟨⟨hbar, fun p hp hb hid => ?_, hput.trans (d.staysPut_releaseBar _), hret, fun p hp hb hi _ => Column.laneAt_of_pool (hpool p hp hb hi)⟩, hslot,
    fun p hp hb hi _ => .inr ⟨_, hpool p hp hb hi, rfl, rfl⟩⟩
  have hin := (List.mem_filter.mp hp).2
  rw [hb, hid] at hin
  simp at hin

theorem Column.Completed.fill {c c' : Column} {n : Nat} (h : c.Completed c' n) : c.Completed c'.fill n := by
  obtain ⟨hb, hp, hput, hr, hl⟩ := h
  have hk := c'.keepsAll_fill
  refine ⟨?_, ?_, hput.trans c'.staysPut_fill, c'.mec_fill.2.trans hr, fun p hm hbar hid h32 => c'.staysPut_fill _ _ h32 (hl p hm hbar hid h32)⟩
  · rw [show c'.fill.cbar = c'.cbar from (congrArg Column.cbar (show _ = _ from hk)).trans rfl]; exact hb
  · rw [show c'.fill.parked = c'.parked from (congrArg Column.parked (show _ = _ from hk)).trans rfl]; exact hp

theorem Column.CompletedOff.fill {c c' : Column} {k n : Nat} (hk : (c.slot k).lanes ≠ 0) (h : c.CompletedOff c' k n) : c.CompletedOff c'.fill k n := by
  obtain ⟨hc, hs, ho⟩ := h
  obtain ⟨hs', ho'⟩ := Column.fill_used (c := c') (k := k) (by rw [hs]; exact hk)
  exact ⟨hc.fill, hs'.trans hs, fun p hm hb hid hl => ho' _ _ hl (ho p hm hb hid hl)⟩

end Sys2Proof.Machine

/-!
SUPPORT. Arrivals at barriers and the test after them (R388 to R390).
-/

namespace Sys2Proof.Machine

/-! ## What a barrier word answers -/

theorem Ctx.barrier_idle {x : Ctx} {bw : BarWord} (hh : x.sp.hnd = false) (he : x.en = 0) : x.barrier bw = .go x.s none false := by
  unfold Ctx.barrier
  rw [hh, Bool.false_and, if_neg Bool.false_ne_true, if_pos he]

theorem Ctx.barrier_on {x : Ctx} {bw : BarWord} {u : State} (hh : (x.sp.hnd && bw != .bara) = false) (he : x.en ≠ 0)
    (ho : (if barLevel x.w = 1 then x.cbarOut bw else x.ubarOut bw) = .on u) : x.barrier bw = .go (x.barTest u) none false := by
  unfold Ctx.barrier
  rw [hh, if_neg Bool.false_ne_true, if_neg he, ho]

theorem Ctx.barrier_park {x : Ctx} {u : State} (hh : x.sp.hnd = false) (he : x.en ≠ 0)
    (ho : (if barLevel x.w = 1 then x.cbarOut .bar else x.ubarOut .bar) = .park u) : x.barrier .bar =
      .placed (((x.barTest (u.modCol x.col fun c => (c.countWord x.k).parkAt x.k x.en true (barKey (barLevel x.w) (barNum x.w)))).modCol x.col
        fun c => c.marked x.k).endPipe x.col x.k) := by
  have hp : x.barParks .bar = x.en := if_neg fun h => nomatch h.1
  unfold Ctx.barrier
  rw [hh, Bool.false_and, if_neg Bool.false_ne_true, if_neg he, ho]
  dsimp only
  rw [hp]

/-- A column keeps everything but its barriers. -/
def Column.BarsOnly (c c' : Column) : Prop := c' = { c with cbar := c'.cbar, ubar := c'.ubar, barGates := c'.barGates }

theorem Column.BarsOnly.spec {c c' : Column} (h : c.BarsOnly c') : c'.slots = c.slots ∧ c'.pool = c.pool ∧ c'.mec = c.mec ∧ c'.retired = c.retired
    ∧ c'.parked = c.parked ∧ c'.reqs = c.reqs ∧ c'.live = c.live := by
  unfold Column.BarsOnly at h
  rw [h]
  exact ⟨rfl, rfl, rfl, rfl, rfl, rfl, rfl⟩

theorem Column.BarsOnly.slot {c c' : Column} (h : c.BarsOnly c') (k : Nat) : c'.slot k = c.slot k := by
  unfold Column.slot; rw [h.spec.1]

theorem Column.BarsOnly.staysPut {c c' : Column} (h : c.BarsOnly c') : c.StaysPut c' := Column.staysPut_of_eq h.spec.1 h.spec.2.1

theorem Column.barsOnly_gate {c d : Column} (h : c.BarsOnly d) (key : Option Nat) (m : Mask) (bound : Nat) :
    c.BarsOnly (d.gate key m bound) ∧ (d.gate key m bound).cbar = d.cbar ∧ (d.gate key m bound).ubar = d.ubar := by
  unfold Column.gate
  split
  · refine ⟨?_, rfl, rfl⟩
    unfold Column.BarsOnly at h ⊢
    rw [h]
  · exact ⟨h, rfl, rfl⟩

/-- The column barrier of a word after the enabled lanes' arrival. -/
def Ctx.arrival (x : Ctx) (bw : BarWord) : CBar :=
  { dropped := if bw = .bard then (tabGet x.c.cbar (barNum x.w)).dropped ||| x.en else (tabGet x.c.cbar (barNum x.w)).dropped
    arrived := (tabGet x.c.cbar (barNum x.w)).arrived ||| x.en, phase := (tabGet x.c.cbar (barNum x.w)).phase }

theorem Ctx.arrival_ne_zero {x : Ctx} {bw : BarWord} (he : x.en ≠ 0) : (x.arrival bw).arrived ≠ 0 := fun h => he (BitVec.or_eq_zero_iff.mp h).2

/-- What a barrier word that arrives answers, with its column after the arrival. -/
def BarOut.arriving (bw : BarWord) (s : State) : BarOut := if bw = .bar then .park s else .on s

/-- An arrival at a column barrier of which the enabled lanes are members that have not arrived. -/
theorem Ctx.cbarOut_arrives (x : Ctx) {bw : BarWord} (hbw : bw ≠ .barw) (hd : x.en &&& (tabGet x.c.cbar (barNum x.w)).dropped = 0)
    (ha : x.en &&& (tabGet x.c.cbar (barNum x.w)).arrived = 0) :
    ∃ c1, x.c.BarsOnly c1 ∧ tabGet c1.cbar (barNum x.w) = x.arrival bw ∧ x.cbarOut bw = .arriving bw (x.s.setCol x.col c1) := by
  have hno : ¬(x.en &&& (tabGet x.c.cbar (barNum x.w)).dropped &&& ~~~(tabGet x.c.cbar (barNum x.w)).arrived ≠ 0) := by
    rw [hd, not_not]; exact BitVec.zero_and
  obtain ⟨hb, hcb, -⟩ := Column.barsOnly_gate (c := x.c) (d := { x.c with cbar := tabSet x.c.cbar (barNum x.w) (x.arrival bw) }) rfl
    (some (barKey 1 (barNum x.w))) x.en x.s.nextTag
  refine ⟨_, hb, by rw [hcb]; exact tabGet_tabSet_same _ _ _, ?_⟩
  unfold Ctx.cbarOut
  dsimp only
  rw [if_neg hno]
  cases bw with
  | barw => exact absurd rfl hbw
  | bar => exact if_neg (not_not.mpr ha)
  | bara => exact if_neg (not_not.mpr ha)
  | bard => exact if_neg (not_not.mpr ha)

/-- Lanes join those that have executed an arrival word at a barrier above column level. -/
theorem Ctx.ubarOut_arrives (x : Ctx) {bw : BarWord} (hbw : bw ≠ .barw) {b : UBar} (hb : tabGet x.c.ubar (barKey (barLevel x.w) (barNum x.w)) = b)
    (hd : b.dropped = false) (ha : b.arrived = false) (hl : x.en &&& b.lanes = 0) (hk : b.lanes = 0 ∨ b.kind = bw.kind) :
    ∃ c1, x.c.BarsOnly c1 ∧ tabGet c1.ubar (barKey (barLevel x.w) (barNum x.w)) = { b with lanes := b.lanes ||| x.en, kind := bw.kind }
      ∧ x.ubarOut bw = .arriving bw (x.s.setCol x.col c1) := by
  have hno : ¬((b.dropped && !b.arrived) = true) := by rw [hd, Bool.false_and]; exact Bool.false_ne_true
  have h17 : ¬(b.arrived = true ∨ x.en &&& b.lanes ≠ 0) := fun h => h.elim (fun h => by rw [ha] at h; cases h) fun h => h hl
  have h19 : ¬(b.lanes ≠ 0 ∧ b.kind ≠ bw.kind) := fun h => hk.elim h.1 h.2
  obtain ⟨hbo, -, hub⟩ := Column.barsOnly_gate (c := x.c)
    (d := { x.c with ubar := tabSet x.c.ubar (barKey (barLevel x.w) (barNum x.w)) { b with lanes := b.lanes ||| x.en, kind := bw.kind } }) rfl
    (some (barKey (barLevel x.w) (barNum x.w))) x.en x.s.nextTag
  refine ⟨_, hbo, by rw [hub]; exact tabGet_tabSet_same _ _ _, ?_⟩
  unfold Ctx.ubarOut
  dsimp only
  rw [hb, if_neg hno]
  cases bw with
  | barw => exact absurd rfl hbw
  | bar => exact (if_neg h17).trans (if_neg h19)
  | bara => exact (if_neg h17).trans (if_neg h19)
  | bard => exact (if_neg h17).trans (if_neg h19)

section
variable (s : State) (col k : Nat) (w : Full) {bw : BarWord} (hbw : bw ≠ .barw)
include hbw

/-- The arrival of a word of slot k. -/
theorem State.cbarOut_arrives (hd : (s.ctxFor col k w).en &&& (tabGet (s.col col).cbar (barNum w)).dropped = 0)
    (ha : (s.ctxFor col k w).en &&& (tabGet (s.col col).cbar (barNum w)).arrived = 0) :
    ∃ c1, (s.col col).BarsOnly c1 ∧ tabGet c1.cbar (barNum w) = (s.ctxFor col k w).arrival bw
      ∧ (s.ctxFor col k w).cbarOut bw = .arriving bw (s.setCol col c1) :=
  (s.ctxFor col k w).cbarOut_arrives hbw hd ha

/-- The arrival of a word of slot k above column level. -/
theorem State.ubarOut_arrives {b : UBar} (hb : tabGet (s.col col).ubar (barKey (barLevel w) (barNum w)) = b) (hd : b.dropped = false)
    (ha : b.arrived = false) (hl : (s.ctxFor col k w).en &&& b.lanes = 0) (hk : b.lanes = 0 ∨ b.kind = bw.kind) :
    ∃ c1, (s.col col).BarsOnly c1 ∧ tabGet c1.ubar (barKey (barLevel w) (barNum w)) = { b with lanes := b.lanes ||| (s.ctxFor col k w).en, kind := bw.kind }
      ∧ (s.ctxFor col k w).ubarOut bw = .arriving bw (s.setCol col c1) :=
  (s.ctxFor col k w).ubarOut_arrives hbw hb hd ha hl hk

end

/-! ## The test after an arrival -/

/-- A state that is another but for its column's place in the table. -/
def State.SameAs (u v : State) (col : Nat) : Prop :=
  u.Touches v col ∧ v.faults = u.faults ∧ v.cores = u.cores ∧ v.run = u.run ∧ v.col col = u.col col

theorem State.SameAs.refl (u : State) (col : Nat) : u.SameAs u col := ⟨⟨rfl, fun _ _ => rfl⟩, rfl, rfl, rfl, rfl⟩

theorem State.col_ne_modCol (s : State) {col d : Nat} (hd : d ≠ col) (f : Column → Column) : (s.modCol col f).col d = s.col d := by
  rw [State.col_modCol, if_neg hd]

/-- A test of a column barrier that is not complete changes nothing. -/
theorem Ctx.barTest_open {x : Ctx} (h1 : barLevel x.w = 1) {u : State} (ht : (u.col x.col).testCbar (barNum x.w) = u.col x.col) :
    u.SameAs (x.barTest u) x.col := by
  have hcol : (u.modCol x.col fun c => c.testCbar (barNum x.w)).col x.col = u.col x.col := (State.col_modCol_same _ _ _).trans ht
  have hsame : (u.modCol x.col fun c => c.testCbar (barNum x.w)).fillNew u x.col = u.modCol x.col fun c => c.testCbar (barNum x.w) :=
    State.fillNew_same fun d => by
      by_cases hd : d = x.col
      · rw [hd, hcol]
      · rw [State.col_ne_modCol u hd]
  unfold Ctx.barTest
  rw [if_pos h1, hsame]
  exact ⟨u.touches_modCol x.col _, rfl, rfl, rfl, hcol⟩

theorem State.arriveUbar_open {s : State} {col level n : Nat} (h : (s.col col).live &&& ~~~(tabGet (s.col col).ubar (barKey level n)).lanes ≠ 0) :
    s.arriveUbar col level n = s := if_neg fun hh => h hh.2.1

/-- A column of which a live lane is still to come does not arrive. -/
theorem Ctx.barTest_upper {x : Ctx} (h1 : barLevel x.w ≠ 1) {u : State}
    (h : (u.col x.col).live &&& ~~~(tabGet (u.col x.col).ubar (barKey (barLevel x.w) (barNum x.w))).lanes ≠ 0) : u.SameAs (x.barTest u) x.col := by
  have he : x.barTest u = u := by
    unfold Ctx.barTest
    rw [if_neg h1, State.arriveUbar_open h]
    exact State.fillNew_same fun _ => rfl
  rw [he]; exact .refl u _

/-- A test of a complete column barrier: only the column changes, by completion and the free slots that its lanes take. -/
theorem Ctx.barTest_full {x : Ctx} (h1 : barLevel x.w = 1) {u : State} (ht : (u.col x.col).testCbar (barNum x.w) = (u.col x.col).completes (barNum x.w)) :
    u.Touches (x.barTest u) x.col ∧ (x.barTest u).faults = u.faults ∧ (x.barTest u).cores = u.cores
      ∧ (u.col x.col).Completed ((x.barTest u).col x.col) (barNum x.w)
      ∧ ∀ k, ((u.col x.col).slot k).lanes ≠ 0 → (u.col x.col).CompletedOff ((x.barTest u).col x.col) k (barNum x.w) := by
  have hcol : (u.modCol x.col fun c => c.testCbar (barNum x.w)).col x.col = (u.col x.col).completes (barNum x.w) :=
    (State.col_modCol_same _ _ _).trans ht
  have hoff := fun k => (u.col x.col).completedOff_completes k (barNum x.w)
  obtain ⟨hto, hf, hc, -, hP⟩ := State.fillNew_spec (s := u.modCol x.col fun c => c.testCbar (barNum x.w)) (before := u) (col := x.col)
    fun d hd => by rw [State.col_ne_modCol u hd]
  unfold Ctx.barTest
  rw [if_pos h1]
  refine ⟨(u.touches_modCol x.col _).trans hto, hf, hc, hP (fun c => (u.col x.col).Completed c (barNum x.w)) (fun _ h => h.fill) ?_,
    fun k hk => hP (fun c => (u.col x.col).CompletedOff c k (barNum x.w)) (fun _ h => h.fill hk) ?_⟩
  · rw [hcol]; exact (hoff 0).1
  · rw [hcol]; exact hoff k

end Sys2Proof.Machine

/-!
SUPPORT. The barrier words (R129, R388 to R390): those that go on, those whose lanes park, and the obligation O36.
-/

namespace Sys2Proof.Machine

/-- A column barrier whose phase is complete: what is left of it, and where the lanes parked at it are. -/
def Column.BarDone (c c' : Column) (n : Nat) (b : CBar) : Prop :=
  tabGet c'.cbar n = ⟨b.dropped, 0, !b.phase⟩ ∧ (∀ p, p ∈ c'.parked → p.bar = true → p.id ≠ barKey 1 n)
    ∧ ∀ p, p ∈ c.parked → p.bar = true → p.id = barKey 1 n → p.lane < 32 → c'.LaneAt p.lane (pcNext p.pc)

theorem Column.KeepsAll.bars {c c' : Column} (h : c.KeepsAll c') : c'.cbar = c.cbar ∧ c'.ubar = c.ubar ∧ c'.parked = c.parked ∧ c'.reqs = c.reqs
    ∧ c'.live = c.live :=
  ⟨(congrArg Column.cbar (show _ = _ from h)).trans rfl, (congrArg Column.ubar (show _ = _ from h)).trans rfl,
    (congrArg Column.parked (show _ = _ from h)).trans rfl, (congrArg Column.reqs (show _ = _ from h)).trans rfl,
    (congrArg Column.live (show _ = _ from h)).trans rfl⟩

theorem outside_handler {b : Bool} {bw : BarWord} (hn : b = false) : (b && bw != .bara) = false := by rw [hn, Bool.false_and]

/-! ## Words that go on -/

section
variable {s : State} {w : Full} {col k : Nat} {i : Instr} {bw : BarWord} (hi : s.Issues col k) (hc : s.Clears col k w fmtBar noPts)
  (hex : exec i s = s.word w fmtBar noPts fun x => x.barrier bw)
include hi hc hex

theorem State.bar_idle (hn : ((s.col col).slot k).hnd = false) (he : (s.ctxFor col k w).en = 0) : s.Passes i col k w.marker :=
  State.passes_go hi (hex.trans (State.word_answers hi hc (Ctx.barrier_idle hn he)))

variable (hh : (((s.col col).slot k).hnd && bw != .bara) = false) (he : (s.ctxFor col k w).en ≠ 0)
include hh he

theorem State.exec_bar_on {u : State} (ho : (if barLevel w = 1 then (s.ctxFor col k w).cbarOut bw else (s.ctxFor col k w).ubarOut bw) = .on u) :
    exec i s = .next (s.perform col k w.marker (.go ((s.ctxFor col k w).barTest u) none false)) :=
  hex.trans (State.word_answers hi hc (Ctx.barrier_on hh he ho))

/-- A word that arrives, or passes, without completing: it is performed, and its column is as the arrival leaves it. -/
theorem State.bar_goes_on {c1 : Column} {u : State}
    (ho : (if barLevel w = 1 then (s.ctxFor col k w).cbarOut bw else (s.ctxFor col k w).ubarOut bw) = .on u)
    (hu : s.Touches u col) (hf : u.faults = s.faults) (hcr : u.cores = s.cores) (hrn : u.run = s.run) (hcol : u.col col = c1)
    (hb : (s.col col).BarsOnly c1) (ht : u.SameAs ((s.ctxFor col k w).barTest u) col) :
    ∃ t, exec i s = .next t ∧ s.Performed t col k w.marker ∧ c1.KeepsAll (t.col col) := by
  obtain ⟨htv, hfv, hcv, hrv, hev⟩ := ht
  obtain ⟨-, hpool, hmec, hret, -⟩ := hb.spec
  have hv := hev.trans hcol
  obtain ⟨hp, hk⟩ := State.performed_go hi w.marker (hu.trans htv) (hfv.trans hf) (hcv.trans hcr) (hrv.trans hrn) (by rw [hv, hmec]) (by rw [hv, hpool])
    (by rw [hv, hret]) (by rw [hv, hb.slot]) fun j _ => by rw [hv, hb.slot]
  exact ⟨_, State.exec_bar_on hi hc hex hh he ho, hp, hv ▸ hk⟩

section
variable (h1 : barLevel w = 1) (hbw : bw ≠ .barw ∧ bw ≠ .bar)
  (hd : (s.ctxFor col k w).en &&& (tabGet (s.col col).cbar (barNum w)).dropped = 0)
  (ha : (s.ctxFor col k w).en &&& (tabGet (s.col col).cbar (barNum w)).arrived = 0)
include h1 hbw hd ha

/-- BARA or BARD that does not complete the phase. -/
theorem State.cbar_goes_on (hopen : ((s.ctxFor col k w).arrival bw).arrived ||| ((s.ctxFor col k w).arrival bw).dropped ≠ 0xFFFFFFFF) :
    ∃ t, exec i s = .next t ∧ s.Performed t col k w.marker ∧ tabGet (t.col col).cbar (barNum w) = (s.ctxFor col k w).arrival bw := by
  obtain ⟨c1, hb, hcb, ho⟩ := s.cbarOut_arrives col k w hbw.1 hd ha
  have hcol := s.col_setCol_same col c1
  obtain ⟨t, ht, hp, hk⟩ := State.bar_goes_on hi hc hex hh he ((if_pos h1).trans (ho.trans (if_neg hbw.2))) (s.touches_setCol col c1) rfl rfl rfl hcol hb
    (Ctx.barTest_open (x := s.ctxFor col k w) h1 (hcol.symm ▸ Column.testCbar_open fun h => hopen (hcb ▸ h.2)))
  exact ⟨t, ht, hp, by rw [hk.bars.1]; exact hcb⟩

/-- BARA or BARD that completes the phase. -/
theorem State.cbar_completes (hfull : ((s.ctxFor col k w).arrival bw).arrived ||| ((s.ctxFor col k w).arrival bw).dropped = 0xFFFFFFFF)
    (hr : (s.col col).reqs = []) : ∃ t, exec i s = .next t ∧ s.Placed t col k (fun _ => pcNext ((s.col col).slot k).pc)
      ∧ (s.col col).BarDone (t.col col) (barNum w) ((s.ctxFor col k w).arrival bw) := by
  obtain ⟨c1, hb, hcb, ho⟩ := s.cbarOut_arrives col k w hbw.1 hd ha
  obtain ⟨-, -, -, hret, hpk, hrq, -⟩ := hb.spec
  have hcol := s.col_setCol_same col c1
  have htest : ((s.setCol col c1).col col).testCbar (barNum w) = ((s.setCol col c1).col col).completes (barNum w) := by
    rw [hcol]
    exact Column.testCbar_full (by rw [hcb]; exact Ctx.arrival_ne_zero he) (by rw [hcb]; exact hfull) (hrq.trans hr)
  obtain ⟨htv, hfv, -, -, hoff⟩ := Ctx.barTest_full (x := s.ctxFor col k w) h1 htest
  have hused : (((s.setCol col c1).col col).slot k).lanes ≠ 0 := fun h0 =>
    Ctx.mask_of_enabled he (by rw [← hb.slot, ← hcol]; exact Split.mask_of_lanes_zero h0)
  have hdone : ((s.setCol col c1).col col).CompletedOff (((s.ctxFor col k w).barTest (s.setCol col c1)).col col) k (barNum w) := hoff k hused
  rw [hcol] at hdone
  obtain ⟨⟨hbar, hgone, hst, hrt, -⟩, hsl, hout⟩ := hdone
  obtain ⟨hp, hk, hl⟩ := State.placed_go hi w.marker ((s.touches_setCol col c1).trans htv) hfv (hrt.trans hret) (hsl.trans (hb.slot k)) (hb.staysPut.trans hst)
  refine ⟨_, State.exec_bar_on hi hc hex hh he ((if_pos h1).trans (ho.trans (if_neg hbw.2))), hp, ?_, ?_,
    fun p hp hbar hid h32 => hl _ _ h32 (hout p (by rw [hpk]; exact hp) hbar hid h32)⟩
  · rw [hk.bars.1, hbar, hcb]
  · rw [hk.bars.2.2.1]; exact hgone

end

end

/-! ## Lanes that park at a barrier (R129) -/

/-- What parking leaves of a column in which an arrival has changed barriers alone. -/
theorem Column.parks_spec {c c1 : Column} (k : Nat) (m : Mask) (key : Nat) (hb : c.BarsOnly c1) :
    (∀ l, l < 32 → (c.slot k).mask.getLsbD l = true → m.getLsbD l = false →
      ((c1.countWord k).parkAt k m true key).LaneAt l (pcNext (c.slot k).pc))
    ∧ (∀ l pc, l < 32 → (c.slot k).mask.getLsbD l = false → c.LaneAt l pc → ((c1.countWord k).parkAt k m true key).LaneAt l pc)
    ∧ ({ c1 with parked := c.parked ++ parkedOf m (c.slot k).pc true key } : Column).KeepsAll ((c1.countWord k).parkAt k m true key)
    ∧ ((c1.countWord k).parkAt k m true key).retired = (c.retired + 1) % 2 ^ 48 := by
  obtain ⟨-, -, -, hr, hpk, -⟩ := hb.spec
  have hput := hb.staysPut.trans (c1.staysPut_countWord k)
  obtain ⟨hleft, hother, hkeep, hret⟩ := (c1.countWord k).parkAt_spec k m true key
  rw [c1.pc_countWord, c1.mask_countWord, hb.slot] at hleft
  rw [c1.mask_countWord, hb.slot] at hother
  rw [c1.pc_countWord, hb.slot, show (c1.countWord k).parked = c1.parked from rfl, hpk] at hkeep
  exact ⟨hleft, fun l pc hl hm h => hother l pc hl hm (hput l pc hl h), (Column.keepsAll_setParked (c1.keepsAll_countWord k) _).trans hkeep,
    hret.trans ((c1.retired_countWord k).trans (congrArg (fun n => (n + 1) % 2 ^ 48) hr))⟩

/-- When the barrier completes with the lanes that park, they too are at the next word. -/
theorem Column.releases_spec {c c1 c4 : Column} {k n : Nat} {m : Mask} (hb : c.BarsOnly c1)
    (hdone : ((c1.countWord k).parkAt k m true (barKey 1 n)).Completed c4 n) : c.LanesGo (c4.marked k) k (fun _ => pcNext (c.slot k).pc)
      ∧ (c4.marked k).retired = (c.retired + 1) % 2 ^ 48 ∧ c.BarDone (c4.marked k) n (tabGet c1.cbar n) := by
  obtain ⟨hleft, hother, hkeep, hret⟩ := Column.parks_spec k m (barKey 1 n) hb
  obtain ⟨hcb, -, hpk, -⟩ := hkeep.bars
  obtain ⟨hbar, hgone, hst, hrt, hrel⟩ := hdone
  obtain ⟨hcbm, -, hpkm, -⟩ := (c4.keepsAll_marked k).bars
  have hput := c4.staysPut_marked k
  refine ⟨fun l hl => ⟨fun hm => hput l _ hl ?_, fun pc hm h => hput l pc hl (hst l pc hl (hother l pc hl hm h))⟩, (c4.retired_marked k).trans (hrt.trans hret),
    by rw [hcbm, hbar, hcb], by rw [hpkm]; exact hgone,
    fun p hp hb hid h32 => hput _ _ h32 (hrel p (by rw [hpk]; exact List.mem_append_left _ hp) hb hid h32)⟩
  cases hml : m.getLsbD l with
  | true =>
    exact hrel ⟨l, (c.slot k).pc, true, barKey 1 n⟩
      (by rw [hpk]; exact List.mem_append_right _ (List.mem_map.mpr ⟨l, mem_lanesOf.mpr ⟨hl, hml⟩, rfl⟩)) rfl rfl hl
  | false => exact hst l _ hl (hleft l hl hm hml)

/-- The state of a word whose lanes park at a barrier, before the test: the column with its arrival is c1. -/
def State.barParked (s : State) (col k : Nat) (c1 : Column) (m : Mask) (key : Nat) : State :=
  (s.setCol col c1).modCol col fun c => (c.countWord k).parkAt k m true key

theorem State.touches_barParked (s : State) (col k : Nat) (c1 : Column) (m : Mask) (key : Nat) : s.Touches (s.barParked col k c1 m key) col :=
  (s.touches_setCol col c1).trans (State.touches_modCol _ col _)

theorem State.col_barParked (s : State) (col k : Nat) (c1 : Column) (m : Mask) (key : Nat) :
    (s.barParked col k c1 m key).col col = (c1.countWord k).parkAt k m true key :=
  (State.col_modCol_same _ col _).trans (congrArg (fun c : Column => (c.countWord k).parkAt k m true key) (s.col_setCol_same col c1))

/-- The state of a word whose lanes have parked, after the test: the marker takes its effect and the run ends. -/
def State.parkEnds (v : State) (col k : Nat) : State := ((v.modCol col fun c => c.marked k).endPipe col k).dropFaults fun f => f == .split col k

theorem State.parkEnds_spec {s v : State} {col k : Nat} (ht : s.Touches v col) (hf : v.faults = s.faults) (hcr : v.cores = s.cores) :
    s.OnlyColumn (v.parkEnds col k) col k ∧ s.RunEnds (v.parkEnds col k) col k ∧ (v.parkEnds col k).col col = (v.col col).marked k := by
  refine ⟨State.onlyColumn_dropFaults ((ht.trans (v.touches_modCol col _)).trans (State.touches_endPipe _ col k)) hf, ⟨rfl, ?_⟩, ?_⟩
  · rw [← hcr]; rfl
  · exact ((State.col_dropFaults _ _ col).trans (State.col_endPipe _ col k col)).trans (State.col_modCol_same v col _)

section
variable {s : State} {w : Full} {col k : Nat} (hi : s.Issues col k) (hc : s.Clears col k w fmtBar noPts)
  (hn : ((s.col col).slot k).hnd = false) (he : (s.ctxFor col k w).en ≠ 0)
include hi hc hn he

theorem State.exec_bar_park {c1 : Column}
    (ho : (if barLevel w = 1 then (s.ctxFor col k w).cbarOut .bar else (s.ctxFor col k w).ubarOut .bar) = .park (s.setCol col c1)) : exec (.bar w) s =
      .next (((s.ctxFor col k w).barTest (s.barParked col k c1 (s.ctxFor col k w).en (barKey (barLevel w) (barNum w)))).parkEnds col k) :=
  State.exec_placed hi hc _ rfl (Ctx.barrier_park hn he ho)

/-- BAR that does not complete: the enabled lanes park, and the others go on. -/
theorem State.bar_parks {c1 : Column}
    (ho : (if barLevel w = 1 then (s.ctxFor col k w).cbarOut .bar else (s.ctxFor col k w).ubarOut .bar) = .park (s.setCol col c1))
    (hb : (s.col col).BarsOnly c1)
    (ht : ∀ v : State, (v.col col).cbar = c1.cbar → (v.col col).ubar = c1.ubar → (v.col col).live = c1.live →
      v.SameAs ((s.ctxFor col k w).barTest v) col) :
    ∃ t, exec (.bar w) s = .next t ∧ s.OnlyColumn t col k ∧ s.RunEnds t col k ∧ (t.col col).cbar = c1.cbar ∧ (t.col col).ubar = c1.ubar
      ∧ (t.col col).parked = (s.col col).parked ++ parkedOf (s.ctxFor col k w).en ((s.col col).slot k).pc true (barKey (barLevel w) (barNum w))
      ∧ ∀ l, l < 32 → ((s.col col).slot k).mask.getLsbD l = true → (s.ctxFor col k w).en.getLsbD l = false →
        (t.col col).LaneAt l (pcNext ((s.col col).slot k).pc) := by
  obtain ⟨hleft, -, hkeep, -⟩ := Column.parks_spec k (s.ctxFor col k w).en (barKey (barLevel w) (barNum w)) hb
  obtain ⟨hcb, hub, -, -, hlv⟩ := hkeep.bars
  have hv := s.col_barParked col k c1 (s.ctxFor col k w).en (barKey (barLevel w) (barNum w))
  obtain ⟨htv, hfv, hcv, -, hev⟩ := ht (s.barParked col k c1 (s.ctxFor col k w).en (barKey (barLevel w) (barNum w)))
    (by rw [hv, hcb]) (by rw [hv, hub]) (by rw [hv, hlv])
  obtain ⟨hoc, hre, hcm⟩ := State.parkEnds_spec (k := k) ((s.touches_barParked col k c1 _ _).trans htv) hfv hcv
  rw [hev, hv] at hcm
  obtain ⟨hcbm, hubm, hpkm, -⟩ := (hkeep.trans (Column.keepsAll_marked _ k)).bars
  refine ⟨_, State.exec_bar_park hi hc hn he ho, hoc, hre, by rw [hcm, hcbm], by rw [hcm, hubm], by rw [hcm, hpkm], fun l hl hm hm' => ?_⟩
  rw [hcm]; exact Column.staysPut_marked _ k l _ hl (hleft l hl hm hm')

section
variable (h1 : barLevel w = 1) (hd : (s.ctxFor col k w).en &&& (tabGet (s.col col).cbar (barNum w)).dropped = 0)
  (ha : (s.ctxFor col k w).en &&& (tabGet (s.col col).cbar (barNum w)).arrived = 0)
include h1 hd ha

/-- BAR at a column barrier that does not complete. -/
theorem State.cbar_parks (hopen : ((s.ctxFor col k w).arrival .bar).arrived ||| ((s.ctxFor col k w).arrival .bar).dropped ≠ 0xFFFFFFFF) :
    ∃ t, exec (.bar w) s = .next t ∧ s.OnlyColumn t col k ∧ s.RunEnds t col k ∧ tabGet (t.col col).cbar (barNum w) = (s.ctxFor col k w).arrival .bar
      ∧ (t.col col).parked = (s.col col).parked ++ parkedOf (s.ctxFor col k w).en ((s.col col).slot k).pc true (barKey 1 (barNum w))
      ∧ ∀ l, l < 32 → ((s.col col).slot k).mask.getLsbD l = true → (s.ctxFor col k w).en.getLsbD l = false →
        (t.col col).LaneAt l (pcNext ((s.col col).slot k).pc) := by
  obtain ⟨c1, hb, hbar, ho⟩ := s.cbarOut_arrives col k w (bw := .bar) (by decide) hd ha
  obtain ⟨t, ht, hoc, hre, hcb, -, hpk, hl⟩ := State.bar_parks hi hc hn he ((if_pos h1).trans ho) hb fun v hv _ _ =>
    Ctx.barTest_open (x := s.ctxFor col k w) h1 (Column.testCbar_open fun h => hopen (by
      rw [← hbar, ← hv]; exact h.2))
  exact ⟨t, ht, hoc, hre, by rw [hcb, hbar], by rw [hpk, h1], hl⟩

/-- BAR at a column barrier that completes: the enabled lanes too are at the next word. -/
theorem State.cbar_releases (hfull : ((s.ctxFor col k w).arrival .bar).arrived ||| ((s.ctxFor col k w).arrival .bar).dropped = 0xFFFFFFFF)
    (hr : (s.col col).reqs = []) : ∃ t, exec (.bar w) s = .next t ∧ s.Placed t col k (fun _ => pcNext ((s.col col).slot k).pc)
      ∧ (s.col col).BarDone (t.col col) (barNum w) ((s.ctxFor col k w).arrival .bar) := by
  obtain ⟨c1, hb, hbar, ho⟩ := s.cbarOut_arrives col k w (bw := .bar) (by decide) hd ha
  have hex := State.exec_bar_park hi hc hn he ((if_pos h1).trans ho)
  rw [h1] at hex
  obtain ⟨-, -, hkeep, -⟩ := Column.parks_spec k (s.ctxFor col k w).en (barKey 1 (barNum w)) hb
  obtain ⟨hcb, -, -, hrq, -⟩ := hkeep.bars
  obtain ⟨-, -, -, -, -, hrq1, -⟩ := hb.spec
  have hv := s.col_barParked col k c1 (s.ctxFor col k w).en (barKey 1 (barNum w))
  have htest : ((s.barParked col k c1 (s.ctxFor col k w).en (barKey 1 (barNum w))).col col).testCbar (barNum w) =
      ((s.barParked col k c1 (s.ctxFor col k w).en (barKey 1 (barNum w))).col col).completes (barNum w) := by
    rw [hv]
    exact Column.testCbar_full (by rw [hcb, hbar]; exact Ctx.arrival_ne_zero he) (by rw [hcb, hbar]; exact hfull) (hrq.trans (hrq1.trans hr))
  obtain ⟨htv, hfv, hcv, hdone, -⟩ := Ctx.barTest_full (x := s.ctxFor col k w) h1 htest
  obtain ⟨hgo, hret, hbd⟩ := Column.releases_spec hb (hv ▸ hdone)
  obtain ⟨hoc, -, hcm⟩ := State.parkEnds_spec (k := k) ((s.touches_barParked col k c1 _ _).trans htv) hfv hcv
  exact ⟨_, hex, State.placed_of hoc hcm hret hgo, hcm.symm ▸ hbar ▸ hbd⟩

end

end

/-! ## BARW, and barriers above column level -/

theorem Ctx.cbarOut_barw {x : Ctx} (hd : x.en &&& (tabGet x.c.cbar (barNum x.w)).dropped = 0) (ha : x.en &&& (tabGet x.c.cbar (barNum x.w)).arrived = 0) :
    x.cbarOut .barw = .on x.s := by
  have hno : ¬(x.en &&& (tabGet x.c.cbar (barNum x.w)).dropped &&& ~~~(tabGet x.c.cbar (barNum x.w)).arrived ≠ 0) := by
    rw [hd, not_not]; exact BitVec.zero_and
  exact (if_neg hno).trans (if_pos ha)

theorem Ctx.ubarOut_barw {x : Ctx} (hd : (tabGet x.c.ubar (barKey (barLevel x.w) (barNum x.w))).dropped = false)
    (ha : (tabGet x.c.ubar (barKey (barLevel x.w) (barNum x.w))).arrived = false) : x.ubarOut .barw = .on x.s := by
  have hno : ¬(((tabGet x.c.ubar (barKey (barLevel x.w) (barNum x.w))).dropped && !(tabGet x.c.ubar (barKey (barLevel x.w) (barNum x.w))).arrived) = true) := by
    rw [hd, Bool.false_and]; exact Bool.false_ne_true
  exact (if_neg hno).trans (if_neg (by rw [ha]; exact Bool.false_ne_true))

/-- A barrier of which an enabled lane is a member that has not arrived is not complete. -/
theorem not_full_of_member {en a d : Mask} (he : en ≠ 0) (hd : en &&& d = 0) (ha : en &&& a = 0) : a ||| d ≠ 0xFFFFFFFF := by
  intro h
  refine he ?_
  calc en = en &&& BitVec.allOnes 32 := BitVec.and_allOnes.symm
    _ = en &&& (a ||| d) := congrArg (en &&& ·) h.symm
    _ = en &&& a ||| en &&& d := BitVec.and_or_distrib_left
    _ = 0 := by rw [ha, hd]; exact BitVec.or_zero

/-- A live lane that is still to come after the enabled lanes was so before. -/
theorem lanes_to_come {v a en : Mask} (h : v &&& ~~~(a ||| en) ≠ 0) : v &&& ~~~a ≠ 0 := by
  intro h0
  refine h ?_
  rw [BitVec.not_or, ← BitVec.and_assoc, h0]
  exact BitVec.zero_and

section
variable {s : State} {w : Full} {col k : Nat} (hi : s.Issues col k) (hc : s.Clears col k w fmtBar noPts) (he : (s.ctxFor col k w).en ≠ 0)
include hi hc he

/-- BARW at a column barrier passes for members that have not arrived. -/
theorem State.barw_passes (hn : ((s.col col).slot k).hnd = false) (h1 : barLevel w = 1)
    (hd : (s.ctxFor col k w).en &&& (tabGet (s.col col).cbar (barNum w)).dropped = 0)
    (ha : (s.ctxFor col k w).en &&& (tabGet (s.col col).cbar (barNum w)).arrived = 0) : s.Passes (.barw w) col k w.marker :=
  State.bar_goes_on hi hc (i := .barw w) (bw := .barw) rfl (outside_handler hn) he
    ((if_pos h1).trans (Ctx.cbarOut_barw (x := s.ctxFor col k w) hd ha)) ⟨rfl, fun _ _ => rfl⟩ rfl rfl rfl rfl rfl
    (Ctx.barTest_open (x := s.ctxFor col k w) h1 (Column.testCbar_open fun h => not_full_of_member he hd ha h.2))

section
variable (h1 : barLevel w ≠ 1) {b : UBar} (hb : tabGet (s.col col).ubar (barKey (barLevel w) (barNum w)) = b) (hd : b.dropped = false) (ha : b.arrived = false)
  (hlive : (s.col col).live &&& ~~~(b.lanes ||| (s.ctxFor col k w).en) ≠ 0)
include h1 hb hd ha hlive

theorem State.barw_passes_upper (hn : ((s.col col).slot k).hnd = false) : s.Passes (.barw w) col k w.marker := by
  subst hb
  exact State.bar_goes_on hi hc (i := .barw w) (bw := .barw) rfl (outside_handler hn) he
    ((if_neg h1).trans (Ctx.ubarOut_barw (x := s.ctxFor col k w) hd ha)) ⟨rfl, fun _ _ => rfl⟩ rfl rfl rfl rfl rfl
    (Ctx.barTest_upper (x := s.ctxFor col k w) h1 (lanes_to_come hlive))

variable (hl : (s.ctxFor col k w).en &&& b.lanes = 0)
include hl

/-- BARA or BARD above column level, with a live lane still to come. -/
theorem State.ubar_goes_on {i : Instr} {bw : BarWord} (hex : exec i s = s.word w fmtBar noPts fun x => x.barrier bw)
    (hh : (((s.col col).slot k).hnd && bw != .bara) = false) (hbw : bw ≠ .barw ∧ bw ≠ .bar) (hk : b.lanes = 0 ∨ b.kind = bw.kind) :
    ∃ t, exec i s = .next t ∧ s.Performed t col k w.marker
      ∧ tabGet (t.col col).ubar (barKey (barLevel w) (barNum w)) = { b with lanes := b.lanes ||| (s.ctxFor col k w).en, kind := bw.kind } := by
  obtain ⟨c1, hbo, hub, ho⟩ := s.ubarOut_arrives col k w hbw.1 hb hd ha hl hk
  obtain ⟨-, -, -, -, -, -, hlv⟩ := hbo.spec
  have hcol := s.col_setCol_same col c1
  obtain ⟨t, ht, hp, hkeep⟩ := State.bar_goes_on hi hc hex hh he ((if_neg h1).trans (ho.trans (if_neg hbw.2))) (s.touches_setCol col _) rfl rfl rfl hcol hbo
    (Ctx.barTest_upper (x := s.ctxFor col k w) h1 (hcol.symm ▸ hub.symm ▸ hlv.symm ▸ hlive))
  exact ⟨t, ht, hp, by rw [hkeep.bars.2.1, hub]⟩

/-- BAR above column level, with a live lane still to come. -/
theorem State.ubar_parks (hn : ((s.col col).slot k).hnd = false) (hk : b.lanes = 0 ∨ b.kind = 1) :
    ∃ t, exec (.bar w) s = .next t ∧ s.OnlyColumn t col k
      ∧ tabGet (t.col col).ubar (barKey (barLevel w) (barNum w)) = { b with lanes := b.lanes ||| (s.ctxFor col k w).en, kind := 1 }
      ∧ (t.col col).parked = (s.col col).parked ++ parkedOf (s.ctxFor col k w).en ((s.col col).slot k).pc true (barKey (barLevel w) (barNum w)) := by
  obtain ⟨c1, hbo, hub, ho⟩ := s.ubarOut_arrives col k w (bw := .bar) (by decide) hb hd ha hl hk
  obtain ⟨-, -, -, -, -, -, hlv⟩ := hbo.spec
  obtain ⟨t, ht, hoc, -, -, hubt, hpk, -⟩ := State.bar_parks hi hc hn he ((if_neg h1).trans ho) hbo fun v _ hu hv =>
    Ctx.barTest_upper (x := s.ctxFor col k w) h1 (by
      rw [← hlv, ← hv] at hlive
      show (v.col col).live &&& ~~~(tabGet (v.col col).ubar (barKey (barLevel w) (barNum w))).lanes ≠ 0
      rw [hu, hub]; exact hlive)
  exact ⟨t, ht, hoc, by rw [hubt]; exact hub, hpk⟩

end

end

/-- Settles O36: an arrival and its test, complete or not, at column level, and above it while a live lane is still to come. -/
theorem barrierWords : Obligations.BarrierWords := by
  unfold Obligations.BarrierWords
  intro s w col k hi hc
  dsimp only
  refine ⟨fun he hn => ⟨?_, ?_, ?_, ?_⟩,
    fun ⟨he, h1, hd, ha⟩ => ⟨fun hf hr => ?_, fun hf => ?_, fun hn => ⟨fun hf hr => ?_, fun hf => ?_, fun hf hr => ?_, fun hf => ?_, ?_⟩⟩,
    fun he h1 hd ha hl hlive => ⟨fun hk => ?_, fun hn hk => ?_, fun hn hk => ?_, fun hn => ?_⟩⟩
  · exact State.bar_idle hi hc (bw := .bar) rfl hn he
  · exact State.bar_idle hi hc (bw := .bara) rfl hn he
  · exact State.bar_idle hi hc (bw := .barw) rfl hn he
  · exact State.bar_idle hi hc (bw := .bard) rfl hn he
  · exact State.cbar_completes hi hc (bw := .bara) rfl (Bool.and_false _) he h1 (by decide) hd ha hf hr
  · exact State.cbar_goes_on hi hc (bw := .bara) rfl (Bool.and_false _) he h1 (by decide) hd ha hf
  · exact State.cbar_completes hi hc (bw := .bard) rfl (outside_handler hn) he h1 (by decide) hd ha hf hr
  · exact State.cbar_goes_on hi hc (bw := .bard) rfl (outside_handler hn) he h1 (by decide) hd ha hf
  · exact State.cbar_releases hi hc hn he h1 hd ha hf hr
  · exact State.cbar_parks hi hc hn he h1 hd ha hf
  · exact State.barw_passes hi hc he hn h1 hd ha
  · exact State.ubar_goes_on hi hc he h1 rfl hd ha hlive hl (bw := .bara) rfl (Bool.and_false _) (by decide) hk
  · exact State.ubar_goes_on hi hc he h1 rfl hd ha hlive hl (bw := .bard) rfl (outside_handler hn) (by decide) hk
  · exact State.ubar_parks hi hc he h1 rfl hd ha hlive hl hn hk
  · exact State.barw_passes_upper hi hc he h1 rfl hd ha hlive hn

end Sys2Proof.Machine
